-- ==== Sys2Proof/Word.lean ====
section
/-! DEFINITION. The word types of the block: bytes, 32-bit register words, 64-bit header words. -/

namespace Sys2Proof

/-- A byte of store, slow tier or host memory. -/
abbrev Byte := BitVec 8

/-- A word of the configuration space, 32 bits (R342). -/
abbrev Word := BitVec 32

/-- A 64-bit quantity: the cadence phase, a table entry, a seed. -/
abbrev DWord := BitVec 64

end Sys2Proof
end

