-- ==== Sys2Proof/Config.lean ====
section
/-! DEFINITION. The constants that the manual fixes for every block of version 1.3. -/

namespace Sys2Proof.Config

/-- `BLK.VER` of the block this model describes (R1). -/
def version : Word := 0x00010003#32

/-- Bytes of a granule, the unit of translation (Table 00-6). -/
def granule : Nat := 0x8000

/-- Bytes of a store or slow-tier row (R180). -/
def rowBytes : Nat := 512

/-- Bytes of a slice (R179). -/
def sliceBytes : Nat := 0x80000000

/-- Rows of a bank that have an address, and its spare rows (R179, Table 01-9). -/
def rowsPerBank : Nat := 131072
def sparesPerBank : Nat := 1024

/-- First byte of the slow tier and bytes of address space per port (Table 08-7). -/
def slowBase : Nat := 0x010000000000
def slowPortBytes : Nat := 0x001000000000

/-- First byte of host memory (Table 08-7). -/
def hostBase : Nat := 0x800000000000

/-- Lookahead of a stream (R274). -/
def lookahead : Nat := 64

/-- Pin slots of a partition (R225). -/
def pinSlots : Nat := 256

/-- Entries of the write-back queue of a slice or a port (R188, R338). -/
def writeBackRows : Nat := 16

/-- Rows that a tracker of corrections holds (R386). -/
def trackerRows : Nat := 64

/-- Landing frames, the initial credit, of a virtual channel (Table 14-3). -/
def landing : Nat → Nat
  | 0 => 12
  | 1 => 12
  | 2 => 4
  | 3 => 4
  | _ => 0

/-- Credits that the block returns on `FABp_TQ_CRED` at the end of reset (R329). -/
def tqCredits : Nat := 64

/-- Segments that a keeper tracks at once (R376). -/
def mirrorSegments : Nat := 16

/-- A value that the manual does not state, a fresh one for each number: nothing is known of it. -/
opaque freeWord : Nat → Word

/-- The score of a page for a query group without made rows, by the group's number and the page: R148 states none. -/
opaque noRowScore : Nat → Nat → Word

end Sys2Proof.Config
end

