-- ==== Sys2Proof/Syntax.lean ====
section
/-! DEFINITION. The commands of the block: one constructor for each row of the opcode table, with
the operands that the row's own words give (a partition, a stream, a channel, a port, an address,
a value, or what a sensor, a fuse store, a self-test or a link finds). -/

namespace Sys2Proof

/-- A partition number (R305). -/
abbrev Part := Fin 8

/-- A channel, and the slice of the same number (R11). -/
abbrev Chan := Fin 8

/-- A fabric port (Table 13-1). -/
abbrev FabPort := Fin 32

/-- A slow-tier port (Table 13-1). -/
abbrev SlowPort := Fin 16

/-- A remote port (Table 13-1). -/
abbrev RemPort := Fin 64

/-- A register page index (R432). -/
abbrev PageIx := Fin 4096

/-- The four streams of a partition (R256). -/
inductive Strm where
  | F | B | U | S
  deriving DecidableEq, Repr, Inhabited

/-- The number of a stream (R256). -/
def Strm.num : Strm → Nat
  | .F => 0 | .B => 1 | .U => 2 | .S => 3

/-- One beat of a fabric request: data and byte mask (R327). -/
structure Beat where
  data : BitVec 1024
  mask : BitVec 128
  deriving DecidableEq, Repr

/-- A memory with its own patrol scrub and write-back queue: a slice of store or a slow-tier
port (R189, R340). -/
inductive RowUnit where
  | slice (n : Chan)
  | port  (q : SlowPort)
  deriving DecidableEq, Repr

/-- An upset of stored cells: in the row at physical address `row` (slow-tier spare rows included),
symbol `sym` of the codeword differs by `diff` (R186). -/
structure Upset where
  row  : Nat
  sym  : Nat
  diff : BitVec 16
  deriving DecidableEq, Repr

/-- A frame as a remote port receives it: its bytes, and the beats that came with `SOF` set, by number (R350). -/
structure LinkFrame where
  bytes : List Byte
  sof   : BitVec 64
  deriving DecidableEq, Repr

/-- What the arrays and memories of a channel report while a unit runs: a residue mismatch, a double-bit error of a
memory, or a number of single-bit errors corrected in passing (R392, R393). -/
inductive UnitUpset where
  | residue (array : Nat) (column : Nat) (group : Nat)
  | dataMem (mem : Nat) (word : Nat)
  | corrected (count : Nat)
  deriving DecidableEq, Repr

/-- The failing physical columns of one page lane, as a self-test finds them (R76, R451). -/
structure LaneReport where
  array   : Nat
  lane    : Nat
  columns : List Nat
  deriving DecidableEq, Repr

/-- The fuse store of a part (R418, Table 16-7): the source of `BLK.CAP`, the factory columns of
each page lane, the factory row steerings as row entries of Table 15-4, the thermal words and the
voltage words of Table 17-8. `crcOk` says whether its CRC-32C holds. -/
structure FuseImage where
  cap     : Word
  columns : List (Nat × LaneReport)
  rows    : List (Word × Word)
  th      : List Word
  vf      : List Word
  crcOk   : Bool
  deriving DecidableEq, Repr

/-- The commands of the block, in the order of the opcode table. -/
inductive Instr where
  | fence (p : Part) (s : Strm)
  | fenceTimeout (p : Part) (s : Strm)
  | taskBegin (p : Part) (s : Strm)
  | taskEnd (p : Part) (s : Strm)
  | waitPhase (p : Part) (s : Strm)
  | stamp (p : Part) (s : Strm)
  | attnFwd (p : Part) (s : Strm)
  | attnBwdA (p : Part) (s : Strm)
  | attnBwdB (p : Part) (s : Strm)
  | attnDec (p : Part) (s : Strm)
  | swarmDeadline (p : Part)
  | pageSelect (p : Part) (s : Strm)
  | softmax (p : Part) (s : Strm)
  | fn (p : Part) (s : Strm)
  | norm (p : Part) (s : Strm)
  | rot (p : Part) (s : Strm)
  | seqOpen (p : Part) (s : Strm)
  | seqAppend (p : Part) (s : Strm)
  | seqFork (p : Part) (s : Strm)
  | seqFree (p : Part) (s : Strm)
  | seqPark (p : Part) (s : Strm)
  | seqResume (p : Part) (s : Strm)
  | poolCompact (p : Part) (s : Strm)
  | reclaimWinExpiry (p : Part)
  | lossEdit (p : Part)
  | moltSend (p : Part) (s : Strm)
  | moltRecv (p : Part) (s : Strm)
  | moltLocal (p : Part) (s : Strm)
  | xfer (p : Part) (s : Strm)
  | feed (p : Part) (s : Strm)
  | transferPeriod (p : Part) (slot : Fin 32)
  | ringStepAttn (p : Part) (s : Strm)
  | ringStepGather (p : Part) (s : Strm)
  | redRecv (p : Part) (s : Strm)
  | mirrorSeg (p : Part) (s : Strm)
  | mirrorAloneExpiry (port : RemPort)
  | snap (p : Part) (s : Strm)
  | snapQuiesce (p : Part)
  | snapTimeout (p : Part)
  | ringPoll (p : Part) (s : Strm)
  | completionRecordWrite (p : Part) (s : Strm)
  | channelTakeUnit (ch : Chan)
  | unitEnd (ch : Chan) (upset : Option UnitUpset)
  | streamArm (bits : BitVec 4)
  | streamDisarm (bits : BitVec 4)
  | cancel (value : BitVec 4)
  | commitCalu
  | rowLoad (word1 : Word)
  | commitFlt
  | commitWbt
  | commitPwr
  | commitPart
  | commitStrm
  | commitStore
  | commitXlat
  | xlatMap
  | xlatUnmap
  | commitPool
  | commitFtab
  | commitMir
  | commitSnap
  | snapRestore
  | svcVector (ch : Chan)
  | svcRun (ch : Chan)
  | channelReturn (ch : Chan)
  | commitPastSpare (ch : Chan)
  | selfTestStart (ch : Chan)
  | selfTestDone (ch : Chan) (report : List LaneReport)
  | retest (ch : Chan)
  | commitMemp (q : SlowPort)
  | slowPortDrain (q : SlowPort)
  | drainReliefEdit (q : SlowPort)
  | slowPortRetire (q : SlowPort)
  | commitRpg
  | commitFab
  | fabricPortRetire
  | groupCommit
  | commitSwitch (page : PageIx)
  | commitFollowOnEnd (page : PageIx)
  | revert (page : PageIx)
  | sliceLose (bits : BitVec 8)
  | readLCapture (addr : BitVec 24)
  | registerWrite (addr : BitVec 24) (data : Word)
  | rstNAssert (testEn : Bool)
  | rstNRelease
  | fuseLoadDone (image : FuseImage)
  | startupSelfTestDone (reports : List (List LaneReport))
  | storeInitDone
  | cadenceTick (phase : DWord)
  | cadValidFall
  | pwrAck
  | budgetInChange (value : BitVec 16)
  | budgetRefill
  | temperatureReading (ch : Chan) (code : BitVec 12)
  | powerStateEntry (ch : Chan)
  | powerWakeStart (ch : Chan)
  | dozeWakeRequest (slice : Chan)
  | sramRetentionAck (tier : Chan) (level : Bool)
  | fabricTargetRead (port : FabPort) (hdr : BitVec 80) (upsets : List Upset)
  | fabricTargetWrite (port : FabPort) (hdr : BitVec 80) (beats : List Beat)
  | fabricIqCredit (port : FabPort)
  | fabricIpResponse (port : FabPort) (hdr : BitVec 16) (data : List (BitVec 1024))
  | fabricResponseTimeout (port : FabPort) (tag : BitVec 8)
  | headerFrameReceive (port : RemPort) (frame : LinkFrame) (err : Bool)
  | dataFrameReceive (port : RemPort) (frame : LinkFrame) (err : Bool)
  | freedReportTimer (port : RemPort)
  | linkUp (port : RemPort)
  | linkDown (port : RemPort)
  | remoteTimeout (p : Part) (s : Strm) (stamp : Word)
  | slowPortBringUp (q : SlowPort)
  | dfiInitComplete (q : SlowPort)
  | slowPortReady (q : SlowPort)
  | trainingTimeout (q : SlowPort)
  | dfiError (q : SlowPort) (code : BitVec 8)
  | dfiPhyUpdate (q : SlowPort)
  | refresh (q : SlowPort)
  | patrolScrubStep (unit : RowUnit) (upsets : List Upset)
  | correctionWriteBack (unit : RowUnit)
  | channelWatchdog (ch : Chan)
  | ctlParity (ch : Chan) (group : BitVec 8)
  | sliceLinkFail (slice : Chan)
  | wrapperInstruction (code : BitVec 8)
  | cadValidRise
  deriving DecidableEq, Repr

end Sys2Proof
end

