-- ==== Sys2Proof/Machine/Bits.lean ====
section
/-! DEFINITION. Bit fields, sign extension, byte order, CRC-32C and the sparse words that registers
are held in: helpers without a state. -/

namespace Sys2Proof.Machine

open Sys2Proof

/-- Bits [lo + width − 1 : lo] of `n`. -/
def field (n lo width : Nat) : Nat := (n >>> lo) % 2 ^ width

/-- Bit `i` of `n`. -/
def bitOf (n i : Nat) : Bool := n.testBit i

/-- `n` as a two's complement number of `w` bits. -/
def signed (w n : Nat) : Int :=
  if n % 2 ^ w < 2 ^ (w - 1) then (n % 2 ^ w : Nat) else (n % 2 ^ w : Nat) - (2 ^ w : Nat)

/-- An integer as `w` bits of two's complement. -/
def toBits (w : Nat) (x : Int) : Nat := (x % (2 ^ w : Nat)).toNat

/-- The numbers below `n` whose bit of `mask` is set, ascending. -/
def bitsOf (n mask : Nat) : List Nat := (List.range n).filter fun i => bitOf mask i

/-- Least multiple of `a` not below `n`. -/
def roundUp (n a : Nat) : Nat := (n + a - 1) / a * a

/-- ⌈a / b⌉. -/
def ceilDiv (a b : Nat) : Nat := (a + b - 1) / b

/-- The bytes of `n`, `k` of them, little-endian. -/
def leBytes : Nat → Nat → List Byte
  | 0, _ => []
  | k + 1, n => BitVec.ofNat 8 n :: leBytes k (n / 256)

/-- The number that little-endian bytes hold. -/
def leNat : List Byte → Nat
  | [] => 0
  | b :: bs => b.toNat + 256 * leNat bs

/-- The number in bytes `off` to `off + k − 1` of a list, little-endian; missing bytes read as 0. -/
def leAt (bs : List Byte) (off k : Nat) : Nat := leNat ((bs.drop off).take k)

/-- The words of `n`, `k` of them, as bytes: a run of `k` 32-bit little-endian words. -/
def wordBytes (ws : List Word) : List Byte := ws.flatMap fun w => leBytes 4 w.toNat

/-- `k` zero bytes. -/
def zeroBytes (k : Nat) : List Byte := List.replicate k 0

/-- `bs` cut or filled with zero to `k` bytes. -/
def fitBytes (k : Nat) (bs : List Byte) : List Byte := (bs ++ zeroBytes (k - bs.length)).take k

/-- Whether every byte is zero. -/
def allZero (bs : List Byte) : Bool := bs.all (· == 0)

/-- One bit step of CRC-32C, reflected polynomial `0x82F6_3B78` (R351). -/
def crcBit (c : Nat) : Nat := if c % 2 = 1 then (c / 2) ^^^ 0x82F63B78 else c / 2

/-- One byte of CRC-32C. -/
def crcByte (c : Nat) (b : Byte) : Nat :=
  crcBit (crcBit (crcBit (crcBit (crcBit (crcBit (crcBit (crcBit (c ^^^ b.toNat))))))))

/-- CRC-32C of RFC 3720: initial value and final XOR all ones (R351). -/
def crc32c (bs : List Byte) : Nat := (bs.foldl crcByte 0xFFFFFFFF) ^^^ 0xFFFFFFFF

/-- A sparse word: what is listed at `k`, or `dflt`. -/
def wordsGet (ws : List (Nat × Word)) (k : Nat) (dflt : Word) : Word :=
  match ws with
  | [] => dflt
  | (j, w) :: rest => if j = k then w else if k < j then dflt else wordsGet rest k dflt

/-- Drop what is listed at `k`. -/
def wordsDrop (ws : List (Nat × Word)) (k : Nat) : List (Nat × Word) :=
  match ws with
  | [] => []
  | (j, w) :: rest => if j = k then rest else if k < j then (j, w) :: rest else (j, w) :: wordsDrop rest k

/-- List `w` at `k`, in ascending order. -/
def wordsPut (ws : List (Nat × Word)) (k : Nat) (w : Word) : List (Nat × Word) :=
  match ws with
  | [] => [(k, w)]
  | (j, v) :: rest =>
    if j = k then (k, w) :: rest
    else if k < j then (k, w) :: (j, v) :: rest
    else (j, v) :: wordsPut rest k w

/-- Write `w` at `k`, where an unlisted word reads as `dflt`: the canonical form lists no word at its
default. -/
def wordsSet (ws : List (Nat × Word)) (k : Nat) (dflt w : Word) : List (Nat × Word) :=
  if w = dflt then wordsDrop ws k else wordsPut ws k w

/-- Keys ascend without repeats. -/
abbrev wordsAsc (ws : List (Nat × Word)) : Prop := ws.Pairwise fun a b => a.1 < b.1

/-- The value listed for a key, or a default. -/
def assocD {α : Type} (l : List (Nat × α)) (k : Nat) (d : α) : α :=
  match l.find? (fun e => e.1 == k) with
  | some e => e.2
  | none => d

/-- Set the value of a key in a list of pairs, at the end where it is new. -/
def assocSet {α : Type} (l : List (Nat × α)) (k : Nat) (v : α) : List (Nat × α) :=
  if l.any (fun e => e.1 == k) then l.map (fun e => if e.1 = k then (k, v) else e) else l ++ [(k, v)]

/-- Insert a number into an ascending list without repeats. -/
def insertAsc (x : Nat) : List Nat → List Nat
  | [] => [x]
  | y :: ys => if x < y then x :: y :: ys else if x = y then y :: ys else y :: insertAsc x ys

/-- Insertion sort by a strict order. -/
def sortBy {α : Type} (lt : α → α → Bool) (l : List α) : List α :=
  l.foldl (fun acc x =>
    let (a, b) := acc.span (fun y => !(lt x y))
    a ++ x :: b) []

/-- Replace the element at index `i` of a list. -/
def listSet {α : Type} (l : List α) (i : Nat) (x : α) : List α := l.set i x

/-- The low 32 bits. -/
def lo32 (n : Nat) : Nat := n % 2 ^ 32

/-- Whether stamp `a` is before `b`, compared modulo 2³² (R277). -/
def stampLt (a b : Word) : Bool := a != b && (b - a).toNat < 2 ^ 31

/-- Whether stamp `a` is at or after `b`, compared modulo 2³² (R277). -/
def stampGe (a b : Word) : Bool := !(stampLt a b)

end Sys2Proof.Machine
end

