-- ==== Sys2Proof/Machine/Fp.lean ====
section
/-! DEFINITION. FP32 arithmetic, exact and then rounded once to nearest even (Table 02-3). The block
never makes an infinity (R40): the pattern `0x7F80_0000` is what a rounding point gives in place of a
magnitude beyond the FP32 maximum, and every operation carries it on, so that the unit that made it
faults with `OVERFLOW` (R41). -/

namespace Sys2Proof.Machine

open Sys2Proof

/-- FP32, its bits. -/
abbrev F32 := BitVec 32

def f32Zero : F32 := 0
def f32One : F32 := 0x3F800000#32
def f32NaN : F32 := 0x7FC00000#32
/-- The mark of a range that was exceeded (R41). -/
def f32Ovf : F32 := 0x7F800000#32
/-- The mark of an empty row in row statistics (R100). -/
def f32Empty : F32 := 0xFF800000#32

def f32Exp (a : F32) : Nat := field a.toNat 23 8
def f32Man (a : F32) : Nat := field a.toNat 0 23
def f32Neg (a : F32) : Bool := bitOf a.toNat 31
def f32IsNaN (a : F32) : Bool := f32Exp a == 255 && f32Man a != 0
def f32IsOvf (a : F32) : Bool := f32Exp a == 255 && f32Man a == 0
def f32IsZero (a : F32) : Bool := f32Exp a == 0 && f32Man a == 0

/-- A value read from memory: an infinity is NaN on entry, and NaN is the one quiet NaN (R39, R40). -/
def f32Entry (a : F32) : F32 := if f32Exp a = 255 then f32NaN else a

/-- The bits of a magnitude, with a sign. -/
def f32WithSign (neg : Bool) (n : Nat) : F32 := BitVec.ofNat 32 (if neg then n + 2 ^ 31 else n)

/-- The significand and the exponent of a finite number: its magnitude is m × 2^e. -/
def f32Mag (a : F32) : Nat × Int :=
  if f32Exp a = 0 then (f32Man a, -149) else (f32Man a + 2 ^ 23, (f32Exp a : Int) - 150)

/-- A finite number as a signed significand and an exponent. -/
def f32Val (a : F32) : Int × Int :=
  let (m, e) := f32Mag a
  (if f32Neg a then -(m : Int) else (m : Int), e)

/-- An exact number: its sign and its magnitude m × 2^e. -/
structure Exact where
  neg : Bool
  m   : Nat
  e   : Int
  deriving DecidableEq, Repr

/-- The exact value of a finite FP32 number; none for a NaN. -/
def f32Exact (a : F32) : Option Exact :=
  if f32Exp a = 255 then none else let (m, e) := f32Mag a; some { neg := f32Neg a, m := m, e := e }

/-- The exact value x × 2^e of a signed integer, whose zero is +0. -/
def intExact (x e : Int) : Exact := { neg := decide (x < 0), m := x.natAbs, e := e }

/-- The number of bits of `n`. -/
def bitLen (n : Nat) : Nat := if n = 0 then 0 else n.log2 + 1

/-- m × 2^(−k) rounded to the nearest integer, ties to even. -/
def rneShift (m : Nat) (k : Int) : Nat :=
  if k ≤ 0 then m <<< (-k).toNat
  else
    let k := k.toNat
    let q := m >>> k
    let r := m % 2 ^ k
    let half := 2 ^ (k - 1)
    if r > half || (r == half && q % 2 == 1) then q + 1 else q

/-- The magnitude m × 2^e rounded once to FP32, subnormals kept; beyond the maximum the mark of R41. -/
def f32Round (neg : Bool) (m : Nat) (e : Int) : F32 :=
  if m = 0 then f32WithSign neg 0
  else
    let q := max (e + bitLen m - 24) (-149)
    let r := rneShift m (q - e)
    let b := (q + 149).toNat * 2 ^ 23 + r
    if b ≥ 0x7F800000 then f32Ovf else f32WithSign neg b

/-- A signed value x × 2^e rounded once; a zero is +0. -/
def f32OfInt (x e : Int) : F32 := f32Round (x < 0) x.natAbs e

/-- The product of two exact numbers, rounded once; NaN where one is NaN. -/
def exactMul (a b : Option Exact) : F32 :=
  match a, b with
  | some x, some y => f32Round (x.neg != y.neg) (x.m * y.m) (x.e + y.e)
  | _, _ => f32NaN

/-- Whether NaN, or the mark of R41, settles the result of an operation: the mark first. -/
def f32Special (a b : F32) : Option F32 :=
  if f32IsOvf a || f32IsOvf b then some f32Ovf
  else if f32IsNaN a || f32IsNaN b then some f32NaN
  else none

/-- a + b, RNE. An exact zero is +0, unless both are −0. -/
def f32Add (a b : F32) : F32 :=
  match f32Special a b with
  | some r => r
  | none =>
    let (x, ex) := f32Val a
    let (y, ey) := f32Val b
    let e := min ex ey
    let s := x * 2 ^ (ex - e).toNat + y * 2 ^ (ey - e).toNat
    if s = 0 then f32WithSign (f32Neg a && f32Neg b && f32IsZero a && f32IsZero b) 0
    else f32Round (s < 0) s.natAbs e

/-- −a. -/
def f32Negate (a : F32) : F32 := if f32IsNaN a || f32IsOvf a then a else a ^^^ 0x80000000#32

/-- a − b, RNE. -/
def f32Sub (a b : F32) : F32 := f32Add a (f32Negate b)

/-- a × b, RNE. -/
def f32Mul (a b : F32) : F32 :=
  match f32Special a b with
  | some r => r
  | none =>
    let (x, ex) := f32Mag a
    let (y, ey) := f32Mag b
    f32Round (f32Neg a != f32Neg b) (x * y) (ex + ey)

/-- a / b, correctly rounded. A division by zero has no finite value: the mark of R41. -/
def f32Div (a b : F32) : F32 :=
  match f32Special a b with
  | some r => r
  | none =>
    let (x, ex) := f32Mag a
    let (y, ey) := f32Mag b
    let neg := f32Neg a != f32Neg b
    if y = 0 then f32Ovf
    else if x = 0 then f32WithSign neg 0
    else
      let k := 30 + bitLen y
      let n := x <<< k
      f32Round neg (2 * (n / y) + (if n % y = 0 then 0 else 1)) (ex - ey - k - 1)

/-- ⌊√n⌋ by bits, from bit `k` down. -/
def sqrtBits (n : Nat) : Nat → Nat → Nat
  | 0, acc => acc
  | k + 1, acc =>
    let t := acc + 2 ^ k
    sqrtBits n k (if t * t ≤ n then t else acc)

/-- 1/√a, correctly rounded (R176): a zero has no finite value, a negative number gives NaN. -/
def f32Rsqrt (a : F32) : F32 :=
  if f32IsOvf a then f32Ovf
  else if f32IsNaN a then f32NaN
  else if f32IsZero a then f32Ovf
  else if f32Neg a then f32NaN
  else
    let (m, e) := f32Mag a
    -- an even exponent, then 2^(2t) / m with 2t chosen so that the root has at least 30 bits
    let (m, e) := if e % 2 = 0 then (m, e) else (2 * m, e - 1)
    let t := 40 + bitLen m
    let n := 2 ^ (2 * t)
    let q := n / m
    let r := sqrtBits q (t + 2) 0
    f32Round false (2 * r + (if r * r * m = n then 0 else 1)) (-(e / 2) - t - 1)

/-- Order of finite numbers by value, −0 equal to +0. -/
def f32Lt (a b : F32) : Bool :=
  let (x, ex) := f32Val a
  let (y, ey) := f32Val b
  let e := min ex ey
  x * 2 ^ (ex - e).toNat < y * 2 ^ (ey - e).toNat

/-- Equality of values, −0 equal to +0; false for a NaN. -/
def f32Eq (a b : F32) : Bool :=
  !(f32IsNaN a) && !(f32IsNaN b) && (a == b || (f32IsZero a && f32IsZero b))

/-- The larger under the order −0 < +0 (R93, R98). The mark of R41 and NaN are carried on. -/
def f32Max (a b : F32) : F32 :=
  match f32Special a b with
  | some r => r
  | none => if f32Lt a b then b else if f32Lt b a then a else if f32Neg a then b else a

/-- The smaller under the order −0 < +0. -/
def f32Min (a b : F32) : F32 :=
  match f32Special a b with
  | some r => r
  | none => if f32Lt a b then a else if f32Lt b a then b else if f32Neg a then a else b

/-- The FP32 of a natural number, RNE. -/
def f32OfNat (n : Nat) : F32 := f32Round false n 0

/-- BF16 bits as FP32. -/
def bf16ToF32 (b : Nat) : F32 := BitVec.ofNat 32 (b % 2 ^ 16 * 2 ^ 16)

/-- FP32 to BF16, RNE; NaN is `0x7FC0` (Table 02-3). A magnitude beyond the range gives `0x7F80`, the
mark of R41. -/
def f32ToBf16 (a : F32) : Nat :=
  if f32IsNaN a then 0x7FC0
  else if f32IsOvf a then 0x7F80
  else
    let n := a.toNat % 2 ^ 31
    let r := rneShift n 16
    if r ≥ 0x7F80 then 0x7F80 else if f32Neg a then r + 2 ^ 15 else r

/-- One level of pairwise addition. -/
def pairLevel : List F32 → List F32
  | a :: b :: rest => f32Add a b :: pairLevel rest
  | l => l

/-- `k` levels of pairwise addition (R30, R109, R172). -/
def pairTree : Nat → List F32 → List F32
  | 0, l => l
  | k + 1, l => pairTree k (pairLevel l)

/-- The root of a pairwise tree of `k` levels over 2^k leaves. -/
def treeSum (k : Nat) (l : List F32) : F32 := ((pairTree k l).head?).getD f32Zero

/-- `l` filled with +0 to `n` leaves. -/
def padZero (n : Nat) (l : List F32) : List F32 := (l ++ List.replicate (n - l.length) f32Zero).take n

/-- A list cut into blocks of `n` (the last may be shorter); `fuel` bounds the blocks. -/
def chunksOf {α : Type} (n : Nat) : Nat → List α → List (List α)
  | 0, _ => []
  | fuel + 1, l => if l.isEmpty || n = 0 then [] else l.take n :: chunksOf n fuel (l.drop n)

/-- tsum of R172: blocks of 1024 in ten pairwise levels, the block sums added in order. -/
def tsum (l : List F32) : F32 :=
  match (chunksOf 1024 l.length l).map (fun b => treeSum 10 (padZero 1024 b)) with
  | [] => f32Zero
  | s :: rest => rest.foldl f32Add s

end Sys2Proof.Machine
end

