-- ==== Sys2Proof/Machine/Formats.lean ====
section
/-! DEFINITION. The number formats of Table 02-1: codes, lane integers (R24 to R26), the draws of
stochastic rounding (R34 to R36) and quantisation (R33, R37, R38). -/

namespace Sys2Proof.Machine

open Sys2Proof

/-- Element bits of a format code (Table 02-1). -/
def fmtBits (f : Nat) : Nat :=
  [16, 32, 4, 6, 6, 8, 8, 8, 2, 2, 4, 6, 4, 6, 8, 16].getD f 8

/-- Serial width of a streamed format (Table 02-1). -/
def fmtWidth (f : Nat) : Nat :=
  [1, 1, 5, 7, 8, 8, 12, 1, 2, 2, 4, 6, 4, 6, 8, 1].getD f 1

def isFloat (f : Nat) : Bool := f < 2
/-- A format with one E8M0 scale for each block of 32. -/
def isBlock (f : Nat) : Bool := 2 ≤ f && f ≤ 11
/-- A format that may be streamed and stationary. -/
def isArrayFmt (f : Nat) : Bool := isBlock f && f != 7
def isProb (f : Nat) : Bool := 12 ≤ f && f ≤ 14
/-- A format that a conversion may name (Table 02-1). -/
def isConv (f : Nat) : Bool := f < 12

/-- Bias and mantissa bits of the minifloats. -/
def fmtBiasM (f : Nat) : Option (Nat × Nat) :=
  match f with
  | 2 => some (1, 1) | 3 => some (1, 3) | 4 => some (3, 2) | 6 => some (7, 3) | 7 => some (15, 2)
  | _ => none

/-- emax of Table 02-2a, and 15 for E5M2 (R33). -/
def fmtEmax (f : Nat) : Int :=
  match f with
  | 2 => 2 | 3 => 2 | 4 => 4 | 5 => 0 | 6 => 8 | 7 => 15 | 8 => 0 | 9 => 0 | 10 => 2 | 11 => 4
  | _ => 0

/-- Bits of one element's code in a run of packed codes (R21). -/
def codeAt (bytes : List Byte) (width k : Nat) : Nat :=
  let bit := k * width
  field (leAt bytes (bit / 8) 4) (bit % 8) width

/-- Pack codes of `width` bits, element 0 lowest (R21). -/
def packCodes (width : Nat) (codes : List Nat) : List Byte :=
  let n := codes.foldr (fun c acc => c % 2 ^ width + acc * 2 ^ width) 0
  leBytes (ceilDiv (codes.length * width) 8) n

/-- Whether a code is NaN: S.1111.111 of E4M3 (R26); any code of E5M2 with a full exponent (R40). -/
def codeNaN (f c : Nat) : Bool :=
  (f == 6 && c % 128 == 127) || (f == 7 && field c 2 5 == 31)

/-- The plain value of a code, as a signed integer and a power of two, without its scale (R24). -/
def codeVal (f c : Nat) : Int × Int :=
  match fmtBiasM f with
  | some (bias, m) =>
    let w := fmtBits f
    let x := field c m (w - 1 - m)
    let man := field c 0 m
    let g : Nat := if x = 0 then man else man + 2 ^ m
    let eps : Nat := max x 1
    (if bitOf c (w - 1) then -(g : Int) else g, (eps : Int) - bias - m)
  | none =>
    if f = 5 then (signed 8 c, -6)
    else (signed (fmtBits f) c, 0)

/-- The lane integers of a block (R24 to R26): one for each element, which elements are NaN, how many
lost a nonzero bit, and the unit exponent f. -/
structure LaneBlock where
  lanes : List Int
  nan   : List Bool
  trunc : Nat
  f     : Int
  deriving DecidableEq, Repr

/-- The alignment of R25 for one element. -/
def alignLane (f m k : Nat) (epsMax : Nat) (c : Nat) : Int × Bool :=
  if codeNaN f c then (0, false)
  else
    let w := fmtBits f
    let x := field c m (w - 1 - m)
    let g := if x = 0 then field c 0 m else field c 0 m + 2 ^ m
    let sh := epsMax - max x 1
    let a := g * 2 ^ (k - m - 1)
    let mag := a / 2 ^ sh
    (if bitOf c (w - 1) then -(mag : Int) else mag, a % 2 ^ sh != 0)

/-- The lane integers of the codes of one block. -/
def laneBlock (f : Nat) (codes : List Nat) : LaneBlock :=
  if f = 4 || f = 6 then
    let (bias, m, k) := if f = 4 then (3, 2, 7) else (7, 3, 11)
    let w := fmtBits f
    let eps := codes.map fun c =>
      if codeNaN f c then 0
      else
        let x := field c m (w - 1 - m)
        let g := if x = 0 then field c 0 m else field c 0 m + 2 ^ m
        if g = 0 then 0 else max x 1
    let epsMax := max 1 (eps.foldl max 0)
    let ls := codes.map (alignLane f m k epsMax)
    { lanes := ls.map (·.1), nan := codes.map (codeNaN f),
      trunc := (ls.filter (·.2)).length, f := (epsMax : Int) - bias - k + 1 }
  else if f = 2 || f = 3 then
    let u : Int := if f = 2 then -1 else -3
    { lanes := codes.map fun c => let (x, e) := codeVal f c; x * 2 ^ (e - u).toNat,
      nan := codes.map fun _ => false, trunc := 0, f := u }
  else if isProb f then
    { lanes := codes.map fun c => ((c % 2 ^ fmtBits f : Nat) : Int), nan := codes.map fun _ => false,
      trunc := 0, f := -(fmtBits f : Int) }
  else
    { lanes := codes.map fun c => (codeVal f c).1, nan := codes.map fun _ => false, trunc := 0,
      f := if f = 5 then -6 else 0 }

/-- A step of the Galois generator (R35). -/
def lfsrStep (s : Nat) : Nat := if s % 2 = 1 then (s / 2) ^^^ 0x80200003 else s / 2

/-- `k` steps. -/
def lfsrSteps : Nat → Nat → Nat
  | 0, s => s
  | k + 1, s => lfsrSteps k (lfsrStep s)

/-- The generator of block `n` of operand `o` (R35). -/
def lfsrInit (seed o n : Nat) : Nat :=
  let s := lo32 seed ^^^ lo32 (seed / 2 ^ 32)
  let s := s ^^^ lo32 (lo32 n * 0x9E3779B9) ^^^ lo32 (lo32 (n / 2 ^ 32) * 0xC2B2AE35)
  let s := s ^^^ lo32 ((o + 1) * 0x85EBCA6B)
  lfsrSteps 32 (if s = 0 then 1 else s)

/-- The 16-bit draws of `k` elements, in order (R35). -/
def lfsrDraws : Nat → Nat → List Nat
  | 0, _ => []
  | k + 1, s =>
    let s' := lfsrSteps 16 s
    s' / 2 ^ 16 :: lfsrDraws k s'

/-- The 32 draws of block `n`. -/
def draws (seed o n : Nat) : List Nat := lfsrDraws 32 (lfsrInit seed o (n % 2 ^ 64))

/-- m × 2^e rounded stochastically to an integer with draw `r` (R34). -/
def srInt (m : Nat) (e : Int) (r : Nat) : Nat :=
  if 0 ≤ e then m * 2 ^ e.toNat
  else
    let k := (-e).toNat
    let lo := m / 2 ^ k
    let q := (m % 2 ^ k) * 2 ^ 16 / 2 ^ k
    if q + r ≥ 2 ^ 16 then lo + 1 else lo

/-- Largest magnitude code of a sign in an integer format (R33, Table 02-2a). -/
def intMax (f : Nat) (neg : Bool) : Nat :=
  if f = 8 then 1
  else if neg then 2 ^ (fmtBits f - 1) else 2 ^ (fmtBits f - 1) - 1

/-- One element's code in a block format, from its magnitude m × 2^e already divided by the scale, and
whether it was clamped (R33, R34). -/
def quantElem (f : Nat) (neg : Bool) (m : Nat) (e : Int) (r : Nat) : Nat × Bool :=
  match fmtBiasM f with
  | some (bias, man) =>
    let w := fmtBits f
    let ey : Int := if m = 0 then 1 - (bias : Int) else max (e + bitLen m - 1) (1 - (bias : Int))
    let k := srInt m (e - (ey - man)) r
    let c := ((ey + bias) * 2 ^ man + k - 2 ^ man).toNat
    let top := if f = 2 then 7 else if f = 6 then 0x7E else if f = 7 then 0x7B else 31
    let (c, cl) := if c > top then (top, true) else (c, false)
    (if neg then c + 2 ^ (w - 1) else c, cl)
  | none =>
    let u : Int := if f = 5 then -6 else 0
    let k := srInt m (e - u) r
    let top := intMax f neg
    let (k, cl) := if k > top then (top, true) else (k, false)
    (toBits (fmtBits f) (if neg then -(k : Int) else k), cl)

/-- A quantised block: its scale byte, its codes, elements clamped, whether an input was NaN, whether
an input was beyond the FP32 range (R41). -/
structure QBlock where
  scale : Nat
  codes : List Nat
  clamp : Nat
  nan   : Bool
  ovf   : Bool
  deriving DecidableEq, Repr

/-- ⌊log₂ a⌋ of a nonzero magnitude. -/
def f32Log (a : F32) : Int := let (m, e) := f32Mag a; e + bitLen m - 1

/-- The largest magnitude of a list, +0 for none. -/
def absMax (vs : List F32) : F32 := vs.foldl (fun acc v => f32Max acc (v &&& 0x7FFFFFFF#32)) f32Zero

/-- Quantise a block of 32 values into a block format (R33 to R36, R39). -/
def quantBlock (f seed o n : Nat) (vs : List F32) : QBlock :=
  if vs.any f32IsOvf then { scale := 0, codes := vs.map fun _ => 0, clamp := 0, nan := false, ovf := true }
  else if vs.any f32IsNaN then
    { scale := 0xFF, codes := vs.map fun _ => 0, clamp := 0, nan := true, ovf := false }
  else
    let amax := absMax vs
    if f32IsZero amax then
      { scale := 127, codes := vs.map fun _ => 0, clamp := 0, nan := false, ovf := false }
    else
      let s : Int := max 0 (min 254 (f32Log amax - fmtEmax f + 127))
      let es := vs.zipWith (fun v r =>
        let (m, e) := f32Mag v
        quantElem f (f32Neg v) m (e - (s - 127)) r) (draws seed o n)
      { scale := s.toNat, codes := es.map (·.1), clamp := (es.filter (·.2)).length, nan := false,
        ovf := false }

/-- A probability code of n bits: SR(p × 2ⁿ), at most 2ⁿ − 1 (R37). -/
def quantProb (bits : Nat) (p : F32) (r : Nat) : Nat :=
  let (m, e) := f32Mag p
  min (srInt m (e + bits) r) (2 ^ bits - 1)

/-- A G16 chunk: its scale byte, its codes as 16 bits, codes clamped; `none` where the chunk's amax is
at e = 127 or beyond (R38, R372). NaN gives the scale `0xFF` and zero codes (R39). `n0` is the index of
the chunk's first group of 32. -/
def quantG16 (seed n0 : Nat) (vs : List F32) : Option (Nat × List Nat × Nat × Bool) :=
  if vs.any f32IsOvf then none
  else if vs.any f32IsNaN then some (0xFF, vs.map fun _ => 0, 0, true)
  else
    let amax := absMax vs
    if f32IsZero amax then some (0, vs.map fun _ => 0, 0, false)
    else
      let e := f32Log amax
      if e = 127 then none
      else
        let s : Int := if e < -128 then 0 else e + 128
        let gs := chunksOf 32 vs.length vs
        let cs := (List.range gs.length).flatMap fun g =>
          (gs.getD g []).zipWith (fun v r =>
            let (m, x) := f32Mag v
            let k := srInt m (x - (s - 142)) r
            (if f32Neg v then toBits 16 (-(min k 32767 : Nat)) else min k 32767, decide (k > 32767)))
            (draws seed 2 (n0 + g))
        some (s.toNat, cs.map (·.1), (cs.filter (·.2)).length, false)

/-- The exact value of a code with its scale, none for a NaN. The aligned formats give the plain OCP value,
which keeps the sign of a zero; the others their lane integer, whose zero is +0 (R24, R43). -/
def codeExact (f scale c : Nat) : Option Exact :=
  if scale = 255 || codeNaN f c then none
  else
    let (x, e) := codeVal f c
    some { neg := if f = 4 || f = 6 then bitOf c (fmtBits f - 1) else decide (x < 0), m := x.natAbs,
           e := e + scale - 127 }

/-- The exact value of a code with its scale, as FP32; `0xFF` and NaN codes give NaN (R39). A value
outside the FP32 range is rounded (beyond it, the mark of R41). -/
def codeF32 (f scale c : Nat) : F32 :=
  if scale = 255 || codeNaN f c then f32NaN
  else
    let (x, e) := codeVal f c
    let v := f32OfInt x (e + scale - 127)
    if x = 0 && (fmtBiasM f).isSome && bitOf c (fmtBits f - 1) then 0x80000000#32 else v

end Sys2Proof.Machine
end

