-- ==== Sys2Proof/Machine/State.lean ====
section
/-! DEFINITION. The state of the block as plain data, the reasons a step can stop, and the state
after reset. Registers of the configuration space are held as sparse words: the shadow and the value
in effect of every RW word, and every live counter, keyed by number, an entry only where the word
differs from its reset value (the reset values and masks stand in `Machine/Regs.lean`). -/

namespace Sys2Proof.Machine

open Sys2Proof

/-- Words of the configuration space by number, in ascending order, none at its reset value. -/
abbrev Words := List (Nat × Word)

/-- Bytes of memory by physical address, in ascending order, none zero (Table 08-7). -/
abbrev Memory := List Host.Cell

/-- The stage of a command between its fetch and its completion record (Table 11-13). `ended` is a
command whose status is fixed and whose completion record is not yet written. -/
inductive Stage where
  | fetched | issued | started | ended
  deriving DecidableEq, Repr

/-- What a command sends and receives through the remote ports (R356, R358, R359). `txBack` holds frames that a
falling link handed back, `txReady` those written ahead of a gated send (R371), `txPlan` offset and length of each frame
where the sender cuts them itself (R375); a mark is a port with the count of frames sent there up to the last of the
command's; `txLost` says that a frame was lost with its link, `settled` that all is sent and received while the command goes
on, its receive still open (R356). -/
structure RemJob where
  vc       : Nat
  xid      : Nat
  txPorts  : Nat
  txCount  : Nat
  txNext   : Nat
  txBack   : List Nat
  txGated  : Bool
  txReady  : List Nat
  txPlan   : List (Nat × Nat)
  txMarks  : List (Nat × Nat)
  txLost   : Bool
  lastPort : Nat
  rxPorts  : Nat
  rxOpen   : Bool
  rxGot    : Nat
  rxTotal  : Option Nat
  rxPeer   : Option Nat
  settled  : Bool
  deriving DecidableEq, Repr

/-- Totals of a command over all channels, that the advisor reads (R48), and the row counts of
Table 11-18. -/
structure Totals where
  blk      : Nat
  sat      : Nat
  trunc    : Nat
  esc      : Nat
  emptyRow : Nat
  nanRow   : Nat
  deriving DecidableEq, Repr

/-- A score-row update that an `attn.dec` holds until it would complete with `OK` (R152): the entry,
the address of the score entry and the column sum as an FP32 number. -/
structure ScoreUpd where
  entry : Nat
  addr  : Nat
  sum   : Word
  deriving DecidableEq, Repr

/-- A command that is fetched and not complete (R274). `ents`, `trees` and `lens` are its entry table,
its parent tables and its lengths table, read at issue (R89, R130, R462); `image` is the full header that a `snap`
writes last and `imgStep` how far the image is
(R407: 0 not begun, 1 first header, 2 sections, 3 full header), `quiesced` the phase at its quiesce point, once that has
come (R404), `begun` that the command has started, `dysil` the Dysil fields of its issue (R437);
`escs` holds the escape entries of its output blocks until they are written in order (R42), `escDone` says that they
are. -/
structure Cmd where
  stamp    : Word
  op       : Nat
  record   : List Byte
  param    : List Byte
  paramErr : Nat
  paramVa  : Nat
  task     : Word
  inTask   : Bool
  stage    : Stage
  status   : Nat
  detail   : Nat
  flags    : Nat
  countA   : Nat
  countB   : Nat
  info     : Nat
  gen      : Nat
  factor   : Nat
  energy   : Nat
  pin      : Option Nat
  units    : Nat
  unitsOut : Nat
  handed   : Nat
  phase0   : DWord
  ticks    : Nat
  prec     : Nat
  totals   : Totals
  outs     : List (Nat × Nat × Nat)
  scores   : List ScoreUpd
  scored   : Bool
  shared   : Nat
  escs     : List (Nat × List Nat)
  escDone  : Bool
  remote   : Option RemJob
  ents     : List Nat
  trees    : List (List Nat)
  lens     : List (Nat × Nat)
  image    : List Byte
  imgStep  : Nat
  quiesced : Option DWord
  begun    : Bool
  dysil    : Option (List Nat)
  deriving DecidableEq, Repr

/-- An open or ended task of a stream (R284 to R289): `first` is the stamp of its `task.begin`. -/
structure TaskSt where
  first    : Word
  stop     : Bool
  dirtyBuf : Nat
  dirtyCap : Nat
  aborted  : Bool
  cancelled : Bool
  commands : Nat
  entries  : List (Word × Nat × Nat × Nat × Nat)
  deriving DecidableEq, Repr

/-- A stream of a partition (R256, Table 11-1) and what the sequencer holds for it. -/
structure StreamSt where
  next     : Word
  low      : Word
  cseq     : Word
  chead    : Word
  armed    : Bool
  draining : Bool
  cmds     : List Cmd
  doneQ    : List Word
  doneSet  : List Word
  fetchTask : Option Word
  tasks    : List TaskSt
  cuntil   : Word
  cancelTo : Option (Word × Bool)
  polling : Bool
  deriving DecidableEq, Repr

/-- A work counter that is bound to a command (R281). -/
structure WorkCounter where
  wc    : Nat
  strm  : Strm
  stamp : Word
  value : Nat
  bound : Nat
  deriving DecidableEq, Repr

/-- A transfer slot that is busy (R292): `left` transfers are not complete; `phase` is 0 between transfers, 1 while one
moves data, 2 while its writes are not answered; `sinceStart` counts ticks since the last one started. -/
structure XSlot where
  slot       : Nat
  strm       : Strm
  stamp      : Word
  left       : Nat
  phase      : Nat
  period     : Nat
  sinceStart : Nat
  deriving DecidableEq, Repr

/-- A member of a swarm: a command of the S stream and the KV head whose shared part joined it
(R138, R140). -/
structure SwarmMember where
  stamp : Word
  head  : Nat
  rows  : List Nat
  phase : DWord
  hold  : Nat
  deriving DecidableEq, Repr

/-- A swarm: held until one of the events of R140, then a queue of row groups (R142). `key` holds
what members share under R138 and R166, in order; `next` is the first row group not yet handed out. `counted` is false
for a swarm that adds to no swarm counter (R138, R139). -/
structure Swarm where
  id       : Nat
  strm     : Strm
  key      : List Nat
  members  : List SwarmMember
  launched : Bool
  counted  : Bool
  next     : Nat
  groups   : Nat
  energy   : Nat
  deriving DecidableEq, Repr

/-- A pin slot: the instar, its root and the commands that share it (R225). -/
structure Pin where
  instar : Nat
  root   : Nat
  count  : Nat
  deriving DecidableEq, Repr

/-- An edit that waits under R237, R228 or R245: the command it serves and the ticks waited. -/
structure EditWait where
  strm  : Strm
  stamp : Word
  ticks : Nat
  short : Nat
  deriving DecidableEq, Repr

/-- A prefetch-back that is not made yet: its command, the slow-tier pages of the partition in the instar that was current
at the fetch, and the pages that it lists once they are known: sequence, layer, head, page (R251). -/
structure Prefetch where
  strm  : Strm
  stamp : Word
  slow  : List (Nat × Nat × Nat × Nat)
  keys  : Option (List (Nat × Nat × Nat × Nat))
  deriving DecidableEq, Repr

/-- The page manager's and the translation unit's own state for a partition: what does not lie in
the table area (R200, R204, R227, R228, R254); `parking` is the victim and the slot of a park that relief is writing, `parkFail`
says that a write of it failed (R253); `prefetch` holds the prefetch-backs not made yet, in fetch order (R251). Granules
and frames are numbers. -/
structure Pool where
  root     : Nat
  instar   : Nat
  pins     : List Pin
  nodes    : List Nat
  retired  : List (Nat × Nat)
  frameTab : List Nat
  free     : List Nat
  slowFree : List Nat
  retiring : List (Nat × Nat)
  parked   : List (Nat × Nat)
  wait     : Option EditWait
  lost     : Bool
  lossDue  : Bool
  parking  : Option (Nat × Nat)
  parkFail : Bool
  prefetch : List Prefetch
  deriving DecidableEq, Repr

/-- What a partition holds beside its registers. -/
structure Partition where
  f : StreamSt
  b : StreamSt
  u : StreamSt
  s : StreamSt
  counters : List WorkCounter
  slots    : List XSlot
  advisor  : List (Nat × Nat)
  swarms   : List Swarm
  pool     : Pool
  deriving DecidableEq, Repr

/-- The unit that a channel holds (R282, R453); `swarm` names the swarm of a swarm row group. -/
structure UnitHold where
  part  : Part
  strm  : Strm
  stamp : Word
  value : Nat
  swarm : Option Nat
  since : Nat
  deriving DecidableEq, Repr

/-- Service states of a channel (Table 18-4). -/
inductive Service where
  | run | leaving | test | out | failed
  deriving DecidableEq, Repr

/-- Power states of a channel (Table 12-7). -/
inductive Power where
  | run | gate | hold | doze
  deriving DecidableEq, Repr

/-- A staging half (R61): the element codes of one stationary tile by presented column and depth row, its scales by
latch number, and whether it still holds a tile that no ripple has taken. -/
structure Staging where
  fmt    : Nat
  codes  : List (Nat × List Nat)
  scales : List (Nat × Nat)
  full   : Bool
  deriving DecidableEq, Repr

/-- A tile in the cells (R56, Table 03-1): lane integers by presented column and depth row, and scale latches by
number. Cells and latches that are not listed hold lane integer 0 and scale `0x7F` (R55). `test` marks the tile that steps
V6 and V7 of the self-test leave: the pattern of V1, (37r + c) mod 4096 in depth row r of column c (Table 03-11). -/
structure CellTile where
  test    : Bool
  lanes   : List (Nat × List Int)
  latches : List (Nat × Nat)
  deriving DecidableEq, Repr

/-- What one array holds between units: A with the active latches and H with the shadow latches; the cells whose
product accumulators P and P′ are not zero; the axis of the last streamed row, true for across (R58); the two
staging halves, the one filled last first. -/
structure ArrayMem where
  active : CellTile
  shadow : CellTile
  prodP  : List (Nat × Nat × Int)
  prodQ  : List (Nat × Nat × Int)
  across : Option Bool
  half0  : Staging
  half1  : Staging
  deriving DecidableEq, Repr

/-- The state of a chain for one row (R92 to R97): O, m, l and the flags E and N. -/
structure Chain where
  o : List Word
  m : Word
  l : Word
  e : Bool
  n : Bool
  deriving DecidableEq, Repr

/-- What statistics memory holds beside m and l of the chains: for each chain L and D of the rows of the query tiles that
were loaded last (R120), and the ancestor masks of the row groups that were fetched last (R137), each the present one
and one more, the later first. -/
structure StatMem where
  ld0   : List (List (Word × Word))
  ld1   : List (List (Word × Word))
  masks : List (List Nat)
  deriving DecidableEq, Repr

/-- A channel (Table 01-1): `cur` is the command between whose units it stands (R81); `arrays` what its arrays hold;
`half0` and `half1` the accumulator half and the statistics of each chain as the last unit left them (R93), `stat` the
rest of statistics memory. -/
structure Channel where
  arrays   : List ArrayMem
  half0    : List Chain
  half1    : List Chain
  stat     : StatMem
  service  : Service
  unit     : Option UnitHold
  cur      : Option (Part × Strm × Word)
  returning : Bool
  power    : Power
  waking   : Bool
  wakeAt   : Nat
  wakeLate : Bool
  allow    : Int
  charged  : Bool
  temp     : Nat
  hot      : Bool
  tripped  : Bool
  badCols  : List (Nat × Nat)
  past     : Nat
  role     : Nat
  astate   : Nat
  lanes    : Nat
  bank     : Nat
  gen0     : Nat
  gen1     : Nat
  badBank  : Option Nat
  report   : List LaneReport
  ran      : Bool
  progress : Nat
  curCap   : Word × Word × Word
  deriving DecidableEq, Repr

/-- A slice of store or a slow-tier port's memory: scrub with the cycle of its last step, write-back queue, tracker of corrections
and spare rows in use, by bank (R188, R189, R386, R387). -/
structure RowMem where
  scrubPos : Nat
  scrubAt  : Nat
  queue    : List (Nat × Bool)
  tracker  : List (Nat × Nat)
  spares   : List (Nat × Nat)
  spareOut : List Nat
  deriving DecidableEq, Repr

/-- A slice (R179, R313, R347, R397). -/
structure Slice where
  live   : Bool
  lost   : Bool
  mem    : RowMem
  ret    : Bool
  retAck : Bool
  deriving DecidableEq, Repr

/-- A slow-tier port (Table 18-9, R429, R400): `moved` counts the pages that a drain has moved, `drained` says that its
`DRAINED` record is written. -/
structure SlowSt where
  clk      : Bool
  training : Bool
  filling  : Bool
  ready    : Bool
  draining : Bool
  lost     : Bool
  retired  : Bool
  inLive   : Bool
  dfiErr   : BitVec 8
  moved    : Nat
  drained  : Bool
  mem      : RowMem
  deriving DecidableEq, Repr

/-- Who waits for the answer of an initiator request (R333, R334): of a command, `ch` is the channel
whose unit asks, `0xFF` for none, `0xFE` for the park of a victim that relief for the command makes
(R253), `0xFD` for its parameter block, `0xFC` for the list of its prefetch-back (R251). A `dropped` request serves nothing
any more (R262). -/
inductive Owner where
  | ring (p : Part) (s : Strm)
  | completion (p : Part) (s : Strm)
  | command (p : Part) (s : Strm) (stamp : Word) (ch : Nat)
  | block
  | dropped
  deriving DecidableEq, Repr

/-- An initiator request (Table 13-2): `limit` is the response timer it was sent under (R460). -/
structure IqReq where
  tag   : Nat
  engine : Bool
  write : Bool
  addr  : Nat
  bytes : Nat
  data  : List Byte
  owner : Owner
  limit : Nat
  sent  : Nat
  deriving DecidableEq, Repr

/-- A response that the block drives on `TP` (Table 13-3): its beats' data, in order. -/
structure TpResp where
  port   : FabPort
  tag    : BitVec 8
  status : Nat
  wack   : Bool
  data   : List (BitVec 1024)
  deriving DecidableEq, Repr

/-- A fabric port (Table 18-12): requests formed and not yet sent for want of a credit or a tag,
requests sent and not answered, tags kept out of use after a timeout; target requests that wait for a slice in DOZE, with
their header and write beats, oldest first (R313), and the requester's credits (R329). -/
structure FabSt where
  live    : Bool
  iqCred  : Nat
  waiting : List IqReq
  sent    : List IqReq
  stale   : List Nat
  held    : List (BitVec 80 × List Beat)
  tqCred  : Nat
  deriving DecidableEq, Repr

/-- A data frame with its record (Table 14-2). -/
structure Frame where
  vc     : Nat
  last   : Bool
  xid    : Nat
  fseq   : Nat
  offset : Nat
  len    : Nat
  scale  : Nat
  origin : Nat
  step   : Nat
  blkid  : Nat
  data   : List Byte
  deriving DecidableEq, Repr

/-- A remote port (R350 to R358): `sent`, `freed` and `peerFreed` count by channel since link-up, `reported` is the
freeing last sent; `group` holds the records still to come of the accepted group, `blkid` its sender, `groupSent` its
counts; `mirror` queues frames of channel 2 that wait for a group, `alone` counts the ticks they wait (R375). -/
structure RemSt where
  up        : Bool
  gseq      : Nat
  sent      : List Nat
  freed     : List Nat
  peerFreed : List Nat
  reported  : List Nat
  landing   : List Frame
  group     : List (List Byte)
  blkid     : Nat
  groupSent : List Nat
  mirror    : List (Part × Strm × Word × Nat)
  alone     : Nat
  aloneOk   : Bool
  deriving DecidableEq, Repr

/-- A segment that the keeper tracks (R376). -/
structure Segment where
  xid   : Nat
  gen   : Nat
  got   : Nat
  total : Option Nat
  deriving DecidableEq, Repr

/-- A fault record (Table 15-1). -/
structure FaultRec where
  fseq  : Nat
  cls   : Nat
  cause : Nat
  part  : Nat
  strm  : Nat
  stamp : Word
  ch    : Nat
  unit  : Nat
  port  : Nat
  addr  : Nat
  akind : Nat
  phase : DWord
  arg0  : Nat
  arg1  : Nat
  deriving DecidableEq, Repr

/-- The cadence input (R299, R300, R344). -/
structure Cadence where
  phase  : DWord
  valid  : Bool
  held   : Bool
  first  : Bool
  cpt    : Nat
  steps  : Nat
  last   : Nat
  seen   : Bool
  deriving DecidableEq, Repr

/-- A wingbeat table that a commit has made (R303): period, count and gap word, and the entry words
by number. -/
structure WbTable where
  period  : Word
  count   : Word
  entries : Words
  deriving DecidableEq, Repr

/-- The wingbeat table's state (Table 12-4): the table in effect, the one that waits, the position. -/
structure Wingbeat where
  table  : WbTable
  next   : Option WbTable
  shadow : Words
  gen    : Nat
  slot   : Nat
  gap    : Bool
  deriving DecidableEq, Repr

/-- The governor (R310, R317 to R319, R345, R346). -/
structure Governor where
  req       : Nat
  point     : Nat
  opened    : Bool
  target    : Nat
  budgetIn  : Nat
  taken : Nat
  level     : Int
  committed : Bool
  noPoint   : Bool
  deriving DecidableEq, Repr

/-- A table of a function in a generation (R154, Table 07-8). -/
structure FnTable where
  y    : List Int
  d    : List Int
  x0   : Word
  xs   : Word
  outE : Int
  deriving DecidableEq, Repr

/-- A table generation (R164): its tables by function number. -/
structure TableGen where
  gen    : Nat
  tables : List (Nat × FnTable)
  sel    : Nat
  deriving DecidableEq, Repr

/-- The stage of a commit in progress (R435). -/
inductive CommitStage where
  | waiting | follow
  deriving DecidableEq, Repr

/-- A commit in progress: the pages it covers (one, or those of a group, R438). -/
structure Commit where
  group : Bool
  pages : List Nat
  stage : CommitStage
  deriving DecidableEq, Repr

/-- An access that the configuration port holds with `CFG_RDY` low (R342, R417). -/
structure CfgAccess where
  addr  : Nat
  data  : Word
  write : Bool
  deriving DecidableEq, Repr

/-- The state of the block. Host memory is no part of it: `iqDone` holds what answered reads returned, by
owner, until the work that asked is done (R333). `dozed` holds the requests for rows of slices in DOZE that wait, by slice
and requesting channel, `0xFF` for none (R313). `free` is the model's own: it numbers the values that the manual leaves
open (`Config.freeWord`). -/
structure State where
  rstN     : Bool
  testEn   : Bool
  cycle    : Nat
  initFuse : Bool
  fuseErr  : Bool
  initTest : Bool
  initStore : Bool
  fuse     : FuseImage
  mem      : Memory
  rowErr   : List (Nat × List (Nat × BitVec 16))
  reported : List Nat
  shadow   : Words
  effect   : Words
  live     : Words
  pageStat : Words
  commits  : List Commit
  gstat    : Nat
  cfgHeld  : List CfgAccess
  captured : Words
  rdata    : Word
  rload0   : Word
  parts    : Vector Partition 8
  chans    : Vector Channel 8
  slices   : Vector Slice 8
  dozed    : List (Nat × Nat)
  slow     : Vector SlowSt 16
  fab      : Vector FabSt 32
  fabOut   : List TpResp
  iqDone   : List IqReq
  rem      : Vector RemSt 64
  remOut   : List (RemPort × BitVec 64 × List Byte)
  segments : List Segment
  faults   : List FaultRec
  fseq     : Nat
  repair   : List (Word × Word)
  cad      : Cadence
  wbt      : Wingbeat
  gov      : Governor
  gens     : List TableGen
  ckSeq    : Vector Word 8
  rstat    : Nat
  wir      : BitVec 8
  free     : Nat
  pending  : List Instr
  deriving DecidableEq, Repr

/-- Why the machine stops with a fault. -/
inductive Fault where
  /-- Raised by every command but RST_N_ASSERT and WRAPPER_INSTRUCTION while `TEST_EN` is high: the block then promises no
  functional behaviour until `RST_N` has been asserted with `TEST_EN` low (R349). Safe: the model
  stops where the manual gives no effect. -/
  | testMode
  deriving DecidableEq, Repr

/-- Why a command has no meaning. -/
inductive Refusal where
  /-- Raised by the arm of a command that is not modelled yet. Safe: nothing can be proved of it. -/
  | notModelled (mnemonic : String)
  deriving DecidableEq, Repr

/-- A stream after reset (Table 11-1). -/
def StreamSt.idle : StreamSt :=
  { next := 0, low := 0, cseq := 0, chead := 0, armed := false, draining := false, cmds := [],
    doneQ := [], doneSet := [], fetchTask := none, tasks := [], cuntil := 0, cancelTo := none,
    polling := false }

/-- A partition with no pool (R204). -/
def Pool.none : Pool :=
  { root := 0, instar := 0, pins := [], nodes := [], retired := [], frameTab := [], free := [],
    slowFree := [], retiring := [], parked := [], wait := Option.none, lost := false,
    lossDue := false, parking := Option.none, parkFail := false, prefetch := [] }

/-- A partition after reset: not loaded, nothing bound. -/
def Partition.idle : Partition :=
  { f := StreamSt.idle, b := StreamSt.idle, u := StreamSt.idle, s := StreamSt.idle, counters := [],
    slots := [], advisor := [], swarms := [], pool := Pool.none }

/-- A staging half that holds zeros (R420). -/
def Staging.zero : Staging := { fmt := 0, codes := [], scales := [], full := false }

/-- Cells and latches that hold no tile (R55). -/
def CellTile.none : CellTile := { test := false, lanes := [], latches := [] }

/-- What the self-test leaves in the cells of an array: raw patterns, every scale `0x7F` (R76, Table 03-11). -/
def CellTile.pattern : CellTile := { CellTile.none with test := true }

/-- An array that holds nothing and has streamed no row. -/
def ArrayMem.zero : ArrayMem :=
  { active := CellTile.none, shadow := CellTile.none, prodP := [], prodQ := [], across := Option.none,
    half0 := Staging.zero, half1 := Staging.zero }

/-- Statistics memory that holds nothing. -/
def StatMem.zero : StatMem := { ld0 := [], ld1 := [], masks := [] }

/-- A channel after reset: `TEST`, out of service (R420, Table 18-3); the state of a /4 grade, which
fuse load corrects (Table 15-11). -/
def Channel.idle : Channel :=
  { arrays := List.replicate 4 ArrayMem.zero, half0 := [], half1 := [], stat := StatMem.zero,
    service := .test, unit := none, cur := none, returning := false, power := .run, waking := false, wakeAt := 0,
    wakeLate := false, allow := 0, charged := false, temp := 0, hot := false, tripped := false, badCols := [], past := 0,
    role := 0x7688, astate := 0, lanes := 0, bank := 0, gen0 := 0, gen1 := 0, badBank := none, report := [],
    ran := false, progress := 0, curCap := (0, 0, 0) }

/-- Scrub at row 0, nothing queued, no spare in use (R416, R419). -/
def RowMem.idle : RowMem :=
  { scrubPos := 0, scrubAt := 0, queue := [], tracker := [], spares := [], spareOut := [] }

/-- A slice before store initialisation is done (R419, Table 16-6). -/
def Slice.idle : Slice :=
  { live := false, lost := false, mem := RowMem.idle, ret := false, retAck := false }

/-- A slow-tier port after reset: no device described, not ready (Table 18-9). -/
def SlowSt.idle : SlowSt :=
  { clk := false, training := false, filling := false, ready := false, draining := false,
    lost := false, retired := false, inLive := false, dfiErr := 0,
    moved := 0, drained := false, mem := RowMem.idle }

/-- A fabric port after reset: no `IQ` credits, 64 `TQ` credits returned (R329). -/
def FabSt.idle : FabSt :=
  { live := false, iqCred := 0, waiting := [], sent := [], stale := [], held := [], tqCred := 64 }

/-- A remote port whose link is down (R357). -/
def RemSt.idle : RemSt :=
  { up := false, gseq := 0, sent := [0, 0, 0, 0], freed := [0, 0, 0, 0],
    peerFreed := [0, 0, 0, 0], reported := [0, 0, 0, 0], landing := [], group := [], blkid := 0,
    groupSent := [0, 0, 0, 0], mirror := [], alone := 0, aloneOk := false }

/-- The cadence input before `CAD_VALID` has risen (Table 12-2). -/
def Cadence.idle : Cadence :=
  { phase := 0, valid := false, held := false, first := true, cpt := 0, steps := 0, last := 0,
    seen := false }

/-- The wingbeat table after reset: no slot, `GAP_MIN` = GATE (Table 12-4). -/
def Wingbeat.idle : Wingbeat :=
  { table := { period := 0, count := 0x400, entries := [] }, next := none, shadow := [], gen := 0,
    slot := 0, gap := true }

/-- The governor after reset: code `0b0011` driven and acknowledged (R317, R345). -/
def Governor.idle : Governor :=
  { req := 3, point := 3, opened := false, target := 3, budgetIn := 0, taken := 0, level := 0,
    committed := false, noPoint := false }

/-- A fuse store that nothing has been read from. -/
def FuseImage.blank : FuseImage :=
  { cap := 0, columns := [], rows := [], th := [], vf := [], crcOk := false }

/-- The machine with `RST_N` just released, at cycle 0 of Table 16-2, before fuse load is done: every
register at its reset value (R416), no memory listed, an empty queue. -/
def State.reset : State :=
  { rstN := true, testEn := false, cycle := 0, initFuse := false, fuseErr := false,
    initTest := false, initStore := false, fuse := FuseImage.blank, mem := [],
    rowErr := [], reported := [], shadow := [], effect := [], live := [], pageStat := [],
    commits := [], gstat := 0, cfgHeld := [], captured := [], rdata := 0,
    rload0 := 0, parts := Vector.replicate 8 Partition.idle,
    chans := Vector.replicate 8 Channel.idle, slices := Vector.replicate 8 Slice.idle, dozed := [],
    slow := Vector.replicate 16 SlowSt.idle, fab := Vector.replicate 32 FabSt.idle, fabOut := [],
    iqDone := [],
    rem := Vector.replicate 64 RemSt.idle, remOut := [], segments := [],
    faults := [], fseq := 0, repair := [], cad := Cadence.idle, wbt := Wingbeat.idle,
    gov := Governor.idle, gens := [], ckSeq := Vector.replicate 8 0, rstat := 0, wir := 0,
    free := 0, pending := [] }

end Sys2Proof.Machine
end

