-- ==== Sys2Proof/Machine/FuncTab.lean ====
section
/-! DEFINITION. The special function unit: factory tables (R160), reduction and evaluation (R154 to
R157), user tables and their rules (R162, R163). -/

namespace Sys2Proof.Machine

open Sys2Proof

/-- Factory table of EXP2 (Table 07-5). -/
def exp2Y : List Int :=
  [0x10000, 0x10B56, 0x1172C, 0x12388, 0x13070, 0x13DEA, 0x14BFE, 0x15AB0,
   0x16A0A, 0x17A11, 0x18ACE, 0x19C49, 0x1AE8A, 0x1C19A, 0x1D582, 0x1EA4B]
def exp2D : List Int :=
  [0x0B56, 0x0BD6, 0x0C5C, 0x0CE8, 0x0D7A, 0x0E14, 0x0EB2, 0x0F5A,
   0x1007, 0x10BD, 0x117B, 0x1241, 0x1310, 0x13E8, 0x14C9, 0x15B5]
/-- Factory table of LOG2. -/
def log2Y : List Int :=
  [0x0000, 0x1664, 0x2B80, 0x3F78, 0x526A, 0x646F, 0x759D, 0x8608,
   0x95C0, 0xA4D4, 0xB350, 0xC140, 0xCEAF, 0xDBA5, 0xE82A, 0xF446]
def log2D : List Int :=
  [0x1664, 0x151C, 0x13F8, 0x12F2, 0x1205, 0x112E, 0x106B, 0x0FB8,
   0x0F14, 0x0E7C, 0x0DF0, 0x0D6F, 0x0CF6, 0x0C85, 0x0C1C, 0x0BBA]
/-- Factory table of the sine. -/
def sinY : List Int :=
  [0x0000, 0x1918, 0x31F1, 0x4A50, 0x61F8, 0x78AD, 0x8E3A, 0xA268,
   0xB505, 0xC5E4, 0xD4DB, 0xE1C6, 0xEC83, 0xF4FA, 0xFB15, 0xFEC4]
def sinD : List Int :=
  [0x1918, 0x18D9, 0x185F, 0x17A8, 0x16B5, 0x158D, 0x142E, 0x129D,
   0x10DF, 0x0EF7, 0x0CEB, 0x0ABD, 0x0877, 0x061B, 0x03AF, 0x013C]

def factoryTable (y d : List Int) : FnTable := { y := y, d := d, x0 := 0, xs := 0, outE := 0 }

/-- The factory tables of functions 0 to 2 (R160). -/
def factoryTables : List (Nat × FnTable) :=
  [(0, factoryTable exp2Y exp2D), (1, factoryTable log2Y log2D), (2, factoryTable sinY sinD)]

/-- Generation 0 (R164). -/
def genZero : TableGen := { gen := 0, tables := factoryTables, sel := 0 }

/-- The table of a function in a generation; function 3 takes that of function 2 (Table 07-1). -/
def TableGen.table (g : TableGen) (f : Nat) : Option FnTable :=
  (g.tables.find? (fun e => e.1 == (if f = 3 then 2 else f))).map (·.2)

/-- acc of R156 for a position v = num / 2^sh in [0, 1]. -/
def fnAcc (t : FnTable) (num sh : Nat) : Int :=
  let w := num * 16
  let k := min (w / 2 ^ sh) 15
  let tau : Nat := min ((w - k * 2 ^ sh) * 2 ^ 20 / 2 ^ sh) (2 ^ 20)
  t.y.getD k 0 * 2 ^ 20 + t.d.getD k 0 * (tau : Int)

/-- An FP32 number as an integer over a power of two: x = n / 2^sh. -/
def f32Fixed (a : F32) : Int × Nat :=
  let (x, e) := f32Val a
  if 0 ≤ e then (x * 2 ^ e.toNat, 0) else (x, (-e).toNat)

/-- The rounding of acc × 2^e (R156, R157): a zero result is +0. -/
def fnRound (acc e : Int) : F32 :=
  let r := f32OfInt acc e
  if f32IsZero r then f32Zero else r

/-- EXP2: ±0 gives 1.0 without the table (R95); otherwise R155, R156. -/
def fnExp2 (t : FnTable) (a : F32) : F32 :=
  if f32IsOvf a then f32Ovf
  else if f32IsNaN a then f32NaN
  else if f32IsZero a then f32One
  else
    let (n, sh) := f32Fixed a
    let i := n / (2 ^ sh : Nat)
    let v := n - i * (2 ^ sh : Nat)
    -- beyond the range on either side the rounding alone decides (R157)
    if i ≥ 128 then f32Ovf
    else if i < -200 then f32Zero
    else fnRound (fnAcc t v.toNat sh) (i - 36)

/-- LOG2 (R155 to R157). -/
def fnLog2 (t : FnTable) (a : F32) : F32 :=
  if f32IsOvf a then f32Ovf
  else if f32IsNaN a || f32IsZero a || f32Neg a then f32NaN
  else
    let (m, e) := f32Mag a
    let l := bitLen m - 1
    let acc := fnAcc t (m - 2 ^ l) l
    fnRound ((e + l) * 2 ^ 36 + acc) (-36)

/-- SIN2PI of n / 2^sh turns, or COS2PI with the quadrant moved by one (R155). -/
def fnSinAt (t : FnTable) (n : Int) (sh quarter : Nat) : F32 :=
  let f := (n % (2 ^ sh : Nat)).toNat
  let q0 := 4 * f / 2 ^ sh
  let u := 4 * f - q0 * 2 ^ sh
  let q := (q0 + quarter) % 4
  let v := if q % 2 = 0 then u else 2 ^ sh - u
  let acc := fnAcc t v sh
  fnRound (if q ≥ 2 then -acc else acc) (-36)

/-- SIN2PI, or COS2PI with the quadrant moved by one (R155). -/
def fnSin (t : FnTable) (a : F32) (quarter : Nat) : F32 :=
  if f32IsOvf a then f32Ovf
  else if f32IsNaN a then f32NaN
  else fnSinAt t (f32Fixed a).1 (f32Fixed a).2 quarter

/-- U0 to U3: reduction `LIN` (R155). -/
def fnLin (t : FnTable) (a : F32) : F32 :=
  if f32IsOvf a then f32Ovf
  else if f32IsNaN a then f32NaN
  else
    let (x, ex) := f32Val a
    let (x0, e0) := f32Val t.x0
    let (xs, es) := f32Val t.xs
    let e := min ex e0
    let p := (x * 2 ^ (ex - e).toNat - x0 * 2 ^ (e0 - e).toNat) * xs
    let pe := e + es
    let (num, sh) := if 0 ≤ pe then ((p * 2 ^ pe.toNat), 0) else (p, (-pe).toNat)
    let v : Nat := if num ≤ 0 then 0 else min num.toNat (2 ^ sh)
    fnRound (fnAcc t v sh) (t.outE - 36)

/-- A function of Table 07-1 in a generation. An absent table gives NaN (no command reaches it, R167). -/
def fnEval (g : TableGen) (f : Nat) (a : F32) : F32 :=
  match g.table f with
  | none => f32NaN
  | some t =>
    if f = 0 then fnExp2 t a else if f = 1 then fnLog2 t a else if f = 2 then fnSin t a 0
    else if f = 3 then fnSin t a 1 else fnLin t a

def exp2 (g : TableGen) (a : F32) : F32 := fnEval g 0 a
def log2 (g : TableGen) (a : F32) : F32 := fnEval g 1 a

/-- A table image of 256 bytes (Table 07-8). -/
def tableOfImage (bs : List Byte) : FnTable :=
  { y := (List.range 16).map fun k => signed 24 (leAt bs (8 * k) 3),
    d := (List.range 16).map fun k => signed 24 (leAt bs (8 * k + 3) 3),
    x0 := BitVec.ofNat 32 (leAt bs 128 4), xs := BitVec.ofNat 32 (leAt bs 132 4),
    outE := signed 8 (leAt bs 136 1) }

/-- The monotone class of a user table: 0 none, 1 non-decreasing, 2 non-increasing (R162). -/
def tableMono (f : Nat) (bs : List Byte) : Nat :=
  if f = 0 || f = 1 then 1 else if f = 2 then 0 else leAt bs 137 1

/-- Whether a user table of function `f` passes R163. -/
def tableOk (f : Nat) (bs : List Byte) : Bool :=
  let t := tableOfImage bs
  let y := fun k => t.y.getD k 0
  let d := fun k => t.d.getD k 0
  let mono := tableMono f bs
  let ks := List.range 16
  let js := List.range 15
  let end15 := y 15 + d 15
  let hdr := f < 4 ||
    (f32Exp t.xs != 0 && f32Exp t.xs != 255 && !(f32Neg t.xs) && f32Exp t.x0 != 255 && mono ≤ 2)
  let up := mono != 1 ||
    (ks.all (fun k => decide (0 ≤ d k)) && js.all (fun k => decide (y k + d k ≤ y (k + 1))))
  let down := mono != 2 ||
    (ks.all (fun k => decide (d k ≤ 0)) && js.all (fun k => decide (y (k + 1) ≤ y k + d k)))
  let wrap :=
    if f = 0 then decide (0 ≤ y 0 ∧ end15 ≤ 2 * y 0)
    else if f = 1 then decide (end15 ≤ y 0 + 0x10000) else true
  hdr && up && down && wrap

end Sys2Proof.Machine
end

