-- ==== Sys2Proof/Machine/Array.lean ====
section
/-! DEFINITION. The bit-serial arrays as their results (R56, R57, R71, R72): elements, group sums,
trees, escaped groups, and the bad columns and states of arrays (R77 to R79, R394). -/

namespace Sys2Proof.Machine

open Sys2Proof

/-! ## Elements and groups -/

/-- An element at an array: its lane integer, its exponent S − 127 + f, whether it or its block is NaN,
its BF16 source where its block is escaped (R43), and its code, format and scale. -/
structure Elem where
  lane  : Int
  e     : Int
  nan   : Bool
  src   : Option F32
  fmt   : Nat
  code  : Nat
  scale : Nat
  deriving DecidableEq, Repr

/-- What an escaped group multiplies for an operand: its source, or its exact dequantised value, plain
for the aligned formats (R43). -/
def Elem.val (x : Elem) : Option Exact :=
  match x.src with
  | some v => f32Exact v
  | none =>
    if isProb x.fmt then some (intExact x.code (-(fmtBits x.fmt : Int)))
    else codeExact x.fmt x.scale x.code

/-- The elements of a block of codes and how many lost a nonzero bit (R26): `src` holds the 32 BF16 source
values of an escaped block. -/
def elemsOf (fmt scale : Nat) (codes : List Nat) (src : Option (List F32)) : List Elem × Nat :=
  let b := laneBlock fmt codes
  let e : Int := (if isProb fmt then 0 else (scale : Int) - 127) + b.f
  let ls := b.lanes.zip (b.nan.zip codes)
  (ls.zipIdx.map fun ((l, n, c), i) =>
    { lane := l, e := e, nan := n || scale == 255 && !(isProb fmt),
      src := src.map fun v => v.getD i f32Zero, fmt := fmt, code := c, scale := scale },
   b.trunc)

/-- What the ripple writes where a tile has no element: lane integer 0, scale `0x7F` (R55). -/
def missing (fmt : Nat) : Elem :=
  { lane := 0, e := (laneBlock fmt [0]).f, nan := false, src := none, fmt := fmt, code := 0,
    scale := 127 }

/-- Fill a list of elements to 32. -/
def pad32 (fmt : Nat) (l : List Elem) : List Elem := l ++ List.replicate (32 - l.length) (missing fmt)

/-- A group's term and what it counts. -/
structure Grp where
  t   : F32
  sat : Bool
  esc : Bool
  deriving DecidableEq, Repr

/-- clamp30 of R27, with whether it acted. -/
def clamp30 (x : Int) : Int × Bool :=
  if x < -(2 ^ 29) then (-(2 ^ 29), true) else if x > 2 ^ 29 - 1 then (2 ^ 29 - 1, true) else (x, false)

/-- The sum of clamped terms, clamped. -/
def clampSum (ts : List (Int × Bool)) : Int × Bool :=
  let (s, c) := clamp30 (ts.foldl (fun acc t => acc + t.1) 0)
  (s, c || ts.any (·.2))

/-- The least exponent of a group. -/
def minExp (l : List Elem) : Int :=
  match l with
  | [] => 0
  | x :: rest => rest.foldl (fun acc y => min acc y.e) x.e

/-- The vector lanes' result of an escaped group (R43): products to FP32, then five pairwise levels. -/
def escTerm (ts ss : List Elem) : F32 :=
  treeSum 5 (padZero 32 (ts.zipWith (fun t s => exactMul t.val s.val) ss))

/-- A group's term from its integer sum, or NaN where an element is NaN (R39). The clamps of a NaN group
count like any other's (R28). -/
def grpOf (nan : Bool) (i : Int × Bool) (e : Int) : Grp :=
  { t := if nan then f32NaN else f32OfInt i.1 e, sat := i.2, esc := false }

/-- One group of 32 products in `DOT` (R27, R29, R39, R43): stationary elements and streamed ones, whose
exponent is that of their block. A group that escapes counts no clamp (R28); one that escapes and holds a
NaN element is NaN. DESIGN CHOICE (log 75): the scale `0xFF` enters the exponents of R27 as 255. -/
def groupDot (ts ss : List Elem) : Grp :=
  let es := (ss.head?.map (·.e)).getD 0
  let nan := ts.any (·.nan) || ss.any (·.nan)
  if ts.any (·.src.isSome) || ss.any (·.src.isSome) then
    { t := if nan then f32NaN else escTerm ts ss, sat := false, esc := true }
  else
    let em := minExp ts
    grpOf nan (clampSum (ts.zipWith (fun t s => clamp30 (t.lane * s.lane * 2 ^ (t.e - em).toNat)) ss)) (em + es)

/-- One group in `L1` or `L2SQ` (R71). -/
def groupDist (sq : Bool) (ts ss : List Elem) : Grp :=
  let et := (ts.head?.map (·.e)).getD 0
  let es := (ss.head?.map (·.e)).getD 0
  let m := min et es
  let terms := ts.zipWith (fun t s =>
    let (d, c) := clamp30 (t.lane * 2 ^ (et - m).toNat - s.lane * 2 ^ (es - m).toNat)
    let (v, c') := clamp30 (if sq then d * d else (d.natAbs : Int))
    (v, c || c')) ss
  grpOf (ts.any (·.nan) || ss.any (·.nan)) (clampSum terms) (if sq then 2 * m else m)

/-- One group in `MAXB` (R72): the stationary elements are pairs lo and hi, summed as in R27 with the
exponent of the block that holds each pair. -/
def groupMaxb (lo hi ss : List Elem) : Grp :=
  let es := (ss.head?.map (·.e)).getD 0
  let em := minExp lo
  grpOf (lo.any (·.nan) || hi.any (·.nan) || ss.any (·.nan))
    (clampSum ((lo.zip hi).zipWith (fun (a, b) s =>
      clamp30 (max (a.lane * s.lane) (b.lane * s.lane) * 2 ^ (a.e - em).toNat)) ss)) (em + es)

/-- Counts of array work: sums that saturated, groups escaped, groups made NaN. -/
structure GCount where
  sat : Nat
  esc : Nat
  nan : Nat
  deriving DecidableEq, Repr

def GCount.zero : GCount := { sat := 0, esc := 0, nan := 0 }
def GCount.add (a b : GCount) : GCount := { sat := a.sat + b.sat, esc := a.esc + b.esc, nan := a.nan + b.nan }
def grpCount (gs : List Grp) : GCount :=
  { sat := (gs.filter (·.sat)).length, esc := (gs.filter (·.esc)).length,
    nan := (gs.filter fun g => f32IsNaN g.t).length }

/-- The depth tree of one column over its four groups (R30): `ts` and `ss` hold the groups. -/
def depthTree (gs : List Grp) : F32 :=
  let t := padZero 4 (gs.map (·.t))
  treeSum 2 t

/-- The score of one column: a streamed row of groups against the column's groups. -/
def depthDot (col row : List (List Elem)) : F32 × GCount :=
  let gs := col.zipWith groupDot row
  (depthTree gs, grpCount gs)

/-- The across tree of one depth row (R30): terms at fixed leaves, `none` a group with no live element
(R31). -/
def acrossTree (gs : List (Option Grp)) : F32 :=
  treeSum 5 (padZero 32 (gs.map fun g => match g with | some g => g.t | none => f32Zero))

/-- Element `i` of each vector of a list. Where blocks run across the columns, the one latch of the depth row serves a
missing column of the group too (R56); else a missing column has its own (R55). -/
def nthOf (fmt orient i : Nat) (cols : List (List Elem)) : List Elem :=
  let gap := match if orient = 0 then none else cols.findSome? (fun c => (c.drop i).head?) with
    | some x => { missing fmt with e := x.e, scale := x.scale }
    | none => missing fmt
  cols.map fun c => c.getD i gap

/-- Outputs 0 to n − 1 of a streamed across row: `groups` holds for each of the 32 across groups the
vectors of its columns, `row` the streamed elements of each group; an empty group has no live element. -/
def acrossDot (fmt orient n : Nat) (groups : List (List (List Elem))) (row : List (List Elem)) :
    List F32 × GCount :=
  let outs := (List.range n).map fun i =>
    let gs := groups.zipWith (fun cols ss =>
      if cols.isEmpty then none else some (groupDot (pad32 fmt (nthOf fmt orient i cols)) ss)) row
    (acrossTree gs, grpCount (gs.filterMap id))
  (outs.map (·.1), outs.foldl (fun acc o => acc.add o.2) GCount.zero)

/-! ## Bad columns and array states -/

/-- State of an array by dead lanes (Table 03-12): 0 full, 1 narrowed to 768, 2 to 512, 3 off. -/
def arrayState (dead : Nat) (narrow : Bool) : Nat :=
  if dead = 0 then 0 else if !narrow then 3 else if dead = 1 then 1 else if dead = 2 then 2 else 3

/-- Array roles by R394 from the states of the arrays: `ROLE` of Table 15-11. -/
def rolesOf (states : List Nat) : Nat :=
  let live := (List.range 4).filter fun a => states.getD a 3 != 3
  let full := (List.range 4).filter fun a => states.getD a 3 == 0
  let pick (own : Nat) (taken : List Nat) : Option Nat :=
    if full.contains own && !(taken.contains own) then some own else none
  let low (taken : List Nat) : Option Nat := (full.filter fun a => !(taken.contains a)).head?
  -- pair 0: own arrays first, then vacant roles, score first
  let s0 := pick 0 []
  let v0 := pick 1 []
  let taken (l : List (Option Nat)) : List Nat := l.filterMap id
  let s0' := match s0 with | some a => some a | none => low (taken [s0, v0])
  let v0' := match v0 with | some a => some a | none => low (taken [s0', v0])
  let (s0, v0) := if s0'.isSome && v0'.isSome then (s0', v0') else (none, none)
  -- pair 1
  let t0 := taken [s0, v0]
  let s1 := pick 2 t0
  let v1 := pick 3 t0
  let s1' := match s1 with | some a => some a | none => low (t0 ++ taken [s1, v1])
  let v1' := match v1 with | some a => some a | none => low (t0 ++ taken [s1', v1])
  let (s1, v1) := if s0.isSome && s1'.isSome && v1'.isSome then (s1', v1') else (none, none)
  let used := taken [s0, v0, s1, v1]
  let spare := (live.filter fun a => !(used.contains a)).head?
  let c (x : Option Nat) : Nat := x.getD 7
  c s0 + c v0 * 8 + c s1 * 64 + c v1 * 512 + c spare * 4096

/-- Pairs that a `ROLE` value forms. -/
def rolePairs (role : Nat) : Nat :=
  (if field role 0 3 != 7 then 1 else 0) + (if field role 6 3 != 7 then 1 else 0)

end Sys2Proof.Machine
end

