-- ==== Sys2Proof/Machine/Regs.lean ====
section
/-! DEFINITION. The configuration space: the page map, the masks and reset values of the RW words, the
shadow and the value in effect, live words (Tables 17-1 to 17-16, 18-1 to 18-12), `BLK.CAP`. -/

namespace Sys2Proof.Machine

open Sys2Proof

/-! ## Page indices (Table 17-1) -/

def pgBLK : Nat := 0
def pgCAL : Nat := 1
def pgCALU : Nat := 2
def pgFLT : Nat := 3
def pgCAD : Nat := 4
def pgWBT : Nat := 5
def pgPWR : Nat := 6
def pgPART : Nat := 7
def pgSTRM : Nat := 8
def pgSTORE : Nat := 9
def pgXLAT : Nat := 10
def pgPOOL : Nat := 11
def pgFTAB : Nat := 12
def pgMIR : Nat := 13
def pgSNAP : Nat := 14
def pgMEMP (q : Nat) : Nat := 0x10 + q
def pgRPG : Nat := 0x20
def pgRPB (k : Nat) : Nat := 0x21 + k
def pgFAB : Nat := 0x28
def pgARY (n : Nat) : Nat := 0x40 + 4 * n
def pgPIPE (n : Nat) : Nat := 0x41 + 4 * n
def pgFN (n : Nat) : Nat := 0x42 + 4 * n
def pgMON (n : Nat) : Nat := 0x43 + 4 * n

/-! ## Capability (Table 16-4) -/

/-- `BLK.CAP`: zero until fuse load is done and after a failed one (R418, R422). -/
def cap (s : State) : Nat := if s.initFuse && !s.fuseErr then s.fuse.cap.toNat else 0

def capCH (s : State) : Nat := field (cap s) 0 4
def capARY (s : State) : Nat := field (cap s) 4 3
def capMT (s : State) : Nat := field (cap s) 8 5
def capRP (s : State) : Nat := field (cap s) 13 7
def capCMP (s : State) : Bool := bitOf (cap s) 20
def capEVS (s : State) : Bool := bitOf (cap s) 21
def capRNG (s : State) : Bool := bitOf (cap s) 22
def capRED (s : State) : Bool := bitOf (cap s) 23
def capMIR (s : State) : Bool := bitOf (cap s) 24

/-- Whether a page index is listed and its unit is there (R432, R448); after a failed fuse load only
`BLK` is (R418). -/
def pagePresent (s : State) (pg : Nat) : Bool :=
  if pg = pgBLK then true
  else if s.fuseErr then false
  else if pg = pgMIR then capMIR s
  else if pg ≤ pgSNAP then true
  else if 0x10 ≤ pg && pg ≤ 0x1F then decide (pg - 0x10 < capMT s)
  else if pg = pgRPG then decide (0 < capRP s)
  else if 0x21 ≤ pg && pg ≤ 0x24 then decide (16 * (pg - 0x21) < capRP s)
  else if pg = pgFAB then true
  else if 0x40 ≤ pg && pg ≤ 0x5F then decide ((pg - 0x40) / 4 < capCH s)
  else false

/-- `PAGEID.TYPE` (Table 17-1). -/
def pageType (pg : Nat) : Nat :=
  if pg ≤ pgSNAP then pg + 1
  else if pg ≤ 0x1F then 0x10
  else if pg = pgRPG then 0x11
  else if pg ≤ 0x24 then 0x12
  else if pg = pgFAB then 0x13
  else 0x14 + (pg - 0x40) % 4

/-- `PAGECAP.SHADOW`: the page has RW fields (Table 18-1 and Tables 17-6 to 17-16). -/
def pageShadow (pg : Nat) : Bool :=
  if pg ≤ pgSNAP then !(pg == pgBLK || pg == pgCAL || pg == pgCAD)
  else if pg ≤ 0x1F then true
  else if pg = pgRPG || pg = pgFAB then true
  else if pg ≤ 0x24 then false
  else pg % 4 == 0

/-- `PAGECAP.JOIN`. -/
def pageJoin (pg : Nat) : Bool := pageShadow pg && pg != pgSNAP

/-! ## RW words -/

/-- The writable bits of the word at `off` of page `pg`, 0 where it is no RW word (R433). The entry
window of `WBT` is not here: it shows the shadow table (R302). -/
def rwMask (s : State) (pg off : Nat) : Nat :=
  let all := 0xFFFFFFFF
  if off % 4 ≠ 0 then 0
  else if pg = pgCALU then
    if 0x100 ≤ off && off < 0x120 then 0x0FFF0FFF
    else if 0x120 ≤ off && off < 0x140 then 0x3F
    else if 0x140 ≤ off && off < 0x940 then all else 0
  else if pg = pgFLT then if off = 0x100 then 0xFFFF else 0
  else if pg = pgWBT then if off = 0x100 then all else if off = 0x104 then 0xFFF else 0
  else if pg = pgPWR then
    if 0x100 ≤ off && off < 0x134 then
      [0x1F, all, 0xFFFF, all, 0x0FFFFFFF, all, all, all, 0xFF, 0xFFFFFF, 0xFFFFFF, 0xFFFFFF,
        0xFFFFFF].getD ((off - 0x100) / 4) 0
    else 0
  else if pg = pgPART then
    if off = 0x100 then 0xFF
    else if off = 0x104 then all
    else if 0x200 ≤ off && off < 0x300 then
      [0xFF, all, all, all, 0x3FFFFFFF, 0x0FFFFFFF, 0x3FFFFF, 0].getD ((off - 0x200) / 4 % 8) 0
    else 0
  else if pg = pgSTRM then
    if 0x100 ≤ off && off < 0x900 then
      let o := (off - 0x100) % 0x100
      if o < 0x80 then
        [0xFFFFFFC0, 0x7FFFFF, 0xFFFFFFC0, 0x7FFFFF, 0x1F1F, all, 0, 0].getD (o / 4 % 8) 0
      else if o = 0x80 then 0xFFFF else 0
    else 0
  else if pg = pgSTORE then
    if off = 0x100 then all else if off = 0x104 then 0x7FF else if off = 0x108 then 0xF else 0
  else if pg = pgXLAT then
    if 0x100 ≤ off && off < 0x11C then
      [all, 0x1FF, all, 1, 0x1FFFFF, 0x7F, 0xF].getD ((off - 0x100) / 4) 0
    else if 0x200 ≤ off && off < 0x400 then
      [0x7FFFF, 0xFFFFF, all, 0xFF, all, 0xFF, 1, 0, 0x1FFFFFF, 0x1FFFFFF, 0x1FFFFFF, 0x1FFFFFF,
        0x1FFFFFF, 0x1FFFFFF, 0x1FFFFFF, 0x1FFFFFF].getD ((off - 0x200) / 4 % 16) 0
    else 0
  else if pg = pgPOOL then
    if off = 0x100 then 0xFFFF
    else if off = 0x104 then all
    else if 0x200 ≤ off && off < 0x400 then
      [0x00FF0FFF, 0x01FFFFFF, 0x1FFF, 0x7FFFF, 0xFFFFF, all, all, 0, 0x1FFFFF, 0xFFFF00FF,
        0x1FFFFF, 0xFFFFF, all, 0xFF, all, 0].getD ((off - 0x200) / 4 % 16) 0
    else 0
  else if pg = pgFTAB then
    if (0x100 ≤ off && off < 0x400) || (0x500 ≤ off && off < 0x900) then
      let o := off % 0x100
      if o < 0x80 then (if o % 8 = 0 then all else 0xFFFF)
      else if o = 0x80 || o = 0x84 then all
      else if o = 0x88 then 0xFFFF else 0
    else if off = 0x900 then 0xF7 else 0
  else if pg = pgMIR then
    if 0x100 ≤ off && off < 0x120 then
      [0xFFFF, all, all, all, 0xFF, all, all, 0xFFFFFF3F].getD ((off - 0x100) / 4) 0
    else 0
  else if pg = pgSNAP then
    if 0x100 ≤ off && off < 0x110 then [0x1F, all, 0xFF, 0xFFFF].getD ((off - 0x100) / 4) 0
    else if 0x200 ≤ off && off < 0x280 then [all, 0x7FFFF, 0x1F, 0].getD ((off - 0x200) / 4 % 4) 0
    else 0
  else if 0x10 ≤ pg && pg ≤ 0x1F then
    if 0x100 ≤ off && off < 0x110 then [0x7F1F, 3, 0xFFF, 1].getD ((off - 0x100) / 4) 0 else 0
  else if pg = pgRPG then if off = 0x100 then 0xFFFF else 0
  else if pg = pgFAB then if off = 0x100 then 0xFFFF else if off = 0x104 then all else 0
  else if 0x40 ≤ pg && pg ≤ 0x5F && pg % 4 = 0 then
    if off = 0x100 then 1
    else if off = 0x104 then (if capARY s = 3 then 7 else 15) else 0
  else 0

/-- The reset value of an RW word (R434). -/
def rwReset (pg off : Nat) : Nat :=
  if pg = pgFLT then if off = 0x100 then 0x400 else 0
  else if pg = pgWBT then if off = 0x104 then 0x400 else 0
  else if pg = pgPWR then
    if 0x100 ≤ off && off < 0x134 then
      [4, 0, 0x59D8, 0, 0x069035F0, 0x40, 0x34BC, 0x41EB0, 0, 0xB1C7, 0xAAAB, 0x5471,
        0x5CE3].getD ((off - 0x100) / 4) 0
    else 0
  else if pg = pgPART then if off = 0x104 then 0x0A3D0148 else 0
  else if pg = pgSTRM then
    if 0x100 ≤ off && off < 0x900 then
      let o := (off - 0x100) % 0x100
      if o < 0x80 then (if o % 0x20 = 0x10 then 0x0404 else 0)
      else if o = 0x80 then 0x100 else 0
    else 0
  else if pg = pgSTORE then
    if off = 0x100 then 0x98889888 else if off = 0x104 then 0xF0 else if off = 0x108 then 2 else 0
  else if pg = pgXLAT then
    if 0x200 ≤ off && off < 0x400 then
      if (off - 0x200) % 0x40 = 8 then 0xFFFFFFFF else if (off - 0x200) % 0x40 = 0xC then 0xFF else 0
    else 0
  else if pg = pgPOOL then
    if off = 0x104 then 0x40
    else if 0x200 ≤ off && off < 0x400 then
      if (off - 0x200) % 0x40 = 0x20 then 0x10100 else if (off - 0x200) % 0x40 = 0x24 then 4 else 0
    else 0
  else if pg = pgMIR then if off = 0x11C then 8 else 0
  else if pg = pgSNAP then
    if 0x200 ≤ off && off < 0x280 && off % 0x10 = 8 then 4 else 0
  else if 0x10 ≤ pg && pg ≤ 0x1F then if off = 0x108 then 0x40 else 0
  else if pg = pgFAB then if off = 0x100 then 0x100 else 0
  else if 0x40 ≤ pg && pg ≤ 0x5F && pg % 4 = 0 then if off = 0x100 then 1 else 0
  else 0

/-- Offsets `0x100` to `0xEFF`, where every RW word lies. -/
def rwOffsets : List Nat := (List.range 0x380).map fun i => 0x100 + 4 * i

/-- The address of a word of the configuration space. -/
def wordAddr (pg off : Nat) : Nat := pg * 0x1000 + off

/-- A shadow word. -/
def shadowW (s : State) (pg off : Nat) : Nat :=
  (wordsGet s.shadow (wordAddr pg off) (BitVec.ofNat 32 (rwReset pg off))).toNat

/-- The value in effect of an RW word. -/
def eff (s : State) (pg off : Nat) : Nat :=
  (wordsGet s.effect (wordAddr pg off) (BitVec.ofNat 32 (rwReset pg off))).toNat

/-- Write a shadow word: bits that a table marks zero are discarded (R433). -/
def setShadow (s : State) (pg off v : Nat) : State :=
  { s with
    shadow := wordsSet s.shadow (wordAddr pg off) (BitVec.ofNat 32 (rwReset pg off))
      (BitVec.ofNat 32 (v &&& rwMask s pg off)) }

/-- Put a value into effect. -/
def setEff (s : State) (pg off v : Nat) : State :=
  { s with
    effect := wordsSet s.effect (wordAddr pg off) (BitVec.ofNat 32 (rwReset pg off))
      (BitVec.ofNat 32 v) }

/-- The value that a check sees: the shadow of the pages that commit, the value in effect of all others
(R435, R438). -/
def seen (s : State) (view : List Nat) (pg off : Nat) : Nat :=
  if view.contains pg then shadowW s pg off else eff s pg off

/-- The listed words of a page. -/
def pageWords (ws : Words) (pg : Nat) : Words := ws.filter fun e => e.1 / 0x1000 == pg

/-- `ws` with the words of a page taken from `src`. -/
def copyPage (ws src : Words) (pg : Nat) : Words :=
  (ws.filter fun e => e.1 < pg * 0x1000) ++ pageWords src pg
    ++ (ws.filter fun e => pg * 0x1000 + 0x1000 ≤ e.1)

/-- Every shadow value of a page takes effect (R435). -/
def switchPage (s : State) (pg : Nat) : State := { s with effect := copyPage s.effect s.shadow pg }

/-- Every value in effect goes to the shadow (`PAGECTL.REVERT`). -/
def revertPage (s : State) (pg : Nat) : State :=
  let s := { s with shadow := copyPage s.shadow s.effect pg }
  if pg = pgWBT then { s with wbt := { s.wbt with shadow := (s.wbt.next.getD s.wbt.table).entries } }
  else s

/-! ## Live words

The live words of Tables 17-4 and 18-13, keyed by the unit that an index register selects. -/

def liveKey (idx pg off : Nat) : Nat := idx * 0x1000000 + wordAddr pg off

/-- The reset value of a live word: zero, but for `SCALE_MIN` (R456). -/
def liveReset (pg off : Nat) : Nat :=
  if 0x40 ≤ pg && pg ≤ 0x5F && pg % 4 = 3 && off = 0xF18 then 0xFF else 0

def live (s : State) (idx pg off : Nat) : Nat :=
  (wordsGet s.live (liveKey idx pg off) (BitVec.ofNat 32 (liveReset pg off))).toNat

def setLive (s : State) (idx pg off v : Nat) : State :=
  { s with
    live := wordsSet s.live (liveKey idx pg off) (BitVec.ofNat 32 (liveReset pg off))
      (BitVec.ofNat 32 v) }

/-- Add to a counter of 32 bits that stops at `0xFFFF_FFFF`. -/
def bump (s : State) (idx pg off n : Nat) : State :=
  if n = 0 then s else setLive s idx pg off (min (live s idx pg off + n) 0xFFFFFFFF)


/-! ## Status words of pages -/

/-- `COMMITSTAT` of a page. -/
def commitStat (s : State) (pg : Nat) : Nat := (wordsGet s.pageStat pg 0).toNat

def setCommitStat (s : State) (pg v : Nat) : State :=
  { s with pageStat := wordsSet s.pageStat pg 0 (BitVec.ofNat 32 v) }

/-- Whether a page has a commit in progress; page 0 stands for a group commit (Table 17-7). -/
def pageBusy (s : State) (pg : Nat) : Bool :=
  s.commits.any fun c => if pg = 0 then c.group else c.pages.contains pg

/-- `PAGESTAT.DIRTY`. -/
def pageDirty (s : State) (pg : Nat) : Bool :=
  pageWords s.shadow pg != pageWords s.effect pg ||
    (pg == pgWBT && s.wbt.shadow != (s.wbt.next.getD s.wbt.table).entries)

/-! ## Fields that other chapters name -/

def partLoad (s : State) (p : Nat) : Bool := bitOf (eff s pgPART 0x100) p
def partField (s : State) (view : List Nat) (p k : Nat) : Nat :=
  seen s view pgPART (0x200 + 0x20 * p + 4 * k)
def partCH (s : State) (p : Nat) : Nat := partField s [] p 0
def partFP (s : State) (p : Nat) : Nat := partField s [] p 1
def partRP (s : State) (p : Nat) : Nat := partField s [] p 2 + partField s [] p 3 * 2 ^ 32
def partST (s : State) (p : Nat) : Nat := partField s [] p 4
def partMT (s : State) (p : Nat) : Nat := partField s [] p 5

/-- The loaded partition whose channel `ch` is. -/
def chanOwner (s : State) (ch : Nat) : Option Nat :=
  (List.range 8).find? fun p => partLoad s p && bitOf (partCH s p) ch

/-- The loaded partition whose fabric port `f` is. -/
def fabOwner (s : State) (f : Nat) : Option Nat :=
  (List.range 8).find? fun p => partLoad s p && bitOf (partFP s p) f

/-- A field of `XLAT` for a partition, by word. -/
def xlatField (s : State) (view : List Nat) (p k : Nat) : Nat :=
  seen s view pgXLAT (0x200 + 0x40 * p + 4 * k)
/-- A field of `POOL` for a partition, by word. -/
def poolField (s : State) (view : List Nat) (p k : Nat) : Nat :=
  seen s view pgPOOL (0x200 + 0x40 * p + 4 * k)

/-- `STRM` ring fields of a stream, by word: `RBASEL`, `RBASEH`, `CBASEL`, `CBASEH`, `RSIZE`,
`STAMP0`. -/
def strmField (s : State) (view : List Nat) (p st k : Nat) : Nat :=
  seen s view pgSTRM (0x100 + 0x100 * p + 0x20 * st + 4 * k)

end Sys2Proof.Machine
end

