-- ==== Sys2Proof/Machine/Ops.lean ====
section
/-! DEFINITION. The named operations on the state: parts of it by number, memory and its rows with
their code (R186 to R189, R386 to R390), fault records (R383, R384), what `BLK.CAP_LIVE` shows. -/

namespace Sys2Proof.Machine

open Sys2Proof

/-! ## Parts of the state by number -/

def part (s : State) (p : Nat) : Partition := s.parts[(Fin.ofNat 8 p)]
def updPart (s : State) (p : Nat) (f : Partition → Partition) : State :=
  { s with parts := s.parts.set (Fin.ofNat 8 p) (f (part s p)) }
def chan (s : State) (n : Nat) : Channel := s.chans[(Fin.ofNat 8 n)]
def updChan (s : State) (n : Nat) (f : Channel → Channel) : State :=
  { s with chans := s.chans.set (Fin.ofNat 8 n) (f (chan s n)) }
def slice (s : State) (n : Nat) : Slice := s.slices[(Fin.ofNat 8 n)]
def updSlice (s : State) (n : Nat) (f : Slice → Slice) : State :=
  { s with slices := s.slices.set (Fin.ofNat 8 n) (f (slice s n)) }
def slowP (s : State) (q : Nat) : SlowSt := s.slow[(Fin.ofNat 16 q)]
def updSlow (s : State) (q : Nat) (f : SlowSt → SlowSt) : State :=
  { s with slow := s.slow.set (Fin.ofNat 16 q) (f (slowP s q)) }
def fabP (s : State) (f : Nat) : FabSt := s.fab[(Fin.ofNat 32 f)]
def updFab (s : State) (n : Nat) (f : FabSt → FabSt) : State :=
  { s with fab := s.fab.set (Fin.ofNat 32 n) (f (fabP s n)) }
def remP (s : State) (n : Nat) : RemSt := s.rem[(Fin.ofNat 64 n)]
def updRem (s : State) (n : Nat) (f : RemSt → RemSt) : State :=
  { s with rem := s.rem.set (Fin.ofNat 64 n) (f (remP s n)) }
def pool (s : State) (p : Nat) : Pool := (part s p).pool
def updPool (s : State) (p : Nat) (f : Pool → Pool) : State :=
  updPart s p fun x => { x with pool := f x.pool }

/-- A stream of a partition. -/
def Partition.strm (x : Partition) (st : Strm) : StreamSt :=
  match st with
  | .F => x.f | .B => x.b | .U => x.u | .S => x.s
def Partition.setStrm (x : Partition) (st : Strm) (y : StreamSt) : Partition :=
  match st with
  | .F => { x with f := y } | .B => { x with b := y } | .U => { x with u := y }
  | .S => { x with s := y }
def strm (s : State) (p : Nat) (st : Strm) : StreamSt := (part s p).strm st
def updStrm (s : State) (p : Nat) (st : Strm) (f : StreamSt → StreamSt) : State :=
  updPart s p fun x => x.setStrm st (f (x.strm st))

/-- The streams in order F, B, U, S. -/
def allStrms : List Strm := [.F, .B, .U, .S]
/-- The partitions. -/
def allParts : List Nat := List.range 8
def strmOf (n : Nat) : Strm := if n = 0 then .F else if n = 1 then .B else if n = 2 then .U else .S

/-- Whether a stream is armed (`STRM.ARMED`). -/
def armed (s : State) (p : Nat) (st : Strm) : Bool := (strm s p st).armed
def partArmed (s : State) (p : Nat) : Bool := allStrms.any (armed s p)
def anyArmed (s : State) : Bool := allParts.any (partArmed s)

/-! ## What a command leaves alone -/

/-- `t` with the levels of `RST_N` and `TEST_EN`, the wrapper register and the queue of `s`: the block drives none of these
pins, the register follows `WSI` alone (R348), and the effect of a command is all but the queue. -/
def keepPins (s t : State) : State :=
  { t with rstN := s.rstN, testEn := s.testEn, wir := s.wir, pending := s.pending }

/-! ## Units in service (Table 16-5) -/

/-- A channel is in service (R450). -/
def chLive (s : State) (n : Nat) : Bool := (chan s n).service == .run
/-- The channel's bit of `BLK.CAP_LIVE0`: it clears when a leaving channel's arrays are idle (R75, Table 18-4). -/
def chBit (s : State) (n : Nat) : Bool := (chan s n).service == .run || (chan s n).service == .leaving
def sliceLive (s : State) (n : Nat) : Bool := (slice s n).live && !(slice s n).lost
def portLive (s : State) (q : Nat) : Bool := (slowP s q).inLive
def fabLive (s : State) (f : Nat) : Bool := (fabP s f).live
def remPresent (s : State) (n : Nat) : Bool := decide (n < capRP s)

/-- The number with the bits for which `f` holds. -/
def bitsWhere (n : Nat) (f : Nat → Bool) : Nat :=
  (List.range n).foldl (fun acc i => if f i then acc + 2 ^ i else acc) 0

/-- Word `k` of `BLK.CAP_LIVE`. -/
def capLive (s : State) (k : Nat) : Nat :=
  if s.fuseErr || !s.initFuse then 0
  else if k = 0 then
    bitsWhere 8 (chBit s) + bitsWhere 8 (sliceLive s) * 2 ^ 8 + bitsWhere 16 (portLive s) * 2 ^ 16
  else if k = 1 then bitsWhere 32 (fabLive s)
  else if k = 2 then bitsWhere 32 (remPresent s)
  else if k = 3 then bitsWhere 32 fun i => remPresent s (32 + i)
  else if k < 8 then (chan s (2 * (k - 4))).lanes + (chan s (2 * (k - 4) + 1)).lanes * 2 ^ 16
  else 0

/-- `a − b` modulo 2³². -/
def diff32 (a b : Nat) : Nat := (2 ^ 32 - b % 2 ^ 32 + a) % 2 ^ 32

/-! ## Fault records -/

/-- Who asks for an access or caused an event: partition, stream, stamp, channel, the requester class of Table 08-5 (7
for a feeder on its own slice, R462), and the fabric port of a target request. `0xFF` stands for none, `0xFFFF` for no port. -/
structure Who where
  part  : Nat
  strm  : Nat
  stamp : Word
  ch    : Nat
  cls   : Nat
  port  : Nat
  deriving DecidableEq, Repr

/-- No command: an access of the block's own. -/
def Who.block (cls : Nat) : Who := { part := 0xFF, strm := 0xFF, stamp := 0, ch := 0xFF, cls := cls, port := 0xFFFF }
def Who.cmd (p : Nat) (st : Strm) (stamp : Word) (cls : Nat) : Who :=
  { part := p, strm := st.num, stamp := stamp, ch := 0xFF, cls := cls, port := 0xFFFF }

/-- An empty record of a class and cause (Table 15-1). -/
def faultOf (w : Who) (cls cause : Nat) : FaultRec :=
  { fseq := 0, cls := cls, cause := cause, part := w.part, strm := w.strm, stamp := w.stamp,
    ch := w.ch, unit := 0xFF, port := w.port, addr := 0, akind := 0, phase := 0, arg0 := 0,
    arg1 := 0 }

/-- Write a fault record: number it, keep the last 1,024, count one overwritten before the driver
consumed it (R383). -/
def addFault (s : State) (f : FaultRec) : State :=
  let n := (s.fseq + 1) % 2 ^ 32
  let s := { s with fseq := n, faults := ({ f with fseq := n, phase := s.cad.phase } :: s.faults).take 1024 }
  let head := live s 0 pgFLT 0xF04
  if diff32 n head > 1024 then bump s 0 pgFLT 0xF0C 1 else s

/-- The low 16 bits of the number of the last record, for `DETAIL` (R385). -/
def lastFault (s : State) : Nat := s.fseq % 2 ^ 16

/-! ## Memory -/

/-- The bytes listed at or after `a`, none before. -/
def memFrom (m : Memory) (a : Nat) : Memory := m.filter fun c => decide (a ≤ c.1)

/-- One byte of memory; an unlisted byte reads zero (R419, R429; host memory: DESIGN CHOICE). -/
def memByte (m : Memory) (a : Nat) : Byte :=
  match m with
  | [] => 0
  | c :: rest => if c.1 = a then c.2 else memByte rest a

/-- The bytes of `[a, a + n)`, taken in one pass over the ascending list. -/
def memRun (m : Memory) (a : Nat) : Nat → List Byte
  | 0 => []
  | n + 1 =>
    match m with
    | [] => 0 :: memRun [] (a + 1) n
    | c :: rest =>
      if c.1 = a then c.2 :: memRun rest (a + 1) n else 0 :: memRun (c :: rest) (a + 1) n

/-- `n` bytes of memory from `a`. -/
def memBytes (m : Memory) (a n : Nat) : List Byte :=
  memRun (m.filter fun c => decide (a ≤ c.1) && decide (c.1 < a + n)) a n

/-- The cells of a run of bytes from `a`, the zero ones left out. -/
def cellsOf (a : Nat) : List Byte → Memory
  | [] => []
  | b :: bs => if b = 0 then cellsOf (a + 1) bs else (a, b) :: cellsOf (a + 1) bs

/-- Write a run of bytes at `a`: the canonical form lists no zero byte. -/
def memPut (m : Memory) (a : Nat) (bs : List Byte) : Memory :=
  (m.filter fun c => decide (c.1 < a)) ++ cellsOf a bs
    ++ (m.filter fun c => decide (a + bs.length ≤ c.1))

/-- Zero `n` bytes from `a`. -/
def memClear (m : Memory) (a n : Nat) : Memory :=
  (m.filter fun c => decide (c.1 < a)) ++ (m.filter fun c => decide (a + n ≤ c.1))

/-- The canonical form of memory: addresses strictly rising, no zero byte listed. -/
abbrev Memory.wf (m : Memory) : Prop :=
  m.Pairwise (fun a b => a.1 < b.1) ∧ ∀ c ∈ m, c.2 ≠ 0

/-! ## The row code (R186, R187) -/

/-- Multiply by α = x in GF(2¹⁶), modulo x¹⁶ + x¹² + x³ + x + 1. -/
def gfX (a : Nat) : Nat :=
  let b := a * 2
  if b ≥ 2 ^ 16 then (b - 2 ^ 16) ^^^ 0x100B else b

/-- `k` times `gfX`. -/
def gfXs : Nat → Nat → Nat
  | 0, a => a
  | k + 1, a => gfXs k (gfX a)

/-- The syndromes S₀ to S₁₅ of one symbol error: S_j = e × α^(j(271 − k)). -/
def symSyndromes (k e : Nat) : List Nat := (List.range 16).map fun j => gfXs (j * (271 - k)) e

/-- The syndromes of an error pattern. -/
def syndromes (pat : List (Nat × BitVec 16)) : List Nat :=
  pat.foldl (fun acc e => acc.zipWith (· ^^^ ·) (symSyndromes e.1 e.2.toNat))
    (List.replicate 16 0)

/-- Multiply in GF(2¹⁶). -/
def gfMul (a b : Nat) : Nat :=
  (List.range 16).foldl (fun acc i => if bitOf b i then acc ^^^ gfXs i a else acc) 0

/-- a^(2^16 − 2), the inverse. -/
def gfInv (a : Nat) : Nat :=
  ((List.range 15).foldl (fun (acc : Nat × Nat) _ =>
    let sq := gfMul acc.2 acc.2
    (gfMul acc.1 sq, sq)) (1, a)).1

/-- The error values of symbols k and k + 1 that give S₀ and S₁: u + v = S₀, uX + vX/α = S₁. -/
def pairSolve (s0 s1 k : Nat) : Nat × Nat :=
  let x := gfXs (271 - k) 1
  let y := gfXs (270 - k) 1
  let u := gfMul (s1 ^^^ gfMul s0 y) (gfInv (x ^^^ y))
  (u, s0 ^^^ u)

/-- The pattern within two consecutive symbols that has given syndromes, if there is one. -/
def findPair (syn : List Nat) : Option (List (Nat × BitVec 16)) :=
  (List.range 271).findSome? fun k =>
    let (u, v) := pairSolve (syn.getD 0 0) (syn.getD 1 0) k
    let pat := [(k, BitVec.ofNat 16 u), (k + 1, BitVec.ofNat 16 v)]
    if syndromes pat = syn then some (pat.filter fun e => e.2 != 0) else none

/-- Add a symbol error to a pattern. -/
def patAdd (pat : List (Nat × BitVec 16)) (e : Nat × BitVec 16) : List (Nat × BitVec 16) :=
  match pat with
  | [] => if e.2 = 0 then [] else [e]
  | x :: rest =>
    if x.1 = e.1 then (if x.2 ^^^ e.2 = 0 then rest else (x.1, x.2 ^^^ e.2) :: rest)
    else x :: patAdd rest e

/-- What the decoder makes of a row: clean or corrected, with the pattern that is left in the data it
delivers (empty unless the decoder was deceived), or uncorrectable. -/
inductive RowRead where
  | clean (rest : List (Nat × BitVec 16))
  | corrected (rest : List (Nat × BitVec 16))
  | uncorrectable
  deriving DecidableEq, Repr

/-- Decode a row from the pattern by which its cells differ from what was written (R187; the code is
linear, so the syndromes are those of the pattern). -/
def rowDecode (pat : List (Nat × BitVec 16)) : RowRead :=
  if pat.isEmpty then .clean []
  else
    let syn := syndromes pat
    if syn.all (· == 0) then .clean pat
    else
      match findPair syn with
      | some fix => .corrected (fix.foldl patAdd pat)
      | none => .uncorrectable

/-! ## Rows -/

/-- The row that holds a physical address. -/
def rowOf (pa : Nat) : Nat := pa / Config.rowBytes * Config.rowBytes

def isStore (pa : Nat) : Bool := decide (pa < 0x400000000)
def isSlow (pa : Nat) : Bool := decide (Config.slowBase ≤ pa) && decide (pa < Config.slowBase + 16 * Config.slowPortBytes)
def isHost (pa : Nat) : Bool := decide (Config.hostBase ≤ pa) && decide (pa < 2 * Config.hostBase)
def sliceOf (pa : Nat) : Nat := pa / Config.sliceBytes
def portOf (pa : Nat) : Nat := (pa - Config.slowBase) / Config.slowPortBytes
/-- The row number of a slow-tier address on its port (R337). -/
def slowRow (pa : Nat) : Nat := (pa - Config.slowBase) % Config.slowPortBytes / Config.rowBytes

/-- The pattern of a row. -/
def rowPat (s : State) (row : Nat) : List (Nat × BitVec 16) := assocD s.rowErr row []

def setPat (s : State) (row : Nat) (pat : List (Nat × BitVec 16)) : State :=
  let rest := s.rowErr.filter fun e => e.1 != row
  { s with rowErr := if pat.isEmpty then rest else rest ++ [(row, pat)] }

/-- Cells of a row change (an upset). -/
def addUpset (s : State) (u : Upset) : State :=
  if u.sym < 272 then setPat s (rowOf u.row) (patAdd (rowPat s (rowOf u.row)) (u.sym, u.diff)) else s

def addUpsets (s : State) (us : List Upset) : State := us.foldl addUpset s

/-- The memory that a row belongs to. -/
def rowMem (s : State) (row : Nat) : RowMem :=
  if isStore row then (slice s (sliceOf row)).mem else (slowP s (portOf row)).mem

def updRowMem (s : State) (row : Nat) (f : RowMem → RowMem) : State :=
  if isStore row then updSlice s (sliceOf row) fun x => { x with mem := f x.mem }
  else updSlow s (portOf row) fun x => { x with mem := f x.mem }

/-- A counter of the memory of a row: `k` = 0 `CE`, 1 `CE_DROP`, 2 `UE`, 3 `RMW_WAIT`. -/
def bumpRow (s : State) (row k : Nat) : State :=
  if isStore row then bump s (sliceOf row) pgSTORE (0xF08 + 4 * k) 1
  else bump s 0 (pgMEMP (portOf row)) (0xF10 + 4 * k) 1

/-- A record of class 1 or 2 about a row (Table 15-2). -/
def rowFault (w : Who) (row cause arg0 arg1 : Nat) : FaultRec :=
  if isStore row then
    { faultOf w 1 cause with addr := row, akind := 2, unit := 0xFF, arg0 := arg0, arg1 := arg1 }
  else
    { faultOf w 2 cause with
      port := portOf row, addr := slowRow row, akind := 4, arg0 := arg0, arg1 := arg1 }

/-! ### Spare rows and retirement (R386 to R391) -/

/-- The bank of a row: of a store row within its slice; a slow-tier port's spare region is one. -/
def bankOf (row : Nat) : Nat := if isStore row then field row 9 5 else 0

/-- Spare rows of a bank: 1,024 (R179), or those of the spare region (R391). -/
def spareCount (s : State) (row : Nat) : Nat :=
  if isStore row then Config.sparesPerBank else eff s (pgMEMP (portOf row)) 0x108 * 2048

/-- Lowest free spare of a row's bank. Every spare that was ever taken is listed, latest first. -/
def freeSpare (s : State) (row : Nat) : Option Nat :=
  let used := ((rowMem s row).spares.filter fun e => bankOf e.1 == bankOf row).map (·.2)
  if used.length < spareCount s row then
    (List.range (used.length + 1)).find? fun k => !(used.contains k)
  else none

/-- The words of a repair table entry (Table 15-4). -/
def repairEntry (row spare : Nat) : Word × Word :=
  if isStore row then
    (BitVec.ofNat 32 (sliceOf row + field row 9 5 * 8 + field row 14 17 * 256), BitVec.ofNat 32 spare)
  else
    (BitVec.ofNat 32 (slowRow row),
      BitVec.ofNat 32 (spare % 2 ^ 20 + portOf row % 16 * 2 ^ 24 + 2 ^ 31))

/-- The row that an entry names (Table 15-4). -/
def entryRow (e : Word × Word) : Nat :=
  let w0 := e.1.toNat
  let w1 := e.2.toNat
  if bitOf w1 31 then
    Config.slowBase + field w1 24 4 * Config.slowPortBytes + field w0 0 27 * Config.rowBytes
  else field w0 0 3 * Config.sliceBytes + field w0 8 17 * 2 ^ 14 + field w0 3 5 * 2 ^ 9

/-- The bank steers a row to a spare, and the row's table entry names it: the entry of the factory
steering or of the live repair table where there is one, else a new live entry (R388, R390). -/
def steer (s : State) (row spare : Nat) : State :=
  let e := repairEntry row spare
  let s := updRowMem s row fun m => { m with spares := (row, spare) :: m.spares }
  if s.fuse.rows.any (fun x => entryRow x == row) then
    { s with fuse := { s.fuse with
        rows := s.fuse.rows.map fun x => if entryRow x = row then e else x } }
  else if s.repair.any (fun x => entryRow x == row) then
    { s with repair := s.repair.map fun x => if entryRow x = row then e else x }
  else { s with repair := s.repair ++ [e] }

/-- A bank without a free spare writes one `SPARE_OUT` record (R389). Like the record of a retirement it is the bank's own and
names no requester. -/
def spareOut (s : State) (row : Nat) : State :=
  if (rowMem s row).spareOut.contains (bankOf row) then s
  else
    let s := updRowMem s row fun m => { m with spareOut := bankOf row :: m.spareOut }
    addFault s (rowFault (Who.block 6) row 3 0 0)

/-- The number of the unit whose cells hold a row: slices, then slow-tier ports. -/
def unitNo (row : Nat) : Nat := if isStore row then sliceOf row else 8 + portOf row

/-- Names of cells that no address reaches, above every address: a row's own cells after it has moved, and spare rows. -/
def ownCells (row : Nat) : Nat := 2 ^ 60 + row
def spareCells (unit bank k : Nat) : Nat := 2 ^ 61 + unit * 2 ^ 50 + (k * 32 + bank) * Config.rowBytes

/-- The cells that a row would leave by moving: its spare where it has one, else its own. -/
def leftCells (s : State) (row : Nat) : Nat :=
  match (rowMem s row).spares.find? fun e => e.1 == row with
  | some e => spareCells (unitNo row) (bankOf row) e.2
  | none => ownCells row

/-- Retire a row: its corrected contents move to the lowest free spare, a record is written (R387). -/
def retireRow (s : State) (row count : Nat) : State :=
  match freeSpare s row with
  | none => spareOut s row
  | some k =>
    -- the cells it leaves keep their errors, which scrub goes on reading (R189); its spare is written afresh
    let s := setPat s (leftCells s row) (rowPat s row)
    let s := steer s row k
    let s := updRowMem s row fun m => { m with tracker := m.tracker.filter fun e => e.1 != row }
    let s := setPat (setPat s (spareCells (unitNo row) (bankOf row) k) []) row []
    addFault s (rowFault (Who.block 6) row 2 k count)

/-- Count a corrected read in the tracker (R386): its new list and the row's count. -/
def trackAdd (tr : List (Nat × Nat)) (row : Nat) : List (Nat × Nat) × Nat :=
  match tr.find? fun e => e.1 == row with
  | some e => (tr.map fun x => if x.1 = row then (row, x.2 + 1) else x, e.2 + 1)
  | none =>
    if tr.length < Config.trackerRows then (tr ++ [(row, 1)], 1)
    else
      let low := tr.foldl (fun acc e => min acc e.2) ((tr.head?.map (·.2)).getD 0)
      let k := (tr.findIdx? fun e => e.2 == low).getD 0
      (tr.eraseIdx k ++ [(row, 1)], 1)

/-- `STORE.RETIRE.THR` in effect. -/
def retireThr (s : State) : Nat := field (eff s pgSTORE 0x108) 0 4

/-- Xor the part of a pattern that lies in the data into bytes that begin at byte `off` of the row. -/
def applyPat (pat : List (Nat × BitVec 16)) (off : Nat) (bs : List Byte) : List Byte :=
  if pat.isEmpty then bs
  else bs.zipIdx.map fun (b, i) =>
    let j := off + i
    b ^^^ BitVec.ofNat 8 ((assocD pat (j / 2) 0).toNat >>> (8 * (j % 2)))

/-- A read that corrected a row: count it, queue the write-back, retire the row at the threshold. DESIGN CHOICE (log 78):
a row whose write-back is queued already is not queued again, and counts nothing in `CE_DROP`. -/
def corrected (s : State) (row : Nat) (rest : List (Nat × BitVec 16)) : State :=
  let s := bumpRow s row 0
  let m := rowMem s row
  let s :=
    if m.queue.any (fun e => e.1 == row && !e.2) then s
    else if m.queue.length < Config.writeBackRows then
      updRowMem s row fun m => { m with queue := m.queue ++ [(row, false)] }
    else bumpRow s row 1
  let (tr, n) := trackAdd m.tracker row
  let s := updRowMem s row fun m => { m with tracker := tr }
  if 0 < retireThr s && n = retireThr s then
    -- a decoder that was deceived has moved what it delivered
    let s := if rest.isEmpty then s else
      { s with mem := memPut s.mem row (applyPat rest 0 (memBytes s.mem row 512)) }
    retireRow s row n
  else s

/-- The bank reads a row (R188): the pattern left in what it delivers, `none` where the row is
uncorrectable, which is counted and recorded. -/
def readRow (s : State) (w : Who) (row : Nat) : State × Option (List (Nat × BitVec 16)) :=
  match rowDecode (rowPat s row) with
  | .clean rest => (s, some rest)
  | .corrected rest => (corrected s row rest, some rest)
  | .uncorrectable =>
    let s := bumpRow s row 2
    let s := { s with reported := if s.reported.contains row then s.reported else row :: s.reported }
    (addFault s (rowFault w row 1 w.cls 0), none)

/-- A row is written whole: its code is fresh, a queued write-back of it is dropped (R188, R189), and a
row that had reported an uncorrectable error is retired (R388). -/
def wroteRow (s : State) (row : Nat) : State :=
  let fresh (s : State) : State := if (rowPat s row).isEmpty then s else setPat s row []
  let s :=
    if (rowMem s row).queue.any (fun e => e.1 == row) then
      updRowMem s row fun m =>
        { m with queue := m.queue.map fun e => if e.1 = row then (row, true) else e }
    else s
  if s.reported.contains row then
    let n := assocD (rowMem s row).tracker row 0
    -- the write goes to the spare: the cells that the row leaves keep their error
    fresh (retireRow { s with reported := s.reported.filter (· != row) } row n)
  else fresh s

/-- The rows that `[pa, pa + n)` touches. -/
def rowsOf (pa n : Nat) : List Nat :=
  if n = 0 then []
  else (List.range ((pa + n - 1) / 512 - pa / 512 + 1)).map fun i => (pa / 512 + i) * 512

/-- How an access ended. -/
inductive Acc where
  /-- Done, with the bytes of a read. -/
  | ok (bytes : List Byte)
  /-- Failed: the `STATUS` of Table 11-19 for a command, and the low bits of the fault record. -/
  | bad (status : Nat) (detail : Nat)
  deriving DecidableEq, Repr

def stOK : Nat := 0
def stABORTED : Nat := 1
def stCANCELLED : Nat := 2
def stSHAPE : Nat := 3
def stREFUSED : Nat := 4
def stNOFRAME : Nat := 5
def stLENGTH : Nat := 6
def stABSENT : Nat := 7
def stTABLE : Nat := 8
def stCONFLICT : Nat := 9
def stARMBUSY : Nat := 10
def stECC : Nat := 11
def stFENCETMO : Nat := 12
def stOVERFLOW : Nat := 13

/-! ### Slices in DOZE (R313, R347)

A request for a row of a slice in DOZE waits for the wake. Work is first run on rows as if they could be reached, and notes
in `dozed` each slice in DOZE that it asks; where it asks one, its effect is dropped, the wakes begin, and it is tried
again. -/

/-- A request for a row of a slice in DOZE begins the wake of the slice and its channel, and counts. -/
def dozeHit (s : State) (n : Nat) : State :=
  if (chan s n).power == .doze && !((chan s n).waking) then
    updChan (updSlice (bump s n pgPWR 0xF34 1) n fun x => { x with ret := false }) n fun x =>
      { x with waking := true, wakeAt := s.cycle, wakeLate := false }
  else s

/-- Requester `ch` asks for a row of slice `n`; in DOZE it waits. -/
def dozeTouch (s : State) (n ch : Nat) : State :=
  if (chan s n).power == .doze then dozeHit { s with dozed := s.dozed ++ [(n, ch)] } n else s

/-- Whether work that led from `s` to `t` asks for rows of a slice in DOZE. -/
def asks (s t : State) : Bool := t.dozed.length != s.dozed.length

/-- The requests of that work, without its effect. -/
def askRows (s t : State) : State := (t.dozed.drop s.dozed.length).foldl (fun s e => dozeTouch s e.1 e.2) s

/-- Whether any slice is in DOZE. -/
def anyDoze (s : State) : Bool := s.chans.toList.any fun x => x.power == .doze

/-- What a request for rows does beside its access: rows of the slow tier are counted (Table 18-8), a dozing slice is
asked. -/
def touchRows (s : State) (ch pa n : Nat) (write : Bool) : State :=
  if n = 0 then s
  else if isSlow pa then bump s 0 (pgMEMP (portOf pa)) (if write then 0xF24 else 0xF20) (rowsOf pa n).length
  else if isStore pa then dozeTouch s (sliceOf pa) ch
  else s

/-- Read the bytes of store or slow tier, whose presence the caller has checked, row by row in
ascending order; the first uncorrectable row ends the read. -/
def rowsRead (s : State) (w : Who) (pa n : Nat) : State × Acc :=
  let s := touchRows s w.ch pa n false
  let bad := (s.rowErr.map (·.1)).filter fun r => decide (rowOf pa ≤ r) && decide (r < pa + n)
  let base := memBytes s.mem pa n
  (sortBy (fun a b => decide (a < b)) bad).foldl (fun (acc : State × Acc) row =>
    match acc.2 with
    | .bad _ _ => acc
    | .ok bs =>
      match readRow acc.1 w row with
      | (s', none) => (s', .bad stECC (lastFault s'))
      | (s', some pat) =>
        if pat.isEmpty then (s', .ok bs)
        else
          let all := applyPat pat 0 (memBytes s'.mem row 512)
          (s', .ok (bs.zipIdx.map fun (b, i) =>
            if row ≤ pa + i && pa + i < row + 512 then all.getD (pa + i - row) b else b)))
    (s, .ok base)

/-- Write bytes into one row: whole, or as a part, which the block refuses on a row that reports an
uncorrectable error (R188). -/
def rowWrite (s : State) (w : Who) (pa : Nat) (bs : List Byte) : State × Acc :=
  let row := rowOf pa
  if bs.isEmpty then (s, .ok [])
  else if bs.length = 512 then
    (wroteRow { s with mem := memPut s.mem pa bs } row, .ok [])
  else if (rowPat s row).isEmpty then
    (wroteRow { s with mem := memPut s.mem pa bs } row, .ok [])
  else
    match readRow s w row with
    | (s', none) => (s', .bad stECC (lastFault s'))
    | (s', some pat) =>
      let all := applyPat pat 0 (memBytes s'.mem row 512)
      let s' := { s' with mem := memPut (memPut s'.mem row all) pa bs }
      (wroteRow s' row, .ok [])

/-- Cut a run of bytes at the boundaries of `size`: address and bytes of each piece; `fuel` bounds the
pieces. -/
def cutRun (size : Nat) : Nat → Nat → List Byte → List (Nat × List Byte)
  | 0, _, _ => []
  | fuel + 1, a, bs =>
    if bs.isEmpty then []
    else
      let k := size - a % size
      (a, bs.take k) :: cutRun size fuel (a + k) (bs.drop k)

/-- Cut a range at the boundaries of `size`: address and length of each piece. -/
def cutRange (size : Nat) : Nat → Nat → Nat → List (Nat × Nat)
  | 0, _, _ => []
  | fuel + 1, a, n =>
    if n = 0 then []
    else
      let k := min n (size - a % size)
      (a, k) :: cutRange size fuel (a + k) (n - k)

/-- Write bytes of store or slow tier row by row; a refused row does not keep the others from being
written (R188). -/
def rowsWrite (s : State) (w : Who) (pa : Nat) (bs : List Byte) : State × Acc :=
  let s := touchRows s w.ch pa bs.length true
  if s.rowErr.isEmpty && s.reported.isEmpty &&
      (s.slices.toList.all fun x => x.mem.queue.isEmpty) &&
      (s.slow.toList.all fun x => x.mem.queue.isEmpty) then
    ({ s with mem := memPut s.mem pa bs }, .ok [])
  else
    (cutRun 512 bs.length pa bs).foldl (fun (acc : State × Acc) piece =>
      let (s', r) := rowWrite acc.1 w piece.1 piece.2
      (s', match acc.2 with | .ok _ => r | b => b)) (s, .ok [])

end Sys2Proof.Machine
end

