-- ==== Sys2Proof/Machine/Xlat.lean ====
section
/-! DEFINITION. Translation and access by virtual address (R194 to R202), host memory behind the fabric
ports (R333), the initiator side of the fabric ports (R327, R329). -/

namespace Sys2Proof.Machine

open Sys2Proof

/-! ## Slow-tier devices -/

/-- Capacity in MiB of the device that a `MEMPq.DEV` word describes: dies × density / 8 (Table 18-9). -/
def devMiB (dev : Nat) : Nat :=
  if field dev 0 2 = 0 then 0
  else [8, 12, 16, 0].getD (field dev 2 2) 0 * (if bitOf dev 4 then 32 else 24) * 128

/-- `MEMPq.USABLE.MB`. -/
def usableMiB (s : State) (q : Nat) : Nat :=
  let dev := eff s (pgMEMP q) 0x100
  if field dev 0 2 = 0 then 0 else devMiB dev - eff s (pgMEMP q) 0x108

/-- `MEMPq.STAT.READY`. -/
def portReady (s : State) (q : Nat) : Bool := decide (q < capMT s) && (slowP s q).ready

/-- Whether a physical address is present (R194, R340, R397). -/
def present (s : State) (pa : Nat) : Bool :=
  if isStore pa then decide (sliceOf pa < capCH s) && !(slice s (sliceOf pa)).lost
  else if isSlow pa then
    portReady s (portOf pa) &&
      decide ((pa - Config.slowBase) % Config.slowPortBytes < usableMiB s (portOf pa) * 2 ^ 20)
  else isHost pa

/-! ## The initiator side of the fabric ports -/

/-- The live fabric ports that a partition owns, ascending. -/
def livePorts (s : State) (p : Nat) : List Nat :=
  (List.range 32).filter fun f => bitOf (partFP s p) f && fabLive s f

/-- Beats of a request (R327): one for a read, one for each 128 bytes touched of a write. -/
def IqReq.beats (r : IqReq) : Nat := if r.write then (r.addr % 128 + r.bytes + 127) / 128 else 1

/-- Lowest tag that is neither outstanding nor kept out of use (R334). -/
def freeTag (x : FabSt) : Option Nat :=
  (List.range 256).find? fun t => !(x.sent.any (fun r => r.tag == t)) && !(x.stale.contains t)

/-- Send waiting requests while credits and tags last (R185, R329). -/
def iqPump : Nat → State → Nat → State
  | 0, s, _ => s
  | fuel + 1, s, f =>
    let x := fabP s f
    match x.waiting with
    | [] => s
    | r :: rest =>
      match freeTag x with
      | none => s
      | some t =>
        if x.iqCred < r.beats then s
        else
          let r := { r with tag := t, limit := eff s pgFAB 0x100, sent := s.cycle }
          let s := updFab s f fun x =>
            { x with iqCred := x.iqCred - r.beats, waiting := rest, sent := x.sent ++ [r] }
          iqPump fuel (bump s f pgFAB 0xF20 r.beats) f

/-- Form a request on a port and send what can be sent. -/
def iqAdd (s : State) (f : Nat) (r : IqReq) : State :=
  let s := updFab s f fun x => { x with waiting := x.waiting ++ [r] }
  iqPump (fabP s f).waiting.length s f

/-- Whether a request for which `f` holds is not answered. -/
def iqAny (s : State) (f : IqReq → Bool) : Bool := s.fab.toList.any fun x => x.waiting.any f || x.sent.any f

/-- Requests that serve an owner and are not answered. -/
def iqOutstanding (s : State) (o : Owner) : Bool := iqAny s fun r => r.owner == o

/-- Whether an owner is a command's, on any channel. -/
def Owner.isCmd (o : Owner) (p : Nat) (st : Strm) (stamp : Word) : Bool :=
  match o with
  | .command q t x _ => q.val == p && t == st && x == stamp
  | _ => false

/-- The port that a host access goes through: number j of the live owned ports (R333). -/
def hostPort (s : State) (p a : Nat) : Option Nat :=
  let ports := livePorts s p
  if ports.isEmpty then none else ports[(a / Config.granule) % ports.length]?

/-- A host access of a partition as requests of at most 512 bytes, none crossing a 512-byte boundary;
`port` names a port where the rule does (R260). `none`: no live port. -/
def hostReq (s : State) (p : Nat) (o : Owner) (port : Option Nat) (a n : Nat) (data : Option (List Byte)) :
    Option State :=
  let a := a % Config.hostBase
  if (livePorts s p).isEmpty then none
  else
    some ((cutRange 512 n a n).foldl (fun s (x, k) =>
      match (match port with | some f => some f | none => hostPort s p x) with
      | none => s
      | some f => iqAdd s f { tag := 0, engine := false, write := data.isSome, addr := x, bytes := k,
                              data := ((data.getD []).drop (x - a)).take k, owner := o, limit := 0,
                              sent := 0 }) s)

/-! ## Walks -/

/-- The context of an access by virtual address: who asks, in which partition's space, from which
instar root (a granule) the pool region is walked, who owns its host requests, and the Dysil fields that an issued command
keeps (R437), where they are not those in effect. -/
structure Ctx where
  who   : Who
  part  : Nat
  root  : Option Nat
  owner : Owner
  dysil : Option (List Nat) := none
  deriving DecidableEq, Repr

/-- What a translation gives: the physical address with its leaf, a failure with its cause of class 3
(1 `UNMAPPED`, 2 `WRITE_PROT`, 3 `ABSENT`), or a table row that is uncorrectable. -/
inductive Xl where
  | ok (pa : Nat) (leaf : Nat)
  | fail (cause : Nat)
  | ecc (detail : Nat)
  deriving DecidableEq, Repr

/-- The index of a virtual address at a level (Table 08-8). -/
def vaIndex (va level : Nat) : Nat :=
  if level = 0 then field va 51 5 else field va (51 - 12 * level) 12

/-- Whether an entry is valid at a level (R196). -/
def entryValid (level e : Nat) : Bool :=
  bitOf e 0 && field e 48 8 == 0 &&
    (if level = 3 then field e 3 12 == 0 else field e 56 8 == 0 && field e 1 14 == 0 && isStore e)

/-- The granule address that an entry holds. -/
def entryPa (e : Nat) : Nat := field e 15 33 * Config.granule

/-- Read an entry of a node by a remote grant (R197). -/
def readEntry (s : State) (w : Who) (node idx : Nat) : State × Except Xl Nat :=
  let pa := node + 8 * idx
  if !(present s pa) then (s, .error (.fail 3))
  else
    match rowsRead s { w with cls := 0 } pa 8 with
    | (s, .ok bs) => (s, .ok (leNat bs))
    | (s, .bad _ d) => (s, .error (.ecc d))

/-- Whether a leaf is valid for an address: one of the pool region has zero in the bits that Table 09-6 marks zero (R210). -/
def leafValid (va e : Nat) : Bool :=
  entryValid 3 e && !(bitOf va 55 && (bitOf e 56 || bitOf e 63))

/-- Walk from a node at a level down to the leaf: the leaf entry. -/
def walkFrom (w : Who) (va : Nat) : Nat → State → Nat → State × Except Xl Nat
  | 0, s, node =>
    match readEntry s w node (vaIndex va 3) with
    | (s, .ok e) => if leafValid va e then (s, .ok e) else (s, .error (.fail 1))
    | r => r
  | k + 1, s, node =>
    match readEntry s w node (vaIndex va (3 - (k + 1))) with
    | (s, .ok e) =>
      if entryValid (3 - (k + 1)) e then walkFrom w va k s (entryPa e) else (s, .error (.fail 1))
    | r => r

/-- The physical address of a partition's static root (`XLAT.SROOT`), where it has a table area. -/
def sroot (s : State) (p : Nat) : Option Nat :=
  if xlatField s [] p 1 = 0 then none else some (xlatField s [] p 0 * Config.granule)

/-- The root of a pool whose table area has no granule left for one: no address of the block lies in it, and it reads as
zero, so that nothing is mapped. The first edit that gets a granule makes a root of its own. -/
def noRoot : Nat := 2 ^ 33

/-- Whether a physical address lies in the table area of any partition (R200). -/
def inTableArea (s : State) (pa : Nat) : Bool :=
  allParts.any fun p =>
    let b := xlatField s [] p 0 * Config.granule
    decide (b ≤ pa) && decide (pa < b + xlatField s [] p 1 * Config.granule)

/-- The channels of a partition, ascending. -/
def partChans (s : State) (p : Nat) : List Nat := bitsOf 8 (partCH s p)

/-- The Dysil fields of a partition in effect: `DYSIL`, then the bases of cores 0 to 7. -/
def dysilFields (s : State) (p : Nat) : List Nat := [6, 8, 9, 10, 11, 12, 13, 14, 15].map (xlatField s [] p)

/-- Dysil field `k` as an access sees it. -/
def Ctx.dysilField (s : State) (c : Ctx) (k : Nat) : Nat :=
  match c.dysil with
  | some ws => ws.getD k 0
  | none => xlatField s [] c.part (if k = 0 then 6 else 7 + k)

/-- The address of a Dysil window, `none` outside it (R202). -/
def dysil (s : State) (x : Ctx) (va : Nat) : Option Nat :=
  let c := field va 20 3
  let off := field va 0 20
  if bitOf va 23 || 0x60000 ≤ off || (partChans s x.part).length ≤ c then none
  else some (x.dysilField s (1 + c) * 512 + off)

/-- The checks on a physical address after a walk: presence (R194), then table areas (R200). -/
def checkPa (s : State) (pa leaf : Nat) (write : Bool) : State × Xl :=
  if !(present s pa) then (s, .fail 3)
  else if write && inTableArea s pa then (bump s 0 pgXLAT 0xF04 1, .fail 2)
  else (s, .ok pa leaf)

/-- Translate an address for a read or a write (R195, R197). -/
def xlate (s : State) (c : Ctx) (va : Nat) (write : Bool) : State × Xl :=
  let va := va % 2 ^ 56
  if bitOf (c.dysilField s 0) 0 && va < 2 ^ 24 then
    match dysil s c va with
    | none => (s, .fail 1)
    | some pa => checkPa s pa 3 write
  else
    match (if bitOf va 55 then (c.root.filter (· != noRoot)).map (· * Config.granule) else sroot s c.part) with
    | none => (s, .fail 1)
    | some root =>
      match walkFrom c.who va 3 s root with
      | (s, .error e) => (s, e)
      | (s, .ok leaf) =>
        if write && !(bitOf leaf 1) then (s, .fail 2)
        else checkPa s (entryPa leaf + va % Config.granule) leaf write

/-- The requester class of an access at a physical address: a feeder on its own slice is 7, on another
slice 1 (R462). -/
def Who.at (w : Who) (pa : Nat) : Who :=
  if w.cls = 7 && !(isStore pa && sliceOf pa == w.ch) then { w with cls := 1 } else w

/-- The record of a failed translation (Table 15-2). -/
def xlFault (s : State) (c : Ctx) (va cause : Nat) : State :=
  addFault s { faultOf c.who 3 cause with addr := va, akind := 1 }

/-- The record of a host access without a live port (R333). -/
def noPortFault (s : State) (c : Ctx) (a : Nat) : State :=
  addFault s { faultOf c.who 8 1 with addr := a % Config.hostBase, akind := 3, arg0 := 1 }

/-- The bytes that answered reads of an owner returned, `none` while one of the requests of `[a, a + n)` is
not answered. -/
def hostBytes (s : State) (o : Owner) (a n : Nat) : Option (List Byte) :=
  let got (x k : Nat) : Option (List Byte) :=
    (s.iqDone.find? fun r => r.owner == o && r.addr == x && r.bytes == k).map (·.data)
  ((cutRange 512 n a n).mapM fun e => got e.1 e.2).map List.flatten

/-- The port of ring reads and completion writes (R260); of every other owner R333 chooses it. -/
def ownerPort (s : State) (p : Nat) (o : Owner) : Option Nat :=
  match o with
  | .ring _ _ => (livePorts s p).head?
  | .completion _ _ => (livePorts s p).head?
  | _ => none

/-- Send the reads of `[a, a + n)` that an owner has neither sent nor had answered. -/
def hostAsk (s : State) (c : Ctx) (a n : Nat) : State :=
  (cutRange 512 n a n).foldl (fun s (x, k) =>
    let mine (r : IqReq) : Bool := r.owner == c.owner && !r.write && r.addr == x && r.bytes == k
    if s.iqDone.any mine || iqAny s mine then s
    else (hostReq s c.part c.owner (ownerPort s c.part c.owner) x k none).getD s) s

/-- The signal of work that reads host memory and has to wait for the answer; it comes with the address and
the length. It is no status of Table 11-19. -/
def stHOST : Nat := 0x102

/-- Read at a physical address that is present. -/
def paRead (s : State) (c : Ctx) (pa n : Nat) : State × Acc :=
  if isHost pa then
    let a := pa % Config.hostBase
    if (livePorts s c.part).isEmpty then
      let s := noPortFault s c pa
      (s, .bad stABORTED (lastFault s))
    else
      match hostBytes s c.owner a n with
      | some bs => (s, .ok bs)
      | none => (s, .bad stHOST (a * 2 ^ 16 + n))
  else rowsRead s (c.who.at pa) pa n

/-- Write at a physical address that is present. -/
def paWrite (s : State) (c : Ctx) (pa : Nat) (bs : List Byte) : State × Acc :=
  if isHost pa then
    match hostReq s c.part c.owner (ownerPort s c.part c.owner) pa bs.length (some bs) with
    | none => let s := noPortFault s c pa; (s, .bad stABORTED (lastFault s))
    | some s => (s, .ok [])
  else rowsWrite s (c.who.at pa) pa bs

/-- Read `n` bytes at a virtual address, granule by granule; the first failure ends the read. -/
def vread (s : State) (c : Ctx) (va n : Nat) : State × Acc :=
  (cutRange Config.granule n (va % 2 ^ 56) n).foldl (fun (acc : State × Acc) (x, k) =>
    match acc with
    | (s, .bad st d) => (s, .bad st d)
    | (s, .ok bs) =>
      match xlate s c x false with
      | (s, .fail cause) => let s := xlFault s c x cause; (s, .bad stABORTED (lastFault s))
      | (s, .ecc d) => (s, .bad stECC d)
      | (s, .ok pa _) =>
        match paRead s c pa k with
        | (s, .ok more) => (s, .ok (bs ++ more))
        | r => r) (s, .ok [])

/-- What a write by virtual address did: how it ended, and the lowest and the highest byte written. -/
structure Wrote where
  acc : Acc
  lo  : Option Nat
  hi  : Nat
  deriving DecidableEq, Repr

def Wrote.note (r : Wrote) (x k : Nat) : Wrote :=
  { r with
    lo := some (match r.lo with | none => x | some a => min a x)
    hi := max r.hi (x + k) }

/-- Write bytes at a virtual address. A failed translation ends the write; a row that refuses a part
write does not keep the others from being written (R188). -/
def vwrite (s : State) (c : Ctx) (va : Nat) (bs : List Byte) : State × Wrote :=
  let size := if s.rowErr.isEmpty then Config.granule else Config.rowBytes
  (cutRun size bs.length (va % 2 ^ 56) bs).foldl (fun (acc : State × Wrote) (x, piece) =>
    let (s, r) := acc
    match r.acc with
    | .bad st d =>
      if st = stECC then
        match xlate s c x true with
        | (s, .ok pa _) =>
          match paWrite s c pa piece with
          | (s, .ok _) => (s, (r.note x piece.length))
          | (s, .bad _ _) => (s, r)
        | (s, _) => (s, r)
      else (s, { r with acc := .bad st d })
    | .ok _ =>
      match xlate s c x true with
      | (s, .fail cause) =>
        let s := xlFault s c x cause
        (s, { r with acc := .bad stABORTED (lastFault s) })
      | (s, .ecc d) => (s, { r with acc := .bad stECC d })
      | (s, .ok pa _) =>
        match paWrite s c pa piece with
        | (s, .ok _) => (s, r.note x piece.length)
        | (s, .bad st d) => (s, { r with acc := .bad st d })) (s, { acc := .ok [], lo := none, hi := 0 })

/-! ## Pages of the pool region -/

/-- The pool's fields of Table 09-1 and the regions of a frame (Table 09-2). -/
structure Shape where
  fmtK   : Nat
  fmtV   : Nat
  fmtSum : Nat
  hdim   : Nat
  hkv    : Nat
  layers : Nat
  maxPg  : Nat
  base   : Nat
  frames : Nat
  dp     : Nat
  kScale : Nat
  vCode  : Nat
  vScale : Nat
  sum    : Nat
  hdr    : Nat
  score  : Nat
  map    : Nat
  fg     : Nat
  deriving DecidableEq, Repr

/-- The shape of a partition's pool, from the values that a check sees (R206). -/
def shapeOf (s : State) (view : List Nat) (p : Nat) : Shape :=
  let f := poolField s view p 0
  let hdim := field f 16 8
  let dp := roundUp hdim 32
  let kb := roundUp (256 * dp * fmtBits (field f 0 4) / 8) 512
  let vb := roundUp (256 * dp * fmtBits (field f 4 4) / 8) 512
  let sb := roundUp (8 * dp) 512
  let hdr := kb + sb + vb + sb + 2048
  let stop := hdr + 512 + 1024 + 1024
  { fmtK := field f 0 4, fmtV := field f 4 4, fmtSum := field f 8 4, hdim := hdim,
    hkv := field (poolField s view p 1) 0 16, layers := field (poolField s view p 1) 16 9,
    maxPg := poolField s view p 2, base := poolField s view p 3, frames := poolField s view p 4, dp := dp,
    kScale := kb, vCode := kb + sb, vScale := kb + sb + vb, sum := kb + sb + vb + sb, hdr := hdr,
    score := hdr + 512, map := hdr + 1536,
    fg := if stop ≤ Config.granule then 1 else if stop ≤ 2 * Config.granule then 2 else 4 }

/-- Bytes of a frame. -/
def Shape.bytes (h : Shape) : Nat := h.fg * Config.granule

/-- A page: sequence, layer, head, page index. -/
abbrev PageKey := Nat × Nat × Nat × Nat

/-- The page under a pool-region address (R207). -/
def pageUnder (h : Shape) (va : Nat) : PageKey :=
  let k := va % 2 ^ 39 / max 1 h.bytes
  (field va 39 16, k / max 1 h.hkv % max 1 h.layers, k % max 1 h.hkv, k / max 1 h.hkv / max 1 h.layers)

/-- The pages under `[va, va + n)` of the pool region. -/
def pagesUnderRun (h : Shape) (va n : Nat) : List PageKey :=
  if bitOf va 55 then ((cutRange Config.granule n (va % 2 ^ 56) n).map fun e => pageUnder h e.1).eraseDups else []

/-- The pages under a read of the pool region that the walk shows in the slow tier. -/
def slowUnder (s : State) (c : Ctx) (va n : Nat) : List PageKey :=
  if !(bitOf va 55) then []
  else ((cutRange Config.granule n (va % 2 ^ 56) n).filterMap fun e =>
    match (xlate s c e.1 false).2 with
    | .ok pa _ => if isSlow pa then some (pageUnder (shapeOf s [] c.part) e.1) else none
    | _ => none).eraseDups

/-! ## Ranges that a partition owns (R305, Table 12-5) -/

/-- Whether `[pa, pa + n)` lies whole in the store that a partition owns. -/
def ownsStore (s : State) (view : List Nat) (p pa n : Nat) : Bool :=
  let st := partField s view p 4
  let off := pa % Config.sliceBytes
  isStore pa && bitOf (field st 22 8) (sliceOf pa) &&
    decide (field st 0 11 * 2 ^ 20 ≤ off) && decide (off + n ≤ (field st 11 11 + 1) * 2 ^ 20)

/-- Whether `[pa, pa + n)` lies whole in the slow tier that a partition owns, within the port's usable
capacity (R391). -/
def ownsSlow (s : State) (view : List Nat) (p pa n : Nat) : Bool :=
  let mt := partField s view p 5
  let off := (pa - Config.slowBase) % Config.slowPortBytes
  isSlow pa && bitOf (field mt 0 16) (portOf pa) &&
    decide (field mt 16 6 * 2 ^ 30 ≤ off) && decide (off + n ≤ (field mt 22 6 + 1) * 2 ^ 30) &&
    decide (off + n ≤ usableMiB s (portOf pa) * 2 ^ 20)

/-- Whether two byte ranges meet. -/
def rangesMeet (a n b m : Nat) : Bool := decide (a < b + m) && decide (b < a + n) && n != 0 && m != 0

end Sys2Proof.Machine
end

