-- ==== Sys2Proof/Machine/Operands.lean ====
section
/-! DEFINITION. The operand forms of the command records: the record, the number section, family
sections and operand descriptors of a parameter block (Tables 11-2 to 11-8a), the checks that every
command shares (R263 to R273, R276), the addresses of elements, codes and scales (R269, R270). -/

namespace Sys2Proof.Machine

open Sys2Proof

/-! ## Opcodes (Table 11-3) -/

def opFENCE : Nat := 0x01
def opTASKBEGIN : Nat := 0x02
def opTASKEND : Nat := 0x03
def opWAITPHASE : Nat := 0x04
def opSTAMP : Nat := 0x05
def opFWD : Nat := 0x10
def opBWDA : Nat := 0x11
def opBWDB : Nat := 0x12
def opDEC : Nat := 0x13
def opSELECT : Nat := 0x14
def opSOFTMAX : Nat := 0x18
def opFN : Nat := 0x19
def opNORM : Nat := 0x1A
def opROT : Nat := 0x1B
def opOPEN : Nat := 0x20
def opAPPEND : Nat := 0x21
def opFORK : Nat := 0x22
def opFREE : Nat := 0x23
def opPARK : Nat := 0x24
def opRESUME : Nat := 0x25
def opCOMPACT : Nat := 0x26
def opMOLT : Nat := 0x27
def opXFER : Nat := 0x30
def opFEED : Nat := 0x31
def opRING : Nat := 0x38
def opRED : Nat := 0x39
def opMIRROR : Nat := 0x3A
def opSNAP : Nat := 0x3B

/-- The opcodes of control commands. -/
def isControl (op : Nat) : Bool := decide (1 ≤ op) && decide (op ≤ 5)

/-- Whether an opcode is in Table 11-3. -/
def opKnown (op : Nat) : Bool :=
  isControl op || [0x10, 0x11, 0x12, 0x13, 0x14, 0x18, 0x19, 0x1A, 0x1B, 0x20, 0x21, 0x22, 0x23, 0x24,
    0x25, 0x26, 0x27, 0x30, 0x31, 0x38, 0x39, 0x3A, 0x3B].contains op

/-! ## Refusals at issue -/

/-- A refusal: its status and its place. Places are in the order of R280: bytes of the record, bytes of
the parameter block from 64, then causes without a field. -/
abbrev Ref := Nat × Nat

/-- The place of a cause that no field carries. -/
def noField : Nat := 0x1000000

/-- The place of byte `k` of the record, and of byte `k` of the parameter block. -/
def inRecord (k : Nat) : Nat := k
def inParam (k : Nat) : Nat := 64 + k

/-- `DETAIL` of a place (R280). -/
def placeDetail (k : Nat) : Nat :=
  if k < 64 then 0x8000 + k else if k < noField then (k - 64) % 2 ^ 16 else 0xFFFF

/-- The order of the statuses of R280. -/
def refRank (st : Nat) : Nat := if st = stABSENT then 0 else if st = stSHAPE then 1 else if st = stLENGTH then 2 else 3

/-- The refusal that the completion record carries, and its `DETAIL`. -/
def firstRef (rs : List Ref) : Option Ref :=
  match sortBy (fun a b => decide (refRank a.1 < refRank b.1 ∨ refRank a.1 = refRank b.1 ∧ a.2 < b.2)) rs with
  | [] => none
  | r :: _ => some (r.1, placeDetail r.2)

/-- A refusal with `SHAPE_EXCEEDS_PLAN` at a place, where a condition holds. -/
def shapeIf (b : Bool) (k : Nat) : List Ref := if b then [(stSHAPE, k)] else []
def refIf (b : Bool) (st k : Nat) : List Ref := if b then [(st, k)] else []

/-! ## Records -/

def Cmd.flagsByte (c : Cmd) : Nat := leAt c.record 1 1
def Cmd.quiet (c : Cmd) : Bool := bitOf c.flagsByte 0
def Cmd.tag (c : Cmd) : Nat := leAt c.record 2 2
def Cmd.paramVA (c : Cmd) : Nat := leAt c.record 8 7
def Cmd.seed (c : Cmd) : Nat := leAt c.record 16 8
def Cmd.wc (c : Cmd) : Nat := field (leAt c.record 24 1) 0 6
def Cmd.monBase (c : Cmd) : Nat := field (leAt c.record 25 1) 0 6
def Cmd.paramSz (c : Cmd) : Nat := leAt c.record 26 2
def Cmd.wcLo (c : Cmd) : Nat := leAt c.record 28 4
def Cmd.wcHi (c : Cmd) : Nat := leAt c.record 32 4

/-- The bytes of `INLINE` that Table 11-8 lists for a control command. -/
def inlineListed (op k : Nat) : Bool :=
  if op = opFENCE then k == 36 || decide (40 ≤ k ∧ k < 60)
  else if op = opTASKBEGIN then k == 36 || decide (40 ≤ k ∧ k < 44) || decide (48 ≤ k ∧ k < 56)
  else if op = opWAITPHASE then decide (40 ≤ k ∧ k < 48)
  else if op = opSTAMP then decide (40 ≤ k ∧ k < 56)
  else false

/-- The zero bits of a record (Table 11-2, R263, R276). -/
def recordRefs (op : Nat) (r : List Byte) : List Ref :=
  let b (k : Nat) : Nat := leAt r k 1
  refIf (!(opKnown op)) stABSENT (inRecord 0) ++
  shapeIf (2 ≤ b 1) (inRecord 1) ++
  shapeIf (b 15 != 0 || isControl op && leAt r 8 8 != 0) (inRecord 8) ++
  shapeIf (64 ≤ b 24) (inRecord 24) ++
  shapeIf (64 ≤ b 25) (inRecord 25) ++
  shapeIf (if isControl op then leAt r 26 2 != 0 else leAt r 8 8 != 0 && leAt r 26 2 == 0) (inRecord 26) ++
  ((List.range 28).flatMap fun i =>
    let k := 36 + i
    shapeIf (if isControl op && inlineListed op k then
        (op == opFENCE && k == 36 && decide (16 ≤ b k)) || (op == opTASKBEGIN && k == 36 && decide (2 ≤ b k))
      else b k != 0) (inRecord k))

/-! ## The number section (Table 11-4) -/

/-- The number fields of a command (Table 02-2). -/
structure Nums where
  srcS      : Nat
  fmtS      : Nat
  fmtT      : Nat
  fmtO      : Nat
  orientT   : Nat
  autoPrec  : Bool
  precForce : Bool
  precStep  : Nat
  precMax   : Nat
  escThr    : Nat
  escCap    : Nat
  escS      : Nat
  escT      : Nat
  escOut    : Nat
  deriving DecidableEq, Repr

def Cmd.nums (c : Cmd) : Nums :=
  let p := c.param
  let b2 := leAt p 2 1
  { srcS := field (leAt p 0 1) 0 4, fmtS := field (leAt p 0 1) 4 4, fmtT := field (leAt p 1 1) 0 4,
    fmtO := field (leAt p 1 1) 4 4, orientT := field b2 0 1, autoPrec := bitOf b2 1,
    precForce := bitOf b2 2, precStep := field b2 3 2, precMax := field b2 5 2, escThr := leAt p 3 1,
    escCap := leAt p 4 3, escS := leAt p 8 7, escT := leAt p 16 7, escOut := leAt p 24 7 }

/-- Places of the number fields. -/
def atSrcS : Nat := inParam 0
def atFmtS : Nat := inParam 0
def atFmtT : Nat := inParam 1
def atFmtO : Nat := inParam 1
def atOrientT : Nat := inParam 2

/-- The zero bits of the number section (R266). -/
def numberRefs (p : List Byte) : List Ref :=
  shapeIf (128 ≤ leAt p 2 1) (inParam 2) ++
  ([7, 15, 23, 31].flatMap fun k => shapeIf (leAt p k 1 != 0) (inParam k)) ++
  ((List.range 32).flatMap fun i => shapeIf (leAt p (32 + i) 1 != 0) (inParam (32 + i)))

/-! ## Family sections (Table 11-5, R267) -/

/-- The fields of the family sections, by the names of their tables. -/
inductive Fld where
  | kvSrc | seq | fmtV | orientV | escV | fmtP | hdim | qpk | hkv | batch | lq | lk | rgPos | qPos0
  | kPos0 | mask | window | lenTab | scale | statOut | layer | kvh0
  | fmtDo | escDo | fmtDs | fmtOi | statIn | dstat
  | entTab | nent | treeTab | candK | candV | pfxSeq | pfxPages | hold | partBuf | selIn | evsUpd
  | cmpMode | topk | selHead | selTail | selOut
  | fnNo | fmtI | fmtOut | count | rows | cols | mode | shiftMode | shift | eps | gamma | beta
  | rotDim | pairing | pos0 | posTab | freq
  | parent | srcK | srcV | xs | repeat | period | ports | fabBase
  | xid | txPorts | rxPorts | ringLen | ringPos | step | buf0 | buf1 | bufBytes | tmo | keepVa
  | keepPos | lkb | elems | fwd | gen | dstOff | stage | stageG | slices
  | img | imgG | tens | ntens | frames | id
  deriving DecidableEq, Repr

/-- Table 04-1 up to `STAT_OUT`. -/
def famFwd : List (Fld × Nat) :=
  [(.kvSrc, 1), (.seq, 16), (.fmtV, 4), (.orientV, 1), (.escV, 56), (.fmtP, 4), (.hdim, 8), (.qpk, 7),
    (.hkv, 16), (.batch, 20), (.lq, 21), (.lk, 21), (.rgPos, 12), (.qPos0, 21), (.kPos0, 21), (.mask, 5),
    (.window, 21), (.lenTab, 56), (.scale, 32), (.statOut, 56)]
/-- Table 05-2. -/
def famBwd : List (Fld × Nat) :=
  [(.fmtDo, 4), (.escDo, 56), (.fmtDs, 4), (.fmtOi, 4), (.statIn, 56), (.dstat, 56)]
/-- Table 06-1. -/
def famDec : List (Fld × Nat) :=
  [(.entTab, 56), (.nent, 17), (.layer, 8), (.kvh0, 16), (.hkv, 16), (.qpk, 7), (.hdim, 8), (.fmtV, 4),
    (.orientV, 1), (.escV, 56), (.fmtP, 4), (.mask, 5), (.window, 21), (.scale, 32), (.treeTab, 56),
    (.candK, 56), (.candV, 56), (.pfxSeq, 16), (.pfxPages, 13), (.hold, 16), (.partBuf, 56),
    (.selIn, 56), (.statOut, 56), (.evsUpd, 1)]
/-- Table 06-6. -/
def famSelect : List (Fld × Nat) :=
  [(.entTab, 56), (.nent, 17), (.layer, 8), (.kvh0, 16), (.hkv, 16), (.qpk, 7), (.hdim, 8), (.mask, 5),
    (.treeTab, 56), (.cmpMode, 2), (.topk, 12), (.selHead, 12), (.selTail, 12), (.selOut, 56)]
/-- Table 09-10. -/
def famSeq : List (Fld × Nat) :=
  [(.entTab, 56), (.nent, 17), (.parent, 16), (.layer, 8), (.srcK, 4), (.srcV, 4)]
/-- Table 14-5. -/
def famRing : List (Fld × Nat) :=
  [(.mode, 1), (.xid, 16), (.txPorts, 64), (.rxPorts, 64), (.ringLen, 8), (.ringPos, 7), (.step, 7),
    (.buf0, 56), (.buf1, 56), (.bufBytes, 32), (.tmo, 32), (.keepVa, 56), (.keepPos, 7), (.fmtV, 4),
    (.fmtP, 4), (.hdim, 8), (.qpk, 7), (.hkv, 16), (.lq, 21), (.lkb, 21), (.rgPos, 12), (.qPos0, 27),
    (.mask, 5), (.window, 27), (.scale, 32), (.partBuf, 56), (.statOut, 56)]

/-- The fields of a command's family section with their bits, in order. -/
def famFields (op : Nat) : List (Fld × Nat) :=
  if op = opFWD then famFwd ++ [(.layer, 8), (.kvh0, 16)]
  else if op = opBWDA || op = opBWDB then
    (famFwd.filter fun e => e.1 != .seq && e.1 != .statOut) ++ famBwd
  else if op = opDEC then famDec
  else if op = opSELECT then famSelect
  else if op = opSOFTMAX then
    [(.rows, 24), (.cols, 21), (.fmtI, 4), (.fmtOut, 4), (.scale, 32), (.mask, 5), (.qPos0, 21),
      (.kPos0, 21), (.statOut, 56)]
  else if op = opFN then [(.fnNo, 3), (.fmtI, 4), (.fmtOut, 4), (.count, 40)]
  else if op = opNORM then
    [(.mode, 1), (.rows, 24), (.cols, 21), (.fmtI, 4), (.fmtOut, 4), (.shiftMode, 1), (.shift, 32),
      (.eps, 32), (.gamma, 56), (.beta, 56), (.statOut, 56)]
  else if op = opROT then
    [(.hdim, 8), (.rotDim, 8), (.pairing, 1), (.rows, 24), (.pos0, 21), (.posTab, 56), (.freq, 56)]
  else if opOPEN ≤ op && op ≤ opFREE then famSeq
  else if op = opPARK || op = opRESUME || op = opCOMPACT then [(.entTab, 56), (.nent, 17)]
  else if op = opMOLT then
    [(.mode, 2), (.xid, 16), (.entTab, 56), (.nent, 17), (.txPorts, 64), (.rxPorts, 64), (.stage, 56),
      (.stageG, 32), (.slices, 8), (.tmo, 32)]
  else if op = opXFER || op = opFEED then
    [(.xs, 5), (.repeat, 16), (.period, 32), (.ports, 32), (.fabBase, 64)]
  else if op = opRING then famRing
  else if op = opRED then
    [(.xid, 16), (.rxPorts, 64), (.txPorts, 64), (.mode, 4), (.elems, 40), (.fwd, 56), (.tmo, 32)]
  else if op = opMIRROR then [(.xid, 16), (.txPorts, 64), (.gen, 32), (.dstOff, 40), (.tmo, 32)]
  else if op = opSNAP then
    [(.img, 56), (.imgG, 32), (.tens, 56), (.ntens, 16), (.frames, 1), (.id, 64), (.tmo, 32)]
  else []

/-- The container of a field of `b` bits (R267). -/
def container (b : Nat) : Nat := if b ≤ 8 then 1 else if b ≤ 16 then 2 else if b ≤ 32 then 4 else 8

/-- Fields with their offsets and bits (R267). -/
def placeFields : Nat → List (Fld × Nat) → List (Fld × Nat × Nat)
  | _, [] => []
  | off, (f, b) :: rest =>
    let o := roundUp off (container b)
    (f, o, b) :: placeFields (o + container b) rest

/-- The family section of a command as placed fields. -/
def famPlaced (op : Nat) : List (Fld × Nat × Nat) := placeFields 64 (famFields op)

/-- The end of a family section. -/
def famEnd (op : Nat) : Nat :=
  match (famPlaced op).getLast? with
  | none => 64
  | some (_, o, b) => o + container b

/-- Operand descriptors of a command (Table 11-5). -/
def descCount (op : Nat) : Nat :=
  if op = opFWD || op = opDEC then 4 else if op = opBWDA || op = opBWDB then 6
  else if op = opSELECT || op = opFEED || op = opMIRROR then 1
  else if opSOFTMAX ≤ op && op ≤ opROT || op = opAPPEND || op = opXFER || op = opRING || op = opRED then 2
  else 0

/-- The offset of operand descriptor `i` (R265). -/
def descOff (op i : Nat) : Nat := roundUp (famEnd op) 64 + 320 * i

/-- The bytes that a command's parameter block needs. -/
def paramNeed (op : Nat) : Nat := if descCount op = 0 then famEnd op else descOff op (descCount op)

/-- A field's value; zero where the command has no such field. -/
def Cmd.get (c : Cmd) (f : Fld) : Nat :=
  match (famPlaced c.op).find? fun e => e.1 == f with
  | none => 0
  | some (_, o, b) => leAt c.param o (container b) % 2 ^ b

/-- A field's place. -/
def Cmd.at (c : Cmd) (f : Fld) : Nat :=
  match (famPlaced c.op).find? fun e => e.1 == f with
  | none => noField
  | some (_, o, _) => inParam o

/-- The fields that a table marks "—" for the command (R267). -/
def famDash (op : Nat) : List Fld :=
  if op = opXFER then [.ports, .fabBase]
  else if op = opOPEN || op = opFREE then [.parent, .layer, .srcK, .srcV]
  else if op = opAPPEND then [.parent]
  else if op = opFORK then [.layer, .srcK, .srcV]
  else []

/-- The zero bits of a family section: container bits, "—" fields, padding (R263, R267). -/
def familyRefs (op : Nat) (p : List Byte) : List Ref :=
  let fs := famPlaced op
  (fs.flatMap fun (f, o, b) =>
    let v := leAt p o (container b)
    shapeIf (2 ^ b ≤ v || v != 0 && (famDash op).contains f) (inParam o)) ++
  ((List.range ((if descCount op = 0 then famEnd op else descOff op 0) - 64)).flatMap fun i =>
    let k := 64 + i
    shapeIf (leAt p k 1 != 0 && !(fs.any fun (_, o, b) => decide (o ≤ k ∧ k < o + container b))) (inParam k))

/-! ## Operand descriptors (Tables 11-7, 11-8a) -/

/-- A loop entry. -/
structure Loop where
  dim   : Nat
  bound : Nat
  step  : Nat
  deriving DecidableEq, Repr

/-- An operand descriptor. -/
structure Desc where
  codes   : Nat
  scales  : Nat
  bounce  : Nat
  bounceG : Nat
  nl      : List Nat
  ext     : List Nat
  str     : List Int
  nests   : List (List Loop)
  deriving DecidableEq, Repr

def descAt (p : List Byte) (o : Nat) : Desc :=
  let nl := (List.range 4).map fun m => field (leAt p (o + 28) 2) (3 * m) 3
  { codes := leAt p o 7, scales := leAt p (o + 8) 7, bounce := leAt p (o + 16) 7,
    bounceG := leAt p (o + 24) 4, nl := nl, ext := (List.range 6).map fun d => leAt p (o + 32 + 4 * d) 4,
    str := (List.range 6).map fun d => signed 64 (leAt p (o + 64 + 8 * d) 8),
    nests := (List.range 4).map fun m => (List.range (min (nl.getD m 0) 6)).map fun k =>
      let e := leAt p (o + 128 + 48 * m + 8 * k) 8
      { dim := field e 0 3, bound := field e 4 24, step := field e 28 24 } }

/-- Operand `i` of a command. -/
def Cmd.desc (c : Cmd) (i : Nat) : Desc := descAt c.param (descOff c.op i)

def Desc.e (d : Desc) (k : Nat) : Nat := d.ext.getD k 1

/-- Elements of the planned operand. -/
def Desc.size (d : Desc) : Nat := d.ext.foldl (· * ·) 1

/-- What the shared checks know of an operand: its format, its orientation, whether the command reads or writes it, whether it
ignores the descriptor, and whether it uses the descriptor's `CODES`. -/
structure Opd where
  fmt    : Nat
  orient : Nat
  used   : Bool
  ignored : Bool
  codes  : Bool
  deriving DecidableEq, Repr

def Opd.of (fmt : Nat) : Opd := { fmt := fmt, orient := 0, used := true, ignored := false, codes := true }

/-- The operand with a descriptor that the command ignores where `b` is false. -/
def Opd.unless (o : Opd) (b : Bool) : Opd := { o with used := b, ignored := !b }

/-- The operands of a command's descriptors, in order (Table 11-5). The K and V descriptors of an `attn.fwd` on pages and
the descriptors of a `GATHER` step are ignored (R267, R361). Those of the parts that a `red.recv` leaves out are checked and
not used (R369); CK and CV have no `CODES` of their own (R267). -/
def Cmd.opds (c : Cmd) : List Opd :=
  let n := c.nums
  let o := Opd.of
  if c.op = opFWD then
    let kv (fmt orient : Nat) : Opd := { o fmt with orient := orient }.unless (c.get .kvSrc != 1)
    [o n.srcS, kv n.fmtT n.orientT, kv (c.get .fmtV) (c.get .orientV), o n.fmtO]
  else if c.op = opBWDA then
    [o n.srcS, o n.fmtT, o (c.get .fmtV), o (c.get .fmtDo), o (c.get .fmtOi), o n.fmtO]
  else if c.op = opBWDB then
    [o n.fmtT, o n.srcS, o (c.get .fmtV), o (c.get .fmtDo), o n.fmtO, o n.fmtO]
  else if c.op = opDEC then
    [o n.srcS, o n.fmtO, { o n.fmtT with codes := false }, { o (c.get .fmtV) with codes := false }]
  else if c.op = opSELECT || c.op = opFEED || c.op = opMIRROR then [o n.srcS]
  else if c.op = opSOFTMAX || c.op = opFN || c.op = opNORM then [o (c.get .fmtI), o (c.get .fmtOut)]
  else if c.op = opROT || c.op = opXFER then [o n.srcS, o n.fmtO]
  else if c.op = opRING then
    [(o n.srcS).unless (c.get .mode == 0), (o n.fmtO).unless (c.get .mode == 0)]
  else if c.op = opRED then
    [{ o n.srcS with used := bitOf (c.get .mode) 2 }, { o n.fmtO with used := bitOf (c.get .mode) 3 }]
  else if c.op = opAPPEND then [o (c.get .srcK), o (c.get .srcV)]
  else []

/-- Commands whose planner may use levels 1 to 3: all but those that R272 names. -/
def freeLevels (op : Nat) : Bool := !([opFWD, opBWDA, opBWDB, opDEC, opSELECT].contains op)

/-- Bytes of codes of `n` elements, and of scales of `b` blocks. -/
def codeBytes (fmt n : Nat) : Nat := ceilDiv (n * fmtBits fmt) 8

/-- Blocks of a tile of given extents. -/
def tileBlocks (o : Opd) (ext : List Nat) : Nat :=
  if isBlock o.fmt then
    let k := if o.orient = 1 then 2 else 0
    (ext.zipIdx.map fun (e, d) => if d = k then ceilDiv e 32 else e).foldl (· * ·) 1
  else 0

/-- Whether a tile fits the capacity of its level (Table 11-12). -/
def tileFits (o : Opd) (level bounceG : Nat) (ext : List Nat) : Bool :=
  let codes := codeBytes o.fmt (ext.foldl (· * ·) 1)
  let scales := tileBlocks o ext
  if level = 0 then
    decide (2 * (roundUp codes Config.granule + roundUp scales Config.granule) ≤ bounceG * Config.granule)
  else decide (codes ≤ 0x20000) && decide (scales ≤ 0x1000)

/-- Walk one nest: refusals of its entries, and the extents of its tile (R271). -/
def nestRefs (at_ : Nat) : Nat → List Nat → List Nat → List Loop → List Ref × List Nat
  | _, ext, _, [] => ([], ext)
  | k, ext, seen, l :: rest =>
    let e := ext.getD l.dim 1
    let bad := decide (5 < l.dim) || seen.contains l.dim || l.bound == 0 || l.step == 0 ||
      !(decide ((l.bound - 1) * l.step < e) && decide (e ≤ l.bound * l.step))
    let r := nestRefs at_ (k + 1) (if l.dim ≤ 5 then ext.set l.dim l.step else ext) (l.dim :: seen) rest
    (shapeIf bad (at_ + 8 * k) ++ r.1, r.2)

/-- The levels of a descriptor from level `m` (R271, R272). -/
def levelRefs (at_ : Nat) (o : Opd) (free : Bool) (bounceG : Nat) : Nat → List Nat → List (List Loop) → List Ref
  | _, _, [] => []
  | m, ext, nest :: rest =>
    let a := at_ + 128 + 48 * m
    let (bad, ext') := nestRefs a 0 ext [] nest
    let checked := if m = 0 then !nest.isEmpty else free
    bad ++ shapeIf (checked && !(tileFits o m bounceG ext')) a ++ levelRefs at_ o free bounceG (m + 1) ext' rest

/-- The checks on one descriptor (R263, R268 to R272). `free`: the planner may use levels 1 to 3. -/
def descRefs (p : List Byte) (off : Nat) (o : Opd) (free : Bool) : List Ref :=
  if o.ignored then []
  else
    let d := descAt p off
    let a := inParam off
    let z (k n : Nat) : Bool := leAt p (off + k) n != 0
    let nl0 := d.nl.getD 0 0
    let dense := (List.range 6).flatMap fun k =>
      let want : Int := ((d.ext.take k).foldl (· * ·) 1 : Nat)
      shapeIf (d.str.getD k 0 != want) (a + 64 + 8 * k)
    shapeIf (o.codes && z 7 1) a ++
    shapeIf (z 15 1 || !(isBlock o.fmt) && d.scales != 0) (a + 8) ++
    shapeIf (z 23 1 || (if nl0 = 0 then d.bounce != 0 else d.bounce == 0 || d.bounce % Config.granule != 0))
      (a + 16) ++
    shapeIf (nl0 != 0 && decide (d.bounceG < 2)) (a + 24) ++
    shapeIf (decide (0x1000 ≤ leAt p (off + 28) 2) || d.nl.any (fun n => decide (6 < n)) ||
      !free && (d.nl.drop 1).any (· != 0)) (a + 28) ++
    shapeIf (z 30 2) (a + 30) ++
    ((List.range 6).flatMap fun k => shapeIf (d.e k == 0) (a + 32 + 4 * k)) ++
    shapeIf (isBlock o.fmt && d.e 0 % 32 != 0) (a + 32) ++
    shapeIf (o.orient == 1 && isBlock o.fmt && d.e 2 % 32 != 0) (a + 40) ++
    shapeIf (z 56 8) (a + 56) ++
    (if isBlock o.fmt then dense else []) ++
    shapeIf (z 112 16) (a + 112) ++
    ((List.range 4).flatMap fun m => (List.range 6).flatMap fun k =>
      let e := leAt p (off + 128 + 48 * m + 8 * k) 8
      shapeIf (if d.nl.getD m 0 ≤ k then e != 0 else bitOf e 3 || decide (2 ^ 52 ≤ e))
        (a + 128 + 48 * m + 8 * k)) ++
    levelRefs a o free d.bounceG 0 d.ext d.nests

/-- The checks that every command with a parameter block shares. -/
def sharedRefs (c : Cmd) : List Ref :=
  recordRefs c.op c.record ++
  if c.param.length < paramNeed c.op then [(stSHAPE, inRecord 26)]
  else
    numberRefs c.param ++ familyRefs c.op c.param ++
    (c.opds.zipIdx.flatMap fun (o, i) => descRefs c.param (descOff c.op i) o (freeLevels c.op))

/-- The refusals of masks that name a port that is not the partition's, or not live, and of a command of the remote
engine on a block without remote ports (R6, R360). -/
def portRefs (s : State) (p : Nat) (c : Cmd) : List Ref :=
  refIf (capRP s == 0) stABSENT noField ++
  [Fld.txPorts, Fld.rxPorts].flatMap fun f =>
    refIf ((bitsOf 64 (c.get f)).any fun n => !(bitOf (partRP s p) n) || !(remPresent s n)) stABSENT (c.at f)

/-- A run-time shape value against the planned extent of a dim in operand `i` (R273). -/
def extRef (c : Cmd) (f : Fld) (v i dim : Nat) : List Ref :=
  shapeIf (decide ((c.desc i).e dim < v)) (c.at f)

/-! ## Addresses of elements (R269, R270) -/

/-- The logical element index of coordinates. -/
def Desc.index (d : Desc) (co : List Nat) : Nat :=
  (d.ext.zip co).foldr (fun (e, c) acc => c + e * acc) 0

/-- The byte address of a BF16 or FP32 element. -/
def Desc.addr (d : Desc) (size : Nat) (co : List Nat) : Nat :=
  let off : Int := ((d.str.zip co).map fun (s, c) => s * (c : Int)).foldl (· + ·) 0
  ((((d.codes : Int) + (size : Int) * off) % (2 ^ 56 : Nat)).toNat)

/-- The scale index of the block of orientation 1 that holds coordinates. -/
def Desc.blockT (d : Desc) (co : List Nat) : Nat :=
  let c (k : Nat) := co.getD k 0
  let n2 := ceilDiv (d.e 2) 32
  c 2 / 32 + n2 * (c 0 + d.e 0 * (c 1 + d.e 1 * (c 3 + d.e 3 * (c 4 + d.e 4 * c 5))))

/-- Coordinates of a logical element index. -/
def Desc.coords (d : Desc) (x : Nat) : List Nat :=
  (d.ext.foldl (fun (acc : List Nat × Nat) e => (acc.1 ++ [acc.2 % e], acc.2 / e)) ([], x)).1

end Sys2Proof.Machine
end

