-- ==== Sys2Proof/Machine/Flags.lean ====
section
/-! DEFINITION. The flag and counter computations of a command's work: monitors of a head slot (R45,
R46, R456), the sticky flags of the completion record (R51), row counts (R102, R177), array counters
(R68), the precision advisor (R47 to R53); and the run of a unit, which carries them with its accesses,
its outputs and its faults. -/

namespace Sys2Proof.Machine

open Sys2Proof

/-! ## Monitors -/

/-- What one head slot counts while a unit runs. -/
structure Mon where
  blk     : Nat
  smax    : Nat
  smin    : Nat
  sat     : Nat
  trunc   : Nat
  clamp   : Nat
  esc     : Nat
  escMiss : Nat
  nan     : Nat
  deriving DecidableEq, Repr

def Mon.zero : Mon :=
  { blk := 0, smax := 0, smin := 0xFF, sat := 0, trunc := 0, clamp := 0, esc := 0, escMiss := 0, nan := 0 }

/-- A block that is consumed: it counts, and its scale is compared unless it is `0xFF` (R456). -/
def Mon.block (m : Mon) (scale : Nat) : Mon :=
  if scale = 0xFF then { m with blk := m.blk + 1 }
  else { m with blk := m.blk + 1, smax := max m.smax scale, smin := min m.smin scale }

/-- Add to a monitor counter: it stops at `0xFFFF_FFFF` and sets `FULL` (R46). -/
def bumpMon (s : State) (slot pg off n : Nat) : State :=
  if n = 0 then s
  else
    let v := live s slot pg off + n
    let s := setLive s slot pg off (min v 0xFFFFFFFF)
    if 0xFFFFFFFF ≤ v then setLive s slot pg 0xF34 1 else s

/-- Put the counts of a slot into `CHn.MON` (R45). -/
def applyMon (s : State) (ch slot : Nat) (m : Mon) : State :=
  let pg := pgMON ch
  let s := bumpMon s slot pg 0xF10 m.blk
  let s := if live s slot pg 0xF14 < m.smax then setLive s slot pg 0xF14 m.smax else s
  let s := if m.smin < live s slot pg 0xF18 then setLive s slot pg 0xF18 m.smin else s
  let s := bumpMon s slot pg 0xF1C m.sat
  let s := bumpMon s slot pg 0xF20 m.trunc
  let s := bumpMon s slot pg 0xF24 m.clamp
  let s := bumpMon s slot pg 0xF28 m.esc
  let s := bumpMon s slot pg 0xF2C m.escMiss
  bumpMon s slot pg 0xF30 m.nan

/-- Sticky flags of the counts: `SAT` [0], `TRUNC` [1], `CLAMP` [2], `ESC` [3], `NAN` [4]
(Table 11-17). -/
def Mon.flags (m : Mon) : Nat :=
  (if m.sat = 0 then 0 else 1) + (if m.trunc = 0 then 0 else 2) + (if m.clamp = 0 then 0 else 4) +
    (if m.esc = 0 then 0 else 8) + (if m.nan = 0 then 0 else 16)

/-- What `CHn.PIPE` counts, in the order of Table 18-5. -/
structure Pipe where
  empty   : Nat
  nan     : Nat
  rescale : Nat
  skip    : Nat
  norm    : Nat
  deriving DecidableEq, Repr

def Pipe.zero : Pipe := { empty := 0, nan := 0, rescale := 0, skip := 0, norm := 0 }

def applyPipe (s : State) (ch : Nat) (c : Pipe) : State :=
  let pg := pgPIPE ch
  bump (bump (bump (bump (bump s 0 pg 0xF10 c.empty) 0 pg 0xF14 c.nan) 0 pg 0xF18 c.rescale)
    0 pg 0xF1C c.skip) 0 pg 0xF20 c.norm

/-- Rows, passes and switch cycles of one array, and the axes of its first and its last row, true for across. -/
structure ArrWork where
  array  : Nat
  rows   : Nat
  passes : Nat
  switch : Nat
  first  : Bool
  last   : Bool
  deriving DecidableEq, Repr

/-- Two idle cycles where two rows that follow each other use different axes (R58). -/
def axisTurn (a b : Bool) : Nat := if a = b then 0 else 2

/-- Work on an array after other work on it. -/
def ArrWork.after (x w : ArrWork) : ArrWork :=
  { x with
    rows := x.rows + w.rows
    passes := x.passes + w.passes
    switch := x.switch + axisTurn x.last w.first + w.switch
    last := w.last }

/-- A stationary tile as the feeder brings it: as a staging half holds it, and as the ripple writes it (R61, R62). -/
structure Load where
  array : Nat
  half  : Staging
  tile  : CellTile
  deriving DecidableEq, Repr

/-- A change of what one array of a channel holds. -/
def updArray (s : State) (ch a : Nat) (f : ArrayMem → ArrayMem) : State :=
  updChan s ch fun x => { x with arrays := x.arrays.zipIdx.map fun (y, k) => if k = a then f y else y }

/-- What an array counts for its work; the turn from the axis of an earlier command's last row counts too (R58). -/
def applyArr (s : State) (ch : Nat) (w : ArrWork) : State :=
  let pg := pgARY ch
  let turn := match ((chan s ch).arrays.getD w.array ArrayMem.zero).across with
    | none => 0
    | some a => axisTurn a w.first
  let s := bump (bump s w.array pg 0xF10 w.rows) w.array pg 0xF14 w.passes
  updArray (bump s w.array pg 0xF28 (turn + w.switch)) ch w.array fun y => { y with across := some w.last }

/-- Statistics memory after a unit that loaded more: it keeps the last two of each kind. -/
def StatMem.load (x more : StatMem) : StatMem :=
  { ld0 := (more.ld0 ++ x.ld0).take 2, ld1 := (more.ld1 ++ x.ld1).take 2, masks := (more.masks ++ x.masks).take 2 }

/-- A tile that an array took: it stays in its staging half, which is free, and in H and A (R61 to R63). -/
def applyLoad (s : State) (ch : Nat) (l : Load) : State :=
  updArray s ch l.array fun y => { y with active := l.tile, shadow := l.tile, half0 := l.half, half1 := y.half0 }

/-! ## The run of a unit -/

/-- An edit that is being built (R215): the root of the new instar, the granules it took and those the
new instar no longer uses, the frames it took and how many it copied, the changes of reference counts by frame, and whether it
changes anything. -/
structure Tx where
  root  : Nat
  own   : List Nat
  drop  : List Nat
  taken : List Nat
  copied : Nat
  refs  : List (Nat × Int)
  dirty : Bool
  deriving DecidableEq, Repr

def Tx.none : Tx := { root := 0, own := [], drop := [], taken := [], copied := 0, refs := [], dirty := false }

/-- The run of a unit: the state, who asks, its counts by head slot, the runs of bytes written by output
(R287, R412); the sums of score entries by address (R152); the escape entries of output blocks (R42); the tiles its
arrays took, its chains' last states and what it loads into statistics memory; the slow-tier pages it has counted (R252); the edit it builds, and whether that
edit may wait for granules. -/
structure Run where
  s    : State
  ctx  : Ctx
  mons : List (Nat × Mon)
  pipe : Pipe
  work : List ArrWork
  outs : List (Nat × Nat × Nat)
  sums : List (Nat × Nat)
  escs : List (Nat × List Nat)
  loads : List Load
  half0 : List Chain
  half1 : List Chain
  stat : StatMem
  slow : List PageKey
  tx   : Tx
  waits : Bool
  deriving DecidableEq, Repr

/-- Work that may fault: its `STATUS` and the low bits of its record (R385). -/
abbrev M (α : Type) := ExceptT (Nat × Nat) (StateM Run) α

def Run.of (s : State) (c : Ctx) : Run :=
  { s := s, ctx := c, mons := [], pipe := Pipe.zero, work := [], outs := [],
    sums := [], escs := [], loads := [], half0 := [], half1 := [], stat := StatMem.zero, slow := [], tx := Tx.none, waits := false }

/-- Run work from a state. -/
def runM {α : Type} (x : M α) (r : Run) : Except (Nat × Nat) α × Run := (ExceptT.run x).run r

/-- How work ended: done; failed, with its status and `DETAIL`; or waiting for host memory, its reads sent and
nothing else of it done. -/
inductive Ran (α : Type) where
  | ok (a : α) (r : Run)
  | bad (st detail : Nat) (s : State)
  | host (s : State)

/-- What follows, by how work ended. -/
def Ran.fold {α β : Type} (x : Ran α) (ok : α → Run → β) (bad : Nat → Nat → State → β) (host : State → β) : β :=
  match x with
  | .ok a r => ok a r
  | .bad st d s => bad st d s
  | .host s => host s

/-- The state of work that has to wait, where it has to: for rows of a slice in DOZE (R313), or for host memory. -/
def runWait {α : Type} (s : State) (c : Ctx) (x : Except (Nat × Nat) α) (r : Run) : Option State :=
  if asks s r.s then some (askRows s r.s)
  else match x with
    | .error (st, d) => if st = stHOST then some (hostAsk s c (d / 2 ^ 16) (d % 2 ^ 16)) else none
    | .ok _ => none

/-- Run work of a context from a state. -/
def ranM {α : Type} (s : State) (c : Ctx) (m : M α) : Ran α :=
  let (x, r) := runM m (Run.of s c)
  match runWait s c x r with
  | some s => .host s
  | none =>
    match x with
    | .ok a => .ok a r
    | .error (st, d) => .bad st d r.s

/-- What work would find, without any effect. -/
def peekM {α : Type} (s : State) (c : Ctx) (m : M α) : Option α := (runM m (Run.of s c)).1.toOption

/-- Forget the host data that an owner has read. -/
def dropHost (s : State) (o : Owner) : State :=
  if s.iqDone.isEmpty then s else { s with iqDone := s.iqDone.filter fun r => r.owner != o }

/-- The state of the run. -/
def getS : M State := do return (← get).s
def modS (f : State → State) : M Unit := modify fun r => { r with s := f r.s }

/-- A value that the manual does not state. -/
def freshWord : M Word := do
  let n := (← getS).free
  modS fun s => { s with free := n + 1 }
  return Config.freeWord n

/-- Count in a head slot. -/
def tally (slot : Nat) (f : Mon → Mon) : M Unit :=
  modify fun r =>
    let m := assocD r.mons slot Mon.zero
    if f m = m then r else { r with mons := assocSet r.mons slot (f m) }

def tallyG (slot : Nat) (g : GCount) : M Unit :=
  tally slot fun m => { m with sat := m.sat + g.sat, esc := m.esc + g.esc, nan := m.nan + g.nan }

def tallyNan (slot n : Nat) : M Unit := tally slot fun m => { m with nan := m.nan + n }

def modPipe (f : Pipe → Pipe) : M Unit := modify fun r => { r with pipe := f r.pipe }

def addWork (w : ArrWork) : M Unit :=
  modify fun r =>
    { r with
      work := if r.work.any (fun x => x.array == w.array) then
          r.work.map fun x => if x.array = w.array then x.after w else x
        else r.work ++ [w] }

/-- One pass of rows of one axis through an array. -/
def onePass (array rows : Nat) (across : Bool) : ArrWork :=
  { array := array, rows := rows, passes := 1, switch := 0, first := across, last := across }

/-- The latches that hold the scales of a tile (R56): four of a column, or 32 of a depth row where blocks run across. -/
def latchesOf (orient : Nat) (cols : List (Nat × List Elem)) : List (Nat × Nat) :=
  if orient = 0 then
    cols.flatMap fun (k, es) => (List.range (ceilDiv es.length 32)).filterMap fun g =>
      es[32 * g]?.map fun x => (4 * k + g, x.scale)
  else
    (cols.filter fun e => e.1 % 32 == 0).flatMap fun (k, es) => es.zipIdx.map fun (x, r) => (32 * r + k / 32, x.scale)

/-- A tile as staging and the cells hold it. -/
def loadOf (array fmt orient : Nat) (cols : List (Nat × List Elem)) : Load :=
  let sc := latchesOf orient cols
  { array := array
    half := { fmt := fmt, codes := cols.map fun (k, es) => (k, es.map (·.code)), scales := sc, full := false }
    tile := { test := false, lanes := cols.map fun (k, es) => (k, es.map (·.lane)), latches := sc } }

/-- The tile of an array; the last two stay in its staging halves. -/
def loadTile (l : Load) : M Unit :=
  modify fun r =>
    let mine := r.loads.filter fun x => x.array == l.array
    { r with loads := (r.loads.filter fun x => x.array != l.array) ++ mine.drop (mine.length - 1) ++ [l] }

/-- The chains as the unit leaves them in the accumulator halves and statistics memory. -/
def keepChains (a b : List Chain) : M Unit := modify fun r => { r with half0 := a, half1 := b }

/-- L and D of the rows of a query tile of a chain go to statistics memory (R120). -/
def loadLD (chain : Nat) (l : List (Word × Word)) : M Unit :=
  let x : StatMem := { StatMem.zero with ld0 := if chain = 0 then [l] else [], ld1 := if chain = 0 then [] else [l] }
  modify fun r => { r with stat := r.stat.load x }

/-- The ancestor masks of a row group go to statistics memory (R137). -/
def loadMasks (l : List Nat) : M Unit :=
  modify fun r => { r with stat := r.stat.load { StatMem.zero with masks := [l] } }

/-- End the run with a status, its record written. -/
def faultM {α : Type} (st cls cause : Nat) (f : FaultRec → FaultRec) : M α := do
  modify fun r => { r with s := addFault r.s (f (faultOf r.ctx.who cls cause)) }
  throw (st, lastFault (← getS))

/-- R41: a magnitude beyond the FP32 maximum. -/
def overflowM {α : Type} : M α := faultM stOVERFLOW 4 1 id

/-- A value that a rounding point made; the mark of R41 faults. -/
def chk (x : F32) : M F32 := if f32IsOvf x then overflowM else return x

/-- A value in the order of its elements: a NaN counts where it is met or made, before a later element faults (R39, R157). -/
def chkNan (slot : Nat) (x : F32) : M F32 := do
  if f32IsNaN x then tallyNan slot 1
  chk x

def chkAll (xs : List F32) : M (List F32) := if xs.any f32IsOvf then overflowM else return xs

/-- Count slow-tier pages that a command reads in place, each page once in a run (R252). -/
def countSlowPg (ks : List PageKey) : M Unit := modify fun r =>
  let more := ks.filter fun k => !(r.slow.contains k)
  if more.isEmpty then r
  else { r with s := bump r.s r.ctx.part pgPOOL 0xF50 more.length, slow := r.slow ++ more }

/-- Read bytes by virtual address. -/
def rd (va n : Nat) : M (List Byte) := do
  let r ← get
  match vread r.s r.ctx va n with
  | (s, .ok bs) => set { r with s := s }; countSlowPg (slowUnder s r.ctx va n); return bs
  | (s, .bad st d) => set { r with s := s }; throw (st, d)

/-- Note a run of bytes of an output that is written: runs of one output that meet are one. -/
def noteOut (outs : List (Nat × Nat × Nat)) (key lo hi : Nat) : List (Nat × Nat × Nat) :=
  let meets (e : Nat × Nat × Nat) : Bool := e.1 == key && decide (e.2.1 ≤ hi) && decide (lo ≤ e.2.2)
  let old := outs.filter meets
  (outs.filter fun e => !(meets e)) ++
    [(key, old.foldl (fun a e => min a e.2.1) lo, old.foldl (fun a e => max a e.2.2) hi)]

/-- Write bytes of an output by virtual address. -/
def wr (key va : Nat) (bs : List Byte) : M Unit := do
  if bs.isEmpty then return ()
  let r ← get
  let (s, w) := vwrite r.s r.ctx va bs
  let outs := match w.lo with
    | none => r.outs
    | some lo => noteOut r.outs key lo w.hi
  set { r with s := s, outs := outs }
  match w.acc with
  | .ok _ => return ()
  | .bad st d => throw (st, d)

/-- Bytes of values that the manual does not state. -/
def freshBytes (n : Nat) : M (List Byte) := do
  let ws ← (List.range (ceilDiv n 4)).mapM fun _ => freshWord
  return (ws.flatMap fun w => leBytes 4 w.toNat).take n

/-- Write bytes by virtual address that are no output of the command. -/
def wrAside (va : Nat) (bs : List Byte) : M Unit := do
  let r ← get
  let (s, w) := vwrite r.s r.ctx va bs
  set { r with s := s }
  match w.acc with
  | .ok _ => return ()
  | .bad st d => throw (st, d)

/-- The tiles of level 0 of an operand pass through the halves of its `BOUNCE` (R272): codes, then scales from the next
granule. Which tile a half holds at an end is not stated: its bytes are free values (log 77). -/
def bounceOpd (d : Desc) (o : Opd) : M Unit := do
  if !o.used || d.nl.getD 0 0 == 0 then return ()
  let ext := (nestRefs 0 0 d.ext [] (d.nests.getD 0 [])).2
  let n := codeBytes o.fmt (ext.foldl (· * ·) 1)
  [0, 1].forM fun h => do
    let va := d.bounce + h * (d.bounceG / 2) * Config.granule
    wrAside va (← freshBytes n)
    if isBlock o.fmt then wrAside (va + roundUp n Config.granule) (← freshBytes (tileBlocks o ext))

/-- The level-0 movement of the operands of a command. -/
def bounceAll (c : Cmd) : M Unit :=
  c.opds.zipIdx.forM fun (o, i) =>
    -- without MASK.TREE, CK and CV are not read
    if c.op == opDEC && decide (2 ≤ i) && !(bitOf (c.get .mask) 4) then return () else bounceOpd (c.desc i) o

/-- Keys of outputs in the order of R287: operands 0 to 5, then `ESC_OUT`, then address fields by their
place in the family section; a fabric output by port. -/
def outEsc : Nat := 8
def outField (c : Cmd) (f : Fld) : Nat := 0x100 + c.at f
def outPort (f : Nat) : Nat := 0x10000 + f

/-! ## Words of memory -/

def f32Of (bs : List Byte) : F32 := BitVec.ofNat 32 (leNat bs)
def rdF32 (va : Nat) : M F32 := do return f32Of (← rd va 4)
def f32Bytes (x : F32) : List Byte := leBytes 4 x.toNat

/-- Bytes of an element of a float format. -/
def fsize (fmt : Nat) : Nat := if fmt = 0 then 2 else 4

/-- A float element as FP32 on entry (R39, R40). -/
def floatOf (fmt v : Nat) : F32 := f32Entry (if fmt = 0 then bf16ToF32 v else BitVec.ofNat 32 v)

/-- FP32 to a float format (Table 02-3); BF16 rounding beyond the range faults (R41). -/
def floatBytes (fmt : Nat) (x : F32) : List Byte :=
  if fmt = 0 then leBytes 2 (f32ToBf16 x) else f32Bytes x

/-- Whether the conversion to a float format leaves its range. -/
def floatOvf (fmt : Nat) (x : F32) : Bool := f32IsOvf x || fmt == 0 && f32ToBf16 x % 2 ^ 15 == 0x7F80

/-- Read `n` elements of a float tensor along dim 0. -/
def rdFloats (d : Desc) (fmt : Nat) (co : List Nat) (n : Nat) : M (List F32) := do
  let z := fsize fmt
  if d.str.getD 0 1 = 1 then
    let bs ← rd (d.addr z (0 :: co)) (z * n)
    return (List.range n).map fun k => floatOf fmt (leAt bs (z * k) z)
  else
    (List.range n).mapM fun k => do return floatOf fmt (leNat (← rd (d.addr z (k :: co)) z))

/-- Write elements of a float tensor along dim 0. -/
def wrFloats (key : Nat) (d : Desc) (fmt : Nat) (co : List Nat) (vs : List F32) : M Unit := do
  if vs.any (floatOvf fmt) then overflowM
  let z := fsize fmt
  if d.str.getD 0 1 = 1 then wr key (d.addr z (0 :: co)) (vs.flatMap (floatBytes fmt))
  else vs.zipIdx.forM fun (v, k) => wr key (d.addr z (k :: co)) (floatBytes fmt v)

/-! ## Escape tables and blocks -/

/-- An escape table as a consumer reads it: entries by block index, and how many entries were ignored
(R42 to R44). `b` is the number of blocks of the planned operand. DESIGN CHOICE (log 48): the (b + 1)-th
entry, at which R44 stops, is itself not read, so that it cannot fail translation; and the previous entry of R44 is the
last one that was not ignored. -/
def escTable (va b : Nat) : M (List (Nat × List F32) × Nat) :=
  if va = 0 then return ([], 0)
  else go va b b none [] 0
where
  go (va b : Nat) : Nat → Option Nat → List (Nat × List F32) → Nat → M (List (Nat × List F32) × Nat)
    | 0, _, acc, miss => return (acc, miss)
    | fuel + 1, prev, acc, miss => do
      let e ← rd va 128
      let n := leAt e 0 4
      if b ≤ n then return (acc, miss)
      else if (match prev with | none => false | some p => decide (n ≤ p)) then
        go (va + 128) b fuel prev acc (miss + 1)
      else
        go (va + 128) b fuel (some n)
          (acc ++ [(n, (List.range 32).map fun i => f32Entry (bf16ToF32 (leAt e (8 + 2 * i) 2)))]) miss

/-- The count of ignored entries goes to one unit of the command, its first that has rows. DESIGN CHOICE
(log 48): an ignored entry belongs to no block that is used, so that R45 gives it no head; it counts in the head
slot of that unit. -/
def escRead (va b slot : Nat) (first : Bool) : M (List (Nat × List F32)) := do
  let (t, miss) ← escTable va b
  if first then tally slot fun m => { m with escMiss := m.escMiss + miss }
  return t

/-- The NaN that a stored block brings (R26, R39): each NaN code, and a scale `0xFF` once. -/
def metNaN (fmt scale : Nat) (codes : List Nat) : Nat :=
  (codes.filter (codeNaN fmt)).length + (if scale = 0xFF then 1 else 0)

/-- Consume a stored block: its monitors, and its source where it escapes (R26, R39, R43, R44). -/
def useBlock (slot fmt scale : Nat) (codes : List Nat) (n thr : Nat) (esc : List (Nat × List F32)) :
    M (List Elem) := do
  let big := decide (thr < scale) && scale != 0xFF
  let src := if big then (esc.find? fun e => e.1 == n).map (·.2) else none
  let (es, trunc) := elemsOf fmt scale codes src
  tally slot fun m =>
    let m := m.block scale
    { m with
      trunc := m.trunc + trunc
      nan := m.nan + metNaN fmt scale codes
      escMiss := m.escMiss + (if big && src.isNone then 1 else 0) }
  return es

/-- Quantise values on the fly as a streamed block (R36, R43): operand `o`, block `n`. A block of the streamed
operand that exceeds `ESC_THR` is kept for the command's escape table (R42). -/
def flyBlock (slot fmt seed o n thr : Nat) (vs : List F32) : M (List Elem) := do
  let q := quantBlock fmt seed o n vs
  if q.ovf then overflowM
  let big := decide (thr < q.scale) && !q.nan
  let src := if big then some (vs.map fun v => bf16ToF32 (f32ToBf16 v)) else none
  if big && vs.any (floatOvf 0) then overflowM
  if big && o = 0 then modify fun r => { r with escs := r.escs ++ [(n, vs.map f32ToBf16)] }
  let (es, trunc) := elemsOf fmt q.scale q.codes src
  tally slot fun m =>
    let m := m.block q.scale
    { m with
      trunc := m.trunc + trunc
      clamp := m.clamp + q.clamp
      nan := m.nan + (vs.filter f32IsNaN).length }
  return es

/-- Codes of one block of orientation 0, cut to code 0 from element `cut` of the block on (R269). -/
def rdCodes (d : Desc) (fmt i0 cut : Nat) : M (List Nat) := do
  let w := fmtBits fmt
  let bs ← rd (d.codes + i0 * w / 8) (4 * w)
  return (List.range 32).map fun k => if k < cut then codeAt bs w k else 0

/-- One stored vector along dim 0 as depth groups of 32 (orientation 0). -/
def rdVec (slot : Nat) (d : Desc) (fmt hdim thr : Nat) (esc : List (Nat × List F32)) (co : List Nat) :
    M (List (List Elem)) :=
  (List.range (ceilDiv hdim 32)).mapM fun g => do
    let i0 := d.index (32 * g :: co)
    let codes ← rdCodes d fmt i0 (hdim - 32 * g)
    let sc ← rd (d.scales + i0 / 32) 1
    useBlock slot fmt (leNat sc) codes (i0 / 32) thr esc

/-- One float vector, quantised on the fly (R36, R49). -/
def rdFly (slot : Nat) (d : Desc) (src fmt hdim seed thr : Nat) (co : List Nat) : M (List (List Elem)) := do
  let vs ← rdFloats d src co hdim
  let vh := d.index (0 :: co) / d.e 0
  let nb := ceilDiv hdim 32
  (List.range nb).mapM fun g =>
    flyBlock slot fmt seed 0 (vh * nb + g) thr (padZero 32 ((vs.drop (32 * g)).take 32))

/-- Vectors of a stored operand with orientation 1 (R22, R270): for 32 consecutive dim-2 coordinates from
`c2`, the elements of each; coordinates from `lim` on are code 0 and no column. -/
def rdCols (slot : Nat) (d : Desc) (fmt hdim thr : Nat) (esc : List (Nat × List F32)) (c2 lim : Nat)
    (co : Nat → List Nat) : M (List (List Elem)) := do
  let w := fmtBits fmt
  let rows ← (List.range hdim).mapM fun e => do
    let codes ← (List.range 32).mapM fun i => do
      if c2 + i < lim then
        let x := d.index (e :: co (c2 + i))
        let bs ← rd (d.codes + x * w / 8) ((x * w % 8 + w + 7) / 8)
        return field (leNat bs) (x * w % 8) w
      else return 0
    let n := d.blockT (e :: co c2)
    let sc ← rd (d.scales + n) 1
    useBlock slot fmt (leNat sc) codes n thr esc
  return (List.range (min 32 (lim - c2))).map fun i => rows.map fun r => r.getD i (missing fmt)

/-- Cut a vector of elements into depth groups of 32, filled (R55). -/
def depthGroups (fmt : Nat) (v : List Elem) : List (List Elem) :=
  (chunksOf 32 v.length v).map (pad32 fmt)

/-! ## Monitored quantisation of outputs -/

/-- Quantise 32 values into an output block: scale and codes. Its clamps count (R33), and its NaN values where
they have not been counted at their source (`met`), so that each NaN counts once (R39). -/
def quantOut (slot fmt seed o n : Nat) (met : Bool) (vs : List F32) : M (Nat × List Nat) := do
  let q := quantBlock fmt seed o n vs
  if q.ovf then overflowM
  tally slot fun m =>
    { m with clamp := m.clamp + q.clamp, nan := m.nan + (if met then 0 else (vs.filter f32IsNaN).length) }
  return (q.scale, q.codes)

/-! ## The precision advisor (Table 02-5, R47 to R53) -/

/-- The ladder from a format. -/
def ladder (f : Nat) : List Nat :=
  match f with
  | 8 => [8, 0xA, 0xB, 5] | 9 => [9, 0xA, 0xB, 5] | 0xA => [0xA, 0xB, 5] | 0xB => [0xB, 5]
  | 2 => [2, 3, 6] | 3 => [3, 6] | 4 => [4, 6] | f => [f]

/-- The highest step that a format and `PREC_MAX` allow (R47). -/
def precTop (f pmax : Nat) : Nat := min ((ladder f).length - 1) pmax

/-- The format at a step. -/
def precFmt (f step pmax : Nat) : Nat := (ladder f).getD (min step (precTop f pmax)) f

/-- The advisor's step of a stream and head slot. -/
def advStep (s : State) (p : Nat) (st : Strm) (slot : Nat) : Nat :=
  assocD (part s p).advisor (64 * st.num + slot) 0

/-- Whether the totals of a command raise its step (R48). -/
def advHit (s : State) (t : Totals) : Bool :=
  let a := eff s pgPART 0x104
  decide (1 ≤ t.sat) || decide (field a 0 16 * t.blk < t.esc * 2 ^ 16) ||
    decide (field a 16 16 * 32 * t.blk < t.trunc * 2 ^ 16)

/-- Replay mode of a partition (R411). -/
def replayMode (s : State) (p : Nat) : Bool := bitOf (eff s pgSNAP 0x10C) (2 * p)

/-- The step that a command runs at (R49, R50, R52). -/
def precStepOf (s : State) (p : Nat) (st : Strm) (c : Cmd) : Nat :=
  let n := c.nums
  let fly := isFloat n.srcS
  if !fly then 0
  else if n.precForce || n.autoPrec && replayMode s p then min n.precStep (precTop n.fmtS n.precMax)
  else if n.autoPrec then min (advStep s p st c.monBase) (precTop n.fmtS n.precMax)
  else 0

/-- The streamed format of a command at its step. -/
def Cmd.fmtRun (c : Cmd) : Nat := precFmt c.nums.fmtS c.prec c.nums.precMax

/-- The head slot of KV head `h`, relative to the command's first (R45). -/
def Cmd.slot (c : Cmd) (h : Nat) : Nat := (c.monBase + h) % 64

end Sys2Proof.Machine
end

