-- ==== Sys2Proof/Machine/Pages.lean ====
section
/-! DEFINITION. What a command reads of a pool: the frame layout (R206, R207), the tables of an instar
(R208 to R211, R231), page positions with occupancy and compaction (R247), entry tables. -/

namespace Sys2Proof.Machine

open Sys2Proof

/-! ## Frames -/

/-- Slow-tier frames of a partition (Table 10-2). -/
def slowFrames (s : State) (view : List Nat) (p : Nat) : Nat := field (poolField s view p 11) 0 20

/-- Whether a partition has a pool (R204); a pool whose table area is lost is none (R399). -/
def hasPool (s : State) (p : Nat) : Bool :=
  (poolField s [] p 4 != 0 || slowFrames s [] p != 0) && !(pool s p).lost && (pool s p).root != 0

/-- The physical address of a frame (R206, R249). -/
def frameAddr (s : State) (view : List Nat) (p f : Nat) : Nat :=
  let h := shapeOf s view p
  if f < h.frames then h.base * Config.granule + f * h.bytes
  else
    let i := f - h.frames
    let ports := bitsOf 16 (field (poolField s view p 9) 16 16)
    let k := max ports.length 1
    Config.slowBase + ports.getD (i % k) 0 * Config.slowPortBytes
      + (field (poolField s view p 10) 0 21 + i / k * h.fg) * Config.granule

/-- The frame at a physical address, the inverse of `frameAddr`. -/
def frameAt (s : State) (p pa : Nat) : Nat :=
  let h := shapeOf s [] p
  if isStore pa then (pa - h.base * Config.granule) / h.bytes
  else
    let ports := bitsOf 16 (field (poolField s [] p 9) 16 16)
    let k := max ports.length 1
    let j := (ports.findIdx? fun q => q == portOf pa).getD 0
    let g := (pa - Config.slowBase) % Config.slowPortBytes / Config.granule
    h.frames + (g - field (poolField s [] p 10) 0 21) / h.fg * k + j

/-- The virtual address of a page (R208). -/
def pageVA (h : Shape) (seq layer head page : Nat) : Nat :=
  2 ^ 55 + seq * 2 ^ 39 + ((page * h.layers + layer) * h.hkv + head) * h.bytes

/-! ## Leaves -/

/-- Bits of a pool leaf (Table 09-6). -/
def leafSlow (e : Nat) : Bool := bitOf e 62
def leafSum (e : Nat) : Bool := bitOf e 61
def leafSlot (e : Nat) : Nat := field e 60 1
def leafCmpct (e : Nat) : Bool := bitOf e 59

/-! ## Tables of an instar, by root granule -/

/-- Read table bytes at a physical address, as POOL or a walk does. -/
def tabRead (s : State) (w : Who) (pa n : Nat) : State × Except (Nat × Nat) (List Byte) :=
  if noRoot * Config.granule ≤ pa then (s, .ok (List.replicate n 0))
  else if !(present s pa) then
    let s := addFault s { faultOf w 3 3 with addr := pa, akind := 2 }
    (s, .error (stABORTED, lastFault s))
  else
    match rowsRead s { w with cls := 0 } pa n with
    | (s, .ok bs) => (s, .ok bs)
    | (s, .bad st d) => (s, .error (st, d))

def tabRd (pa n : Nat) : M (List Byte) := do
  let r ← get
  match tabRead r.s r.ctx.who pa n with
  | (s, .ok bs) => set { r with s := s }; return bs
  | (s, .error e) => set { r with s := s }; throw e

/-- The entry of the root beyond the walk (Table 09-5): a physical address or zero. -/
def rootEntry (root i : Nat) : M Nat := do return leNat (← tabRd (root * Config.granule + 8 * i) 8)

/-- A sequence record (Table 09-7). -/
structure SeqRec where
  state  : Nat
  evs    : Bool
  prio   : Nat
  sink   : Nat
  recent : Nat
  deriving DecidableEq, Repr

def SeqRec.closed : SeqRec := { state := 0, evs := false, prio := 0, sink := 0, recent := 0 }

def SeqRec.ofBytes (bs : List Byte) : SeqRec :=
  { state := leAt bs 0 1, evs := bitOf (leAt bs 1 1) 0, prio := leAt bs 2 2, sink := leAt bs 4 2,
    recent := leAt bs 6 2 }

def SeqRec.bytes (r : SeqRec) : List Byte :=
  leBytes 1 r.state ++ leBytes 1 (if r.evs then 1 else 0) ++ leBytes 2 r.prio ++ leBytes 2 r.sink ++
    leBytes 2 r.recent ++ zeroBytes 8

/-- The record of a sequence in an instar (R211). -/
def seqRec (root seq : Nat) : M SeqRec := do
  let g ← rootEntry root (64 + seq / 2048)
  if g = 0 then return SeqRec.closed
  else return SeqRec.ofBytes (← tabRd (g + 16 * (seq % 2048)) 16)

/-- The length of a sequence at a layer in an instar (R211). -/
def seqLen (root seq layer : Nat) : M Nat := do
  let g ← rootEntry root (2048 + 8 * layer + seq / 8192)
  if g = 0 then return 0
  else return leNat (← tabRd (g + 4 * (seq % 8192)) 4)

/-- The root that a command walks: its pin, or the current instar. -/
def theRoot : M Nat := do return (← get).ctx.root.getD 0

/-- The leaf of a granule of the pool region in an instar, `none` where a walk finds no valid one. -/
def poolLeaf (root va : Nat) : M (Option Nat) := do
  let r ← get
  match walkFrom r.ctx.who va 3 r.s (root * Config.granule) with
  | (s, .ok e) => set { r with s := s }; return some e
  | (s, .error (.ecc d)) => set { r with s := s }; throw (stECC, d)
  | (s, .error _) => set { r with s := s }; return none

/-! ## Pages -/

/-- A mapped page: its leaf and the physical address of its frame. -/
structure PageAt where
  leaf : Nat
  base : Nat
  deriving DecidableEq, Repr

def pageAt (root : Nat) (h : Shape) (seq layer head page : Nat) : M (Option PageAt) := do
  match ← poolLeaf root (pageVA h seq layer head page) with
  | none => return none
  | some e => return some { leaf := e, base := entryPa e }

/-- Read bytes of a frame that a command uses, at its physical address; a frame in a lost slice or on a
port that is not ready fails as `ABSENT` (R397). -/
def frameRd (va base off n : Nat) : M (List Byte) := do
  let r ← get
  if !(present r.s base) then faultM stABORTED 3 3 fun f => { f with addr := va, akind := 1 }
  else
    match paRead r.s r.ctx (base + off) n with
    | (s, .ok bs) => set { r with s := s }; return bs
    | (s, .bad st d) => set { r with s := s }; throw (st, d)

/-- Which of the 256 slots of a page a command sees as occupied: all, or those of the bitmap where
`occ` says so; in a compacted frame those that the position map gives to the page (R247). -/
def pageSlots (h : Shape) (va page : Nat) (pg : PageAt) (occ : Bool) : M (List Bool) := do
  if leafCmpct pg.leaf then
    let bs ← frameRd va pg.base h.map 1024
    return (List.range 256).map fun j => decide (leAt bs (4 * j) 4 = page)
  else if occ then
    let bs ← frameRd va pg.base (h.hdr + 32 * leafSlot pg.leaf) 32
    let n := leNat bs
    return (List.range 256).map fun j => bitOf n j
  else return List.replicate 256 true

/-- The vector of slot `j` of a page, K or V, as depth groups (R207). -/
def pageVec (slot : Nat) (h : Shape) (va : Nat) (pg : PageAt) (isV : Bool) (j hdim thr : Nat) :
    M (List (List Elem)) := do
  let fmt := if isV then h.fmtV else h.fmtK
  let w := fmtBits fmt
  let cs ← frameRd va pg.base ((if isV then h.vCode else 0) + j * h.dp * w / 8) (h.dp * w / 8)
  let ss ← frameRd va pg.base ((if isV then h.vScale else h.kScale) + j * (h.dp / 32)) (h.dp / 32)
  (List.range (ceilDiv hdim 32)).mapM fun g => do
    let codes := (List.range 32).map fun k => if 32 * g + k < hdim then codeAt cs w (32 * g + k) else 0
    useBlock slot fmt (leAt ss g 1) codes 0 thr []

/-! ## Entries -/

/-- Read an entry table of 8-byte entries. -/
def entries (va n : Nat) : M (List Nat) :=
  if n = 0 then return []
  else do
    let bs ← rd va (8 * n)
    return (List.range n).map fun i => leAt bs (8 * i) 8

end Sys2Proof.Machine
end

