-- ==== Sys2Proof/Machine/Attn.lean ====
section
/-! DEFINITION. The attention engine that the attention commands share: columns of a tile, chain states,
one tile of one chain (R91 to R97), the merge (R98), the finishing of a row (R99, R100), the work of the
arrays. -/

namespace Sys2Proof.Machine

open Sys2Proof

/-! ## Columns and rows -/

/-- A presented column of a tile that holds a key: its place, its position, its index, the candidate it
is, the page it lies in, whether occupancy hides it there (R88), and once loaded its key in depth groups and its value. -/
structure Col where
  c    : Nat
  pos  : Nat
  key  : Nat
  cand : Option Nat
  page : Option (Nat × PageAt)
  hid  : Bool
  k    : List (List Elem)
  v    : List Elem
  deriving DecidableEq, Repr

def Col.at (c pos key : Nat) : Col :=
  { c := c, pos := pos, key := key, cand := none, page := none, hid := false, k := [], v := [] }

/-- A streamed query row: its logical row, query position, candidate or query index, head slot, depth
groups. -/
structure QRow where
  r    : Nat
  pq   : Nat
  ix   : Nat
  slot : Nat
  q    : List (List Elem)
  deriving DecidableEq, Repr

def Chain.start (hdim : Nat) : Chain :=
  { o := List.replicate hdim f32Zero, m := f32Zero, l := f32Zero, e := true, n := false }

/-- What an attention command fixes for its rows; `stride` parts the draws of its rows (R36, R365). -/
structure AEnv where
  k    : F32
  fmtP : Nat
  fmtV : Nat
  fmtK : Nat
  orK  : Nat
  orV  : Nat
  seed : Nat
  hdim : Nat
  gen  : TableGen
  stride : Nat
  deriving DecidableEq, Repr

/-- Bits of a probability code. -/
def AEnv.pbits (e : AEnv) : Nat := fmtBits e.fmtP

/-- k of R92; a scale that is NaN or infinite gives NaN. DESIGN CHOICE (log 75): where the product itself leaves the
range of FP32, it faults at the first z that is formed with it, so that a command none of whose rows sees a key does not
fault. -/
def scaleK (scale : Nat) : F32 := f32Mul (f32Entry (BitVec.ofNat 32 scale)) 0x3FB8AA3B#32

/-- The table generation of a number (R164). -/
def genOf (s : State) (g : Nat) : TableGen := (s.gens.find? fun x => x.gen == g).getD genZero

/-! ## Across groups -/

/-- The 32 across groups of a tile: for each, the value vectors of its columns, empty where it has none
(R31). -/
def acrossGroups (vec : Col → List Elem) (cols : List Col) : List (List (List Elem)) :=
  (List.range 32).map fun g =>
    let cs := cols.filter fun c => c.c / 32 == g
    if cs.isEmpty then []
    else (List.range 32).map fun i =>
      match cs.find? fun c => c.c % 32 == i with
      | some c => vec c
      | none => []

/-- A streamed across row of probability codes. -/
def probRow (fmtP : Nat) (codes : List (Nat × Nat)) : List (List Elem) :=
  (List.range 32).map fun g =>
    (elemsOf fmtP 0 ((List.range 32).map fun i => assocD codes (32 * g + i) 0) none).1

/-! ## One tile of one chain (R91 to R97) -/

/-- The scores of a row at every column of a tile; the trees count whatever the mask (R101). -/
def scores (cols : List Col) (slot : Nat) (q : List (List Elem)) : M (List F32) := do
  let out := cols.map fun c => depthDot c.k q
  tallyG slot (out.foldl (fun acc o => acc.add o.2) GCount.zero)
  chkAll (out.map (·.1))

/-- The codes that pass 2 makes for the visible columns of a row: pairs of column and code. DESIGN CHOICE (log 75):
R94 gives no code to a visible column whose z is NaN in a row that also has finite z; it takes code 0, no EXP2 and
no further count. -/
def probCodes (e : AEnv) (r : Nat) (m : F32) (zs : List (Col × F32)) : M (List (Nat × Nat)) :=
  zs.mapM fun (c, z) => do
    if f32IsNaN z then return (c.c, 0)
    let x ← chk (f32Sub z m)
    let p ← chk (exp2 e.gen x)
    let dr := (draws e.seed 1 (r * e.stride + c.pos / 32)).getD (c.pos % 32) 0
    return (c.c, quantProb e.pbits p dr)

/-- Update a chain's output with the across output of a tile (R97). -/
def addOut (st : Chain) (first : Bool) (alpha : Option F32) (v : List F32) : List F32 :=
  if first then v
  else match alpha with
    | none => st.o.zipWith f32Add v
    | some a => st.o.zipWith (fun o x => f32Add (f32Mul o a) x) v

/-- The across outputs of a row of codes; its trees count, whatever becomes of the outputs (R91, R101). -/
def valueRow (e : AEnv) (ag : List (List (List Elem))) (slot : Nat) (codes : List (Nat × Nat)) : M (List F32) := do
  let (vo, g) := acrossDot e.fmtV e.orV e.hdim ag (probRow e.fmtP codes)
  tallyG slot g
  return vo

/-- A row through a tile (R93 to R97): its new chain state and its codes by column. A row that the tile leaves
untouched, or whose z are all NaN, streams codes 0 through the value array, whose output is discarded. DESIGN CHOICE
(log 75): z is formed for visible columns alone (R92), so that a masked z never leaves the range of FP32. -/
def rowTile (e : AEnv) (cols : List Col) (ag : List (List (List Elem))) (vis : List Bool) (row : QRow)
    (st : Chain) : M (Chain × List (Nat × Nat)) := do
  let ss ← scores cols row.slot row.q
  let seen := ((cols.zip ss).zip vis).filterMap fun ((c, x), b) => if b then some (c, x) else none
  let untouched (st : Chain) : M (Chain × List (Nat × Nat)) := do
    let _ ← valueRow e ag row.slot []
    return (st, [])
  if seen.isEmpty then return ← untouched st
  let zs ← seen.mapM fun (c, x) => do return (c, ← chk (f32Mul x e.k))
  let made := ((seen.zip zs).filter fun (a, b) => f32IsNaN b.2 && !(f32IsNaN a.2)).length
  if made != 0 then tallyNan row.slot made
  let good := (zs.map (·.2)).filter fun z => !(f32IsNaN z)
  let st := if good.length < zs.length then { st with n := true } else st
  match good with
  | [] => untouched st
  | z0 :: rest =>
    let mt := rest.foldl f32Max z0
    let m' := if st.e then mt else f32Max st.m mt
    let codes ← probCodes e row.r m' zs
    let lt := f32OfInt ((codes.foldl (fun acc c => acc + c.2) 0 : Nat) : Int) (-(e.pbits : Int))
    let vo ← chkAll (← valueRow e ag row.slot codes)
    if st.e then return ({ st with o := vo, m := m', l := lt, e := false }, codes)
    else if f32Eq m' st.m then
      let l ← chk (f32Add st.l lt)
      let o ← chkAll (addOut st false none vo)
      return ({ st with o := o, l := l }, codes)
    else
      let a ← chk (exp2 e.gen (← chk (f32Sub st.m m')))
      modPipe fun p => { p with rescale := p.rescale + 1 }
      let l ← chk (f32Add (f32Mul st.l a) lt)
      let o ← chkAll (addOut st false (some a) vo)
      return ({ st with o := o, m := m', l := l }, codes)

/-- A chain's merge (R98): `a` is the earlier operand, the N flags are ORed. -/
def mergeChain (g : TableGen) (a b : Chain) : M Chain := do
  let n := a.n || b.n
  if b.e then return { a with n := n }
  else if a.e then return { b with n := n }
  else
    let m := f32Max a.m b.m
    let ea ← chk (exp2 g (← chk (f32Sub a.m m)))
    let eb ← chk (exp2 g (← chk (f32Sub b.m m)))
    let o ← chkAll (a.o.zipWith (fun x y => f32Add (f32Mul x ea) (f32Mul y eb)) b.o)
    let l ← chk (f32Add (f32Mul a.l ea) (f32Mul b.l eb))
    return { o := o, m := m, l := l, e := false, n := n }

/-! ## Finishing (R99, R100) -/

/-- The outputs of a finished row: O's elements, m and L. -/
def finishRow (g : TableGen) (st : Chain) : M (List F32 × F32 × F32) := do
  if st.n then
    modPipe fun p => { p with nan := p.nan + 1 }
    return (st.o.map fun _ => f32NaN, f32NaN, f32NaN)
  else if st.e then
    modPipe fun p => { p with empty := p.empty + 1 }
    return (st.o.map fun _ => f32Zero, f32Empty, f32Empty)
  else
    let o ← chkAll (st.o.map fun x => f32Div x st.l)
    let l ← chk (f32Add st.m (← chk (log2 g st.l)))
    return (o, st.m, l)

/-! ## The work of the arrays (R12, R14, R59, R68) -/

/-- The arrays of chain `c` on a channel: score and value. -/
def pairArrays (role c : Nat) : Nat × Nat :=
  if c = 1 && field role 6 3 != 7 then (field role 6 3, field role 9 3) else (field role 0 3, field role 3 3)

/-- Rows into the score and the value array of a chain's pair for one pass. -/
def passWork (role c rows : Nat) : M Unit := do
  let (a, v) := pairArrays role c
  addWork (onePass a rows false)
  addWork (onePass v rows true)

/-- The K tile of a pass in the score array and its V tile in the value array of a chain's pair (R57). -/
def loadPair (e : AEnv) (role c : Nat) (cs : List Col) : M Unit := do
  let (a, v) := pairArrays role c
  loadTile (loadOf a e.fmtK e.orK (cs.map fun x => (x.c, x.k.flatten)))
  loadTile (loadOf v e.fmtV e.orV (cs.map fun x => (x.c, x.v)))

/-- Run the tiles of a row group, tile `t` on chain t mod 2: `cols` gives the columns of a tile, `fill`
loads them, `vis` says which a row sees. The answer is each row's merged state and the codes it gave, by
tile. DESIGN CHOICE (log 46): leaves, occupancy bitmaps and position maps of the pages of a tile are read before it is
known whether a row sees a key of it, so that a tile that the mask alone leaves out can fail those reads. -/
def runTiles (e : AEnv) (role : Nat) (rows : List QRow) (tiles : Nat) (cols : Nat → M (List Col))
    (fill : List Col → M (List Col)) (vis : QRow → Col → Bool)
    (fold : List Col → List (List (Nat × Nat)) → M Unit) : M (List Chain) := do
  let zero := rows.map fun _ => Chain.start e.hdim
  let (c0, c1) ← (List.range tiles).foldlM (fun (acc : List Chain × List Chain) t => do
    let cs ← cols t
    let seen := rows.map fun r => cs.map (vis r)
    if !(seen.any fun v => v.any id) then
      modPipe fun p => { p with skip := p.skip + 1 }
      return acc
    let cs ← fill cs
    passWork role (t % 2) rows.length
    loadPair e role (t % 2) cs
    let ag := acrossGroups (·.v) cs
    let cur := if t % 2 = 0 then acc.1 else acc.2
    let out ← ((rows.zip seen).zip cur).mapM fun ((r, v), st) => rowTile e cs ag v r st
    fold cs (out.map (·.2))
    if t % 2 = 0 then return (out.map (·.1), acc.2) else return (acc.1, out.map (·.1))) (zero, zero)
  keepChains c0 c1
  (c0.zip c1).mapM fun (a, b) => mergeChain e.gen a b

/-! ## Streamed queries and tensor columns -/

/-- The streamed row of operand 0 at coordinates of dims 1 to 5 (R23, R36, R49). -/
def queryRow (c : Cmd) (slot hdim : Nat) (esc : List (Nat × List F32)) (co : List Nat) : M (List (List Elem)) :=
  let n := c.nums
  if isFloat n.srcS then rdFly slot (c.desc 0) n.srcS c.fmtRun hdim c.seed n.escThr co
  else rdVec slot (c.desc 0) n.fmtS hdim n.escThr esc co

/-- The vectors of `n` consecutive dim-2 coordinates of a stationary operand, as depth groups. -/
def keyVecs (slot : Nat) (d : Desc) (fmt orient hdim thr : Nat) (esc : List (Nat × List F32)) (c2 n lim : Nat)
    (co : Nat → List Nat) : M (List (List (List Elem))) :=
  if orient = 0 then (List.range n).mapM fun i => rdVec slot d fmt hdim thr esc (co (c2 + i))
  else do
    let runs ← (List.range (ceilDiv n 32)).mapM fun r => do
      let vs ← rdCols slot d fmt hdim thr esc (c2 + 32 * r) lim co
      return vs.map (depthGroups fmt)
    return runs.flatten.take n

/-- Load the page columns of a tile: keys and values by slot (R207). -/
def fillPages (slot : Nat) (h : Shape) (va : Col → Nat) (hdim thr : Nat) (cs : List Col) : M (List Col) :=
  cs.mapM fun c => do
    match c.page with
    | none => return c
    | some (_, pg) =>
      let k ← pageVec slot h (va c) pg false (c.pos % 256) hdim thr
      let v ← pageVec slot h (va c) pg true (c.pos % 256) hdim thr
      return { c with k := k, v := v.flatten }

/-- Page columns of one page lane: the slots below the length, in presented columns from `c0`. In a Full page a slot
that the bitmap hides is a masked key, whose column stays (R88, R101). In a compacted frame a slot of another page is no
column, since no result may depend on what it holds (R247), and an Empty page has none (R231; DEDUCED, log 30). -/
def pageCols (root : Nat) (h : Shape) (seq layer head page c0 len : Nat) (occ : Bool) : M (List Col) := do
  match ← pageAt root h seq layer head page with
  | none => return []
  | some pg =>
    let sl ← pageSlots h (pageVA h seq layer head page) page pg occ
    return sl.zipIdx.filterMap fun (b, j) =>
      if (b || !(leafCmpct pg.leaf)) && decide (256 * page + j < len) then
        some { Col.at (c0 + j) (256 * page + j) (256 * page + j) with page := some (page, pg), hid := !b }
      else none

/-- Count the pages of a loaded tile that lie in the slow tier. -/
def countSlowPages (p : Nat) (cs : List Col) : M Unit := do
  let pages := (cs.filterMap fun c => c.page.map fun x => (x.1, x.2.leaf)).eraseDups
  let n := (pages.filter fun x => leafSlow x.2).length
  modS fun s => bump s p pgPOOL 0xF50 n

/-! ## Checks that the attention commands share -/

/-- Refusals of the number fields of a streamed query (R20, R23). -/
def streamRefs (c : Cmd) : List Ref :=
  let n := c.nums
  shapeIf (!(isArrayFmt n.fmtS)) atFmtS ++ shapeIf (!(isFloat n.srcS) && n.srcS != n.fmtS) atSrcS

/-- Refusals of R83 on the fields of the head, the output and the probabilities. -/
def headRefs (c : Cmd) : List Ref :=
  shapeIf (c.get .hdim == 0 || decide (128 < c.get .hdim)) (c.at .hdim) ++
  shapeIf (c.get .qpk == 0) (c.at .qpk)

def probRefs (c : Cmd) : List Ref := shapeIf (!(isProb (c.get .fmtP))) (c.at .fmtP)

/-- Refusals of R217 on a command that reads pages, `kFmt` in place of the pool's K format. -/
def poolShapeRefs (c : Cmd) (h : Shape) (kFmt : Nat) (withV : Bool) : List Ref :=
  let n := c.nums
  shapeIf (decide (h.layers ≤ c.get .layer)) (c.at .layer) ++
  shapeIf (decide (h.hkv < c.get .kvh0 + c.get .hkv)) (c.at .kvh0) ++
  shapeIf (n.fmtT != kFmt) atFmtT ++ shapeIf (n.orientT != 0) atOrientT ++
  (if withV then
    shapeIf (c.get .fmtV != h.fmtV) (c.at .fmtV) ++ shapeIf (c.get .orientV != 0) (c.at .orientV)
  else []) ++
  shapeIf (decide (h.hdim < c.get .hdim)) (c.at .hdim)

/-- Positions end below 2²⁰ (R83). -/
def posLimit : Nat := 2 ^ 20

end Sys2Proof.Machine
end

