-- ==== Sys2Proof/Machine/Forward.lean ====
section
/-! DEFINITION. `attn.fwd`: its checks (R83, R217), its row groups (R85 to R91), the work of a unit. -/

namespace Sys2Proof.Machine

open Sys2Proof

/-- The fields of the run-time shape against the planned extents of an operand (R273). -/
def fwdExt (c : Cmd) (i : Nat) (query : Bool) : List Ref :=
  extRef c .hdim (c.get .hdim) i 0 ++ extRef c .hkv (c.get .hkv) i 3 ++ extRef c .batch (c.get .batch) i 4 ++
  (if query then extRef c .qpk (c.get .qpk) i 1 ++ extRef c .lq (c.get .lq) i 2
  else extRef c .lk (c.get .lk) i 2)

/-- The lengths table, one pair for each batch element (R89). -/
def lenTab (c : Cmd) : M (List (Nat × Nat)) := do
  let n := c.get .batch
  if !(bitOf (c.get .mask) 2) || n = 0 then return []
  let bs ← rd (c.get .lenTab) (8 * n)
  return (List.range n).map fun b => (leAt bs (8 * b) 4, leAt bs (8 * b + 4) 4)

/-- The checks of R83 that forward and backward share: `tensor` says whether keys are a tensor, `most` how many
rows, or keys of sweep B, a group holds at most (R107): `RG_POS` times `per`. -/
def shapeRefs (c : Cmd) (tensor : Bool) (per most : Nat) : M (List Ref) := do
  let lens := c.lens
  let lq := c.get .lq
  let lk := c.get .lk
  return headRefs c ++
    shapeIf (c.get .rgPos == 0 || decide (most < c.get .rgPos * per)) (c.at .rgPos) ++
    shapeIf (!(isFloat c.nums.fmtO)) atFmtO ++
    shapeIf (bitOf (c.get .mask) 4 || bitOf (c.get .mask) 3 && tensor) (c.at .mask) ++
    shapeIf (lens.any fun e => decide (lq < e.1) || tensor && decide (lk < e.2)) noField ++
    refIf (decide (posLimit < c.get .qPos0 + lq)) stLENGTH (c.at .qPos0) ++
    refIf (tensor && decide (posLimit < c.get .kPos0 + lk)) stLENGTH (c.at .kPos0)

/-- Whether an `attn.fwd` reads pages. -/
def fwdPages (c : Cmd) : Bool := c.get .kvSrc == 1

/-- The refusals of an `attn.fwd` at issue. -/
def fwdRefs (p : Nat) (c : Cmd) : M (List Ref) := do
  let n := c.nums
  let kv := fwdPages c
  let s ← getS
  let shared := sharedRefs c
  if c.param.length < paramNeed c.op then return shared
  let base ← shapeRefs c (!kv) (c.get .qpk) 2048
  let pool ← if !kv then pure []
    else do
      let h := shapeOf s [] p
      let r ← seqRec (← theRoot) (c.get .seq)
      pure (poolShapeRefs c h h.fmtK true ++ shapeIf (r.state != 1) noField)
  return shared ++ streamRefs c ++ probRefs c ++ shapeIf (!(isArrayFmt n.fmtT)) atFmtT ++
    shapeIf (!(isArrayFmt (c.get .fmtV))) (c.at .fmtV) ++ fwdExt c 0 true ++ fwdExt c 3 true ++
    (if kv then [] else fwdExt c 1 false ++ fwdExt c 2 false) ++ base ++ pool

/-- Row groups of a command with `LQ` query positions (R86), zero for a zero run-time shape (R84). -/
def fwdUnits (c : Cmd) : Nat :=
  if !(fwdPages c) && c.get .lk == 0 then 0
  else c.get .batch * c.get .hkv * ceilDiv (c.get .lq) (max 1 (c.get .rgPos))

/-- The batch element, KV head and query positions with made rows of row group `v` (R86, R89). -/
def groupPos (c : Cmd) (v : Nat) : Nat × Nat × List Nat :=
  let (hk, rg, lq) := (c.get .hkv, c.get .rgPos, c.get .lq)
  let nq := ceilDiv lq rg
  let (q, j, b) := (v % nq, v / nq % hk, v / nq / hk)
  let lenQ := if bitOf (c.get .mask) 2 then (c.lens.getD b (0, 0)).1 else lq
  (b, j, (List.range rg).filterMap fun i => if rg * q + i < min lq lenQ then some (rg * q + i) else none)

/-- The visible keys of batch element `b` (R88): `LEN_K`, or `all` where the mask is not ragged. -/
def lenKey (c : Cmd) (b all : Nat) : Nat := if bitOf (c.get .mask) 2 then (c.lens.getD b (0, 0)).2 else all

/-- What an attention command fixes for its rows. -/
def aenv (s : State) (c : Cmd) : AEnv :=
  { k := scaleK (c.get .scale), fmtP := c.get .fmtP, fmtV := c.get .fmtV, fmtK := c.nums.fmtT,
    orK := c.nums.orientT, orV := c.get .orientV, seed := c.seed,
    hdim := c.get .hdim, gen := genOf s c.gen, stride := 32768 }

/-- Whether the mask lets a query at `pq` see a key at `pk` (R88, causal and window). -/
def maskSees (mask window pq pk : Nat) (causal : Bool) : Bool :=
  (!causal || decide (pk ≤ pq)) && (!(bitOf mask 1) || window == 0 || decide (pq < pk + window))

/-- The columns of tensor tile `t`, `n` keys in all. -/
def tensorCols (t n pos0 : Nat) : List Col :=
  (List.range (min 1024 (n - 1024 * t))).map fun i => Col.at i (pos0 + 1024 * t + i) (1024 * t + i)

/-- Load the columns of a tensor tile: K from operand `ik`, V from operand `iv`. -/
def fillTensor (slot : Nat) (c : Cmd) (ik iv : Nat) (escK escV : List (Nat × List F32)) (j b lim : Nat)
    (cs : List Col) : M (List Col) := do
  let n := c.nums
  let k0 := (cs.head?.map (·.key)).getD 0
  let co (k : Nat) : List Nat := [0, k, j, b, 0]
  let ks ← keyVecs slot (c.desc ik) n.fmtT n.orientT (c.get .hdim) n.escThr escK k0 cs.length lim co
  let vs ← keyVecs slot (c.desc iv) (c.get .fmtV) (c.get .orientV) (c.get .hdim) n.escThr escV k0 cs.length
    lim co
  return ((cs.zip ks).zip vs).map fun ((x, k), v) => { x with k := k, v := v.flatten }

/-- The columns of pages 4t to 4t + 3 of a sequence (R87). -/
def seqCols (root : Nat) (h : Shape) (seq layer head t len : Nat) (occ : Bool) : M (List Col) := do
  let ls ← (List.range 4).mapM fun lane => do
    let page := 4 * t + lane
    if 256 * page < len then pageCols root h seq layer head page (256 * lane) len occ else return []
  return ls.flatten

/-- A unit of `attn.fwd`: row group `v` (R86). -/
def fwdUnit (p role : Nat) (c : Cmd) (v : Nat) (first : Bool) : M Unit := do
  let s ← getS
  let n := c.nums
  let e := aenv s c
  let (hk, lq, g) := (c.get .hkv, c.get .lq, c.get .qpk)
  let (b, j, is) := groupPos c v
  let mask := c.get .mask
  let kv := fwdPages c
  let h := shapeOf s [] p
  let root ← theRoot
  let lenK := lenKey c b (2 ^ 32)
  if is.isEmpty then return ()
  let slot := c.slot j
  let escQ ← if isFloat n.srcS then pure [] else escRead n.escS ((c.desc 0).size / 32) slot first
  let escK ← if kv then pure [] else escRead n.escT ((c.desc 1).size / 32) slot first
  let escV ← if kv then pure [] else escRead (c.get .escV) ((c.desc 2).size / 32) slot first
  let rows ← (is.flatMap fun i => (List.range g).map fun y => (i, y)).mapM fun (i, y) => do
    let gr ← queryRow c slot e.hdim escQ [y, i, j, b, 0]
    return ({ r := ((b * hk + j) * lq + i) * g + y, pq := c.get .qPos0 + i, ix := i, slot := slot, q := gr } : QRow)
  let keys ← if kv then seqLen root (c.get .seq) (c.get .layer) else pure (c.get .lk)
  let head := c.get .kvh0 + j
  let cols (t : Nat) : M (List Col) :=
    if kv then seqCols root h (c.get .seq) (c.get .layer) head t keys (bitOf mask 3)
    else pure (tensorCols t keys (c.get .kPos0))
  let fill (cs : List Col) : M (List Col) := do
    if kv then
      countSlowPages p cs
      fillPages slot h (fun x => pageVA h (c.get .seq) (c.get .layer) head (x.pos / 256)) e.hdim n.escThr cs
    else fillTensor slot c 1 2 escK escV j b keys cs
  let vis (r : QRow) (x : Col) : Bool :=
    maskSees mask (c.get .window) r.pq x.pos (bitOf mask 0) && decide (x.key < lenK) && !x.hid
  let out ← runTiles e role rows (ceilDiv keys 1024) cols fill vis (fun _ _ => return ())
  (rows.zip out).forM fun (r, st) => do
    let (o, m, l) ← finishRow e.gen st
    let y := r.r % g
    wrFloats 3 (c.desc 3) n.fmtO [y, r.ix, j, b, 0] o
    if c.get .statOut != 0 then
      wr (outField c .statOut) (c.get .statOut + 8 * r.r) (f32Bytes m ++ f32Bytes l)

end Sys2Proof.Machine
end

