-- ==== Sys2Proof/Machine/Backward.lean ====
section
/-! DEFINITION. `attn.bwd_a` and `attn.bwd_b`: their checks (R107), D and the backward statistics (R109,
R110), the recomputed gradients (R112, R113), the two sweeps (R117, R118 to R124). -/

namespace Sys2Proof.Machine

open Sys2Proof

/-- Formats and places that the two sweeps read by role (Tables 05-2, 05-3). -/
def isB (c : Cmd) : Bool := c.op == opBWDB

/-- The refusals of a backward command at issue. -/
def bwdRefs (c : Cmd) : M (List Ref) := do
  let n := c.nums
  let b := isB c
  let keyIx := [1, 2] ++ (if b then [4, 5] else [])
  let qryIx := [0, 3] ++ (if b then [] else [4, 5])
  let shared := sharedRefs c
  if c.param.length < paramNeed c.op then return shared
  let base ← if b then shapeRefs c true 1 1024 else shapeRefs c true (c.get .qpk) 2048
  return shared ++ base ++
    shapeIf (c.get .kvSrc == 1) (c.at .kvSrc) ++
    shapeIf (n.srcS != n.fmtS) atSrcS ++ shapeIf (!(isArrayFmt n.fmtS)) atFmtS ++
    shapeIf (!(isArrayFmt n.fmtT)) atFmtT ++
    shapeIf (n.orientT != 0) atOrientT ++ shapeIf (c.get .orientV != 0) (c.at .orientV) ++
    shapeIf (!(isArrayFmt (c.get .fmtV))) (c.at .fmtV) ++
    shapeIf (!(isArrayFmt (c.get .fmtDs))) (c.at .fmtDs) ++
    shapeIf (!(isArrayFmt (c.get .fmtDo))) (c.at .fmtDo) ++
    (if b then probRefs c ++ shapeIf (c.get .dstat == 0) (c.at .dstat)
      else shapeIf (!(isFloat (c.get .fmtOi))) (c.at .fmtOi)) ++
    (keyIx.flatMap fun i => fwdExt c i false) ++ (qryIx.flatMap fun i => fwdExt c i true)

/-- Units: row groups of sweep A, key groups of sweep B (R86, R118). -/
def bwdUnits (c : Cmd) : Nat :=
  if c.get .lq == 0 || c.get .lk == 0 then 0
  else c.get .batch * c.get .hkv *
    ceilDiv (if isB c then c.get .lk else c.get .lq) (max 1 (c.get .rgPos))

/-! ## D -/

/-- The exact value of an element that the arrays see, or its source where its block escapes (R109). DESIGN CHOICE (log
47): a NaN code has none, escaped or not, so that D is NaN (R39), though its lane integer is +0 (R26) and the source of
an escaped block may be a number. -/
def Elem.seenVal (x : Elem) : Option Exact :=
  if x.nan then none
  else match x.src with
  | some v => f32Exact v
  | none => some (intExact x.lane x.e)

/-- L as the block uses it: the mark of an empty row stays, every other infinity is NaN (R100). -/
def statL (l : F32) : F32 := if l = f32Empty then l else f32Entry l

/-- D of one row: exact products rounded once, then seven pairwise levels over 128 leaves (R109). -/
def dSum (ds : List Elem) (o : List F32) : F32 :=
  treeSum 7 (padZero 128 (ds.zipWith (fun d v => exactMul d.seenVal (f32Exact v)) o))

/-! ## Recomputed values (R112) -/

/-- p and ds of a visible pair. A value that is NaN where no value of the pair before it is counts as made (R39,
log 47). -/
def bwdPair (slot : Nat) (e : AEnv) (scale s dp l d : F32) : M (F32 × F32) := do
  let z ← chk (f32Mul s e.k)
  let x ← chk (f32Sub z l)
  let p ← chk (exp2 e.gen x)
  let t ← chk (f32Sub dp d)
  let u ← chk (f32Mul p t)
  let ds ← chk (f32Mul u scale)
  let made (old new : F32) : Nat := if f32IsNaN new && !(f32IsNaN old) then 1 else 0
  tallyNan slot (made s z + made z p + (if f32IsNaN p then 0 else made dp ds))
  return (p, ds)

/-- A streamed dS row: 32 groups quantised with o = 4 (R113, R114); `n` numbers the block of a group. A
group without a column enters as +0 and is not consumed. -/
def dsRow (c : Cmd) (slot : Nat) (n : Nat → Nat) (live : Nat → Bool) (vs : Nat → F32) : M (List (List Elem)) :=
  (List.range 32).mapM fun g =>
    if live g then flyBlock slot (c.get .fmtDs) c.seed 4 (n g) c.nums.escThr
      ((List.range 32).map fun i => vs (32 * g + i))
    else return pad32 (c.get .fmtDs) []

/-- Accumulate an across output (R117). -/
def addGrad (acc : Option (List F32)) (v : List F32) : M (Option (List F32)) := do
  match acc with
  | none => return some v
  | some a => return some (← chkAll (a.zipWith f32Add v))

/-- Join the two chains: a single addition, or the one that holds values, or an empty row. -/
def joinGrad (a b : Option (List F32)) : M (Option (List F32)) := do
  match a, b with
  | some x, some y => return some (← chkAll (x.zipWith f32Add y))
  | some x, none => return some x
  | none, y => return y

/-- Switch cycles inside a pass of bursts into one array, from its first depth burst to its last across burst (R58,
R115): two for each change of axis. -/
def burstSwitch (rows : Nat) : Nat := 2 * (2 * max (ceilDiv rows 8 - 1) 1 - 1)

/-- A pass of bursts: each row along depth and along across. -/
def burstPass (array rows : Nat) : ArrWork :=
  { array := array, rows := 2 * rows, passes := 1, switch := burstSwitch rows, first := false, last := true }

/-- The work of a backward pass on a pair's arrays; in sweep B both take across rows. -/
def burstWork (role ch rows : Nat) (isB : Bool) : M Unit := do
  let (a, v) := pairArrays role ch
  addWork (burstPass a rows)
  addWork (if isB then burstPass v rows else onePass v rows false)

/-! ## Sweep A -/

/-- A row of sweep A: its query row, its dO row, L and D, and whether it is empty or NaN of itself. -/
structure ARow where
  q : QRow
  d : List (List Elem)
  l : F32
  D : F32
  deriving DecidableEq, Repr

/-- The row through one tile: its new dQ and whether the NaN flag was set. A row that the tile leaves untouched streams
dS = +0, and its output is discarded (R91, R117); its trees count (R39, R124). DESIGN CHOICE (log 47): where `K_POS0` is no
multiple of 32, a group of 32 columns holds two values of ⌊p_k / 32⌋ (R113); its block takes that of its first
column, and its draws go by the place in the group. -/
def aRowTile (c : Cmd) (e : AEnv) (scale : F32) (cols : List Col) (agK : List (List (List Elem)))
    (vis : List Bool) (row : ARow) (acc : Option (List F32) × Bool) : M (Option (List F32) × Bool) := do
  let ss ← scores cols row.q.slot row.q.q
  let dps ← scores (cols.map fun x => { x with k := depthGroups e.fmtV x.v }) row.q.slot row.d
  let prs ← (((cols.zip ss).zip dps).zip vis).mapM fun (((x, s), dp), b) => do
    if b then let (p, ds) ← bwdPair row.q.slot e scale s dp row.l row.D; return (x.c, p, ds)
    else return (x.c, f32Zero, f32Zero)
  let bad := prs.any fun (_, p, ds) => f32IsNaN p || f32IsNaN ds
  let base := (cols.head?.map fun x => x.pos - x.c).getD 0
  let dsv := prs.map fun (i, _, ds) => (i, ds)
  let str ← dsRow c row.q.slot (fun g => row.q.r * 32768 + (base + 32 * g) / 32)
    (fun g => cols.any fun x => x.c / 32 == g) (fun i => assocD dsv i f32Zero)
  let (vo, gc) := acrossDot c.nums.fmtT 0 e.hdim agK str
  tallyG row.q.slot gc
  if !(vis.any id) then return acc
  let vo ← chkAll vo
  return (← addGrad acc.1 vo, acc.2 || bad)

/-- A unit of `attn.bwd_a`: row group `v`. DESIGN CHOICE (log 47): a row with no visible key whose L or D is NaN is
flagged (R124), not empty (R123). -/
def bwdAUnit (role : Nat) (c : Cmd) (v : Nat) (first : Bool) : M Unit := do
  let s ← getS
  let n := c.nums
  let e := aenv s c
  let scale := f32Entry (BitVec.ofNat 32 (c.get .scale))
  let (hk, lq, g) := (c.get .hkv, c.get .lq, c.get .qpk)
  let (b, j, is) := groupPos c v
  let mask := c.get .mask
  let lenK := lenKey c b (2 ^ 32)
  if is.isEmpty then return ()
  let slot := c.slot j
  let escQ ← escRead n.escS ((c.desc 0).size / 32) slot first
  let escK ← escRead n.escT ((c.desc 1).size / 32) slot first
  let escV ← escRead (c.get .escV) ((c.desc 2).size / 32) slot first
  let escD ← escRead (c.get .escDo) ((c.desc 3).size / 32) slot first
  let rows ← (is.flatMap fun i => (List.range g).map fun y => (i, y)).mapM fun (i, y) => do
    let co := [y, i, j, b, 0]
    let r := ((b * hk + j) * lq + i) * g + y
    let qg ← queryRow c slot e.hdim escQ co
    let dg ← rdVec slot (c.desc 3) (c.get .fmtDo) e.hdim n.escThr escD co
    let o ← rdFloats (c.desc 4) (c.get .fmtOi) co e.hdim
    let L ← rdF32 (c.get .statIn + 8 * r + 4)
    let D ← chk (dSum (dg.flatten.take e.hdim) o)
    tallyNan slot ((o ++ [statL L, D]).filter f32IsNaN).length
    if c.get .dstat != 0 then wr (outField c .dstat) (c.get .dstat + 8 * r) (f32Bytes L ++ f32Bytes D)
    return ({ q := { r := r, pq := c.get .qPos0 + i, ix := i, slot := slot, q := qg }, d := dg, l := L, D := D } : ARow)
  let lk := c.get .lk
  let vis (r : ARow) (x : Col) : Bool :=
    r.l != f32Empty && maskSees mask (c.get .window) r.q.pq x.pos (bitOf mask 0) && decide (x.key < lenK)
  let zero := rows.map fun _ => ((none, false) : Option (List F32) × Bool)
  let (c0, c1) ← (List.range (ceilDiv lk 1024)).foldlM
      (fun (acc : List (Option (List F32) × Bool) × List (Option (List F32) × Bool)) t => do
    let cs := tensorCols t lk (c.get .kPos0)
    let seen := rows.map fun r => cs.map (vis r)
    if !(seen.any fun w => w.any id) then
      modPipe fun p => { p with skip := p.skip + 1 }
      return acc
    let cs ← fillTensor slot c 1 2 escK escV j b lk cs
    burstWork role (t % 2) rows.length false
    loadPair e role (t % 2) cs
    let ag := acrossGroups (fun x => x.k.flatten) cs
    let cur := if t % 2 = 0 then acc.1 else acc.2
    let out ← ((rows.zip seen).zip cur).mapM fun ((r, w), a) =>
      aRowTile c e scale cs ag w { r with l := statL r.l } a
    if t % 2 = 0 then return (out, acc.2) else return (acc.1, out)) (zero, zero)
  let held (r : ARow) (x : Option (List F32) × Bool) : Chain :=
    { o := x.1.getD [], m := r.l, l := r.D, e := x.1.isNone, n := x.2 }
  keepChains (rows.zipWith held c0) (rows.zipWith held c1)
  ((rows.zip c0).zip c1).forM fun ((r, x), y) => do
    let flag := x.2 || y.2 || f32IsNaN (statL r.l) || f32IsNaN r.D
    let co := [r.q.r % g, r.q.ix, j, b, 0]
    match ← joinGrad x.1 y.1 with
    | none =>
      if flag then
        modPipe fun p => { p with nan := p.nan + 1 }
        wrFloats 5 (c.desc 5) n.fmtO co (List.replicate e.hdim f32NaN)
      else
        modPipe fun p => { p with empty := p.empty + 1 }
        wrFloats 5 (c.desc 5) n.fmtO co (List.replicate e.hdim f32Zero)
    | some vo =>
      if flag then
        modPipe fun p => { p with nan := p.nan + 1 }
        wrFloats 5 (c.desc 5) n.fmtO co (List.replicate e.hdim f32NaN)
      else wrFloats 5 (c.desc 5) n.fmtO co vo

/-! ## Sweep B -/

/-- A column of sweep B: a query row, loaded with its Q and dO vectors, L and D. -/
structure BCol where
  c  : Nat
  pq : Nat
  q  : List (List Elem)
  d  : List (List Elem)
  l  : F32
  D  : F32
  deriving DecidableEq, Repr

/-- What chain c holds for a key: dK, dV, and the NaN flag. -/
structure KGrad where
  k : Option (List F32)
  v : Option (List F32)
  n : Bool
  deriving DecidableEq, Repr

/-- A key row through one query tile; an untouched one streams +0 and code 0, and its outputs are discarded, as in sweep
A. DESIGN CHOICE (log 47): R37 gives no code to a p that is NaN; a visible pair with such a p has code 0 and no further
count. -/
def bRowTile (c : Cmd) (e : AEnv) (scale : F32) (nBase : Nat) (cols : List BCol)
    (agQ agD : List (List (List Elem))) (vis : List Bool) (slot tile : Nat) (kq vq : List (List Elem))
    (acc : KGrad) : M KGrad := do
  let asCol (x : BCol) (gs : List (List Elem)) : Col := { Col.at x.c 0 0 with k := gs }
  let ss ← scores (cols.map fun x => asCol x x.q) slot kq
  let dps ← scores (cols.map fun x => asCol x x.d) slot vq
  let prs ← (((cols.zip ss).zip dps).zip vis).mapM fun (((x, s), dp), b) => do
    if b then let (p, ds) ← bwdPair slot e scale s dp x.l x.D; return (x.c, p, ds)
    else return (x.c, f32Zero, f32Zero)
  let bad := (prs.any fun (_, p, ds) => f32IsNaN p || f32IsNaN ds) ||
    ((cols.zip vis).any fun (x, b) => b && (f32IsNaN x.l || f32IsNaN x.D))
  let n (g : Nat) : Nat := (nBase + 32 * tile + g) % 2 ^ 64
  let dsv := prs.map fun (i, _, ds) => (i, ds)
  let live (g : Nat) : Bool := cols.any fun x => x.c / 32 == g
  let str ← dsRow c slot n live (fun i => assocD dsv i f32Zero)
  let (ko, g1) := acrossDot c.nums.fmtT 0 e.hdim agQ str
  tallyG slot g1
  let ko ← chkAll ko
  let codes := prs.map fun (i, p, _) =>
    if f32IsNaN p then (i, 0)
    else (i, quantProb e.pbits p ((draws e.seed 1 (n (i / 32))).getD (i % 32) 0))
  let (vo, g2) := acrossDot (c.get .fmtDo) 0 e.hdim agD (probRow e.fmtP codes)
  tallyG slot g2
  if !(vis.any id) then return acc
  let vo ← chkAll vo
  return { k := ← addGrad acc.k ko, v := ← addGrad acc.v vo, n := acc.n || bad }

/-- Write a key's gradient, or its empty or NaN form (R122 to R124). -/
def wrGrad (c : Cmd) (i hdim : Nat) (co : List Nat) (flag : Bool) (v : Option (List F32)) : M Unit :=
  wrFloats i (c.desc i) c.nums.fmtO co
    (if flag then List.replicate hdim f32NaN else v.getD (List.replicate hdim f32Zero))

/-- The batch element, KV head and made keys of key group `v` (R118, R122). -/
def groupKeys (c : Cmd) (v : Nat) : Nat × Nat × List Nat :=
  let (hk, rg, lk) := (c.get .hkv, c.get .rgPos, c.get .lk)
  let nk := ceilDiv lk rg
  let (q, j, b) := (v % nk, v / nk % hk, v / nk / hk)
  (b, j, (List.range rg).filterMap fun i => if rg * q + i < min lk (lenKey c b lk) then some (rg * q + i) else none)

/-- A unit of `attn.bwd_b`: key group `v` (R118). DESIGN CHOICE (log 46): L and D of every query tile are read, since
whether a row is empty (R111) decides whether its tile is run; a tile that is left out can fail that read. DESIGN CHOICE
(log 47): a group with no made key leaves no query tile out, so that it adds nothing to `SKIP_TILE` (R119). -/
def bwdBUnit (role : Nat) (c : Cmd) (v : Nat) (first : Bool) : M Unit := do
  let s ← getS
  let n := c.nums
  let e := aenv s c
  let scale := f32Entry (BitVec.ofNat 32 (c.get .scale))
  let (hk, lq, lk, g) := (c.get .hkv, c.get .lq, c.get .lk, c.get .qpk)
  let (b, j, ks) := groupKeys c v
  let mask := c.get .mask
  let lenQ := if bitOf mask 2 then (c.lens.getD b (0, 0)).1 else lq
  let lenK := lenKey c b lk
  if ks.isEmpty then return ()
  let slot := c.slot j
  let escK ← escRead n.escS ((c.desc 1).size / 32) slot first
  let escQ ← escRead n.escT ((c.desc 0).size / 32) slot first
  let escV ← escRead (c.get .escV) ((c.desc 2).size / 32) slot first
  let escD ← escRead (c.get .escDo) ((c.desc 3).size / 32) slot first
  let keys ← ks.mapM fun k => do
    let co := [0, k, j, b, 0]
    let kq ← rdVec slot (c.desc 1) n.fmtS e.hdim n.escThr escK co
    let vq ← rdVec slot (c.desc 2) (c.get .fmtV) e.hdim n.escThr escV co
    return (k, kq, vq)
  let rows := lq * g
  let r0 := (b * hk + j) * lq * g
  let zero := keys.map fun _ => ({ k := none, v := none, n := false } : KGrad)
  let (c0, c1) ← (List.range (ceilDiv rows 1024)).foldlM (fun (acc : List KGrad × List KGrad) t => do
    -- L and D of the tile's rows, then visibility (R119, R120)
    let heads ← (List.range (min 1024 (rows - 1024 * t))).mapM fun i => do
      let r := 1024 * t + i
      let st ← rd (c.get .dstat + 8 * (r0 + r)) 8
      return (i, r, decide (r / g < lenQ), f32Of (st.take 4), f32Of (st.drop 4))
    let vis (k : Nat) (hd : Nat × Nat × Bool × F32 × F32) : Bool :=
      hd.2.2.1 && hd.2.2.2.1 != f32Empty &&
        maskSees mask (c.get .window) (c.get .qPos0 + hd.2.1 / g) (c.get .kPos0 + k) (bitOf mask 0) &&
        decide (k < lenK)
    let seen := keys.map fun k => heads.map (vis k.1)
    if !(seen.any fun w => w.any id) then
      modPipe fun p => { p with skip := p.skip + 1 }
      return acc
    let cols ← heads.mapM fun (i, r, _, l, d) => do
      let co := [r % g, r / g, j, b, 0]
      let qv ← rdVec slot (c.desc 0) n.fmtT e.hdim n.escThr escQ co
      let dv ← rdVec slot (c.desc 3) (c.get .fmtDo) e.hdim n.escThr escD co
      return ({ c := i, pq := c.get .qPos0 + r / g, q := qv, d := dv, l := statL l, D := f32Entry d } : BCol)
    tallyNan slot ((cols.flatMap fun x => [x.l, x.D]).filter f32IsNaN).length
    loadLD (t % 2) (heads.map fun hd => hd.2.2.2)
    burstWork role (t % 2) keys.length true
    let shell := cols.map fun x => { Col.at x.c 0 0 with k := x.q, v := x.d.flatten }
    loadPair { e with fmtV := c.get .fmtDo, orV := 0 } role (t % 2) shell
    let agQ := acrossGroups (fun x => x.k.flatten) shell
    let agD := acrossGroups (·.v) shell
    let cur := if t % 2 = 0 then acc.1 else acc.2
    let out ← ((keys.zip seen).zip cur).mapM fun ((k, w), a) =>
      bRowTile c e scale (((b * hk + j) * 2 ^ 20 + c.get .kPos0 + k.1) * 2 ^ 32) cols agQ agD w slot
        t k.2.1 k.2.2 a
    if t % 2 = 0 then return (out, acc.2) else return (acc.1, out)) (zero, zero)
  let held (x : Option (List F32)) (n : Bool) : Chain := { o := x.getD [], m := 0, l := 0, e := x.isNone, n := n }
  -- dK of key k at half row k, dV at half row RG_POS + k (R122)
  let half (l : List KGrad) : List Chain :=
    (l.map fun x => held x.k x.n) ++ List.replicate (c.get .rgPos - l.length) (held none false) ++
      l.map fun x => held x.v x.n
  keepChains (half c0) (half c1)
  ((keys.zip c0).zip c1).forM fun ((k, x), y) => do
    let flag := x.n || y.n
    let dk ← joinGrad x.k y.k
    let dv ← joinGrad x.v y.v
    if flag then modPipe fun p => { p with nan := p.nan + 1 }
    else if dk.isNone then modPipe fun p => { p with empty := p.empty + 1 }
    let co := [0, k.1, j, b, 0]
    wrGrad c 4 e.hdim co flag dk
    wrGrad c 5 e.hdim co flag dv

end Sys2Proof.Machine
end

