-- ==== Sys2Proof/Machine/Generation.lean ====
section
/-! DEFINITION. `attn.dec`: its entries and candidate trees (R130 to R137), the row groups of a swarm
(R139, R142), phase 2 (R146), the column sums of its codes (R152). `page.select`: scores and bitmaps
(R147 to R150). -/

namespace Sys2Proof.Machine

open Sys2Proof

/-! ## Tables read at issue (R89, R130, R462) -/

/-- Whether a command has an entry table. -/
def hasEntries (op : Nat) : Bool :=
  op == opDEC || op == opSELECT || decide (opOPEN ≤ op ∧ op ≤ opCOMPACT) || op == opMOLT

/-- Whether a command works on its partition's pool. -/
def onPool (c : Cmd) : Bool :=
  c.op == opFWD && fwdPages c || c.op == opDEC || c.op == opSELECT || c.op == opMOLT ||
    decide (opOPEN ≤ c.op ∧ c.op ≤ opCOMPACT)

/-- The refusals for want of a unit of a command that has tables (R6): they come before any table is read (Table 11-14). -/
def unitRefs (s : State) (p : Nat) (c : Cmd) : List Ref :=
  refIf (onPool c && !(hasPool s p) || c.op == opSELECT && !(capCMP s)) stABSENT noField ++
  if c.op == opMOLT && (c.get .mode < 2 || c.get .txPorts + c.get .rxPorts != 0) then portRefs s p c else []

/-- Read the entry, tree and lengths tables of a command. -/
def readTables (c : Cmd) : M Cmd := do
  if c.param.length < paramNeed c.op then return c
  else if c.op = opFWD || c.op = opBWDA || c.op = opBWDB then return { c with lens := ← lenTab c }
  else if hasEntries c.op then
    let es ← entries (c.get .entTab) (min (c.get .nent) 65536)
    if (c.op = opDEC || c.op = opSELECT) && bitOf (c.get .mask) 4 then
      let ts ← es.zipIdx.mapM fun (_, e) => do
        let bs ← rd (c.get .treeTab + 64 * e) 64
        return bs.map (·.toNat)
      return { c with ents := es, trees := ts }
    else return { c with ents := es }
  else return c

/-! ## Entries and candidate trees -/

/-- An entry of `attn.dec` or `page.select`: its sequence, query positions, length, and the depth and the
ancestor mask of each candidate. -/
structure DEnt where
  seq   : Nat
  nc    : Nat
  len   : Nat
  depth : List Nat
  masks : List Nat
  deriving DecidableEq, Repr

/-- Depths and ancestor masks of `n` candidates from the bytes of a parent table (R136, R137). -/
def treeOf (n : Nat) (tree : List Nat) : List Nat × List Nat :=
  (List.range n).foldl (fun (acc : List Nat × List Nat) c =>
    let p := tree.getD c 0xFF
    if p < c then (acc.1 ++ [acc.1.getD p 0 + 1], acc.2 ++ [acc.2.getD p 0 ||| 2 ^ c])
    else (acc.1 ++ [0], acc.2 ++ [2 ^ c])) ([], [])

/-- Whether a parent table breaks the tree rule of R136. -/
def treeBad (n : Nat) (tree : List Nat) : Bool :=
  (List.range n).any fun c => let p := tree.getD c 0xFF; p != 0xFF && decide (c ≤ p)

/-- Whether the query positions of a command are candidates. -/
def isTree (c : Cmd) : Bool := bitOf (c.get .mask) 4

/-- Entry `e` of a command in the instar of a root. -/
def dEnt (root : Nat) (c : Cmd) (e : Nat) : M DEnt := do
  let w := c.ents.getD e 0
  let seq := field w 0 16
  let nc := field w 16 7
  let (d, m) := if isTree c then treeOf nc (c.trees.getD e []) else (List.replicate nc 0, List.replicate nc 0)
  return { seq := seq, nc := nc, len := ← seqLen root seq (c.get .layer), depth := d, masks := m }

/-- The query position of candidate or query index `i` (R133). -/
def DEnt.pq (x : DEnt) (c : Cmd) (i : Nat) : Nat :=
  if isTree c then x.len + x.depth.getD i 0 else x.len - x.nc + i

/-- The refusals that the entries of a command bring (R130). -/
def entRefs (root : Nat) (c : Cmd) : M (List Ref) := do
  let rs ← c.ents.zipIdx.mapM fun (w, e) => do
    let x ← dEnt root c e
    let r ← seqRec root x.seq
    let top := (List.range x.nc).foldl (fun acc i => max acc (x.pq c i + 1)) 0
    return shapeIf (decide (2 ^ 23 ≤ w) || decide (64 < x.nc) || decide (2048 < x.nc * c.get .qpk) ||
        r.state != 1 || !(isTree c) && decide (x.len < x.nc) ||
        isTree c && treeBad x.nc (c.trees.getD e [])) noField ++
      refIf (decide (posLimit < top)) stLENGTH noField
  return rs.flatten

/-- The operand descriptors of `attn.dec`, with the code bases of CK and CV (R267). -/
def Cmd.cand (c : Cmd) (i : Nat) : Desc :=
  { c.desc i with codes := if i = 2 then c.get .candK else c.get .candV }

/-- The run-time shape against the planned extents of an operand, whose dim 2 is 64 (R132, R269). -/
def decExt (c : Cmd) (i : Nat) (query : Bool) : List Ref :=
  extRef c .hdim (c.get .hdim) i 0 ++ (if query then extRef c .qpk (c.get .qpk) i 1 else []) ++
  shapeIf ((c.desc i).e 2 != 64) (inParam (descOff c.op i + 40)) ++
  extRef c .hkv (c.get .hkv) i 3 ++ extRef c .nent (c.get .nent) i 4

/-- The refusals of an `attn.dec` at issue (R130, R213). CK and CV are checked without `MASK.TREE` too: R273 speaks of
every descriptor. -/
def decRefs (p : Nat) (c : Cmd) : M (List Ref) := do
  let n := c.nums
  let s ← getS
  let shared := sharedRefs c
  if c.param.length < paramNeed c.op then return shared
  let h := shapeOf s [] p
  let root ← theRoot
  let pages := ceilDiv (← seqLen root (c.get .pfxSeq) (c.get .layer)) 256
  let pfx ← seqRec root (c.get .pfxSeq)
  return shared ++ streamRefs c ++ headRefs c ++ probRefs c ++ shapeIf (!(isFloat n.fmtO)) atFmtO ++
    poolShapeRefs c h h.fmtK true ++
    shapeIf (bitOf (c.get .mask) 2) (c.at .mask) ++
    shapeIf (decide (65536 < c.get .nent)) (c.at .nent) ++
    shapeIf (c.get .pfxPages != 0 && c.get .partBuf == 0) (c.at .partBuf) ++
    shapeIf (decide (pages < c.get .pfxPages)) (c.at .pfxPages) ++
    shapeIf (c.get .pfxPages != 0 && pfx.state != 1) noField ++
    decExt c 0 true ++ decExt c 1 true ++ decExt c 2 false ++ decExt c 3 false ++ (← entRefs root c)

/-- Units of phase 2: one entry and one KV head (R146). -/
def decUnits (c : Cmd) : Nat := c.get .nent * c.get .hkv

/-- The made rows of entry `e` and relative head `j`, ascending (R132). -/
def madeRows (c : Cmd) (e j : Nat) : List Nat :=
  let g := c.get .qpk
  (List.range (field (c.ents.getD e 0) 16 7)).flatMap fun i =>
    (List.range g).map fun y => ((e * c.get .hkv + j) * 64 + i) * g + y

/-- Entry, relative head, query index and query head of a row. -/
def rowParts (c : Cmd) (r : Nat) : Nat × Nat × Nat × Nat :=
  let g := max 1 (c.get .qpk)
  let hk := max 1 (c.get .hkv)
  (r / g / 64 / hk, r / g / 64 % hk, r / g % 64, r % g)

/-- The streamed row `r` of a command, counted in `slot`. -/
def decRow (c : Cmd) (x : DEnt) (slot : Nat) (esc : List (Nat × List F32)) (r : Nat) : M QRow := do
  let (e, j, i, y) := rowParts c r
  let q ← queryRow c slot (c.get .hdim) esc [y, i, j, e, 0]
  return { r := r, pq := x.pq c i, ix := i, slot := slot, q := q }

/-- Visibility of a column (Table 06-3); page columns beyond the sequence are no columns. -/
def decSees (c : Cmd) (x : DEnt) (r : QRow) (k : Col) : Bool :=
  !k.hid && (!(bitOf (c.get .mask) 1) || c.get .window == 0 || decide (r.pq < k.pos + c.get .window)) &&
    (match k.cand with
      | some i => bitOf (x.masks.getD r.ix 0) i
      | none => decide (k.pos ≤ r.pq))

/-! ## Swarm row groups (R142) -/

/-- The rows of one command, entry and head in a swarm row group: `ix` numbers the command within the
group. Its counts and outputs carry `ix`. -/
structure SwJob where
  ix   : Nat
  cmd  : Cmd
  ctx  : Ctx
  e    : Nat
  j    : Nat
  ent  : DEnt
  rows : List QRow
  deriving DecidableEq, Repr

/-- Head slots and output keys of the commands of a group are told apart by these strides. -/
def jobSlots : Nat := 64
def jobKeys : Nat := 0x2000000

/-- Run under the context of a job. -/
def withCtx {α : Type} (x : Ctx) (m : M α) : M α := do
  modify fun r => { r with ctx := x }
  m

/-- The rows of one command of a group, cut by entry and head. -/
def jobsOf (ix : Nat) (x : Ctx) (c : Cmd) (rows : List Nat) : M (List SwJob) := do
  let keys := (rows.map fun r => let q := rowParts c r; (q.1, q.2.1)).eraseDups
  withCtx x do
    bounceAll c
    keys.mapM fun (e, j) => do
      let ent ← dEnt (← theRoot) c e
      let slot := jobSlots * ix + c.slot j
      let n := c.nums
      let esc ← if isFloat n.srcS then pure [] else escRead n.escS ((c.desc 0).size / 32) slot false
      let mine := rows.filter fun r => let q := rowParts c r; q.1 == e && q.2.1 == j
      let qs ← mine.mapM (decRow c ent slot esc)
      return { ix := ix, cmd := c, ctx := x, e := e, j := j, ent := ent, rows := qs }

/-- The shared columns of tile `t` for a job: pages 4t to 4t + 3 of its own sequence below `PFX_PAGES`. -/
def sharedCols (h : Shape) (x : SwJob) (t : Nat) : M (List Col) := do
  let c := x.cmd
  let ls ← (List.range 4).mapM fun lane => do
    let page := 4 * t + lane
    if page < c.get .pfxPages && 256 * page < x.ent.len then
      pageCols (← theRoot) h x.ent.seq (c.get .layer) (c.get .kvh0 + x.j) page (256 * lane) x.ent.len
        (bitOf (c.get .mask) 3)
    else return []
  return ls.flatten

/-- A command consumes blocks that another has loaded: they count for it as if it had loaded them (R45, R144). -/
def recount (slot thr : Nat) (es : List Elem) : M Unit :=
  (chunksOf 32 es.length es).forM fun b =>
    match b with
    | [] => return ()
    | x :: _ => do
      let _ ← useBlock slot x.fmt x.scale (b.map (·.code)) 0 thr []

/-- Load the columns that the tile does not hold yet; jobs on the same frames share what is loaded, and each counts
the blocks that it consumes, so that its totals do not depend on its companions (R48, R144). -/
def fillShared (p : Nat) (h : Shape) (x : SwJob) (held cs : List Col) : M (List Col) := do
  let c := x.cmd
  let known (k : Col) : Option Col := held.find? fun o => o.pos == k.pos && o.page == k.page
  let fresh := cs.filter fun k => (known k).isNone
  countSlowPages p (fresh.filter fun k => !(held.any fun o => o.page == k.page))
  let slot := jobSlots * x.ix + c.slot x.j
  let got ← fillPages slot h
    (fun k => pageVA h x.ent.seq (c.get .layer) (c.get .kvh0 + x.j) (k.pos / 256)) (c.get .hdim)
    c.nums.escThr fresh
  cs.mapM fun k =>
    match known k with
    | none => return (got.find? fun o => o.pos == k.pos).getD k
    | some o => do
      recount slot c.nums.escThr (o.k.flatten ++ o.v)
      return { o with hid := k.hid }

/-- A tile of a swarm row group: each job's chains after it. -/
def swarmTile (p role : Nat) (s0 : State) (h : Shape) (jobs : List SwJob) (t : Nat)
    (acc : List (List Chain × List Chain)) : M (List (List Chain × List Chain)) := do
  let total := (jobs.map fun x => x.rows.length).foldl (· + ·) 0
  let seen ← jobs.mapM fun x => withCtx x.ctx do
    let cs ← sharedCols h x t
    return (cs, x.rows.map fun r => cs.map (decSees x.cmd x.ent r))
  if !(seen.any fun v => v.2.any fun w => w.any id) then
    modPipe fun q => { q with skip := q.skip + 1 }
    return acc
  passWork role (t % 2) total
  let out ← ((jobs.zip seen).zip acc).foldlM (fun (st : List Col × List (List Chain × List Chain)) w => do
    let ((x, cs, vis), a) := w
    if !(vis.any fun w => w.any id) then return (st.1, st.2 ++ [a])
    withCtx x.ctx do
      let cs ← fillShared p h x st.1 cs
      let e := aenv s0 x.cmd
      let ag := acrossGroups (·.v) cs
      let cur := if t % 2 = 0 then a.1 else a.2
      let r ← ((x.rows.zip vis).zip cur).mapM fun ((r, v), c) => rowTile e cs ag v r c
      let o := r.map (·.1)
      return (st.1 ++ cs, st.2 ++ [if t % 2 = 0 then (o, a.2) else (a.1, o)])) ([], [])
  jobs.head?.forM fun x => loadPair (aenv s0 x.cmd) role (t % 2) out.1.eraseDups
  return out.2

/-- A partial-state record (Table 06-5). -/
def recordOf (c : Chain) : List Byte :=
  (padZero 128 c.o).flatMap f32Bytes ++ f32Bytes c.m ++ f32Bytes c.l ++
    leBytes 4 ((if c.e then 1 else 0) + (if c.n then 2 else 0)) ++ zeroBytes 4

/-- The chain that a partial-state record holds. -/
def ofRecord (hdim : Nat) (bs : List Byte) : Chain :=
  let w (k : Nat) : F32 := f32Entry (BitVec.ofNat 32 (leAt bs (4 * k) 4))
  { o := (List.range hdim).map w, m := w 128, l := w 129, e := bitOf (leAt bs 520 4) 0,
    n := bitOf (leAt bs 520 4) 1 }

/-- A swarm row group: rows by command, in order; each row writes its record at `PART_BUF` + 528 r. -/
def swarmUnit (p role : Nat) (cmds : List (Ctx × Cmd × List Nat)) : M Unit := do
  let s0 ← getS
  let h := shapeOf s0 [] p
  let jobs := (← cmds.zipIdx.mapM fun ((x, c, rows), ix) => jobsOf ix x c rows).flatten
  let tiles := ceilDiv ((cmds.head?.map fun x => x.2.1.get .pfxPages).getD 0) 4
  let zero := jobs.map fun x =>
    (x.rows.map fun _ => Chain.start (x.cmd.get .hdim), x.rows.map fun _ => Chain.start (x.cmd.get .hdim))
  let out ← (List.range tiles).foldlM (fun acc t => swarmTile p role s0 h jobs t acc) zero
  keepChains (out.flatMap (·.1)) (out.flatMap (·.2))
  (jobs.zip out).forM fun (x, a, b) => withCtx x.ctx do
    let gen := genOf s0 x.cmd.gen
    ((x.rows.zip a).zip b).forM fun ((r, a), b) => do
      let st ← mergeChain gen a b
      wr (jobKeys * x.ix + outField x.cmd .partBuf) (x.cmd.get .partBuf + 528 * r.r) (recordOf st)

/-! ## Phase 2 (R146) -/

/-- The private list of an entry and a head: pages, then the candidate block as `none` (R134). -/
def privateList (c : Cmd) (x : DEnt) (v : Nat) : M (List (Option Nat)) := do
  let pages := (List.range (ceilDiv x.len 256)).filter fun k => decide (c.get .pfxPages ≤ k)
  let pages ← if c.get .selIn = 0 then pure pages
    else do
      let bm ← rd (c.get .selIn + 512 * v) 512
      pure (pages.filter fun k => bitOf (leAt bm (k / 8) 1) (k % 8))
  return pages.map some ++ (if isTree c then [none] else [])

/-- The columns of a tile of the private list. -/
def privateCols (root : Nat) (h : Shape) (c : Cmd) (x : DEnt) (j : Nat) (lanes : List (Option Nat)) :
    M (List Col) := do
  let ls ← lanes.zipIdx.mapM fun (l, k) =>
    match l with
    | some page => pageCols root h x.seq (c.get .layer) (c.get .kvh0 + j) page (256 * k) x.len
        (bitOf (c.get .mask) 3)
    | none => return (List.range x.nc).map fun i =>
        { Col.at (256 * k + i) (x.len + x.depth.getD i 0) 0 with cand := some i }
  return ls.flatten

/-- Add to the sums of score entries. -/
def addSum (addr v : Nat) : M Unit :=
  modify fun r => { r with sums := assocSet r.sums addr (assocD r.sums addr 0 + v) }

/-- Collect the codes that a tile's rows gave to occupied page columns whose frame is not compacted. -/
def foldCodes (h : Shape) (cs : List Col) (codes : List (List (Nat × Nat))) : M Unit :=
  cs.forM fun k =>
    match k.page with
    | some (_, pg) =>
      if leafCmpct pg.leaf || k.hid then return ()
      else addSum (pg.base + h.score + 4 * (k.pos % 256))
        ((codes.map fun r => assocD r k.c 0).foldl (· + ·) 0)
    | none => return ()

/-- A unit of phase 2: entry ⌊v / `HKV`⌋, relative head v mod `HKV`. -/
def decUnit (p role : Nat) (c : Cmd) (v : Nat) (first : Bool) : M Unit := do
  let s ← getS
  let n := c.nums
  let en := aenv s c
  let h := shapeOf s [] p
  let root ← theRoot
  let e := v / c.get .hkv
  let j := v % c.get .hkv
  let x ← dEnt root c e
  if x.nc = 0 then return ()
  let slot := c.slot j
  let escQ ← if isFloat n.srcS then pure [] else escRead n.escS ((c.desc 0).size / 32) slot first
  let escK ← if isTree c then escRead n.escT ((c.desc 2).size / 32) slot first else pure []
  let escV ← if isTree c then escRead (c.get .escV) ((c.desc 3).size / 32) slot first else pure []
  let rows ← (madeRows c e j).mapM (decRow c x slot escQ)
  let lanes ← privateList c x v
  let sq ← seqRec root x.seq
  let evs := c.get .evsUpd == 1 && capEVS s && sq.evs
  if isTree c then loadMasks x.masks
  let fill (cs : List Col) : M (List Col) := do
    countSlowPages p cs
    let cs ← fillPages slot h (fun k => pageVA h x.seq (c.get .layer) (c.get .kvh0 + j) (k.pos / 256))
      en.hdim n.escThr cs
    cs.mapM fun k => do
      match k.cand with
      | none => return k
      | some i =>
        let co := [0, i, j, e, 0]
        let kk ← rdVec slot (c.cand 2) n.fmtT en.hdim n.escThr escK co
        let vv ← rdVec slot (c.cand 3) (c.get .fmtV) en.hdim n.escThr escV co
        return { k with k := kk, v := vv.flatten }
  let out ← runTiles en role rows (ceilDiv lanes.length 4)
    (fun t => privateCols root h c x j ((lanes.drop (4 * t)).take 4)) fill (decSees c x)
    (fun cs codes => if evs then foldCodes h cs codes else return ())
  (rows.zip out).forM fun (r, b) => do
    let a ← (if c.get .pfxPages = 0 then pure (Chain.start en.hdim)
      else ofRecord en.hdim <$> rd (c.get .partBuf + 528 * r.r) 528)
    let (o, m, l) ← finishRow en.gen (← mergeChain en.gen a b)
    wrFloats 1 (c.desc 1) n.fmtO [r.r % c.get .qpk, r.ix, j, e, 0] o
    if c.get .statOut != 0 then
      wr (outField c .statOut) (c.get .statOut + 8 * r.r) (f32Bytes m ++ f32Bytes l)

/-! ## `page.select` -/

/-- The refusals of a `page.select` at issue (R70, R147). -/
def selRefs (p : Nat) (c : Cmd) : M (List Ref) := do
  let n := c.nums
  let s ← getS
  let shared := sharedRefs c
  if c.param.length < paramNeed c.op then return shared
  let h := shapeOf s [] p
  return shared ++ streamRefs c ++ headRefs c ++ poolShapeRefs c h h.fmtSum false ++
    shapeIf (decide (65536 < c.get .nent)) (c.at .nent) ++
    shapeIf (c.get .cmpMode == 3 && !([8, 9, 10].contains n.fmtT)) atFmtT ++
    shapeIf (c.get .topk == 0) (c.at .topk) ++ shapeIf (c.get .selOut == 0) (c.at .selOut) ++
    decExt c 0 true ++ (← entRefs (← theRoot) c)

/-- A summary slot's elements as groups: the mean row, or lo and hi of the bound row, of two blocks a group
(R220). -/
def summaryRow (slot : Nat) (h : Shape) (va : Nat) (pg : PageAt) (mode hdim thr : Nat) :
    M (List (List Elem) × List (List Elem)) := do
  let f := h.fmtSum
  let w := fmtBits f
  let bs ← frameRd va pg.base (h.sum + 1024 * leafSlot pg.leaf) 1024
  if leafSlow pg.leaf then countSlowPg [pageUnder h va]
  let gs := List.range (ceilDiv hdim 32)
  if mode = 3 then
    let both ← gs.mapM fun g => do
      let code (i : Nat) : Nat := codeAt (bs.drop 512) w i
      let pick (b : Nat) : List Nat :=
        (List.range 32).map fun i => if 32 * g + 16 * b + i / 2 < hdim then code (64 * g + 32 * b + i) else 0
      let halves ← [0, 1].mapM fun b => useBlock slot f (leAt bs (768 + 2 * g + b) 1) (pick b) 0 0xFF []
      let all := halves.flatten
      let side (o : Nat) : List Elem := (List.range 32).map fun k => all.getD (2 * k + o) (missing f)
      return (side 0, side 1)
    return (both.map (·.1), both.map (·.2))
  else
    let mean ← gs.mapM fun g => do
      let codes := (List.range 32).map fun k => if 32 * g + k < hdim then codeAt bs w (32 * g + k) else 0
      useBlock slot f (leAt bs (128 + g) 1) codes 0 (if mode = 0 then thr else 0xFF) []
    return (mean, [])

/-- One comparison: the result for a row and a page, and its counts (Table 03-10). -/
def compareRow (mode : Nat) (a b row : List (List Elem)) : F32 × GCount :=
  if mode = 0 then depthDot a row
  else
    let gs :=
      if mode = 3 then ((a.zip b).zip row).map fun ((lo, hi), r) => groupMaxb lo hi r
      else a.zipWith (groupDist (mode == 2)) row
    (depthTree gs, { (grpCount gs) with esc := 0 })

/-- The score of a page from its rows' results (R148): the largest, or the smallest. -/
def groupScore (mode : Nat) (xs : List F32) : F32 :=
  if xs.any f32IsNaN then f32NaN
  else match xs with
    | [] => f32Zero
    | x :: rest => rest.foldl (if mode = 0 || mode = 3 then f32Max else f32Min) x

/-- Whether page `a` ranks before page `b` (R149). DESIGN CHOICE (log 75): scores −0 and +0 tie; the
order −0 < +0 is that of the reduction alone (R148). -/
def ranksFirst (mode : Nat) (a b : Nat × F32) : Bool :=
  let na := f32IsNaN a.2
  let nb := f32IsNaN b.2
  if na || nb then (if na && nb then decide (a.1 < b.1) else na)
  else if f32Eq a.2 b.2 then decide (a.1 < b.1)
  else if mode = 0 || mode = 3 then f32Lt b.2 a.2 else f32Lt a.2 b.2

/-- The arrays that run `page.select` (R394): both score arrays where both pairs are formed, else the lowest-numbered
spare, else the score array of pair 0. -/
def selectArrays (role : Nat) : List Nat :=
  if field role 6 3 != 7 then [field role 0 3, field role 6 3]
  else if field role 12 3 != 7 then [field role 12 3]
  else [field role 0 3]

/-- The logical lanes of each pass of a tile on an array of state `st` (R80), `live` those with a page in them: two
passes where more are live than the array has live lanes. -/
def lanePasses (st : Nat) (live : List Nat) : List (List Nat) :=
  if decide (live.length ≤ [4, 3, 2].getD st 4) then [live]
  else (if st = 1 then [[0, 1, 2], [3]] else [[0, 1], [2, 3]]).map fun ls => ls.filter live.contains

/-- The columns of a tile that a pass holds: its logical lanes on the live physical lanes, both ascending (R80). -/
def laneMap (phys lanes : List Nat) (cols : List (Nat × List Elem)) : List (Nat × List Elem) :=
  lanes.zipIdx.flatMap fun (l, i) =>
    (cols.filter fun c => c.1 / 256 == l).map fun c => (256 * phys.getD i i + c.1 % 256, c.2)

/-- The work of summary tiles of `np` pages (R148), `cols` the columns of a tile: the score arrays take the tiles in
turn; each pass streams every row. -/
def selectWork (role np rows fmt : Nat) (cols : Nat → List (Nat × List Elem)) : M Unit := do
  let r ← get
  let arrays := selectArrays role
  let x := chan r.s r.ctx.who.ch
  (List.range (ceilDiv np 1024)).forM fun t => do
    let a := arrays.getD (t % arrays.length) 0
    let live := (List.range 4).filter fun l => (cols t).any fun c => c.1 / 256 == l
    let phys := (List.range 4).filter fun l => bitOf x.lanes (4 * a + l)
    let ps := lanePasses (field x.astate (2 * a) 2) live
    addWork { onePass a (ps.length * rows) false with passes := ps.length }
    ps.forM fun lanes => loadTile (loadOf a fmt 0 (laneMap phys lanes (cols t)))

/-- A cell of a `MAXB` tile (R72): lo in A[5:0], hi in A[11:6]. -/
def pairElem (lo hi : Elem) : Elem :=
  { lo with lane := hi.lane * 64 + lo.lane % 64, code := lo.code + 2 ^ fmtBits lo.fmt * hi.code }

/-- A unit of `page.select`: a query group (R148 to R150). -/
def selUnit (p role : Nat) (c : Cmd) (v : Nat) (first : Bool) : M Unit := do
  let s ← getS
  let n := c.nums
  let h := shapeOf s [] p
  let root ← theRoot
  let e := v / c.get .hkv
  let j := v % c.get .hkv
  let x ← dEnt root c e
  let (mode, layer, head) := (c.get .cmpMode, c.get .layer, c.get .kvh0 + j)
  let slot := c.slot j
  let thr := if mode = 0 then n.escThr else 0xFF
  let escQ ← if isFloat n.srcS || mode != 0 then pure [] else escRead n.escS ((c.desc 0).size / 32) slot first
  let plain := { c with param := if mode = 0 then c.param else c.param.set 3 0xFF }
  let rows ← (madeRows c e j).mapM (decRow plain x slot escQ)
  let np := ceilDiv x.len 256
  let pages ← (List.range np).mapM fun k => do
    let pg ← pageAt root h x.seq layer head k
    return (k, pg.filter fun y => leafSum y.leaf)
  let both ← pages.filterMapM fun (k, pg) => do
    match pg with
    | none => return none
    | some y =>
      -- R148 gives no score to a group without rows
      if rows.isEmpty then return some (k, Config.noRowScore v k, [])
      let (a, b) ← summaryRow slot h (pageVA h x.seq layer head k) y mode (c.get .hdim) thr
      let xs ← rows.mapM fun r => do
        let (d, g) := compareRow mode a b r.q
        tallyG slot g
        chk d
      return some (k, groupScore mode xs, if mode = 3 then a.flatten.zipWith pairElem b.flatten else a.flatten)
  let scored := both.map fun y => (y.1, y.2.1)
  if !(rows.isEmpty) then
    selectWork role np rows.length h.fmtSum fun t =>
      (both.filter fun y => y.1 / 1024 == t).map fun y => (y.1 % 1024, y.2.2)
  let head0 := c.get .selHead
  let tail0 := np - c.get .selTail
  let guarded (k : Nat) : Bool := decide (k < head0) || decide (tail0 ≤ k) || !(scored.any fun y => y.1 == k)
  let best := (sortBy (ranksFirst mode) (scored.filter fun y => !(guarded y.1))).take (c.get .topk)
  let on (k : Nat) : Bool := decide (np ≤ k) || guarded k || best.any fun y => y.1 == k
  wr (outField c .selOut) (c.get .selOut + 512 * v)
    ((List.range 512).map fun i => BitVec.ofNat 8 (bitsWhere 8 fun b => on (8 * i + b)))

end Sys2Proof.Machine
end

