-- ==== Sys2Proof/Machine/RowUnits.lean ====
section
/-! DEFINITION. Row commands and transfers: `softmax` (R171 to R173), `fn` (R167, R170), `norm` (R175 to
R177), `rot` (R295), one transfer of `xfer` (R293) and of `feed` (R192, R294), escape tables that are
written (R42). -/

namespace Sys2Proof.Machine

open Sys2Proof

/-! ## Elements by logical index -/

/-- Whether the strides are dense. -/
def Desc.dense (d : Desc) : Bool :=
  (List.range 6).all fun k => d.str.getD k 0 == (((d.ext.take k).foldl (· * ·) 1 : Nat) : Int)

/-- The coordinates of row `r`: dims 1 to 5 in mixed radix (R269). -/
def Desc.rowCo (d : Desc) (r : Nat) : List Nat :=
  ((d.ext.drop 1).foldl (fun (acc : List Nat × Nat) e => (acc.1 ++ [acc.2 % e], acc.2 / e)) ([], r)).1

/-- The rows of an operand. -/
def Desc.rows (d : Desc) : Nat := (d.ext.drop 1).foldl (· * ·) 1

/-- Raw float elements `i0` to `i0 + n − 1` in logical order. -/
def rdFlat (d : Desc) (fmt i0 n : Nat) : M (List F32) := do
  let z := fsize fmt
  if d.dense then
    let bs ← rd (d.codes + z * i0) (z * n)
    return (List.range n).map fun k => floatOf fmt (leAt bs (z * k) z)
  else (List.range n).mapM fun k => do return floatOf fmt (leNat (← rd (d.addr z (d.coords (i0 + k))) z))

/-- Elements of a tensor as FP32, counting what is consumed: `i0` and `n` are multiples of 32 in a block
format (R26, R39, R40). -/
def rdElems (slot : Nat) (d : Desc) (fmt i0 n : Nat) : M (List F32) := do
  if isFloat fmt then
    let vs ← rdFlat d fmt i0 n
    tallyNan slot (vs.filter f32IsNaN).length
    return vs
  else
    let w := fmtBits fmt
    let cs ← rd (d.codes + i0 * w / 8) (n * w / 8)
    let ss ← rd (d.scales + i0 / 32) (n / 32)
    let bl ← (List.range (n / 32)).mapM fun b => do
      let sc := leAt ss b 1
      let codes := (List.range 32).map fun k => codeAt cs w (32 * b + k)
      tally slot fun m => let m := m.block sc; { m with nan := m.nan + metNaN fmt sc codes }
      chkAll (codes.map (codeF32 fmt sc))
    return bl.flatten

/-- Write float elements in logical order from `i0`. -/
def wrFlat (key : Nat) (d : Desc) (fmt i0 : Nat) (vs : List F32) : M Unit := do
  if vs.any (floatOvf fmt) then overflowM
  let z := fsize fmt
  if d.dense then wr key (d.codes + z * i0) (vs.flatMap (floatBytes fmt))
  else vs.zipIdx.forM fun (v, k) => wr key (d.addr z (d.coords (i0 + k))) (floatBytes fmt v)

/-! ## Output blocks and their escape table (R33, R42) -/

/-- Quantise an output block with o = 2 and keep its escape entry where its scale exceeds `ESC_THR`. -/
def outBlock (c : Cmd) (slot fmt n : Nat) (vs : List F32) : M (Nat × List Nat) := do
  let (sc, codes) ← quantOut slot fmt c.seed 2 n true vs
  if c.nums.escCap != 0 && decide (c.nums.escThr < sc) && sc != 0xFF then
    if vs.any (floatOvf 0) then overflowM
    modify fun r => { r with escs := r.escs ++ [(n, vs.map f32ToBf16)] }
  return (sc, codes)

/-- Write output blocks from logical index `i0` on. -/
def wrBlocks (c : Cmd) (key slot : Nat) (d : Desc) (fmt i0 : Nat) (vs : List F32) : M Unit := do
  let w := fmtBits fmt
  let bl ← (chunksOf 32 vs.length vs).zipIdx.mapM fun (x, b) => outBlock c slot fmt (i0 / 32 + b) (padZero 32 x)
  wr key (d.codes + i0 * w / 8) (packCodes w (bl.flatMap (·.2)))
  wr key (d.scales + i0 / 32) (bl.map fun x => BitVec.ofNat 8 x.1)

/-- An escape entry (Table 02-4). -/
def escEntry (n : Nat) (src : List Nat) : List Byte :=
  leBytes 4 n ++ zeroBytes 4 ++ fitBytes 64 (src.flatMap (leBytes 2)) ++ zeroBytes 56

/-- Write a command's escape table in ascending block index, with its end entry; the first entry that does
not fit faults (R42). -/
def wrEscs (c : Cmd) (es : List (Nat × List Nat)) : M Unit := do
  let n := c.nums
  if n.escCap = 0 then return ()
  let all := (sortBy (fun a b => decide (a.1 < b.1)) es) ++ [(0xFFFFFFFF, [])]
  all.zipIdx.forM fun (e, k) => do
    if k < n.escCap then wr outEsc (n.escOut + 128 * k) (escEntry e.1 e.2)
    else faultM stOVERFLOW 4 2 fun f => { f with addr := n.escOut, akind := 1, arg0 := n.escCap }

/-- Whether a channel command writes an escape table (R42): a `rot` into a block format, or an attention or selecting
command that quantises its streamed operand on the fly and escapes (R73, R105); the backward sweeps write none
(Table 05-3). -/
def Cmd.writesEscs (c : Cmd) : Bool :=
  c.nums.escCap != 0 &&
    (if c.op = opROT then !(isFloat c.nums.fmtO)
    else isFloat c.nums.srcS &&
      (c.op == opFWD || c.op == opDEC || c.op == opRING || c.op == opSELECT && c.get .cmpMode == 0))

/-! ## `softmax` -/

/-- `ROWS` against the planned rows, and `COLS` against dim 0, of both operands (R273). -/
def rowRefs (c : Cmd) (width : Fld) : List Ref :=
  [0, 1].flatMap fun i => extRef c width (c.get width) i 0 ++
    shapeIf (decide ((c.desc i).rows < c.get .rows)) (c.at .rows)

/-- The formats of the family section (R170, R171, R175). -/
def famFmtRefs (c : Cmd) : List Ref :=
  shapeIf (!(isFloat (c.get .fmtI))) (c.at .fmtI) ++ shapeIf (!(isFloat (c.get .fmtOut))) (c.at .fmtOut)

/-- The refusals of a `softmax` at issue. -/
def softmaxRefs (c : Cmd) : List Ref :=
  let shared := sharedRefs c
  if c.param.length < paramNeed c.op then shared
  else
    let causal := bitOf (c.get .mask) 0
    shared ++ famFmtRefs c ++ rowRefs c .cols ++ shapeIf (decide (1 < c.get .mask)) (c.at .mask) ++
      refIf (decide (posLimit < c.get .cols)) stLENGTH (c.at .cols) ++
      refIf (causal && decide (posLimit < c.get .qPos0 + c.get .rows)) stLENGTH (c.at .qPos0) ++
      refIf (causal && decide (posLimit < c.get .kPos0 + c.get .cols)) stLENGTH (c.at .kPos0)

/-- Units of `softmax` and of `norm`: rows. -/
def rowUnits (c : Cmd) : Nat := if c.get .cols = 0 then 0 else c.get .rows

/-- Row `v` of a `softmax` (R172, R173). -/
def softmaxUnit (c : Cmd) (v : Nat) : M Unit := do
  let s ← getS
  let g := genOf s c.gen
  let slot := c.slot 0
  let (dx, dy, n) := (c.desc 0, c.desc 1, c.get .cols)
  -- each of the three passes reads the row (R174)
  let _ ← rdFloats dx (c.get .fmtI) (dx.rowCo v) n
  let _ ← rdFloats dx (c.get .fmtI) (dx.rowCo v) n
  let xs ← rdFloats dx (c.get .fmtI) (dx.rowCo v) n
  let k := scaleK (c.get .scale)
  let seen (j : Nat) : Bool := !(bitOf (c.get .mask) 0) || decide (c.get .kPos0 + j ≤ c.get .qPos0 + v)
  let live := (xs.zipIdx.filter fun (_, j) => seen j)
  let put (os : List F32) (m l : F32) : M Unit := do
    wrFloats 1 dy (c.get .fmtOut) (dy.rowCo v) os
    if c.get .statOut != 0 then
      wr (outField c .statOut) (c.get .statOut + 8 * v) (f32Bytes m ++ f32Bytes l)
  let zs ← live.mapM fun (x, j) => do return (← chkNan slot (f32Mul x k), j)
  match zs with
  | [] =>
    modPipe fun p => { p with empty := p.empty + 1 }
    put (xs.map fun _ => f32Zero) f32Empty f32Empty
  | z0 :: rest =>
    if zs.any fun z => f32IsNaN z.1 then
      modPipe fun p => { p with nan := p.nan + 1 }
      put (xs.map fun _ => f32NaN) f32NaN f32NaN
    else
      let m := rest.foldl (fun acc z => f32Max acc z.1) z0.1
      let es ← zs.mapM fun (z, j) => do return (j, ← chk (exp2 g (← chk (f32Sub z m))))
      let full := (List.range n).map fun j => assocD es j f32Zero
      let l ← chk (tsum full)
      let ps ← (List.range n).mapM fun j => if seen j then chk (f32Div (full.getD j f32Zero) l) else return f32Zero
      let bl ← chk (f32Add m (← chk (log2 g l)))
      put ps m bl

/-! ## `fn` -/

/-- The refusals of an `fn` at issue; `g` is the generation it would take (R167). -/
def fnRefs (g : TableGen) (c : Cmd) : List Ref :=
  let shared := sharedRefs c
  if c.param.length < paramNeed c.op then shared
  else shared ++ famFmtRefs c ++
    ([0, 1].flatMap fun i => shapeIf (decide ((c.desc i).size < c.get .count)) (c.at .count)) ++
    refIf (decide (4 ≤ c.get .fnNo) && (g.table (c.get .fnNo)).isNone) stTABLE (c.at .fnNo)

def fnUnits (c : Cmd) : Nat := ceilDiv (c.get .count) 65536

/-- Elements 65,536 v to 65,536 v + 65,535 of an `fn`. -/
def fnUnit (c : Cmd) (v : Nat) : M Unit := do
  let s ← getS
  let g := genOf s c.gen
  let i0 := 65536 * v
  let n := min 65536 (c.get .count - i0)
  let xs ← rdFlat (c.desc 0) (c.get .fmtI) i0 n
  let ys ← xs.mapM fun x => chkNan (c.slot 0) (fnEval g (c.get .fnNo) x)
  wrFlat 1 (c.desc 1) (c.get .fmtOut) i0 ys

/-! ## `norm` -/

/-- The refusals of a `norm` at issue (R175). -/
def normRefs (c : Cmd) : List Ref :=
  let shared := sharedRefs c
  if c.param.length < paramNeed c.op then shared
  else
    let eps := f32Entry (BitVec.ofNat 32 (c.get .eps))
    shared ++ famFmtRefs c ++ rowRefs c .cols ++ shapeIf (decide (posLimit < c.get .cols)) (c.at .cols) ++
      shapeIf (f32IsNaN eps || f32Neg eps && !(f32IsZero eps)) (c.at .eps)

/-- A vector of γ or β. -/
def rdVector (va fmt n : Nat) : M (List F32) := do
  let z := fsize fmt
  let bs ← rd va (z * n)
  return (List.range n).map fun k => floatOf fmt (leAt bs (z * k) z)

/-- A zero variance: the reciprocal of row `v` has no finite value (R176, Table 15-2). -/
def zeroVarM {α : Type} (v : Nat) : M α := faultM stOVERFLOW 4 3 fun f => { f with arg0 := v }

/-- Row `v` of a `norm` (R176). DESIGN CHOICE (log 75): a NaN row of root-mean-square mode writes NaN outputs, and the
mean +0 that the rule computes beside r = NaN in `STAT_OUT`. -/
def normUnit (c : Cmd) (v : Nat) : M Unit := do
  let slot := c.slot 0
  let (dx, dy, n) := (c.desc 0, c.desc 1, c.get .cols)
  let xs ← rdFloats dx (c.get .fmtI) (dx.rowCo v) n
  tallyNan slot (xs.filter f32IsNaN).length
  let rms := c.get .mode == 1
  let sh := if c.get .shiftMode = 1 then xs.headD f32Zero else f32Entry (BitVec.ofNat 32 (c.get .shift))
  let nf := f32OfNat n
  let ys ← if rms then pure xs else chkAll (xs.map fun x => f32Sub x sh)
  let qs ← chkAll (ys.map fun y => f32Mul y y)
  let s1 ← if rms then pure f32Zero else chk (tsum ys)
  let ms ← chk (f32Div (← chk (tsum qs)) nf)
  let (var, mean) ← if rms then pure (ms, f32Zero)
    else do
      let my ← chk (f32Div s1 nf)
      let var ← chk (f32Sub ms (← chk (f32Mul my my)))
      let neg := !(f32IsNaN var) && f32Lt var f32Zero
      if neg then modPipe fun p => { p with norm := p.norm + 1 }
      pure (if neg then f32Zero else var, ← chk (f32Add sh my))
  let vv ← chk (f32Add var (f32Entry (BitVec.ofNat 32 (c.get .eps))))
  if f32IsZero vv then zeroVarM v
  let r ← chk (f32Rsqrt vv)
  let os ← if f32IsNaN mean || f32IsNaN r then do
      modPipe fun p => { p with nan := p.nan + 1 }
      pure (xs.map fun _ => f32NaN)
    else do
      let o ← if rms then pure xs else chkAll (xs.map fun x => f32Sub x mean)
      let o ← chkAll (o.map fun x => f32Mul x r)
      let o ← if c.get .gamma = 0 then pure o
        else do
          let gs ← rdVector (c.get .gamma) (c.get .fmtI) n
          tallyNan slot (gs.filter f32IsNaN).length
          chkAll (o.zipWith f32Mul gs)
      if c.get .beta = 0 then pure o
      else
        let bs ← rdVector (c.get .beta) (c.get .fmtI) n
        tallyNan slot (bs.filter f32IsNaN).length
        chkAll (o.zipWith f32Add bs)
  wrFloats 1 dy (c.get .fmtOut) (dy.rowCo v) os
  if c.get .statOut != 0 then
    wr (outField c .statOut) (c.get .statOut + 8 * v) (f32Bytes mean ++ f32Bytes r)

/-! ## `rot` -/

/-- The position base of each dim-4 coordinate that the rows reach: `POS0`, or the table (Table 11-11). -/
def rotBases (c : Cmd) : M (List Nat) := do
  let d := c.desc 0
  let per := max 1 (d.e 1 * d.e 2 * d.e 3)
  let nb := min (d.e 4) (ceilDiv (c.get .rows) per)
  if c.get .posTab = 0 then return List.replicate nb (c.get .pos0)
  else
    let bs ← rd (c.get .posTab) (4 * nb)
    return (List.range nb).map fun b => leAt bs (4 * b) 4

/-- The refusals of a `rot` at issue. -/
def rotRefs (c : Cmd) : M (List Ref) := do
  let n := c.nums
  let shared := sharedRefs c
  if c.param.length < paramNeed c.op then return shared
  let d := c.desc 0
  let (hd, rd_) := (c.get .hdim, c.get .rotDim)
  let bases ← rotBases c
  let per := max 1 (d.e 1 * d.e 2 * d.e 3)
  let top := bases.zipIdx.foldl (fun acc (p, b) =>
    let k := min per (c.get .rows - b * per)
    max acc (p + (if d.e 1 * d.e 2 ≤ k then d.e 2 else ceilDiv k (max 1 (d.e 1))))) 0
  return shared ++ shapeIf (!(isFloat n.srcS)) atSrcS ++ shapeIf (!(isConv n.fmtO)) atFmtO ++
    shapeIf (hd == 0 || decide (128 < hd) || hd % 2 != 0) (c.at .hdim) ++
    shapeIf (rd_ % 2 != 0 || decide (hd < rd_)) (c.at .rotDim) ++ rowRefs c .hdim ++
    refIf (decide (posLimit < top)) stLENGTH (if c.get .posTab = 0 then c.at .pos0 else noField)

def rotUnits (c : Cmd) : Nat := ceilDiv (c.get .rows) 2048

/-- Cosine and sine of p × f turns, exact up to one rounding. -/
def turns (g : TableGen) (p : Nat) (f : F32) : F32 × F32 :=
  match g.table 2 with
  | none => (f32NaN, f32NaN)
  | some t =>
    if f32IsNaN f then (f32NaN, f32NaN)
    else
      let (n, sh) := f32Fixed f
      (fnSinAt t (n * (p : Int)) sh 1, fnSinAt t (n * (p : Int)) sh 0)

/-- Rows 2,048 v to 2,048 v + 2,047 of a `rot`. -/
def rotUnit (c : Cmd) (v : Nat) : M Unit := do
  let s ← getS
  let g := genOf s c.gen
  let n := c.nums
  let slot := c.slot 0
  let (dx, dy, hd, rd_) := (c.desc 0, c.desc 1, c.get .hdim, c.get .rotDim)
  let bases ← rotBases c
  let fs ← if rd_ = 0 then pure [] else rdVector (c.get .freq) 1 (rd_ / 2)
  let half := rd_ / 2
  let r0 := 2048 * v
  (List.range (min 2048 (c.get .rows - r0))).forM fun k => do
    let co := dx.rowCo (r0 + k)
    let p := bases.getD (co.getD 3 0) 0 + co.getD 1 0
    let xs ← rdFloats dx n.srcS co hd
    tallyNan slot (xs.filter f32IsNaN).length
    let cs := fs.map (turns g p)
    tallyNan slot (2 * (cs.filter fun t => f32IsNaN t.1).length)
    let at_ (i : Nat) : F32 := xs.getD i f32Zero
    let os ← (List.range hd).mapM fun i => do
      if rd_ ≤ i then return at_ i
      let j := if c.get .pairing = 0 then i / 2 else i % half
      let isA := if c.get .pairing = 0 then i % 2 == 0 else decide (i < half)
      let (a, b) := if c.get .pairing = 0 then (at_ (2 * j), at_ (2 * j + 1)) else (at_ j, at_ (j + half))
      let (co_, si) := cs.getD j (f32NaN, f32NaN)
      if isA then chk (f32Sub (← chk (f32Mul a co_)) (← chk (f32Mul b si)))
      else chk (f32Add (← chk (f32Mul a si)) (← chk (f32Mul b co_)))
    let yco := dy.rowCo (r0 + k)
    if isFloat n.fmtO then wrFloats 1 dy n.fmtO yco os
    else wrBlocks c 1 slot dy n.fmtO (dy.index (0 :: yco)) (padZero (dy.e 0) os)

/-! ## `xfer` -/

/-- The refusals of an `xfer` at issue (R293). -/
def xferRefs (c : Cmd) : List Ref :=
  let n := c.nums
  let shared := sharedRefs c
  if c.param.length < paramNeed c.op then shared
  else shared ++ shapeIf (!(isConv n.srcS)) atSrcS ++ shapeIf (!(isConv n.fmtO)) atFmtO ++
    ((List.range 6).flatMap fun k =>
      shapeIf ((c.desc 0).e k != (c.desc 1).e k) (inParam (descOff c.op 1 + 32 + 4 * k)))

/-- One transfer of an `xfer`: the bytes it writes. -/
def xferOnce (c : Cmd) : M Nat := do
  bounceAll c
  let n := c.nums
  let (ds, dd) := (c.desc 0, c.desc 1)
  let z := ds.size
  let slot := c.slot 0
  let vs ← rdElems slot ds n.srcS 0 z
  if isFloat n.fmtO then
    wrFlat 1 dd n.fmtO 0 vs
    return z * fsize n.fmtO
  else
    wrBlocks c 1 slot dd n.fmtO 0 vs
    let es := (← get).escs
    wrEscs c es
    modify fun r => { r with escs := [] }
    return codeBytes n.fmtO z + z / 32

/-! ## `feed` -/

/-- The refusals of a `feed` at issue (R294). -/
def feedRefs (s : State) (p : Nat) (c : Cmd) : List Ref :=
  let shared := sharedRefs c
  if c.param.length < paramNeed c.op then shared
  else
    let ports := c.get .ports
    shared ++ shapeIf (!(isConv c.nums.srcS)) atSrcS ++ shapeIf ((c.desc 0).codes % Config.granule != 0) (inParam (descOff c.op 0)) ++
      shapeIf (ports == 0) (c.at .ports) ++
      refIf ((bitsOf 32 ports).any fun f => !(bitOf (partFP s p) f) || !(fabLive s f)) stABSENT (c.at .ports)

/-- One transfer of a `feed`: at step k the i-th port takes granule (i + k) mod G, in writes of one row
each (R192, R294); the bytes it sends. -/
def feedOnce (c : Cmd) : M Nat := do
  bounceAll c
  let total := codeBytes c.nums.srcS (c.desc 0).size
  let gs := ceilDiv total Config.granule
  let ports := bitsOf 32 (c.get .ports)
  (List.range gs).forM fun k =>
    ports.zipIdx.forM fun (f, i) => do
      let g := (i + k) % gs
      let n := min Config.granule (total - g * Config.granule)
      let bs ← rd ((c.desc 0).codes + g * Config.granule) n
      let base := (c.get .fabBase + g * Config.granule) % 2 ^ 64
      modify fun r =>
        let s := (cutRun 512 n base bs).foldl (fun s (a, piece) =>
          iqAdd s f { tag := 0, engine := true, write := true, addr := a, bytes := piece.length,
                      data := piece, owner := r.ctx.owner, limit := 0, sent := 0 }) r.s
        { r with s := s, outs := noteOut r.outs (outPort f) base (base + n) }
  return total * ports.length

end Sys2Proof.Machine
end

