-- ==== Sys2Proof/Machine/Pool.lean ====
section
/-! DEFINITION. The page manager: frame records and free lists (R227, R229), pins (R225), the tables of
a new instar by copy on write (R209 to R211, R215, R228, R232), what `seq.append` and the other edits do
to pages (R218 to R224), summaries (R220), score updates (R152). -/

namespace Sys2Proof.Machine

open Sys2Proof

/-! ## Signals of an edit that cannot go on yet -/

/-- No free granule in the table area (R228); a wait for slow-tier frames or for a slot that a pinned
instar selects (R245, R250). Neither is a status of Table 11-19. -/
def stWAITNODE : Nat := 0x100
def stWAITPAGE : Nat := 0x101
/-- No pin slot is free (R225). -/
def stWAITPIN : Nat := 0x103
/-- The writes of a victim's park are not all answered (R253). -/
def stWAITPARK : Nat := 0x104

/-! ## Accesses of POOL -/

def partM : M Nat := do return (← get).ctx.part
def getP : M Pool := do return pool (← getS) (← partM)
def modP (f : Pool → Pool) : M Unit := do
  let p ← partM
  modS fun s => updPool s p f
def shapeM : M Shape := do return shapeOf (← getS) [] (← partM)
def modTx (f : Tx → Tx) : M Unit := modify fun r => { r with tx := f r.tx }

/-- Write at a physical address. -/
def tabWr (pa : Nat) (bs : List Byte) : M Unit := do
  let r ← get
  if !(present r.s pa) then faultM stABORTED 3 3 fun f => { f with addr := pa, akind := 2 }
  else
    match rowsWrite r.s { r.ctx.who with cls := 0 } pa bs with
    | (s, .ok _) => set { r with s := s }
    | (s, .bad st d) => set { r with s := s }; throw (st, d)

def granuleBytes : Nat := Config.granule

/-! ## Frame records (R227) -/

/-- The physical address of the record of frame `f`. -/
def frameRecAt (s : State) (p f : Nat) : Nat :=
  ((pool s p).frameTab.getD (f / 4096) 0) * Config.granule + 8 * (f % 4096)

/-- Frame states (Table 09-13). -/
def frFREE : Nat := 0
def frRESERVED : Nat := 1
def frLIVE : Nat := 2
def frRETIRING : Nat := 3

def frameRec (state count low : Nat) : Nat := state * 2 ^ 60 + count * 2 ^ 40 + low

/-- Put a frame record in one write. -/
def putFrame (s : State) (p f v : Nat) : State :=
  (rowsWrite s (Who.block 0) (frameRecAt s p f) (leBytes 8 v)).1

/-- The reference count of a frame. -/
def frameCount (f : Nat) : M Nat := do
  let p ← partM
  return field (leNat (← tabRd (frameRecAt (← getS) p f) 8)) 40 20

/-- Whether a frame is in the slow tier. -/
def isSlowFrame (s : State) (p f : Nat) : Bool := decide ((shapeOf s [] p).frames ≤ f)

/-- Put a frame at the tail of its free list. DESIGN CHOICE (log 41): the link of the last free record is 0, and so are bits
[39:0] of the records of frames that are not free, which R227 leaves open. -/
def freeTail (s : State) (p f : Nat) : State :=
  let slow := isSlowFrame s p f
  let l := if slow then (pool s p).slowFree else (pool s p).free
  let s := match l.getLast? with
    | some t => putFrame s p t (frameRec frFREE 0 f)
    | none => s
  let s := putFrame s p f (frameRec frFREE 0 0)
  updPool s p fun x =>
    if slow then { x with slowFree := x.slowFree ++ [f] } else { x with free := x.free ++ [f] }

/-! ## Instars and pins (R225 to R228) -/

/-- Whether instar `a` is at or before `b`, modulo 2⁴⁰ (R226). -/
def instarLe (a b : Nat) : Bool := decide ((b + 2 ^ 40 - a) % 2 ^ 40 < 2 ^ 39)

/-- P_min: the oldest pinned instar, or the current one. -/
def oldest (x : Pool) : Nat :=
  x.pins.foldl (fun acc q => if instarLe q.instar acc then q.instar else acc) x.instar

/-- Return what has died at or before P_min: frames by death then number, and granules (R227, R228). Deaths are compared
modulo 2⁴⁰ (R226). -/
def reclaim (s : State) (p : Nat) : State :=
  let x := pool s p
  let m := oldest x
  let age (n : Nat) : Nat := (m + 2 ^ 40 - n) % 2 ^ 40
  let back := sortBy (fun a b => decide (age b.2 < age a.2 ∨ a.2 = b.2 ∧ a.1 < b.1))
    (x.retiring.filter fun e => instarLe e.2 m)
  let gone := (x.retired.filter fun e => instarLe e.2 m).map (·.1)
  let s := updPool s p fun x =>
    { x with
      retiring := x.retiring.filter fun e => !(instarLe e.2 m)
      retired := x.retired.filter fun e => !(instarLe e.2 m)
      nodes := x.nodes.filter fun g => !(gone.contains g) }
  back.foldl (fun s e => bump (freeTail s p e.1) p pgPOOL 0xF34 1) s

/-- Pin the current instar: commands that pin one instar share a slot. `none`: no slot is free. -/
def takePin (s : State) (p : Nat) : Option State :=
  let x := pool s p
  if x.pins.any fun q => q.instar == x.instar then
    some (updPool s p fun x =>
      { x with pins := x.pins.map fun q => if q.instar = x.instar then { q with count := q.count + 1 } else q })
  else if x.pins.length < Config.pinSlots then
    some (updPool s p fun x => { x with pins := x.pins ++ [{ instar := x.instar, root := x.root, count := 1 }] })
  else none

/-- Release a pin of an instar, then return what it held back. -/
def dropPin (s : State) (p instar : Nat) : State :=
  let s := updPool s p fun x =>
    { x with
      pins := (x.pins.map fun q => if q.instar = instar then { q with count := q.count - 1 } else q).filter
        fun q => q.count != 0 }
  reclaim s p

/-- The root that a pin holds. -/
def pinRoot (x : Pool) (instar : Nat) : Option Nat := (x.pins.find? fun q => q.instar == instar).map (·.root)

/-- Whether an edit may start as far as instar numbers go (R226). -/
def instarRoom (x : Pool) : Bool := decide ((x.instar + 1 + 2 ^ 40 - oldest x) % 2 ^ 40 < 2 ^ 39)

/-! ## Granules of the table area -/

/-- The lowest granule of `[base, base + size)` that an ascending list does not hold. -/
def lowestFree (nodes : List Nat) (base size : Nat) : Option Nat :=
  let k := nodes.foldl (fun k g => if g = k then k + 1 else k) base
  if k < base + size then some k else none

/-- Take a free granule of a partition's table area. -/
def takeGranule (s : State) (p : Nat) : Option (State × Nat) :=
  match lowestFree (pool s p).nodes (xlatField s [] p 0) (xlatField s [] p 1) with
  | none => none
  | some g => some (updPool s p fun x => { x with nodes := insertAsc g x.nodes }, g)

def takeNode : M Nat := do
  let p ← partM
  match takeGranule (← getS) p with
  | none => throw (stWAITNODE, 0)
  | some (s, g) =>
    modS fun _ => s
    modTx fun t => { t with own := g :: t.own, dirty := true }
    return g

/-- A fresh node, all zero. -/
def newNode : M Nat := do
  let g ← takeNode
  tabWr (g * Config.granule) (zeroBytes Config.granule)
  return g

/-- A granule of the edit's own with the contents of `g`: `g` itself where the edit took it. -/
def ownCopy (g : Nat) : M Nat := do
  if (← get).tx.own.contains g then return g
  let n ← takeNode
  let bs ← tabRd (g * Config.granule) Config.granule
  tabWr (n * Config.granule) bs
  if g != noRoot then modTx fun t => { t with drop := g :: t.drop }
  return n

/-- A granule leaves the tables: one that the edit took goes back at once. -/
def dropNode (g : Nat) : M Unit := do
  if (← get).tx.own.contains g then
    modTx fun t => { t with own := t.own.filter (· != g) }
    modP fun x => { x with nodes := x.nodes.filter (· != g) }
  else modTx fun t => { t with drop := g :: t.drop }

def entRd (g i : Nat) : M Nat := do return leNat (← tabRd (g * Config.granule + 8 * i) 8)
def entWr (g i v : Nat) : M Unit := tabWr (g * Config.granule + 8 * i) (leBytes 8 v)

/-- The root of the instar being built, copied when first changed. -/
def ownRoot : M Nat := do
  let t := (← get).tx
  let g ← ownCopy t.root
  modTx fun t => { t with root := g }
  return g

/-- The child of a node at an index, of the edit's own; made where there is none and `make` holds. -/
def ownChild (g i : Nat) (make : Bool) : M (Option Nat) := do
  let e ← entRd g i
  if bitOf e 0 then
    let c ← ownCopy (e / Config.granule)
    if c * Config.granule + 1 != e then entWr g i (c * Config.granule + 1)
    return some c
  else if make then
    let c ← newNode
    entWr g i (c * Config.granule + 1)
    return some c
  else return none

/-- The level 2 node of a sequence. -/
def ownSeqNode (seq : Nat) (make : Bool) : M (Option Nat) := do
  let r ← ownRoot
  match ← ownChild r (16 + seq / 4096) make with
  | none => return none
  | some l1 => ownChild l1 (seq % 4096) make

/-- Put a leaf of the pool region, zero to clear it; a leaf node left without a leaf is dropped (R209). -/
def putLeaf (va e : Nat) : M Unit := do
  match ← ownSeqNode (field va 39 16) (e != 0) with
  | none => return ()
  | some l2 =>
    match ← ownChild l2 (vaIndex va 2) (e != 0) with
    | none => return ()
    | some l3 =>
      entWr l3 (vaIndex va 3) e
      if e = 0 then
        if allZero (← tabRd (l3 * Config.granule) Config.granule) then
          entWr l2 (vaIndex va 2) 0
          dropNode l3

/-- Drop a sequence's level 2 node and its leaf nodes (R224). -/
def dropSeqNode (seq : Nat) : M Unit := do
  let r ← ownRoot
  match ← ownChild r (16 + seq / 4096) false with
  | none => return ()
  | some l1 =>
    let e ← entRd l1 (seq % 4096)
    if bitOf e 0 then
      let l2 := e / Config.granule
      let bs ← tabRd (l2 * Config.granule) Config.granule
      (List.range 4096).forM fun i => do
        let x := leAt bs (8 * i) 8
        if bitOf x 0 then dropNode (x / Config.granule)
      dropNode l2
      entWr l1 (seq % 4096) 0

/-- A granule of records or lengths, of the edit's own (Table 09-5). -/
def ownTable (i : Nat) : M Nat := do
  let r ← ownRoot
  let e ← entRd r i
  if e = 0 then
    let g ← newNode
    entWr r i (g * Config.granule)
    return g
  else
    let g ← ownCopy (e / Config.granule)
    if g * Config.granule != e then entWr r i (g * Config.granule)
    return g

/-- Set a sequence's record and its length at a layer in the instar being built. -/
def putSeqRec (seq : Nat) (x : SeqRec) : M Unit := do
  let g ← ownTable (64 + seq / 2048)
  tabWr (g * Config.granule + 16 * (seq % 2048)) x.bytes

def putLen (seq layer n : Nat) : M Unit := do
  let g ← ownTable (2048 + 8 * layer + seq / 8192)
  tabWr (g * Config.granule + 4 * (seq % 8192)) (leBytes 4 n)

/-- The root that the edit reads: the instar being built. -/
def txRoot : M Nat := do return (← get).tx.root

/-! ## Pages -/

/-- The leaf bits [63:56] of a page (Table 09-6): `SUM`, `SLOT`, `CMPCT`. -/
structure PageBits where
  sum   : Bool
  slot  : Nat
  cmpct : Bool
  deriving DecidableEq, Repr

def PageBits.of (leaf : Nat) : PageBits := { sum := leafSum leaf, slot := leafSlot leaf, cmpct := leafCmpct leaf }
def PageBits.fresh : PageBits := { sum := false, slot := 0, cmpct := false }

/-- The leaf of granule `k` of a page in frame `f`. -/
def leafOf (s : State) (p f k : Nat) (b : PageBits) : Nat :=
  frameAddr s [] p f + k * Config.granule + 1 +
    ((if isSlowFrame s p f then 64 else 0) + (if b.sum then 32 else 0) + b.slot % 2 * 16 +
      (if b.cmpct then 8 else 0) + k % 4 * 2) * 2 ^ 56

/-- Map a page onto a frame. -/
def mapPage (seq layer head page f : Nat) (b : PageBits) : M Unit := do
  let h ← shapeM
  let p ← partM
  let s ← getS
  (List.range h.fg).forM fun k => putLeaf (pageVA h seq layer head page + k * Config.granule) (leafOf s p f k b)

def unmapPage (seq layer head page : Nat) : M Unit := do
  let h ← shapeM
  (List.range h.fg).forM fun k => putLeaf (pageVA h seq layer head page + k * Config.granule) 0

/-- A page of the instar being built, with its frame. -/
structure Page where
  seq   : Nat
  layer : Nat
  head  : Nat
  page  : Nat
  frame : Nat
  at_   : PageAt
  deriving DecidableEq, Repr

def findPage (root seq layer head page : Nat) : M (Option Page) := do
  let h ← shapeM
  let p ← partM
  let s ← getS
  match ← pageAt root h seq layer head page with
  | none => return none
  | some a => return some { seq := seq, layer := layer, head := head, page := page,
                            frame := frameAt s p a.base, at_ := a }

def Page.bits (g : Page) : PageBits := PageBits.of g.at_.leaf
def Page.va (g : Page) (h : Shape) : Nat := pageVA h g.seq g.layer g.head g.page

/-- The mapped pages of a sequence at a layer and head, ascending. -/
def pagesOf (root seq layer head : Nat) : M (List Page) := do
  let n := ceilDiv (← seqLen root seq layer) 256
  let ps ← (List.range n).mapM fun k => findPage root seq layer head k
  return ps.filterMap id

/-- The mapped pages of a sequence, by layer, head and page. -/
def allPagesOf (root seq : Nat) : M (List Page) := do
  let h ← shapeM
  let ls ← (List.range h.layers).mapM fun l =>
    (List.range h.hkv).mapM fun hd => pagesOf root seq l hd
  return (ls.map List.flatten).flatten

/-- The sequences of an instar that are not `CLOSED`, ascending. -/
def liveSeqs (root : Nat) : M (List (Nat × SeqRec)) := do
  let ls ← (List.range 32).mapM fun i => do
    let e ← entRd root (64 + i)
    if e = 0 then return []
    else
      let bs ← tabRd e Config.granule
      return (List.range 2048).filterMap fun k =>
        let r := SeqRec.ofBytes ((bs.drop (16 * k)).take 16)
        if r.state = 0 then none else some (2048 * i + k, r)
  return ls.flatten

/-! ## Frames of an edit -/

/-- Change a frame's reference count in the new instar. -/
def refFrame (f : Nat) (d : Int) : M Unit := modTx fun t => { t with refs := assocSet t.refs f (assocD t.refs f 0 + d) }

/-- Whether POOL may take a frame: not in a lost slice, nor on a port that is lost, not ready or draining
(R398, R400). -/
def frameOk (s : State) (p f : Nat) : Bool :=
  let a := frameAddr s [] p f
  if isStore a then !(slice s (sliceOf a)).lost
  else portReady s (portOf a) && !(slowP s (portOf a)).draining && !(slowP s (portOf a)).lost

/-- Take a frame out of its free list: the record before it links on. -/
def unlinkFrame (s : State) (p f : Nat) : State :=
  let slow := isSlowFrame s p f
  let l := if slow then (pool s p).slowFree else (pool s p).free
  let before := l.takeWhile (· != f)
  let after := (l.dropWhile (· != f)).drop 1
  let s := match before.getLast? with
    | some t => putFrame s p t (frameRec frFREE 0 (after.headD 0))
    | none => s
  updPool s p fun x => if slow then { x with slowFree := before ++ after } else { x with free := before ++ after }

/-- Take the first frame of a free list that may be taken, frames in the slices of `skip` left out (R229,
R381). -/
def takeFrameBut (slow : Bool) (skip : Nat) : M Nat := do
  let x ← getP
  let p ← partM
  let s ← getS
  let ok (f : Nat) : Bool :=
    frameOk s p f && !(isStore (frameAddr s [] p f) && bitOf skip (sliceOf (frameAddr s [] p f)))
  match (if slow then x.slowFree else x.free).find? ok with
  | none => throw (stNOFRAME, 0)
  | some f =>
    modS fun s => putFrame (unlinkFrame s p f) p f (frameRec frRESERVED 0 0)
    modTx fun t => { t with taken := t.taken ++ [f] }
    return f

def takeFrame (slow : Bool) : M Nat := takeFrameBut slow 0

/-- The physical address of a frame. -/
def frameBase (f : Nat) : M Nat := do return frameAddr (← getS) [] (← partM) f

/-- Read and write bytes of a frame. -/
def frRd (f off n : Nat) : M (List Byte) := do tabRd ((← frameBase f) + off) n
def frWr (f off : Nat) (bs : List Byte) : M Unit := do tabWr ((← frameBase f) + off) bs

/-- The rows of a frame in order, as POOL copies them: a row that cannot be read is logged and the copy goes on (R188); the
first failure is kept. -/
def frameRows (src : Nat) : M (List (List Byte) × Option (Nat × Nat)) := do
  let h ← shapeM
  (List.range (h.bytes / Config.rowBytes)).foldlM (fun (acc : List (List Byte) × Option (Nat × Nat)) k =>
    tryCatch (do return (acc.1 ++ [← frRd src (k * Config.rowBytes) Config.rowBytes], acc.2))
      fun e => if e.1 = stECC then return (acc.1 ++ [[]], acc.2.or (some e)) else throw e) ([], none)

/-- The copies of some frames fail once each is done, where a row of one could not be read (R188). -/
def failCopy (es : List (Option (Nat × Nat))) : M Unit :=
  match es.findSome? id with
  | some e => throw e
  | none => return ()

/-- Copy every row of a frame (R463), but for those that cannot be read; then the copy fails. -/
def copyFrame (src dst : Nat) : M Unit := do
  modTx fun t => { t with copied := t.copied + 1 }
  let (rows, bad) ← frameRows src
  rows.zipIdx.forM fun (bs, k) => if bs.isEmpty then return () else frWr dst (k * Config.rowBytes) bs
  failCopy [bad]

/-- The header of a frame (Table 09-3), both occupancy slots given. -/
def headerBytes (occ0 occ1 seq layer head page : Nat) : List Byte :=
  leBytes 32 occ0 ++ leBytes 32 occ1 ++ leBytes 4 seq ++ leBytes 2 layer ++ zeroBytes 2 ++ leBytes 4 head ++
    leBytes 2 page ++ zeroBytes 434

/-- Zero-fill a frame and write its header. -/
def freshFrame (f seq layer head page : Nat) : M Unit := do
  let h ← shapeM
  frWr f 0 (zeroBytes h.bytes)
  frWr f h.hdr (headerBytes 0 0 seq layer head page)

/-- Whether a page's frame is private: a count of 1 and not compacted (R152, R247). -/
def isPrivate (g : Page) : M Bool := do
  if leafCmpct g.at_.leaf then return false
  return (← frameCount g.frame) + assocD (← get).tx.refs g.frame 0 == 1

/-- The occupied slots of a page: the bitmap of its slot, or its own entries of the position map. -/
def pageOcc (h : Shape) (g : Page) : M Nat := do
  if leafCmpct g.at_.leaf then
    let bs ← frRd g.frame h.map 1024
    return bitsWhere 256 fun j => decide (leAt bs (4 * j) 4 = g.page)
  else return leNat (← frRd g.frame (h.hdr + 32 * leafSlot g.at_.leaf) 32)

/-! ## Summaries (R220) -/

/-- K of the occupied slots of a frame as FP32 values, by slot. -/
def keyValues (h : Shape) (f occ : Nat) : M (List (Nat × List F32)) := do
  let w := fmtBits h.fmtK
  let cs ← frRd f 0 (256 * h.dp * w / 8)
  let ss ← frRd f h.kScale (8 * h.dp)
  return (bitsOf 256 occ).map fun j =>
    (j, (List.range h.dp).map fun k =>
      codeF32 h.fmtK (leAt ss (j * (h.dp / 32) + k / 32) 1) (codeAt cs w (j * h.dp + k)))

/-- The block index of a summary block. -/
def summaryIndex (seq layer head page b : Nat) : Nat :=
  (((seq * 256 + layer) * 2 ^ 16 + head) * 2 ^ 12 + page) * 16 + b

/-- A summary slot of a page: the mean row, then the bound row where the format has one: eight bound blocks of
16 pairs, lo at even and hi at odd index, each with its own scale (R72, R220, log 30). What quantising them counts
falls into head slot `slot` (R33, R39). -/
def summaryBytes (h : Shape) (slot seed seq layer head page : Nat) (vs : List (Nat × List F32)) : M (List Byte) := do
  let n := f32OfNat vs.length
  let col (k : Nat) : List F32 := vs.map fun v => v.2.getD k f32Zero
  let leaf (k j : Nat) : F32 := ((vs.find? fun v => v.1 == j).map fun v => v.2.getD k f32Zero).getD f32Zero
  let mean ← (List.range h.dp).mapM fun k => do
    chk (f32Div (← chk (tsum ((List.range 256).map (leaf k)))) n)
  let w := fmtBits h.fmtSum
  let block (b : Nat) (xs : List F32) : M (Nat × List Nat) :=
    quantOut slot h.fmtSum seed 5 (summaryIndex seq layer head page b) false xs
  let mb ← (List.range (h.dp / 32)).mapM fun b => block b ((mean.drop (32 * b)).take 32)
  let part (codes scales : Nat) (qs : List (Nat × List Nat)) : List Byte :=
    fitBytes codes (packCodes w (qs.flatMap (·.2))) ++ fitBytes scales (qs.map fun q => BitVec.ofNat 8 q.1)
  let meanPart := part 128 384 mb
  if [8, 9, 10].contains h.fmtSum then
    let pick (f : F32 → F32 → F32) (k : Nat) : F32 :=
      match col k with
      | [] => f32Zero
      | x :: rest => if (x :: rest).any f32IsNaN then f32NaN else rest.foldl f x
    let pairs := (List.range h.dp).flatMap fun k => [pick f32Min k, pick f32Max k]
    let bb ← (List.range (2 * h.dp / 32)).mapM fun b => block (4 + b) ((pairs.drop (32 * b)).take 32)
    return meanPart ++ part 256 256 bb
  else return meanPart ++ zeroBytes 512

/-- Make the summary of a page into summary slot `slot` of its frame; its counts fall into head slot `mon`. -/
def writeSummary (mon seq layer head page f occ slot : Nat) : M Unit := do
  let h ← shapeM
  let s ← getS
  let p ← partM
  let seed := poolField s [] p 5 + poolField s [] p 6 * 2 ^ 32
  let vs ← keyValues h f occ
  let bs ← summaryBytes h mon seed seq layer head page vs
  frWr f (h.sum + 1024 * slot) bs

/-! ## Running an edit -/

/-- Begin an edit on the current instar. -/
def beginTx : M Unit := do
  let x ← getP
  modTx fun _ => { Tx.none with root := x.root }

/-- The new instar becomes current: reference counts, retirements, the switch of the root (R227 to R229). -/
def commitTx : M Unit := do
  let t := (← get).tx
  if !t.dirty then return ()
  let p ← partM
  let n := ((← getP).instar + 1) % 2 ^ 40
  entWr t.root 32 n
  let fs := (t.refs.map (·.1)).filter fun f => !(t.taken.contains f)
  fs.forM fun f => do
    let d := assocD t.refs f 0
    if d != 0 then
      let c := ((((← frameCount f) : Nat) : Int) + d).toNat
      if c = 0 then
        modS fun s => bump (putFrame s p f (frameRec frRETIRING 0 n)) p pgPOOL 0xF30 1
        modP fun x => { x with retiring := x.retiring ++ [(f, n)] }
      else modS fun s => putFrame s p f (frameRec frLIVE c 0)
  t.taken.forM fun f => do
    let c := (assocD t.refs f 0).toNat
    if c = 0 then modS fun s => freeTail s p f
    else modS fun s => putFrame s p f (frameRec frLIVE c 0)
  modP fun x =>
    { x with
      root := t.root
      instar := n
      retired := x.retired ++ t.drop.map fun g => (g, n) }
  modTx fun _ => Tx.none
  modS fun s => reclaim s p

/-- The counters after an edit that failed: those of `POOL` as before it, those of rows and of translation as they are
(R188, R200). -/
def undoCounts (before after : Words) : Words :=
  let ofPool (e : Nat × Word) : Bool := e.1 % 0x1000000 / 0x1000 == pgPOOL
  (before.filter ofPool).foldl (fun w e => wordsSet w e.1 0 e.2) (after.filter fun e => !(ofPool e))

/-- The state after an edit that failed: nothing of it in memory, the frames it took at the tail of their
free lists (R215, R229); its fault record, the corrections it met and what they counted stay. -/
def undoEdit (before after : Run) : State :=
  let p := before.ctx.part
  let took := after.tx.taken
  let s := { after.s with
    mem := before.s.mem
    live := undoCounts before.s.live after.s.live }
  let s := updPool s p fun _ => pool before.s p
  took.foldl (fun s f => freeTail (unlinkFrame s p f) p f) s

/-- Run an edit whole: its instar is current afterwards, or nothing of it happened. One that waits for granules (R228),
for an answer, for host memory or for the release of a pin (R226) is tried again later, and has taken nothing yet. -/
def editM {α : Type} (m : M α) : M α := do
  if !(instarRoom (← getP)) then throw (stWAITPIN, 0)
  let before ← get
  let go : M α := do
    beginTx
    let a ← m
    commitTx
    return a
  match runM go before with
  | (.ok a, r) => set r; return a
  | (.error e, r) =>
    let s := if e.1 = stWAITNODE && before.waits || e.1 = stWAITPAGE || e.1 = stHOST then before.s else undoEdit before r
    set { before with s := { s with dozed := r.s.dozed } }
    throw e

/-! ## `seq.append` -/

/-- An entry of `seq.append`: its sequence and its count (Table 09-11). -/
def appEnt (w : Nat) : Nat × Nat := (field w 0 16, field w 16 21)

/-- The pages that entries touch in order: sequence, first position and count of each entry, as lengths
grow. -/
def appSpans (lens : List (Nat × Nat)) : List (Nat × Nat) → List (Nat × Nat × Nat)
  | [] => []
  | (q, n) :: rest =>
    let l := assocD lens q 0
    (q, l, n) :: appSpans (assocSet lens q (l + n)) rest

/-- The spans of a command in an instar. -/
def spansOf (root : Nat) (c : Cmd) : M (List (Nat × Nat × Nat)) := do
  let es := c.ents.map appEnt
  let lens ← (es.map (·.1)).eraseDups.mapM fun q => do return (q, ← seqLen root q (c.get .layer))
  return appSpans lens es

/-- Pages that a span touches. -/
def spanPages (l n : Nat) : List Nat :=
  if n = 0 then [] else (List.range ((l + n - 1) / 256 - l / 256 + 1)).map fun i => l / 256 + i

/-- The pages that an append takes a frame for, in order, each with the page it copies if there is one. -/
def appPlan (root : Nat) (c : Cmd) : M (List (Nat × Nat × Nat × Option Page)) := do
  let h ← shapeM
  let spans ← spansOf root c
  let pages := (spans.flatMap fun (q, l, n) => (spanPages l n).map fun k => (q, k)).eraseDups
  let out ← pages.mapM fun (q, k) => (List.range h.hkv).mapM fun hd => do
    match ← findPage root q (c.get .layer) hd k with
    | none => return some (q, k, hd, none)
    | some g => if (← frameCount g.frame) ≤ 1 && !(leafCmpct g.at_.leaf) then return none else return some (q, k, hd, some g)
  return (out.flatten).filterMap id

/-- The K or V of one source row and head: codes and scales by group of 32 (R219). -/
def sourceVec (c : Cmd) (isV : Bool) (h : Shape) (seq layer head pos q : Nat) : M (List Nat × List Nat) := do
  let d := c.desc (if isV then 1 else 0)
  let src := c.get (if isV then .srcV else .srcK)
  let fmt := if isV then h.fmtV else h.fmtK
  let slot := c.slot head
  let gs := List.range (h.dp / 32)
  if isFloat src then
    let vs ← rdFloats d src [head, q, 0, 0, 0] h.hdim
    let bl ← gs.mapM fun g => quantOut slot fmt c.seed (if isV then 3 else 2)
      ((((seq * 256 + layer) * 2 ^ 16 + head) * 2 ^ 20 + pos) * 4 + g) false (padZero 32 ((vs.drop (32 * g)).take 32))
    return (bl.flatMap (·.2), bl.map (·.1))
  else
    let bl ← gs.mapM fun g => do
      let i0 := d.index [32 * g, head, q, 0, 0, 0]
      let codes ← rdCodes d fmt i0 (h.hdim - 32 * g)
      let sc := leNat (← rd (d.scales + i0 / 32) 1)
      tally slot fun m => let m := m.block sc; { m with nan := m.nan + metNaN fmt sc codes }
      return (sc, codes)
    return (bl.flatMap (·.2), bl.map (·.1))

/-- Halve the older scores of a sequence at a layer (R242). -/
def decayScores (seq layer page sh : Nat) : M Unit := do
  let h ← shapeM
  let root ← txRoot
  (List.range h.hkv).forM fun hd => do
    (← pagesOf root seq layer hd).forM fun g => do
      if g.page != page && (← isPrivate g) then
        let bs ← frRd g.frame h.score 1024
        frWr g.frame h.score ((List.range 256).flatMap fun j =>
          f32Bytes (f32Mul (f32Of ((bs.drop (4 * j)).take 4)) (BitVec.ofNat 32 ((127 - sh) * 2 ^ 23))))

/-- Write one position of a page. -/
def writePosition (c : Cmd) (h : Shape) (g : Page) (pos q : Nat) : M Unit := do
  let j := pos % 256
  let w (isV : Bool) : M Unit := do
    let fmt := if isV then h.fmtV else h.fmtK
    let (codes, scales) ← sourceVec c isV h g.seq g.layer g.head pos q
    let b := fmtBits fmt
    frWr g.frame ((if isV then h.vCode else 0) + j * h.dp * b / 8) (packCodes b codes)
    frWr g.frame ((if isV then h.vScale else h.kScale) + j * (h.dp / 32)) (scales.map (BitVec.ofNat 8))
  w false
  w true
  let o := h.hdr + 32 * leafSlot g.at_.leaf + j / 8
  let old ← frRd g.frame o 1
  frWr g.frame o [BitVec.ofNat 8 (leNat old ||| 2 ^ (j % 8))]

/-- `seq.append` as an edit (R218): every frame is taken before a byte is written. -/
def appendEdit (c : Cmd) : M Unit := do
  bounceAll c
  let h ← shapeM
  let p ← partM
  let layer := c.get .layer
  let root ← txRoot
  let plan ← appPlan root c
  let spans ← spansOf root c
  let got ← plan.mapM fun x => do return (x, ← takeFrame false)
  got.forM fun ((q, k, hd, old), f) => do
    match old with
    | none => do
      freshFrame f q layer hd k
      mapPage q layer hd k f PageBits.fresh
    | some g => do
      copyFrame g.frame f
      mapPage q layer hd k f g.bits
      refFrame g.frame (-1)
      modS fun s => bump s p pgPOOL 0xF2C 1
    refFrame f 1
  let starts := (spans.foldl (fun (acc : List Nat × Nat) x => (acc.1 ++ [acc.2], acc.2 + x.2.2)) ([], 0)).1
  (spans.zip starts).forM fun ((q, l, n), q0) => do
    let sr ← seqRec (← txRoot) q
    let sh := field (poolField (← getS) [] p 8) 16 5
    (List.range n).forM fun i => do
      let pos := l + i
      let k := pos / 256
      if pos % 256 = 0 && sr.evs && sh != 0 then decayScores q layer k sh
      (List.range h.hkv).forM fun hd => do
        match ← findPage (← txRoot) q layer hd k with
        | none => return ()
        | some g =>
          writePosition c h g pos (q0 + i)
          if pos % 256 = 255 then
            let occ ← pageOcc h g
            writeSummary (c.slot hd) q layer hd k g.frame occ (leafSlot g.at_.leaf)
            mapPage q layer hd k g.frame { g.bits with sum := true }
    if n != 0 then putLen q layer (l + n)

/-! ## `seq.open`, `seq.fork`, `seq.free` -/

/-- The record that an entry of `seq.open` gives (Table 09-11). -/
def openRec (w : Nat) : SeqRec :=
  { state := 1, evs := bitOf w 24, prio := field w 16 8, sink := field w 32 16
    recent := field w 48 16 }

def openEdit (c : Cmd) : M Unit :=
  c.ents.forM fun w => do
    let q := field w 0 16
    let _ ← ownSeqNode q true
    putSeqRec q (openRec w)

/-- Children are copies of the parent that map the same frames (R222). -/
def forkEdit (c : Cmd) : M Unit := do
  let h ← shapeM
  let root ← txRoot
  let par := c.get .parent
  let sr ← seqRec root par
  let pages ← allPagesOf root par
  let lens ← (List.range h.layers).mapM fun l => do return (l, ← seqLen root par l)
  c.ents.forM fun w => do
    let q := field w 0 16
    let _ ← ownSeqNode q true
    putSeqRec q sr
    lens.forM fun (l, n) => if n = 0 then return () else putLen q l n
    pages.forM fun g => do
      mapPage q g.layer g.head g.page g.frame g.bits
      refFrame g.frame 1

/-- Close a sequence's tables: its frames lose their references, its lengths read zero; its record is set
(R224, R254). DESIGN CHOICE (log 42): its level 2 node goes too, also where a park closes the tables as `seq.free` does
(R254), though R209 gives a node to every sequence that is not CLOSED. -/
def closeSeq (q : Nat) (rec_ : SeqRec) : M Unit := do
  let h ← shapeM
  let root ← txRoot
  let pages ← allPagesOf root q
  pages.forM fun g => refFrame g.frame (-1)
  (List.range h.layers).forM fun l => do
    if (← seqLen (← txRoot) q l) != 0 then putLen q l 0
  dropSeqNode q
  putSeqRec q rec_

/-- Sum over layers of a sequence's length (Table 11-18). -/
def seqTotal (root q : Nat) : M Nat := do
  let h ← shapeM
  let ls ← (List.range h.layers).mapM fun l => seqLen root q l
  return ls.foldl (· + ·) 0

/-- `seq.free`: an entry that names a sequence already closed frees nothing more (R214); a parked
sequence's slot is freed. -/
def freeEdit (c : Cmd) : M Nat := do
  let sums ← c.ents.mapM fun w => do
    let q := field w 0 16
    let root ← txRoot
    let sr ← seqRec root q
    let n ← seqTotal root q
    if sr.state = 0 then return 0
    closeSeq q SeqRec.closed
    modP fun x => { x with parked := x.parked.filter fun e => e.1 != q }
    return n
  return sums.foldl (· + ·) 0

/-! ## Score updates (R152) -/

/-- The frame number at a physical address of a frame's byte. -/
def frameOfByte (s : State) (p pa : Nat) : Nat :=
  frameAt s p (pa / (shapeOf s [] p).bytes * (shapeOf s [] p).bytes)

/-- Add a column sum to a score entry of a private frame with one addition. DESIGN CHOICE (log 75): whether the frame
is private is judged when the update is applied (R152). -/
def scoreAdd (u : ScoreUpd) : M Unit := do
  let f := frameOfByte (← getS) (← partM) u.addr
  if (← frameCount f) = 1 then
    let old ← tabRd u.addr 4
    tabWr u.addr (f32Bytes (← chk (f32Add (f32Of old) u.sum)))

end Sys2Proof.Machine
end

