-- ==== Sys2Proof/Machine/Pressure.lean ====
section
/-! DEFINITION. What POOL does when frames run out: deficits (R234), eviction and compaction (R244 to R248),
moves to and from the slow tier (R249 to R251), park images, pre-emption and resumption (R253 to R255), the
edits of a loss and of a drain (R398, R400), moves off slices (R381). -/

namespace Sys2Proof.Machine

open Sys2Proof

/-! ## Need and deficit (R234) -/

/-- Frames of a tier that are `FREE` and may be taken. -/
def freeCount (s : State) (p : Nat) (slow : Bool) : Nat :=
  ((if slow then (pool s p).slowFree else (pool s p).free).filter (frameOk s p)).length

/-- Frames of a tier that are `RETIRING` and may be taken once they return. -/
def retCount (s : State) (p : Nat) (slow : Bool) : Nat :=
  ((pool s p).retiring.filter fun e => isSlowFrame s p e.1 == slow && frameOk s p e.1).length

def deficit (s : State) (p need : Nat) : Int :=
  (need : Int) - ((freeCount s p false + retCount s p false : Nat) : Int)

def deficitM (need : Nat) : M Int := do return deficit (← getS) (← partM) need

/-- POOL itself: relief edits serve no command (R236). -/
def poolWho (p : Nat) : Who := { Who.block 0 with part := p }

/-- Run with POOL as the requester. -/
def asPool {α : Type} (m : M α) : M α := do
  let c := (← get).ctx
  let a ← withCtx { c with who := poolWho c.part, root := none } m
  modify fun r => { r with ctx := c }
  return a

/-- A page is Full and not compacted (Table 09-14). -/
def Page.isFull (g : Page) : Bool := leafSum g.at_.leaf && !(leafCmpct g.at_.leaf)

/-- The pages of the sequences that are `OPEN`, with their records, by sequence, layer, head and page. -/
def openPages : M (List (Page × SeqRec)) := do
  let root := (← getP).root
  let ss ← liveSeqs root
  let ls ← (ss.filter fun e => e.2.state = 1).mapM fun (q, r) => do
    return (← allPagesOf root q).map fun g => (g, r)
  return ls.flatten

/-- Monitor counts of a command that runs on no channel go to the lowest-numbered channel that its partition owns (R45). -/
def countMons (s : State) (p : Nat) (r : Run) : State :=
  match (partChans s p).head? with
  | none => s
  | some ch => r.mons.foldl (fun s m => applyMon s ch m.1 m.2) s

/-- Put what the run has counted so far into the monitors. -/
def flushMons : M Unit := modify fun r => { r with s := countMons r.s r.ctx.part r, mons := [] }

/-! ## Moves of frames -/

/-- Move frames, each with the pages that map it, to frames that `dst` takes; the reference count is kept. -/
def moveFrames (fs : List (Nat × List Page)) (dst : M Nat) : M Unit :=
  fs.forM fun (old, gs) => do
    let f ← dst
    copyFrame old f
    gs.forM fun g => mapPage g.seq g.layer g.head g.page f g.bits
    refFrame f gs.length
    refFrame old (-(gs.length : Int))

/-- Pages by the frame that they map, in order of first appearance. -/
def byFrame (gs : List Page) : List (Nat × List Page) :=
  ((gs.map fun g => g.frame).eraseDups).map fun f => (f, gs.filter fun g => g.frame == f)

/-- Cut frames into groups of at most 256 pages, each of one frame at least. -/
def pageGroups (fs : List (Nat × List Page)) : List (List (Nat × List Page)) :=
  fs.foldl (fun acc x =>
    match acc.getLast? with
    | some g =>
      if (g.foldl (fun n y => n + y.2.length) 0) + x.2.length ≤ 256 then acc.dropLast ++ [g ++ [x]]
      else acc ++ [[x]]
    | none => [[x]]) []

/-! ## Eviction (R244, R245) -/

/-- A candidate: its score, its page and its slot. -/
structure Cand where
  score : F32
  page  : Page
  slot  : Nat

def Cand.pos (c : Cand) : Nat := 256 * c.page.page + c.slot

/-- Order of numbers by score, a NaN after every number. -/
def scoreLt (a b : F32) : Bool := !(f32IsNaN a) && (f32IsNaN b || f32Lt a b)

/-- Lexicographic order. -/
def lexLt : List Nat → List Nat → Bool
  | a :: as, b :: bs => decide (a < b) || a == b && lexLt as bs
  | _, _ => false

def Cand.before (a b : Cand) : Bool :=
  scoreLt a.score b.score || !(scoreLt b.score a.score) &&
    lexLt [a.page.seq, a.page.layer, a.page.head, a.pos] [b.page.seq, b.page.layer, b.page.head, b.pos]

/-- The candidates of the partition, ranked. -/
def candidates : M (List Cand) := do
  let h ← shapeM
  let root := (← getP).root
  let gs ← openPages
  let ls ← gs.mapM fun (g, r) => do
    if !(r.evs) || !(g.isFull) || !(← isPrivate g) then return []
    let len ← seqLen root g.seq g.layer
    let occ ← pageOcc h g
    let sc ← frRd g.frame h.score 1024
    return (bitsOf 256 occ).filterMap fun j =>
      if r.sink ≤ 256 * g.page + j && 256 * g.page + j + r.recent < len then
        some { score := f32Of ((sc.drop (4 * j)).take 4), page := g, slot := j }
      else none
  return sortBy Cand.before ls.flatten

/-- Whether a pinned instar selects slot `slot` of a page's frame (R221). -/
def slotPinned (g : Page) (slot : Nat) : M Bool := do
  let x ← getP
  (x.pins.filter fun q => q.instar != x.instar).anyM fun q => do
    (← liveSeqs q.root).anyM fun (n, _) => do
      match ← findPage q.root n g.layer g.head g.page with
      | some o => return o.frame == g.frame && !(leafCmpct o.at_.leaf) && leafSlot o.at_.leaf == slot
      | none => return false

/-- One eviction round as an edit; the (sequence, layer, head) whose bits it cleared. DESIGN CHOICE (log 30): a summary
that relief remakes counts in `mon`, the `MON_BASE` slot of the command that needs the frames. -/
def evictRound (mon : Nat) (cs : List Cand) : M (List (Nat × Nat × Nat)) := do
  let h ← shapeM
  let p ← partM
  let pages := (cs.map fun c => c.page).eraseDups
  pages.forM fun g => do
    let occ ← pageOcc h g
    let gone := (cs.filter fun c => c.page == g).foldl (fun acc c => acc ||| 2 ^ c.slot) 0
    let left := occ ^^^ (occ &&& gone)
    if left = 0 then
      unmapPage g.seq g.layer g.head g.page
      refFrame g.frame (-1)
    else
      let other := 1 - leafSlot g.at_.leaf
      if ← slotPinned g other then throw (stWAITPAGE, 0)
      frWr g.frame (h.hdr + 32 * other) (leBytes 32 left)
      writeSummary mon g.seq g.layer g.head g.page g.frame left other
      mapPage g.seq g.layer g.head g.page g.frame { g.bits with slot := other }
  modS fun s => bump s p pgPOOL 0xF40 cs.length
  return (pages.map fun g => (g.seq, g.layer, g.head)).eraseDups

/-! ## Compaction (R246 to R248) -/

/-- Pair pages greedily: the lowest unpaired page takes the lowest later one whose slots do not meet its own. -/
def pairUp : Nat → List (Page × Nat) → List ((Page × Nat) × (Page × Nat))
  | 0, _ => []
  | _ + 1, [] => []
  | k + 1, a :: rest =>
    match rest.find? fun b => a.2 &&& b.2 == 0 with
    | none => pairUp k rest
    | some b => (a, b) :: pairUp k (rest.filter fun x => x.1 != b.1)

/-- A region of `per` bytes a slot: slots of `oa` from frame `fa`, of `ob` from `fb`, the others zero. -/
def pickSlots (fa fb : List Byte) (oa ob off per : Nat) : List Byte :=
  (List.range 256).flatMap fun j =>
    if bitOf oa j then (fa.drop (off + j * per)).take per
    else if bitOf ob j then (fb.drop (off + j * per)).take per
    else zeroBytes per

/-- Put a run of bytes into a frame image. -/
def imgPut (img : List Byte) (off : Nat) (bs : List Byte) : List Byte :=
  img.take off ++ bs ++ img.drop (off + bs.length)

/-- A frame image with the K, V, scales and scores of the slots of two frames (R246). -/
def mergeImage (h : Shape) (fa fb : List Byte) (oa ob : Nat) : List Byte :=
  let wk := h.dp * fmtBits h.fmtK / 8
  let wv := h.dp * fmtBits h.fmtV / 8
  [(0, wk), (h.kScale, h.dp / 32), (h.vCode, wv), (h.vScale, h.dp / 32), (h.score, 4)].foldl
    (fun img (off, per) => imgPut img off (pickSlots fa fb oa ob off per)) (zeroBytes h.bytes)

/-- Compact a pair into a frame that the edit takes. -/
def compactPair (a b : Page × Nat) : M Unit := do
  let h ← shapeM
  let p ← partM
  let f ← takeFrame false
  let (ga, oa) := a
  let (gb, ob) := b
  let (ra, ea) ← frameRows ga.frame
  let (rb, eb) ← frameRows gb.frame
  failCopy [ea, eb]
  let (fa, fb) := (ra.flatten, rb.flatten)
  let sum (bs : List Byte) (g : Page) : List Byte := (bs.drop (h.sum + 1024 * leafSlot g.at_.leaf)).take 1024
  let img := mergeImage h fa fb oa ob
  let img := imgPut img h.sum (sum fa ga ++ sum fb gb)
  let img := imgPut img h.hdr (leBytes 32 (oa ||| ob) ++ zeroBytes 32 ++ (fa.drop (h.hdr + 64)).take 448)
  let img := imgPut img h.map ((List.range 256).flatMap fun j =>
    leBytes 4 (if bitOf oa j then ga.page else if bitOf ob j then gb.page else 0xFFFFFFFF))
  frWr f 0 img
  mapPage ga.seq ga.layer ga.head ga.page f { sum := true, slot := 0, cmpct := true }
  mapPage gb.seq gb.layer gb.head gb.page f { sum := true, slot := 1, cmpct := true }
  refFrame f 2
  refFrame ga.frame (-1)
  refFrame gb.frame (-1)
  modS fun s => bump s p pgPOOL 0xF44 1

/-- Compact what can be compacted of given (sequence, layer, head), as frames are `FREE`; the pairs made. -/
def compactHeads (hs : List (Nat × Nat × Nat)) : M Nat := do
  let h ← shapeM
  let p ← partM
  let ls ← hs.mapM fun (q, l, hd) => do
    let gs ← pagesOf (← txRoot) q l hd
    let ok ← gs.filterMapM fun g => do
      if !(g.isFull) || !(← isPrivate g) then return none
      let occ ← pageOcc h g
      return if (bitsOf 256 occ).length < 128 then some (g, occ) else none
    let pairs := pairUp ok.length ok
    let ns ← pairs.mapM fun (a, b) => do
      if freeCount (← getS) p false = 0 then return 0
      compactPair a b
      return 1
    return ns.foldl (· + ·) 0
  return ls.foldl (· + ·) 0

/-- `pool.compact` as an edit (R248): the frames gained. -/
def compactEdit (c : Cmd) : M Nat := do
  let h ← shapeM
  let qs := (c.ents.map fun w => field w 0 16).eraseDups
  compactHeads (qs.flatMap fun q => (List.range h.layers).flatMap fun l =>
    (List.range h.hkv).map fun hd => (q, l, hd))

/-- Eviction rounds while there is a deficit and a candidate (R245). A compaction that finds no granule is
left for a later round. -/
def evictLoop (mon : Nat) : Nat → Nat → M Unit
  | 0, _ => return ()
  | k + 1, need => do
    if (← deficitM need) ≤ 0 then return ()
    let n := field (poolField (← getS) [] (← partM) 8) 0 16
    let cs := (← candidates).take n
    if cs.isEmpty then return ()
    let heads ← editM (evictRound mon cs)
    flushMons
    let _ ← tryCatch (editM (compactHeads heads)) fun e =>
      if e.1 = stWAITNODE then return 0 else throw e
    evictLoop mon k need

/-! ## The slow tier (R249 to R252) -/

/-- Whether a partition runs in `TIERED` mode: by `POOL.MODE`, or the grade's default (Table 10-2). -/
def tiered (s : State) (p : Nat) : Bool :=
  let m := field (eff s pgPOOL 0x100) (2 * p) 2
  m == 2 || m == 0 && capCH s == 8

/-- The pages that may move to the slow tier, in the order of the mode (R250, Table 10-3). -/
def spillable : M (List Page) := do
  let s ← getS
  let p ← partM
  let h ← shapeM
  let keep := field (poolField s [] p 9) 0 8
  let gs ← openPages
  let ok ← gs.filterMapM fun (g, r) => do
    let later := gs.filter fun o => o.1.seq == g.seq && o.1.layer == g.layer && o.1.head == g.head &&
      decide (g.page < o.1.page)
    if later.length < keep || leafSlow g.at_.leaf || !(g.isFull) || !(← isPrivate g) then return none
    if tiered s p && r.evs then
      let sc ← frRd g.frame h.score 1024
      return some (tsum ((List.range 256).map fun j => f32Of ((sc.drop (4 * j)).take 4)), g)
    else return some (f32Zero, g)
  let key (g : Page) : List Nat := [g.page, g.seq, g.layer, g.head]
  return (sortBy (fun a b => scoreLt a.1 b.1 || !(scoreLt b.1 a.1) && lexLt (key a.2) (key b.2)) ok).map (·.2)

/-- Moves to the slow tier while there is a deficit: edits of at most 256 pages; a move that finds no frame
`FREE` waits for one that is `RETIRING`. -/
def spillLoop : Nat → Nat → M Unit
  | 0, _ => return ()
  | k + 1, need => do
    let s ← getS
    let p ← partM
    let d := (deficit s p need).toNat
    let gs := (← spillable).take (min d (freeCount s p true + retCount s p true))
    if gs.isEmpty then return ()
    let now := gs.take (min 256 (freeCount s p true))
    if now.isEmpty then throw (stWAITPAGE, 0)
    editM do
      moveFrames (now.map fun g => (g.frame, [g])) (takeFrame true)
      modS fun s => bump s p pgPOOL 0xF48 now.length
    spillLoop k need

/-- Move slow-tier frames that map the listed pages back to store, as far as frames are `FREE` (R251). -/
def backMoves (keys : List (Nat × Nat × Nat × Nat)) : M Unit := do
  let p ← partM
  let root := (← getP).root
  let found ← keys.eraseDups.filterMapM fun (q, l, hd, k) => findPage root q l hd k
  let want := ((found.filter fun g => leafSlow g.at_.leaf).map fun g => g.frame).eraseDups
  if want.isEmpty then return ()
  let ss ← liveSeqs root
  let all := (← ss.mapM fun e => allPagesOf root e.1).flatten
  let fs := (want.take (freeCount (← getS) p false)).map fun f => (f, all.filter fun g => g.frame == f)
  (pageGroups fs).forM fun grp => do
    let n := grp.foldl (fun n y => n + y.2.length) 0
    editM do
      moveFrames grp (takeFrame false)
      modS fun s => bump s p pgPOOL 0xF4C n

/-! ## Park images (R253 to R255) -/

/-- A write that is no output of a command: no dirty extent. -/
def wrPlain (va : Nat) (bs : List Byte) : M Unit := do
  let r ← get
  let (s, w) := vwrite r.s r.ctx va bs
  set { r with s := s }
  match w.acc with
  | .ok _ => return ()
  | .bad st d => throw (st, d)

/-- The pages that an image of a sequence lists: layer, head, page. -/
def listed (h : Shape) (len : Nat → Nat) : List (Nat × Nat × Nat) :=
  (List.range h.layers).flatMap fun l => (List.range h.hkv).flatMap fun hd =>
    (List.range (ceilDiv (len l) 256)).map fun k => (l, hd, k)

/-- Granules of the mapped bitmap for `n` listed pages. -/
def bitmapG (n : Nat) : Nat := ceilDiv n 262144

/-- The frame image of a page, as a frame with `SLOT` = 0, uncompacted: out of a compacted frame it keeps the origin and
names the page itself (Table 09-3). -/
def frameImage (h : Shape) (g : Page) : M (List Byte) := do
  let (rows, bad) ← frameRows g.frame
  failCopy [bad]
  let bs := rows.flatten
  let slot := leafSlot g.at_.leaf
  let occ ← pageOcc h g
  let img := if leafCmpct g.at_.leaf then
      imgPut (mergeImage h bs [] occ 0) h.hdr
        (headerBytes 0 0 (leAt bs (h.hdr + 64) 4) g.layer g.head g.page)
    else bs
  let img := imgPut img h.hdr (leBytes 32 occ ++ zeroBytes 32)
  return imgPut img h.sum ((bs.drop (h.sum + 1024 * slot)).take 1024 ++ zeroBytes 1024)

/-- The head of a sequence's image in an instar (Table 10-4): granule 0 with `extra` bytes from byte 24 on, the
mapped bitmap, and the pages whose frame images follow. -/
def imageHead (root q : Nat) (extra : List Byte) : M (List Byte × List Byte × List Page) := do
  let h ← shapeM
  let r ← seqRec root q
  let lens ← (List.range 256).mapM fun l => if l < h.layers then seqLen root q l else return 0
  let ls := listed h (fun l => lens.getD l 0)
  let pages ← ls.mapM fun (l, hd, k) => findPage root q l hd k
  let mapped := pages.filterMap id
  let g0 := fitBytes 1024 (leBytes 4 q ++ { r with state := 1 }.bytes ++ leBytes 4 mapped.length ++ extra) ++
    lens.flatMap (leBytes 4)
  let bits := (chunksOf 8 pages.length pages).map fun c =>
    BitVec.ofNat 8 (bitsWhere 8 fun i => (c.getD i none).isSome)
  return (fitBytes Config.granule g0, fitBytes (bitmapG ls.length * Config.granule) bits, mapped)

/-- The image of a sequence, its pieces in order. -/
def seqImage (root q : Nat) (extra : List Byte) : M (List (List Byte)) := do
  let h ← shapeM
  let (g0, bits, mapped) ← imageHead root q extra
  return [g0, bits] ++ (← mapped.mapM (frameImage h))

/-- Count the pages of a command's image that lie in the slow tier (R252). -/
def countSlowOf (gs : List Page) : M Unit :=
  countSlowPg ((gs.filter fun g => leafSlow g.at_.leaf).map fun g => (g.seq, g.layer, g.head, g.page))

/-- The `n` bytes of an image at `off`, which lie in one granule: a page of the slow tier counts at its first byte. -/
def imagePart (root q : Nat) (extra : List Byte) (off n : Nat) : M (List Byte) := do
  let h ← shapeM
  let (g0, bits, mapped) ← imageHead root q extra
  let k := Config.granule + bits.length
  if off < Config.granule then return (g0.drop off).take n
  else if off < k then return (bits.drop (off - Config.granule)).take n
  else match mapped[(off - k) / max 1 h.bytes]? with
    | none => return []
    | some g =>
      if (off - k) % max 1 h.bytes = 0 then countSlowOf [g]
      return ((← frameImage h g).drop ((off - k) % max 1 h.bytes)).take n

/-- Granules of an image. -/
def imageG (root q : Nat) : M Nat := do
  let h ← shapeM
  let lens ← (List.range h.layers).mapM fun l => seqLen root q l
  let n := (listed h fun l => lens.getD l 0).length
  return 1 + bitmapG n + (← allPagesOf root q).length * h.fg

/-- Write the pieces of an image from a virtual address on. -/
def putImage (va : Nat) : List (List Byte) → M Unit
  | [] => return ()
  | bs :: rest => do
    wrPlain va bs
    putImage (va + bs.length) rest

/-- Park base, slots and granules per slot of a partition (Table 10-2). -/
def parkBase (s : State) (view : List Nat) (p : Nat) : Nat :=
  (poolField s view p 12 + field (poolField s view p 13) 0 8 * 2 ^ 32) * Config.granule
def parkSlots (s : State) (view : List Nat) (p : Nat) : Nat := field (poolField s view p 14) 0 12
def parkSlotG (s : State) (view : List Nat) (p : Nat) : Nat := field (poolField s view p 14) 12 20

/-- The address of a park slot. -/
def parkVa (s : State) (p k : Nat) : Nat := parkBase s [] p + k * parkSlotG s [] p * Config.granule

/-- The lowest free slot, where an image of a sequence fits. -/
def parkSlot (root q : Nat) : M (Option Nat) := do
  let s ← getS
  let p ← partM
  let x ← getP
  if parkSlotG s [] p < (← imageG root q) then return none
  return (List.range (parkSlots s [] p)).find? fun k => !(x.parked.any fun e => e.2 == k)

/-- A sequence becomes `PARKED` in a slot. -/
def parkEdit (q slot : Nat) : M Unit := do
  let r ← seqRec (← txRoot) q
  closeSeq q { r with state := 2 }
  modP fun x => { x with parked := x.parked ++ [(q, slot)] }

/-- Read an image at `va` into a sequence: its record, its lengths and its pages in private frames of the store,
with `SLOT` = 0 (R255, R380). -/
def imageEdit (q va : Nat) : M Unit := do
  let h ← shapeM
  let hd0 ← rd va 2048
  let len (l : Nat) : Nat := leAt hd0 (1024 + 4 * l) 4
  let _ ← ownSeqNode q true
  putSeqRec q { SeqRec.ofBytes ((hd0.drop 4).take 16) with state := 1 }
  (List.range h.layers).forM fun l => if len l = 0 then return () else putLen q l (len l)
  let ls := listed h len
  let bm ← if ls.isEmpty then pure [] else rd (va + Config.granule) (ceilDiv ls.length 8)
  let mapped := (ls.zipIdx.filter fun e => bitOf (leAt bm (e.2 / 8) 1) (e.2 % 8)).map (·.1)
  let base := va + (1 + bitmapG ls.length) * Config.granule
  mapped.zipIdx.forM fun ((l, hd, k), i) => do
    let img ← rd (base + i * h.bytes) h.bytes
    let f ← takeFrame false
    frWr f 0 img
    mapPage q l hd k f { sum := decide (256 * k + 256 ≤ len l), slot := 0, cmpct := false }
    refFrame f 1

/-- Bytes 20 to 23 of an image: the pages that it maps. -/
def imagePages (va : Nat) : M Nat := do return leNat (← rd (va + 20) 4)

/-- The sequences that a command names, each once, in order. -/
def Cmd.named (c : Cmd) : List Nat := (c.ents.map fun w => field w 0 16).eraseDups

/-- `seq.resume` as an edit: each sequence comes back from its slot (R254). -/
def resumeEdit (c : Cmd) : M Unit :=
  c.named.forM fun q => do
    let s ← getS
    let p ← partM
    let slot := assocD (← getP).parked q 0
    imageEdit q (parkVa s p slot)
    modP fun x => { x with parked := x.parked.filter fun e => e.1 != q }

/-! ## Pre-emption (R253) -/

/-- The victim that step 4 parks next, with its slot. -/
def victim (names : List Nat) (prio : Nat) : M (Option (Nat × Nat)) := do
  let root := (← getP).root
  let ss ← liveSeqs root
  let ok := ss.filter fun e => e.2.state == 1 && decide (e.2.prio < prio) && !(names.contains e.1)
  let ranked := sortBy (fun a b => decide (a.2.prio < b.2.prio ∨ a.2.prio = b.2.prio ∧ b.1 < a.1)) ok
  ranked.findSomeM? fun e => do
    match ← parkSlot root e.1 with
    | some k => return some (e.1, k)
    | none => return none

/-- Walk a slot's range for writes: whether a park may be attempted (R253). What stops it is recorded: a failed walk, or
host memory without a live port (R333). -/
def parkWalk (slot : Nat) : M Bool := do
  let s0 ← getS
  let p ← partM
  (List.range (parkSlotG s0 [] p)).allM fun i => do
    let r ← get
    let va := parkVa s0 p slot + i * Config.granule
    match xlate r.s r.ctx va true with
    | (s, .ok pa _) =>
      let dead := isHost pa && (livePorts s p).isEmpty
      set { r with s := if dead then noPortFault s r.ctx pa else s }
      return !dead
    | (s, .fail cause) =>
      set { r with s := xlFault s r.ctx va cause }
      return false
    | (s, .ecc _) =>
      set { r with s := s }
      return false

/-- Step 4: victims are parked one at a time. A park whose writes are not all answered is waited for. -/
def preemptLoop : Nat → Nat → List Nat → Nat → M Unit
  | 0, _, _, _ => return ()
  | k + 1, need, names, prio => do
    let p ← partM
    let x ← getP
    let o := (← get).ctx.owner
    match x.parking with
    | some (q, slot) =>
      if iqOutstanding (← getS) o then throw (stWAITPARK, 0)
      modP fun x => { x with parking := none, parkFail := false }
      if x.parkFail then return ()
      editM (parkEdit q slot)
      modS fun s => addFault (bump s p pgPOOL 0xF54 1)
        { faultOf (poolWho p) 5 4 with arg0 := q, arg1 := slot }
      preemptLoop k need names prio
    | none =>
      if (← deficitM need) ≤ 0 then return ()
      match ← victim names prio with
      | none => return ()
      | some (q, slot) =>
        if !(← parkWalk slot) then return ()
        let done ← tryCatch (do
          putImage (parkVa (← getS) p slot) (← seqImage x.root q [])
          return true) fun _ => return false
        if !done then return ()
        modP fun x => { x with parking := some (q, slot), parkFail := false }
        preemptLoop k need names prio

/-! ## Relief (R235, Table 10-1) -/

/-- The owner of host requests that relief for a command makes. -/
def Owner.forPark (o : Owner) : Owner :=
  match o with
  | .command p st x _ => .command p st x 0xFE
  | o => o

/-- Steps 2 to 4 of Table 10-1 for an edit that needs `need` store frames and names sequences of highest priority
`prio`. -/
def relieve (mon need : Nat) (names : List Nat) (prio : Nat) : M Unit := asPool do
  let s ← getS
  let p ← partM
  if 0 < deficit s p need && capEVS s then evictLoop mon (2 ^ 28) need
  if 0 < (← deficitM need) && capMT s != 0 && slowFrames s [] p != 0 then spillLoop (2 ^ 21) need
  if (0 < (← deficitM need) || (← getP).parking.isSome) && parkSlots s [] p != 0 then
    let c := (← get).ctx
    withCtx { c with owner := c.owner.forPark } (preemptLoop 8192 need names prio)

/-! ## Losses (R398, R400) -/

/-- Whether a frame lies in a lost slice or on a lost port. -/
def frameLost (s : State) (p f : Nat) : Bool :=
  let a := frameAddr s [] p f
  if isStore a then (slice s (sliceOf a)).lost else (slowP s (portOf a)).lost

/-- A loss edit: the `OPEN` sequences that map a lost frame become `LOST`; how many. -/
def lossEditM : M Nat := do
  let s ← getS
  let p ← partM
  let gs ← openPages
  let hit := (gs.filter fun e => frameLost s p e.1.frame).map fun e => (e.1.seq, e.2)
  let qs := (hit.map (·.1)).eraseDups
  qs.forM fun q => do
    let r ← seqRec (← txRoot) q
    putSeqRec q { r with state := 3 }
  return qs.length

/-- The slow-tier frames of a partition on a port that pages map, with those pages. -/
def framesOnPort (q : Nat) : M (List (Nat × List Page)) := do
  let s ← getS
  let p ← partM
  let root := (← getP).root
  let ss ← liveSeqs root
  let all := (← ss.mapM fun e => allPagesOf root e.1).flatten
  return (byFrame all).filter fun e => isSlowFrame s p e.1 && portOf (frameAddr s [] p e.1) == q

/-- A drain edit: at most 256 pages of a port move to store frames, or to slow-tier frames elsewhere; the pages
moved. -/
def drainEditM (q : Nat) : M Nat := do
  let p ← partM
  let fs ← framesOnPort q
  let room := freeCount (← getS) p false + freeCount (← getS) p true
  match pageGroups (fs.take room) with
  | [] => return 0
  | grp :: _ =>
    moveFrames grp do
      if freeCount (← getS) p false = 0 then takeFrame true else takeFrame false
    return grp.foldl (fun n y => n + y.2.length) 0

/-! ## `molt` in `LOCAL` mode (R381) -/

/-- The store frames in the slices of `SLICES` that pages of the named sequences map, with those pages. -/
def moltFrames (c : Cmd) : M (List (Nat × List Page)) := do
  let s ← getS
  let p ← partM
  let root := (← getP).root
  let gs := (← c.named.mapM fun q => allPagesOf root q).flatten
  return byFrame (gs.filter fun g =>
    let a := frameAddr s [] p g.frame
    isStore a && bitOf (c.get .slices) (sliceOf a))

/-- Move them: the pages moved. -/
def moltLocalEdit (c : Cmd) : M Nat := do
  let fs ← moltFrames c
  moveFrames fs (takeFrameBut false (c.get .slices))
  return fs.foldl (fun n y => n + y.2.length) 0

end Sys2Proof.Machine
end

