-- ==== Sys2Proof/Machine/Life.lean ====
section
/-! DEFINITION. The life of a command after its issue: how it ends, tasks and aborts (R284 to R289), cancel
(R290, R291), control commands (R276 to R279), dirty extents and checksums (R287, R411 to R413), the completion
record (R296, R297), the advisor (R48). -/

namespace Sys2Proof.Machine

open Sys2Proof

/-! ## Commands -/

def pf (p : Nat) : Part := Fin.ofNat 8 p

def getCmd (s : State) (p : Nat) (st : Strm) (stamp : Word) : Option Cmd :=
  (strm s p st).cmds.find? fun c => c.stamp == stamp

def updCmd (s : State) (p : Nat) (st : Strm) (stamp : Word) (f : Cmd → Cmd) : State :=
  updStrm s p st fun x => { x with cmds := x.cmds.map fun c => if c.stamp = stamp then f c else c }

/-- The context of a command's accesses: by a unit of requester class `cls`, on channel `ch` or `0xFF`. A command
without a pin walks the current instar. -/
def cmdCtx (s : State) (p : Nat) (st : Strm) (c : Cmd) (ch cls : Nat) : Ctx :=
  let x := pool s p
  { who := { Who.cmd p st c.stamp cls with ch := ch }
    part := p
    root := match c.pin with
      | some n => pinRoot x n
      | none => if hasPool s p then some x.root else none
    owner := .command (pf p) st c.stamp ch
    dysil := c.dysil }

/-- Commands of POOL that edit the pool (R215). -/
def Cmd.isEdit (c : Cmd) : Bool :=
  decide (opOPEN ≤ c.op ∧ c.op ≤ opCOMPACT) || c.op == opMOLT && c.get .mode != 0

/-- Channel commands (Table 01-4): those that hand out units. -/
def Cmd.isChan (c : Cmd) : Bool :=
  decide (opFWD ≤ c.op ∧ c.op ≤ opROT) || c.op == opRING && c.get .mode == 0

def Cmd.ended (c : Cmd) : Bool := c.stage == .ended

/-- Whether a status lets a task go on (R285). -/
def goesOn (st : Nat) : Bool := st == stOK || st == stARMBUSY || st == stCANCELLED

/-- Whether requests of a command are not answered. -/
def cmdWaits (s : State) (p : Nat) (st : Strm) (stamp : Word) : Bool := iqAny s fun r => r.owner.isCmd p st stamp

/-- A live counter of `STRM` rises by a value that the manual does not state (R291: the tiles that were staged). -/
def bumpFree (s : State) (p off : Nat) : State :=
  let v := (Config.freeWord s.free).toNat
  bump { s with free := s.free + 1 } p pgSTRM off v

/-- The channels abandon the units of a command (R286). -/
def abandonUnits (s : State) (p : Nat) (st : Strm) (stamp : Word) : State :=
  (List.range 8).foldl (fun s n =>
    match (chan s n).unit with
    | some u =>
      if u.part.val == p && u.strm == st && u.stamp == stamp && u.swarm.isNone then
        bumpFree (updChan s n fun x => { x with unit := none }) p 0xF24
      else s
    | none => s) s

/-- Rows of a command leave the swarms that are not launched; a swarm without members is none (R145). -/
def withdraw (s : State) (p : Nat) (st : Strm) (stamp : Word) : State :=
  updPart s p fun x =>
    { x with
      swarms := (x.swarms.map fun w =>
        if w.strm = st && !(w.launched) then { w with members := w.members.filter fun m => m.stamp != stamp }
        else w).filter fun w => !(w.members.isEmpty) }

/-- Fix how a command ended: it leaves its channels, its transfer slot and its wait. -/
def markEnd (s : State) (p : Nat) (st : Strm) (stamp : Word) (status detail : Nat) : State :=
  let s := updStrm s p st fun x =>
    { x with
      cmds := x.cmds.map fun c =>
        if c.stamp = stamp then { c with stage := .ended, status := status, detail := detail } else c
      doneQ := x.doneQ ++ [stamp] }
  let s := if status = stOK then s else withdraw (abandonUnits s p st stamp) p st stamp
  let mine (l : XSlot) : Bool := l.strm == st && l.stamp == stamp
  let s := if status != stOK && (part s p).slots.any fun l => mine l && l.phase != 0 then bumpFree s p 0xF24 else s
  let s := updPart s p fun x => { x with slots := x.slots.filter fun l => !(mine l) }
  updPool s p fun x =>
    if x.wait.any fun w => w.strm == st && w.stamp == stamp then
      -- a park that relief for the command was still writing is not made
      { x with wait := none, parking := none, parkFail := false }
    else x

/-- The stamps among `ks` of commands of a stream, lowest first. -/
def inOrder (s : State) (p : Nat) (st : Strm) (ks : List Word) : List Word :=
  ((strm s p st).cmds.map (·.stamp)).filter ks.contains

/-- Commands that ended since `was`, in one cycle, stand lowest stamp first (R296). -/
def orderDone (was s : State) (p : Nat) : State :=
  allStrms.foldl (fun s st =>
    let old := (strm was p st).doneQ
    if (strm s p st).doneQ = old then s
    else updStrm s p st fun x =>
      { x with doneQ := x.doneQ.filter old.contains ++
          (x.cmds.map (·.stamp)).filter fun k => x.doneQ.contains k && !(old.contains k) }) s

/-- End, in stamp order, the commands that `sel` picks. -/
def endAll (s : State) (p : Nat) (st : Strm) (sel : Cmd → Bool) (status : Nat) : State :=
  ((strm s p st).cmds.filter fun c => sel c && !(c.ended)).foldl
    (fun s c => markEnd s p st c.stamp status 0) s

/-- Whether a command has nothing more to send or receive through the remote ports. -/
def Cmd.jobOver (c : Cmd) : Bool := c.remote.all fun j => j.settled

/-- Started commands that a stop reaches: pool edits run to their end (R286), a `molt` that still receives is none yet. -/
def Cmd.stoppable (c : Cmd) : Bool := c.stage == .started && (!(c.isEdit) || !(c.jobOver))
/-- Commands that have not started, a `task.end` of a task left out. -/
def Cmd.unstarted (c : Cmd) : Bool :=
  (c.stage == .fetched || c.stage == .issued) && !(c.op == opTASKEND && c.inTask)

/-- A task aborts (R286): its started commands stop, then those that have not started end. -/
def abortTask (s : State) (p : Nat) (st : Strm) (first : Word) : State :=
  let s := updStrm s p st fun x =>
    { x with tasks := x.tasks.map fun t => if t.first = first then { t with aborted := true } else t }
  let mine (c : Cmd) : Bool := c.inTask && c.task == first
  let s := endAll s p st (fun c => mine c && c.stoppable) stABORTED
  endAll s p st (fun c => mine c && c.unstarted) stABORTED

/-- A command ends with a status; one that does not go on aborts its task (R285). A command that ended `OK` and
whose record is not written can still fail (R333). -/
def endCmd (s : State) (p : Nat) (st : Strm) (stamp : Word) (status detail : Nat) : State :=
  match getCmd s p st stamp with
  | none => s
  | some c =>
    if c.op = opTASKEND && c.inTask && c.ended then
      -- a write of the dirty extent list that failed (R287)
      updCmd s p st stamp fun c => { c with flags := c.flags ||| 0x100 }
    else if c.op = opTASKEND && c.inTask && !(goesOn status) then
      -- a refused `task.end` aborts its task and ends after the dirty extents are written (R287)
      abortTask (updCmd s p st stamp fun c => { c with stage := .issued, status := status, detail := detail }) p st c.task
    else if c.ended && (c.status != stOK || status == stOK) then s
    else
      let s := if c.ended then updCmd s p st stamp fun c => { c with status := status, detail := detail }
        else markEnd s p st stamp status detail
      if !(goesOn status) && c.inTask then abortTask s p st c.task else s

/-- Refuse a command (R280). -/
def refuseCmd (s : State) (p : Nat) (st : Strm) (stamp : Word) (r : Ref) : State := endCmd s p st stamp r.1 r.2

/-! ## Eligibility (R301, R302, R304) -/

/-- Word `k` of entry `i` of the wingbeat table in effect. -/
def slotWord (s : State) (i k : Nat) : Nat := (wordsGet s.wbt.table.entries (4 * i + k) 0).toNat

def eligible (s : State) (p : Nat) (st : Strm) : Bool :=
  !(s.wbt.gap) && bitOf (slotWord s s.wbt.slot 2) (4 * p + st.num)

/-! ## Cancel windows (R290) -/

/-- Whether a stamp is in the cancel window of its stream: below the bound, or in a task that begins below it. -/
def inWindow (x : StreamSt) (stamp task : Word) (inTask : Bool) : Bool :=
  match x.cancelTo with
  | none => false
  | some (b, _) => stampLt stamp b || inTask && stampLt task b

def Cmd.inWindow (c : Cmd) (x : StreamSt) : Bool := Machine.inWindow x c.stamp c.task c.inTask

/-- The cancel acts on what is fetched; a window that every record has passed is closed. -/
def runCancel (s : State) (p : Nat) (st : Strm) : State :=
  match (strm s p st).cancelTo with
  | none => s
  | some (b, run) =>
    let x := strm s p st
    let win (c : Cmd) : Bool := c.inWindow x
    let s := updStrm s p st fun x =>
      { x with tasks := x.tasks.map fun t => if stampLt t.first b then { t with cancelled := true } else t }
    let s := endAll s p st (fun c => win c && (c.unstarted || run && c.stoppable)) stCANCELLED
    let x := strm s p st
    if stampGe x.next b && !(x.fetchTask.any fun t => stampLt t b) && !(x.cmds.any win) then
      updStrm s p st fun x => { x with cancelTo := none }
    else s

/-! ## Outputs (R287) -/

/-- Outputs that a command lists: operands, `ESC_OUT`, the fields of R287; ports of a `feed`; the image of a
`snap` (R408). -/
def listsOutput (c : Cmd) (key : Nat) : Bool :=
  decide (key < 6) || key == outEsc || decide (outPort 0 ≤ key) ||
    ([Fld.statOut, .dstat, .partBuf, .selOut].any fun f => key == outField c f) ||
    c.op == opSNAP && key == outField c .img

/-- The outputs of a command with their lowest and highest bytes written, in the order of R287. -/
def extentsOf (outs : List (Nat × Nat × Nat)) : List (Nat × Nat × Nat) :=
  let keys := sortBy (fun a b => decide (a < b)) (outs.map (·.1)).eraseDups
  keys.map fun k =>
    let mine := outs.filter fun e => e.1 == k
    (k, mine.foldl (fun a e => min a e.2.1) (2 ^ 64), mine.foldl (fun a e => max a e.2.2) 0)

/-- A dirty extent entry (Table 11-15). -/
def dirtyEntry (key lo hi : Nat) : List Byte :=
  leBytes 8 lo ++ leBytes 7 (hi - lo) ++ leBytes 1 (if outPort 0 ≤ key then 0x80 + (key - outPort 0) else 0)

/-- Write the dirty extent list of a task that ends aborted or cancelled: the flags of its `task.end` and the extents found,
`none` while it waits for its rows. -/
def dirtyList (s : State) (p : Nat) (st : Strm) (c : Cmd) (t : TaskSt) : State × Option (Nat × Nat) :=
  let all := sortBy (fun a b => decide ((a.1 - t.first).toNat < (b.1 - t.first).toNat ∨
    a.1 = b.1 ∧ a.2.1 < b.2.1)) t.entries
  let n := all.length
  let cap := if t.dirtyBuf = 0 then 0 else t.dirtyCap
  let bs := (all.take cap).flatMap fun e => dirtyEntry e.2.1 e.2.2.1 e.2.2.2.1
  let ovf := if cap < n then 0x100 else 0
  if bs.isEmpty then (s, some (ovf, n))
  else
    match ranM s (cmdCtx s p st c 0xFF 0) (wrPlain t.dirtyBuf bs) with
    | .ok _ r => (r.s, some (ovf, n))
    | .bad _ _ s => (s, some (0x100, n))
    | .host s => (s, none)

/-! ## Checksums (R412) -/

/-- The format of an output operand. -/
def Cmd.outFmt (c : Cmd) : Nat :=
  if opSOFTMAX ≤ c.op && c.op ≤ opNORM then c.get .fmtOut else c.nums.fmtO

/-- Read back the bytes that a command wrote to an output, in ascending logical order. -/
def readBack (c : Cmd) (outs : List (Nat × Nat × Nat)) (key : Nat) : M (List Byte) := do
  let runs := (outs.filter fun e => e.1 == key).map (·.2)
  if key < 6 then
    let d := c.desc key
    let fmt := c.outFmt
    if isFloat fmt then
      let z := fsize fmt
      let ls ← (List.range d.size).mapM fun i => do
        let a := d.addr z (d.coords i)
        if runs.any fun r => decide (r.1 ≤ a) && decide (a + z ≤ r.2) then rd a z else return []
      return ls.flatten
    else
      let asc := sortBy (fun a b => decide (a.1 < b.1)) runs
      let lo := d.codes
      let hi := d.codes + codeBytes fmt d.size
      -- the codes first, then the scales, also where the two lie side by side in one run
      let cuts := asc.map (fun r => (max r.1 lo, min r.2 hi)) ++ asc.map (fun r => (r.1, min r.2 lo)) ++
        asc.map (fun r => (max r.1 hi, r.2))
      let ls ← (cuts.filter fun r => decide (r.1 < r.2)).mapM fun r => rd r.1 (r.2 - r.1)
      return ls.flatten
  else
    let ls ← (sortBy (fun a b => decide (a.1 < b.1)) runs).mapM fun r => rd r.1 (r.2 - r.1)
    return ls.flatten

/-- Write the checksum entries of a command that completes with `OK`; how many. -/
def checksums (st : Strm) (c : Cmd) : M Nat := do
  let s ← getS
  let p ← partM
  let keys := (extentsOf c.outs).filter fun e => listsOutput c e.1 && decide (e.1 < outPort 0) && c.op != opSNAP
  let lg := field (eff s pgSNAP (0x208 + 0x10 * p)) 0 5
  let base := eff s pgSNAP (0x200 + 0x10 * p) * 16 + eff s pgSNAP (0x204 + 0x10 * p) * 2 ^ 36
  let k0 := s.ckSeq[pf p].toNat
  keys.zipIdx.forM fun ((key, _, _), i) => do
    let bs ← readBack c c.outs key
    let e := leBytes 4 c.stamp.toNat ++ leBytes 1 st.num ++ leBytes 1 c.op ++ leBytes 2 i ++
      leBytes 4 (crc32c bs) ++ leBytes 4 bs.length
    wrPlain (base + 16 * ((k0 + i) % 2 ^ lg)) e
  modS fun s => { s with ckSeq := s.ckSeq.set (pf p) (BitVec.ofNat 32 (k0 + keys.length)) }
  return keys.length

/-- Checksum mode of a partition (R411). -/
def checksumMode (s : State) (p : Nat) : Bool := bitOf (eff s pgSNAP 0x10C) (2 * p + 1)

/-! ## Ends that come by themselves -/

/-- Whether the units of a channel command are all done. -/
def Cmd.unitsDone (c : Cmd) : Bool :=
  c.stage == .started && c.isChan && decide (c.units ≤ c.handed) && c.unitsOut == 0 && c.shared == 0

/-- Whether an earlier command of the stream with `EVS_UPD` = 1 has not yet applied its updates (R243). -/
def scoresWait (x : StreamSt) (c : Cmd) : Bool :=
  (x.cmds.takeWhile fun o => o.stamp != c.stamp).any fun o =>
    o.op == opDEC && o.get .evsUpd == 1 && !(o.scored) && !(o.ended && o.status != stOK)

/-- A command takes the extents that a run has written. -/
def noteOuts (s : State) (p : Nat) (st : Strm) (stamp : Word) (r : Run) : State :=
  updCmd s p st stamp fun c => { c with outs := r.outs.foldl (fun o e => noteOut o e.1 e.2.1 e.2.2) c.outs }

/-- A channel command whose units are done finishes: its escape table is written (R42), its score updates are
applied once its writes are answered (R152), and it ends. -/
def finishChan (s : State) (p : Nat) (st : Strm) (c : Cmd) : State :=
  if !(c.unitsDone) || !(c.jobOver) || cmdWaits s p st c.stamp then s
  else if c.writesEscs && !c.escDone then
    let (e, r) := runM (wrEscs c c.escs) (Run.of s (cmdCtx s p st c 0xFF 7))
    match runWait s r.ctx e r with
    | some s => s
    | none =>
      match e with
      | .ok _ => noteOuts (updCmd r.s p st c.stamp fun c => { c with escDone := true }) p st c.stamp r
      -- entries that stand in `ESC_OUT` are a dirty extent (R105, R287)
      | .error (e, d) => endCmd (noteOuts r.s p st c.stamp r) p st c.stamp e d
  else if c.scores.isEmpty then
    if c.op = opDEC && c.get .evsUpd = 1 && scoresWait (strm s p st) c then s
    else endCmd (updCmd s p st c.stamp fun c => { c with scored := true }) p st c.stamp stOK 0
  else if scoresWait (strm s p st) c then s
  else
    match ranM s (cmdCtx s p st c 0xFF 7) (c.scores.forM scoreAdd) with
    | .ok _ r => updCmd r.s p st c.stamp fun c => { c with scores := [] }
    | .bad e d s => endCmd s p st c.stamp e d
    | .host s => s

/-- Whether every earlier command of the stream is complete. -/
def isHead (x : StreamSt) (c : Cmd) : Bool := x.cmds.head?.any fun o => o.stamp == c.stamp

/-- The condition of a `fence` (R277). -/
def fenceDone (s : State) (p : Nat) (st : Strm) (c : Cmd) : Bool :=
  isHead (strm s p st) c &&
    allStrms.all fun o =>
      o == st || !(bitOf (leAt c.record 36 1) o.num) ||
        stampGe (strm s p o).low (BitVec.ofNat 32 (leAt c.record (44 + 4 * o.num) 4))

/-- The ticks that a fence has waited. -/
def fenceTicks (c : Cmd) : Nat := c.ticks

/-- End an issued control command whose condition holds (R277 to R279). -/
def settleControl (s : State) (p : Nat) (st : Strm) (c : Cmd) : State :=
  let x := strm s p st
  if c.stage != .issued || !(isControl c.op) then s
  else if c.op = opFENCE then
    if fenceDone s p st c then
      endCmd (updCmd s p st c.stamp fun c => { c with countA := fenceTicks c }) p st c.stamp stOK 0
    else s
  else if c.op = opWAITPHASE then
    if leAt c.record 40 8 ≤ s.cad.phase.toNat then endCmd s p st c.stamp stOK 0 else s
  else if c.op = opSTAMP then
    if isHead x c then
      match ranM s (cmdCtx s p st c 0xFF 0)
        (wrPlain (leAt c.record 48 8) (leBytes 8 (leAt c.record 40 8) ++ leBytes 8 s.cad.phase.toNat)) with
      | .ok _ r => endCmd r.s p st c.stamp stOK 0
      | .bad e d s => endCmd s p st c.stamp e d
      | .host s => s
    else s
  else s

/-- A `task.end` of a task ends once every other command of the task is complete (R278, R286, R287). -/
def settleTaskEnd (s : State) (p : Nat) (st : Strm) (c : Cmd) : State :=
  let x := strm s p st
  if c.op != opTASKEND || c.ended then s
  else if !(c.inTask) then (if c.stage = .issued then endCmd s p st c.stamp stOK 0 else s)
  else if x.cmds.any fun o => o.inTask && o.task == c.task && o.stamp != c.stamp then s
  else
    match x.tasks.find? fun t => t.first == c.task with
    | none => if c.stage = .issued then endCmd s p st c.stamp stOK 0 else s
    | some t =>
      if t.aborted || t.cancelled then
        match dirtyList s p st c t with
        | (s, none) => s
        | (s, some (fl, n)) =>
          let s := updCmd s p st c.stamp fun c => { c with flags := c.flags ||| fl, countA := n, countB := t.commands }
          if c.status != stOK then markEnd s p st c.stamp c.status c.detail
          else markEnd s p st c.stamp (if t.cancelled then stCANCELLED else stABORTED) 0
      else if c.stage = .issued then
        endCmd (updCmd s p st c.stamp fun c => { c with countB := t.commands }) p st c.stamp stOK 0
      else s

/-- The command that issues next in a stream. -/
def headCmd (s : State) (p : Nat) (st : Strm) : Option Cmd := (strm s p st).cmds.find? fun c => c.stage == .fetched

/-- A record whose opcode is in no table is refused when its turn to issue comes (R264). -/
def refuseUnknown (s : State) (p : Nat) (st : Strm) : State :=
  match headCmd s p st with
  | some c =>
    if opKnown c.op then s
    else match firstRef (recordRefs c.op c.record) with
      | some f => refuseCmd s p st c.stamp f
      | none => s
  | none => s

/-- One round over the commands of a stream. -/
def settleRound (s : State) (p : Nat) (st : Strm) : State :=
  (strm s p st).cmds.foldl (fun s c =>
    match getCmd s p st c.stamp with
    | none => s
    | some c =>
      let s := finishChan s p st c
      let s := settleControl s p st ((getCmd s p st c.stamp).getD c)
      settleTaskEnd s p st ((getCmd s p st c.stamp).getD c)) s

/-- What ends by itself in the streams of a partition. -/
def settle (s : State) (p : Nat) : State :=
  let round (s : State) : State :=
    allStrms.foldl (fun s st => settleRound (refuseUnknown (runCancel s p st) p st) p st) s
  round (round (round s))

/-- A `fence` counts ticks, and times out (R277). -/
def fenceTick (s : State) (p : Nat) (st : Strm) : State :=
  updStrm s p st fun x =>
    { x with cmds := x.cmds.map fun c => if c.op = opFENCE && c.stage = .issued then { c with ticks := c.ticks + 1 } else c }

/-- The fence of a stream that has waited its `TIMEOUT`. -/
def fenceLate (s : State) (p : Nat) (st : Strm) : Option Cmd :=
  (strm s p st).cmds.find? fun c =>
    c.op == opFENCE && c.stage == .issued && leAt c.record 40 4 != 0 && decide (leAt c.record 40 4 ≤ c.ticks)

/-! ## Completion -/

/-- The owner of the reads of a parameter block. -/
def paramOwner (p : Nat) (st : Strm) (stamp : Word) : Owner := .command (pf p) st stamp 0xFD

/-- The reads in flight of owners for which `f` holds serve nothing any more, and what was answered is dropped. -/
def dropReads (s : State) (f : Owner → Bool) : State :=
  let off (r : IqReq) : IqReq := if f r.owner then { r with owner := .dropped } else r
  { s with
    iqDone := s.iqDone.filter fun r => !(f r.owner)
    fab := s.fab.map fun x => { x with waiting := x.waiting.map off, sent := x.sent.map off } }

/-- What a stream's fetch has in flight or has read is dropped: a later arming fetches anew (DEDUCED, log 23). -/
def dropFetch (s : State) (p : Nat) (st : Strm) : State :=
  dropReads s fun o => o == .ring (pf p) st || o == paramOwner p st (strm s p st).next

/-- The ring record of R261: the stream disarms at once. -/
def ringFail (s : State) (p : Nat) (st : Strm) (va : Nat) : State :=
  let x := strm s p st
  let s := addFault s { faultOf (Who.cmd p st x.next 0) 4 7 with addr := va, akind := 1, arg0 := x.next.toNat }
  updStrm (dropFetch s p st) p st fun x => { x with armed := false, draining := false, polling := false }

/-- Whether a command's completion record may be written now: it ended, its requests are answered, and no
earlier one of the same aborted or cancelled task waits (R286, R333). -/
def completable (s : State) (p : Nat) (st : Strm) (c : Cmd) : Bool :=
  let x := strm s p st
  let held (t : TaskSt) : Bool := c.inTask && t.first == c.task && (t.aborted || t.cancelled)
  let ahead := x.doneQ.takeWhile fun k => k != c.stamp
  c.ended && !(cmdWaits s p st c.stamp) &&
    !(x.tasks.any held && x.cmds.any fun o => ahead.contains o.stamp && o.inTask && o.task == c.task)

/-- A command that ended so that it writes no record (R296). -/
def Cmd.noRecord (c : Cmd) : Bool := c.quiet && c.status == stOK

/-- Whether the completion ring has room for one more record (R297). -/
def ringRoom (s : State) (p : Nat) (st : Strm) : Bool :=
  let x := strm s p st
  decide ((x.cseq + 1 - x.chead).toNat ≤ 2 ^ field (strmField s [] p st.num 4) 8 5)

/-- The command that completes next: the first that ended of those that need no record or have room for it (R297). -/
def nextDone (s : State) (p : Nat) (st : Strm) : Option Cmd :=
  (strm s p st).doneQ.findSome? fun k =>
    (getCmd s p st k).filter fun c => completable s p st c && (c.noRecord || ringRoom s p st)

/-- Advance `LOW` over completed stamps. -/
def advanceLow : Nat → Word → List Word → Word × List Word
  | 0, l, ds => (l, ds)
  | k + 1, l, ds => if ds.contains l then advanceLow k (l + 1) (ds.filter fun d => d != l) else (l, ds)

/-- The advisor's step after a command that completes with `OK` (R48): whether it was raised. -/
def advise (s : State) (p : Nat) (st : Strm) (c : Cmd) : State × Bool :=
  let n := c.nums
  let slot := 64 * st.num + c.monBase
  let step := advStep s p st c.monBase
  if c.status = stOK && c.isChan && n.autoPrec && advHit s c.totals && step < precTop n.fmtS n.precMax then
    (updPart s p fun x => { x with advisor := assocSet x.advisor slot (step + 1) }, true)
  else (s, false)

/-- Take a command out of its stream: pins and lookahead place are released (Table 11-13). -/
def completeCmd (s : State) (p : Nat) (st : Strm) (c : Cmd) : State :=
  let s := match c.pin with
    | some n => dropPin s p n
    | none => s
  let s := updPart s p fun x =>
    { x with counters := x.counters.filter fun w => !(w.strm == st && w.stamp == c.stamp) }
  let s := { s with iqDone := s.iqDone.filter fun r => !(r.owner.isCmd p st c.stamp) }
  let stop := c.op == opTASKEND && c.inTask &&
    (strm s p st).tasks.any fun t => t.first == c.task && t.aborted && t.stop
  let s := updStrm s p st fun x =>
    let (low, ds) := advanceLow (x.doneSet.length + 1) x.low (x.doneSet ++ [c.stamp])
    let es := ((extentsOf c.outs).filter fun e => listsOutput c e.1).map fun e => (c.stamp, e.1, e.2.1, e.2.2, 0)
    { x with
      cmds := x.cmds.filter fun o => o.stamp != c.stamp
      doneQ := x.doneQ.filter fun k => k != c.stamp
      low := low
      doneSet := ds
      tasks :=
        if c.op = opTASKEND && c.inTask then x.tasks.filter fun t => t.first != c.task
        else x.tasks.map fun t =>
          if c.inTask && t.first = c.task then { t with entries := t.entries ++ es } else t
      draining := x.draining || stop && x.armed }
  let s := updStrm s p st fun x => if x.draining && x.cmds.isEmpty then { x with armed := false, draining := false } else x
  settle s p

/-- Whether a command outside every task, a task of its own without a list (R284), ends aborted or cancelled with an
extent to list (R287, R290). -/
def ownOvf (c : Cmd) : Bool :=
  !c.inTask && (!(goesOn c.status) || c.status == stCANCELLED) && (extentsOf c.outs).any fun e => listsOutput c e.1

/-- The bytes of a completion record (Table 11-17). -/
def completionBytes (c : Cmd) (cseq : Nat) (raised : Bool) : List Byte :=
  let fl := c.flags ||| (if raised then 0x20 else 0) |||
    (if c.isChan && c.param.length ≠ 0 && c.nums.autoPrec then c.prec % 4 * 0x40 else 0) ||| (if ownOvf c then 0x100 else 0)
  leBytes 1 c.status ++ leBytes 1 c.op ++ leBytes 2 c.tag ++ leBytes 4 c.stamp.toNat ++ leBytes 4 cseq ++
    leBytes 2 fl ++ leBytes 2 c.detail ++ leBytes 4 c.countA ++ leBytes 4 c.countB ++ leBytes 8 c.info

/-- Completion ring of a stream: base and the log of its records (Table 11-1). -/
def ringVa (s : State) (p : Nat) (st : Strm) (k : Nat) : Nat :=
  strmField s [] p st.num k + strmField s [] p st.num (k + 1) * 2 ^ 32

/-- The address of the completion record of number `n` of a stream. -/
def recordVa (s : State) (p : Nat) (st : Strm) (n : Nat) : Nat :=
  ringVa s p st 2 + 32 * (n % 2 ^ field (strmField s [] p st.num 4) 8 5)

/-- The write of a completion record (R296). -/
def recordRun (s : State) (p : Nat) (st : Strm) (c : Cmd) (n : Nat) (raised : Bool) : Ran Unit :=
  ranM s { who := Who.cmd p st c.stamp 0, part := p, root := none, owner := .completion (pf p) st }
    (wrPlain (recordVa s p st n) (completionBytes c n raised))

/-- A command completes with its record, number `n`; a ring that does not take the record disarms the stream (R261). -/
def putRecord (s : State) (p : Nat) (st : Strm) (c : Cmd) (n : Nat) (raised : Bool) : State :=
  (recordRun s p st c n raised).fold
    (fun _ r => completeCmd (updStrm r.s p st fun x => { x with cseq := x.cseq + 1 }) p st c)
    (fun e _ s2 => completeCmd (ringFail (if e = stECC then s2 else s) p st (recordVa s p st n)) p st c)
    (fun s2 => s2)

/-- Complete a command whose checksums are written: its record, unless it is quiet (R296). -/
def writeRecord (s : State) (p : Nat) (st : Strm) (c : Cmd) : State :=
  if c.noRecord then completeCmd (advise s p st c).1 p st c
  else putRecord (advise s p st c).1 p st c ((strm s p st).cseq + 1).toNat (advise s p st c).2

/-- The release of a command's pin asks for rows of the table area that are in DOZE: the completion waits (R313). -/
def pinAsks (s : State) (p : Nat) (c : Cmd) : Option State :=
  if !(anyDoze s) then none
  else c.pin.bind fun n => if asks s (dropPin s p n) then some (askRows s (dropPin s p n)) else none

/-- Write the next completion record of a stream (R296), its checksum entries before it (R412). -/
def completeNext (s : State) (p : Nat) (st : Strm) : State :=
  match nextDone s p st with
  | none => s
  | some c =>
    if let some t := pinAsks s p c then t
    else if c.status = stOK && checksumMode s p && !(isControl c.op) then
      match ranM s (cmdCtx s p st c 0xFF 0) (checksums st c) with
      | .ok _ r => writeRecord r.s p st c
      | .bad e d s => endCmd s p st c.stamp e d
      | .host s => s
    else writeRecord s p st c

end Sys2Proof.Machine
end

