-- ==== Sys2Proof/Machine/Energy.lean ====
section
/-! DEFINITION. Energy estimates (R308, Table 12-6) and what the governor charges (R309, R310). Where Table 12-6
names a count and not its formula, the one here follows Worked example 12-1 (DEDUCED, log entry 20). -/

namespace Sys2Proof.Machine

open Sys2Proof

/-- The four counts of R308. -/
structure Work where
  b : Nat
  u : Nat
  r : Nat
  w : Nat

def Work.zero : Work := { b := 0, u := 0, r := 0, w := 0 }

/-- The voltage factor of a point (Table 12-8). -/
def voltFactor (point : Nat) : Nat := [40459, 48149, 56508, 65536].getD (point % 4) 65536

/-- The estimate, in nanojoules. -/
def estimate (s : State) (x : Work) : Nat :=
  let k (i : Nat) : Nat := eff s pgPWR (0x124 + 4 * i)
  ceilDiv (voltFactor s.gov.point * (k 0 * x.b + k 1 * x.u) + 2 ^ 16 * (k 2 * x.r + k 3 * x.w)) (2 ^ 32)

def rowsFor (bytes : Nat) : Nat := ceilDiv bytes 512

/-- Rows of codes and of scales of `n` vectors of `hdim` elements. -/
def vecRows (fmt hdim n : Nat) : Nat :=
  if isFloat fmt then rowsFor (n * hdim * fsize fmt)
  else rowsFor (n * roundUp hdim 32 * fmtBits fmt / 8) + rowsFor (n * (roundUp hdim 32 / 32))

/-- Cycles of a pass of `n` rows (R64). -/
def passCycles (n w wT : Nat) : Nat := max (n * w) (32 * wT)

/-- The streamed format that an estimate counts (R49, R308). -/
def Cmd.fmtPlan (c : Cmd) : Nat :=
  let n := c.nums
  if n.autoPrec then precFmt n.fmtS (precTop n.fmtS n.precMax) n.precMax
  else if isFloat n.srcS && n.precForce then precFmt n.fmtS n.precStep n.precMax
  else n.fmtS

/-- Whether a virtual address lies in store, as the partition's tables show. -/
def inStore (s : State) (x : Ctx) (va : Nat) : Bool :=
  match xlate s x va false with
  | (_, .ok pa _) => isStore pa
  | _ => false

/-- Store rows that an operand names. -/
def opdRows (s : State) (x : Ctx) (d : Desc) (fmt : Nat) : Nat :=
  if !(inStore s x d.codes) then 0
  else rowsFor (codeBytes fmt d.size) + (if isBlock fmt then rowsFor (d.size / 32) else 0)

/-- A unit of `n` rows against `t` tiles of keys and values: score arrays at the widths of Q and K, value arrays at
those of P and V (R64). Of the store rows, `q` are the streamed rows that each pair of passes reads again, `r` the others
that it reads, `w` those that it writes. -/
def tileWork (c : Cmd) (n t fmtK fmtV q r w : Nat) : Work :=
  { b := t * (passCycles n (fmtWidth c.fmtPlan) (fmtWidth fmtK) +
      passCycles n (fmtWidth (c.get .fmtP)) (fmtWidth fmtV))
    u := n * t + n
    r := ceilDiv t 2 * q + r
    w := w }

/-- Store rows of `t` tiles of pages of a pool, `pages` those of a list: the tiles, less the pages of the list that do not
lie in store. -/
def pageRows (at_ : Nat → Bool) (h : Shape) (hdim t : Nat) (pages : List Nat) : Nat :=
  let of (n : Nat) : Nat := vecRows h.fmtK hdim n + vecRows h.fmtV hdim n
  t * of 1024 - (pages.filter fun va => !(at_ va)).length * of 256

/-- The largest of some counts. -/
def most (l : List Nat) : Nat := l.foldl max 0

/-- The estimate's counts of one full unit of a channel command (Table 12-6). R and W count rows of store alone: of an
operand in another memory none, and of pages those in store (R308). -/
def unitWork (s : State) (x : Ctx) (c : Cmd) (lens : List Nat) : Work :=
  let n := c.nums
  let h := shapeOf s [] x.part
  let hd := c.get .hdim
  let g := c.get .qpk
  let at_ (va rows : Nat) : Nat := if inStore s x va then rows else 0
  let opd (i rows : Nat) : Nat := at_ (c.desc i).codes rows
  let fld (f : Fld) (bytes : Nat) : Nat := if c.get f = 0 then 0 else at_ (c.get f) (rowsFor bytes)
  let floats (fmt k : Nat) : Nat := rowsFor (k * fsize fmt)
  let page (seq j k : Nat) : Nat := pageVA h seq (c.get .layer) (c.get .kvh0 + j) k
  let heads : List Nat := List.range (c.get .hkv)
  if c.op = opFWD then
    let rows := c.get .rgPos * g
    let len := if fwdPages c then most lens else c.get .lk
    let t := ceilDiv len 1024
    let kv := if fwdPages c then
        most (heads.map fun j => pageRows (inStore s x) h hd t ((List.range (ceilDiv len 256)).map (page (c.get .seq) j)))
      else t * (opd 1 (vecRows n.fmtT hd 1024) + opd 2 (vecRows (c.get .fmtV) hd 1024))
    tileWork c rows t n.fmtT (c.get .fmtV) (opd 0 (vecRows n.srcS hd rows)) kv
      (opd 3 (floats n.fmtO (rows * hd)) + fld .statOut (8 * rows))
  else if c.op = opDEC then
    let rows := most (c.ents.map fun w => field w 16 7 * g)
    let tree := isTree c
    let tiles (l : Nat) : Nat := ceilDiv (ceilDiv l 256 - c.get .pfxPages + (if tree then 1 else 0)) 4
    let kv := most (c.ents.zipIdx.flatMap fun (w, e) => heads.map fun j =>
      let l := lens.getD e 0
      let pages := ((List.range (ceilDiv l 256)).filter fun k => decide (c.get .pfxPages ≤ k)).map (page (field w 0 16) j)
      pageRows (inStore s x) h hd (tiles l) (pages ++ if tree then [c.get .candK] else []))
    tileWork c rows (most (lens.map tiles)) h.fmtK h.fmtV (opd 0 (vecRows n.srcS hd rows))
      (kv + (if c.get .pfxPages = 0 then 0 else fld .partBuf (528 * rows)) + fld .selIn 512)
      (opd 1 (floats n.fmtO (rows * hd)) + fld .statOut (8 * rows))
  else if c.op = opBWDA || c.op = opBWDB then
    let isB := c.op == opBWDB
    let nRows := if isB then c.get .rgPos else c.get .rgPos * g
    let t := if isB then ceilDiv (c.get .lq * g) 1024 else ceilDiv (c.get .lk) 1024
    let beta := ceilDiv nRows 8
    let wds := fmtWidth (c.get .fmtDs)
    let (a, b) := if isB then (max (fmtWidth c.fmtPlan) (fmtWidth (c.get .fmtV)), max wds (fmtWidth (c.get .fmtP)))
      else (max (fmtWidth c.fmtPlan) (fmtWidth (c.get .fmtDo)), wds)
    let cyc := nRows * (a + b) + 4 * max (beta - 1) 1
    -- a pass that is shorter than its successor's ripple costs that ripple (R63, R128)
    let wV := fmtWidth (c.get (if isB then .fmtDo else .fmtV))
    let qs (fmt k : Nat) : Nat := opd 0 (vecRows fmt hd k) + opd 3 (vecRows (c.get .fmtDo) hd k)
    let ks (fmt k : Nat) : Nat := opd 1 (vecRows fmt hd k) + opd 2 (vecRows (c.get .fmtV) hd k)
    { b := t * (max cyc (32 * fmtWidth n.fmtT) + max cyc (32 * wV))
      u := nRows * t + nRows
      r := if isB then ceilDiv t 2 * ks n.fmtS nRows + t * (qs n.fmtT 1024 + fld .dstat 8192)
        else ceilDiv t 2 * qs n.fmtS nRows + t * ks n.fmtT 1024 + opd 4 (floats (c.get .fmtOi) (nRows * hd)) +
          fld .statIn (8 * nRows)
      w := opd 5 (floats n.fmtO (nRows * hd)) +
        if isB then opd 4 (floats n.fmtO (nRows * hd)) else fld .dstat (8 * nRows) }
  else if c.op = opSELECT then
    let rows := most (c.ents.map fun w => field w 16 7 * g)
    let np (l : Nat) : Nat := ceilDiv l 256
    let t := ceilDiv (np (most lens)) 1024
    let mode := c.get .cmpMode
    let w := fmtWidth c.fmtPlan + [0, 2, 4, 0].getD mode 0
    let wT := if mode = 3 then 2 * fmtBits h.fmtSum else fmtWidth h.fmtSum
    let sums := most (c.ents.zipIdx.flatMap fun (w, e) => heads.map fun j =>
      2 * (((List.range (np (lens.getD e 0))).map (page (field w 0 16) j)).filter (inStore s x)).length)
    { b := t * passCycles rows w wT, u := rows * t
      r := sums + ceilDiv t 2 * opd 0 (vecRows n.srcS hd rows), w := fld .selOut 512 }
  else if c.op = opSOFTMAX then
    let cols := c.get .cols
    { b := 0, u := 3 * ceilDiv cols 512, r := 3 * opd 0 (floats (c.get .fmtI) cols)
      w := opd 1 (floats (c.get .fmtOut) cols) + fld .statOut 8 }
  else if c.op = opFN then
    let k := min 65536 (c.get .count)
    { b := 0, u := ceilDiv k 512, r := opd 0 (floats (c.get .fmtI) k), w := opd 1 (floats (c.get .fmtOut) k) }
  else if c.op = opNORM then
    let cols := c.get .cols
    let vec (f : Fld) : Nat := fld f (cols * fsize (c.get .fmtI))
    { b := 0, u := 2 * ceilDiv cols 64, r := 2 * opd 0 (floats (c.get .fmtI) cols) + vec .gamma + vec .beta
      w := opd 1 (floats (c.get .fmtOut) cols) + fld .statOut 8 }
  else if c.op = opROT then
    let k := min 2048 (c.get .rows)
    { b := 0, u := k * ceilDiv hd 128, r := opd 0 (floats n.srcS (k * hd)) + fld .freq (2 * c.get .rotDim)
      w := opd 1 (vecRows n.fmtO hd k) }
  else Work.zero

/-- A swarm row group: 2,048 rows of one KV head over the shared list. -/
def groupWork (s : State) (x : Ctx) (c : Cmd) (head : Nat) : Work :=
  let h := shapeOf s [] x.part
  let hd := c.get .hdim
  let t := ceilDiv (c.get .pfxPages) 4
  let at_ (va rows : Nat) : Nat := if inStore s x va then rows else 0
  tileWork c 2048 t c.nums.fmtT (c.get .fmtV) (at_ (c.desc 0).codes (vecRows c.nums.srcS hd 2048))
    (pageRows (inStore s x) h hd t
      ((List.range (c.get .pfxPages)).map (pageVA h (c.get .pfxSeq) (c.get .layer) head)))
    (at_ (c.get .partBuf) (rowsFor (528 * 2048)))

/-- What an edit did to the tables and frames, as Table 09-12 counts it: granules, frames (of those that are not copied
the writes alone), rows of frame records, and five regions of each of `pos` appended positions and heads. -/
def editWork (h : Shape) (t : Tx) (pos : Nat) : Work :=
  let g := 64 * t.own.length
  let k := ((t.refs.map fun e => e.1 / 64).eraseDups).length + 5 * pos
  { b := 0, u := 0, r := g + 64 * h.fg * t.copied + k, w := g + 64 * h.fg * t.taken.length + k }

/-- An edit, run whole, with what it did to tables and frames. -/
def editStat {α : Type} (m : M α) : M (α × Tx) :=
  editM do
    let a ← m
    return (a, (← get).tx)

/-! ## The budget (R310) -/

/-- Whether the budget lets a charge start. -/
def budgetFits (s : State) (e : Nat) : Bool :=
  let lv := s.gov.level
  !(bitOf (eff s pgPWR 0x100) 0) || decide ((e : Int) ≤ lv) || decide (lv = (eff s pgPWR 0x10C : Int))

/-- Charge the budget. -/
def charge (s : State) (e : Nat) : State :=
  if bitOf (eff s pgPWR 0x100) 0 then { s with gov := { s.gov with level := s.gov.level - e } } else s

end Sys2Proof.Machine
end

