-- ==== Sys2Proof/Machine/Swarm.lean ====
section
/-! DEFINITION. Swarms of `attn.dec` (R138 to R145): joining at issue, rows that run on their own, launches. -/

namespace Sys2Proof.Machine

open Sys2Proof

/-- What the shared parts of a swarm have in common (R138, R166). -/
def swarmKey (c : Cmd) (j : Nat) : List Nat :=
  let n := c.nums
  [c.get .pfxSeq, c.get .pfxPages, c.get .layer, c.get .kvh0 + j, n.fmtS, n.fmtT, c.get .fmtV, c.get .fmtP,
    c.get .hdim, c.get .scale, field (c.get .mask) 1 1, c.get .window, c.gen]

/-- Whether the entry's sequence maps the pages of the prefix to the frames of `PFX_SEQ` (R139). -/
def sharesPrefix (root : Nat) (h : Shape) (c : Cmd) (seq j : Nat) : M Bool :=
  if seq = c.get .pfxSeq then return true
  else (List.range (c.get .pfxPages)).allM fun k => do
    let a ← pageAt root h seq (c.get .layer) (c.get .kvh0 + j) k
    let b ← pageAt root h (c.get .pfxSeq) (c.get .layer) (c.get .kvh0 + j) k
    return a.map (·.base) == b.map (·.base)

/-- The made rows of a command for relative head `j`, by whether they read the frames of `PFX_SEQ`: those that do,
then for each other entry its own. -/
def sharedRows (c : Cmd) (j : Nat) : M (List Nat × List (List Nat)) := do
  let h ← shapeM
  let root ← theRoot
  let parts ← c.ents.zipIdx.mapM fun (w, e) => do
    return (← sharesPrefix root h c (field w 0 16) j, madeRows c e j)
  return ((parts.filter (·.1)).flatMap (·.2), (parts.filter fun x => !x.1 && !(x.2.isEmpty)).map (·.2))

/-- The number of a new swarm of a partition. -/
def swarmId (x : Partition) : Nat := x.swarms.foldl (fun a w => max a (w.id + 1)) 0

/-- The members of a swarm by the order in which their commands were fetched; `base` is the oldest stamp of the stream. -/
def fetchOrder (base : Word) (ms : List SwarmMember) : List SwarmMember :=
  sortBy (fun a b => decide ((a.stamp - base).toNat < (b.stamp - base).toNat)) ms

/-- The rows of a launched swarm in order: by command as fetched, then ascending (R142). A launch leaves the members in
that order, and they stay so, whatever completes. -/
def Swarm.rows (w : Swarm) : List (Word × Nat) := w.members.flatMap fun m => m.rows.map fun r => (m.stamp, r)

def Swarm.count (w : Swarm) : Nat := w.members.foldl (fun n m => n + m.rows.length) 0

/-- Launch a swarm; `off` is the launch counter, 0 for none (R141). -/
def launch (s : State) (p : Nat) (id off : Nat) : State :=
  match (part s p).swarms.find? fun w => w.id == id with
  | none => s
  | some w =>
    let n := w.count
    let base := ((strm s p w.strm).cmds.head?.map (·.stamp)).getD 0
    let e := match w.members.head?.bind fun m => getCmd s p w.strm m.stamp with
      | some c => estimate s (groupWork s (cmdCtx s p w.strm c 0xFF 0) c (w.key.getD 3 0))
      | none => 0
    let s := updPart s p fun x =>
      { x with swarms := x.swarms.map fun w =>
          if w.id = id then
            { w with launched := true, members := fetchOrder base w.members, groups := ceilDiv n 2048, energy := e }
          else w }
    if w.counted then bump (if off = 0 then s else bump s p pgSTRM off 1) p pgSTRM 0xF3C n else s

/-- Add a swarm of rows of one command that is launched at once and counts nothing (R138, R139). -/
def soloSwarm (s : State) (p : Nat) (st : Strm) (c : Cmd) (j : Nat) (rows : List Nat) : State :=
  let id := swarmId (part s p)
  let w : Swarm :=
    { id := id, strm := st, key := swarmKey c j, launched := false, counted := false, next := 0
      groups := 0
      energy := 0
      members := [{ stamp := c.stamp, head := j, rows := rows, phase := s.cad.phase, hold := 0 }] }
  launch (updPart s p fun x => { x with swarms := x.swarms ++ [w] }) p id 0

/-- The shared part of a head joins the swarm that is held for its key, or begins one (R140). -/
def joinSwarm (s : State) (p : Nat) (c : Cmd) (j : Nat) (rows : List Nat) : State :=
  let key := swarmKey c j
  let m : SwarmMember := { stamp := c.stamp, head := j, rows := rows, phase := s.cad.phase, hold := c.get .hold }
  updPart s p fun x =>
    if x.swarms.any fun w => w.strm == .S && !(w.launched) && w.counted && w.key == key then
      { x with swarms := x.swarms.map fun w =>
          if w.strm = .S && !(w.launched) && w.counted && w.key = key then { w with members := w.members ++ [m] } else w }
    else
      { x with
        swarms := x.swarms ++ [{ id := swarmId x, strm := .S, key := key, members := [m], launched := false,
                                 counted := true, next := 0, groups := 0, energy := 0 }] }

/-- Whether a stream cannot fetch further: its lookahead is full, or a `fence` or a `task.end` that is not complete,
or a `wait.phase` whose phase has not come, stands in it (R274, R277, R278; event 4 of R140). -/
def fetchBlocked (x : StreamSt) : Bool :=
  decide (Config.lookahead ≤ x.cmds.length) ||
    x.cmds.any fun c => c.op == opFENCE || c.op == opTASKEND || c.op == opWAITPHASE && !(c.ended)

/-- The counter of the first event of R140 that holds for a held swarm, where one does. -/
def launchEvent (s : State) (p : Nat) (w : Swarm) : Option Nat :=
  let depth := ceilDiv (32 * fmtWidth (w.key.getD 5 0)) (fmtWidth (w.key.getD 4 0))
  let late (m : SwarmMember) : Bool := decide (m.phase.toNat + m.hold ≤ s.cad.phase.toNat)
  if depth ≤ w.count then some 0xF30
  else if w.members.any fun m => m.hold != 0 && late m then some 0xF34
  else if w.members.any (fun m => m.hold == 0) || fetchBlocked (strm s p .S) then some 0xF38
  else none

/-- The rows of a row group of a swarm, those of commands that ended left out (R142, R145). -/
def groupRows (s : State) (p : Nat) (w : Swarm) (k : Nat) : List (Word × Nat) :=
  let x := strm s p w.strm
  (w.rows.drop (2048 * k)).take 2048 |>.filter fun r => x.cmds.any fun c => c.stamp == r.1 && !(c.ended)

/-- Channels whose row group has lost every row abandon it: its tiles are discarded (R286, R291). -/
def dropGroups (s : State) (p : Nat) : State :=
  (List.range 8).foldl (fun s n =>
    match (chan s n).unit with
    | some u =>
      let gone : Bool := u.swarm.any fun id =>
        ((part s p).swarms.find? fun w => w.id == id).any fun w => (groupRows s p w u.value).isEmpty
      if u.part.val == p && gone then bumpFree (updChan s n fun x => { x with unit := none }) p 0xF24 else s
    | none => s) s

/-- Launch the held swarms of a partition for which an event of R140 holds. -/
def launchDue (s : State) (p : Nat) : State :=
  let s := dropGroups s p
  (part s p).swarms.foldl (fun s w =>
    if w.launched then s
    else match launchEvent s p w with
      | some off => launch s p w.id off
      | none => s) s

/-- Launch every held swarm at once (R404). DESIGN CHOICE (log 72): such a launch is none of the events of R140 and adds to
no launch counter; its rows count in `SWARM_ROWS` (R141). -/
def launchAll (s : State) (p : Nat) : State :=
  (part s p).swarms.foldl (fun s w => if w.launched then s else launch s p w.id 0) s

/-- The shared parts of a command that has issued (R138 to R140). -/
def joinShared (s : State) (p : Nat) (st : Strm) (c : Cmd) (parts : List (List Nat × List (List Nat))) : State :=
  parts.zipIdx.foldl (fun s ((shared, own), j) =>
    let s := own.foldl (fun s rows => bump (soloSwarm s p st c j rows) p pgSTRM 0xF40 rows.length) s
    if shared.isEmpty then s
    else if st = .S then joinSwarm s p c j shared
    else soloSwarm s p st c j shared) s

end Sys2Proof.Machine
end

