-- ==== Sys2Proof/Machine/Issue.lean ====
section
/-! DEFINITION. Issue of the commands that have no engine of their own (Table 11-13, R274, R280): channel commands and
control commands; what a command that reads the pool waits for (R216, R225). -/

namespace Sys2Proof.Machine

open Sys2Proof

/-- Address fields of a family section that a command reads or writes through. -/
def addrFields : List Fld :=
  [.escV, .lenTab, .statOut, .escDo, .statIn, .dstat, .entTab, .treeTab, .candK, .candV, .partBuf, .selIn, .selOut,
    .gamma, .beta, .posTab, .freq, .buf0, .buf1, .keepVa, .fwd, .stage, .img, .tens]

/-- Whether an address field or a descriptor of a command holds an address of the pool region (R216). -/
def poolAddr (c : Cmd) : Bool :=
  let n := c.nums
  ([n.escS, n.escT, n.escOut] ++ addrFields.map c.get ++
    (List.range (descCount c.op)).flatMap fun i => let d := c.desc i; [d.codes, d.scales, d.bounce]).any fun a => bitOf a 55

/-- Whether a command reads the pool (R216). -/
def poolReads (s : State) (p : Nat) (c : Cmd) : Bool :=
  hasPool s p && !(isControl c.op) && !(c.param.isEmpty) &&
    (c.op == opFWD && fwdPages c || c.op == opDEC || c.op == opSELECT || c.op == opMOLT && c.get .mode == 0 || poolAddr c)

/-- The generation that a command issued now takes (R164). -/
def curGen (s : State) : Nat := s.gens.foldl (fun a g => max a g.gen) 0

/-- An edit of the stream before `c` that has not made its instar current. -/
def editBefore (x : StreamSt) (c : Cmd) : Bool :=
  (x.cmds.takeWhile fun o => o.stamp != c.stamp).any fun o => o.isEdit && !(o.ended)

/-- The pin of a command that issues: `none` while it waits for one (R225). -/
def takeCmdPin (s : State) (p : Nat) (st : Strm) (c : Cmd) : Option (State × Cmd) :=
  if c.pin.isSome then some (s, c)
  else
    match takePin s p with
    | none => none
    | some s =>
      let c := { c with pin := some (pool s p).instar }
      some (updCmd s p st c.stamp fun _ => c, c)

/-- A parameter block that could not be read makes its command complete at issue (R265). -/
def paramFail (s : State) (p : Nat) (st : Strm) (c : Cmd) : State :=
  if c.paramErr = stECC then endCmd s p st c.stamp stECC c.detail
  else
    let s := addFault s { faultOf (Who.cmd p st c.stamp 0) 4 6 with addr := c.paramVA, akind := 1 }
    endCmd s p st c.stamp stABORTED (lastFault s)

/-- Live channels of a partition that can take a unit of a command: with a pair for attention (R79), with an array for
`page.select`. -/
def chanServes (s : State) (op n : Nat) : Bool :=
  let role := (chan s n).role
  chLive s n &&
    (if op = opSELECT then field role 0 3 != 7 || field role 12 3 != 7
    else if opSELECT < op && op != opRING then true
    else field role 0 3 != 7)

/-- A command that no channel of its partition can serve is refused (R7, R81). -/
def chanRefs (s : State) (p : Nat) (c : Cmd) : List Ref :=
  refIf (!((partChans s p).any (chanServes s c.op))) stABSENT noField

/-- The refusals of a channel command other than `ring.step`. -/
def chanIssueRefs (p : Nat) (c : Cmd) : M (List Ref) := do
  let s ← getS
  if c.op = opFWD then fwdRefs p c
  else if c.op = opBWDA || c.op = opBWDB then bwdRefs c
  else if c.op = opDEC then decRefs p c
  else if c.op = opSELECT then selRefs p c
  else if c.op = opSOFTMAX then return softmaxRefs c
  else if c.op = opFN then return fnRefs (genOf s (curGen s)) c
  else if c.op = opNORM then return normRefs c
  else rotRefs c

/-- The units of a channel command other than `ring.step`, zero for a zero run-time shape (R84). -/
def chanUnits (c : Cmd) : Nat :=
  if c.op = opFWD then fwdUnits c
  else if c.op = opBWDA || c.op = opBWDB then bwdUnits c
  else if c.op = opDEC || c.op = opSELECT then decUnits c
  else if c.op = opSOFTMAX || c.op = opNORM then rowUnits c
  else if c.op = opFN then fnUnits c
  else if c.op = opROT then rotUnits c
  else 0

/-- The range of units that a command runs (R281). -/
def unitRange (c : Cmd) (u : Nat) : Nat × Nat :=
  if c.wcLo = 0 && c.wcHi = 0 then (0, u) else (c.wcLo, min c.wcHi u)

/-- The lengths that an estimate reads: of the entries' sequences, or of `SEQ`. -/
def planLens (c : Cmd) : M (List Nat) := do
  let root ← theRoot
  if c.op = opDEC || c.op = opSELECT then c.ents.mapM fun w => seqLen root (field w 0 16) (c.get .layer)
  else if c.op = opFWD && fwdPages c then return [← seqLen root (c.get .seq) (c.get .layer)]
  else return []

/-- Whether `COUNT_A` and `COUNT_B` are row counts, and `INFO` the instar pinned (Table 11-18). -/
def countsRows (op : Nat) : Bool :=
  op == opFWD || op == opBWDA || op == opBWDB || op == opDEC || op == opSOFTMAX || op == opNORM

/-- What the issue of a channel command reads and checks: the command with its tables, its refusals, the lengths of its
estimate, the rows of its shared parts. -/
def chanPlan (p : Nat) (c : Cmd) : M (Cmd × List Ref × List Nat × List (List Nat × List (List Nat))) := do
  let s ← getS
  let us := unitRefs s p c ++ chanRefs s p c
  if !(us.isEmpty) then return (c, us, [], [])
  let c ← readTables c
  let rs ← chanIssueRefs p c
  if !(rs.isEmpty) then return (c, rs, [], [])
  let lens ← planLens c
  let (lo, hi) := unitRange c (chanUnits c)
  let parts ← (if c.op = opDEC && c.get .pfxPages != 0 && decide (lo < hi) then
    (List.range (c.get .hkv)).mapM (sharedRows c) else return [])
  return (c, rs, lens, parts)

/-- A command as it is issued: it keeps the table generation, the voltage, the phase and the Dysil fields of its issue
(R164, R308, R437). -/
def Cmd.issued (s : State) (p : Nat) (c : Cmd) : Cmd :=
  { c with
    stage := .issued
    gen := curGen s
    factor := voltFactor s.gov.point
    phase0 := s.cad.phase
    dysil := some (dysilFields s p) }

/-- A channel command that no check refuses is issued: generation, estimate, units; the shared parts of an `attn.dec` join
their swarms. One left with no units completes (R84, R131, R281). -/
def chanIssued (s : State) (p : Nat) (st : Strm) (c : Cmd) (lens : List Nat)
    (parts : List (List Nat × List (List Nat))) : State :=
  let (lo, hi) := unitRange c (chanUnits c)
  let shared := parts.foldl (fun n x => n + x.1.length + x.2.foldl (fun m y => m + y.length) 0) 0
  let c := { c.issued s p with
    energy := estimate s (unitWork s (cmdCtx s p st c 0xFF 0) c lens)
    units := hi
    handed := lo
    shared := shared
    info := if countsRows c.op then c.pin.getD 0 else 0 }
  let s := updCmd s p st c.stamp fun _ => c
  let s := if hi ≤ lo then endCmd s p st c.stamp stOK 0 else joinShared s p st c parts
  launchDue (settle s p) p

/-- Issue the head command of a stream as a channel command: pin, tables, checks. -/
def issueChan (s : State) (p : Nat) (st : Strm) (c : Cmd) : State :=
  if c.paramErr != 0 then paramFail s p st c
  else if poolReads s p c && editBefore (strm s p st) c then s
  else
    match (if poolReads s p c then takeCmdPin s p st c else some (s, c)) with
    | none => s
    | some (s, c) =>
      match ranM s (cmdCtx s p st c 0xFF 0) (chanPlan p c) with
      | .host s => s
      | .bad e d s => endCmd s p st c.stamp e d
      | .ok (c, rs, lens, parts) r =>
        match firstRef rs with
        | some f => refuseCmd r.s p st c.stamp f
        | none => chanIssued r.s p st c lens parts

/-- Issue a control command: its record is checked; `task.begin` completes at issue (R276, R284). -/
def issueControl (s : State) (p : Nat) (st : Strm) (c : Cmd) : State :=
  let nested := c.op == opTASKBEGIN && c.inTask && c.task != c.stamp
  let rs := recordRefs c.op c.record ++ shapeIf nested noField
  let s := match firstRef rs with
    | some f => refuseCmd s p st c.stamp f
    | none =>
      let s := updCmd s p st c.stamp fun c => c.issued s p
      if c.op = opTASKBEGIN then endCmd s p st c.stamp stOK 0 else s
  launchDue (settle s p) p

/-- Issue the head command where its opcode is `op`. -/
def issueOp (s : State) (p : Nat) (st : Strm) (op : Nat) (f : State → Nat → Strm → Cmd → State) : State :=
  match headCmd s p st with
  | some c => if c.op = op then f s p st c else s
  | none => s

end Sys2Proof.Machine
end

