-- ==== Sys2Proof/Machine/Prefetch.lean ====
section
/-! DEFINITION. Prefetch-back (R251): the pages that a fetched command will read leave the slow tier, in fetch order. -/

namespace Sys2Proof.Machine

open Sys2Proof

/-! ## The list of a command -/

/-- The runs of bytes that an operand names: each row of a BF16 or FP32 operand, else its codes and scales (R270). -/
def opdRuns (d : Desc) (o : Opd) : List (Nat × Nat) :=
  if !o.used then []
  else if isFloat o.fmt then
    let size := fmtBits o.fmt / 8
    (List.range d.rows).flatMap fun r =>
      if d.str.getD 0 0 == 1 then [(d.addr size (0 :: d.rowCo r), size * d.e 0)]
      else (List.range (d.e 0)).map fun i => (d.addr size (i :: d.rowCo r), size)
  else (if o.codes then [(d.codes, codeBytes o.fmt d.size)] else []) ++ [(d.scales, tileBlocks o d.ext)]

/-- The pages under the pool-region addresses of a command's fields and descriptors. -/
def pagesUnder (h : Shape) (c : Cmd) : List PageKey :=
  let n := c.nums
  let fs := ([n.escS, n.escT, n.escOut] ++ addrFields.map c.get).map fun a => (a, 1)
  let ds := c.opds.zipIdx.flatMap fun (o, i) =>
    let d := c.desc i
    if bitOf d.codes 55 || bitOf d.scales 55 then opdRuns d o else []
  let bs := (List.range (descCount c.op)).map fun i => ((c.desc i).bounce, (c.desc i).bounceG * Config.granule)
  ((fs ++ ds ++ bs).flatMap fun e => pagesUnderRun h e.1 e.2).eraseDups

/-- The pages that a fetched command will read, in the instar current now. -/
def prefetchKeys (c0 : Cmd) : M (List PageKey) := do
  let c ← readTables c0
  let h ← shapeM
  let root ← theRoot
  let layer := c.get .layer
  let heads := (List.range (c.get .hkv)).map fun j => c.get .kvh0 + j
  let all (q : Nat) : M (List PageKey) := do
    let n := ceilDiv (← seqLen root q layer) 256
    return heads.flatMap fun hd => (List.range n).map fun k => (q, layer, hd, k)
  let own ← (if c.op = opDEC then do
      let pfx := heads.flatMap fun hd => (List.range (c.get .pfxPages)).map fun k => (c.get .pfxSeq, layer, hd, k)
      let ls ← (List.range c.ents.length).mapM fun e => do
        let x ← dEnt root c e
        let js ← (List.range (c.get .hkv)).mapM fun j => do
          let l ← privateList c x (e * c.get .hkv + j)
          return (List.range (c.get .pfxPages) ++ l.filterMap id).map fun k => (x.seq, layer, c.get .kvh0 + j, k)
        return js.flatten
      return pfx ++ ls.flatten
    else if c.op = opSELECT then do
      let ls ← (c.ents.map fun w => field w 0 16).eraseDups.mapM all
      return ls.flatten
    else if c.op = opFWD && fwdPages c then all (c.get .seq)
    else return [])
  return own ++ pagesUnder h c

/-- The owner of the host reads that the list of a command needs. -/
def prefetchOwner (p : Nat) (x : Prefetch) : Owner := .command (pf p) x.strm x.stamp 0xFC

/-- The slow-tier pages of the current instar. -/
def slowPages : M (List PageKey) := do
  let root := (← getP).root
  let all ← (← liveSeqs root).mapM fun e => allPagesOf root e.1
  return (all.flatten.filter fun g => leafSlow g.at_.leaf).map fun g => (g.seq, g.layer, g.head, g.page)

/-- Those pages as a fetch finds them; the leaves are read for the list alone, and no access of them counts. -/
def slowAtFetch (s : State) (p : Nat) : List PageKey :=
  match ranM s { who := poolWho p, part := p, root := none, owner := .block } slowPages with
  | .ok ks _ => ks
  | _ => []

/-- List the pages of a prefetch-back that has no list yet, while its command has not ended: of those that the command
will read, the ones that lay in the slow tier at its fetch (R251). A list that cannot be made is none. -/
def prefetchList (s : State) (p : Nat) (x : Prefetch) : State × Option Prefetch :=
  let o := prefetchOwner p x
  if x.keys.isSome then (s, some x)
  else match getCmd s p x.strm x.stamp with
    | none => (dropHost s o, none)
    | some c =>
      if c.ended then (dropHost s o, none)
      else match ranM s { cmdCtx s p x.strm c 0xFF 0 with owner := o } (prefetchKeys c) with
        | .ok ks r => (dropHost r.s o, some { x with keys := some (ks.filter x.slow.contains) })
        | .host s => (s, some x)
        | .bad e _ t => (dropHost (if e = stECC then t else s) o, none)

/-- Make the lists that wait, and the moves of those at the head that are made, in fetch order; no move starts while an
edit waits under R237. -/
def prefetchStep (s : State) (p : Nat) : State :=
  if (pool s p).prefetch.isEmpty then s
  else
    let (s, q) := (pool s p).prefetch.foldl (fun (acc : State × List Prefetch) x =>
      let (s, y) := prefetchList acc.1 p x
      (s, acc.2 ++ y.toList)) (s, [])
    let go := if (pool s p).wait.isSome || !(instarRoom (pool s p)) then [] else q.takeWhile fun x => x.keys.isSome
    let s := updPool s p fun x => { x with prefetch := q.drop go.length }
    let ctx : Ctx := { who := poolWho p, part := p, root := none, owner := .block }
    go.foldl (fun s x =>
      match ranM s ctx (backMoves (x.keys.getD [])) with
      | .ok _ r => r.s
      | .bad _ _ t => t
      | .host s => s) s

/-- Prefetch-back for a command just fetched: what cannot be read or placed stays where it is. -/
def prefetchBack (s : State) (p : Nat) (st : Strm) (c : Cmd) : State :=
  if capMT s = 0 || slowFrames s [] p = 0 || tiered s p || c.param.length < paramNeed c.op || !(poolReads s p c) then s
  else
    prefetchStep (updPool s p fun x =>
      { x with prefetch := x.prefetch ++ [{ strm := st, stamp := c.stamp, slow := slowAtFetch s p, keys := none }] }) p

end Sys2Proof.Machine
end

