-- ==== Sys2Proof/Machine/Edit.lean ====
section
/-! DEFINITION. Edit commands (R213 to R228): what an edit waits for, its checks at issue, need and relief, the wait for
frames (R237, R238), the edit itself, and how it ends. -/

namespace Sys2Proof.Machine

open Sys2Proof

/-! ## Checks at issue -/

/-- The state of a sequence in a partition's current instar, as a check reads it. -/
def seqState (root q : Nat) : M Nat := do return (← seqRec root q).state

/-- Whether a sequence is not `CLOSED` in another partition (R212). -/
def openElsewhere (p q : Nat) : M Bool := do
  let s ← getS
  (allParts.filter fun o => o != p && hasPool s o).anyM fun o => do return (← seqState (pool s o).root q) != 0

/-- Whether a list has no repeats. -/
def distinct (l : List Nat) : Bool := l.eraseDups.length == l.length

/-- The refusals that the entries of an edit bring (R213, R214, Table 09-11). -/
def editEntRefs (p : Nat) (c : Cmd) : M (List Ref) := do
  let root := (← getP).root
  let h ← shapeM
  let ids := c.ents.map fun w => field w 0 16
  let states ← ids.mapM fun q => seqState root q
  let all (f : Nat → Bool) : Bool := states.all f
  let zero (k : Nat) : Bool := c.ents.all fun w => decide (w < 2 ^ k)
  if c.op = opOPEN then
    let other ← ids.anyM (openElsewhere p)
    return shapeIf (!(distinct ids) || !(all (· == 0)) || other || c.ents.any fun w => field w 25 7 != 0) noField
  else if c.op = opAPPEND then
    let spans ← spansOf root c
    return shapeIf (!(all (· == 1)) || !(zero 37)) noField ++
      refIf (spans.any fun x => decide (h.maxPg * 256 < x.2.1 + x.2.2)) stLENGTH noField
  else if c.op = opFORK then
    let par := c.get .parent
    let other ← ids.anyM (openElsewhere p)
    return shapeIf ((← seqState root par) != 1 || ids.contains par || !(distinct ids) || !(all (· == 0)) || other ||
      !(zero 16)) noField
  else if c.op = opFREE then return shapeIf (all (· != 0) == false || !(zero 16)) noField
  else if c.op = opPARK || c.op = opCOMPACT then return shapeIf (!(all (· == 1)) || !(zero 16)) noField
  else if c.op = opRESUME then return shapeIf (!(all (· == 2)) || !(zero 16)) noField
  else if c.get .mode = 1 then
    let other ← ids.anyM (openElsewhere p)
    return shapeIf (!(distinct ids) || !(all (· == 0)) || other || !(zero 32)) noField
  else return shapeIf (!(all (· == 1)) || !(zero 32)) noField

/-- The operand forms of `seq.append` (R214, R269, R273). -/
def appendRefs (h : Shape) (c : Cmd) : List Ref :=
  let total := (c.ents.map fun w => (appEnt w).2).foldl (· + ·) 0
  let src (f : Fld) (fmt : Nat) : List Ref := shapeIf (!(isFloat (c.get f)) && c.get f != fmt) (c.at f)
  src .srcK h.fmtK ++ src .srcV h.fmtV ++ shapeIf (decide (h.layers ≤ c.get .layer)) (c.at .layer) ++
    ([0, 1].flatMap fun i =>
      let d := c.desc i
      let o := inParam (descOff c.op i) + 32
      shapeIf (decide (d.e 0 < h.hdim)) o ++ shapeIf (decide (d.e 1 < h.hkv)) (o + 4) ++
        shapeIf (decide (d.e 2 < total)) (o + 8))

/-- The refusals of an edit. -/
def editRefs (p : Nat) (c : Cmd) : M (List Ref) := do
  let s ← getS
  let shared := sharedRefs c
  if c.param.length < paramNeed c.op then return shared
  return shared ++ shapeIf (decide (65536 < c.get .nent)) (c.at .nent) ++
    (if c.op = opAPPEND then appendRefs (shapeOf s [] p) c else []) ++
    shapeIf (c.op == opMOLT && c.get .mode == 3) (c.at .mode) ++ (← editEntRefs p c)

/-! ## How an edit ends -/

/-- What an edit reports: frames taken, positions, positions that it appended, what it did to tables and frames. -/
structure EditDone where
  frames : Nat
  pos    : Nat
  put    : Nat
  tx     : Tx

/-- Sum of the lengths of sequences over layers in the current instar. -/
def lengthSum (qs : List Nat) : M Nat := do
  let root := (← getP).root
  let ns ← qs.mapM (seqTotal root)
  return ns.foldl (· + ·) 0

/-- How far an edit came: it is made; its frames are there and `images` are those that it reads; it is refused; it waits for
frames or granules, or it fails for want of frames. -/
inductive EditRes where
  | done (d : EditDone)
  | ready (images : List (Nat × Nat))
  | refused (r : Ref)
  | wait (short : Nat)
  | noFrame (short : Nat)
  | parkFull

/-- Before an edit whose need is known: relief, then the wait of R237 where frames are still short. A wait of relief for a slot, a slow-tier
frame or a granule lies within the same window (R228, R245, R250); the answers of a park's writes are waited for
(R253). -/
def withFrames (mon need : Nat) (names : List Nat) (prio : Nat) (expired : Bool) (images : List (Nat × Nat)) :
    M EditRes := do
  let p ← partM
  let short : M Nat := do return need - freeCount (← getS) p false
  let inWindow : M EditRes := do
    if expired || eff (← getS) pgPOOL 0x104 = 0 then return .noFrame (← short) else return .wait (← short)
  let held ← tryCatch (do
    if need ≠ 0 then relieve mon need names prio
    return 0) fun e => if e.1 = stWAITPAGE || e.1 = stWAITNODE || e.1 = stWAITPARK then return e.1 else throw e
  if held = stWAITPARK then return .wait (← short)
  else if held ≠ 0 then inWindow
  else if 0 < deficit (← getS) p need then return .noFrame (← short)
  else if freeCount (← getS) p false < need then inWindow
  else return .ready images

/-- The command that runs pins the current instar (R225). -/
def pinSelf : M Unit := do
  let s ← getS
  let p ← partM
  let w := (← get).ctx.who
  match takePin s p with
  | none => throw (stWAITPIN, 0)
  | some t =>
    modS fun _ => updCmd t p (strmOf w.strm) w.stamp fun c => { c with pin := some (pool s p).instar }

/-- An edit as one run, with the frames it took; it pins the instar that it changes. -/
def plainEdit (pos : M Nat) (m : M Unit) : M EditDone := do
  let n ← pos
  pinSelf
  let (_, tx) ← editStat m
  return { frames := tx.taken.length, pos := n, put := 0, tx := tx }

/-- Highest priority of the sequences that an edit names (R253). -/
def namedPrio (c : Cmd) : M Nat := do
  let root := (← getP).root
  let rs ← c.named.mapM fun q => do return (← seqRec root q).prio
  return rs.foldl max 0

/-- The staged images of a `molt` receive: the sequence and the address of each, up to the first whose pool fields are
not the partition's, which ends in its entry (R379, R380). -/
def moltImages (c : Cmd) : M (Except Nat (List (Nat × Nat))) := do
  let h ← shapeM
  let s ← getS
  let p ← partM
  let out ← c.ents.zipIdx.foldlM (fun (acc : Except Nat (List (Nat × Nat) × Nat)) (w, e) => do
    match acc with
    | .error k => return .error k
    | .ok (ims, off) =>
      let va := c.get .stage + off
      let hd0 ← rd va 2048
      if leAt hd0 24 4 ≠ poolField s [] p 0 || leAt hd0 28 4 ≠ poolField s [] p 1 then return .error e
      let n := (listed h fun l => leAt hd0 (1024 + 4 * l) 4).length
      let g := 1 + bitmapG n + leAt hd0 20 4 * h.fg
      return .ok (ims ++ [(field w 0 16, va)], off + g * Config.granule)) (.ok ([], 0))
  return out.map (·.1)

/-- Park the named sequences of a `seq.park` once their images are written: slots in order. -/
def parkAll (c : Cmd) (slots : List Nat) : M Unit :=
  (c.named.zip slots).forM fun (q, k) => parkEdit q k

/-- The slots that the named sequences take, lowest first; `none` where one finds none that fits (R254). -/
def parkSlotsOf (c : Cmd) : M (Option (List Nat)) := do
  let s ← getS
  let p ← partM
  let x ← getP
  let gs ← c.named.mapM fun q => imageG x.root q
  let free := (List.range (parkSlots s [] p)).filter fun k => !(x.parked.any fun e => e.2 == k)
  return if free.length < gs.length || gs.any fun g => decide (parkSlotG s [] p < g) then none
    else some (free.take gs.length)

/-- The appended positions of a `seq.append`. -/
def appTotal (c : Cmd) : Nat := (c.ents.map fun w => (appEnt w).2).foldl (· + ·) 0

/-- The work of an edit, from its checks on; one that needs frames is left to `editBody`, since relief that was made for it
stays done whatever becomes of it (R236). `expired` says that its wait is over. -/
def editRun (p : Nat) (c0 : Cmd) (expired : Bool) : M (Cmd × EditRes) := do
  modify fun r => { r with waits := !expired && eff r.s pgPOOL 0x104 != 0 }
  let us := unitRefs (← getS) p c0
  let c ← (if us.isEmpty then readTables c0 else return c0)
  match firstRef (← (if us.isEmpty then editRefs p c else return us)) with
  | some r => return (c, .refused r)
  | none =>
    let none0 : M Nat := return 0
    if c.op = opAPPEND then
      let need := (← appPlan (← getP).root c).length
      return (c, ← withFrames (c.slot 0) need c.named (← namedPrio c) expired [])
    else if c.op = opRESUME then
      let s ← getS
      let x ← getP
      let ns ← c.named.mapM fun q => imagePages (parkVa s p (assocD x.parked q 0))
      return (c, ← withFrames (c.slot 0) (ns.foldl (· + ·) 0) c.named (← namedPrio c) expired [])
    else if c.op = opMOLT && c.get .mode = 1 then
      match ← moltImages c with
      | .error e => faultM stABORTED 5 7 fun f => { f with arg0 := e }
      | .ok ims =>
        let ns ← ims.mapM fun x => imagePages x.2
        let prios ← ims.mapM fun x => do return leNat (← rd (x.2 + 6) 2)
        return (c, ← withFrames (c.slot 0) (ns.foldl (· + ·) 0) c.named (prios.foldl max 0) expired ims)
    else if c.op = opMOLT then
      let need := (← moltFrames c).length
      let r ← tryCatch (do return EditRes.done (← plainEdit none0 (do let _ ← moltLocalEdit c))) fun e => do
        if e.1 = stNOFRAME then return .noFrame (need - freeCount (← getS) p false) else throw e
      return (c, r)
    else if c.op = opPARK then
      match ← parkSlotsOf c with
      | none => return (c, .parkFull)
      | some slots =>
        pinSelf
        let root := (← getP).root
        let s ← getS
        (c.named.zip slots).forM fun (q, k) => do
          countSlowOf (← allPagesOf root q)
          putImage (parkVa s p k) (← seqImage root q [])
        return (c, .done { frames := 0, pos := ← lengthSum c.named, put := 0, tx := Tx.none })
    else if c.op = opFREE then
      let n ← lengthSum c.named
      return (c, .done (← plainEdit (return n) (do let _ ← freeEdit c)))
    else if c.op = opOPEN then return (c, .done (← plainEdit none0 (openEdit c)))
    else if c.op = opFORK then
      return (c, .done (← plainEdit none0 (if c.ents.isEmpty then return () else forkEdit c)))
    else return (c, .done (← plainEdit none0 (do let _ ← compactEdit c)))

/-- An edit whose frames are there: `seq.append`, `seq.resume`, or a `molt` that receives the sequences of `images`. -/
def editBody (c : Cmd) (expired : Bool) (images : List (Nat × Nat)) : M EditDone := do
  modify fun r => { r with waits := !expired && eff r.s pgPOOL 0x104 != 0 }
  if c.op = opAPPEND then return { ← plainEdit (return appTotal c) (appendEdit c) with put := appTotal c }
  else
    let d ← plainEdit (return 0)
      (if c.op = opRESUME then resumeEdit c else images.forM fun x => imageEdit x.1 x.2)
    return { d with pos := ← lengthSum c.named }

/-! ## The wait (R237, R238) -/

/-- The ticks that a command's edit has waited, where it waits. -/
def waitTicks (s : State) (p : Nat) (st : Strm) (stamp : Word) : Option Nat :=
  ((pool s p).wait.filter fun w => w.strm == st && w.stamp == stamp).map (·.ticks)

/-- Whether the window of R237 is over for a command's edit. -/
def waitOver (s : State) (p : Nat) (st : Strm) (stamp : Word) : Bool :=
  (waitTicks s p st stamp).any fun n => decide (eff s pgPOOL 0x104 ≤ n)

/-- An edit begins or goes on to wait. It has issued, and keeps the table generation of its issue (R164, R237). -/
def setWait (s : State) (p : Nat) (st : Strm) (stamp : Word) (short : Nat) : State :=
  let s := updCmd s p st stamp fun c =>
    if c.factor = 0 then { c with gen := curGen s, factor := voltFactor s.gov.point } else c
  updPool s p fun x =>
    { x with wait := some { strm := st, stamp := stamp, ticks := (waitTicks s p st stamp).getD 0, short := short } }

/-- An edit fails for want of frames (cause 1) or of granules (cause 2): its record, its end, its counter. -/
def noFrameEnd (s : State) (p : Nat) (st : Strm) (stamp : Word) (cause short : Nat) : State :=
  let s := addFault s { faultOf (Who.cmd p st stamp 0) 5 cause with arg0 := if cause = 1 then short else 0 }
  endCmd (bump s p pgPOOL 0xF58 1) p st stamp stNOFRAME (lastFault s)

/-- A park finds no slot (R254): its record, its end, its counter. -/
def parkFullEnd (s : State) (p : Nat) (st : Strm) (stamp : Word) : State :=
  let s := addFault s { faultOf (Who.cmd p st stamp 0) 5 3 with addr := parkBase s [] p, akind := 1 }
  endCmd (bump s p pgPOOL 0xF58 1) p st stamp stNOFRAME (lastFault s)

/-- Whether POOL may start an edit of a command: no loss edit is due, no other edit waits or runs, the instar numbers
have room, and the score updates before it are applied (R215, R226, R237, R243, R398). -/
def editFree (s : State) (p : Nat) (st : Strm) (c : Cmd) : Bool :=
  let x := pool s p
  !(x.lossDue) && instarRoom x &&
    !(x.wait.any fun w => !(w.strm == st && w.stamp == c.stamp)) &&
    !(allStrms.any fun o => (strm s p o).cmds.any fun k => k.isEdit && k.stage == .started &&
      k.jobOver && !(o == st && k.stamp == c.stamp)) &&
    !(scoresWait (strm s p st) c)

/-- A command that has not started gives its pin back (R237). -/
def unpin (s : State) (p : Nat) (st : Strm) (stamp : Word) : State :=
  match (getCmd s p st stamp).bind (·.pin) with
  | some n => dropPin (updCmd s p st stamp fun c => { c with pin := none }) p n
  | none => s

/-- An edit that the run `r` has made, for which the budget has room: it is charged and its command holds what it did; a park
of named sequences goes on until its writes are answered, every other edit ends with `OK`. -/
def editMade (p : Nat) (st : Strm) (c : Cmd) (d : EditDone) (r : Run) : State :=
  let s := r.s
  let e := estimate s (editWork (shapeOf s [] p) d.tx (d.put * (shapeOf s [] p).hkv))
  let s := charge s e
  let s := countMons s p r
  let fl := r.mons.foldl (fun a m => a ||| m.2.flags) 0
  let info := if d.tx.dirty then (pool s p).instar else 0
  let s := updCmd s p st c.stamp fun k =>
    { c with
      pin := k.pin
      stage := .started
      begun := true
      gen := if k.factor = 0 then curGen s else k.gen
      energy := e
      factor := voltFactor s.gov.point
      flags := fl
      countA := d.frames
      countB := d.pos % 2 ^ 32
      info := info }
  if c.op = opPARK && !(c.named.isEmpty) then s
  else endCmd s p st c.stamp stOK 0

/-- An edit ends at its issue, under its pin, which it holds until its record is written, whatever its status (R225). -/
def endPinned (s : State) (p : Nat) (st : Strm) (stamp : Word) (f : State → State) : State :=
  match getCmd s p st stamp with
  | none => s
  | some c =>
    if !(hasPool s p) then f s
    else match takeCmdPin s p st c with
      | none => s
      | some (t, _) => f t

/-- An edit that has thrown: a wait for a pin or a granule, or its end. -/
def editStopped (s : State) (p : Nat) (st : Strm) (c : Cmd) (expired : Bool) (e d : Nat) : State :=
  if e = stWAITPIN then s
  else if e = stWAITNODE then
    if expired || eff s pgPOOL 0x104 = 0 then endPinned s p st c.stamp fun s => noFrameEnd s p st c.stamp 2 0
    else setWait (unpin s p st c.stamp) p st c.stamp 0
  else endCmd s p st c.stamp e d

/-- An edit that is done, where the budget has room for it (R310); `s0` is the state that it leaves else. -/
def editFits (s0 : State) (p : Nat) (st : Strm) (c : Cmd) (d : EditDone) (r : Run) : State :=
  let e := estimate r.s (editWork (shapeOf r.s [] p) d.tx (d.put * (shapeOf r.s [] p).hkv))
  if !(budgetFits s0 e) then s0 else editMade p st c d r

/-- Attempt the edit of the head command. Entries or an image in host memory are read before the edit starts; relief
that is made stays done, also where the edit then waits for a host read or for the budget (R236). -/
def startEdit (s0 : State) (p : Nat) (st : Strm) (c0 : Cmd) (expired : Bool) : State :=
  match ranM s0 (cmdCtx s0 p st c0 0xFF 0) (editRun p c0 expired) with
  | .host s => s
  | .bad e d s => editStopped s p st c0 expired e d
  | .ok (c, res) r =>
    let s := r.s
    match res with
    | .refused f => endPinned s p st c.stamp fun s => refuseCmd s p st c.stamp f
    | .wait short => setWait (unpin s p st c0.stamp) p st c0.stamp short
    | .noFrame short => endPinned s p st c.stamp fun s => noFrameEnd s p st c.stamp 1 short
    | .parkFull => endPinned s p st c.stamp fun s => parkFullEnd s p st c.stamp
    | .done d => editFits s0 p st c d r
    | .ready images =>
      match ranM s (cmdCtx s p st c 0xFF 0) (editBody c expired images) with
      | .host t => t
      | .bad e d t => editStopped t p st c0 expired e d
      | .ok d r => editFits s p st c d r

/-- A started `seq.park` whose writes are all answered closes its sequences (R254, R333). -/
def finishPark (s : State) (p : Nat) (st : Strm) (c : Cmd) : State :=
  if c.op != opPARK || c.stage != .started || cmdWaits s p st c.stamp then s
  else
    let go : M Tx := do
      match ← parkSlotsOf c with
      | none => throw (stNOFRAME, 0)
      | some slots => return (← editStat (parkAll c slots)).2
    match ranM s (cmdCtx s p st c 0xFF 0) go with
    | .ok _ r =>
      let s := updCmd r.s p st c.stamp fun k => { k with info := (pool r.s p).instar }
      endCmd s p st c.stamp stOK 0
    | .bad e d s =>
      if e = stWAITNODE then setWait s p st c.stamp 0
      else if e = stNOFRAME then parkFullEnd s p st c.stamp else endCmd s p st c.stamp e d
    | .host s => s

/-- An edit command of a stream: its start, or the end of a park whose writes are answered. -/
def editStep (s : State) (p : Nat) (st : Strm) (c : Cmd) : State :=
  let s :=
    if c.paramErr != 0 then paramFail s p st c
    else if !(eligible s p st) || !(editFree s p st c) then s
    else startEdit s p st c (waitOver s p st c.stamp)
  launchDue (settle (prefetchStep s p) p) p

/-- The started park of a stream. -/
def parkHeld (s : State) (p : Nat) (st : Strm) : Option Cmd :=
  (strm s p st).cmds.find? fun c => c.op == opPARK && c.stage == .started

/-- An edit command at the head, by opcode. -/
def editOp (s : State) (p : Nat) (st : Strm) (op : Nat) : State := issueOp s p st op editStep

/-- The window of the wait is over: the edit gets a last try, and fails with `NO_FRAME` (R228, R238). -/
def waitExpired (s : State) (p : Nat) : State :=
  match (pool s p).wait with
  | none => s
  | some w =>
    if w.ticks < eff s pgPOOL 0x104 then s
    else match getCmd s p w.strm w.stamp with
      | none => updPool s p fun x => { x with wait := none }
      | some c =>
        let s := if c.op = opPARK && c.stage = .started then
            -- a park that found no granule (R228)
            noFrameEnd s p w.strm w.stamp 2 0
          else
            let t := startEdit s p w.strm c true
            -- while its stream is not eligible an edit can end, and cannot start (R304)
            if eligible s p w.strm || (getCmd t p w.strm w.stamp).any fun k => k.status == stNOFRAME then t else s
        launchDue (settle (prefetchStep s p) p) p

end Sys2Proof.Machine
end

