-- ==== Sys2Proof/Machine/Ring.lean ====
section
/-! DEFINITION. `ring.step`: its checks (R362), what it sends and receives (R358, R364, R366); in `ATTN` mode the block
image and a row group (R363 to R365). -/

namespace Sys2Proof.Machine

open Sys2Proof

/-- Where the regions of a block image begin, and its length (R363). -/
def ringImage (c : Cmd) : Nat × Nat × Nat × Nat × Nat :=
  let n := c.get .hkv * c.get .lkb * roundUp (c.get .hdim) 32
  let k1 := roundUp (codeBytes c.nums.fmtT n) 512
  let k2 := k1 + roundUp (n / 32) 512
  let k3 := k2 + roundUp (codeBytes (c.get .fmtV) n) 512
  (0, k1, k2, k3, k3 + n / 32)

/-- The buffer that holds the block of a step, and the one that receives (R364). -/
def ringBuf (c : Cmd) (other : Bool) : Nat :=
  if (c.get .step % 2 == 0) == other then c.get .buf1 else c.get .buf0

/-- A region pair of the image as an operand: keys of a relative head along dim 2. -/
def ringDesc (c : Cmd) (codes scales : Nat) : Desc :=
  let d := c.desc 0
  let dp := roundUp (c.get .hdim) 32
  { d with
    codes := codes
    scales := scales
    ext := [dp, 1, c.get .lkb, c.get .hkv, 1, 1]
    str := [1, dp, dp, dp * c.get .lkb, 0, 0] }

/-! ## Sends and receives (R356 to R359) -/

/-- Nothing to send, nothing to receive. -/
def noJob : RemJob :=
  { vc := 0, xid := 0, txPorts := 0, txCount := 0, txNext := 0, txBack := [], txGated := false, txReady := [], txPlan := []
    txMarks := [], txLost := false, lastPort := 63, rxPorts := 0, rxOpen := false, rxGot := 0, rxTotal := none
    rxPeer := none, settled := false }

/-- What a command that has not ended sends and receives. -/
def liveJob (c : Cmd) : Option RemJob := if c.ended then none else c.remote

/-- Commands with a job, by partition, stream and stamp. -/
def jobCmds (s : State) : List (Nat × Strm × Cmd) :=
  allParts.flatMap fun p => allStrms.flatMap fun st =>
    ((strm s p st).cmds.filter fun c => (liveJob c).isSome).map fun c => (p, st, c)

/-- Whether a receive of a channel is open on one of some ports (R356). -/
def rxClash (s : State) (vc ports : Nat) : Bool :=
  (jobCmds s).any fun (_, _, c) =>
    (liveJob c).any fun j => j.rxOpen && j.vc == vc && (j.rxPorts &&& ports) != 0

/-- Frames of 4 KiB for `n` bytes. -/
def framesFor (n : Nat) : Nat := ceilDiv n 4096

/-- The origin of the block or slot that a step holds (R364, R366). -/
def ringOrigin (c : Cmd) : Nat := (c.get .ringPos + c.get .ringLen - c.get .step) % max 1 (c.get .ringLen)

/-- A step before the last sends and receives (R364); in `GATHER` every step does (R366). -/
def ringMoves (c : Cmd) : Bool := c.get .mode == 1 || decide (c.get .step + 1 < c.get .ringLen)

/-- The job of a `ring.step`. -/
def ringJob (c : Cmd) : RemJob :=
  let n := if c.get .mode = 1 then c.get .bufBytes else (ringImage c).2.2.2.2
  if ringMoves c then
    { noJob with
      xid := c.get .xid
      txPorts := c.get .txPorts
      txCount := framesFor n
      rxPorts := c.get .rxPorts
      rxOpen := true }
  else { noJob with xid := c.get .xid }

/-- Whether a `ring.step` waits for a receive that is open on its ports. -/
def ringWaits (s : State) (c : Cmd) : Bool := c.op == opRING && ringMoves c && rxClash s 0 (c.get .rxPorts)

/-- The refusals of a `ring.step` at issue (R361, R362). -/
def ringRefs (s : State) (p : Nat) (c : Cmd) : List Ref :=
  let n := c.nums
  let attn := c.get .mode == 0
  let shared := sharedRefs c
  if !(capRNG s) then [(stABSENT, noField)]
  else if c.param.length < paramNeed c.op then shared
  else
    let len := c.get .ringLen
    let q (i : Nat) : List Ref :=
      extRef c .hdim (c.get .hdim) i 0 ++ extRef c .hkv (c.get .hkv) i 3 ++ extRef c .qpk (c.get .qpk) i 1 ++
        extRef c .lq (c.get .lq) i 2
    portRefs s p c ++ shared ++
      shapeIf (decide (len < 2) || decide (128 < len)) (c.at .ringLen) ++
      shapeIf (decide (len ≤ c.get .ringPos)) (c.at .ringPos) ++
      shapeIf (decide (len ≤ c.get .step) || !attn && decide (len < c.get .step + 2)) (c.at .step) ++
      shapeIf (c.get .bufBytes % 4096 != 0) (c.at .bufBytes) ++
      shapeIf (n.orientT == 1) atOrientT ++
      shapeIf (c.get .keepVa != 0 && !(capMIR s)) (c.at .keepVa) ++
      (if !attn then []
      else
        streamRefs c ++ probRefs c ++ headRefs c ++ shapeIf (!(isArrayFmt n.fmtT)) atFmtT ++
          shapeIf (!(isArrayFmt (c.get .fmtV))) (c.at .fmtV) ++ shapeIf (!(isFloat n.fmtO)) atFmtO ++
          shapeIf (c.get .rgPos == 0 || decide (2048 < c.get .rgPos * c.get .qpk)) (c.at .rgPos) ++
          shapeIf (4 ≤ c.get .mask) (c.at .mask) ++
          shapeIf (c.get .partBuf == 0) (c.at .partBuf) ++
          shapeIf (decide (c.get .bufBytes < (ringImage c).2.2.2.2)) (c.at .bufBytes) ++ q 0 ++ q 1 ++
          refIf (decide (2 ^ 27 < c.get .qPos0 + c.get .lq)) stLENGTH (c.at .qPos0) ++
          refIf (decide (2 ^ 27 < len * c.get .lkb)) stLENGTH (c.at .lkb))

/-- Row groups of a step (R364), zero for a zero run-time shape (R84). -/
def ringUnits (c : Cmd) : Nat :=
  if c.get .lkb = 0 then 0 else c.get .hkv * ceilDiv (c.get .lq) (max 1 (c.get .rgPos))

/-- A row group of a step of an `ATTN` ring (R364, R365). -/
def ringUnit (role : Nat) (c : Cmd) (v : Nat) (first : Bool) : M Unit := do
  let s ← getS
  let n := c.nums
  let e : AEnv :=
    { k := scaleK (c.get .scale), fmtP := c.get .fmtP, fmtV := c.get .fmtV, fmtK := n.fmtT, orK := 0, orV := 0
      seed := c.seed, hdim := c.get .hdim
      gen := genOf s c.gen, stride := 2 ^ 22 }
  let (rg, lq, g, lkb) := (c.get .rgPos, c.get .lq, c.get .qpk, c.get .lkb)
  let (len, step) := (c.get .ringLen, c.get .step)
  let nq := ceilDiv lq rg
  let (q, j) := (v % nq, v / nq)
  let is := (List.range rg).filterMap fun i => if rg * q + i < lq then some (rg * q + i) else none
  let slot := c.slot j
  let escQ ← if isFloat n.srcS then pure [] else escRead n.escS ((c.desc 0).size / 32) slot first
  let rows ← (is.flatMap fun i => (List.range g).map fun y => (i, y)).mapM fun (i, y) => do
    let gr ← queryRow c slot e.hdim escQ [y, i, j, 0, 0]
    return ({ r := (j * lq + i) * g + y, pq := c.get .qPos0 + i, ix := i, slot := slot, q := gr } : QRow)
  let origin := ringOrigin c
  let buf := ringBuf c false
  let (_, k1, k2, k3, _) := ringImage c
  let dk := ringDesc c buf (buf + k1)
  let dv := ringDesc c (buf + k2) (buf + k3)
  let fill (cs : List Col) : M (List Col) :=
    cs.mapM fun x => do
      let kk ← rdVec slot dk n.fmtT e.hdim n.escThr [] [0, x.key, j, 0, 0]
      let vv ← rdVec slot dv (c.get .fmtV) e.hdim n.escThr [] [0, x.key, j, 0, 0]
      return { x with k := kk, v := vv.flatten }
  let vis (r : QRow) (x : Col) : Bool :=
    maskSees (c.get .mask) (c.get .window) r.pq x.pos (bitOf (c.get .mask) 0)
  let out ← runTiles e role rows (ceilDiv lkb 1024) (fun t => return tensorCols t lkb (origin * lkb)) fill vis
    (fun _ _ => return ())
  let idle := out.all fun b => b.e && !b.n
  if idle && 0 < step && step + 1 < len then return ()
  (rows.zip out).forM fun (r, b) => do
    let rec_ := c.get .partBuf + 528 * r.r
    let a ← if step = 0 then pure (Chain.start e.hdim) else ofRecord e.hdim <$> rd rec_ 528
    let st ← mergeChain e.gen a b
    if step + 1 < len then wr (outField c .partBuf) rec_ (recordOf st)
    else
      let (o, m, l) ← finishRow e.gen st
      wrFloats 1 (c.desc 1) n.fmtO [r.r % g, r.ix, j, 0, 0] o
      if c.get .statOut != 0 then
        wr (outField c .statOut) (c.get .statOut + 8 * r.r) (f32Bytes m ++ f32Bytes l)

end Sys2Proof.Machine
end

