-- ==== Sys2Proof/Machine/Units.lean ====
section
/-! DEFINITION. Work units: repair maps and array roles at a command boundary (R77 to R81, R394), which unit a channel
takes (R18, R281, R282, R304, R309, R311), and the end of a unit with what it computed. -/

namespace Sys2Proof.Machine

open Sys2Proof

/-! ## Command boundaries -/

/-- The bad columns of a page lane: factory and user entries (R77). -/
def laneBad (s : State) (n a l : Nat) : List Nat :=
  let fac := (s.fuse.columns.filter fun e => e.1 == n && e.2.array == a && e.2.lane == l).flatMap fun e => e.2.columns
  let usr := (List.range 8).filterMap fun k =>
    let w := field (eff s pgCALU (0x140 + 16 * (16 * n + 4 * a + l) + 4 * (k / 2))) (16 * (k % 2)) 16
    if bitOf w 15 then some (field w 0 9) else none
  sortBy (fun x y => decide (x < y)) (fac ++ usr).eraseDups

/-- The repair map and `PAST_SPARE` in effect apply in a channel: array states, roles, page lanes (R78, R394). -/
def applyMap (s : State) (n : Nat) : State :=
  let past := eff s (pgARY n) 0x104
  let bad := (List.range 16).map fun i => laneBad s n (i / 4) (i % 4)
  let dead (i : Nat) : Bool := decide (4 < (bad.getD i []).length)
  let states := (List.range 4).map fun a =>
    if a < capARY s then arrayState ((List.range 4).filter fun l => dead (4 * a + l)).length (bitOf past a) else 3
  let cols := bad.zipIdx.flatMap fun (cs, i) => cs.map fun k => (i, k)
  updChan s n fun x =>
    { x with
      -- a tile that was rippled under another map is discarded (R81)
      arrays := if cols = x.badCols && past = x.past then x.arrays
        else x.arrays.map fun y => { y with shadow := CellTile.none }
      badCols := cols
      past := past
      astate := (states.zipIdx.map fun (v, a) => v * 4 ^ a).foldl (· + ·) 0
      role := rolesOf states
      lanes := bitsWhere 16 fun i => states.getD (i / 4) 3 != 3 && !(dead i) }

/-- Commands of a partition with units left that no channel of it can take are refused (R7, R81). -/
def refuseStranded (s : State) (p : Nat) : State :=
  allStrms.foldl (fun s st =>
    (strm s p st).cmds.foldl (fun s c =>
      if c.isChan && (c.stage == .issued || c.stage == .started) && !(c.ended) && decide (c.handed < c.units) &&
          c.unitsOut == 0 && !((partChans s p).any (chanServes s c.op)) then
        endCmd s p st c.stamp stABSENT 0xFFFF
      else s) s) s

/-- A channel takes the map in effect; where its roles change, a command that no channel of the partition can take
then is refused (R81). -/
def newMap (s : State) (n : Nat) : State :=
  let t := applyMap s n
  if (chan t n).role = (chan s n).role then t
  else match chanOwner s n with
    | none => t
    | some p => refuseStranded t p

/-- A function bank that reported a double-bit error is rewritten from the current generation (R393). -/
def rewriteBank (s : State) (n : Nat) : State :=
  match (chan s n).badBank with
  | none => s
  | some b =>
    let s := bump s 0 (pgFN n) 0xF0C 1
    updChan s n fun x =>
      if b = 0 then { x with badBank := none, gen0 := curGen s } else { x with badBank := none, gen1 := curGen s }

/-- What a channel does at a command boundary: it takes the map in effect and rewrites a bad function bank. -/
def atEdge (s : State) (n : Nat) : State := rewriteBank (newMap s n) n

/-- Whether a channel is between commands: it holds no unit, and the command whose units it ran has none left. -/
def atBoundary (s : State) (n : Nat) : Bool :=
  let x := chan s n
  x.unit.isNone &&
    match x.cur with
    | none => true
    | some (p, st, stamp) =>
      match getCmd s p st stamp with
      | none => true
      | some c => c.ended || decide (c.units ≤ c.handed)

/-- A channel in service that is at a command boundary takes the map in effect. -/
def boundary (s : State) (n : Nat) : State :=
  if chLive s n && atBoundary s n then updChan (atEdge s n) n fun x => { x with cur := none } else s

def boundaries (s : State) : State := (List.range (capCH s)).foldl boundary s

/-! ## What a channel may take -/

/-- A unit that a channel may take: of a command, or a row group of a swarm. -/
structure Offer where
  strm   : Strm
  stamp  : Word
  energy : Nat
  swarm  : Option (Nat × Nat)
  deriving DecidableEq, Repr

/-- The commands before `c` in its stream. -/
def before (x : StreamSt) (c : Cmd) : List Cmd := x.cmds.takeWhile fun o => o.stamp != c.stamp

/-- Whether a command waits for the advisor's step of an earlier one (R50). -/
def precWaits (x : StreamSt) (c : Cmd) : Bool :=
  c.nums.autoPrec && (before x c).any fun o => o.isChan && !(o.param.isEmpty) && o.nums.autoPrec && o.monBase == c.monBase

/-- Whether the work counter of a command is bound to another (R281). -/
def wcBusy (s : State) (p : Nat) (st : Strm) (c : Cmd) : Bool :=
  (part s p).counters.any fun w => w.wc == c.wc && !(w.strm == st && w.stamp == c.stamp)

/-- A command that could start but for its work counter. -/
def startable (x : StreamSt) (c : Cmd) : Bool :=
  c.isChan && (c.stage == .issued && !(precWaits x c) || c.stage == .started) && decide (c.handed < c.units) &&
    c.shared == 0

/-- The next row group of a swarm that has rows. -/
def nextGroup (s : State) (p : Nat) (w : Swarm) : Option Nat :=
  (List.range w.groups).find? fun k => decide (w.next ≤ k) && !((groupRows s p w k).isEmpty)

/-- Row groups of launched swarms, each under the lowest stamp among its members (R142). DESIGN CHOICE (log 72): R50 has a
member wait for the advisor's step of an earlier command; the groups of its swarm wait with it, which is for ever where
that command is another member. -/
def swarmOffers (s : State) (p : Nat) : List Offer :=
  (part s p).swarms.filterMap fun w =>
    let x := strm s p w.strm
    let mine (o : Cmd) : Bool := w.members.any fun m => m.stamp == o.stamp
    if w.launched && x.cmds.all fun o => !(mine o) || o.stage != .issued || !(precWaits x o) then
      (nextGroup s p w).map fun k =>
        { strm := w.strm, stamp := (w.members.head?.map (·.stamp)).getD 0, energy := w.energy, swarm := some (w.id, k) }
    else none

/-- What a unit of a command charges. DESIGN CHOICE (log 20): the estimate of a `ring.step` covers the whole command
(Table 12-6), and its first unit charges it. -/
def Cmd.unitEnergy (c : Cmd) : Nat := if c.op = opRING && c.stage == .started then 0 else c.energy

/-- The units of a stream's own commands that a channel may take. -/
def cmdOffers (s : State) (p ch : Nat) (st : Strm) : List Offer :=
  let x := strm s p st
  (x.cmds.filter fun c =>
    startable x c && !(wcBusy s p st c) && chanServes s c.op ch && !(c.stage == .issued && ringWaits s c)).map fun c =>
      { strm := st, stamp := c.stamp, energy := c.unitEnergy, swarm := none }

/-- What a channel may take, in the order of R309. The queue of swarm row groups stands in stream S, whatever stream its
commands are of, and is eligible with it (R142). -/
def offers (s : State) (p ch : Nat) : List Offer :=
  allStrms.flatMap fun st =>
    if !(eligible s p st) then []
    else if st != .S then cmdOffers s p ch st
    else
      let base := ((strm s p .S).cmds.head?.map (·.stamp)).getD 0
      sortBy (fun a b => decide ((a.stamp - base).toInt < (b.stamp - base).toInt))
        ((if chanServes s opDEC ch then swarmOffers s p else []) ++ cmdOffers s p ch .S)

/-- `ALLOW` of the active slot, zero in a gap. -/
def slotAllow (s : State) : Nat := if s.wbt.gap then 0 else field (slotWord s s.wbt.slot 3) 0 28

/-- The counter of the first condition of R309 that an estimate fails on a channel. -/
def failsAt (s : State) (ch e : Nat) : Option Nat :=
  let x := chan s ch
  let a := slotAllow s
  if !(a == 0xFFFFFFF || decide ((e : Int) ≤ x.allow) || a != 0 && !x.charged) then some 0
  else if !(budgetFits s e) then some 1
  else if x.hot then some 2
  else none

/-- Whether a channel can take a unit now. -/
def canTake (s : State) (ch : Nat) : Bool :=
  let x := chan s ch
  chLive s ch && x.unit.isNone && x.power == .run && !x.waking && !x.returning

/-- The unit that a channel takes. -/
def chosen (s : State) (p ch : Nat) : Option Offer := (offers s p ch).find? fun o => (failsAt s ch o.energy).isNone

/-! ## Taking a unit -/

/-- A command starts at its first unit: its step is read (R49, R50). -/
def startCmd (s : State) (p : Nat) (st : Strm) (stamp : Word) : State :=
  match getCmd s p st stamp with
  | none => s
  | some c =>
    if c.stage = .issued then
      updCmd s p st stamp fun c =>
        { c with
          stage := .started
          begun := true
          ticks := 0
          prec := precStepOf s p st c
          remote := if c.op = opRING then some (ringJob c) else c.remote }
    else s

/-- The counter of a command gives its next value (R281, R282). -/
def nextValue (s : State) (p : Nat) (st : Strm) (c : Cmd) : State :=
  let s := updPart s p fun x =>
    { x with counters := (x.counters.filter fun w => w.wc != c.wc) ++
        [{ wc := c.wc, strm := st, stamp := c.stamp, value := c.handed + 1, bound := c.units }] }
  updCmd s p st c.stamp fun c => { c with handed := c.handed + 1, unitsOut := c.unitsOut + 1 }

/-- A channel is charged for a unit (R309). -/
def chargeUnit (s : State) (ch e : Nat) : State :=
  charge (updChan s ch fun x => { x with allow := x.allow - e, charged := true }) e

/-- A unit is granted to a channel. -/
def grant (s : State) (p ch : Nat) (o : Offer) : State :=
  let hold (value : Nat) : UnitHold :=
    { part := pf p, strm := o.strm, stamp := o.stamp, value := value, swarm := o.swarm.map (·.1), since := s.cycle }
  let put (s : State) (value : Nat) : State :=
    updChan (chargeUnit s ch o.energy) ch fun x =>
      { x with unit := some (hold value), cur := some (pf p, o.strm, o.stamp), progress := s.cycle }
  match o.swarm with
  | none =>
    match getCmd s p o.strm o.stamp with
    | none => s
    | some c => put (nextValue (startCmd s p o.strm o.stamp) p o.strm c) c.handed
  | some (id, k) =>
    match (part s p).swarms.find? fun w => w.id == id with
    | none => s
    | some w =>
      let s := ((groupRows s p w k).map (·.1)).eraseDups.foldl (fun s t => startCmd s p o.strm t) s
      let s := updPart s p fun x =>
        { x with swarms := x.swarms.map fun w => if w.id = id then { w with next := k + 1 } else w }
      put s k

/-- CHANNEL_TAKE_UNIT: a channel that can take a unit takes the first that fits; before a unit of another command
it takes the map in effect (R81). -/
def takeUnit (s : State) (ch : Nat) : State :=
  match chanOwner s ch with
  | none => s
  | some p =>
    if !(canTake s ch) then s
    else
      match chosen s p ch with
      | none => s
      | some o =>
        if (chan s ch).cur = some (pf p, o.strm, o.stamp) then grant s p ch o
        else
          let s := atEdge s ch
          if (offers s p ch).contains o then grant s p ch o else s

/-! ## The end of a unit -/

/-- How a unit ended. -/
inductive UnitRun where
  | ok (r : Run)
  | bad (st detail : Nat) (r : Run)
  | host (s : State)

/-- Run a unit; missing host data is asked for, and the unit is then still held. -/
def runUnit (s : State) (x : Ctx) (m : M Unit) : UnitRun :=
  let (e, r) := runM m (Run.of s x)
  match runWait s r.ctx e r with
  | some s => .host s
  | none =>
    match e with
    | .ok _ => .ok r
    | .error (st, d) => .bad st d r

/-- Whether unit `v` of a command makes rows (R86, R89, R118, R131). -/
def unitMade (c : Cmd) (v : Nat) : Bool :=
  if c.op = opFWD || c.op = opBWDA then !((groupPos c v).2.2.isEmpty)
  else if c.op = opBWDB then !((groupKeys c v).2.2.isEmpty)
  else if c.op = opDEC then field (c.ents.getD (v / c.get .hkv) 0) 16 7 != 0
  else true

/-- Whether unit `v` is the first of its command that makes rows. -/
def unitFirst (c : Cmd) (v : Nat) : Bool :=
  let lo := (unitRange c c.units).1
  unitMade c v && !((List.range (v - lo)).any fun k => unitMade c (lo + k))

/-- The work of unit `v` of a command on a channel. -/
def unitBody (p role : Nat) (c : Cmd) (v : Nat) : M Unit := do
  let first := unitFirst c v
  bounceAll c
  if c.op = opFWD then fwdUnit p role c v first
  else if c.op = opBWDA then bwdAUnit role c v first
  else if c.op = opBWDB then bwdBUnit role c v first
  else if c.op = opDEC then decUnit p role c v first
  else if c.op = opSELECT then selUnit p role c v first
  else if c.op = opSOFTMAX then softmaxUnit c v
  else if c.op = opFN then fnUnit c v
  else if c.op = opNORM then normUnit c v
  else if c.op = opROT then rotUnit c v
  else if c.op = opRING then ringUnit role c v first
  else return ()

/-- What a run counted on a channel, and what it leaves in the channel's arrays and halves. -/
def applyRun (s : State) (ch : Nat) (r : Run) : State :=
  let s := r.mons.foldl (fun s m => applyMon s ch (m.1 % jobSlots) m.2) s
  let s := r.work.foldl (fun s w => applyArr s ch w) (applyPipe s ch r.pipe)
  let s := r.loads.foldl (fun s l => applyLoad s ch l) s
  updChan s ch fun x =>
    { x with
      half0 := if r.half0.isEmpty then x.half0 else r.half0
      half1 := if r.half1.isEmpty then x.half1 else r.half1
      stat := x.stat.load r.stat }

/-- A command takes what command number `ix` of a run counted and wrote. -/
def Cmd.take (c : Cmd) (r : Run) (ix : Nat) : Cmd :=
  let ms := (r.mons.filter fun m => m.1 / jobSlots == ix).map (·.2)
  let sum (f : Mon → Nat) : Nat := (ms.map f).foldl (· + ·) 0
  let outs := (r.outs.filter fun e => e.1 / jobKeys == ix).map fun e => (e.1 % jobKeys, e.2)
  let t := c.totals
  let rows := countsRows c.op
  let upd := r.sums.map fun (a, v) =>
    { entry := 0, addr := a, sum := f32OfInt (v : Int) (-(fmtBits (c.get .fmtP) : Int)) : ScoreUpd }
  { c with
    flags := ms.foldl (fun a m => a ||| m.flags) c.flags
    outs := outs.foldl (fun o e => noteOut o e.1 e.2.1 e.2.2) c.outs
    totals := { t with
      blk := t.blk + sum (·.blk)
      sat := t.sat + sum (·.sat)
      trunc := t.trunc + sum (·.trunc)
      esc := t.esc + sum (·.esc)
      emptyRow := t.emptyRow + r.pipe.empty
      nanRow := t.nanRow + r.pipe.nan }
    countA := if rows then min (c.countA + r.pipe.empty) 0xFFFFFFFF else c.countA
    countB := if rows then min (c.countB + r.pipe.nan) 0xFFFFFFFF else c.countB
    escs := if c.writesEscs then c.escs ++ r.escs.filter (fun e => !(c.escs.any fun o => o.1 == e.1)) else c.escs
    scores := if ix = 0 then c.scores ++ upd else c.scores }

/-- The score updates of a unit belong to its entry; a command keeps them in ascending entry order (R152). -/
def Cmd.sortScores (c : Cmd) (n entry : Nat) : Cmd :=
  let cut := c.scores.length - n
  let l := c.scores.take cut ++ (c.scores.drop cut).map fun u => { u with entry := entry }
  { c with scores := sortBy (fun a b => decide (a.entry < b.entry)) l }

/-- A channel lets its unit go. -/
def letGo (s : State) (ch : Nat) : State := updChan s ch fun x => { x with unit := none, progress := s.cycle }

/-- The unit of a command ends. -/
def endUnit (s : State) (ch : Nat) (u : UnitHold) (c : Cmd) : State :=
  let p := u.part.val
  let x := cmdCtx s p u.strm c ch 7
  match runUnit s x (unitBody p (chan s ch).role c u.value) with
  | .host s => s
  | .ok r =>
    let s := dropHost (applyRun (letGo r.s ch) ch r) x.owner
    updCmd s p u.strm c.stamp fun c =>
      { (c.take r 0).sortScores r.sums.length (u.value / max 1 (c.get .hkv)) with unitsOut := c.unitsOut - 1 }
  | .bad st d r =>
    let s := dropHost (applyRun (letGo r.s ch) ch r) x.owner
    let s := updCmd s p u.strm c.stamp fun c =>
      { (c.take { r with sums := [] } 0) with unitsOut := c.unitsOut - 1 }
    endCmd s p u.strm c.stamp st d

/-- The commands of a row group with their contexts and rows, in order. -/
def groupCmds (s : State) (p ch : Nat) (w : Swarm) (k : Nat) : List (Ctx × Cmd × List Nat) :=
  let rows := groupRows s p w k
  (rows.map (·.1)).eraseDups.filterMap fun t =>
    (getCmd s p w.strm t).map fun c =>
      (cmdCtx s p w.strm c ch 7, c, (rows.filter fun r => r.1 == t).map (·.2))

/-- A swarm row group ends: its commands have that many rows fewer to wait for (R143); a fault ends them all (R145). -/
def endGroup (s : State) (ch : Nat) (u : UnitHold) (w : Swarm) : State :=
  let p := u.part.val
  let cs := groupCmds s p ch w u.value
  match cs with
  | [] => letGo s ch
  | first :: _ =>
    let after (s : State) (r : Run) : State :=
      let s := applyRun (letGo s ch) ch r
      cs.zipIdx.foldl (fun s ((x, c, rows), ix) =>
        updCmd (dropHost s x.owner) p w.strm c.stamp fun c =>
          { (c.take { r with sums := [], escs := [], pipe := Pipe.zero } ix) with shared := c.shared - rows.length }) s
    match runUnit s first.1 (swarmUnit p (chan s ch).role cs) with
    | .host s => s
    | .ok r => after r.s r
    | .bad st d r =>
      (inOrder s p w.strm (cs.map fun e => e.2.1.stamp)).foldl (fun s t => endCmd s p w.strm t st d) (after r.s r)

/-- Swarms that have no row group left and no channel at work on one are gone. -/
def pruneSwarms (s : State) (p : Nat) : State :=
  let held (w : Swarm) : Bool := s.chans.toList.any fun x =>
    x.unit.any fun u => u.part.val == p && u.swarm == some w.id
  updPart s p fun x =>
    { x with swarms := x.swarms.filter fun w => !(w.launched) || held w || (nextGroup s p w).isSome }

/-- The record of what a channel's arrays or memories report (R392, R393). -/
def upsetFault (w : Who) (ch : Nat) (e : UnitUpset) : FaultRec :=
  let w := { w with ch := ch }
  match e with
  | .residue a col g => { faultOf w 6 1 with unit := a, arg0 := col, arg1 := g }
  | .dataMem m word => { faultOf w 6 2 with unit := m, arg0 := word }
  | .corrected _ => faultOf w 6 2

/-- The commands that a channel's unit serves. -/
def unitStamps (s : State) (u : UnitHold) : List Word :=
  match u.swarm with
  | none => [u.stamp]
  | some id =>
    match (part s u.part.val).swarms.find? fun w => w.id == id with
    | none => [u.stamp]
    | some w => ((groupRows s u.part.val w u.value).map (·.1)).eraseDups

/-- An upset during a unit: the commands that it serves fault with `ECC_UNCORRECTED`. -/
def upsetUnit (s : State) (ch : Nat) (u : UnitHold) (e : UnitUpset) : State :=
  let p := u.part.val
  let stamps := unitStamps s u
  let s := addFault s (upsetFault (Who.cmd p u.strm (stamps.headD u.stamp) 7) ch e)
  let s := match e with
    | .residue _ _ _ => bump s 0 (pgARY ch) 0xF34 1
    | .dataMem m _ =>
      if m = 3 then
        let g := ((stamps.head?.bind fun t => getCmd s p u.strm t).map (·.gen)).getD (curGen s)
        updChan s ch fun x => { x with badBank := some (if x.gen0 = g then 0 else 1) }
      else s
    | .corrected _ => s
  let d := lastFault s
  (inOrder s p u.strm stamps).foldl (fun s t => endCmd s p u.strm t stECC d) (letGo s ch)

/-- A unit ends without an upset that faults. -/
def unitDone (s : State) (ch : Nat) (u : UnitHold) : State :=
  let p := u.part.val
  match u.swarm with
  | none =>
    match getCmd s p u.strm u.stamp with
    | none => letGo s ch
    | some c => if c.ended then letGo s ch else endUnit s ch u c
  | some id =>
    match (part s p).swarms.find? fun w => w.id == id with
    | none => letGo s ch
    | some w => endGroup s ch u w

/-- UNIT_END: the unit of a channel is computed whole and its channel is free. Errors that the memories corrected in
passing count (R393). -/
def unitEnd (s : State) (ch : Nat) (upset : Option UnitUpset) : State :=
  match (chan s ch).unit with
  | none => s
  | some u =>
    let p := u.part.val
    let s := match upset with
      | some (.corrected n) => unitDone (bump s 0 (pgARY ch) 0xF38 n) ch u
      | some e => upsetUnit s ch u e
      | none => unitDone s ch u
    if (chan s ch).unit.isSome then s
    else launchDue (pruneSwarms (settle (boundary s ch) p) p) p

end Sys2Proof.Machine
end

