-- ==== Sys2Proof/Machine/Clock.lean ====
section
/-! DEFINITION. A cycle of `CLK_CORE`: the counters that count cycles of waiting (R225, R281, R297, R309). Every other
event that time brings is a command of its own. -/

namespace Sys2Proof.Machine

open Sys2Proof

/-- Whether a completion of a partition waits for room in its ring (R297). -/
def cqFull (s : State) (p : Nat) : Bool :=
  allStrms.any fun st =>
    !(ringRoom s p st) && (strm s p st).cmds.any fun c => completable s p st c && !(c.noRecord)

/-- Whether a command of a partition waits for a bound work counter (R281). -/
def wcWaits (s : State) (p : Nat) : Bool :=
  allStrms.any fun st =>
    let x := strm s p st
    eligible s p st && x.cmds.any fun c => startable x c && wcBusy s p st c

/-- Whether a command of a partition waits for a pin slot, an edit among them (R225). -/
def pinWaits (s : State) (p : Nat) : Bool :=
  allStrms.any fun st =>
    match headCmd s p st with
    | some c =>
      c.paramErr == 0 && c.pin.isNone && (takePin s p).isNone &&
        (if c.isEdit then eligible s p st && editFree s p st c && (pool s p).wait.isNone
        else poolReads s p c && !(editBefore (strm s p st) c))
    | none => false

/-- The counter of `PWR` that a channel counts in a cycle in which it finds no command that fits: after the first
condition that failed for the first eligible command, in whatever power state it is (R309, Table 12-11). -/
def unitWait (s : State) (ch : Nat) : Option Nat :=
  match chanOwner s ch with
  | none => none
  | some p =>
    if !(chLive s ch) || (chan s ch).unit.isSome || (chosen s p ch).isSome then none
    else match offers s p ch with
      | [] => none
      | o :: _ => failsAt s ch o.energy

/-- What a core cycle of a block out of reset counts. -/
def cycleCounts (s : State) : State :=
  let parts := allParts.filter (partLoad s)
  let t := parts.foldl (fun t p =>
    let t := if cqFull s p then bump t p pgSTRM 0xF28 1 else t
    let t := if wcWaits s p then bump t p pgSTRM 0xF20 1 else t
    if pinWaits s p then bump t p pgPOOL 0xF38 1 else t) s
  (List.range (capCH s)).foldl (fun t ch =>
    match unitWait s ch with
    | some k => bump t ch pgPWR (0xF28 + 4 * k) 1
    | none => t) t

/-- A core cycle. Nothing moves in reset (R415), and nothing is promised in test mode (R349). -/
def coreCycle (s : State) : State :=
  if s.testEn || !s.rstN then s
  else keepPins s { cycleCounts s with cycle := s.cycle + 1 }

end Sys2Proof.Machine
end

