-- ==== Sys2Proof/Machine/Fetch.lean ====
section
/-! DEFINITION. Fetch: the poll of a command ring (R258 to R261, R265), prefetch-back (R251), arming and disarming (R262),
cancel (R290). -/

namespace Sys2Proof.Machine

open Sys2Proof

/-! ## Fetch (R258, R260, R265) -/

/-- A command as it is fetched. -/
def Cmd.fetched (stamp : Word) (record param : List Byte) (err detail : Nat) (task : Option Word) (phase : DWord) : Cmd :=
  { stamp := stamp, op := leAt record 0 1, record := record, param := param, paramErr := err, paramVa := leAt record 8 7
    task := task.getD stamp, inTask := task.isSome, stage := .fetched, status := 0, detail := detail, flags := 0
    countA := 0, countB := 0, info := 0, gen := 0, factor := 0, energy := 0, pin := none, units := 0, unitsOut := 0
    handed := 0, phase0 := phase, ticks := 0, prec := 0
    totals := { blk := 0, sat := 0, trunc := 0, esc := 0, emptyRow := 0, nanRow := 0 }
    outs := [], scores := [], scored := false, shared := 0, escs := [], escDone := false, remote := none, ents := [], trees := []
    lens := [], image := [], imgStep := 0, quiesced := none, begun := false, dysil := none }

/-- The task of a record with a stamp (R284): the open one, or the one that it begins. -/
def fetchTaskOf (x : StreamSt) (op : Nat) (stamp : Word) : Option Word :=
  match x.fetchTask with
  | some t => some t
  | none => if op = opTASKBEGIN then some stamp else none

/-- Whether the parameter block of a record is not read: its task aborted or was cancelled, or a cancel window holds it
(R286, R290). -/
def skipsParam (x : StreamSt) (stamp : Word) (task : Option Word) : Bool :=
  inWindow x stamp (task.getD stamp) task.isSome ||
    x.tasks.any fun t => task == some t.first && (t.aborted || t.cancelled)

/-- What the read of a parameter block gives: its bytes, or a status and detail; `none` while host memory is asked. A
fabric error leaves an entry of no bytes. -/
def readParam (s : State) (p : Nat) (st : Strm) (stamp : Word) (va n : Nat) : State × Option (List Byte × Nat × Nat) :=
  let o := paramOwner p st stamp
  let x : Ctx := { who := Who.cmd p st stamp 0, part := p, root := none, owner := o }
  match s.iqDone.find? fun r => r.owner == o && r.bytes == 0 with
  | some r => (dropHost s o, some ([], r.addr, r.limit))
  | none =>
    match ranM s x (rd va n) with
    | .ok bs r => (dropHost r.s o, some (bs, 0, 0))
    | .host s => (s, none)
    | .bad e d s' =>
      -- the failed walk writes its record at issue (R265)
      if e = stECC then (dropHost s' o, some ([], stECC, d)) else (dropHost s o, some ([], stABORTED, 0))

/-- Take a valid record into its stream. -/
def takeRecord (s : State) (p : Nat) (st : Strm) (record param : List Byte) (err detail : Nat) : State :=
  let x := strm s p st
  let stamp := x.next
  let op := leAt record 0 1
  let task := fetchTaskOf x op stamp
  let c := Cmd.fetched stamp record param err detail task s.cad.phase
  let opens := op == opTASKBEGIN && x.fetchTask.isNone
  let s := updStrm s p st fun x =>
    let ts := if opens then x.tasks ++
        [{ first := stamp, stop := bitOf (leAt record 36 1) 0, dirtyBuf := leAt record 48 7, dirtyCap := leAt record 40 4
           aborted := false, cancelled := false, commands := 0, entries := [] }]
      else x.tasks
    { x with
      next := x.next + 1
      cmds := x.cmds ++ [c]
      fetchTask := if op = opTASKEND then none else task
      tasks := ts.map fun t => if task = some t.first then { t with commands := t.commands + 1 } else t }
  let s := dropHost s (.ring (pf p) st)
  let dead := (strm s p st).tasks.any fun t => task == some t.first && t.aborted
  let s := if dead && op != opTASKEND then markEnd s p st stamp stABORTED 0 else s
  settle (prefetchBack s p st c) p

/-- Whether a stream is at a task boundary: no task is open and every command it fetched is complete (R404). -/
def atTaskEnd (x : StreamSt) : Bool := x.fetchTask.isNone && x.tasks.isEmpty && x.cmds.isEmpty

/-- The quiesce point (R404). -/
def quiet (s : State) (p : Nat) (st : Strm) (c : Cmd) : Bool :=
  allStrms.all (fun o =>
    let x := strm s p o
    if o = st then x.fetchTask.isNone && x.tasks.isEmpty && x.cmds.map (·.stamp) == [c.stamp]
    else atTaskEnd x) &&
  (part s p).slots.isEmpty && (pool s p).wait.isNone && !((pool s p).lossDue) && (pool s p).parking.isNone

/-- Whether a `snap` of the partition holds a stream's fetch: another stream's from its issue on, at a task boundary
(R404); its own from the quiesce point on, while the image is written (R407). -/
def snapHolds (s : State) (p : Nat) (st : Strm) : Bool :=
  allStrms.any fun o => (strm s p o).cmds.any fun c => c.op == opSNAP &&
    (if o = st then c.stage == .started || c.stage == .issued && (c.quiesced.isSome || quiet s p o c)
     else (c.stage == .issued || c.stage == .started) && atTaskEnd (strm s p st))

/-- Whether a stream may read its ring now. -/
def mayFetch (s : State) (p : Nat) (st : Strm) : Bool :=
  let x := strm s p st
  x.armed && !x.draining && !(fetchBlocked x) && !(snapHolds s p st) &&
    (eligible s p st || s.iqDone.any fun r => r.owner == .ring (pf p) st || r.owner == paramOwner p st x.next)

def setPolling (s : State) (p : Nat) (st : Strm) (b : Bool) : State := updStrm s p st fun x => { x with polling := b }

/-- The read of the ring slot of `NEXT` (R258, R260). -/
def slotRead (s : State) (p : Nat) (st : Strm) (va : Nat) : Ran (List Byte) :=
  ranM s { who := Who.cmd p st (strm s p st).next 0, part := p, root := none, owner := .ring (pf p) st } (rd va 64)

/-- The address of the ring slot of `NEXT`. -/
def nextSlotVa (s : State) (p : Nat) (st : Strm) : Nat :=
  ringVa s p st 0 + 64 * ((strm s p st).next.toNat % 2 ^ field (strmField s [] p st.num 4) 0 5)

/-- A record that was read from the slot of `NEXT`: an invalid one ends the poll; a valid one is taken once its parameter block
is read. The flag says that the poll goes on. -/
def slotTake (s : State) (p : Nat) (st : Strm) (bs : List Byte) : State × Bool :=
  let x := strm s p st
  let op := leAt bs 0 1
  if op = 0 || leAt bs 4 4 != x.next.toNat then (setPolling (dropHost s (.ring (pf p) st)) p st false, false)
  else
    let task := fetchTaskOf x op x.next
    let n := 64 * leAt bs 26 2
    if isControl op || leAt bs 8 7 = 0 || n = 0 || skipsParam x x.next task then (takeRecord s p st bs [] 0 0, true)
    else
      match readParam s p st x.next (leAt bs 8 7) n with
      | (s, none) => (setPolling s p st true, false)
      | (s, some (param, err, detail)) => (takeRecord s p st bs param err detail, true)

/-- One read of a poll. -/
def pollOnce (s : State) (p : Nat) (st : Strm) : State × Bool :=
  if !(mayFetch s p st) then (setPolling s p st false, false)
  else
    let va := nextSlotVa s p st
    match slotRead s p st va with
    | .host s => (setPolling s p st true, false)
    | .bad e _ s' => (ringFail (dropHost (if e = stECC then s' else s) (.ring (pf p) st)) p st va, false)
    | .ok bs r => slotTake r.s p st bs

/-- Read slots from that of `NEXT` on while they hold valid records and room remains. -/
def pollLoop : Nat → State → Nat → Strm → State
  | 0, s, p, st => setPolling s p st false
  | k + 1, s, p, st => if (pollOnce s p st).2 then pollLoop k (pollOnce s p st).1 p st else (pollOnce s p st).1

/-- RING_POLL: a poll of an armed, eligible stream. -/
def ringPoll (s : State) (p : Nat) (st : Strm) : State :=
  if !(partLoad s p) then s else launchDue (pollLoop 65 s p st) p

/-! ## Arming, disarming and cancel -/

/-- The partition that `STRM.SIDX` shows. -/
def sidx (s : State) : Nat := live s 0 pgSTRM 0xF04 % 8

/-- `STRM.BUSYn` bits, sticky. -/
def setBusy (s : State) (p b : Nat) : State := setLive s p pgSTRM 0xF1C (live s p pgSTRM 0xF1C ||| b)

/-- Arm a stream: refused with `BUSY` while it is armed or draining (R262). -/
def armStream (s : State) (p : Nat) (st : Strm) : State :=
  if (strm s p st).armed then setBusy s p 1
  else updStrm s p st fun x => { x with armed := true, draining := false }

/-- Disarm a stream: nothing more is fetched, and it is disarmed when its last command completes. -/
def disarmStream (s : State) (p : Nat) (st : Strm) : State :=
  let x := strm s p st
  if !x.armed then s
  else
    let s := dropFetch s p st
    updStrm s p st fun x =>
      if x.cmds.isEmpty then { x with armed := false, draining := false, polling := false }
      else { x with draining := true, polling := false }

/-- A write of `STRM.ARM` for partition `SIDX`: bits [3:0] arm, bits [7:4] disarm; discarded where the partition is not
loaded (R307). -/
def writeArm (s : State) (v : Nat) : State :=
  let p := sidx s
  if !(partLoad s p) then s
  else
    let s := allStrms.foldl (fun s st => if bitOf v st.num then armStream s p st else s) s
    allStrms.foldl (fun s st => if bitOf v (4 + st.num) then disarmStream s p st else s) s

/-- A write of `STRM.CUNTIL`. -/
def writeCuntil (s : State) (v : Word) : State :=
  let p := sidx s
  allStrms.foldl (fun s st => updStrm s p st fun x => { x with cuntil := v }) s

/-- A write of `STRM.CANCEL` for partition `SIDX`: [1:0] stream, [2] `RUN`, [3] `GO`. A second cancel keeps the later
bound (R290). -/
def writeCancel (s : State) (v : Nat) : State :=
  let p := sidx s
  let st := strmOf (v % 4)
  if !(bitOf v 3) then s
  else
    let s := updStrm s p st fun x =>
      let run := bitOf v 2
      { x with cancelTo := match x.cancelTo with
          | none => some (x.cuntil, run)
          | some (b, r) => some (if stampLt b x.cuntil then x.cuntil else b, r || run) }
    launchDue (settle s p) p

end Sys2Proof.Machine
end

