-- ==== Sys2Proof/Machine/Transfer.lean ====
section
/-! DEFINITION. `xfer` and `feed` as commands (R292 to R294): issue, transfer slots, one transfer after another. -/

namespace Sys2Proof.Machine

open Sys2Proof

/-- Commands that run through a transfer slot. -/
def isTransfer (op : Nat) : Bool := op == opXFER || op == opFEED

/-- The kind of memory that a virtual address reaches: 0 store, 1 slow tier, 2 host, 3 none. -/
def vaKind (s : State) (x : Ctx) (va : Nat) : Nat :=
  match (xlate s x va false).2 with
  | .ok pa _ => if isStore pa then 0 else if isSlow pa then 1 else 2
  | _ => 3

/-- The slice of a virtual address in store. -/
def vaSlice (s : State) (x : Ctx) (va : Nat) : Nat :=
  match (xlate s x va false).2 with
  | .ok pa _ => sliceOf pa
  | _ => 0

/-- The engine that moves a command's data (R462): channel (`0xFF` for none) and requester class. A store-to-store
`xfer` runs on the feeder of its destination channel (R45): DESIGN CHOICE (log 85), where its DST spans several slices, of
the slice that holds the first byte of the codes. -/
def moverOf (s : State) (p : Nat) (st : Strm) (c : Cmd) : Nat × Nat :=
  if c.op = opFEED then (0xFF, 2)
  else
    let x := cmdCtx s p st c 0xFF 2
    let ks := [vaKind s x (c.desc 0).codes, vaKind s x (c.desc 1).codes]
    if ks.contains 2 then (0xFF, 2)
    else if ks.contains 1 then (0xFF, 3)
    else (vaSlice s x (c.desc 1).codes, 7)

/-- The estimate's counts of an `xfer` or a `feed`: the store rows that its descriptors name (Table 12-6). -/
def transferWork (s : State) (p : Nat) (st : Strm) (c : Cmd) : Work :=
  let x := cmdCtx s p st c 0xFF 2
  { b := 0, u := 0, r := opdRows s x (c.desc 0) c.nums.srcS
    w := if c.op = opXFER then opdRows s x (c.desc 1) c.nums.fmtO else 0 }

/-- Issue an `xfer` or a `feed`: its checks and its pin; a zero `REPEAT` completes at once. -/
def issueTransfer (s : State) (p : Nat) (st : Strm) (c : Cmd) : State :=
  if c.paramErr != 0 then paramFail s p st c
  else if poolReads s p c && editBefore (strm s p st) c then s
  else
    match (if poolReads s p c then takeCmdPin s p st c else some (s, c)) with
    | none => s
    | some (s, c) =>
      match firstRef (if c.op = opXFER then xferRefs c else feedRefs s p c) with
      | some f => refuseCmd s p st c.stamp f
      | none =>
        let s := updCmd s p st c.stamp fun c =>
          { c.issued s p with energy := estimate s (transferWork s p st c) }
        if c.get .repeat = 0 then endCmd s p st c.stamp stOK 0 else s

def slotOf (s : State) (p k : Nat) : Option XSlot := (part s p).slots.find? fun x => x.slot == k

def updSlot (s : State) (p k : Nat) (f : XSlot → XSlot) : State :=
  updPart s p fun x => { x with slots := x.slots.map fun y => if y.slot = k then f y else y }

/-- Move the data of the transfer that a slot runs. -/
def moveData (s : State) (p k : Nat) : State :=
  match slotOf s p k with
  | none => s
  | some x =>
    if x.phase != 1 then s
    else
      match getCmd s p x.strm x.stamp with
      | none => s
      | some c =>
        let (ch, cls) := moverOf s p x.strm c
        let ctx := { cmdCtx s p x.strm c 0xFF cls with who := { Who.cmd p x.strm c.stamp cls with ch := ch } }
        let count (s : State) (r : Run) : State :=
          dropHost (if ch = 0xFF then countMons s p r else r.mons.foldl (fun s m => applyMon s ch m.1 m.2) s) ctx.owner
        let (e, r) := runM (if c.op = opXFER then xferOnce c else feedOnce c) (Run.of s ctx)
        match runWait s r.ctx e r with
        | some s => s
        | none =>
          match e with
          | .ok n =>
            let s := updCmd (count r.s r) p x.strm c.stamp fun c => { c.take r 0 with info := n }
            updSlot s p k fun y => { y with phase := 2 }
          | .error (e, d) => endCmd (updCmd (count r.s r) p x.strm c.stamp fun c => c.take r 0) p x.strm c.stamp e d

/-- A transfer whose writes are answered is complete; after the last one the slot is free and the command ends. -/
def settleSlot (s : State) (p k : Nat) : State :=
  match slotOf s p k with
  | none => s
  | some x =>
    if x.phase != 2 || cmdWaits s p x.strm x.stamp then s
    else
      let s := updCmd s p x.strm x.stamp fun c => { c with countA := c.countA + 1 }
      if x.left ≤ 1 then endCmd s p x.strm x.stamp stOK 0
      else updSlot s p k fun y => { y with left := y.left - 1, phase := 0 }

/-- What the transfers of a partition can do by themselves. -/
def runSlots (s : State) (p : Nat) : State :=
  (List.range 32).foldl (fun s k => settleSlot (moveData s p k) p k) s

/-- A transfer command takes its slot. -/
def takeSlot (s : State) (p : Nat) (st : Strm) (c : Cmd) : State :=
  let s := updCmd (charge s c.energy) p st c.stamp fun c => { c with stage := .started, begun := true }
  updPart s p fun x =>
    { x with slots := x.slots ++
        [{ slot := c.get .xs, strm := st, stamp := c.stamp, left := c.get .repeat, phase := 1, period := c.get .period
           sinceStart := 0 }] }

/-- Start a command on its slot: transfer 0 (R292). A busy slot turns it away. -/
def startTransfer (s : State) (p : Nat) (st : Strm) (c : Cmd) : State :=
  let k := c.get .xs
  if !(eligible s p st) || !(budgetFits s c.energy) then s
  else if (slotOf s p k).isSome then endCmd (setBusy s p 2) p st c.stamp stARMBUSY k
  else settleSlot (moveData (takeSlot s p st c) p k) p k

/-- A transfer command of a stream by opcode: the first that is issued starts; else the head issues and starts. -/
def transferOp (s : State) (p : Nat) (st : Strm) (op : Nat) : State :=
  let ready (s : State) : Option Cmd := (strm s p st).cmds.find? fun c => c.op == op && c.stage == .issued
  let s := match ready s with
    | some c => startTransfer s p st c
    | none =>
      let s := issueOp s p st op issueTransfer
      match ready s with
      | some c => startTransfer s p st c
      | none => s
  launchDue (settle s p) p

/-- TRANSFER_PERIOD: the next transfer of a slot starts once its period is over and the one before is complete (R292). -/
def transferPeriod (s : State) (p k : Nat) : State :=
  match slotOf s p k with
  | none => s
  | some x =>
    if x.phase != 0 || x.sinceStart < x.period then s
    else
      let s := updSlot s p k fun y => { y with phase := 1, sinceStart := 0 }
      launchDue (settle (settleSlot (moveData s p k) p k) p) p

end Sys2Proof.Machine
end

