-- ==== Sys2Proof/Machine/Remote.lean ====
section
/-! DEFINITION. The remote ports (R350 to R360): frames and groups out and in, credits, receives; what `ring.step` in
`GATHER` mode, `red.recv`, `mirror.seg` and `molt` send and do with what they receive (R366, R369 to R380). -/

namespace Sys2Proof.Machine

open Sys2Proof

/-! ## Jobs -/

def updJob (s : State) (p : Nat) (st : Strm) (stamp : Word) (f : RemJob → RemJob) : State :=
  updCmd s p st stamp fun c => { c with remote := c.remote.map f }

/-- Whether a receive has delivered all its frames (R359). -/
def rxDone (j : RemJob) : Bool := j.rxTotal.any fun t => decide (t ≤ j.rxGot)

/-- Whether a count of frames freed covers a mark, both modulo 2³². -/
def covers (freed mark : Nat) : Bool := decide (diff32 freed mark < 2 ^ 31)

/-- Whether a send is done (R358). -/
def txDone (s : State) (j : RemJob) : Bool :=
  decide (j.txCount ≤ j.txNext) && j.txBack.isEmpty && !j.txLost &&
    j.txMarks.all fun e => covers ((remP s e.1).peerFreed.getD j.vc 0) e.2

/-- Mirror frames of a command that wait on a port. -/
def mirrorWaits (s : State) (p : Nat) (st : Strm) (stamp : Word) : Bool :=
  s.rem.toList.any fun x => x.mirror.any fun (q, t, k, _) => q.val == p && t == st && k == stamp

/-- Run work of a command's engine: `none` where it waits for host memory, or the command has ended with a fault. -/
def jobStep {α : Type} (s : State) (p : Nat) (st : Strm) (c : Cmd) (cls : Nat) (m : M α) : State × Option α :=
  let x := cmdCtx s p st c 0xFF cls
  let took (r : Run) : State := updCmd (countMons (dropHost r.s x.owner) p r) p st c.stamp fun c => c.take r 0
  let (e, r) := runM m (Run.of s x)
  match runWait s x e r with
  | some s => (s, none)
  | none =>
    match e with
    | .ok a => (took r, some a)
    | .error (e, d) => (endCmd (took r) p st c.stamp e d, none)

/-! ## `red.recv` (R369 to R372) -/

def redChunks (c : Cmd) : Nat := ceilDiv (c.get .elems) 2048

/-- Chunk `k` of a `red.recv`, with the payload and the scale received, if it receives (R371). -/
def redChunk (c : Cmd) (k : Nat) (got : Option (List Byte × Nat)) : M Unit := do
  let mode := c.get .mode
  let slot := c.slot 0
  let n := min 2048 (c.get .elems - 2048 * k)
  if n = 0 then return ()
  bounceAll c
  let src ← if bitOf mode 2 then (do
      let vs ← rdFlat (c.desc 0) c.nums.srcS (2048 * k) n
      tallyNan slot (vs.filter f32IsNaN).length
      return vs) else pure (List.replicate n f32Zero)
  let vs ← match got with
    | none => pure src
    | some (bs, scale) => do
      tallyNan slot (if scale = 0xFF then 1 else 0)
      let gs := (List.range n).map fun i =>
        if scale = 0xFF then f32NaN else f32OfInt (signed 16 (leAt bs (2 * i) 2)) ((scale : Int) - 142)
      if bitOf mode 2 then chkAll ((gs.zip src).map fun (g, v) => f32Add g v) else pure gs
  if bitOf mode 1 then
    match quantG16 c.seed (64 * k) vs with
    | none => overflowM
    | some (scale, codes, clamp, _) =>
      tally slot fun m => { m with clamp := m.clamp + clamp }
      wr (outField c .fwd) (c.get .fwd + 4096 * k) (fitBytes 4096 (codes.flatMap (leBytes 2)))
      wr (outField c .fwd) (c.get .fwd + 4096 * redChunks c + k) [BitVec.ofNat 8 scale]
  if bitOf mode 3 then wrFlat 1 (c.desc 1) c.nums.fmtO (2048 * k) vs

/-- The refusals of a `red.recv` at issue (R369, R370). -/
def redRefs (s : State) (p : Nat) (c : Cmd) : List Ref :=
  let n := c.nums
  let mode := c.get .mode
  let shared := sharedRefs c
  if !(capRED s) then [(stABSENT, noField)]
  else if c.param.length < paramNeed c.op then shared
  else
    let ext (i bit : Nat) : List Ref :=
      shapeIf (bitOf mode bit && decide ((c.desc i).size < c.get .elems)) (c.at .elems)
    portRefs s p c ++ shared ++
      shapeIf (!(bitOf mode 1) && !(bitOf mode 3)) (c.at .mode) ++
      shapeIf (bitOf mode 1 && c.get .fwd == 0) (c.at .fwd) ++
      shapeIf (!(isFloat n.srcS)) atSrcS ++ shapeIf (!(isFloat n.fmtO)) atFmtO ++ ext 0 2 ++ ext 1 3

/-! ## `mirror.seg` (R375) -/

/-- The refusals of a `mirror.seg` at issue. -/
def mirrorRefs (s : State) (p : Nat) (c : Cmd) : List Ref :=
  let shared := sharedRefs c
  if !(capMIR s) then [(stABSENT, noField)]
  else if c.param.length < paramNeed c.op then shared
  else portRefs s p c ++ shared ++
    shapeIf (!(isConv c.nums.srcS)) atSrcS

/-- The runs of a segment's bytes, in the order of its image: elements in logical order, or codes and then scales
(DESIGN CHOICE, log 56). -/
def mirrorRuns (c : Cmd) : List (Nat × Nat) := opdRuns (c.desc 0) (Opd.of c.nums.srcS)

/-- The pieces of `[off, off + n)` of an image that runs make up. -/
def cutRuns : List (Nat × Nat) → Nat → Nat → List (Nat × Nat)
  | [], _, _ => []
  | (va, k) :: rest, off, n =>
    if n = 0 then []
    else if k ≤ off then cutRuns rest (off - k) n
    else
      let m := min n (k - off)
      (va + off, m) :: cutRuns rest 0 (n - m)

/-- Whether the granule of an address is scratch. -/
def scratchAt (va : Nat) : M Bool := do
  let r ← get
  match xlate r.s r.ctx va false with
  | (s, .fail cause) => do
    set { r with s := xlFault s r.ctx va cause }
    throw (stABORTED, lastFault (← getS))
  | (s, .ecc e) => do
    set { r with s := s }
    throw (stECC, e)
  | (s, .ok _ leaf) => do
    set { r with s := s }
    return bitOf leaf 2

/-- Put a range behind others; ranges that touch are one. -/
def joinRange (rs : List (Nat × Nat)) (off n : Nat) : List (Nat × Nat) :=
  match rs.getLast? with
  | some (a, k) => if a + k = off then rs.dropLast ++ [(a, k + n)] else rs ++ [(off, n)]
  | none => [(off, n)]

/-- The frames of a segment, offset and length of each, and the scratch granules skipped (R190, R375). -/
def mirrorPlan (c : Cmd) : M (List (Nat × Nat) × Nat) := do
  bounceAll c
  let pieces := (mirrorRuns c).flatMap fun (va, k) => cutRange Config.granule k va k
  let out ← pieces.foldlM (fun (acc : Nat × List (Nat × Nat) × List Nat) (va, k) => do
    let (off, rs, skipped) := acc
    if ← scratchAt va then return (off + k, rs, (va / Config.granule :: skipped).eraseDups)
    else return (off + k, joinRange rs off k, skipped)) (0, [], [])
  return (out.2.1.flatMap fun (off, n) => cutRange 4096 n off n, out.2.2.length)

/-! ## `molt` (R378 to R380) -/

/-- The pool fields that an image carries (R379). -/
def moltExtra (s : State) (p : Nat) : List Byte := leBytes 4 (poolField s [] p 0) ++ leBytes 4 (poolField s [] p 1)

/-- Granules of each entry's image, in the pinned instar. -/
def moltSizes (c : Cmd) : M (List Nat) := do
  let root ← theRoot
  c.ents.mapM fun w => imageG root (field w 0 16)

/-- The bytes of frame `k` of a send. -/
def moltBytes (c : Cmd) (k : Nat) : M (List Byte) := do
  let s ← getS
  let p ← partM
  let root ← theRoot
  let ns ← moltSizes c
  let rec_ := (c.ents.zip ns).foldl (fun (acc : Option (Nat × Nat) × Nat) (w, n) =>
    let lo := acc.2
    (if lo ≤ 4096 * k && 4096 * k < lo + n * Config.granule then some (field w 0 16, 4096 * k - lo) else acc.1,
      lo + n * Config.granule)) (none, 0)
  match rec_.1 with
  | none => return []
  | some (q, off) => imagePart root q (moltExtra s p) off 4096

/-- The refusals of a `molt` in `SEND` mode at issue (R378, R379). -/
def moltSendRefs (p : Nat) (c : Cmd) : M (List Ref) := do
  let shared := sharedRefs c
  if c.param.length < paramNeed c.op then return shared
  return shared ++ shapeIf (decide (65536 < c.get .nent)) (c.at .nent) ++
    (← editEntRefs p c)

/-! ## What a frame carries -/

/-- The payload of frame `k` of a send: offset, bytes, scale, origin, step. -/
def framePayload (c : Cmd) (j : RemJob) (k : Nat) : M (Nat × List Byte × Nat × Nat × Nat) := do
  if c.op = opRING then
    let attn := c.get .mode == 0
    let base := if attn then ringBuf c false else c.get .buf0 + ringOrigin c * c.get .bufBytes
    let total := if attn then (ringImage c).2.2.2.2 else c.get .bufBytes
    return (4096 * k, ← rd (base + 4096 * k) (min 4096 (total - 4096 * k)), 0, ringOrigin c, c.get .step)
  else if c.op = opRED then
    let sc ← rd (c.get .fwd + 4096 * redChunks c + k) 1
    return (4096 * k, ← rd (c.get .fwd + 4096 * k) 4096, leNat sc, 0, 0)
  else if c.op = opMIRROR then
    let (off, n) := j.txPlan.getD k (0, 0)
    let bs ← (cutRuns (mirrorRuns c) off n).mapM fun (va, k) => rd va k
    return ((c.get .dstOff + off) % 2 ^ 40, bs.flatten, 0, 0, c.get .gen)
  else return (4096 * k, ← moltBytes c k, 0, 0, 0)

/-- `n` bytes that the manual does not state. -/
def freeBytes (s : State) (n : Nat) : State × List Byte :=
  ({ s with free := s.free + n }, (List.range n).map fun i => (Config.freeWord (s.free + i)).setWidth 8)

/-- A data frame's record and its 4,096 bytes (Table 14-2); bytes past `LEN` are not stated. -/
def frameOut (s : State) (j : RemJob) (k : Nat) (x : Nat × List Byte × Nat × Nat × Nat) : State × List Byte × List Byte :=
  let (off, bs, scale, origin, step) := x
  let (s, pad) := freeBytes s (4096 - bs.length)
  let data := (bs ++ pad).take 4096
  (s, leBytes 1 j.vc ++ leBytes 1 (if k + 1 = j.txCount then 1 else 0) ++ leBytes 2 j.xid ++ leBytes 4 k ++
    leBytes 8 off ++ leBytes 2 bs.length ++ leBytes 1 scale ++ leBytes 1 origin ++ leBytes 4 step ++ zeroBytes 36 ++
    leBytes 4 (crc32c data), data)

/-! ## Sending (R350, R351, R353, R358, R375) -/

/-- Whether one more data frame of a channel may enter a group of a port (R353). -/
def mayEnter (s : State) (n vc : Nat) : Bool :=
  let x := remP s n
  x.up && decide (diff32 (x.sent.getD vc 0 + (if vc = 2 then x.mirror.length else 0)) (x.peerFreed.getD vc 0) <
    Config.landing vc)

/-- The port that takes a job's next frame (R358). -/
def nextPort (s : State) (j : RemJob) : Option Nat :=
  ((List.range 64).map fun i => (j.lastPort + 1 + i) % 64).find? fun n => bitOf j.txPorts n && mayEnter s n j.vc

/-- The frame that a job hands out next. -/
def nextFrame (j : RemJob) : Option Nat :=
  match j.txBack with
  | k :: _ => some k
  | [] =>
    if j.txNext < j.txCount && (!j.txGated || j.txReady.contains j.txNext) then some j.txNext else none

/-- A job hands frame `k` to port `n`. -/
def handed (j : RemJob) (k n : Nat) : RemJob :=
  match j.txBack with
  | _ :: rest => { j with txBack := rest, lastPort := n }
  | [] => { j with txNext := k + 1, txReady := j.txReady.filter (· != k), lastPort := n }

/-- A data frame is in the group of port `n`: it counts as sent, and the job marks the count. -/
def countSent (s : State) (n : Nat) (p : Nat) (st : Strm) (stamp : Word) (vc : Nat) : State :=
  let s := updRem s n fun x => { x with sent := x.sent.set vc ((x.sent.getD vc 0 + 1) % 2 ^ 32) }
  let mark := (remP s n).sent.getD vc 0
  updJob s p st stamp fun j => { j with txMarks := assocSet j.txMarks n mark }

/-- Data frames that go into the next groups: port, channel, record, bytes. -/
abbrev Batch := List (Nat × Nat × List Byte × List Byte)

/-- A command hands out frames while it has some and a port takes them; those of channel 2 queue on their port. -/
def handOut : Nat → State → Batch → Nat → Strm → Word → State × Batch
  | 0, s, b, _, _, _ => (s, b)
  | fuel + 1, s, b, p, st, stamp =>
    match getCmd s p st stamp with
    | none => (s, b)
    | some c =>
      match liveJob c with
      | none => (s, b)
      | some j =>
        match nextFrame j, nextPort s j with
        | some k, some n =>
          if j.vc = 2 then
            let s := updJob s p st stamp fun j => handed j k n
            let s := updRem s n fun x => { x with mirror := x.mirror ++ [(pf p, st, stamp, k)] }
            handOut fuel s b p st stamp
          else
            match jobStep s p st c (if c.op = opMOLT then 0 else 4) (framePayload c j k) with
            | (s, none) => (s, b)
            | (s, some x) =>
              let (s, rec_, data) := frameOut s j k x
              let s := updJob s p st stamp fun j => handed j k n
              handOut fuel (countSent s n p st stamp j.vc) (b ++ [(n, j.vc, rec_, data)]) p st stamp
        | _, _ => (s, b)

/-- Up to `k` mirror frames of port `n` join the batch. -/
def mirrorOut : Nat → State → Batch → Nat → State × Batch
  | 0, s, b, _ => (s, b)
  | k + 1, s, b, n =>
    match (remP s n).mirror with
    | [] => (s, b)
    | (p, st, stamp, fseq) :: rest =>
      match getCmd s p.val st stamp with
      | none => (s, b)
      | some c =>
        match liveJob c with
        | none => (s, b)
        | some j =>
          match jobStep s p.val st c 5 (framePayload c j fseq) with
          | (s, none) => (s, b)
          | (s, some x) =>
            let (s, rec_, data) := frameOut s j fseq x
            let s := updRem s n fun x => { x with mirror := rest }
            mirrorOut k (countSent s n p.val st stamp 2) (b ++ [(n, 2, rec_, data)]) n

/-- Mirror frames of commands that have ended are gone. -/
def dropMirror (s : State) : State :=
  (List.range 64).foldl (fun s n =>
    if (remP s n).mirror.isEmpty then s
    else updRem s n fun x =>
      { x with mirror := x.mirror.filter fun (p, st, stamp, _) =>
          ((getCmd s p.val st stamp).bind liveJob).isSome }) s

def ratio (s : State) : Nat := field (eff s pgMIR 0x11C) 0 6
def aloneTicks (s : State) : Nat := field (eff s pgMIR 0x11C) 8 24

/-- A live counter of a remote port (Table 14-4). -/
def bumpRem (s : State) (n off k : Nat) : State := bump s (n % 16) (pgRPB (n / 16)) off k

/-- The header frame of a group (Table 14-1). -/
def headerBytes14 (s : State) (n : Nat) (recs : List (List Byte)) : List Byte :=
  let x := remP s n
  let top := leBytes 1 recs.length ++ zeroBytes 3 ++ leBytes 4 x.gseq ++ x.sent.flatMap (leBytes 4) ++
    x.freed.flatMap (leBytes 4) ++ leBytes 2 (field (eff s pgRPG 0x100) 0 16) ++ zeroBytes 18
  let rest := fitBytes (4096 - 64) recs.flatten
  top ++ leBytes 4 (crc32c (top ++ rest)) ++ rest

/-- A port sends a group: its header, then its data frames, each with the beats that carry `SOF` (R350). -/
def sendGroup (s : State) (n : Nat) (b : List (List Byte × List Byte)) : State :=
  let h := headerBytes14 s n (b.map (·.1))
  let port : RemPort := Fin.ofNat 64 n
  let s := { s with remOut := s.remOut ++ (port, 3, h) :: b.map fun e => (port, 1, e.2) }
  let s := updRem s n fun x => { x with gseq := (x.gseq + 1) % 2 ^ 32, reported := x.freed }
  bumpRem s n 0xF10 (1 + b.length)

/-- Freeing of a channel that no group has reported. -/
def unreported (s : State) (n : Nat) : List Nat :=
  ((remP s n).freed.zip (remP s n).reported).map fun (a, b) => diff32 a b

/-- One round: each job hands out what it can, and each port sends one group of what it was given (DESIGN CHOICE), with
mirror frames beside frames of channel 0 or 1, or alone (R375). -/
def sendRound (s : State) : State :=
  let (s, b) := (jobCmds s).foldl (fun acc (p, st, c) => handOut 2048 acc.1 acc.2 p st c.stamp) (dropMirror s, [])
  (List.range (capRP s)).foldl (fun s n =>
    if !(remP s n).up then s
    else
      let mine := b.filter fun e => e.1 == n
      let rides := mine.any fun e => decide (e.2.1 < 2)
      let k := if rides then ratio s else if mine.isEmpty && (remP s n).aloneOk then 63 else 0
      let (s, all) := mirrorOut k s mine n
      let s := if rides then updRem s n fun x => { x with alone := 0, aloneOk := false } else s
      if all.isEmpty then s else sendGroup s n (all.map fun e => (e.2.2.1, e.2.2.2))) s

/-- Everything that can be sent is sent; a port whose unreported freeing reaches 4 frames sends a group with `N` = 0
(R354). -/
def sendAll (s : State) : State :=
  let s := sendRound (sendRound s)
  (List.range (capRP s)).foldl (fun s n =>
    if (remP s n).up && (unreported s n).any fun k => decide (4 ≤ k) then sendGroup s n [] else s) s

/-! ## Receiving (R352, R354 to R356, R376) -/

/-- Frames of a channel that a port holds. -/
def heldFrames (s : State) (n vc : Nat) : Nat := ((remP s n).landing.filter fun f => f.vc == vc).length

/-- The frame at the head of a channel leaves the landing buffer (R355). -/
def freeHead (s : State) (n vc : Nat) : State :=
  updRem s n fun x =>
    { x with
      landing := x.landing.eraseP fun f => f.vc == vc
      freed := x.freed.set vc ((x.freed.getD vc 0 + 1) % 2 ^ 32) }

/-- A group is over: what it sent and is not held is freed (R354). -/
def groupOver (s : State) (n : Nat) : State :=
  updRem s n fun x =>
    { x with freed := (List.range 4).map fun v => diff32 (x.groupSent.getD v 0) (heldFrames s n v) }

def mirField (s : State) (view : List Nat) (k : Nat) : Nat := seen s view pgMIR (0x100 + 4 * k)

/-- The cocoon's base address, and that of its index. -/
def cocoonVa (s : State) (view : List Nat) : Nat := mirField s view 3 * 2 ^ 15 + field (mirField s view 4) 0 8 * 2 ^ 47
def indexVa (s : State) (view : List Nat) : Nat := mirField s view 6 * 2 ^ 15 + field (mirField s view 4) 0 8 * 2 ^ 47

/-- The loaded partition that owns a remote port. -/
def remOwner (s : State) (n : Nat) : Option Nat := allParts.find? fun p => partLoad s p && bitOf (partRP s p) n

/-- A write of the keeper (R376). -/
def keepWrite (s : State) (p va : Nat) (bs : List Byte) : Ran Unit :=
  ranM s { who := Who.block 5, part := p, root := none, owner := .block } (wrPlain va bs)

/-- The index entry of a segment that is whole. -/
def keepIndex (s : State) (p : Nat) (f : Frame) (got : Nat) : State :=
  (keepWrite s p (indexVa s [] + 16 * f.xid) (leBytes 4 f.step ++ leBytes 4 got ++ leBytes 8 s.cad.phase.toNat)).fold
    (fun _ r => r.s) (fun _ _ s => s) (fun s => s)

/-- The keeper's tracker counts a frame that is written; a segment that is whole leaves it. -/
def keepCount (s : State) (p : Nat) (f : Frame) : State :=
  let g := (s.segments.find? fun g => g.xid == f.xid).getD { xid := f.xid, gen := f.step, got := 0, total := none }
  let g := { g with got := g.got + 1, total := if f.last then some (f.fseq + 1) else g.total }
  let rest := s.segments.filter fun e => e.xid != f.xid
  if g.total.any fun t => decide (t ≤ g.got) then
    bump (keepIndex { s with segments := rest } p f g.got) 0 pgMIR 0xF08 1
  else { s with segments := rest ++ [g] }

/-- The keeper writes a frame of channel 2, and the index record of a segment that it completes (R376); the flag says that it
took the frame, `none` that it waits for rows. -/
def keepFrame (s : State) (n : Nat) (f : Frame) : State × Option Bool :=
  match remOwner s n with
  | none => (s, some false)
  | some p =>
    let tracked := s.segments.find? fun g => g.xid == f.xid
    if f.blkid != field (mirField s [] 0) 0 16 || mirField s [] 5 * Config.granule < f.offset + f.len ||
        tracked.isNone && decide (Config.mirrorSegments ≤ s.segments.length) then (s, some false)
    else
      (keepWrite s p (cocoonVa s [] + f.offset) (f.data.take f.len)).fold
        (fun _ r => (keepCount r.s p f, some true)) (fun _ _ s => (s, some false)) (fun s => (s, none))

/-- What a command does with a frame of its receive. -/
def landFrame (c : Cmd) (f : Frame) : M Unit := do
  let bs := f.data.take f.len
  if c.op = opRING then
    if c.get .mode = 0 then wr (outField c .buf0) (ringBuf c true + f.offset) bs
    else
      let len := max 1 (c.get .ringLen)
      let x := (c.get .ringPos + 2 * len - c.get .step - 1) % len
      wr (outField c .buf0) (c.get .buf0 + x * c.get .bufBytes + f.offset) bs
      if c.get .keepVa != 0 && f.origin == c.get .keepPos then
        modify fun r => { r with ctx := { r.ctx with who := { r.ctx.who with cls := 5 } } }
        wr (outField c .keepVa) (c.get .keepVa + f.offset) bs
  else if c.op = opRED then redChunk c f.fseq (some (f.data, f.scale))
  else if c.get .stageG * Config.granule < f.offset + f.len then
    faultM stOVERFLOW 4 4 fun r => { r with addr := c.get .stage, akind := 1, arg0 := c.get .stageG }
  else wrPlain (c.get .stage + f.offset) bs

/-- The command whose open receive takes the frames of a channel of a port. That of a `ring.step` that has all its frames
takes no more: those of the next step wait until it starts (R367). -/
def receiver (s : State) (n vc : Nat) : Option (Nat × Strm × Cmd × RemJob) :=
  (jobCmds s).findSome? fun (p, st, c) =>
    match liveJob c with
    | some j => if j.rxOpen && j.vc == vc && bitOf j.rxPorts n && !(c.op == opRING && rxDone j) then some (p, st, c, j) else none
    | none => none

/-- The engine of a command puts a frame that it receives where it goes (R356). -/
def landRun (s : State) (p : Nat) (st : Strm) (c : Cmd) (f : Frame) : State × Option Unit := jobStep s p st c 4 (landFrame c f)

/-- A frame of a receive is handled; the flag is false where it waits for host memory or rows. -/
def takeFor (s : State) (n vc : Nat) (f : Frame) (p : Nat) (st : Strm) (c : Cmd) : State × Bool :=
  match landRun s p st c f with
  | (s, some _) =>
    let s := updJob s p st c.stamp fun j =>
      { j with
        rxGot := j.rxGot + 1
        rxPeer := some (j.rxPeer.getD f.blkid)
        rxTotal := if f.last then some (f.fseq + 1) else j.rxTotal
        txReady := if j.txGated then f.fseq :: j.txReady else j.txReady }
    (freeHead (bumpRem s n 0xF14 1) n vc, true)
  | (s, none) => if ((getCmd s p st c.stamp).bind liveJob).isSome then (s, false) else (freeHead s n vc, true)

/-- The keeper takes a mirror frame or drops it (R376). -/
def keepHead (s : State) (n vc : Nat) (f : Frame) : State × Bool :=
  match keepFrame s n f with
  | (s, none) => (s, false)
  | (s, some true) => (freeHead (bumpRem s n 0xF14 1) n vc, true)
  | (s, some false) => (freeHead (bump s 0 pgMIR 0xF04 1) n vc, true)

/-- Handle the frame at the head of a channel (R356); the flag is false where there is none or it waits. -/
def takeHead (s : State) (n vc : Nat) : State × Bool :=
  match (remP s n).landing.find? fun f => f.vc == vc with
  | none => (s, false)
  | some f =>
    if vc = 2 then
      if !(bitOf (mirField s [] 1 + mirField s [] 2 * 2 ^ 32) n) then (s, false) else keepHead s n vc f
    else
      match receiver s n vc with
      | none => (s, false)
      | some (p, st, c, j) =>
        let other := j.rxPeer.any fun b => b != f.blkid
        if f.xid != j.xid || other then (freeHead (bumpRem s n 0xF20 1) n vc, true) else takeFor s n vc f p st c

/-- The frames of a channel of a port, head by head. -/
def takeHeads : Nat → State → Nat → Nat → State
  | 0, s, _, _ => s
  | fuel + 1, s, n, vc =>
    match takeHead s n vc with
    | (s, false) => s
    | (s, true) => takeHeads fuel s n vc

def takeAll (s : State) : State :=
  (List.range 64).foldl (fun s n =>
    if (remP s n).landing.isEmpty then s
    else (List.range 4).foldl (fun s vc => takeHeads ((remP s n).landing.length + 1) s n vc) s) s

/-! ## Commands that run on the ports -/

/-- The chunks of a `red.recv` that receives nothing, in order. -/
def redLocal : Nat → State → Nat → Strm → Word → State
  | 0, s, _, _, _ => s
  | fuel + 1, s, p, st, stamp =>
    match getCmd s p st stamp with
    | none => s
    | some c =>
      match liveJob c with
      | none => s
      | some j =>
        if c.op != opRED || j.rxOpen || redChunks c ≤ j.rxGot then s
        else
          match jobStep s p st c 4 (redChunk c j.rxGot none) with
          | (s, none) => s
          | (s, some _) =>
            let s := updJob s p st stamp fun j =>
              { j with
                rxGot := j.rxGot + 1
                txReady := if j.txGated then j.rxGot :: j.txReady else j.txReady }
            redLocal fuel s p st stamp

/-- A job that is done: the command ends, or goes on with its compute or its edit. -/
def finishRemote (s : State) (p : Nat) (st : Strm) (stamp : Word) : State :=
  match getCmd s p st stamp with
  | none => s
  | some c =>
    match liveJob c with
    | none => s
    | some j =>
      let local_ := c.op == opRED && !j.rxOpen && decide (j.rxGot < redChunks c)
      let rest (s : State) : State := updJob s p st stamp fun j => { j with settled := true }
      if j.settled || !(txDone s j) || mirrorWaits s p st stamp || j.rxOpen && !(rxDone j) || local_ then s
      else if c.op = opRING && c.get .mode = 0 then rest s
      else if cmdWaits s p st stamp then s
      else if c.op = opMOLT && c.get .mode = 1 then
        let s := rest s
        if editFree s p st c then startEdit s p st { c with remote := none } false else s
      else endCmd s p st stamp stOK 0

/-- What the remote ports and their commands can do by themselves. -/
def remSettle (s : State) : State :=
  let each (s : State) (f : State → Nat → Strm → Word → State) : State :=
    (jobCmds s).foldl (fun s (p, st, c) => f s p st c.stamp) s
  let s := each s fun s p st stamp =>
    redLocal (((getCmd s p st stamp).map redChunks).getD 0 + 1) s p st stamp
  let s := sendAll (takeAll s)
  let busy := allParts.filter fun p => (jobCmds s).any fun e => e.1 == p
  let s := each s finishRemote
  busy.foldl (fun s p => launchDue (settle s p) p) s

/-! ### Issue and start -/

/-- Counts of an estimate: the store rows that the fields and descriptors of a command name (Table 12-6). -/
def remoteWork (s : State) (p : Nat) (st : Strm) (c : Cmd) : Work :=
  let x := cmdCtx s p st c 0xFF 4
  let at_ (va bytes : Nat) : Nat := if va != 0 && inStore s x va then rowsFor bytes else 0
  let mode := c.get .mode
  let (r, w) :=
    if c.op = opRING && mode = 0 then
      -- the block that is held, the one that comes in, the running states, the rows that finish (R364)
      let img := (ringImage c).2.2.2.2
      let rows := c.get .hkv * c.get .lq * c.get .qpk
      (opdRows s x (c.desc 0) c.nums.srcS + at_ (ringBuf c false) img +
          (if c.get .step = 0 then 0 else at_ (c.get .partBuf) (528 * rows)),
        if ringMoves c then at_ (ringBuf c true) img + at_ (c.get .partBuf) (528 * rows)
        else opdRows s x (c.desc 1) c.nums.fmtO + at_ (c.get .statOut) (8 * rows))
    else if c.op = opRING then
      let b := c.get .bufBytes
      (at_ (c.get .buf0) b, at_ (c.get .buf0) b + at_ (c.get .keepVa) b)
    else if c.op = opRED then
      let f := if bitOf mode 1 then at_ (c.get .fwd) (4097 * redChunks c) else 0
      ((if bitOf mode 2 then opdRows s x (c.desc 0) c.nums.srcS else 0) + f,
        (if bitOf mode 3 then opdRows s x (c.desc 1) c.nums.fmtO else 0) + f)
    else if c.op = opMIRROR then (opdRows s x (c.desc 0) c.nums.srcS, 0)
    else if mode = 1 then
      let n := at_ (c.get .stage) (c.get .stageG * Config.granule)
      (n, n)
    else (at_ (c.get .entTab) (8 * c.get .nent), 0)
  { b := 0, u := 0, r := r, w := w }

/-- The job of a command other than `ring.step` in `ATTN` mode. -/
def remoteJob (c : Cmd) : M RemJob := do
  let j := { noJob with xid := c.get .xid, txPorts := c.get .txPorts, rxPorts := c.get .rxPorts }
  if c.op = opRING then return ringJob c
  else if c.op = opRED then
    let send := bitOf (c.get .mode) 1
    return { j with
      vc := 1
      txCount := if send then redChunks c else 0
      txGated := send
      rxOpen := bitOf (c.get .mode) 0 }
  else if c.op = opMIRROR then
    let (plan, skipped) ← mirrorPlan c
    modS fun s => bump s 0 pgMIR 0xF00 skipped
    return { j with vc := 2, txCount := plan.length, txPlan := plan }
  else if c.get .mode = 1 then return { j with vc := 3, rxOpen := true }
  else
    let ns ← moltSizes c
    return { j with vc := 3, txCount := 8 * ns.foldl (· + ·) 0 }

/-- Whether a command's receive is already open for another (R356). -/
def remoteWaits (s : State) (c : Cmd) : Bool :=
  if c.op = opRING then ringWaits s c
  else if c.op = opRED then bitOf (c.get .mode) 0 && rxClash s 1 (c.get .rxPorts)
  else if c.op = opMOLT then c.get .mode == 1 && rxClash s 3 (c.get .rxPorts)
  else false

/-- Start an issued command of the ports: its receive opens and its send begins. -/
def startRemote (s : State) (p : Nat) (st : Strm) (c : Cmd) : State :=
  if !(eligible s p st) || !(budgetFits s c.energy) || remoteWaits s c then s
  else
    match jobStep s p st c (if c.op = opMIRROR then 5 else 4) (remoteJob c) with
    | (s, none) => s
    | (s, some j) =>
      let s := charge s c.energy
      updCmd s p st c.stamp fun c => { c with stage := .started, begun := true, ticks := 0, remote := some j }

/-- The refusals of a command of the ports. -/
def remoteRefs (p : Nat) (c : Cmd) : M (List Ref) := do
  let s ← getS
  if c.op = opRING then return ringRefs s p c ++ (if c.get .mode = 0 then chanRefs s p c else [])
  else if c.op = opRED then return redRefs s p c
  else if c.op = opMIRROR then return mirrorRefs s p c
  else if c.get .mode = 1 then editRefs p c
  else moltSendRefs p c

/-- What the issue of a command of the ports reads and checks. -/
def remotePlan (p : Nat) (c : Cmd) : M (Cmd × List Ref) := do
  let us := unitRefs (← getS) p c
  if !(us.isEmpty) then return (c, us)
  let c ← readTables c
  return (c, ← remoteRefs p c)

/-- A command of the ports that no check refuses is issued: an `ATTN` step has its units, a `red.recv` of no elements
completes (R84). -/
def remoteIssued (s : State) (p : Nat) (st : Strm) (c : Cmd) : State :=
  let attn := c.op == opRING && c.get .mode == 0
  let (lo, hi) := if attn then unitRange c (ringUnits c) else (0, 0)
  let c := { c.issued s p with energy := estimate s (remoteWork s p st c), units := hi, handed := lo }
  let s := updCmd s p st c.stamp fun _ => c
  if attn && decide (hi ≤ lo) || c.op == opRED && c.get .elems == 0 then endCmd s p st c.stamp stOK 0 else s

/-- Issue a command of the ports: pin, tables, checks. -/
def issueRemote (s : State) (p : Nat) (st : Strm) (c : Cmd) : State :=
  let reads := poolReads s p c
  if c.paramErr != 0 then paramFail s p st c
  else if reads && editBefore (strm s p st) c then s
  else
    match (if reads then takeCmdPin s p st c else some (s, c)) with
    | none => s
    | some (s, c) =>
      match ranM s (cmdCtx s p st c 0xFF 0) (remotePlan p c) with
      | .host s => s
      | .bad e d s => endCmd s p st c.stamp e d
      | .ok (c, rs) r =>
        match firstRef rs with
        | some f => refuseCmd r.s p st c.stamp f
        | none => remoteIssued r.s p st c

/-- A command of the ports by opcode and mode: the first that is issued starts; else the head issues and starts. -/
def remoteOp (s : State) (p : Nat) (st : Strm) (op : Nat) (mine : Cmd → Bool) : State :=
  let ready (s : State) : Option Cmd := (strm s p st).cmds.find? fun c =>
    c.op == op && mine c && c.stage == .issued && !(c.isChan)
  let s := match ready s with
    | some c => startRemote s p st c
    | none =>
      let s := match headCmd s p st with
        | some c => if c.op = op && mine c then issueRemote s p st c else s
        | none => s
      match ready s with
      | some c => startRemote s p st c
      | none => s
  launchDue (settle (remSettle s) p) p

/-- MOLT_RECV (R380): a receive that is complete and waits for its edit tries it; else as above. -/
def moltRecv (s : State) (p : Nat) (st : Strm) : State :=
  let held := (strm s p st).cmds.find? fun c => c.op == opMOLT && c.get .mode == 1 && c.stage == .started && c.jobOver
  match held with
  | some c => if editFree s p st c then launchDue (settle (startEdit s p st c false) p) p else s
  | none => remoteOp s p st opMOLT fun c => c.get .mode == 1

/-! ## Events of the ports -/

/-- Whether a port takes frames: it is present and its link is up (R341). -/
def portTakes (s : State) (n : Nat) : Bool := remPresent s n && (remP s n).up

/-- A frame that is discarded whole: a beat with `RX_ERR` high, or with `SOF` after beat 1 (R341, R350). -/
def frameBad (sof : BitVec 64) (err : Bool) : Bool := err || sof.toNat / 4 != 0

/-- HEADER_FRAME_RECEIVE (R350 to R354). -/
def headerReceive (s : State) (n : Nat) (frame : List Byte) (sof : BitVec 64) (err : Bool) : State :=
  if !(portTakes s n) then s
  else
    let b := fitBytes 4096 frame
    let k := leAt b 0 1
    let zero (lo hi : Nat) : Bool := allZero ((b.drop lo).take (hi - lo))
    let ok := !(frameBad sof err) && leAt b 60 4 == crc32c (b.take 60 ++ b.drop 64) && zero 1 4 && zero 42 60 && decide (k ≤ 63) &&
      zero (64 * (k + 1)) 4096
    if !ok then bumpRem (updRem s n fun x => { x with group := [] }) n 0xF1C 1
    else
      let four (o : Nat) : List Nat := (List.range 4).map fun v => leAt b (o + 4 * v) 4
      let s := updRem s n fun x =>
        { x with
          peerFreed := four 24
          groupSent := four 8
          blkid := leAt b 40 2
          group := (List.range k).map fun i => (b.drop (64 * (i + 1))).take 64 }
      remSettle (if k = 0 then groupOver s n else s)

/-- The frame that a record describes. -/
def frameOf (rec_ data : List Byte) (blkid : Nat) : Frame :=
  { vc := leAt rec_ 0 1, last := bitOf (leAt rec_ 1 1) 0, xid := leAt rec_ 2 2, fseq := leAt rec_ 4 4
    offset := leAt rec_ 8 8, len := leAt rec_ 16 2, scale := leAt rec_ 18 1, origin := leAt rec_ 19 1
    step := leAt rec_ 20 4, blkid := blkid, data := data }

/-- DATA_FRAME_RECEIVE (R350 to R356, R376). -/
def dataReceive (s : State) (n : Nat) (frame : List Byte) (sof : BitVec 64) (err : Bool) : State :=
  if !(portTakes s n) then s
  else
    match (remP s n).group with
    | [] => bumpRem s n 0xF18 1
    | rec_ :: rest =>
      let data := fitBytes 4096 frame
      let f := frameOf rec_ data (remP s n).blkid
      let ok := !(frameBad sof err) && leAt rec_ 60 4 == crc32c data && allZero ((rec_.drop 24).take 36) && decide (f.vc ≤ 3) &&
        decide (leAt rec_ 1 1 < 2) && decide (f.offset < 2 ^ 40) && decide (1 ≤ f.len) && decide (f.len ≤ 4096)
      let s := updRem s n fun x => { x with group := rest, landing := if ok then x.landing ++ [f] else x.landing }
      let s := if ok then s else bumpRem s n 0xF18 1
      remSettle (if rest.isEmpty then groupOver s n else s)

/-- FREED_REPORT_TIMER (R354). -/
def freedReport (s : State) (n : Nat) : State :=
  if portTakes s n && (unreported s n).any (· != 0) then sendGroup s n [] else s

/-- LINK_UP (R357). -/
def linkUp (s : State) (n : Nat) : State :=
  if !(remPresent s n) || (remP s n).up then s
  else
    let z := [0, 0, 0, 0]
    let s := updRem s n fun x =>
      { x with up := true, gseq := 0, sent := z, freed := z, peerFreed := z, reported := z, group := [], groupSent := z }
    remSettle (sendGroup s n [])

/-- A link falls under a job: frames not covered are lost, frames that wait go to other ports (R357, R358). -/
def jobLinkDown (s : State) (n : Nat) (p : Nat) (st : Strm) (stamp : Word) : State :=
  let back := (remP s n).mirror.filterMap fun (q, t, k, f) =>
    if q.val = p && t = st && k = stamp then some f else none
  updJob s p st stamp fun j =>
    { j with
      txLost := j.txLost || j.txMarks.any fun e => e.1 == n && !(covers ((remP s n).peerFreed.getD j.vc 0) e.2)
      txMarks := j.txMarks.filter fun e => e.1 != n
      txBack := sortBy (fun a b => decide (a < b)) (j.txBack ++ back) }

/-- LINK_DOWN (R341, R357). -/
def linkDown (s : State) (n : Nat) : State :=
  if !(portTakes s n) then s
  else
    let s := addFault s { faultOf (Who.block 4) 9 3 with port := n }
    let s := (jobCmds s).foldl (fun s (p, st, c) => jobLinkDown s n p st c.stamp) s
    remSettle (updRem s n fun x => { x with up := false, group := [], mirror := [], alone := 0, aloneOk := false })

/-- REMOTE_TIMEOUT (R359): a command whose receive or send is not done in `TMO` ticks faults. -/
def remoteTimeout (s : State) (p : Nat) (st : Strm) (stamp : Word) : State :=
  match getCmd s p st stamp with
  | none => s
  | some c =>
    match liveJob c with
    | none => s
    | some j =>
      if c.get .tmo = 0 || c.ticks < c.get .tmo then s
      else
        let rx := j.rxOpen && !(rxDone j)
        if !rx && txDone s j && !(mirrorWaits s p st stamp) then s
        else
          let mask := if rx then j.rxPorts else j.txPorts
          let s := addFault s { faultOf (Who.cmd p st stamp 4) 9 (if rx then 1 else 2) with
            arg0 := mask % 2 ^ 32, arg1 := mask / 2 ^ 32 }
          remSettle (launchDue (settle (endCmd s p st stamp stABORTED (lastFault s)) p) p)

/-- MIRROR_ALONE_EXPIRY (R375): mirror frames that have waited `ALONE` ticks may go alone. -/
def mirrorAlone (s : State) (n : Nat) : State :=
  let x := remP s n
  if aloneTicks s = 0 || x.alone < aloneTicks s || x.mirror.isEmpty then s
  else remSettle (updRem s n fun x => { x with aloneOk := true })

/-- The ticks that remote commands and waiting mirror frames count (R359, R375). -/
def remoteTick (s : State) : State :=
  let s := (jobCmds s).foldl (fun s (p, st, c) => updCmd s p st c.stamp fun c => { c with ticks := c.ticks + 1 }) s
  (List.range 64).foldl (fun s n =>
    if (remP s n).mirror.isEmpty then s else updRem s n fun x => { x with alone := x.alone + 1 }) s

end Sys2Proof.Machine
end

