-- ==== Sys2Proof/Machine/Power.lean ====
section
/-! DEFINITION. Cadence, wingbeat table and governor (R299 to R319, R344 to R347): ticks, slots and allowances, the choice
of the operating point, the budget, temperatures, power states of channels and the retention of slices. -/

namespace Sys2Proof.Machine

open Sys2Proof

/-! ## The operating point (R317 to R319, R345) -/

/-- Core clock of frequency point `f`, in MHz (R310). -/
def fMHz (f : Nat) : Nat := [900, 1500, 2250].getD f 900

/-- The voltage step that a channel needs at frequency point `f`; `none` where the point is unusable for it (R426). -/
def chanStep (s : State) (f ch : Nat) : Option Nat :=
  let cal := field ((s.fuse.vf.getD ch 0).toNat) (3 * f) 3
  let sum := cal + field (eff s pgCALU (0x120 + 4 * ch)) (2 * f) 2
  if cal = 7 || 3 < sum then none else some sum

/-- v_f of R318 over the live channels, `none` where point `f` is unusable. -/
def pointStep (s : State) (f : Nat) : Option Nat :=
  let live := (List.range 8).filter (chBit s)
  match live.mapM (chanStep s f) with
  | none => none
  | some vs =>
    let v := vs.foldl max 0 + field (eff s pgPWR 0x100) 3 2
    if 3 < v then none else some v

/-- Whether `FMAX` and the floors let the governor pick point `f`. -/
def pointAllowed (s : State) (f : Nat) : Bool :=
  let floor := if f = 0 then 0 else field (eff s pgPWR 0x104) (16 * (f - 1)) 16
  decide (f ≤ field (eff s pgPWR 0x100) 1 2) &&
    (!(bitOf (eff s pgPWR 0x100) 0) || decide (floor ≤ s.gov.taken))

/-- The next request of a change to the target, one at a time: a rise asks for the voltage first, a fall for the
frequency first (R319). -/
def govStep (s : State) : State :=
  let g := s.gov
  if g.opened || g.point = g.target then s
  else
    let (pF, pV) := (g.point / 4, g.point % 4)
    let (tF, tV) := (g.target / 4, g.target % 4)
    let code :=
      if pF < tF then (if pV = tV then g.target else 4 * pF + tV)
      else if tF < pF then 4 * tF + pV
      else g.target
    { s with gov := { g with req := code, opened := true } }

/-- The choice of R318, once a commit of `PWR` lets it act (R421). -/
def govChoose (s : State) : State :=
  -- the code that is driven is held: a change that is under way goes no further
  let hold (s : State) : State := { s with gov := { s.gov with target := s.gov.req } }
  if !(s.gov.committed) then s
  else if (List.range 8).all (fun n => !(chBit s n)) then hold s
  else
    let best := [2, 1, 0].findSome? fun f =>
      if pointAllowed s f then (pointStep s f).map fun v => 4 * f + v else none
    match best with
    | some code => govStep { s with gov := { s.gov with target := code, noPoint := false } }
    | none =>
      if s.gov.noPoint then hold s
      else
        let s := addFault s { faultOf (Who.block 0) 10 2 with arg0 := s.gov.req }
        let s := bump s 0 pgPWR 0xF0C 1
        hold { s with gov := { s.gov with noPoint := true } }

/-- PWR_ACK (R345): closes the open request; the next one of the change goes out. -/
def pwrAck (s : State) : State :=
  if s.gov.opened then govStep { s with gov := { s.gov with point := s.gov.req, opened := false } } else s

/-! ## The budget (R310, R346) -/

/-- BUDGET_IN_CHANGE: the value is taken. -/
def budgetTake (s : State) (v : Nat) : State := { s with gov := { s.gov with taken := v } }

/-- The frequency that converts times: the lower of the two while a change is in progress (R319). -/
def govFreq (s : State) : Nat :=
  if s.gov.opened then min (fMHz (s.gov.point / 4)) (fMHz (s.gov.req / 4)) else fMHz (s.gov.point / 4)

/-- What the level gains every 1,024 cycles. -/
def budgetGain (s : State) : Int :=
  max 0 (((250 * s.gov.budgetIn : Nat) - (eff s pgPWR 0x108 : Nat) : Int) * 1024 / (govFreq s : Int))

/-- BUDGET_REFILL: the value taken passes to the core, and the level gains. -/
def budgetRefill (s : State) : State :=
  let s := { s with gov := { s.gov with budgetIn := s.gov.taken } }
  if bitOf (eff s pgPWR 0x100) 0 then
    { s with gov := { s.gov with level := min (eff s pgPWR 0x10C : Int) (s.gov.level + budgetGain s) } }
  else s

/-! ## Temperature (R311, R426) -/

/-- The temperature of a channel from its sensor's code. -/
def tempOf (s : State) (ch code : Nat) : Nat :=
  let th := (s.fuse.th.getD ch 0).toNat
  let u := eff s pgCALU (0x100 + 4 * ch)
  let t := (code : Int) * ((field th 12 20 : Nat) + signed 12 (field u 16 12)) / 65536 + signed 12 (field th 0 12) +
    signed 12 (field u 0 12)
  (max 0 (min 4095 t)).toNat

/-- TEMPERATURE_READING: the work limit with its hysteresis, and the trip. -/
def temperature (s : State) (ch code : Nat) : State :=
  if capCH s ≤ ch then s
  else
    let t := tempOf s ch code
    let lim := eff s pgPWR 0x110
    let x := chan s ch
    let hot := decide (field lim 0 12 ≤ t) || x.hot && !(decide (t + 16 * field lim 12 4 < field lim 0 12))
    let trip := decide (field lim 16 12 ≤ t)
    let s := updChan s ch fun x => { x with temp := t, hot := hot, tripped := trip }
    if trip && !(x.tripped) then
      bump (addFault s { faultOf { Who.block 0 with ch := ch } 10 1 with arg0 := t }) ch pgPWR 0xF3C 1
    else s

/-! ## The wingbeat table (R301 to R303) -/

def tabWord (t : WbTable) (i k : Nat) : Nat := (wordsGet t.entries (4 * i + k) 0).toNat
def tabCount (t : WbTable) : Nat := field t.count.toNat 0 10

/-- The slot that is active at a phase, `none` in a gap. -/
def slotAt (t : WbTable) (phase : Nat) : Option Nat :=
  let p := t.period.toNat
  if p = 0 then none
  else
    let psi := phase % p
    (List.range (tabCount t)).find? fun i =>
      decide (tabWord t i 0 ≤ psi) && decide (psi < tabWord t i 0 + tabWord t i 1)

/-- The deepest power state that a slot or a gap allows (Table 12-3). -/
def regionMin (t : WbTable) : Option Nat → Nat
  | some i => field (tabWord t i 3) 28 2
  | none => field t.count.toNat 10 2

/-- The positions at which slots and gaps begin. -/
def regions (t : WbTable) : List (Nat × Option Nat) :=
  let used := (List.range (tabCount t)).filter fun i => tabWord t i 1 != 0
  used.map (fun i => (tabWord t i 0, some i)) ++
    (used.map fun i => (tabWord t i 0 + tabWord t i 1) % max 1 t.period.toNat).filterMap fun b =>
      if (slotAt t b).isNone then some (b, none) else none

/-- The first phase after `a` at which a slot or gap that `sel` picks begins. -/
def nextStart (t : WbTable) (a : Nat) (sel : WbTable → Option Nat → Bool) : Option Nat :=
  let p := t.period.toNat
  if p = 0 then none
  else
    ((regions t).filter fun e => sel t e.2).foldl (fun acc e =>
      let d := (e.1 + p - a % p) % p
      let x := a + if d = 0 then p else d
      some (match acc with | none => x | some y => min x y)) none

/-- The phase of the next such start, from the table that will be in effect then (R314). -/
def nextRegion (s : State) (sel : WbTable → Option Nat → Bool) : Option Nat :=
  let t := s.wbt.table
  let phi := s.cad.phase.toNat
  match s.wbt.next with
  | none => nextStart t phi sel
  | some u =>
    let p := t.period.toNat
    let b := if tabCount t = 0 || p = 0 then phi + 1 else (phi / p + 1) * p
    match (nextStart t phi sel).filter fun x => decide (x < b) with
    | some x => some x
    | none => if sel u (slotAt u b) then some b else nextStart u b sel

/-! ## Power states (R312 to R316, R347) -/

def Power.depth : Power → Nat
  | .run => 0 | .gate => 1 | .hold => 2 | .doze => 3

def Power.ofDepth (n : Nat) : Power := if n = 0 then .run else if n = 1 then .gate else if n = 2 then .hold else .doze

/-- The further conditions of R312 for DOZE; a command outside every task is a task of its own (R284). -/
def mayDoze (s : State) (ch : Nat) : Bool :=
  bitOf (eff s pgPWR 0x120) ch && (slice s ch).mem.queue.isEmpty &&
    match chanOwner s ch with
    | none => true
    | some p => (pool s p).pins.isEmpty && allStrms.all fun st => (strm s p st).cmds.isEmpty

/-- The interval between two scrub steps of a slice, in core cycles (R189). -/
def scrubInterval (s : State) : Nat :=
  eff s pgSTORE 0x104 * 60 * (govFreq s * 1000000) / (32 * (Config.rowsPerBank + Config.sparesPerBank))

/-- Whether a slot is eligible for an armed stream of a partition. -/
def servesArmed (s : State) (p : Nat) (t : WbTable) (r : Option Nat) : Bool :=
  match r with
  | none => false
  | some i => allStrms.any fun st => armed s p st && bitOf (tabWord t i 2) (4 * p + st.num)

/-- Cycles to the next scrub step of a slice: the steps come at even intervals (R189). -/
def scrubLeft (s : State) (ch : Nat) : Nat := (slice s ch).mem.scrubAt + scrubInterval s - s.cycle

/-- Cycles to the next known event of a channel, for a candidate state (R314, R315): `none` where none is known. -/
def eventIn (s : State) (ch depth : Nat) : Option Nat :=
  let sel (t : WbTable) (r : Option Nat) : Bool :=
    decide (regionMin t r < depth) || match chanOwner s ch with
      | none => false
      | some p => servesArmed s p t r
  let c := s.cycle - s.cad.last
  let slot := (nextRegion s sel).map fun x => (x - s.cad.phase.toNat) * s.cad.cpt - c
  if sliceLive s ch then some (match slot with | none => scrubLeft s ch | some x => min x (scrubLeft s ch)) else slot

/-- Whether the governor may choose a state of depth `d` for a channel (R315). -/
def depthOk (s : State) (ch d : Nat) : Bool :=
  decide (d ≤ regionMin s.wbt.table (if s.wbt.gap then none else some s.wbt.slot)) &&
    (d != 3 || mayDoze s ch) &&
    (if s.cad.cpt = 0 || !(s.cad.valid) then decide (d ≤ 1)
     else match eventIn s ch d with
       | none => true
       | some t => decide (eff s pgPWR (0x110 + 4 * d) ≤ t))

/-- Whether a channel is idle and takes no unit (R312, R315). -/
def idleChan (s : State) (ch : Nat) : Bool :=
  let x := chan s ch
  x.unit.isNone && !(x.waking) && (x.service == .run || x.service == .out) &&
    match chanOwner s ch with
    | none => true
    | some p => !(chLive s ch) || (chosen s p ch).isNone

/-- What a channel loses in a power state (Table 12-7, R69): HOLD the cells and latches of its arrays, DOZE also staging,
accumulators and statistics. DESIGN CHOICE (log 76): the model shows what is lost as zeros; the next pass ripples its
tile before it reads a cell. -/
def powerLoss (x : Channel) (d : Nat) : Channel :=
  if d = 2 then
    { x with arrays := x.arrays.map fun y =>
        { y with active := CellTile.none, shadow := CellTile.none, prodP := [], prodQ := [] } }
  else if d = 3 then { x with arrays := x.arrays.map fun _ => ArrayMem.zero, half0 := [], half1 := [], stat := StatMem.zero }
  else x

/-- The generation before the current one (R164, R165). -/
def prevGen (s : State) : Nat := s.gens.foldl (fun a g => if g.gen < curGen s then max a g.gen else a) 0

/-- `FTAB.SWITCH_PEND`: a command that issued under the older generation is not complete (R165). -/
def switchPend (s : State) : Bool :=
  allParts.any fun p => allStrms.any fun st => (strm s p st).cmds.any fun c =>
    c.factor != 0 && c.gen != curGen s

/-- A channel writes both function banks with the generations then live (R169). An inactive bank that a commit is
writing keeps the generation being written (R454). -/
def writeBanks (s : State) (ch : Nat) : State :=
  let cur := curGen s
  let old := if switchPend s then prevGen s else cur
  updChan s ch fun x =>
    let other := if 2 ≤ x.bank then cur + 1 else old
    if x.bank % 2 = 0 then { x with gen0 := cur, gen1 := other } else { x with gen0 := other, gen1 := cur }

/-- A wake ends: a channel that comes out of DOZE has both function banks written, and no request waits for its slice. -/
def wakeEnd (s : State) (ch : Nat) : State :=
  let s := if (chan s ch).power == .doze then { writeBanks s ch with dozed := s.dozed.filter fun e => e.1 != ch } else s
  updChan s ch fun x => { x with power := .run, waking := false }

/-- A channel begins to wake: out of DOZE it waits for its slice (R347). -/
def wake (s : State) (ch : Nat) : State :=
  let x := chan s ch
  if x.power == .run || x.waking then s
  else if x.power == .doze then
    updChan (updSlice s ch fun t => { t with ret := false }) ch fun x =>
      { x with waking := true, wakeAt := s.cycle, wakeLate := false }
  else wakeEnd s ch

/-- A channel wakes at once when a unit of an eligible command would fit (R316). -/
def wakeForUnit (s : State) (ch : Nat) : State :=
  match chanOwner s ch with
  | none => s
  | some p => if chLive s ch && (chan s ch).unit.isNone && (chosen s p ch).isSome then wake s ch else s

/-! ### The decision (R315) -/

/-- The deepest state that the slot, R312 and the time to the next known event allow. -/
def chosenDepth (s : State) (ch : Nat) : Nat := (([3, 2, 1].find? fun d => depthOk s ch d).getD 0)

/-- A channel goes into a deeper state; its slice follows it into DOZE (R347). -/
def goDeeper (s : State) (ch d : Nat) : State :=
  let s := updChan s ch fun x => { powerLoss x d with power := Power.ofDepth d }
  if d = 3 then updSlice s ch fun x => { x with ret := true } else s

/-- POWER_STATE_ENTRY: an idle channel takes the state that the governor chooses. A shallower one than its own wakes it;
out of DOZE it takes a state again once it is awake. -/
def powerEntry (s : State) (ch : Nat) : State :=
  if capCH s ≤ ch || !(idleChan s ch) then s
  else
    let x := chan s ch
    let d := chosenDepth s ch
    if x.power.depth < d then goDeeper s ch d
    else if d < x.power.depth then
      if x.power == .doze then wake s ch else updChan s ch fun x => { x with power := Power.ofDepth d }
    else s

/-! ### Wakes in time (R315, R316, R347) -/

/-- Cycles of a wake from a state (Table 12-7). -/
def wakeTime (s : State) (d : Nat) : Nat :=
  if d = 0 then 0 else if d = 1 then 16 else if d = 2 then govFreq s * 3 / 2 else govFreq s * 30

/-- Whether the time to the next slot can be told (R315). -/
def timeKnown (s : State) : Bool := s.cad.cpt != 0 && s.cad.valid

/-- Cycles to the event that a sleeping channel wakes for, where it is known. -/
def wakeIn (s : State) (ch : Nat) : Option Nat :=
  if timeKnown s then eventIn s ch (chan s ch).power.depth
  else if sliceLive s ch then some (scrubLeft s ch) else none

/-- The governor began a wake late: it counts once (R316, R347). -/
def lateWake (s : State) (ch : Nat) : State :=
  if (chan s ch).wakeLate then s else updChan (bump s ch pgPWR 0xF38 1) ch fun x => { x with wakeLate := true }

/-- POWER_WAKE_START (R315): the governor starts the wake the wake time before the event; with less time left it began
late. A unit that fits wakes the channel as well (R316). -/
def powerWake (s : State) (ch : Nat) : State :=
  let x := chan s ch
  if capCH s ≤ ch || x.power == .run || x.waking then s
  else match wakeIn s ch with
    | some t =>
      if t ≤ wakeTime s x.power.depth then
        let u := wake s ch
        if t < wakeTime s x.power.depth then lateWake (updChan u ch fun x => { x with wakeLate := false }) ch else u
      else wakeForUnit s ch
    | none => wakeForUnit s ch

/-- DOZE_WAKE_REQUEST: a request for a row of a dozing slice (R313). -/
def dozeWake (s : State) (ch : Nat) : State := dozeHit s ch

/-- SRAM_RETENTION_ACK: the fall after the rise ends the wake; one whose handshake took longer than 20 µs is late
(R347). The bits of tiers that the grade lacks are not sampled (R324). -/
def retentionAck (s : State) (ch : Nat) (level : Bool) : State :=
  if capCH s ≤ ch then s
  else
    let fell := (slice s ch).retAck && !level
    let s := updSlice s ch fun x => { x with retAck := level }
    let x := chan s ch
    if fell && x.waking && !((slice s ch).ret) then
      wakeEnd (if x.wakeAt + 20 * govFreq s < s.cycle then lateWake s ch else s) ch
    else s

/-- The start of a slot or gap for which a channel should be awake finds it asleep, or in a wake that has not had its
time: the phase ran faster than `CAD.CPT` foretold (R316). `known` says that it foretold the time before the tick. -/
def lateAt (known : Bool) (s : State) (ch : Nat) : State :=
  let x := chan s ch
  let r := if s.wbt.gap then none else some s.wbt.slot
  let due := decide (regionMin s.wbt.table r < x.power.depth) || match chanOwner s ch with
    | none => false
    | some p => servesArmed s p s.wbt.table r
  if x.power == .run || !known || !due then s
  else if x.waking then (if s.cycle < x.wakeAt + wakeTime s 3 then lateWake s ch else s)
  else
    let u := wake s ch
    lateWake (updChan u ch fun x => { x with wakeLate := false }) ch

/-- Every channel's decision at a tick; `fresh` says that it begins a slot or a gap. -/
def powerTick (known : Bool) (s : State) (fresh : Bool) : State :=
  (List.range (capCH s)).foldl (fun s ch => powerEntry (if fresh then lateAt known s ch else s) ch) s

/-! ## Ticks (R299, R300, R344) -/

/-- A tick that does not step the phase by one. -/
def slip (s : State) : State :=
  let s := bump s 0 pgCAD 0xF14 1
  { s with cad := { s.cad with cpt := 0, steps := 0 } }

/-- The channels' allowances at the start of a slot (R309). -/
def resetAllow (s : State) : State :=
  (List.range 8).foldl (fun s ch =>
    updChan s ch fun x => { x with allow := ((slotAllow s * 16 : Nat) : Int), charged := false }) s

/-- Cycle 2 of a tick: the table switch, the active slot, the allowances of a new slot (Table 12-1). `old` is the phase
before the tick; the flag says that a slot or a gap begins. -/
def slotStage (s : State) (old : Nat) : State × Bool :=
  let t := s.wbt.table
  let now := s.cad.phase.toNat
  let p := t.period.toNat
  let moved := p != 0 && old / p != now / p
  let due := s.wbt.next.isSome && (tabCount t == 0 || moved)
  let s := match s.wbt.next with
    | some u =>
      if due then
        { s with wbt := { s.wbt with table := u, next := none, gen := (s.wbt.gen + 1) % 2 ^ 32 } }
      else s
    | none => s
  let s := if due || moved then bump s 0 pgWBT 0xF10 1 else s
  let r := slotAt s.wbt.table now
  let fresh := due || moved || r != (if s.wbt.gap then none else some s.wbt.slot)
  let s := { s with wbt := { s.wbt with slot := r.getD 0, gap := r.isNone } }
  (if fresh && r.isSome then resetAllow s else s, fresh)

/-- A `snap` whose quiesce point has not been seen: it is seen now, at `phase` (R404), or the tick counts (R405). -/
def snapTick (s : State) (p : Nat) (st : Strm) : State :=
  updStrm s p st fun x =>
    { x with cmds := x.cmds.map fun c =>
        if c.op ≠ opSNAP || c.stage ≠ .issued || c.quiesced.isSome then c
        else if quiet s p st c then { c with quiesced := some s.cad.phase }
        else { c with ticks := c.ticks + 1 } }

/-- The quiesce points that came since the last tick, at the phase that held then. -/
def quietMark (phase : DWord) (s : State) (p : Nat) : State :=
  allStrms.foldl (fun s st => updStrm s p st fun x =>
    { x with cmds := x.cmds.map fun c =>
        if c.op = opSNAP && c.stage = .issued && c.quiesced.isNone && quiet s p st c then { c with quiesced := some phase }
        else c }) s

/-- What waits for ticks in a partition: fences, images, edits and transfer slots. DESIGN CHOICE (log 42): the ticks of a
wait for table granules (R228) count in `POOL.RELIEF_WAIT` as those of a wait under R237 do. -/
def partTick (s : State) (p : Nat) : State :=
  let s := allStrms.foldl (fun s st => snapTick (fenceTick s p st) p st) s
  -- the answers of a park's writes are no wait of R237
  let s := if (pool s p).wait.isSome && (pool s p).parking.isNone then bump s p pgPOOL 0xF5C 1 else s
  let s := updPool s p fun x => { x with wait := x.wait.map fun w => { w with ticks := w.ticks + 1 } }
  updPart s p fun x => { x with slots := x.slots.map fun y => { y with sinceStart := y.sinceStart + 1 } }

/-- The cycles of a counted tick that follow the slot's: the governor, the channels, what waits for ticks (Table 12-1). -/
def tickRest (known : Bool) (t : State × Bool) : State :=
  let s := powerTick known (govChoose t.1) t.2
  let s := allParts.foldl partTick (remoteTick s)
  allParts.foldl (fun s p => if partLoad s p then launchDue (settle s p) p else s) s

/-- What a counted tick does (Table 12-1); `old` is the phase before it. -/
def countTick (s : State) (old : DWord) (known : Bool) : State :=
  let s := allParts.foldl (quietMark old) s
  tickRest known (slotStage (bump s 0 pgCAD 0xF10 1) old.toNat)

/-- CADENCE_TICK: a tick that is sampled with `CAD_VALID` high. -/
def cadenceTick (s : State) (phase : DWord) : State :=
  let c := s.cad
  let known := timeKnown s
  if !(c.valid) then s
  else if c.seen && decide (s.cycle < c.last + 4) then slip s
  else
    let one := !(c.first) && phase.toNat == c.phase.toNat + 1
    let s := { s with cad := { c with last := s.cycle, seen := true, first := false } }
    if !(c.first) && decide (phase.toNat ≤ c.phase.toNat) then
      -- the tick is not counted; a table of no slots gives way at any tick (R303)
      let t := slotStage (slip s) c.phase.toNat
      powerTick false (govChoose t.1) t.2
    else
      let s := if c.first || one then s else slip s
      let steps := if one then min (c.steps + 1) 2 else 0
      let cpt := if steps = 2 then min (s.cycle - c.last) 0xFFFFFFFF else 0
      let s := { s with cad := { s.cad with phase := phase, held := true, steps := steps, cpt := cpt } }
      countTick s c.phase known

/-- CAD_VALID_FALL (R344): the phase and the slot hold. -/
def cadFall (s : State) : State :=
  if s.cad.valid then bump { s with cad := { s.cad with valid := false } } 0 pgCAD 0xF18 1 else s

/-- CAD_VALID_RISE (R299, R300): the next tick is the first. -/
def cadRise (s : State) : State :=
  if s.cad.valid then s
  else { s with cad := { s.cad with valid := true, first := true, cpt := 0, steps := 0 } }

end Sys2Proof.Machine
end

