-- ==== Sys2Proof/Machine/ConfigRead.lean ====
section
/-! DEFINITION. What the words of the configuration space show (Tables 17-2 to 17-16 and 18-1 to 18-12), and the writes of
live words (R433, R434, R439, R440). Commits are not here. -/

namespace Sys2Proof.Machine

open Sys2Proof

/-! ## Index registers (R439) -/

/-- An index register. -/
def pidx (s : State) : Nat := live s 0 pgPOOL 0xF00 % 8
def slidx (s : State) : Nat := live s 0 pgSTORE 0xF00 % 8
def cidx (s : State) : Nat := live s 0 pgPWR 0xF10 % 8
def fabIdx (s : State) : Nat := live s 0 pgFAB 0xF00 % 32
def hslot (s : State) (ch : Nat) : Nat := live s 0 (pgMON ch) 0xF00 % 64
def aidx (s : State) (ch : Nat) : Nat := live s 0 (pgARY ch) 0xF0C % 4
def tidx (s : State) (ch : Nat) : Nat := live s 0 (pgARY ch) 0xF40 % 16
def midx (s : State) (k : Nat) : Nat := live s 0 (pgRPB k) 0xF00 % 16

def isChanPage (pg : Nat) : Bool := decide (0x40 ≤ pg) && decide (pg ≤ 0x5F)
/-- The channel of a channel page. -/
def pgChan (pg : Nat) : Nat := (pg - 0x40) / 4

/-- Whether an offset lies in `[a, b]`. -/
def offIn (off a b : Nat) : Bool := decide (a ≤ off) && decide (off ≤ b)

/-- The live words that a write loads (Tables 17-4, 18-13): the unit that an index register selects, and the bits that
are kept; `none` where the word is none of these. -/
def liveWord (s : State) (pg off : Nat) : Option (Nat × Nat) :=
  let all := 0xFFFFFFFF
  if off % 4 ≠ 0 then none
  else if pg = pgCAL then if off = 0xF00 then some (0, 0xFFF) else none
  else if pg = pgFLT then
    if off = 0xF04 || off = 0xF0C then some (0, all) else if off = 0xF08 then some (0, 0x3FF) else none
  else if pg = pgCAD then if offIn off 0xF10 0xF18 then some (0, all) else none
  else if pg = pgWBT then
    if off = 0xF00 then some (0, 0x1FF) else if off = 0xF10 then some (0, all) else none
  else if pg = pgPWR then
    if off = 0xF0C then some (0, all) else if off = 0xF10 then some (0, 7)
    else if offIn off 0xF28 0xF3C then some (cidx s, all) else none
  else if pg = pgSTRM then
    if off = 0xF04 then some (0, 7)
    else if offIn off 0xF20 0xF28 || offIn off 0xF30 0xF40 then some (sidx s, all) else none
  else if pg = pgSTORE then
    if off = 0xF00 then some (0, 7) else if off = 0xF24 then some (0, 0xFFFFF)
    else if offIn off 0xF08 0xF18 then some (slidx s, all) else none
  else if pg = pgXLAT then if offIn off 0xF00 0xF04 then some (0, all) else none
  else if pg = pgPOOL then
    if off = 0xF00 then some (0, 7) else if off = 0xF04 then some (0, 0x7FFFF)
    else if offIn off 0xF2C 0xF38 || offIn off 0xF40 0xF5C then some (pidx s, all) else none
  else if pg = pgMIR then if offIn off 0xF00 0xF08 then some (0, all) else none
  else if offIn pg 0x10 0x1F then if offIn off 0xF10 0xF24 then some (0, all) else none
  else if offIn pg 0x21 0x24 then
    if off = 0xF00 then some (0, 0xF)
    else if offIn off 0xF10 0xF20 then some (midx s (pg - 0x21), all) else none
  else if pg = pgFAB then
    if off = 0xF00 then some (0, 0x1F) else if offIn off 0xF10 0xF20 then some (fabIdx s, all) else none
  else if isChanPage pg then
    let ch := pgChan pg
    if pg % 4 = 0 then
      if off = 0xF0C then some (0, 3)
      else if off = 0xF40 then some (0, 0xF)
      else if offIn off 0xF10 0xF28 then
        if aidx s ch < capARY s then some (aidx s ch, all) else none
      else if offIn off 0xF30 0xF38 then some (0, all) else none
    else if pg % 4 = 1 then if offIn off 0xF10 0xF20 then some (0, all) else none
    else if pg % 4 = 2 then if off = 0xF0C then some (0, all) else none
    else
      if off = 0xF00 then some (0, 0x3F)
      else if off = 0xF14 || off = 0xF18 then some (hslot s ch, 0xFF)
      else if offIn off 0xF10 0xF30 then some (hslot s ch, all) else none
  else none

/-- Words that clear the bits written as 1: `STRM.BUSY` and `CHn.MON.FULL`. -/
def w1cWord (s : State) (pg off : Nat) : Option (Nat × Nat) :=
  if pg = pgSTRM && off = 0xF1C then some (sidx s, 3)
  else if isChanPage pg && pg % 4 = 3 && off = 0xF34 then some (hslot s (pgChan pg), 1)
  else none

/-! ## Read-only words -/

/-- Word `k` of a fault record (Table 15-1). -/
def faultWord (f : FaultRec) (k : Nat) : Nat :=
  let bs := leBytes 4 f.fseq ++ leBytes 1 f.cls ++ leBytes 1 f.cause ++ leBytes 1 f.part ++ leBytes 1 f.strm ++
    leBytes 4 f.stamp.toNat ++ leBytes 1 f.ch ++ leBytes 1 f.unit ++ leBytes 2 f.port ++ leBytes 8 f.addr ++
    leBytes 1 f.akind ++ zeroBytes 7 ++ leBytes 8 f.phase.toNat ++ leBytes 8 f.arg0 ++ leBytes 8 f.arg1 ++ zeroBytes 8
  leAt bs (4 * k) 4

/-- Word `k` of the record in a slot of the fault controller (R383). -/
def faultSlot (s : State) (slot k : Nat) : Nat :=
  match s.faults.find? fun f => f.fseq % 1024 == slot with
  | some f => faultWord f k
  | none => 0

/-- A column entry of `CAL` or `CHn.ARY` (Table 16-8): the column with its `V` bit, zero past the list. -/
def colEntry (cs : List Nat) (k : Nat) : Nat :=
  match cs[k]? with
  | some c => c % 512 + 2 ^ 15
  | none => 0

/-- Word `k` of eight column entries. -/
def colWord (cs : List Nat) (k : Nat) : Nat := colEntry cs (2 * k) + colEntry cs (2 * k + 1) * 2 ^ 16

/-- Word at byte `o` of a factory function table (Table 07-8); bytes 128 to 255 are zero (Table 17-6). -/
def factoryWord (f o : Nat) : Nat :=
  match factoryTables.find? fun e => e.1 == f with
  | none => 0
  | some (_, t) =>
    if o < 0x80 then
      let k := o / 8
      let n := toBits 24 (t.y.getD k 0) + toBits 24 (t.d.getD k 0) * 2 ^ 24
      if o % 8 = 0 then n % 2 ^ 32 else n / 2 ^ 32
    else 0

/-- The factory row steerings in bank order: by slice and bank of the entry's row (Table 15-4), as `CAL.FRIDX` counts them. -/
def factoryRows (s : State) : List (Word × Word) :=
  let key (e : Word × Word) : Nat := field e.1.toNat 0 3 * 32 + field e.1.toNat 3 5 + if bitOf e.2.toNat 31 then 256 else 0
  sortBy (fun a b => decide (key a < key b)) s.fuse.rows

def calWord (s : State) (off : Nat) : Nat :=
  if offIn off 0x100 0x11F then (s.fuse.th.getD ((off - 0x100) / 4) 0).toNat
  else if offIn off 0x120 0x13F then (s.fuse.vf.getD ((off - 0x120) / 4) 0).toNat % 512
  else if offIn off 0x140 0x93F then
    let i := (off - 0x140) / 16
    let cs := (s.fuse.columns.filter fun e => e.1 == i / 16 && e.2.array == i / 4 % 4 && e.2.lane == i % 4).flatMap
      fun e => e.2.columns
    colWord cs ((off - 0x140) / 4 % 4)
  else if off = 0x940 then cap s
  else if offIn off 0xA00 0xCFF then factoryWord ((off - 0xA00) / 0x100) ((off - 0xA00) % 0x100)
  else if off = 0xF04 then s.fuse.rows.length % 2 ^ 13
  else if off = 0xF08 || off = 0xF0C then
    match (factoryRows s)[live s 0 pgCAL 0xF00]? with
    | some e => if off = 0xF08 then e.1.toNat else e.2.toNat
    | none => 0
  else 0

def blkWord (s : State) (off : Nat) : Nat :=
  if off = 0xF00 then Config.version.toNat
  else if off = 0xF04 then
    (if s.initFuse then 1 else 0) + (if s.fuseErr then 2 else 0) + (if s.initTest then 4 else 0) +
      (if s.initStore then 8 else 0)
  else if off = 0xF08 then cap s
  else if offIn off 0xF10 0xF2F then capLive s ((off - 0xF10) / 4)
  else if offIn off 0xF30 0xF3B then
    bitsWhere 32 fun i => pageBusy s (32 * ((off - 0xF30) / 4) + i)
  else if off = 0xF3C then s.gstat
  else 0

/-- The power states of all channels, two bits each (Table 12-9). -/
def pwrState (s : State) : Nat :=
  (List.range 8).foldl (fun a n => a + (chan s n).power.depth * 4 ^ n) 0

def pwrWord (s : State) (off : Nat) : Nat :=
  if off = 0xF00 then s.gov.point
  else if off = 0xF04 then toBits 32 s.gov.level
  else if off = 0xF08 then pwrState s
  else if off = 0xF20 then (chan s (cidx s)).temp
  else if off = 0xF24 then toBits 32 (chan s (cidx s)).allow
  else 0

def wbtWord (s : State) (off : Nat) : Nat :=
  if off = 0xF04 then s.wbt.slot + (if s.wbt.gap then 0x400 else 0)
  else if off = 0xF08 then s.wbt.gen
  else if off = 0xF0C then (if s.wbt.next.isSome then 1 else 0)
  else 0

def strmWord (s : State) (off : Nat) : Nat :=
  if off = 0xF00 then bitsWhere 32 fun i => armed s (i / 4) (strmOf (i % 4))
  else if offIn off 0xF80 0xFBF then
    let x := strm s (sidx s) (strmOf ((off - 0xF80) / 16))
    let k := off % 16 / 4
    (if k = 0 then x.next else if k = 1 then x.low else if k = 2 then x.cseq else x.chead).toNat
  else 0

def storeWord (s : State) (off : Nat) : Nat :=
  if off = 0xF04 then (slice s (slidx s)).mem.scrubPos / 32 % 2 ^ 18
  else if off = 0xF20 then s.repair.length % 2 ^ 20
  else if off = 0xF28 || off = 0xF2C then
    match s.repair[live s 0 pgSTORE 0xF24]? with
    | some e => if off = 0xF28 then e.1.toNat else e.2.toNat
    | none => 0
  else 0

/-- The context in which a register read looks at a pool. -/
def readCtx (s : State) (p : Nat) : Ctx :=
  { who := Who.block 0, part := p, root := some (pool s p).root, owner := .block }

/-- Sequences of a partition that are `OPEN` in its current instar (R233). -/
def openCount (s : State) (p : Nat) : Nat :=
  if !(hasPool s p) then 0
  else
    (peekM s (readCtx s p) (do
      let root := (pool s p).root
      let ns ← (List.range 32).mapM fun i => do
        let g ← rootEntry root (64 + i)
        if g = 0 then return 0
        else
          let bs ← tabRd g (16 * 2048)
          return ((List.range 2048).filter fun k => leAt bs (16 * k) 1 == 1).length
      return ns.foldl (· + ·) 0)).getD 0

/-- The state of a sequence in the current instar (Table 09-7), zero where it cannot be read. -/
def seqStateOf (s : State) (p q : Nat) : Nat :=
  if !(hasPool s p) then 0
  else
    match peekM s (readCtx s p) (seqRec (pool s p).root q) with
    | some x => x.state % 4
    | none => 0

def poolWord (s : State) (off : Nat) : Nat :=
  let p := pidx s
  let x := pool s p
  let q := live s 0 pgPOOL 0xF04
  if offIn off 0x200 0x3FF && off % 0x40 = 0x1C then
    let n := (off - 0x200) / 0x40
    if hasPool s n then (shapeOf s [] n).fg else 0
  else if off = 0xF08 then seqStateOf s (q / 2 ^ 16) (q % 2 ^ 16)
  else if off = 0xF10 then x.instar % 2 ^ 32
  else if off = 0xF14 then x.instar / 2 ^ 32
  else if off = 0xF18 then oldest x % 2 ^ 32
  else if off = 0xF1C then oldest x / 2 ^ 32
  else if off = 0xF20 then x.free.length
  else if off = 0xF24 then (x.retiring.filter fun e => !(isSlowFrame s p e.1)).length
  else if off = 0xF28 then openCount s p
  else if off = 0xF60 then x.slowFree.length
  else 0

/-- Pages of all partitions whose frames are on a port. -/
def pagesOnPort (s : State) (q : Nat) : Nat :=
  (allParts.map fun p =>
    if !(hasPool s p) then 0
    else
      match peekM s (readCtx s p) (framesOnPort q) with
      | some fs => (fs.map fun e => e.2.length).foldl (· + ·) 0
      | none => 0).foldl (· + ·) 0

def mempWord (s : State) (q off : Nat) : Nat :=
  let x := slowP s q
  let b (v : Bool) (k : Nat) : Nat := if v then 2 ^ k else 0
  if off = 0xF00 then
    b x.ready 0 + b x.clk 1 + b x.training 2 + b x.filling 3 + b x.draining 4 + b x.lost 5 + b x.retired 6
  else if off = 0xF04 then usableMiB s q
  else if off = 0xF08 then x.mem.scrubPos % 2 ^ 27
  else if off = 0xF0C then if x.draining then pagesOnPort s q else 0
  else if off = 0xF28 then x.dfiErr.toNat
  else 0

/-- Send credits of a channel of a port (R353). -/
def sendCredits (s : State) (n vc : Nat) : Nat :=
  let x := remP s n
  if x.up then Config.landing vc - diff32 (x.sent.getD vc 0) (x.peerFreed.getD vc 0) else 0

def rpbWord (s : State) (k off : Nat) : Nat :=
  let n := 16 * k + midx s k
  if off = 0xF04 then
    (List.range 4).foldl (fun a vc => a + min (heldFrames s n vc) 15 * 16 ^ vc + min (sendCredits s n vc) 15 * 16 ^ (vc + 4)) 0
  else 0

def rpgWord (s : State) (off : Nat) : Nat :=
  let up (i : Nat) : Bool := remPresent s i && (remP s i).up
  if off = 0xF00 then bitsWhere 32 up
  else if off = 0xF04 then bitsWhere 32 fun i => up (32 + i)
  else 0

def fabWord (s : State) (off : Nat) : Nat :=
  let f := fabIdx s
  let x := fabP s f
  if off = 0xF04 then
    x.iqCred + (64 - x.tqCred) * 2 ^ 8 + (if bitOf (eff s pgFAB 0x104) f then 2 ^ 15 else 0) +
      min x.sent.length 255 * 2 ^ 24
  else 0

def Service.num : Service → Nat
  | .run => 0 | .leaving => 1 | .test => 2 | .out => 3 | .failed => 4

/-- What the last self-test reported of a page lane: its failing columns, ascending. -/
def laneReport (s : State) (ch t : Nat) : List Nat :=
  match (chan s ch).report.find? fun r => r.array == t / 4 && r.lane == t % 4 with
  | some r => r.columns
  | none => []

def aryWord (s : State) (ch off : Nat) : Nat :=
  let x := chan s ch
  let t := tidx s ch
  let cs := laneReport s ch t
  if off = 0xF00 then x.service.num
  else if off = 0xF04 then x.role
  else if off = 0xF08 then x.astate
  else if off = 0xF44 then
    min cs.length 8 + (if 8 < cs.length then 16 else 0) + (if x.ran && t / 4 < capARY s then 32 else 0)
  else if offIn off 0xF48 0xF57 then colWord (cs.take 8) ((off - 0xF48) / 4)
  else 0

/-- `CURL`, `CURSTAMP`, `CURUNIT` (Table 18-5). -/
def curWords (s : State) (ch : Nat) : Word × Word × Word :=
  match (chan s ch).unit with
  | none => (0, 0, 0)
  | some u =>
    -- a swarm row group shows stream S, whatever stream its commands are of
    let (st, op) := if u.swarm.isSome then (Strm.S, opDEC)
      else (u.strm, ((getCmd s u.part.val u.strm u.stamp).map (·.op)).getD 0)
    (BitVec.ofNat 32 (u.part.val + st.num * 8 + 32 + op * 64), u.stamp, BitVec.ofNat 32 u.value)

def pipeWord (s : State) (ch off : Nat) : Nat :=
  if off = 0xF00 then (curWords s ch).1.toNat
  else if off = 0xF04 then (chan s ch).curCap.2.1.toNat
  else if off = 0xF08 then (chan s ch).curCap.2.2.toNat
  else 0

def fnWord (s : State) (ch off : Nat) : Nat :=
  let x := chan s ch
  if off = 0xF00 then x.bank % 4 else if off = 0xF04 then x.gen0 else if off = 0xF08 then x.gen1 else 0

def monWord (s : State) (ch off : Nat) : Nat :=
  match chanOwner s ch with
  | none => 0
  | some p =>
    if off = 0xF04 then p + 8
    else if off = 0xF38 then
      allStrms.foldl (fun a st => a + advStep s p st (hslot s ch) % 4 * 4 ^ st.num) 0
    else 0

/-- The read-only words of a page that its own table gives. -/
def roWord (s : State) (pg off : Nat) : Nat :=
  if pg = pgBLK then blkWord s off
  else if pg = pgCAL then calWord s off
  else if pg = pgFLT then
    if off = 0xF00 then s.fseq
    else if offIn off 0xF40 0xF7F then faultSlot s (live s 0 pgFLT 0xF08) ((off - 0xF40) / 4) else 0
  else if pg = pgCAD then
    if off = 0xF00 then s.cad.phase.toNat % 2 ^ 32
    else if off = 0xF04 then s.cad.phase.toNat / 2 ^ 32
    else if off = 0xF08 then s.cad.cpt
    else if off = 0xF0C then (if s.cad.valid then 1 else 0) + (if s.cad.held then 2 else 0) else 0
  else if pg = pgWBT then wbtWord s off
  else if pg = pgPWR then pwrWord s off
  else if pg = pgSTRM then strmWord s off
  else if pg = pgSTORE then storeWord s off
  else if pg = pgXLAT then
    if offIn off 0xF40 0xF5F then xlatField s [] ((off - 0xF40) / 4) 0 else 0
  else if pg = pgPOOL then poolWord s off
  else if pg = pgFTAB then
    if off = 0xF00 then (if switchPend s then 1 else 0) else if off = 0xF04 then curGen s else 0
  else if pg = pgSNAP then
    if offIn off 0xF00 0xF1F then (s.ckSeq[pf ((off - 0xF00) / 4)]).toNat
    else if off = 0xF20 then s.rstat else 0
  else if offIn pg 0x10 0x1F then mempWord s (pg - 0x10) off
  else if pg = pgRPG then rpgWord s off
  else if offIn pg 0x21 0x24 then rpbWord s (pg - 0x21) off
  else if pg = pgFAB then fabWord s off
  else if isChanPage pg then
    let ch := pgChan pg
    if pg % 4 = 0 then aryWord s ch off
    else if pg % 4 = 1 then pipeWord s ch off
    else if pg % 4 = 2 then fnWord s ch off
    else monWord s ch off
  else 0

/-! ## Reads -/

/-- `PAGECTL.VIEW` of a page. -/
def pageView (s : State) (pg : Nat) : Bool := bitOf (live s 0 pg 0x008) 1
def pageJoined (s : State) (pg : Nat) : Bool := bitOf (live s 0 pg 0x008) 0

/-- The common words of a page (Table 17-3). -/
def commonWord (s : State) (pg off : Nat) : Nat :=
  if off = 0 then pg * 2 ^ 16 + 0x100 + pageType pg
  else if off = 4 then (if pageShadow pg then 1 else 0) + (if pageJoin pg then 2 else 0)
  else if off = 8 then live s 0 pg 0x008
  else if off = 0xC then
    (if pageDirty s pg then 1 else 0) + (if pg = pgBLK || field (commitStat s pg) 8 8 = 0 then 0 else 2)
  else if off = 0x14 then commitStat s pg
  else 0

/-- A word of the entry window of `WBT` (R302). -/
def entryWord (s : State) (k : Nat) : Nat :=
  let src := if pageView s pgWBT then s.wbt.table.entries else s.wbt.shadow
  (wordsGet src (4 * live s 0 pgWBT 0xF00 + k) 0).toNat

/-- What a word of the configuration space shows. -/
def showWord (s : State) (pg off : Nat) : Nat :=
  if !(pagePresent s pg) || off % 4 ≠ 0 then 0
  else if off < 0x20 then commonWord s pg off
  else if pg = pgWBT && offIn off 0x110 0x11F then entryWord s ((off - 0x110) / 4)
  else if pg = pgWBT && pageView s pg && off = 0x100 then s.wbt.table.period.toNat
  else if pg = pgWBT && pageView s pg && off = 0x104 then s.wbt.table.count.toNat
  else if rwMask s pg off ≠ 0 then if pageView s pg then eff s pg off else shadowW s pg off
  else
    match liveWord s pg off with
    | some (i, _) => live s i pg off
    | none =>
      match w1cWord s pg off with
      | some (i, _) => live s i pg off
      | none => roWord s pg off

/-- The `L` words of the pairs of R343: the offset of the `H` word follows. -/
def pairLow (pg off : Nat) : Bool :=
  pg == pgCAD && off == 0xF00 || pg == pgPOOL && (off == 0xF10 || off == 0xF18) || pg == pgRPG && off == 0xF00

/-- The `H` words, which show what the read of the `L` word captured. -/
def pairHigh (pg off : Nat) : Bool := decide (4 ≤ off) && pairLow pg (off - 4)

/-- Counters of events within a core cycle or a pass, that the model does not time: a read finds them raised by a free
value. -/
def untimed (pg off : Nat) : Bool :=
  isChanPage pg && pg % 4 == 0 && (offIn off 0xF18 0xF24 || off == 0xF30) ||
    pg == pgSTORE && (off == 0xF14 || off == 0xF18) ||
    offIn pg 0x10 0x1F && off == 0xF1C ||
    pg == pgXLAT && off == 0xF00

/-- Raise an untimed counter by a free value. -/
def loosen (s : State) (pg off : Nat) : State :=
  match liveWord s pg off with
  | some (i, _) =>
    if untimed pg off && pagePresent s pg then
      bump { s with free := s.free + 1 } i pg off (Config.freeWord s.free).toNat
    else s
  | none => s

/-- A read of a configuration word (R342, R343, R453). -/
def regRead (s : State) (pg off : Nat) : State :=
  let s := loosen s pg off
  let w := BitVec.ofNat 32 (showWord s pg off)
  if !(pagePresent s pg) then { s with rdata := 0 }
  else if pairHigh pg off then { s with rdata := wordsGet s.captured (wordAddr pg off) 0 }
  else if pairLow pg off then
    { s with
      rdata := w
      captured := wordsSet s.captured (wordAddr pg off + 4) 0 (BitVec.ofNat 32 (showWord s pg (off + 4))) }
  else if isChanPage pg && pg % 4 = 1 && off = 0xF00 then
    updChan { s with rdata := w } (pgChan pg) fun x => { x with curCap := curWords s (pgChan pg) }
  else { s with rdata := w }

/-! ## Writes that are no action -/

/-- A write of `STRM.CHEADs`: the ring may then take a completion. -/
def writeChead (s : State) (off : Nat) (v : Word) : State :=
  updStrm s (sidx s) (strmOf ((off - 0xF80) / 16)) fun x => { x with chead := v }

/-- A write of an RW, LV or W1C word; every other write is discarded (R433, R434, R440). -/
def plainWrite (s : State) (pg off : Nat) (v : Word) : State :=
  if !(pagePresent s pg) || off % 4 ≠ 0 then s
  else if pg = pgWBT && offIn off 0x110 0x11F then
    let k := 4 * live s 0 pgWBT 0xF00 + (off - 0x110) / 4
    { s with wbt := { s.wbt with shadow := wordsSet s.wbt.shadow k 0 v } }
  else if rwMask s pg off ≠ 0 then setShadow s pg off v.toNat
  else if pg = pgSTRM && offIn off 0xF80 0xFBF && off % 16 = 0xC then writeChead s off v
  else
    match liveWord s pg off with
    | some (i, m) => setLive s i pg off (v.toNat &&& m)
    | none =>
      match w1cWord s pg off with
      | some (i, m) => setLive s i pg off (live s i pg off &&& (m ^^^ (v.toNat &&& m)))
      | none => s

end Sys2Proof.Machine
end

