-- ==== Sys2Proof/Machine/Service.lean ====
section
/-! DEFINITION. Channels out of service and back (R75, R76, R395, R396, R450 to R452): leaving, self-test, return,
watchdog and control parity. -/

namespace Sys2Proof.Machine

open Sys2Proof

/-- A record of class 7 (Table 15-2). -/
def chanFault (s : State) (ch cause arg0 : Nat) : State :=
  addFault s { faultOf { Who.block 0 with ch := ch } 7 cause with arg0 := arg0 }

/-- A channel enters `TEST`: the report words clear (Table 18-4). -/
def enterTest (s : State) (ch : Nat) : State :=
  updChan s ch fun x => { x with service := .test, cur := none, report := [], ran := false }

/-- The switch of a commit that sets `SVC` = `VECTOR` (Table 18-4): a return that was asked for is not made. A failed channel
that goes to its test has its `OUT` record too (R396). -/
def svcOut (s : State) (ch : Nat) : State :=
  let s := updChan s ch fun x => { x with returning := false }
  match (chan s ch).service with
  | .run => chanFault (updChan s ch fun x => { x with service := .leaving }) ch 3 0
  | .failed => chanFault (enterTest s ch) ch 3 0
  | .out => s
  | .leaving => s
  | .test => s

/-- The switch of a commit that sets `SVC` = `RUN`: the return is asked for. -/
def svcBack (s : State) (ch : Nat) : State :=
  if (chan s ch).service == .out then updChan s ch fun x => { x with returning := true } else s

/-- SELF_TEST_START: a leaving channel whose units are done and whose arrays are idle enters `TEST`. -/
def selfTestStart (s : State) (ch : Nat) : State :=
  let x := chan s ch
  if x.service == .leaving && x.unit.isNone then enterTest s ch else s

/-- The report of a self-test: lanes of present arrays, columns ascending (R76, R451). -/
def cleanReport (s : State) (rs : List LaneReport) : List LaneReport :=
  (rs.filter fun r => decide (r.array < capARY s) && decide (r.lane < 4)).map fun r =>
    { r with columns := r.columns.foldl (fun l c => insertAsc c l) [] }

/-- What steps V1 to V7 leave in an array (R76, Table 03-11): the pattern that V6 rippled and swapped in, and depth as the
axis of the last row. DESIGN CHOICE (log 76): the test path bypasses formats, and the staging halves are not used. -/
def ArrayMem.tested (x : ArrayMem) : ArrayMem :=
  { x with active := CellTile.pattern, shadow := CellTile.pattern, prodP := [], prodQ := [], across := some false }

/-- A self-test ends: `TEST` to `OUT` with the report. -/
def testDone (s : State) (ch : Nat) (rs : List LaneReport) : State :=
  if (chan s ch).service == .test then
    updChan s ch fun x =>
      { x with
        arrays := x.arrays.zipIdx.map fun (y, a) => if a < capARY s then y.tested else y
        service := .out
        report := cleanReport s rs
        ran := true }
  else s

/-- SELF_TEST_DONE; the start-up self-test ends by its own command. -/
def selfTestDone (s : State) (ch : Nat) (rs : List LaneReport) : State :=
  if s.initTest && ch < capCH s then testDone s ch rs else s

/-- `RETEST.GO`, discarded in any state other than `OUT` (R450). -/
def retestGo (s : State) (ch : Nat) : State :=
  if (chan s ch).service == .out then enterTest s ch else s

/-- CHANNEL_RETURN: at its next idle cycle the channel takes the map in effect and both function banks, and is in service
again (R75, R169, R450). -/
def channelReturn (s : State) (ch : Nat) : State :=
  let x := chan s ch
  if x.service == .out && x.returning then
    let s := applyMap (writeBanks s ch) ch
    let s := updChan s ch fun x => { x with service := .run, returning := false, cur := none, progress := s.cycle }
    chanFault s ch 4 0
  else s

/-- The unit of a channel is abandoned, and the commands that it serves fault with `ABORTED`. -/
def faultUnit (s : State) (ch d : Nat) : State :=
  match (chan s ch).unit with
  | none => s
  | some u =>
    let p := u.part.val
    let stamps := unitStamps s u
    let s := updChan s ch fun x => { x with unit := none, cur := none }
    let s := (inOrder s p u.strm stamps).foldl (fun s t => endCmd s p u.strm t stABORTED d) s
    remSettle (launchDue (pruneSwarms (settle s p) p) p)

/-- A channel fails (R395): its units are abandoned, and their commands fault with `ABORTED`; commands that no channel can take
then are refused (R81). The arrays of a channel that was leaving are idle then: it goes to its test (Table 18-4). -/
def chanFail (s : State) (ch cause arg0 : Nat) : State :=
  let was := (chan s ch).service
  let s := chanFault s ch cause arg0
  let d := lastFault s
  let s := if was == .run then updChan s ch fun x => { x with service := .failed } else s
  let s := faultUnit s ch d
  let s := match chanOwner s ch with
    | some p => launchDue (settle (refuseStranded s p) p) p
    | none => s
  if was == .leaving then enterTest s ch else s

/-- Whether a request that a channel's unit made is not answered: of host memory, or of a slice in DOZE. -/
def chanAsks (s : State) (ch : Nat) : Bool :=
  s.dozed.any (fun e => e.2 == ch) || iqAny s fun r => match r.owner with
    | .command _ _ _ c => c == ch
    | _ => false

/-- CHANNEL_WATCHDOG: a channel that holds a unit, waits for no request and has made no progress for
`FLT.WDOG` × 1,024 cycles fails. -/
def channelWatchdog (s : State) (ch : Nat) : State :=
  let x := chan s ch
  let lim := eff s pgFLT 0x100 * 1024
  if x.unit.isNone || lim = 0 || chanAsks s ch || s.cycle - x.progress < lim then s
  else chanFail s ch 1 (s.cycle - x.progress)

/-- CTL_PARITY: a channel whose control registers report a parity error fails. -/
def ctlParity (s : State) (ch group : Nat) : State :=
  let x := chan s ch
  if x.service == .run || x.service == .leaving then chanFail s ch 2 group else s

end Sys2Proof.Machine
end

