-- ==== Sys2Proof/Machine/Tiers.lean ====
section
/-! DEFINITION. Rows of the store and the slow tier by themselves (R188, R189, R338, R340, R427), slow-tier ports from
bring-up to retirement (R400, R429, R430), the loss of slices and ports (R397 to R400). -/

namespace Sys2Proof.Machine

open Sys2Proof

/-! ## Patrol scrub and write-backs -/

/-- The memory of a row unit. -/
def unitMem (s : State) : RowUnit → RowMem
  | .slice n => (slice s n).mem
  | .port q => (slowP s q).mem

def updUnitMem (s : State) (u : RowUnit) (f : RowMem → RowMem) : State :=
  match u with
  | .slice n => updSlice s n fun x => { x with mem := f x.mem }
  | .port q => updSlow s q fun x => { x with mem := f x.mem }

/-- Whether a row unit is scrubbed now. -/
def unitRuns (s : State) : RowUnit → Bool
  | .slice n => s.initStore && decide (n.val < capCH s) && sliceLive s n
  | .port q => portReady s q

/-- Rows of a unit, spare rows included. -/
def unitRows (s : State) : RowUnit → Nat
  | .slice _ => 32 * (Config.rowsPerBank + Config.sparesPerBank)
  | .port q => devMiB (eff s (pgMEMP q) 0x100) * 2048

/-- The address whose bank steers it to spare `k`, where one does. -/
def spareUser (m : RowMem) (bank k : Nat) : Option Nat :=
  let mine := m.spares.filter fun e => bankOf e.1 == bank
  (mine.find? fun e => e.2 == k).bind fun e => if (mine.find? fun x => x.1 == e.1) == some e then some e.1 else none

/-- The cells that a scrub position reads (R189): a slice takes each row index in all 32 banks, then the spare rows. They
are named by the address that they serve; a spare that serves none, and the cells of a retired row, by their own names. -/
def scrubRow (s : State) (u : RowUnit) (pos : Nat) : Nat :=
  let m := unitMem s u
  let plain (row : Nat) : Nat := if m.spares.any (fun e => e.1 == row) then ownCells row else row
  let spare (unit bank k : Nat) : Nat := (spareUser m bank k).getD (spareCells unit bank k)
  match u with
  | .slice n =>
    let i := pos / 32
    let bank := pos % 32
    if i < Config.rowsPerBank then plain (n.val * Config.sliceBytes + i * 2 ^ 14 + bank * 2 ^ 9)
    else spare n bank (i - Config.rowsPerBank)
  | .port q =>
    let base := usableMiB s q * 2048
    if pos < base then plain (Config.slowBase + q.val * Config.slowPortBytes + pos * Config.rowBytes)
    else spare (8 + q) 0 (pos - base)

/-- A counter of a unit's memory: `k` = 0 `CE`, 1 `CE_DROP`, 2 `UE`. -/
def bumpUnit (s : State) (u : RowUnit) (k : Nat) : State :=
  match u with
  | .slice n => bump s n pgSTORE (0xF08 + 4 * k) 1
  | .port q => bump s 0 (pgMEMP q) (0xF10 + 4 * k) 1

/-- Whether the memory of a unit is in DOZE; the slow tier has none. -/
def dozes (s : State) (u : RowUnit) : Bool :=
  match u with
  | .slice n => (chan s n).power == .doze
  | .port _ => false

/-- The channel of a slice wakes. -/
def wakeUnit (s : State) (u : RowUnit) : State :=
  match u with
  | .slice n => wake s n
  | .port _ => s

/-- Scrub reads cells that serve no address: they correct, are queued and are counted as a row is (R188, R386). DESIGN
CHOICE (log 78): they hold nothing to move, so they are not retired, and an error that cannot be corrected is counted
and has no address to record. -/
def readCells (s : State) (u : RowUnit) (id : Nat) : State :=
  match rowDecode (rowPat s id) with
  | .clean _ => s
  | .corrected _ =>
    let s := bumpUnit s u 0
    let m := unitMem s u
    let s :=
      if m.queue.any (fun e => e.1 == id && !e.2) then s
      else if m.queue.length < Config.writeBackRows then
        updUnitMem s u fun m => { m with queue := m.queue ++ [(id, false)] }
      else bumpUnit s u 1
    updUnitMem s u fun m => { m with tracker := (trackAdd m.tracker id).1 }
  | .uncorrectable => bumpUnit s u 2

/-- Advance the scrub; a new pass clears every count (R386). -/
def scrubNext (s : State) (u : RowUnit) : State :=
  updUnitMem s u fun m =>
    if m.scrubPos + 1 < unitRows s u then { m with scrubPos := m.scrubPos + 1, scrubAt := s.cycle }
    else { m with scrubPos := 0, scrubAt := s.cycle, tracker := [] }

/-- PATROL_SCRUB_STEP: read the next row; a row that corrects is queued for its write-back. For a slice in DOZE the
governor's wake begins, and the step comes once the slice is back: it is no request that counts (R313, R314, R347). -/
def scrubStep (s : State) (u : RowUnit) (ups : List Upset) : State :=
  let s := addUpsets s ups
  if !(unitRuns s u) then s
  else if dozes s u then wakeUnit s u
  else
    let s := wakeUnit s u
    let row := scrubRow s u (unitMem s u).scrubPos
    scrubNext (if row < 2 ^ 60 then (readRow s (Who.block 6) row).1 else readCells s u row) u

/-- CORRECTION_WRITE_BACK: the oldest queued row is written whole, unless it was rewritten since (R188, R189). -/
def writeBack (s : State) (u : RowUnit) : State :=
  match (unitMem s u).queue with
  | [] => s
  | (row, dropped) :: rest =>
    if dozes s u then wakeUnit s u else
    let s := updUnitMem s u fun m => { m with queue := rest }
    if dropped then s
    else if 2 ^ 60 ≤ row then setPat s row []
    else if !(present s row) then s
    else
      let left := match rowDecode (rowPat s row) with
        | .clean l => l
        | .corrected l => l
        | .uncorrectable => []
      let s := if left.isEmpty then s else
        { s with mem := memPut s.mem row (applyPat left 0 (memBytes s.mem row 512)) }
      wroteRow s row

/-! ## Row loads (R427) -/

/-- Whether a repair entry names a row of a slice or port that the block can steer. -/
def rowLoadable (s : State) (row : Nat) : Bool :=
  if isStore row then decide (sliceOf row < capCH s)
  else decide (portOf row < capMT s) && !((slowP s (portOf row)).lost)

/-- A row that is in service moves to a spare (R387); one that cannot be corrected keeps its error there. -/
def moveRow (s : State) (row : Nat) : State :=
  let w := Who.block 6
  match readRow s w row with
  | (s, some rest) =>
    if s.repair.any (fun x => entryRow x == row) then s
    else
      let s := if rest.isEmpty then s else
        { s with mem := memPut s.mem row (applyPat rest 0 (memBytes s.mem row 512)) }
      retireRow s row (assocD (rowMem s row).tracker row 0)
  | (s, none) =>
    let pat := rowPat s row
    let known := s.repair.length
    let s := retireRow s row (assocD (rowMem s row).tracker row 0)
    if known < s.repair.length then setPat s row pat else s

/-- ROW_LOAD: a write of `CALU.RLOAD1`. -/
def rowLoad (s : State) (w1 : Word) : State :=
  let e := (s.rload0, w1)
  let row := entryRow e
  if !(rowLoadable s row) then s
  else if s.repair.any (fun x => entryRow x == row) || s.fuse.rows.any (fun x => entryRow x == row) then s
  else
    let running := if isStore row then s.initStore else portReady s (portOf row)
    if running then moveRow s row
    else
      match freeSpare s row with
      | some k => steer s row k
      | none => spareOut s row

/-! ## Losses (R397 to R400) -/

/-- Whether a partition's table area meets a byte range. -/
def tableMeets (s : State) (p a n : Nat) : Bool :=
  rangesMeet (xlatField s [] p 0 * Config.granule) (xlatField s [] p 1 * Config.granule) a n

/-- A loss edit is due in every partition that has a pool. -/
def lossAll (s : State) : State :=
  allParts.foldl (fun s p => if hasPool s p then updPool s p fun x => { x with lossDue := true } else s) s

/-- Whether a partition owns store in a slice. -/
def inSlice (s : State) (p n : Nat) : Bool := ownsStore s [] p (n * Config.sliceBytes + field (partField s [] p 4) 0 11 * 2 ^ 20) 1

/-- A unit of a channel has a request outstanding to slice `n` that is lost, or none: which is a matter of time (a free value,
log 84), where its partition has store in the slice. -/
def loseAsk (n d : Nat) (s : State) (ch : Nat) : State :=
  if !((chan s ch).unit.any fun u => inSlice s u.part.val n) then s
  else
    let hit := (Config.freeWord s.free).getLsbD 0
    let s := { s with free := s.free + 1 }
    if hit then faultUnit s ch d else s

/-- A slice is lost (R397): `arg0` 0 at its tier link, 1 by the driver. A pool whose table area lies in it is lost. -/
def loseSlice (s : State) (n arg0 : Nat) : State :=
  if capCH s ≤ n || (slice s n).lost then s
  else
    let s := updSlice s n fun x => { x with lost := true }
    let s := addFault s { faultOf (Who.block 0) 1 4 with
      addr := n * Config.sliceBytes, akind := 2, unit := n, arg0 := arg0 }
    let s := allParts.foldl (orderDone s) ((List.range 8).foldl (loseAsk n (lastFault s)) s)
    let s := allParts.foldl (fun s p =>
      if hasPool s p && tableMeets s p (n * Config.sliceBytes) Config.sliceBytes then
        let s := addFault s (faultOf (poolWho p) 5 6)
        updPool s p fun x => { x with lost := true, lossDue := false }
      else s) s
    lossAll s

/-- A write of `STORE.LOSE`. -/
def loseSlices (s : State) (bits : Nat) : State := (bitsOf 8 bits).foldl (fun s n => loseSlice s n 1) s

/-- Whether POOL is at an edit boundary of a partition (R215). -/
def editBoundary (s : State) (p : Nat) : Bool :=
  hasPool s p && instarRoom (pool s p) &&
    !(allStrms.any fun o => (strm s p o).cmds.any fun k => k.isEdit && k.stage == .started && k.jobOver)

/-- The context of an edit of POOL's own. -/
def poolCtx (s : State) (p : Nat) : Ctx :=
  { who := poolWho p, part := p, root := some (pool s p).root, owner := .block }

/-- LOSS_EDIT (R398): the loss edit of a partition, with its `SEQ_LOST` record. -/
def lossEdit (s : State) (p : Nat) : State :=
  if !((pool s p).lossDue) || !(editBoundary s p) then s
  else
    match ranM s (poolCtx s p) (editM lossEditM) with
    | .ok n r =>
      let s := updPool r.s p fun x => { x with lossDue := false }
      let s := addFault s { faultOf (poolWho p) 5 5 with arg0 := n, arg1 := (pool s p).instar }
      launchDue (settle s p) p
    | .bad e _ s' => if e = stWAITNODE || e = stWAITPIN then s else updPool s' p fun x => { x with lossDue := false }
    | .host s => s

/-- A slow-tier port is lost (R400): its record, and a loss edit for every pool. -/
def losePort (s : State) (q cause arg0 : Nat) : State :=
  let s := addFault s { faultOf (Who.block 3) 2 cause with port := q, arg0 := arg0 }
  let s := updSlow s q fun x =>
    { x with training := false, filling := false, ready := false, draining := false, lost := true, inLive := false }
  lossAll s

/-! ## Slow-tier ports (R400, R429, R430) -/

/-- The device type in effect on a port. -/
def devType (s : State) (q : Nat) : Nat := field (eff s (pgMEMP q) 0x100) 0 2

/-- Bring-up begins: the PHY trains. -/
def bringUp (s : State) (q : Nat) : State :=
  let x := slowP s q
  if x.clk && devType s q != 0 && !(x.ready || x.training || x.filling || x.lost || x.retired) then
    updSlow s q fun x => { x with training := true }
  else s

/-- SLOW_PORT_BRING_UP: `MCLKq` runs. -/
def portClock (s : State) (q : Nat) : State :=
  if capMT s ≤ q then s else bringUp (updSlow s q fun x => { x with clk := true }) q

/-- DFI_INIT_COMPLETE: the device is programmed and the zero-fill begins. -/
def dfiInit (s : State) (q : Nat) : State :=
  if (slowP s q).training && !((slowP s q).retired) then updSlow s q fun x => { x with training := false, filling := true } else s

/-- Every row of a device is written with zero, the spare region and the rows of retired ones included (R429). -/
def zeroFill (s : State) (q : Nat) : State :=
  let base := Config.slowBase + q * Config.slowPortBytes
  let within (a n r : Nat) : Bool := decide (a ≤ r) && decide (r < a + n)
  let cells (r : Nat) : Bool := within base Config.slowPortBytes r || within (ownCells base) Config.slowPortBytes r ||
    within (spareCells (8 + q) 0 0) (2 ^ 50) r
  let s := (s.reported.filter (within base Config.slowPortBytes)).foldl (fun s r => wroteRow s r) s
  { s with
    mem := memClear s.mem base Config.slowPortBytes
    rowErr := s.rowErr.filter fun e => !(cells e.1) }

/-- SLOW_PORT_READY: the zero-fill ends, and scrub starts at row 0. -/
def portUp (s : State) (q : Nat) : State :=
  if (slowP s q).filling && !((slowP s q).retired) then
    updSlow (zeroFill s q) q fun x =>
      { x with
        filling := false
        ready := true
        inLive := true
        mem := { x.mem with scrubPos := 0, queue := [], tracker := [] } }
  else s

/-- TRAINING_TIMEOUT (R430). -/
def trainingTimeout (s : State) (q : Nat) : State := if (slowP s q).training then losePort s q 5 0 else s

/-- DFI_ERROR (R336, R400, R430). -/
def dfiError (s : State) (q : Nat) (code : BitVec 8) : State :=
  if capMT s ≤ q then s
  else
    let s := updSlow s q fun x => { x with dfiErr := code }
    if (slowP s q).lost || (slowP s q).retired then s else losePort s q 4 code.toNat

/-- A pool with pages on a port, where POOL is at an edit boundary. -/
def drainPart (s : State) (q : Nat) : Option Nat :=
  allParts.find? fun p => editBoundary s p && !((pool s p).lossDue) &&
    match peekM s (readCtx s p) (framesOnPort q) with
    | some fs => !(fs.isEmpty)
    | none => false

/-- A relief edit of partition `p` moves pages off a draining port (R400). One that fails leaves its counts and its record
(R188), and gives its frames back (R229). -/
def drainOnce (s : State) (q p : Nat) : State :=
  (ranM s (poolCtx s p) (editM (drainEditM q))).fold
    (fun n r => launchDue (settle (updSlow r.s q fun x => { x with moved := x.moved + n }) p) p)
    (fun e _ t => if e = stWAITNODE || e = stWAITPIN then s else t) (fun t => t)

/-- DRAIN_RELIEF_EDIT (R400): up to 256 pages leave the port; `DRAINED` once none remains. -/
def drainEdit (s : State) (q : Nat) : State :=
  if !((slowP s q).draining) then s
  else
    let s := ((drainPart s q).map (drainOnce s q)).getD s
    if pagesOnPort s q = 0 && !((slowP s q).drained) then
      let s := addFault s { faultOf (Who.block 0) 2 6 with port := q, arg0 := (slowP s q).moved }
      updSlow s q fun x => { x with drained := true }
    else s

end Sys2Proof.Machine
end

