-- ==== Sys2Proof/Machine/Static.lean ====
section
/-! DEFINITION. Ranges that a commit's check or follow-on works with: table areas, owned store, frame regions, and the
static tree of a partition with what `MAP_*` does to it (R191, R199, R200, R206, R445). -/

namespace Sys2Proof.Machine

open Sys2Proof

/-- A range of physical addresses: first byte and length. -/
abbrev Span := Nat × Nat

def spanMeets (a b : Span) : Bool := rangesMeet a.1 a.2 b.1 b.2

/-- The value that a check sees differs from the value in effect. -/
def changes (s : State) (view : List Nat) (pg off : Nat) : Bool := seen s view pg off != eff s pg off

def loadSeen (s : State) (view : List Nat) (p : Nat) : Bool := bitOf (seen s view pgPART 0x100) p

/-! ## Ranges -/

/-- The table area of a partition (R200). -/
def areaSpan (s : State) (view : List Nat) (p : Nat) : Span :=
  (xlatField s view p 0 * Config.granule, xlatField s view p 1 * Config.granule)

/-- Whether a commit changes a partition's table area (R445). -/
def areaChanges (s : State) (view : List Nat) (p : Nat) : Bool :=
  changes s view pgXLAT (0x200 + 0x40 * p) || changes s view pgXLAT (0x204 + 0x40 * p)

/-- The store that a loaded partition owns (Table 12-5). -/
def ownedSpans (s : State) (view : List Nat) (p : Nat) : List Span :=
  let st := partField s view p 4
  if loadSeen s view p then
    (bitsOf 8 (field st 22 8)).map fun n =>
      (n * Config.sliceBytes + field st 0 11 * 2 ^ 20, (field st 11 11 + 1 - field st 0 11) * 2 ^ 20)
  else []

/-- The frames of a region that lie on port number `j` of `k`. -/
def portShare (frames k j : Nat) : Nat := (frames + k - 1 - j) / k

/-- The store region of a partition's frames (R206). -/
def storeRegion (s : State) (view : List Nat) (p : Nat) : Span :=
  let h := shapeOf s view p
  (h.base * Config.granule, h.frames * h.bytes)

/-- The slow-tier ranges of a partition's frames (R249). -/
def slowRegions (s : State) (view : List Nat) (p : Nat) : List Span :=
  let h := shapeOf s view p
  let ports := bitsOf 16 (field (poolField s view p 9) 16 16)
  (ports.zipIdx.map fun (q, j) =>
    (Config.slowBase + q * Config.slowPortBytes + field (poolField s view p 10) 0 21 * Config.granule,
      portShare (slowFrames s view p) ports.length j * h.bytes)).filter fun r => r.2 != 0

def frameSpans (s : State) (view : List Nat) (p : Nat) : List Span :=
  let st := storeRegion s view p
  (if st.2 = 0 then [] else [st]) ++ slowRegions s view p

/-- `MEMPq.USABLE.MB` that a check sees. -/
def usableSeen (s : State) (view : List Nat) (q : Nat) : Nat :=
  let dev := seen s view (pgMEMP q) 0x100
  if field dev 0 2 = 0 || capMT s ≤ q then 0 else devMiB dev - seen s view (pgMEMP q) 0x108

/-- A span cut at slice boundaries. -/
def cutSlices (r : Span) : List Span := cutRange Config.sliceBytes (r.2 / Config.sliceBytes + 2) r.1 r.2

/-- Whether a span lies whole in store that a loaded partition owns. -/
def ownedStore (s : State) (view : List Nat) (p : Nat) (r : Span) : Bool :=
  loadSeen s view p && (cutSlices r).all fun x => ownsStore s view p x.1 x.2

/-- Whether a span lies whole in what a partition may map: its store, its slow tier, host memory. -/
def ownedWhole (s : State) (view : List Nat) (p : Nat) (r : Span) : Bool :=
  (cutSlices r).all fun x =>
    isHost x.1 && decide (x.1 + x.2 ≤ 2 * Config.hostBase) || ownsStore s view p x.1 x.2 || ownsSlow s view p x.1 x.2

/-! ## The static tree -/

/-- The nonzero entries of a node: index and entry, ascending. -/
def nodeEntries (s : State) (g : Nat) : List (Nat × Nat) :=
  let base := g * Config.granule
  ((s.mem.filter fun c => decide (base ≤ c.1) && decide (c.1 < base + Config.granule)).foldl
    (fun (acc : List (Nat × Nat)) c =>
      let k := (c.1 - base) / 8
      let v := c.2.toNat * 256 ^ ((c.1 - base) % 8)
      match acc with
      | (j, e) :: rest => if j = k then (j, e + v) :: rest else (k, v) :: (j, e) :: rest
      | [] => [(k, v)]) []).reverse

/-- The static root granule of a partition that has a table area. -/
def staticRoot (s : State) (p : Nat) : Option Nat := if xlatField s [] p 1 = 0 then none else some (xlatField s [] p 0)

/-- The valid leaves below a node at level `3 − k`: the granule number of the virtual address, and the leaf. -/
def leavesBelow : Nat → State → Nat → Nat → List (Nat × Nat)
  | 0, s, g, pre => (nodeEntries s g).filterMap fun e => if entryValid 3 e.2 then some (pre * 4096 + e.1, e.2) else none
  | k + 1, s, g, pre =>
    (nodeEntries s g).flatMap fun e =>
      if entryValid (2 - k) e.2 then leavesBelow k s (entryPa e.2 / Config.granule) (pre * 4096 + e.1) else []

/-- The static leaves of a partition. -/
def staticLeaves (s : State) (p : Nat) : List (Nat × Nat) :=
  match staticRoot s p with
  | none => []
  | some g => leavesBelow 3 s g 0

/-- The nodes of a tree, its root among them. -/
def nodesBelow : Nat → State → Nat → List Nat
  | 0, _, g => [g]
  | k + 1, s, g =>
    g :: (nodeEntries s g).flatMap fun e =>
      if entryValid (2 - k) e.2 then nodesBelow k s (entryPa e.2 / Config.granule) else []

/-- The granules of the static tree, ascending. -/
def staticNodes (s : State) (p : Nat) : List Nat :=
  match staticRoot s p with
  | none => []
  | some g => (nodesBelow 3 s g).foldl (fun l x => insertAsc x l) []

/-- The static leaves that a check sees: none where the commit makes a new table area (R445). -/
def leavesSeen (s : State) (view : List Nat) (p : Nat) : List (Nat × Nat) :=
  if areaChanges s view p then [] else staticLeaves s p

/-- Whether a static leaf of a partition maps a granule of a span. -/
def leafIn (ls : List (Nat × Nat)) (r : Span) : Bool := ls.any fun e => spanMeets (entryPa e.2, Config.granule) r

/-- The node at level `k` on the way to a virtual granule, where it is there. -/
def nodeOn (s : State) (root : Nat) : Nat → Nat → Option Nat
  | 0, _ => some root
  | k + 1, vg =>
    match nodeOn s root k vg with
    | none => none
    | some g =>
      let e := leNat (memBytes s.mem (g * Config.granule + 8 * vaIndex (vg * Config.granule) k) 8)
      if entryValid k e then some (entryPa e / Config.granule) else none

/-! ## Map fields -/

/-- The map fields of `XLAT` that a commit applies (Table 17-13). -/
structure MapReq where
  part   : Nat
  vg     : Nat
  pa     : Nat
  count  : Nat
  unmap  : Bool
  stripe : Bool
  scr    : Bool
  w      : Bool
  slices : Nat
  deriving DecidableEq, Repr

def mapReq (s : State) (view : List Nat) : MapReq :=
  let a := seen s view pgXLAT 0x114
  { part := field a 4 3,
    vg := seen s view pgXLAT 0x100 + seen s view pgXLAT 0x104 * 2 ^ 32,
    pa := (seen s view pgXLAT 0x108 + seen s view pgXLAT 0x10C * 2 ^ 32) * Config.granule,
    count := seen s view pgXLAT 0x110,
    unmap := bitOf a 3, stripe := bitOf a 2, scr := bitOf a 1, w := bitOf a 0, slices := seen s view pgXLAT 0x118 }

/-- The physical address of granule `i` of a mapping (R191, R199). -/
def MapReq.granulePa (m : MapReq) (i : Nat) : Nat :=
  if m.stripe then m.pa + i % max 1 m.slices * Config.sliceBytes + i / max 1 m.slices * Config.granule
  else m.pa + i * Config.granule

/-- The leaf that a mapping writes for granule `i` (Table 08-9). -/
def MapReq.leaf (m : MapReq) (i : Nat) : Nat :=
  1 + (if m.w then 2 else 0) + (if m.scr then 4 else 0) + m.granulePa i

/-- The physical ranges of a mapping. -/
def MapReq.spans (m : MapReq) : List Span :=
  if m.stripe then
    ((List.range (max 1 m.slices)).map fun j =>
      (m.pa + j * Config.sliceBytes, portShare m.count (max 1 m.slices) j * Config.granule)).filter fun r => r.2 != 0
  else [(m.pa, m.count * Config.granule)]

/-- The valid leaves that a mapping clears or changes. -/
def MapReq.touched (m : MapReq) (ls : List (Nat × Nat)) : Bool :=
  ls.any fun e => decide (m.vg ≤ e.1) && decide (e.1 < m.vg + m.count) &&
    (m.unmap || m.leaf (e.1 - m.vg) != e.2)

/-- The nodes that a mapping needs beyond those of a tree (`none`: a fresh root alone). -/
def MapReq.newNodes (s : State) (m : MapReq) (root : Option Nat) : Nat :=
  if m.count = 0 || m.unmap then 0
  else
    let need (k : Nat) : Nat :=
      let sh := 12 * (4 - k)
      let a := m.vg >>> sh
      let b := (m.vg + m.count - 1) >>> sh
      ((List.range (b + 1 - a)).filter fun i =>
        match root with
        | none => true
        | some g => (nodeOn s g k ((a + i) <<< sh)).isNone).length
    need 1 + need 2 + need 3

/-- Granules of a table area in use after a commit of `XLAT`: those in use now or a fresh root, and the nodes that its
map fields need. -/
def nodesAfter (s : State) (view : List Nat) (p used : Nat) : Nat :=
  let fresh := areaChanges s view p
  let m := mapReq s view
  let root := if fresh then none else staticRoot s p
  (if fresh then (if xlatField s view p 1 = 0 then 0 else 1) else used) +
    (if view.contains pgXLAT && m.part = p then m.newNodes s root else 0)

end Sys2Proof.Machine
end

