-- ==== Sys2Proof/Machine/Checks.lean ====
section
/-! DEFINITION. What a commit checks, page by page (R163, R165, R183, R189, R199 to R205, R241, R257, R303, R306, R320,
R374, R411, R419, R425, R442, R444, R445, R458 to R460). A check sees the shadow of the pages of the commit and the
values in effect of all others. -/

namespace Sys2Proof.Machine

open Sys2Proof

/-- A failing field: offset, `COMMITSTAT.INDEX`, `STATUS`. -/
structure Bad where
  off    : Nat
  index  : Nat
  status : Nat
  deriving DecidableEq, Repr

/-- A conflict that names a field where a condition holds. -/
def conflict (off index : Nat) (b : Bool) : List Bad := if b then [{ off := off, index := index, status := stCONFLICT }] else []

/-- The failing field with the lowest offset (R436), of the lowest index where several share it. -/
def lowestBad (bs : List Bad) : Option Bad :=
  bs.foldl (fun acc b =>
    match acc with
    | none => some b
    | some a => if b.off < a.off || b.off = a.off && b.index < a.index then some b else some a) none

/-! ## Pages without addresses -/

/-- `CALU` (R425): listed words that are no trim. -/
def caluBad (s : State) : List Bad :=
  (pageWords s.shadow pgCALU).flatMap fun e =>
    let off := e.1 % 0x1000
    let i := (off - 0x140) / 16
    let wrong (x : Nat) : Bool :=
      field x 9 6 != 0 ||
        bitOf x 15 && (decide (259 < field x 0 9) || decide (capCH s ≤ i / 16) || decide (capARY s ≤ i / 4 % 4))
    conflict off 0 (offIn off 0x140 0x93F && (wrong (e.2.toNat % 2 ^ 16) || wrong (e.2.toNat / 2 ^ 16)))

/-- The table that the shadow of `WBT` holds. -/
def shadowTable (s : State) : WbTable :=
  { period := BitVec.ofNat 32 (shadowW s pgWBT 0x100), count := BitVec.ofNat 32 (shadowW s pgWBT 0x104), entries := s.wbt.shadow }

/-- The first slot whose end passes the next slot or the period (R303). -/
def slotOverlap (t : WbTable) : Option Nat :=
  let n := min (tabCount t) 512
  (List.range n).find? fun i =>
    let stop := tabWord t i 0 + tabWord t i 1
    decide (t.period.toNat < stop) || decide (i + 1 < n) && decide (tabWord t (i + 1) 0 < stop)

/-- `WBT` (R303). -/
def wbtBad (s : State) : List Bad :=
  let t := shadowTable s
  conflict 0x100 0 (t.period == 0 && tabCount t != 0) ++ conflict 0x104 0 (decide (512 < tabCount t)) ++
    conflict 0x110 0 (slotOverlap t).isSome ++
    conflict 0x11C 0 (t.entries.any fun e => e.1 % 4 == 3 && decide (2 ^ 30 ≤ e.2.toNat)) ++ conflict 0xF0C 0 s.wbt.next.isSome

/-- `PWR` (R320). -/
def pwrBad (s : State) (v : List Nat) : List Bad :=
  let w (off : Nat) : Nat := seen s v pgPWR off
  let lim := field (w 0x110) 0 12
  conflict 0x100 0 (field (w 0x100) 1 2 == 3) ++ conflict 0x10C 0 (bitOf (w 0x100) 0 && w 0x10C == 0) ++
    conflict 0x110 0 (decide (lim < field (w 0x110) 12 4 * 16) || decide (field (w 0x110) 16 12 ≤ lim)) ++
    conflict 0x114 0 (decide (w 0x118 < w 0x114)) ++ conflict 0x118 0 (decide (w 0x11C < w 0x118))

/-- `STRM` (R257). -/
def strmBad (s : State) (v : List Nat) : List Bad :=
  allParts.flatMap fun p =>
    let poll := 0x180 + 0x100 * p
    conflict poll p (seen s v pgSTRM poll == 0 || partArmed s p && changes s v pgSTRM poll) ++
      allStrms.flatMap fun st =>
        let base := 0x100 + 0x100 * p + 0x20 * st.num
        let size := seen s v pgSTRM (base + 0x10)
        let ok (k : Nat) : Bool := decide (4 ≤ k) && decide (k ≤ 16)
        conflict (base + 0x10) p (!(ok (field size 0 8)) || !(ok (field size 8 8))) ++
          (List.range 6).flatMap fun k => conflict (base + 4 * k) p (armed s p st && changes s v pgSTRM (base + 4 * k))

/-- `STORE` (R183, R189). -/
def storeBad (s : State) (v : List Nat) : List Bad :=
  let wheel := seen s v pgSTORE 0x100
  let slots := (List.range 16).map fun i => field wheel (2 * i) 2
  let period := seen s v pgSTORE 0x104
  conflict 0x100 0 (slots.count 0 == 0 || slots.count 1 == 0 || decide (slots.count 2 < 2) || slots.contains 3 ||
    anyArmed s && changes s v pgSTORE 0x100) ++
    conflict 0x104 0 (period == 0 || decide (1440 < period))

/-! ## Partitions -/

/-- Pairs on the live channels of a mask (R306). -/
def livePairs (s : State) (mask : Nat) : Nat :=
  (((bitsOf 8 mask).filter (chBit s)).map fun n => rolePairs (chan s n).role).foldl (· + ·) 0

/-- The first unmet `NEED` field of a partition (R306). -/
def needUnmet (s : State) (v : List Nat) (p : Nat) : Bool :=
  let f (k : Nat) : Nat := partField s v p k
  let need := f 6
  let rp := f 2 + f 3 * 2 ^ 32
  decide (((bitsOf 8 (f 0)).filter (chBit s)).length < field need 0 4) || decide (livePairs s (f 0) < field need 4 5) ||
    decide (((bitsOf 32 (f 1)).filter (fabLive s)).length < field need 9 6) ||
    decide (((bitsOf 64 rp).filter (remPresent s)).length < field need 15 7)

/-- Two inclusive ranges meet. -/
def insideMeet (a b c d : Nat) : Bool := decide (a ≤ d) && decide (c ≤ b)

/-- What one partition that is loaded after a commit of `PART` fails by itself. -/
def partOwnBad (s : State) (v : List Nat) (p : Nat) : List Bad :=
  let off (k : Nat) : Nat := 0x200 + 0x20 * p + 4 * k
  let f (k : Nat) : Nat := partField s v p k
  let st := f 4
  let mt := f 5
  let was := partLoad s p
  conflict (off 0) p (decide (2 ^ capCH s ≤ f 0)) ++
    conflict (off 2) p (decide (2 ^ capRP s ≤ f 2)) ++
    conflict (off 3) p (decide (2 ^ capRP s ≤ f 3 * 2 ^ 32)) ++
    conflict (off 4) p (field st 22 8 != 0 && (decide (2 ^ capCH s ≤ field st 22 8) || decide (field st 11 11 < field st 0 11))) ++
    conflict (off 5) p (field mt 0 16 != 0 &&
      (decide (2 ^ capMT s ≤ field mt 0 16) || decide (field mt 22 6 < field mt 16 6) ||
        (bitsOf 16 (field mt 0 16)).any fun q => decide (usableSeen s v q < (field mt 22 6 + 1) * 1024))) ++
    ((List.range 7).flatMap fun k => conflict (off k) p (was && changes s v pgPART (off k))) ++
    (if !was && needUnmet s v p then [{ off := off 6, index := p, status := stREFUSED }] else [])

/-- What two loaded partitions own in common, named for the lower one. -/
def partPairBad (s : State) (v : List Nat) (a b : Nat) : List Bad :=
  let off (k : Nat) : Nat := 0x200 + 0x20 * a + 4 * k
  let x (k : Nat) : Nat := partField s v a k
  let y (k : Nat) : Nat := partField s v b k
  ((List.range 4).flatMap fun k => conflict (off k) a (x k &&& y k != 0)) ++
    conflict (off 4) a (field (x 4) 22 8 &&& field (y 4) 22 8 != 0 &&
      insideMeet (field (x 4) 0 11) (field (x 4) 11 11) (field (y 4) 0 11) (field (y 4) 11 11)) ++
    conflict (off 5) a (field (x 5) 0 16 &&& field (y 5) 0 16 != 0 &&
      insideMeet (field (x 5) 16 6) (field (x 5) 22 6) (field (y 5) 16 6) (field (y 5) 22 6))

/-- Whether the table area of a partition meets another partition's table area or owned store (R200). -/
def areaMeets (s : State) (v : List Nat) (p : Nat) : Bool :=
  let others := (allParts.filter fun q => q != p).flatMap fun q => areaSpan s v q :: ownedSpans s v q
  others.any (spanMeets (areaSpan s v p))

/-- `PART` (R306, R419); a commit of `PART` alone is refused too where it would let owned store overlap a table area
(R200). -/
def partBad (s : State) (v : List Nat) : List Bad :=
  let on := allParts.filter (loadSeen s v)
  conflict 0x104 0 (changes s v pgPART 0x104 && anyArmed s) ++
    (allParts.flatMap fun p =>
      let now := loadSeen s v p
      let was := partLoad s p
      conflict 0x100 p (was && !now && (partArmed s p || allStrms.any fun st => !((strm s p st).cmds.isEmpty)) ||
        now && !was && !s.initStore)) ++
    (on.flatMap (partOwnBad s v)) ++
    (if v.contains pgXLAT then [] else allParts.flatMap fun p => conflict (0x200 + 0x40 * p) p (areaMeets s v p)) ++
    on.flatMap fun a => (on.filter fun b => decide (a < b)).flatMap (partPairBad s v a)

/-! ## Translation -/

/-- Table areas (R200, R445). -/
def areaBad (s : State) (v : List Nat) (p : Nat) : List Bad :=
  let base := 0x200 + 0x40 * p
  let frozen := partArmed s p || poolField s [] p 4 != 0 || slowFrames s [] p != 0
  conflict base p (frozen && changes s v pgXLAT base ||
    (areaChanges s v p || v.contains pgPART) && areaMeets s v p) ++
    conflict (base + 4) p (frozen && changes s v pgXLAT (base + 4))

/-- Fabric windows (R201): a `LIMIT` has no bit above VA[54], so a window lies in the static region. Dysil windows (R203). -/
def dysilBad (s : State) (v : List Nat) (p : Nat) : List Bad :=
  if !(bitOf (xlatField s v p 6) 0) then []
  else
    let cores := bitsOf 8 (partField s v p 0)
    let window (c : Nat) : Span := (xlatField s v p (8 + c) * 512, 0x60000)
    conflict (0x218 + 0x40 * p) p ((leavesSeen s v p).any fun e => decide (e.1 < 512)) ++
      cores.zipIdx.flatMap fun (ch, c) =>
        conflict (0x220 + 0x40 * p + 4 * c) p
          (xlatField s v p (8 + c) % 64 != 0 || sliceOf (window c).1 != ch ||
            decide ((ch + 1) * Config.sliceBytes < (window c).1 + (window c).2) || !(ownedStore s v p (window c)) ||
            allParts.any fun q => spanMeets (window c) (areaSpan s v q))

/-- Whether a span of a mapping lies in a table area, a frame region or a lost slice, or outside what the partition
owns (R199). -/
def mapSpanBad (s : State) (v : List Nat) (p : Nat) (r : Span) : Bool :=
  !(ownedWhole s v p r) ||
    (allParts.any fun q => spanMeets r (areaSpan s v q) || (frameSpans s v q).any (spanMeets r)) ||
    (List.range 8).any fun n => (slice s n).lost && spanMeets r (n * Config.sliceBytes, Config.sliceBytes)

/-- Map fields (R191, R199, R442, R444). DESIGN CHOICE (log 78): a `MAP_COUNT` above 2²⁰ is refused and named, and the
checks on its granules are left out. -/
def mapBad (s : State) (v : List Nat) : List Bad :=
  let m := mapReq s v
  let p := m.part
  if m.count = 0 then []
  else
    let high := decide (2 ^ 40 ≤ m.vg)
    let root := if areaChanges s v p then none else staticRoot s p
    let long := decide (2 ^ 20 < m.count)
    conflict 0x104 0 high ++ conflict 0x110 0 (!high && (long || decide (2 ^ 40 < m.vg + m.count))) ++
      conflict 0x114 0 (!(loadSeen s v p) || !long && partArmed s p && m.touched (leavesSeen s v p)) ++
      conflict 0x118 0 (m.stripe && (m.slices == 0 || !m.unmap && (!(isStore m.pa) || decide (capCH s < sliceOf m.pa + m.slices)))) ++
      conflict (if isHost m.pa then 0x10C else 0x108) 0
        (!m.unmap && !long && (m.spans.any (mapSpanBad s v p))) ++
      conflict (0x204 + 0x40 * p) p
        (!m.unmap && !long && decide (xlatField s v p 1 < nodesAfter s v p (pool s p).nodes.length) &&
          decide (0 < m.newNodes s root))

/-- `XLAT` (R199 to R203, R442, R444, R445). -/
def xlatBad (s : State) (v : List Nat) : List Bad :=
  (allParts.flatMap fun p => areaBad s v p ++ dysilBad s v p) ++ mapBad s v

/-! ## Pools -/

/-- Whether a sequence of a partition is not `CLOSED` or a command of it holds a pin (R205). -/
def poolInUse (s : State) (p : Nat) : Bool :=
  !((pool s p).pins.isEmpty) ||
    hasPool s p &&
      match peekM s (readCtx s p) (liveSeqs (pool s p).root) with
      | some qs => !(qs.isEmpty)
      | none => true

/-- The words of Table 09-1 that software writes, which R205 checks where the partition has store frames, in the shadow or
in effect, and those of Table 10-2 (R241). -/
def poolWords (s : State) (v : List Nat) (p : Nat) : List Nat :=
  (if (shapeOf s v p).frames = 0 && (shapeOf s [] p).frames = 0 then [] else [0, 1, 2, 3, 4, 5, 6]) ++ [8, 9, 10, 11, 12, 13, 14]

/-- Fields that would change while the pool is in use (R205, R241). -/
def poolFrozen (s : State) (v : List Nat) (p : Nat) : List Bad :=
  let off (k : Nat) : Nat := 0x200 + 0x40 * p + 4 * k
  let moved := (poolWords s v p).filter fun k => changes s v pgPOOL (off k)
  let mode := field (seen s v pgPOOL 0x100) (2 * p) 2 != field (eff s pgPOOL 0x100) (2 * p) 2
  if (mode || !(moved.isEmpty)) && poolInUse s p then
    conflict 0x100 p mode ++ moved.flatMap fun k => conflict (off k) p true
  else []

/-- Granules of the frame table of a partition (R227). -/
def frameTabSize (s : State) (v : List Nat) (p : Nat) : Nat := ceilDiv ((shapeOf s v p).frames + slowFrames s v p) 4096

/-- The rules of R205 on a store region. -/
def storeRegionBad (s : State) (v : List Nat) (p : Nat) : Bool :=
  let r := storeRegion s v p
  r.2 != 0 &&
    ((shapeOf s v p).base % (shapeOf s v p).fg != 0 || !(ownedStore s v p r) ||
      (allParts.any fun q => spanMeets r (areaSpan s v q) || q != p && spanMeets r (storeRegion s v q)) ||
      leafIn (leavesSeen s v p) r)

/-- The rules of R241 on slow-tier frames whose ports are all right. -/
def slowRegionBad (s : State) (v : List Nat) (p : Nat) : Bool :=
  (slowRegions s v p).any fun r =>
    decide (usableSeen s v (portOf r.1) * 2 ^ 20 < (r.1 - Config.slowBase) % Config.slowPortBytes + r.2) ||
      allParts.any fun q => q != p && (slowRegions s v q).any (spanMeets r) || leafIn (leavesSeen s v q) r

/-- Rules of R205 and R241 on the fields themselves: shape, formats, size, region and table room are checked where
the shadow `FRAMES` is nonzero. -/
def poolRules (s : State) (v : List Nat) (p : Nat) : List Bad :=
  let off (k : Nat) : Nat := 0x200 + 0x40 * p + 4 * k
  let h := shapeOf s v p
  let slow := slowFrames s v p
  let mask := field (poolField s v p 9) 16 16
  let parkEnd := parkBase s v p + parkSlots s v p * parkSlotG s v p * Config.granule
  let maskBad := slow != 0 && (capMT s == 0 || mask == 0 || !(loadSeen s v p) ||
    (bitsOf 16 mask).any fun q => !(bitOf (partField s v p 5) q) || !(portLive s q))
  (if h.frames = 0 then [] else
    conflict (off 0) p (h.hdim == 0 || decide (128 < h.hdim) || !(isArrayFmt h.fmtK) || !(isArrayFmt h.fmtV) || !(isArrayFmt h.fmtSum)) ++
      conflict (off 1) p (h.hkv == 0 || h.layers == 0 || decide (256 < h.layers)) ++
      conflict (off 2) p (h.maxPg == 0 || decide (4096 < h.maxPg) ||
        decide (2 ^ 39 < h.maxPg * h.layers * h.hkv * h.bytes)) ++
      conflict (off 3) p (storeRegionBad s v p) ++
      conflict (0x204 + 0x40 * p) p
        (decide (xlatField s v p 1 < nodesAfter s v p (staticNodes s p).length + frameTabSize s v p))) ++
    conflict (off 11) p (decide (2 ^ 20 < h.frames + slow)) ++
    conflict (off 9) p maskBad ++
    conflict (off 10) p (!maskBad && slowRegionBad s v p) ++
    conflict 0x100 p (field (seen s v pgPOOL 0x100) (2 * p) 2 == 3) ++
    conflict (off 8) p (capEVS s && field (poolField s v p 8) 0 16 == 0) ++
    conflict (off 9) p (field (poolField s v p 9) 0 8 == 0) ++
    conflict (off 13) p (parkSlots s v p != 0 && decide (2 ^ 55 < parkEnd)) ++
    conflict (off 14) p (parkSlots s v p != 0 && parkSlotG s v p == 0)

/-- `POOL` (R205, R241). -/
def poolBad (s : State) (v : List Nat) : List Bad := allParts.flatMap fun p => poolFrozen s v p ++ poolRules s v p

/-! ## Tables, mirror, images -/

/-- The user table of a function in the shadow, 256 bytes. -/
def userTable (s : State) (v : List Nat) (f : Nat) : List Byte :=
  fitBytes 256 ((List.range 35).flatMap fun k => leBytes 4 (seen s v pgFTAB (0x100 + 0x100 * f + 4 * k)))

/-- Functions whose user table is selected. -/
def userSel (s : State) (v : List Nat) : List Nat := (bitsOf 8 (seen s v pgFTAB 0x900)).filter fun f => f != 3

/-- Whether a commit of `FTAB` makes a new generation (R164). -/
def makesGen (s : State) (v : List Nat) : Bool :=
  changes s v pgFTAB 0x900 ||
    (userSel s v).any fun f => (List.range 35).any fun k => changes s v pgFTAB (0x100 + 0x100 * f + 4 * k)

/-- `FTAB` (R163, R165). -/
def ftabBad (s : State) (v : List Nat) : List Bad :=
  ((userSel s v).flatMap fun f =>
    if tableOk f (userTable s v f) then [] else [{ off := 0x100 + 0x100 * f, index := f, status := stTABLE }]) ++
    conflict 0xF00 0 (makesGen s v && switchPend s)

/-- `MIR` (R374). -/
def mirBad (s : State) (v : List Nat) : List Bad :=
  let w (off : Nat) : Nat := seen s v pgMIR off
  conflict 0x114 0 (decide (2 ^ 40 < w 0x10C + w 0x110 * 2 ^ 32 + w 0x114)) ++
    conflict 0x118 0 (decide (2 ^ 40 < w 0x118 + w 0x110 * 2 ^ 32 + 32)) ++
    [0x104, 0x108, 0x10C, 0x110, 0x114, 0x118].flatMap fun off =>
      conflict off 0 (!(s.segments.isEmpty) && changes s v pgMIR off)

/-- `SNAP` (R411, Table 15-10); a restore has checks of its own (R409). -/
def snapBad (s : State) (v : List Nat) : List Bad :=
  conflict 0x10C 0 (allParts.any fun p =>
    field (seen s v pgSNAP 0x10C) (2 * p) 2 != field (eff s pgSNAP 0x10C) (2 * p) 2 && partArmed s p) ++
    allParts.flatMap fun p =>
      let k := seen s v pgSNAP (0x208 + 0x10 * p)
      conflict (0x208 + 0x10 * p) p (decide (k < 4) || decide (20 < k))

/-! ## Ports -/

/-- Whether a `DEV` word describes a device of Table 13-6, or none. -/
def devOk (dev : Nat) : Bool :=
  let height := field dev 2 2
  let rate := field dev 8 7
  height != 3 &&
    match field dev 0 2 with
    | 0 => true
    | 1 => height != 2 && !(bitOf dev 4) && decide (32 ≤ rate) && decide (rate ≤ 96)
    | 2 => decide (32 ≤ rate) && decide (rate ≤ 78)
    | _ => false

/-- Whether a frame on a port is `LIVE` or `RESERVED`, or a static leaf maps the port (R400). -/
def portInUse (s : State) (q : Nat) : Bool :=
  let port : Span := (Config.slowBase + q * Config.slowPortBytes, Config.slowPortBytes)
  allParts.any fun p =>
    leafIn (staticLeaves s p) port ||
      hasPool s p && (List.range (slowFrames s [] p)).any fun i =>
        let f := (shapeOf s [] p).frames + i
        portOf (frameAddr s [] p f) == q &&
          let st := field (leNat (memBytes s.mem (frameRecAt s p f) 8)) 60 4
          st == frLIVE || st == frRESERVED

/-- `MEMPq` (R335, R391, R400, R458). -/
def mempBad (s : State) (v : List Nat) (q : Nat) : List Bad :=
  let pg := pgMEMP q
  let held := (slowP s q).retired || allParts.any fun p => loadSeen s v p && bitOf (partField s v p 5) q
  let rises (i : Nat) : Bool := bitOf (seen s v pg 0x104) i && !(bitOf (eff s pg 0x104) i)
  conflict 0x100 0 (!(devOk (seen s v pg 0x100)) || held && changes s v pg 0x100) ++
    conflict 0x104 0 (rises 0 && !((slowP s q).ready) || rises 1 && portInUse s q ||
      bitOf (eff s pg 0x104) 1 && !(bitOf (seen s v pg 0x104) 1)) ++
    conflict 0x108 0 (held && changes s v pg 0x108)

/-- `RPG` (R459). -/
def rpgBad (s : State) (v : List Nat) : List Bad :=
  let remote (c : Cmd) : Bool := [opRING, opRED, opMIRROR, opMOLT].contains c.op && c.begun
  conflict 0x100 0 (changes s v pgRPG 0x100 && allParts.any fun p => allStrms.any fun st => (strm s p st).cmds.any remote)

/-- `FAB` (R460). -/
def fabBad (s : State) (v : List Nat) : List Bad :=
  conflict 0x104 0 ((bitsOf 32 (eff s pgFAB 0x104)).any fun f => !(bitOf (seen s v pgFAB 0x104) f))

/-! ## All pages -/

/-- What a page fails in a commit of the pages `v`. -/
def pageBad (s : State) (v : List Nat) (pg : Nat) : List Bad :=
  if pg = pgCALU then caluBad s
  else if pg = pgWBT then wbtBad s
  else if pg = pgPWR then pwrBad s v
  else if pg = pgPART then partBad s v
  else if pg = pgSTRM then strmBad s v
  else if pg = pgSTORE then storeBad s v
  else if pg = pgXLAT then xlatBad s v
  else if pg = pgPOOL then poolBad s v
  else if pg = pgFTAB then ftabBad s v
  else if pg = pgMIR then mirBad s v
  else if pg = pgSNAP then snapBad s v
  else if offIn pg 0x10 0x1F then mempBad s v (pg - 0x10)
  else if pg = pgRPG then rpgBad s v
  else if pg = pgFAB then fabBad s v
  else []

/-- Whether the shadow of a page holds the values in effect. -/
def pageClean (s : State) (pg : Nat) : Bool := pageWords s.shadow pg == pageWords s.effect pg

/-- The first failing field of a commit of the pages `v`: the lowest page, then the lowest offset (R436, R438). A commit
whose shadows are the values in effect passes; a wingbeat table always meets R303. -/
def commitBad (s : State) (v : List Nat) : Option (Nat × Bad) :=
  if v.all fun pg => pageClean s pg && pg != pgWBT then none
  else v.findSome? fun pg => (lowestBad (pageBad s v pg)).map fun b => (pg, b)

end Sys2Proof.Machine
end

