-- ==== Sys2Proof/Machine/Follow.lean ====
section
/-! DEFINITION. What the switch of a commit starts, page by page (R164, R199, R205, R227, R257, R303, R307, R310, R401,
R428, R445, R446, R450, R458): work on table areas, static leaves, pools, function banks, streams and ports. -/

namespace Sys2Proof.Machine

open Sys2Proof

/-! ## Table areas and static leaves -/

/-- Write zero into every present row of a span; its rows carry fresh code. -/
def zeroSpan (s : State) (r : Span) : State :=
  (cutSlices r).foldl (fun s x =>
    if !(present s x.1) then s
    else
      let s := touchRows s 0xFF x.1 x.2 true
      let mine (row : Nat) : Bool := decide (x.1 ≤ row) && decide (row < x.1 + x.2)
      let rows := ((s.rowErr.map (·.1) ++ s.reported ++ (rowMem s x.1).queue.map (·.1)).filter mine).eraseDups
      rows.foldl (fun s row => wroteRow s row) { s with mem := memClear s.mem x.1 x.2 }) s

/-- A changed table area is zeroed: granule 0 is an empty static root (R445). -/
def areaReset (s : State) (p : Nat) : State :=
  let s := zeroSpan s (areaSpan s [] p)
  updPool s p fun _ => { Pool.none with nodes := (staticRoot s p).toList }

/-- An entry of a node as XLAT reads it (R188): `none` where its row is uncorrectable or its slice is lost. -/
def nodeEntry (s : State) (g i : Nat) : State × Option Nat :=
  match tabRead s (Who.block 0) (g * Config.granule + 8 * i) 8 with
  | (s, .ok bs) => (s, some (leNat bs))
  | (s, .error _) => (s, none)

/-- Write an entry of a node. -/
def putEntry (s : State) (g i e : Nat) : State := (rowsWrite s (Who.block 0) (g * Config.granule + 8 * i) (leBytes 8 e)).1

/-- The leaf table on the way to a virtual granule, `k` levels below `g`, made where it is missing and `make` asks for it
(R199). -/
def leafTable (p : Nat) (make : Bool) (vg : Nat) : Nat → State → Nat → State × Option Nat
  | 0, s, g => (s, some g)
  | k + 1, s, g =>
    let i := vaIndex (vg * Config.granule) (2 - k)
    match nodeEntry s g i with
    | (s, none) => (s, none)
    | (s, some e) =>
      if entryValid (2 - k) e then leafTable p make vg k s (entryPa e / Config.granule)
      else
        match if make then takeGranule s p else none with
        | none => (s, none)
        | some (s, n) =>
          let s := zeroSpan s (n * Config.granule, Config.granule)
          leafTable p make vg k (putEntry s g i (1 + n * Config.granule)) n

/-- Map or unmap the granules of one leaf table. -/
def mapPiece (s : State) (m : MapReq) (vg n : Nat) : State :=
  match staticRoot s m.part with
  | none => s
  | some root =>
    match leafTable m.part (!m.unmap) vg 3 s root with
    | (s, none) => s
    | (s, some g) =>
      (rowsWrite s (Who.block 0) (g * Config.granule + 8 * (vg % 4096))
        (if m.unmap then zeroBytes (8 * n) else (List.range n).flatMap fun i => leBytes 8 (m.leaf (vg - m.vg + i)))).1

/-- The map fields apply (R199). -/
def applyMapFields (s : State) (m : MapReq) : State :=
  (cutRange 4096 (m.count / 4096 + 2) m.vg m.count).foldl (fun s x => mapPiece s m x.1 x.2) s

/-- The follow-on of `XLAT`: changed areas, then the map fields; `MAP_COUNT` is zero after it (R444, R445). -/
def xlatFollow (s0 : State) (v : List Nat) (s : State) : State :=
  let s := allParts.foldl (fun s p => if areaChanges s0 v p then areaReset s p else s) s
  let s := applyMapFields s (mapReq s0 v)
  setEff (setShadow s pgXLAT 0x110 0) pgXLAT 0x110 0

/-! ## Pools -/

/-- Frame records of a frame table's granule `k`: every frame free, in ascending lists of store and slow-tier frames
(R227, R446). -/
def freeRecords (frames slow k : Nat) : List Byte :=
  (List.range 4096).flatMap fun i =>
    let f := 4096 * k + i
    leBytes 8 (if f + 1 < frames || frames ≤ f && f + 1 < frames + slow then f + 1 else 0)

/-- Take `n` granules of a table area. -/
def takeGranules (p : Nat) : Nat → State → State × List Nat
  | 0, s => (s, [])
  | n + 1, s =>
    match takeGranule s p with
    | none => (s, [])
    | some (s, g) => let (s, gs) := takeGranules p n s; (s, g :: gs)

/-- Whether a slice that a table area meets is lost (R399). -/
def areaLost (s : State) (p : Nat) : Bool :=
  (List.range 8).any fun n => (slice s n).lost && tableMeets s p (n * Config.sliceBytes) Config.sliceBytes

/-- A partition's pool as its fields in effect make it: free frames alone, every sequence `CLOSED`, instar 1 (R446). -/
def poolInit (s : State) (p : Nat) : State :=
  let statics := staticNodes s p
  let s := updPool s p fun _ => { Pool.none with nodes := statics }
  let frames := (shapeOf s [] p).frames
  let slow := slowFrames s [] p
  if frames = 0 && slow = 0 then s
  else
    let (s, tab) := takeGranules p (frameTabSize s [] p) s
    let s := tab.zipIdx.foldl (fun s (g, k) =>
      (rowsWrite s (Who.block 0) (g * Config.granule) (fitBytes Config.granule (freeRecords frames slow k))).1) s
    let (s, root) :=
      match takeGranule s p with
      | none => (s, noRoot)
      | some (s, root) =>
        ((rowsWrite (zeroSpan s (root * Config.granule, Config.granule)) (Who.block 0)
          (root * Config.granule + 8 * 32) (leBytes 8 1)).1, root)
    let lost := areaLost s p
    updPool s p fun x =>
      { x with
        root := root
        instar := 1
        frameTab := tab
        free := List.range frames
        slowFree := (List.range slow).map (· + frames)
        lost := lost }

/-- Whether a commit changes a partition's frame region or its slow-tier frames (R446). A region of no frames lies nowhere. -/
def poolMoves (s0 : State) (v : List Nat) (p : Nat) : Bool :=
  (shapeOf s0 v p).frames != (shapeOf s0 [] p).frames || slowFrames s0 v p != slowFrames s0 [] p ||
    (shapeOf s0 v p).frames != 0 && storeRegion s0 v p != storeRegion s0 [] p ||
    slowFrames s0 v p != 0 && slowRegions s0 v p != slowRegions s0 [] p

/-- The follow-on of `POOL`: the instar is 1 also where the pool is gone. -/
def poolFollow (s0 : State) (v : List Nat) (s : State) : State :=
  allParts.foldl (fun s p =>
    if poolMoves s0 v p then updPool (poolInit s p) p fun x => { x with instar := 1 } else s) s

/-- Loading and unloading of partitions (R307). -/
def partFollow (s0 : State) (v : List Nat) (s : State) : State :=
  allParts.foldl (fun s p =>
    let was := partLoad s0 p
    let now := loadSeen s0 v p
    if was == now then s
    else
      let s := updPart s p fun x => { x with counters := [], slots := [], advisor := [], swarms := [] }
      if now && !(areaChanges s0 v p) then poolInit s p
      else updPool s p fun x => { Pool.none with nodes := if areaChanges s0 v p then x.nodes else staticNodes s p }) s

/-! ## Other pages -/

/-- The loads of a commit that changes `STAMP0` (R257). -/
def strmFollow (s0 : State) (v : List Nat) (s : State) : State :=
  allParts.foldl (fun s p => allStrms.foldl (fun s st =>
    if changes s0 v pgSTRM (0x114 + 0x100 * p + 0x20 * st.num) then
      let t := BitVec.ofNat 32 (strmField s [] p st.num 5)
      updStrm s p st fun x => { x with next := t, low := t, cseq := 0, chead := 0, doneSet := [] }
    else s) s) s

/-- The next generation goes into the inactive bank of every present channel (R164). -/
def ftabWrite (s : State) : State :=
  let g := curGen s + 1
  (List.range (capCH s)).foldl (fun s ch =>
    updChan s ch fun x =>
      if x.bank % 2 = 0 then { x with bank := 2, gen1 := g } else { x with bank := 3, gen0 := g }) s

/-- The tables that `FTAB` in effect selects, as a generation. -/
def newGen (s : State) : TableGen :=
  let sel := userSel s []
  { gen := curGen s + 1, sel := eff s pgFTAB 0x900,
    tables := [0, 1, 2, 4, 5, 6, 7].filterMap fun f =>
      if sel.contains f then some (f, tableOfImage (userTable s [] f))
      else (factoryTables.find? fun e => e.1 == f) }

/-- The generation that is being written becomes current (R164). -/
def ftabCurrent (s : State) : State :=
  if !((List.range (capCH s)).any fun ch => 2 ≤ (chan s ch).bank) then s
  else
    let g := newGen s
    let s := { s with gens := (s.gens.filter fun x => x.gen == curGen s) ++ [g] }
    (List.range (capCH s)).foldl (fun s ch =>
      updChan s ch fun x => if 2 ≤ x.bank then { x with bank := 1 - x.bank % 2 } else x) s

/-- The follow-on of `PWR`: the budget level starts; the point is chosen from the first tick after the first commit on
(R310, R318, R421). -/
def pwrFollow (s0 : State) (s : State) : State :=
  let s := if !(bitOf (eff s0 pgPWR 0x100) 0) && bitOf (eff s pgPWR 0x100) 0 then
      { s with gov := { s.gov with level := (eff s pgPWR 0x10C : Nat) } } else s
  if s.gov.committed then govChoose s else { s with gov := { s.gov with committed := true } }

/-- Fabric ports that a commit newly retires. -/
def newRetired (s0 : State) (v : List Nat) : List Nat :=
  (bitsOf 32 (seen s0 v pgFAB 0x104)).filter fun f => !(bitOf (eff s0 pgFAB 0x104) f)

/-- The switch of `MEMPq` (R400, R458). -/
def mempFollow (s0 : State) (v : List Nat) (q : Nat) (s : State) : State :=
  let pg := pgMEMP q
  let dev := changes s0 v pg 0x100
  let down (s : State) : State :=
    updSlow s q fun x => { x with ready := false, training := false, filling := false }
  let s :=
    if devType s q = 0 then (if dev then down s else s)
    else if dev || (slowP s q).lost then bringUp (updSlow (down s) q fun x => { x with lost := false }) q
    else s
  let was (i : Nat) : Bool := bitOf (eff s0 pg 0x104) i
  let now (i : Nat) : Bool := bitOf (eff s pg 0x104) i
  let s :=
    if now 0 && !(was 0) then updSlow s q fun x => { x with draining := true, moved := 0, drained := false }
    else if was 0 && !(now 0) then updSlow s q fun x => { x with draining := false } else s
  if now 1 && !(was 1) then
    updSlow s q fun x =>
      { x with retired := true, ready := false, inLive := false, draining := false, training := false, filling := false }
  else s

/-- The switch of `CHn.ARY` (R75, R450, R452). -/
def aryFollow (s0 : State) (v : List Nat) (n : Nat) (s : State) : State :=
  let pg := pgARY n
  let s := if changes s0 v pg 0x100 then (if seen s0 v pg 0x100 = 1 then svcOut s n else svcBack s n) else s
  if changes s0 v pg 0x104 then boundary s n else s

/-- What the switch of a page starts; `s0` is the state before the switch, `v` the pages of the commit. -/
def pageFollow (s0 : State) (v : List Nat) (s : State) (pg : Nat) : State :=
  if pg = pgCALU then boundaries s
  else if pg = pgWBT then { s with wbt := { s.wbt with next := some (shadowTable s0) } }
  else if pg = pgPWR then pwrFollow s0 s
  else if pg = pgPART then partFollow s0 v s
  else if pg = pgSTRM then strmFollow s0 v s
  else if pg = pgXLAT then xlatFollow s0 v s
  else if pg = pgPOOL then poolFollow s0 v s
  else if pg = pgFTAB then if makesGen s0 v then ftabWrite s else s
  else if offIn pg 0x10 0x1F then mempFollow s0 v (pg - 0x10) s
  else if pg = pgFAB then (newRetired s0 v).foldl (fun s f => updFab s f fun x => { x with live := false }) s
  else if isChanPage pg && pg % 4 = 0 then aryFollow s0 v (pgChan pg) s
  else s

/-- Whether the follow-on of a page takes time, so that the commit stays in progress until COMMIT_FOLLOW_ON_END. -/
def hasFollow (s0 : State) (v : List Nat) (pg : Nat) : Bool :=
  if pg = pgSTRM then
    allParts.any fun p => allStrms.any fun st => changes s0 v pgSTRM (0x114 + 0x100 * p + 0x20 * st.num)
  else if pg = pgXLAT then (mapReq s0 v).count != 0 || allParts.any (areaChanges s0 v)
  else if pg = pgPOOL then allParts.any (poolMoves s0 v)
  else if pg = pgFTAB then makesGen s0 v
  else if offIn pg 0x10 0x1F then
    field (seen s0 v pg 0x100) 0 2 != 0 && (changes s0 v pg 0x100 || (slowP s0 (pg - 0x10)).lost)
  else false

end Sys2Proof.Machine
end

