-- ==== Sys2Proof/Machine/Snap.lean ====
section
/-! DEFINITION. `snap`: the chrysalis image of a partition (R403 to R408, Tables 15-6 to 15-8). -/

namespace Sys2Proof.Machine

open Sys2Proof

/-! ## Sections -/

/-- Granules of a bitmap of `n` bits. -/
def bitmapGran (n : Nat) : Nat := ceilDiv n 262144

/-- A bitmap of the listed numbers, filled to whole granules. -/
def bitmapOf (n : Nat) (ks : List Nat) : List Byte :=
  leBytes (bitmapGran n * Config.granule) (ks.foldl (fun a k => a ||| 2 ^ k) 0)

/-- Bytes filled to a whole granule. -/
def fillGran (bs : List Byte) : List Byte := fitBytes (roundUp bs.length Config.granule) bs

/-- A word of section 0, as in effect. -/
def effectWord (s : State) (pg off : Nat) : Nat := if rwMask s pg off ≠ 0 then eff s pg off else roWord s pg off

/-- The pages of section 0, in order. -/
def imagePgs : List Nat := [pgPART, pgSTRM, pgXLAT, pgPOOL, pgFTAB, pgCALU]

/-- Section 0: registers and the wingbeat entries in effect. -/
def secRegs (s : State) : List Byte :=
  fillGran ((imagePgs.flatMap fun pg => rwOffsets.flatMap fun off => leBytes 4 (effectWord s pg off)) ++
    (List.range 2048).flatMap fun k => leBytes 4 (wordsGet s.wbt.table.entries k 0).toNat)

/-- Section 1: streams, free work counters and slots, advisor steps. -/
def secSched (s : State) (p : Nat) : List Byte :=
  let one (st : Strm) : List Byte :=
    let x := strm s p st
    leBytes 4 x.next.toNat ++ leBytes 4 x.low.toNat ++ leBytes 4 x.cseq.toNat ++ leBytes 4 x.chead.toNat ++
      leBytes 4 (if x.armed then 1 else 0) ++ zeroBytes 12
  let adv (st : Strm) : List Byte := (List.range 64).map fun k =>
    BitVec.ofNat 8 (assocD (part s p).advisor (64 * st.num + k) 0)
  fillGran (allStrms.flatMap one ++ zeroBytes 1536 ++ allStrms.flatMap adv)

/-- Where an image holds the slots of the parked sequences: record granule, byte in it, slot. The live records hold none
(Table 09-7); the image holds each in bytes 8 and 9 of its record (DESIGN CHOICE, log 83). -/
def parkedMarks : M (List (Nat × Nat × Nat)) := do
  let x ← getP
  x.parked.mapM fun (q, k) => do
    return ((← rootEntry x.root (64 + q / 2048)) / Config.granule, 16 * (q % 2048) + 8, k)

/-- A granule of the tables as an image holds it. -/
def markedGranule (marks : List (Nat × Nat × Nat)) (g : Nat) (bs : List Byte) : List Byte :=
  marks.foldl (fun bs m => if m.1 = g then imgPut bs m.2.1 (leBytes 2 m.2.2) else bs) bs

/-- Section 2: the bitmap of the table area, then every granule in use. -/
def secTables : M (List Byte) := do
  let s ← getS
  let p ← partM
  let used := (← getP).nodes
  let base := xlatField s [] p 0
  let gs ← used.mapM fun g => tabRd (g * Config.granule) Config.granule
  let marks ← parkedMarks
  return bitmapOf (xlatField s [] p 1) (used.map (· - base)) ++
    ((used.zip gs).map fun e => markedGranule marks e.1 e.2).flatten

/-- The frames of a partition that are `LIVE`, ascending. -/
def liveFrames : M (List Nat) := do
  let s ← getS
  let p ← partM
  if !(hasPool s p) then return []
  let n := (shapeOf s [] p).frames + slowFrames s [] p
  let tab ← (pool s p).frameTab.mapM fun g => tabRd (g * Config.granule) Config.granule
  return (List.range n).filter fun f => leAt (tab.getD (f / 4096) []) (8 * (f % 4096)) 8 / 2 ^ 60 == frLIVE

/-- Section 3: the bitmap of `LIVE` frames, then their contents. -/
def secFrames (c : Cmd) : M (List Byte) := do
  if c.get .frames = 0 then return []
  let s ← getS
  let p ← partM
  let h := shapeOf s [] p
  let fs ← liveFrames
  let gs ← fs.mapM fun f => tabRd (frameAddr s [] p f) h.bytes
  return bitmapOf (if hasPool s p then h.frames + slowFrames s [] p else 0) fs ++ gs.flatten

/-- The granules that the first `n` entries of a tensor list cover, in list order. -/
def listGrans (bs : List Byte) (n : Nat) : List Nat :=
  (List.range n).flatMap fun i =>
    let va := leAt bs (16 * i) 7
    let n := leAt bs (16 * i + 8) 5
    if n = 0 then []
    else (List.range ((va + n - 1) / Config.granule - va / Config.granule + 1)).map fun k => va / Config.granule + k

/-- The tensor list and the granules that its entries cover, in list order. -/
def tensorList (c : Cmd) : M (List Byte × List Nat) := do
  if c.get .tens = 0 || c.get .ntens = 0 then return ([], [])
  let bs ← rd (c.get .tens) (16 * c.get .ntens)
  return (bs, listGrans bs (c.get .ntens))

/-- Whether a granule of a tensor is scratch (R190). -/
def isScratch (g : Nat) : M Bool := do
  let r ← get
  let va := g * Config.granule
  match xlate r.s r.ctx va false with
  | (s, .fail cause) => do
    set { r with s := xlFault s r.ctx va cause }
    throw (stABORTED, lastFault (← getS))
  | (s, .ecc e) => do
    set { r with s := s }
    throw (stECC, e)
  | (s, .ok _ leaf) => do
    set { r with s := s }
    return bitOf leaf 2

/-- The places in list order of the granules that are present, with their numbers. -/
def presentOf (gs : List Nat) : M (List (Nat × Nat)) := do
  let ls ← gs.zipIdx.mapM fun (g, i) => do
    if ← isScratch g then return [] else return [(i, g)]
  return ls.flatten

/-- Section 4: the tensor list, its bitmap, the present granules. -/
def secTensors (c : Cmd) : M (List Byte) := do
  let (bs, gs) ← tensorList c
  if bs.isEmpty then return []
  let here ← presentOf gs
  let data ← here.mapM fun e => rd (e.2 * Config.granule) Config.granule
  return fitBytes Config.granule bs ++ bitmapOf gs.length (here.map (·.1)) ++ data.flatten

/-- The granules of an image, header included, counted at issue. -/
def imageSize (c : Cmd) : M Nat := do
  let s ← getS
  let p ← partM
  let h := shapeOf s [] p
  let tabs := bitmapGran (xlatField s [] p 1) + (pool s p).nodes.length
  let frames ← (if c.get .frames = 0 || !(hasPool s p) then return 0 else do
    return bitmapGran (h.frames + slowFrames s [] p) + h.fg * (← liveFrames).length)
  let (bs, gs) ← tensorList c
  let tens ← (if bs.isEmpty then return 0 else do return 1 + bitmapGran gs.length + (← presentOf gs).length)
  return 3 + tabs + frames + tens

/-! ## The header -/

/-- The section directory: first granule, granules, CRC, zero (Table 15-7). -/
def directory (secs : List (List Byte)) : List Byte :=
  (secs.foldl (fun (acc : List Byte × Nat) b =>
    let n := b.length / Config.granule
    (acc.1 ++ leBytes 4 acc.2 ++ leBytes 4 n ++ leBytes 4 (crc32c b) ++ zeroBytes 4, acc.2 + n)) ([], 1)).1

/-- Granule 0 of an image; `granules` is zero while the image is not whole. -/
def imageHeader (s : State) (p : Nat) (c : Cmd) (granules : Nat) (secs : List (List Byte)) : List Byte :=
  fitBytes Config.granule (leBytes 4 Config.version.toNat ++ leBytes 4 1 ++ leBytes 8 (c.get .id) ++ leBytes 4 granules ++
    leBytes 1 p ++ leBytes 1 (c.get .frames) ++ zeroBytes 2 ++ leBytes 8 (c.quiesced.getD s.cad.phase).toNat ++ leBytes 4 s.wbt.gen ++
    zeroBytes 4 ++ leBytes 8 (pool s p).instar ++ zeroBytes 16 ++ directory secs)

/-! ## The command -/

/-- The key of the image among a command's outputs. -/
def imageKey (c : Cmd) : Nat := outField c .img

/-- The refusals of a `snap` (R403). -/
def snapRefs (c : Cmd) : M (List Ref) := do
  let shared := sharedRefs c
  if c.param.length < paramNeed c.op then return shared
  let plain := shared ++ shapeIf (c.get .img % Config.granule != 0) (c.at .img) ++
    shapeIf (decide (2048 < c.get .ntens)) (c.at .ntens)
  if plain.isEmpty then
    let n ← imageSize c
    return shapeIf (decide (c.get .imgG < n)) (c.at .imgG)
  else return plain

/-- The store rows that an image reads and writes (Table 12-6). -/
def snapWork (c : Cmd) : M Work := do
  let n ← imageSize c
  let (_, gs) ← tensorList c
  let r ← get
  let store (va : Nat) : Bool := inStore r.s r.ctx va
  let p ← partM
  let tens := (gs.filter fun g => store (g * Config.granule)).length
  let frames ← (if c.get .frames = 0 then return 0 else do
    return ((← liveFrames).filter fun f => !(isSlowFrame r.s p f)).length * (shapeOf r.s [] p).fg)
  return { b := 0, u := 0, r := 64 * ((pool r.s p).nodes.length + frames + tens)
           w := if store (c.get .img) then 64 * (n + 1) else 0 }

/-- What the issue of a `snap` checks and estimates. -/
def snapPlan (c : Cmd) : M (List Ref × Work) := do
  let rs ← snapRefs c
  if rs.isEmpty then return (rs, ← snapWork c) else return (rs, Work.zero)

/-- A `snap` that no check refuses is issued; held swarms of the partition launch at once (R404). -/
def snapIssued (s : State) (p : Nat) (st : Strm) (c : Cmd) (w : Work) : State :=
  let s := dropHost s (Owner.command (pf p) st c.stamp 0xFF)
  let s := updCmd s p st c.stamp fun c =>
    { c.issued s p with ticks := 0, energy := estimate s w }
  launchAll s p

/-- Issue a `snap`. -/
def issueSnap (s : State) (p : Nat) (st : Strm) (c : Cmd) : State :=
  if c.paramErr != 0 then paramFail s p st c
  else if poolReads s p c && editBefore (strm s p st) c then s
  else
    match (if poolReads s p c then takeCmdPin s p st c else some (s, c)) with
    | none => s
    | some (s, c) =>
      match ranM s (cmdCtx s p st c 0xFF 0) (snapPlan c) with
      | .host s => s
      | .bad e d s => endCmd s p st c.stamp e d
      | .ok (rs, w) r =>
        match firstRef rs with
        | some f => refuseCmd r.s p st c.stamp f
        | none => snapIssued r.s p st c w

/-- Step 1 of R407. The first header's directory is empty, since the sections are not formed yet (DESIGN CHOICE, log 83). -/
def writeHeader (c : Cmd) : M Unit := do wr (imageKey c) (c.get .img) (imageHeader (← getS) (← partM) c 0 [])

/-- Step 2 of R407, and the header that step 3 writes. -/
def writeSections (c : Cmd) : M (List Byte) := do
  let p ← partM
  let va := c.get .img
  let s ← getS
  let secs := [secRegs s, secSched s p, ← secTables, ← secFrames c, ← secTensors c]
  let n := 1 + secs.foldl (fun a b => a + b.length / Config.granule) 0
  wr (imageKey c) (va + Config.granule) secs.flatten
  return imageHeader s p c n secs

/-- A run of a `snap`'s own accesses: what it wrote is noted; a fault ends it (R408). -/
def snapRun {α : Type} (s : State) (p : Nat) (st : Strm) (c : Cmd) (m : M α) (f : State → α → State) : State :=
  let x := cmdCtx s p st c 0xFF 0
  let note (r : Run) (s : State) : State :=
    updCmd (dropHost s x.owner) p st c.stamp fun c =>
      { c with outs := r.outs.foldl (fun o e => noteOut o e.1 e.2.1 e.2.2) c.outs }
  let (e, r) := runM m (Run.of s x)
  match runWait s x e r with
  | some s => s
  | none =>
    match e with
    | .ok a => f (note r r.s) a
    | .error (e, d) => endCmd (note r r.s) p st c.stamp e d

/-- Step 1, at the quiesce point, once the command's stream is eligible and the budget lets it start. -/
def snapStart (s : State) (p : Nat) (st : Strm) (c : Cmd) : State :=
  if c.stage != .issued || !(quiet s p st c) || !(eligible s p st) || !(budgetFits s c.energy) then s
  else
    let c := { c with quiesced := some (c.quiesced.getD s.cad.phase) }
    snapRun s p st c (writeHeader c) fun s _ =>
      updCmd (charge s c.energy) p st c.stamp fun o =>
        { o with stage := .started, begun := true, quiesced := c.quiesced, imgStep := 1 }

/-- Step 2: host memory that it reads can make it wait, with the first header written. -/
def snapBody (s : State) (p : Nat) (st : Strm) (c : Cmd) : State :=
  if c.stage != .started || c.imgStep != 1 then s
  else snapRun s p st c (writeSections c) fun s hdr =>
    updCmd s p st c.stamp fun c => { c with image := hdr, imgStep := 2 }

/-- Step 3, once the sections' writes are answered. -/
def snapFinal (s : State) (p : Nat) (st : Strm) (c : Cmd) : State :=
  if c.stage != .started || c.imgStep != 2 || cmdWaits s p st c.stamp then s
  else snapRun s p st c (wr (imageKey c) (c.get .img) c.image) fun s _ =>
    updCmd s p st c.stamp fun c => { c with image := [], imgStep := 3 }

/-- The image is whole and its writes are answered: the command completes. -/
def snapEnd (s : State) (p : Nat) (st : Strm) (c : Cmd) : State :=
  if c.stage != .started || c.imgStep != 3 || cmdWaits s p st c.stamp then s
  else endCmd s p st c.stamp stOK 0

/-- A step of the `snap` with a stamp, where it still stands. -/
def snapWith (p : Nat) (st : Strm) (stamp : Word) (f : State → Nat → Strm → Cmd → State) (s : State) : State :=
  match getCmd s p st stamp with
  | some c => f s p st c
  | none => s

/-- The `snap`s of a partition that are issued and not ended. -/
def snapsOf (s : State) (p : Nat) : List (Strm × Cmd) :=
  allStrms.flatMap fun st => ((strm s p st).cmds.filter fun c =>
    c.op == opSNAP && (c.stage == .issued || c.stage == .started)).map fun c => (st, c)

/-- What a `snap` can do now. -/
def snapGo (s : State) (p : Nat) : State :=
  (snapsOf s p).foldl (fun s (st, c) =>
    [snapStart, snapBody, snapFinal, snapEnd].foldl (fun s f => snapWith p st c.stamp f s) s) s

/-- SNAP: issue; a partition that is quiet at once lets the image be written. -/
def snapOp (s : State) (p : Nat) (st : Strm) : State :=
  launchDue (settle (issueOp s p st opSNAP issueSnap) p) p

/-- SNAP_QUIESCE (R407). -/
def snapQuiesce (s : State) (p : Nat) : State := launchDue (settle (snapGo s p) p) p

/-- SNAP_TIMEOUT: the quiesce point has not come in time (R405). -/
def snapTimeout (s : State) (p : Nat) : State :=
  let late := (snapsOf s p).find? fun e =>
    e.2.stage == .issued && e.2.quiesced.isNone && !(quiet s p e.1 e.2) && e.2.get .tmo != 0 &&
      decide (e.2.get .tmo ≤ e.2.ticks)
  match late with
  | none => s
  | some (st, c) =>
    let s := addFault s { faultOf (Who.cmd p st c.stamp 0) 4 5 with arg0 := c.ticks }
    launchDue (settle (endCmd s p st c.stamp stFENCETMO (lastFault s)) p) p

end Sys2Proof.Machine
end

