-- ==== Sys2Proof/Machine/Restore.lean ====
section
/-! DEFINITION. Restoring a chrysalis image (R409, R410, R447): reading it, the reasons of a refusal, the writes. -/

namespace Sys2Proof.Machine

open Sys2Proof

/-! ## Reading an image -/

/-- The context of a restore's accesses: the partition's own translation (R409). -/
def restoreCtx (p : Nat) : Ctx := { who := Who.block 0, part := p, root := none, owner := .block }

/-- `SNAP.CTL.PART` and `.BLOCK`, and the image's VA, in the shadow that a commit checks. -/
def restorePart (s : State) : Nat := field (shadowW s pgSNAP 0x100) 0 3
def restoreBlock (s : State) : Bool := bitOf (shadowW s pgSNAP 0x100) 4
def restoreVa (s : State) : Nat := (shadowW s pgSNAP 0x104 + shadowW s pgSNAP 0x108 * 2 ^ 32) * Config.granule

/-- What a read of an image gives: its header and sections, a reason of R409, or a wait for host memory. -/
inductive ImgRead where
  | ok (s : State) (hdr : List Byte) (secs : List (List Byte))
  | bad (s : State) (rstat : Nat)
  | wait (s : State)

/-- Read bytes of the image; host memory that is not answered is asked. -/
def imgBytes (s : State) (p va n : Nat) : State × Except Bool (List Byte) :=
  if s.iqDone.any fun r => r.owner == .block && r.bytes == 0 then (s, .error false)
  else
    (ranM s (restoreCtx p) (rd va n)).fold (fun bs r => (r.s, .ok bs)) (fun _ _ s => (s, .error false))
      (fun s => (s, .error true))

/-- Sections of an image by its directory (Table 15-7), each checked by its CRC. -/
def imgSections (p va : Nat) (hdr : List Byte) : Nat → State → List (List Byte) → ImgRead
  | 0, s, secs => .ok s hdr secs
  | k + 1, s, secs =>
    let e := 64 + 16 * (4 - k)
    match imgBytes s p (va + leAt hdr e 4 * Config.granule) (leAt hdr (e + 4) 4 * Config.granule) with
    | (s, .error true) => .wait s
    | (s, .error false) => .bad s 3
    | (s, .ok bs) => if crc32c bs = leAt hdr (e + 8) 4 then imgSections p va hdr k s (secs ++ [bs]) else .bad s 3

/-- Reasons 1 to 3 of R409. -/
def readImage (s : State) : ImgRead :=
  let p := restorePart s
  let va := restoreVa s
  match imgBytes s p va Config.granule with
  | (s, .error true) => .wait s
  | (s, .error false) => .bad s 3
  | (s, .ok hdr) =>
    if leAt hdr 2 2 ≠ Config.version.toNat / 2 ^ 16 || leAt hdr 4 4 ≠ 1 then .bad s 1
    else if leAt hdr 16 4 = 0 then .bad s 2
    else imgSections p va hdr 5 s []

/-! ## Fields -/

/-- A word of section 0 of an image. -/
def imgWord (regs : List Byte) (pg off : Nat) : Nat :=
  leAt regs (((imagePgs.findIdx? fun x => x == pg).getD 0) * 0xE00 + off - 0x100) 4

/-- Put a word of an image into shadow and effect. -/
def putWord (regs : List Byte) (pg : Nat) (s : State) (off : Nat) : State :=
  let v := imgWord regs pg off &&& rwMask s pg off
  if rwMask s pg off = 0 then s else setEff (setShadow s pg off v) pg off v

/-- `XLAT` and `POOL` fields of a partition. -/
def putSpace (s : State) (regs : List Byte) (p : Nat) : State :=
  let words := (List.range 16).map fun k => 0x200 + 0x40 * p + 4 * k
  let s := words.foldl (putWord regs pgXLAT) s
  let s := words.foldl (putWord regs pgPOOL) s
  let m := 3 * 4 ^ p
  let v := (eff s pgPOOL 0x100 &&& (0xFFFF ^^^ m)) ||| (imgWord regs pgPOOL 0x100 &&& m)
  let w := (shadowW s pgPOOL 0x100 &&& (0xFFFF ^^^ m)) ||| (imgWord regs pgPOOL 0x100 &&& m)
  setEff (setShadow s pgPOOL 0x100 w) pgPOOL 0x100 v

/-- `PART` and `STRM` fields of a partition. -/
def putOwner (s : State) (regs : List Byte) (p : Nat) : State :=
  let s := ((List.range 7).map fun k => 0x200 + 0x20 * p + 4 * k).foldl (putWord regs pgPART) s
  ((List.range 64).map fun k => 0x100 + 0x100 * p + 4 * k).foldl (putWord regs pgSTRM) s

/-! ## Tables and frames -/

/-- The granules that a bitmap lists among `n`, ascending. -/
def imgBits (bs : List Byte) (n : Nat) : List Nat :=
  (List.range n).filter fun i => bitOf (bs.getD (i / 8) 0).toNat (i % 8)

/-- The granules of the table area, as they were (step 3 of R410). -/
def putTables (s : State) (p : Nat) (sec : List Byte) : State :=
  let s := zeroSpan s (areaSpan s [] p)
  let size := xlatField s [] p 1
  let base := xlatField s [] p 0
  let used := imgBits sec size
  let at0 := bitmapGran size * Config.granule
  let s := used.zipIdx.foldl (fun s (g, i) =>
    (rowsWrite s (Who.block 0) ((base + g) * Config.granule)
      (fitBytes Config.granule ((sec.drop (at0 + i * Config.granule)).take Config.granule))).1) s
  updPool s p fun _ => { Pool.none with nodes := used.map (base + ·) }

/-- The granules of an instar's tables, its root first. -/
def poolNodes (s : State) (root : Nat) : List Nat :=
  root :: (nodeEntries s root).flatMap fun e =>
    if e.1 < 32 then (if entryValid 0 e.2 then nodesBelow 2 s (entryPa e.2 / Config.granule) else [])
    else if 64 ≤ e.1 && e.1 < 96 || 2048 ≤ e.1 then [e.2 / Config.granule] else []

/-- Whether a granule can be the root of instar `n`: its entries beyond the walk (Table 09-5). -/
def isPoolRoot (s : State) (n g : Nat) : Bool :=
  let es := nodeEntries s g
  assocD es 32 0 == n && es.all fun e => e.1 < 33 || 64 ≤ e.1 && e.1 < 96 || 2048 ≤ e.1

/-- Follow free-list links. -/
def freeChain (link : Nat → Nat) : Nat → Nat → List Nat
  | 0, _ => []
  | n + 1, f => f :: freeChain link n (link f)

/-- A free list by its frames' links; ascending where the links give no list of all of them. -/
def freeOrder (link : Nat → Nat) (fs : List Nat) : List Nat :=
  let asc := sortBy (fun a b => decide (a < b)) fs
  let heads := (fs.filter fun f => !(fs.any fun g => link g == f)) ++ fs.take 1
  match heads.findSome? fun h =>
      let c := freeChain link fs.length h
      if sortBy (fun a b => decide (a < b)) c = asc then some c else none with
  | some c => c
  | none => asc

/-- The parked sequences of an instar with the slots that the image's records hold, which the live records give back to
zeros (Table 09-7, log 83). -/
def takeParked (root : Nat) : M (List (Nat × Nat)) := do
  ((← liveSeqs root).filter fun e => e.2.state == 2).mapM fun e => do
    let pa := (← rootEntry root (64 + e.1 / 2048)) + 16 * (e.1 % 2048) + 8
    let k := leNat (← tabRd pa 2)
    tabWr pa (zeroBytes 2)
    return (e.1, k)

/-- POOL's own state from the tables that a restore has written: the instar's root, the frame table, the free lists, and
the parked sequences with the slots that the image's records hold. -/
def rebuildPool (s : State) (p instar : Nat) : State :=
  let frames := (shapeOf s [] p).frames
  let slow := slowFrames s [] p
  if frames = 0 && slow = 0 then s
  else
    let statics := staticNodes s p
    let rest := (pool s p).nodes.filter fun g => !(statics.contains g)
    let n := frameTabSize s [] p
    match rest.find? fun g => isPoolRoot s instar g && (poolNodes s g).eraseDups.length + n == rest.length with
    | none => s
    | some root =>
      let mine := poolNodes s root
      let tab := rest.filter fun g => !(mine.contains g)
      let s := updPool s p fun x => { x with root := root, instar := instar, frameTab := tab }
      let rec_ (f : Nat) : Nat := leNat (memBytes s.mem (frameRecAt s p f) 8)
      let free (fs : List Nat) : List Nat := freeOrder (fun f => rec_ f % 2 ^ 20) (fs.filter fun f => rec_ f / 2 ^ 60 == frFREE)
      let a := free (List.range frames)
      let b := free ((List.range slow).map (· + frames))
      let (s, parked) := match ranM s (restoreCtx p) (takeParked root) with
        | .ok qs r => (r.s, qs)
        | _ => (s, [])
      let lost := areaLost s p
      updPool s p fun x => { x with free := a, slowFree := b, lost := lost, parked := parked }

/-- The frames of the image (step 4). -/
def putFrames (s : State) (p : Nat) (sec : List Byte) : State :=
  let h := shapeOf s [] p
  let n := h.frames + slowFrames s [] p
  let at0 := bitmapGran n * Config.granule
  if sec.isEmpty then s
  else (imgBits sec n).zipIdx.foldl (fun s (f, i) =>
    (rowsWrite s (Who.block 0) (frameAddr s [] p f) (fitBytes h.bytes ((sec.drop (at0 + i * h.bytes)).take h.bytes))).1) s

/-- Put the granule that follows `i` others in a section, from byte `at0` of it on, at a virtual granule. -/
def putGranule (p : Nat) (sec : List Byte) (at0 : Nat) (s : State) (g i : Nat) : State :=
  (vwrite s (restoreCtx p) (g * Config.granule)
    (fitBytes Config.granule ((sec.drop (at0 + i * Config.granule)).take Config.granule))).1

/-- Put the granules of section 4 at their VAs; `gs` are those that its list covers. -/
def putGranules (s : State) (p : Nat) (sec : List Byte) (gs : List Nat) : State :=
  (imgBits (sec.drop Config.granule) gs.length).zipIdx.foldl (fun s e =>
    putGranule p sec ((1 + bitmapGran gs.length) * Config.granule) s (gs.getD e.1 0) e.2) s

/-- The tensors at their VAs (step 5). -/
def putTensors (s : State) (p : Nat) (sec : List Byte) : State :=
  if sec.isEmpty then s else putGranules s p sec (listGrans sec 2048)

/-- The schedule state (step 6): nothing is armed, and counters and slots are free. -/
def putSched (s : State) (p : Nat) (sec : List Byte) : State :=
  let s := allStrms.foldl (fun s st =>
    let w (k : Nat) : Word := BitVec.ofNat 32 (leAt sec (32 * st.num + 4 * k) 4)
    updStrm s p st fun x =>
      { x with next := w 0, low := w 1, cseq := w 2, chead := w 3, doneSet := [] }) s
  updPart s p fun x =>
    { x with
      counters := []
      slots := []
      advisor := (List.range 256).filterMap fun k =>
        let v := (sec.getD (1664 + k) 0).toNat
        if v = 0 then none else some (k, v) }

/-- The block-level sections (step 2): wingbeat entries with their generation, `CALU`, `FTAB` as its commit would. -/
def putBlock (s : State) (regs hdr : List Byte) : State :=
  let ents := (List.range 2048).foldl (fun ws k =>
    wordsSet ws k 0 (BitVec.ofNat 32 (leAt regs (6 * 0xE00 + 4 * k) 4))) ([] : Words)
  let s := { s with wbt := { s.wbt with
      table := { s.wbt.table with entries := ents }
      shadow := ents
      next := none
      gen := leAt hdr 32 4 } }
  let s := rwOffsets.foldl (putWord regs pgFTAB) s
  let s := ftabCurrent (ftabWrite s)
  boundaries (rwOffsets.foldl (putWord regs pgCALU) s)

/-! ## The restore -/

/-- Whether the image's ranges lie outside what the partition owns or in a lost slice (reason 4), on a state that holds
the image's fields and tables. -/
def restoreOutside (s : State) (p : Nat) : Bool :=
  let inLost (r : Span) : Bool :=
    (List.range 8).any fun n => (slice s n).lost && spanMeets r (n * Config.sliceBytes, Config.sliceBytes)
  let area := areaSpan s [] p
  let store := storeRegion s [] p
  area.2 != 0 && (!(ownedStore s [] p area) || inLost area) ||
    store.2 != 0 && (!(ownedStore s [] p store) || inLost store) ||
    ((slowRegions s [] p).any fun r => !(ownsSlow s [] p r.1 r.2)) ||
    (staticLeaves s p).any fun e =>
      let r : Span := (entryPa e.2, Config.granule)
      !(ownedWhole s [] p r) || inLost r

/-- The writes of R410, in order. The budget level starts anew (R322). -/
def restoreWrite (s : State) (hdr : List Byte) (secs : List (List Byte)) : State :=
  let p := restorePart s
  let s := { s with gov := { s.gov with level := (eff s pgPWR 0x10C : Nat) } }
  let regs := secs.getD 0 []
  let s := putSpace (putOwner s regs p) regs p
  let s := if restoreBlock s then putBlock s regs hdr else s
  let s := rebuildPool (putTables s p (secs.getD 2 [])) p (leAt hdr 40 5)
  putSched (putTensors (putFrames s p (secs.getD 3 [])) p (secs.getD 4 [])) p (secs.getD 1 [])

/-- What the check of a restore gives: pass, the failing field with its reason, or a wait. -/
inductive RestoreCheck where
  | pass (s : State) (hdr : List Byte) (secs : List (List Byte))
  | fail (s : State) (off rstat : Nat)
  | wait (s : State)

/-- The reasons of R409: 5 first, then those of the image's form, then those of its contents. -/
def restoreCheck (s : State) : RestoreCheck :=
  let p := restorePart s
  if partArmed s p || !(partLoad s p) then .fail s 0x100 5
  else
    match readImage s with
    | .wait s => .wait s
    | .bad s r => .fail s 0x104 r
    | .ok s hdr secs =>
      let t := putTables (putSpace s (secs.getD 0 []) p) p (secs.getD 2 [])
      if restoreOutside t p then .fail s 0x100 4
      else if !(poolRules t [] p).isEmpty then .fail s 0x100 6
      -- rows of slices in DOZE are asked for first (R313)
      else if anyDoze s && asks s (restoreWrite s hdr secs) then .wait (askRows s (restoreWrite s hdr secs))
      else .pass s hdr secs

end Sys2Proof.Machine
end

