-- ==== Sys2Proof/Machine/Commit.lean ====
section
/-! DEFINITION. Commits in their three stages (R434 to R438, R447), and the configuration port: accesses, the writes that
act, accesses that wait (R342, R417). -/

namespace Sys2Proof.Machine

open Sys2Proof

/-! ## Stages of a commit (R435, R438) -/

/-- Whether a page's wait condition holds: store initialisation (R419), a channel on its way to `OUT` (R450), requests on
a fabric port that retires (R401). -/
def pageWaits (s : State) (v : List Nat) (pg : Nat) : Bool :=
  if pg = pgXLAT || pg = pgPOOL then !s.initStore
  else if pg = pgSNAP then bitOf (shadowW s pgSNAP 0x100) 3 && !s.initStore
  else if pg = pgFAB then (newRetired s v).any fun f => !((fabP s f).sent.isEmpty) || !((fabP s f).waiting.isEmpty)
  else if isChanPage pg && pg % 4 = 0 then
    eff s pg 0x100 == 1 && shadowW s pg 0x100 == 0 &&
      (!s.initStore || (chan s (pgChan pg)).service == .leaving || (chan s (pgChan pg)).service == .test)
  else false

/-- A state in which the streams that drain have drained: they are disarmed, and their commands are complete. -/
def drained (s : State) : State :=
  allParts.foldl (fun s p => allStrms.foldl (fun s st =>
    let x := strm s p st
    if !x.draining then s
    else
      let pins := x.cmds.filterMap (·.pin)
      updPool (updStrm s p st fun x => { x with armed := false, draining := false, cmds := [] }) p fun y =>
        { y with pins := (y.pins.map fun q => { q with count := q.count - pins.count q.instar }).filter fun q => q.count != 0 })
    s) s

/-- Whether the check of a commit turns on an arming that is draining: the commit waits for its end (R435). -/
def armingWaits (s : State) (v : List Nat) : Bool :=
  (allParts.any fun p => allStrms.any fun st => (strm s p st).draining) &&
    (commitBad s v != commitBad (drained s) v ||
      v.contains pgSNAP && bitOf (shadowW s pgSNAP 0x100) 3 && partArmed s (restorePart s) &&
        !(partArmed (drained s) (restorePart s)))

/-- The switch: every shadow value of the pages takes effect at once, then the follow-ons run in ascending page index. -/
def switchPages (s : State) (v : List Nat) : State :=
  v.foldl (fun t pg => pageFollow s v t pg) (v.foldl switchPage s)

/-- Whether a commit is in its wait stage; a group waits for the own commits of its pages first. -/
def commitWaits (s : State) (c : Commit) : Bool :=
  c.group && (s.commits.any fun x => x != c && x.pages.any c.pages.contains) || c.pages.any (pageWaits s c.pages) ||
    armingWaits s c.pages || anyDoze s && (commitBad s c.pages).isNone && asks s (switchPages s c.pages)

/-- A commit waits; rows of slices in DOZE that its follow-on needs are asked for once nothing else holds it (R313). -/
def waitCommit (s : State) (c : Commit) : State :=
  if !(anyDoze s) || commitWaits { s with chans := s.chans.map fun x => { x with power := .run } } c then s
  else askRows s (switchPages s c.pages)

/-- A commit ends: `COMMITSTAT` of its pages, and of `BLK` with `GSTAT` for a group; a restore's bit clears (R447). -/
def endCommit (s : State) (c : Commit) (bad : Option (Nat × Bad)) : State :=
  let word (pg : Nat) : Nat :=
    match bad with
    | none => 2
    | some (q, b) =>
      2 + b.status * 2 ^ 8 + if pg = q || c.group && pg = pgBLK then b.off * 2 ^ 16 + b.index % 16 * 2 ^ 28 else 0
  let s := (if c.group then pgBLK :: c.pages else c.pages).foldl (fun s pg => setCommitStat s pg (word pg)) s
  let s := if c.group then { s with gstat := (bad.map (·.1)).getD 0 } else s
  let s := if c.pages.contains pgSNAP && bitOf (shadowW s pgSNAP 0x100) 3 then
      setEff (setShadow s pgSNAP 0x100 (shadowW s pgSNAP 0x100 &&& 0x17)) pgSNAP 0x100 (eff s pgSNAP 0x100 &&& 0x17) else s
  { s with commits := s.commits.filter fun x => x != c }

/-- `JOIN` clears in every page of a group once it has been checked. -/
def unjoin (s : State) (c : Commit) : State :=
  if c.group then c.pages.foldl (fun s pg => setLive s 0 pg 0x008 (live s 0 pg 0x008 &&& 2)) s else s

/-- A refusal; `WBT.INDEX` shows the slot that overlaps (R303). -/
def refuseCommit (s : State) (c : Commit) (bad : Nat × Bad) : State :=
  let s := if bad.1 = pgWBT && bad.2.off = 0x110 then setLive s 0 pgWBT 0xF00 ((slotOverlap (shadowTable s)).getD 0) else s
  endCommit (unjoin s c) c (some bad)

/-- A commit that has passed switches; it ends at once unless its follow-on takes time. -/
def passCommit (s : State) (c : Commit) (more : Bool) (after : State → State) : State :=
  let long := more || c.pages.any (hasFollow s c.pages)
  let t := unjoin (after (switchPages s c.pages)) c
  if long then { t with commits := t.commits.map fun x => if x = c then { c with stage := .follow } else x }
  else endCommit t c none

/-- The check-and-switch stage of a commit whose wait has ended. -/
def tryCommit (s : State) (c : Commit) : State :=
  if c.stage != .waiting || !(s.commits.contains c) then s
  else if commitWaits s c then waitCommit s c
  else if c.pages = [pgSNAP] && bitOf (shadowW s pgSNAP 0x100) 3 then
    match restoreCheck s with
    | .wait s => s
    | .fail s off r =>
      endCommit { dropHost s .block with rstat := r } c (some (pgSNAP, { off := off, index := 0, status := stCONFLICT }))
    | .pass s hdr secs =>
      let s := dropHost s .block
      match commitBad s c.pages with
      | some b => refuseCommit s c b
      | none => passCommit s c true fun s => restoreWrite s hdr secs
  else
    match commitBad s c.pages with
    | some b => refuseCommit s c b
    | none => passCommit s c false id

/-- Every commit whose wait has ended goes on. -/
def tryAll (s : State) : State := s.commits.foldl tryCommit s

/-- A commit starts. -/
def startCommit (s : State) (group : Bool) (pages : List Nat) : State :=
  let c : Commit := { group := group, pages := pages, stage := .waiting }
  let s := (if group then pgBLK :: pages else pages).foldl (fun s pg => setCommitStat s pg 1) s
  tryCommit { s with commits := s.commits ++ [c] } c

/-- The pages that join the next group, ascending. -/
def joinedPages (s : State) : List Nat :=
  (List.range 0x60).filter fun pg => pagePresent s pg && pageJoin pg && pageJoined s pg

/-- A write of `COMMIT`: `GO`, and in `BLK` `GROUP`. -/
def writeCommit (s : State) (pg : Nat) (v : Word) : State :=
  if pg = pgBLK && bitOf v.toNat 1 then startCommit s true (joinedPages s)
  else if bitOf v.toNat 0 then if pageShadow pg then startCommit s false [pg] else setCommitStat s pg 2
  else s

/-- COMMIT_SWITCH: the commit of a page, where its wait has ended; page 0 stands for a group. -/
def commitSwitch (s : State) (pg : Nat) : State :=
  match s.commits.find? fun c => c.stage == .waiting && (c.pages.contains pg || c.group && pg == pgBLK) with
  | none => s
  | some c => tryCommit s c

/-- COMMIT_FOLLOW_ON_END: a new table generation becomes current; a restore's writes must be answered. -/
def followEnd (s : State) (pg : Nat) : State :=
  match s.commits.find? fun c => c.stage == .follow && (c.pages.contains pg || c.group && pg == pgBLK) with
  | none => s
  | some c =>
    if c.pages.contains pgSNAP && iqOutstanding s .block then s
    else endCommit (if c.pages.contains pgFTAB then ftabCurrent s else s) c none

/-! ## Accesses -/

/-- A write of `PAGECTL`: `JOIN` where the page may join, `VIEW`, and the action `REVERT`. -/
def writePageCtl (s : State) (pg : Nat) (v : Word) : State :=
  let s := setLive s 0 pg 0x008 (v.toNat &&& (if pageJoin pg then 3 else 2))
  if bitOf v.toNat 2 then revertPage s pg else s

/-- A write of a configuration word. -/
def regWrite (s : State) (pg off : Nat) (v : Word) : State :=
  if !(pagePresent s pg) then s
  else if off = 0x008 then writePageCtl s pg v
  else if off = 0x010 then writeCommit s pg v
  else if pg = pgCALU && off = 0xF00 then { s with rload0 := v }
  else if pg = pgCALU && off = 0xF04 then rowLoad s v
  else if pg = pgSTRM && off = 0xF10 then writeArm s v.toNat
  else if pg = pgSTRM && off = 0xF14 then writeCuntil s v
  else if pg = pgSTRM && off = 0xF18 then writeCancel s v.toNat
  else if pg = pgSTORE && off = 0xF30 then loseSlices s (v.toNat % 256)
  else if isChanPage pg && pg % 4 = 0 && off = 0xF58 then
    if bitOf v.toNat 0 then retestGo s (pgChan pg) else s
  else plainWrite s pg off v

/-- Whether the configuration port holds an access: until fuse load for every page but `BLK` (R417), and while a commit
of the page is in progress (R342). `BLK.CBUSY0` to `BLK.CBUSY2` are read while a group commit runs, which is what they are
for (R435; DEDUCED, log 14). -/
def accessWaits (s : State) (addr : Nat) : Bool :=
  let pg := addr / 0x1000
  pg != pgBLK && !s.initFuse || pageBusy s pg && !(pg == pgBLK && offIn (addr % 0x1000) 0xF30 0xF3B)

/-- An access takes place. -/
def accessDo (s : State) (a : CfgAccess) : State :=
  if a.write then regWrite s (a.addr / 0x1000) (a.addr % 0x1000) a.data else regRead s (a.addr / 0x1000) (a.addr % 0x1000)

/-- Held accesses take place in order, as far as none waits. -/
def releaseHeld : Nat → State → State
  | 0, s => s
  | n + 1, s =>
    match s.cfgHeld with
    | [] => s
    | a :: rest => if accessWaits s a.addr then s else releaseHeld n (accessDo { s with cfgHeld := rest } a)

/-- Commits whose wait has ended go on, and accesses that they held take place. -/
def cfgSettle (s : State) : State :=
  let s := tryAll s
  releaseHeld s.cfgHeld.length s

/-- An access of the configuration port: it waits behind those held. -/
def cfgAccess (s : State) (a : CfgAccess) : State :=
  if s.cfgHeld.isEmpty && !(accessWaits s a.addr) then cfgSettle (accessDo s a)
  else { s with cfgHeld := s.cfgHeld ++ [a] }

def cfgWrite (s : State) (pg off : Nat) (v : Word) : State :=
  cfgAccess s { addr := wordAddr pg off, data := v, write := true }

def cfgRead (s : State) (addr : Nat) : State := cfgAccess s { addr := addr, data := 0, write := false }

/-- A write of `COMMIT.GO`. -/
def commitGo (s : State) (pg : Nat) : State := cfgWrite s pg 0x010 1

end Sys2Proof.Machine
end

