-- ==== Sys2Proof/Machine/Control.lean ====
section
/-! DEFINITION. The commands of the configuration port: commits, accesses, and what the block does with them. -/

namespace Sys2Proof.Machine

open Sys2Proof

/-- The outcome of an access of the configuration port, which answers after a failed fuse load too (R418): none is
promised in test mode (R349); none takes place in reset (R415). -/
def actCfg (s : State) (f : State → State) : Host.Outcome State Fault Refusal :=
  if s.testEn then .fault .testMode else if !s.rstN then .next s else .next (keepPins s (f s))

/-! ## Commits -/

/-- COMMIT_CALU (R425, R428). -/
def execCommitCalu (s : State) : Host.Outcome State Fault Refusal := actCfg s fun s => commitGo s pgCALU

/-- COMMIT_FLT (R395). -/
def execCommitFlt (s : State) : Host.Outcome State Fault Refusal := actCfg s fun s => commitGo s pgFLT

/-- COMMIT_WBT (R303). -/
def execCommitWbt (s : State) : Host.Outcome State Fault Refusal := actCfg s fun s => commitGo s pgWBT

/-- COMMIT_PWR (R320, R421). -/
def execCommitPwr (s : State) : Host.Outcome State Fault Refusal := actCfg s fun s => commitGo s pgPWR

/-- COMMIT_PART (R306, R307, R419). -/
def execCommitPart (s : State) : Host.Outcome State Fault Refusal := actCfg s fun s => commitGo s pgPART

/-- COMMIT_STRM (R257). -/
def execCommitStrm (s : State) : Host.Outcome State Fault Refusal := actCfg s fun s => commitGo s pgSTRM

/-- COMMIT_STORE (R183, R189). -/
def execCommitStore (s : State) : Host.Outcome State Fault Refusal := actCfg s fun s => commitGo s pgSTORE

/-- COMMIT_XLAT (R199 to R203, R445). -/
def execCommitXlat (s : State) : Host.Outcome State Fault Refusal := actCfg s fun s => commitGo s pgXLAT

/-- Whether the shadow of `XLAT` holds map fields to apply, and whether they unmap. -/
def mapWritten (s : State) (unmap : Bool) : Bool :=
  shadowW s pgXLAT 0x110 != 0 && bitOf (shadowW s pgXLAT 0x114) 3 == unmap

/-- XLAT_MAP (R191, R199): the commit of `XLAT` whose map fields map. -/
def execXlatMap (s : State) : Host.Outcome State Fault Refusal :=
  actCfg s fun s => if mapWritten s false then commitGo s pgXLAT else s

/-- XLAT_UNMAP (R199): the commit of `XLAT` whose map fields clear leaves. -/
def execXlatUnmap (s : State) : Host.Outcome State Fault Refusal :=
  actCfg s fun s => if mapWritten s true then commitGo s pgXLAT else s

/-- COMMIT_POOL (R205, R241, R446). -/
def execCommitPool (s : State) : Host.Outcome State Fault Refusal := actCfg s fun s => commitGo s pgPOOL

/-- COMMIT_FTAB (R163 to R165). -/
def execCommitFtab (s : State) : Host.Outcome State Fault Refusal := actCfg s fun s => commitGo s pgFTAB

/-- COMMIT_MIR (R374). -/
def execCommitMir (s : State) : Host.Outcome State Fault Refusal := actCfg s fun s => commitGo s pgMIR

/-- COMMIT_SNAP (R411). -/
def execCommitSnap (s : State) : Host.Outcome State Fault Refusal := actCfg s fun s => commitGo s pgSNAP

/-- SNAP_RESTORE (R409, R410, R447): the commit of `SNAP` with `RESTORE`. -/
def execSnapRestore (s : State) : Host.Outcome State Fault Refusal :=
  actCfg s fun s => if bitOf (shadowW s pgSNAP 0x100) 3 then commitGo s pgSNAP else s

/-- SVC_VECTOR (R75, R450): the commit of `CHn.ARY` with `SVC` = `VECTOR`. -/
def execSvcVector (ch : Chan) (s : State) : Host.Outcome State Fault Refusal :=
  actCfg s fun s => if shadowW s (pgARY ch) 0x100 = 1 then commitGo s (pgARY ch) else s

/-- SVC_RUN (R419, R450): the commit of `CHn.ARY` with `SVC` = `RUN`. -/
def execSvcRun (ch : Chan) (s : State) : Host.Outcome State Fault Refusal :=
  actCfg s fun s => if shadowW s (pgARY ch) 0x100 = 0 then commitGo s (pgARY ch) else s

/-- COMMIT_PAST_SPARE (R452). -/
def execCommitPastSpare (ch : Chan) (s : State) : Host.Outcome State Fault Refusal :=
  actCfg s fun s => commitGo s (pgARY ch)

/-- COMMIT_MEMP (R335, R458). -/
def execCommitMemp (q : SlowPort) (s : State) : Host.Outcome State Fault Refusal :=
  actCfg s fun s => commitGo s (pgMEMP q)

/-- Whether bit `i` of `MEMPq.CTL` is written and not in effect. -/
def ctlWritten (s : State) (q i : Nat) : Bool :=
  bitOf (shadowW s (pgMEMP q) 0x104) i && !(bitOf (eff s (pgMEMP q) 0x104) i)

/-- SLOW_PORT_DRAIN (R400): the commit of `MEMPq` that sets `DRAIN`. -/
def execSlowPortDrain (q : SlowPort) (s : State) : Host.Outcome State Fault Refusal :=
  actCfg s fun s => if ctlWritten s q 0 then commitGo s (pgMEMP q) else s

/-- SLOW_PORT_RETIRE (R400): the commit of `MEMPq` that sets `RETIRE`. -/
def execSlowPortRetire (q : SlowPort) (s : State) : Host.Outcome State Fault Refusal :=
  actCfg s fun s => if ctlWritten s q 1 then commitGo s (pgMEMP q) else s

/-- COMMIT_RPG (R459). -/
def execCommitRpg (s : State) : Host.Outcome State Fault Refusal := actCfg s fun s => commitGo s pgRPG

/-- COMMIT_FAB (R401, R460). -/
def execCommitFab (s : State) : Host.Outcome State Fault Refusal := actCfg s fun s => commitGo s pgFAB

/-- FABRIC_PORT_RETIRE (R401): a commit of `FAB` that waits goes on once its requests are settled; else the commit that
retires the ports of new bits. -/
def fabRetire (s : State) : State :=
  if s.commits.any fun c => c.pages.contains pgFAB then cfgSettle (commitSwitch s pgFAB)
  else if (bitsOf 32 (shadowW s pgFAB 0x104)).any fun f => !(bitOf (eff s pgFAB 0x104) f) then commitGo s pgFAB
  else s
def execFabricPortRetire (s : State) : Host.Outcome State Fault Refusal := actCfg s fabRetire

/-- GROUP_COMMIT (R438). -/
def execGroupCommit (s : State) : Host.Outcome State Fault Refusal := actCfg s fun s => cfgWrite s pgBLK 0x010 2

/-- COMMIT_SWITCH (R435 to R437). -/
def execCommitSwitch (page : PageIx) (s : State) : Host.Outcome State Fault Refusal :=
  actCfg s fun s => cfgSettle (commitSwitch s page)

/-- COMMIT_FOLLOW_ON_END (R435). -/
def execCommitFollowOnEnd (page : PageIx) (s : State) : Host.Outcome State Fault Refusal :=
  actCfg s fun s => cfgSettle (followEnd s page)

/-! ## Accesses -/

/-- ROW_LOAD (R427): a write of `CALU.RLOAD1`. -/
def execRowLoad (word1 : Word) (s : State) : Host.Outcome State Fault Refusal :=
  actCfg s fun s => cfgWrite s pgCALU 0xF04 word1

/-- STREAM_ARM (R262): a write of the arm bits of `STRM.ARM`. -/
def execStreamArm (bits : BitVec 4) (s : State) : Host.Outcome State Fault Refusal :=
  actCfg s fun s => cfgWrite s pgSTRM 0xF10 (BitVec.ofNat 32 bits.toNat)

/-- STREAM_DISARM (R262): a write of the disarm bits of `STRM.ARM`. -/
def execStreamDisarm (bits : BitVec 4) (s : State) : Host.Outcome State Fault Refusal :=
  actCfg s fun s => cfgWrite s pgSTRM 0xF10 (BitVec.ofNat 32 (bits.toNat * 16))

/-- CANCEL (R290): a write of `STRM.CANCEL`. -/
def execCancel (value : BitVec 4) (s : State) : Host.Outcome State Fault Refusal :=
  actCfg s fun s => cfgWrite s pgSTRM 0xF18 (BitVec.ofNat 32 value.toNat)

/-- RETEST (R450, R451): a write of `CHn.ARY.RETEST`. -/
def execRetest (ch : Chan) (s : State) : Host.Outcome State Fault Refusal :=
  actCfg s fun s => cfgWrite s (pgARY ch) 0xF58 1

/-- REVERT (R434): a write of `PAGECTL.REVERT` that keeps the page's `VIEW` and `JOIN`. -/
def execRevert (page : PageIx) (s : State) : Host.Outcome State Fault Refusal :=
  actCfg s fun s => cfgWrite s page 0x008 (BitVec.ofNat 32 (4 + live s 0 page 0x008 % 4))

/-- SLICE_LOSE (R397): a write of `STORE.LOSE`. -/
def execSliceLose (bits : BitVec 8) (s : State) : Host.Outcome State Fault Refusal :=
  actCfg s fun s => cfgWrite s pgSTORE 0xF30 (BitVec.ofNat 32 bits.toNat)

/-- READ_L_CAPTURE (R343): a read. -/
def execReadLCapture (addr : BitVec 24) (s : State) : Host.Outcome State Fault Refusal :=
  actCfg s fun s => cfgRead s addr.toNat

/-- REGISTER_WRITE (R433, R434, R440). -/
def execRegisterWrite (addr : BitVec 24) (data : Word) (s : State) : Host.Outcome State Fault Refusal :=
  actCfg s fun s => cfgWrite s (addr.toNat / 0x1000) (addr.toNat % 0x1000) data

end Sys2Proof.Machine
end

