-- ==== Sys2Proof/Machine/Streams.lean ====
section
/-! DEFINITION. The commands of the streams: control commands, channel commands, edits, transfers, remote commands, and
what the sequencer, the channels and the remote ports do with them. -/

namespace Sys2Proof.Machine

open Sys2Proof

/-- The outcome of a command: none is promised in test mode (R349); in reset and after a failed fuse load the block does
nothing (R415, R418). -/
def act (s : State) (f : State → State) : Host.Outcome State Fault Refusal :=
  if s.testEn then .fault .testMode else if !s.rstN || s.fuseErr then .next s else .next (keepPins s (f s))

/-! ## Control commands -/

/-- FENCE (R277): the head record issues; a fence whose condition holds completes. -/
def execFence (p : Part) (st : Strm) (s : State) : Host.Outcome State Fault Refusal :=
  act s fun s => settle (issueOp s p st opFENCE issueControl) p

/-- FENCE_TIMEOUT (R277): the fence that has waited its ticks ends with `FENCE_TIMEOUT`. -/
def fenceTimeout (s : State) (p : Nat) (st : Strm) : State :=
  match fenceLate s p st with
  | none => s
  | some c =>
    let s := addFault s { faultOf (Who.cmd p st c.stamp 0) 4 5 with arg0 := fenceTicks c }
    let s := updCmd s p st c.stamp fun c => { c with countA := fenceTicks c }
    launchDue (settle (endCmd s p st c.stamp stFENCETMO (lastFault s)) p) p
def execFenceTimeout (p : Part) (st : Strm) (s : State) : Host.Outcome State Fault Refusal :=
  act s fun s => fenceTimeout s p st

/-- TASK_BEGIN (R284). -/
def execTaskBegin (p : Part) (st : Strm) (s : State) : Host.Outcome State Fault Refusal :=
  act s fun s => issueOp s p st opTASKBEGIN issueControl

/-- TASK_END (R278, R284, R287). -/
def execTaskEnd (p : Part) (st : Strm) (s : State) : Host.Outcome State Fault Refusal :=
  act s fun s => settle (issueOp s p st opTASKEND issueControl) p

/-- WAIT_PHASE (R278). -/
def execWaitPhase (p : Part) (st : Strm) (s : State) : Host.Outcome State Fault Refusal :=
  act s fun s => settle (issueOp s p st opWAITPHASE issueControl) p

/-- STAMP (R279). -/
def execStamp (p : Part) (st : Strm) (s : State) : Host.Outcome State Fault Refusal :=
  act s fun s => settle (issueOp s p st opSTAMP issueControl) p

/-! ## Channel commands -/

/-- ATTN_FWD (R82 to R84, R217): issue. -/
def execAttnFwd (p : Part) (st : Strm) (s : State) : Host.Outcome State Fault Refusal :=
  act s fun s => issueOp s p st opFWD issueChan

/-- ATTN_BWD_A (R106, R107): issue. -/
def execAttnBwdA (p : Part) (st : Strm) (s : State) : Host.Outcome State Fault Refusal :=
  act s fun s => issueOp s p st opBWDA issueChan

/-- ATTN_BWD_B (R106, R107): issue. -/
def execAttnBwdB (p : Part) (st : Strm) (s : State) : Host.Outcome State Fault Refusal :=
  act s fun s => issueOp s p st opBWDB issueChan

/-- ATTN_DEC (R129 to R131, R138 to R140): issue; the shared parts join swarms. -/
def execAttnDec (p : Part) (st : Strm) (s : State) : Host.Outcome State Fault Refusal :=
  act s fun s => issueOp s p st opDEC issueChan

/-- SWARM_DEADLINE (R140): swarms for which an event of R140 holds launch. -/
def execSwarmDeadline (p : Part) (s : State) : Host.Outcome State Fault Refusal := act s fun s => launchDue s p

/-- PAGE_SELECT (R147): issue. -/
def execPageSelect (p : Part) (st : Strm) (s : State) : Host.Outcome State Fault Refusal :=
  act s fun s => issueOp s p st opSELECT issueChan

/-- SOFTMAX (R171): issue. -/
def execSoftmax (p : Part) (st : Strm) (s : State) : Host.Outcome State Fault Refusal :=
  act s fun s => issueOp s p st opSOFTMAX issueChan

/-- FN (R167, R170): issue. -/
def execFn (p : Part) (st : Strm) (s : State) : Host.Outcome State Fault Refusal :=
  act s fun s => issueOp s p st opFN issueChan

/-- NORM (R175): issue. -/
def execNorm (p : Part) (st : Strm) (s : State) : Host.Outcome State Fault Refusal :=
  act s fun s => issueOp s p st opNORM issueChan

/-- ROT (R295): issue. -/
def execRot (p : Part) (st : Strm) (s : State) : Host.Outcome State Fault Refusal :=
  act s fun s => issueOp s p st opROT issueChan

/-! ## Edits -/

/-- SEQ_OPEN (R212, R214). -/
def execSeqOpen (p : Part) (st : Strm) (s : State) : Host.Outcome State Fault Refusal := act s fun s => editOp s p st opOPEN

/-- SEQ_APPEND (R218, R234 to R238). -/
def execSeqAppend (p : Part) (st : Strm) (s : State) : Host.Outcome State Fault Refusal :=
  act s fun s => editOp s p st opAPPEND

/-- SEQ_FORK (R222). -/
def execSeqFork (p : Part) (st : Strm) (s : State) : Host.Outcome State Fault Refusal := act s fun s => editOp s p st opFORK

/-- SEQ_FREE (R224). -/
def execSeqFree (p : Part) (st : Strm) (s : State) : Host.Outcome State Fault Refusal := act s fun s => editOp s p st opFREE

/-- SEQ_PARK (R254): a park whose images are written closes its sequences; else the head record starts, and closes them
at once where no write is in flight. -/
def seqPark (s : State) (p : Nat) (st : Strm) : State :=
  let close (s : State) : State :=
    match parkHeld s p st with
    | some c => launchDue (settle (finishPark s p st c) p) p
    | none => s
  if (parkHeld s p st).isSome then close s else close (editOp s p st opPARK)
def execSeqPark (p : Part) (st : Strm) (s : State) : Host.Outcome State Fault Refusal := act s fun s => seqPark s p st

/-- SEQ_RESUME (R254, R255). -/
def execSeqResume (p : Part) (st : Strm) (s : State) : Host.Outcome State Fault Refusal :=
  act s fun s => editOp s p st opRESUME

/-- POOL_COMPACT (R248). -/
def execPoolCompact (p : Part) (st : Strm) (s : State) : Host.Outcome State Fault Refusal :=
  act s fun s => editOp s p st opCOMPACT

/-- RECLAIM_WIN_EXPIRY (R228, R238). -/
def execReclaimWinExpiry (p : Part) (s : State) : Host.Outcome State Fault Refusal := act s fun s => waitExpired s p

/-! ## Transfers -/

/-- XFER (R292, R293). -/
def execXfer (p : Part) (st : Strm) (s : State) : Host.Outcome State Fault Refusal := act s fun s => transferOp s p st opXFER

/-- FEED (R192, R294). -/
def execFeed (p : Part) (st : Strm) (s : State) : Host.Outcome State Fault Refusal := act s fun s => transferOp s p st opFEED

/-- TRANSFER_PERIOD (R292). -/
def execTransferPeriod (p : Part) (slot : Fin 32) (s : State) : Host.Outcome State Fault Refusal :=
  act s fun s => transferPeriod s p slot

/-! ## Remote commands -/

/-- MOLT_SEND (R379). -/
def execMoltSend (p : Part) (st : Strm) (s : State) : Host.Outcome State Fault Refusal :=
  act s fun s => remoteOp s p st opMOLT fun c => c.get .mode == 0

/-- MOLT_RECV (R380). -/
def execMoltRecv (p : Part) (st : Strm) (s : State) : Host.Outcome State Fault Refusal := act s fun s => moltRecv s p st

/-- MOLT_LOCAL (R381); `MODE` 3 is refused at issue (R378). -/
def moltLocal (s : State) (p : Nat) (st : Strm) : State :=
  match headCmd s p st with
  | some c => if c.op = opMOLT && 2 ≤ c.get .mode then editStep s p st c else s
  | none => s
def execMoltLocal (p : Part) (st : Strm) (s : State) : Host.Outcome State Fault Refusal := act s fun s => moltLocal s p st

/-- RING_STEP_ATTN (R361 to R365): issue; the command starts with its first unit. -/
def execRingStepAttn (p : Part) (st : Strm) (s : State) : Host.Outcome State Fault Refusal :=
  act s fun s => remoteOp s p st opRING fun c => c.get .mode == 0

/-- RING_STEP_GATHER (R361, R366). -/
def execRingStepGather (p : Part) (st : Strm) (s : State) : Host.Outcome State Fault Refusal :=
  act s fun s => remoteOp s p st opRING fun c => c.get .mode == 1

/-- RED_RECV (R369 to R373). -/
def execRedRecv (p : Part) (st : Strm) (s : State) : Host.Outcome State Fault Refusal :=
  act s fun s => remoteOp s p st opRED fun _ => true

/-- MIRROR_SEG (R375, R377). -/
def execMirrorSeg (p : Part) (st : Strm) (s : State) : Host.Outcome State Fault Refusal :=
  act s fun s => remoteOp s p st opMIRROR fun _ => true

/-- MIRROR_ALONE_EXPIRY (R375). -/
def execMirrorAloneExpiry (port : RemPort) (s : State) : Host.Outcome State Fault Refusal :=
  act s fun s => mirrorAlone s port

/-- HEADER_FRAME_RECEIVE (R350 to R354). -/
def execHeaderFrameReceive (port : RemPort) (frame : LinkFrame) (err : Bool) (s : State) :
    Host.Outcome State Fault Refusal := act s fun s => headerReceive s port frame.bytes frame.sof err

/-- DATA_FRAME_RECEIVE (R350 to R356, R376). -/
def execDataFrameReceive (port : RemPort) (frame : LinkFrame) (err : Bool) (s : State) :
    Host.Outcome State Fault Refusal := act s fun s => dataReceive s port frame.bytes frame.sof err

/-- FREED_REPORT_TIMER (R354). -/
def execFreedReportTimer (port : RemPort) (s : State) : Host.Outcome State Fault Refusal :=
  act s fun s => freedReport s port

/-- LINK_UP (R357). -/
def execLinkUp (port : RemPort) (s : State) : Host.Outcome State Fault Refusal := act s fun s => linkUp s port

/-- LINK_DOWN (R357). -/
def execLinkDown (port : RemPort) (s : State) : Host.Outcome State Fault Refusal := act s fun s => linkDown s port

/-- REMOTE_TIMEOUT (R359). -/
def execRemoteTimeout (p : Part) (st : Strm) (stamp : Word) (s : State) : Host.Outcome State Fault Refusal :=
  act s fun s => remoteTimeout s p st stamp

/-! ## The sequencer and the channels -/

/-- RING_POLL (R258 to R261, R265). -/
def execRingPoll (p : Part) (st : Strm) (s : State) : Host.Outcome State Fault Refusal := act s fun s => ringPoll s p st

/-- COMPLETION_RECORD_WRITE (R296, R297). -/
def execCompletionRecordWrite (p : Part) (st : Strm) (s : State) : Host.Outcome State Fault Refusal :=
  act s fun s => launchDue (completeNext s p st) p

/-- CHANNEL_TAKE_UNIT (R282, R309): a channel for which a unit would fit wakes at once (R316); the first unit of a
`ring.step` opens its receive and begins its send. -/
def execChannelTakeUnit (ch : Chan) (s : State) : Host.Outcome State Fault Refusal :=
  act s fun s => remSettle (takeUnit (wakeForUnit s ch) ch)

/-- UNIT_END (R282). -/
def execUnitEnd (ch : Chan) (upset : Option UnitUpset) (s : State) : Host.Outcome State Fault Refusal :=
  act s fun s => unitEnd s ch upset

end Sys2Proof.Machine
end

