-- ==== Sys2Proof/Machine/Fabric.lean ====
section
/-! DEFINITION. The fabric ports (R185, R201, R327 to R334): target requests and their responses, initiator credits,
responses and timeouts, and the work that goes on with an answer. -/

namespace Sys2Proof.Machine

open Sys2Proof

/-! ## Target requests -/

/-- Statuses of Table 13-4. -/
def fabOK : Nat := 0
def fabDECERR : Nat := 1
def fabPROTERR : Nat := 2
def fabDATAERR : Nat := 3
def fabFMTERR : Nat := 4

/-- Fields of a request header (Table 13-2). -/
def hdrOpc (h : BitVec 80) : Nat := field h.toNat 0 4
def hdrTag (h : BitVec 80) : BitVec 8 := BitVec.ofNat 8 (field h.toNat 4 8)
def hdrLen (h : BitVec 80) : Nat := field h.toNat 16 2 + 1
def hdrVa (h : BitVec 80) : Nat := field h.toNat 20 57 * 128

/-- Whether a header breaks its format: reserved bits, `SPC`, an address above bit 55, a 512-byte boundary crossed. -/
def hdrBad (h : BitVec 80) : Bool :=
  field h.toNat 18 2 != 0 || field h.toNat 77 3 != 0 || decide (2 ^ 56 ≤ hdrVa h) ||
    decide (4 < hdrVa h / 128 % 4 + hdrLen h)

/-- Drive a response. -/
def respond (s : State) (f : FabPort) (h : BitVec 80) (status : Nat) (wack : Bool) (data : List (BitVec 1024)) : State :=
  { s with fabOut := s.fabOut ++ [{ port := f, tag := hdrTag h, status := status, wack := wack, data := data }] }

/-- A failing response: zero data. -/
def failResp (s : State) (f : FabPort) (h : BitVec 80) (status : Nat) (write : Bool) : State :=
  respond s f h status write (List.replicate (if write then 1 else hdrLen h) 0)

/-- A target request of a port: it serves the port's partition. -/
def Who.target (s : State) (f : FabPort) : Who :=
  { Who.block 2 with
    part := (fabOwner s f).getD 0xFF
    port := f }

/-- The partition that a target request reaches, and the physical address of its first byte; else the status of the error
response (R201, R331, R401). -/
def targetAt (s : State) (f : FabPort) (h : BitVec 80) (write : Bool) : State × Except Nat Nat :=
  if bitOf (eff s pgFAB 0x104) f then (s, .error fabDECERR)
  else if hdrBad h || hdrOpc h != (if write then 2 else 1) then (s, .error fabFMTERR)
  else
    match fabOwner s f with
    | none => (s, .error fabDECERR)
    | some p =>
      let g := hdrVa h / Config.granule
      let low := xlatField s [] p 2 + xlatField s [] p 3 * 2 ^ 32
      let high := xlatField s [] p 4 + xlatField s [] p 5 * 2 ^ 32
      if g < low || high < g then (s, .error fabDECERR)
      else
        let c : Ctx := { who := Who.target s f, part := p, root := none, owner := .block }
        match xlate s c (hdrVa h) write with
        | (s, .fail cause) => (s, .error (if cause = 2 then fabPROTERR else fabDECERR))
        | (s, .ecc _) => (s, .error fabDATAERR)
        | (s, .ok pa _) => if isHost pa then (s, .error fabDECERR) else (s, .ok pa)

/-- The beats of a run of bytes. -/
def beatsOf (n : Nat) (bs : List Byte) : List (BitVec 1024) :=
  (List.range n).map fun k => BitVec.ofNat 1024 (leNat ((bs.drop (128 * k)).take 128))

/-- Bytes with their mask bits. -/
def maskedBytes (beats : List Beat) : List (Byte × Bool) :=
  beats.flatMap fun b => (leBytes 128 b.data.toNat).zip ((List.range 128).map fun i => b.mask.getLsbD i)

/-- Bytes of a row with those of a masked run put over them. -/
def mergeRun (all : List Byte) (off : Nat) (run : List (Byte × Bool)) : List Byte :=
  all.zipIdx.map fun (b, i) =>
    match (if off ≤ i then run[i - off]? else none) with
    | some (v, true) => v
    | _ => b

/-- Write a masked run that lies in one row: whole, or as a part of the row, which the bank refuses where the row is
uncorrectable (R188, R332). -/
def maskedWrite (s : State) (f : FabPort) (pa : Nat) (run : List (Byte × Bool)) : State × Bool :=
  let row := rowOf pa
  let w := Who.target s f
  if run.all fun e => !e.2 then (s, true)
  else
    let s := touchRows s w.ch pa run.length true
    if run.length = 512 && run.all (·.2) then
      (wroteRow { s with mem := memPut s.mem row (run.map (·.1)) } row, true)
    else if (rowPat s row).isEmpty then
      (wroteRow { s with mem := memPut s.mem row (mergeRun (memBytes s.mem row 512) (pa - row) run) } row, true)
    else
      match readRow s w row with
      | (s, none) => (s, false)
      | (s, some pat) =>
        let all := mergeRun (applyPat pat 0 (memBytes s.mem row 512)) (pa - row) run
        (wroteRow { s with mem := memPut s.mem row all } row, true)

/-- A read is performed. -/
def performRead (s : State) (f : FabPort) (h : BitVec 80) : State :=
  match targetAt s f h false with
  | (s, .error st) => failResp s f h st false
  | (s, .ok pa) =>
    match rowsRead s (Who.target s f) pa (128 * hdrLen h) with
    | (s, .ok bs) => respond s f h fabOK false (beatsOf (hdrLen h) bs)
    | (s, .bad _ _) => failResp s f h fabDATAERR false

/-- A write is performed. -/
def performWrite (s : State) (f : FabPort) (h : BitVec 80) (beats : List Beat) : State :=
  match targetAt s f h true with
  | (s, .error st) => failResp s f h st true
  | (s, .ok pa) =>
    match maskedWrite s f pa (maskedBytes (beats.take (hdrLen h))) with
    | (s, true) => respond s f h fabOK true [0]
    | (s, false) => failResp s f h fabDATAERR true

/-- The ordering class of a request. -/
def hdrOid (h : BitVec 80) : Nat := field h.toNat 12 4

/-- Whether a request must stand behind one that waits: of its nonzero class and its direction (R331). -/
def tqBehind (s : State) (f : FabPort) (h : BitVec 80) (beats : List Beat) : Bool :=
  hdrOid h != 0 && (fabP s f).held.any fun e => hdrOid e.1 == hdrOid h && e.2.isEmpty == beats.isEmpty

/-- A target request, a read where it has no beats of data, is performed, or it waits for rows of a slice in DOZE (R313) and holds the credits of its beats (R329). -/
def tqTake (s : State) (f : FabPort) (h : BitVec 80) (beats : List Beat) : State :=
  let t := if beats.isEmpty then performRead s f h else performWrite s f h beats
  let hold (s : State) : State := updFab s f fun x =>
    { x with held := x.held ++ [(h, beats)], tqCred := x.tqCred - max 1 beats.length }
  if tqBehind s f h beats then hold s else if asks s t then hold (askRows s t) else t

/-- The target requests of a port that waited are tried again, in their order. -/
def tqResume (s : State) (f : FabPort) : State :=
  let l := (fabP s f).held
  if l.isEmpty then s
  else
    let n := (l.map fun e => max 1 e.2.length).foldl (· + ·) 0
    l.foldl (fun s e => tqTake s f e.1 e.2) (updFab s f fun x => { x with held := [], tqCred := x.tqCred + n })

/-- FABRIC_TARGET_READ: a beat without a credit is lost (R330). -/
def targetRead (s : State) (f : FabPort) (h : BitVec 80) (ups : List Upset) : State :=
  if hdrOpc h = 2 || (fabP s f).tqCred = 0 then addUpsets s ups
  else tqTake (bump (addUpsets s ups) f pgFAB 0xF1C 1) f h []

/-- FABRIC_TARGET_WRITE: a request whose beats have not all come is not performed (R330). -/
def targetWrite (s : State) (f : FabPort) (h : BitVec 80) (beats : List Beat) : State :=
  let got := min beats.length (fabP s f).tqCred
  let s := bump s f pgFAB 0xF1C got
  if hdrOpc h = 1 || got < hdrLen h then s else tqTake s f h (beats.take (hdrLen h))

/-- FABRIC_TARGET_READ (R201, R327, R328, R331). -/
def execFabricTargetRead (port : FabPort) (hdr : BitVec 80) (upsets : List Upset) (s : State) :
    Host.Outcome State Fault Refusal := act s fun s => targetRead s port hdr upsets

/-- FABRIC_TARGET_WRITE (R201, R327, R328, R332). -/
def execFabricTargetWrite (port : FabPort) (hdr : BitVec 80) (beats : List Beat) (s : State) :
    Host.Outcome State Fault Refusal := act s fun s => targetWrite s port hdr beats

/-! ## Initiator requests -/

/-- FABRIC_IQ_CREDIT (R329): a credit beyond 255 is lost. -/
def iqCredit (s : State) (f : Nat) : State :=
  if 255 ≤ (fabP s f).iqCred then bump s f pgFAB 0xF18 1
  else
    let s := updFab s f fun x => { x with iqCred := x.iqCred + 1 }
    iqPump (fabP s f).waiting.length s f
def execFabricIqCredit (port : FabPort) (s : State) : Host.Outcome State Fault Refusal := act s fun s => iqCredit s port

/-- What an answered request leaves for its owner: the data of a read; a fault on a nonzero status (R261, R334). `cause`
and `arg` are those of its record. -/
def answer (s : State) (f : Nat) (r : IqReq) (status cause arg : Nat) (bytes : List Byte) : State :=
  let record (w : Who) (s : State) : State :=
    addFault s { faultOf w 8 cause with port := f, addr := r.addr, akind := 3, arg0 := arg }
  if status = 0 then
    if r.write || r.owner == .dropped then s else { s with iqDone := s.iqDone ++ [{ r with data := bytes }] }
  else
    match r.owner with
    | .ring p st =>
      let lg := field (strmField s [] p st.num 4) 0 5
      ringFail (dropHost s r.owner) p st (ringVa s p st 0 + 64 * ((strm s p st).next.toNat % 2 ^ lg))
    | .completion p st =>
      let lg := field (strmField s [] p st.num 4) 8 5
      ringFail s p st (ringVa s p st 2 + 32 * ((strm s p st).cseq.toNat % 2 ^ lg))
    | .dropped => record (Who.block 0) s
    | .block => { record (Who.block 0) s with iqDone := s.iqDone ++ [{ r with bytes := 0, data := [] }] }
    | .command p st stamp ch =>
      let code := if status = fabDATAERR then stECC else stABORTED
      if ch = 0xFE then
        -- a write of a park that is no longer made fails no other
        updPool (record (poolWho p) s) p fun x =>
          { x with parkFail := x.parkFail || x.parking.isSome && x.wait.any fun w => w.strm == st && w.stamp == stamp }
      else
        let s := record { Who.cmd p st stamp 0 with ch := if ch < 8 then ch else 0xFF } s
        if ch = 0xFC then
          -- a prefetch-back that cannot be listed is none (R251)
          updPool s p fun x => { x with prefetch := x.prefetch.filter fun q => !(q.strm == st && q.stamp == stamp) }
        else if ch = 0xFD then
          { s with iqDone := s.iqDone ++ [{ r with addr := code, bytes := 0, data := [], limit := lastFault s }] }
        else endCmd s p st stamp code (lastFault s)

/-- The work that an answer lets go on: a poll, transfers, a park whose writes are answered, remote commands, an image. -/
def iqWork (s : State) (o : Owner) : State :=
  match o with
  | .ring p st => if (strm s p st).polling then ringPoll s p st else s
  | .completion _ _ => s
  | .block => s
  | .dropped => s
  | .command p st _ ch =>
    if ch = 0xFD then (if (strm s p st).polling then ringPoll s p st else s)
    else
      let s := runSlots (if ch = 0xFC then prefetchStep s p else s) p
      let s := allStrms.foldl (fun s t => match parkHeld s p t with
        | some c => finishPark s p t c
        | none => s) s
      launchDue (settle (snapGo (remSettle s) p) p) p

/-- What the streams of a partition can do by themselves. -/
def partWork (s : State) (p : Nat) : State :=
  let s := allStrms.foldl (fun s st => if (strm s p st).polling then ringPoll s p st else s) s
  iqWork s (.command (pf p) .F 0 0xFC)

/-- SRAM_RETENTION_ACK: where it brings a slice back from DOZE, what waited for its rows goes on (R313). -/
def sramAck (s : State) (ch : Nat) (level : Bool) : State :=
  let t := retentionAck s ch level
  if (chan s ch).power == .doze && (chan t ch).power != .doze then
    let t := (List.finRange 32).foldl tqResume t
    allParts.foldl (fun s p => if partLoad s p then partWork s p else s) t
  else t

/-- An answer lets work go on, and commits that waited. -/
def iqContinue (s : State) (o : Owner) : State := cfgSettle (iqWork s o)

/-- FABRIC_IP_RESPONSE: a response to a request that has timed out is discarded and counted, one to no request is
discarded. -/
def ipResponse (s : State) (f : Nat) (h : BitVec 16) (data : List (BitVec 1024)) : State :=
  let tag := field h.toNat 0 8
  let status := field h.toNat 8 3
  let x := fabP s f
  match x.sent.find? fun r => r.tag == tag with
  | none =>
    if x.stale.contains tag then
      let s := bump s f pgFAB 0xF14 1
      let s := updFab s f fun x => { x with stale := x.stale.filter fun t => t != tag }
      iqPump (fabP s f).waiting.length s f
    else s
  | some r =>
    let s := updFab s f fun x => { x with sent := x.sent.filter fun y => y.tag != tag }
    let s := iqPump (fabP s f).waiting.length s f
    let bytes := ((data.flatMap fun b => leBytes 128 b.toNat).drop (r.addr % 128)).take r.bytes
    iqContinue (answer s f r status 1 status bytes) r.owner
def execFabricIpResponse (port : FabPort) (hdr : BitVec 16) (data : List (BitVec 1024)) (s : State) :
    Host.Outcome State Fault Refusal := act s fun s => ipResponse s port hdr data

/-- FABRIC_RESPONSE_TIMEOUT: a request unanswered for its limit is taken as answered with `DECERR`; its tag stays out of
use. -/
def responseTimeout (s : State) (f tag : Nat) : State :=
  match (fabP s f).sent.find? fun r => r.tag == tag with
  | none => s
  | some r =>
    if r.limit = 0 || s.cycle - r.sent < r.limit * 1024 then s
    else
      let s := updFab s f fun x =>
        { x with
          sent := x.sent.filter fun y => y.tag != tag
          stale := x.stale ++ [tag] }
      let s := bump s f pgFAB 0xF10 1
      iqContinue (answer s f r fabDECERR 2 tag []) r.owner
def execFabricResponseTimeout (port : FabPort) (tag : BitVec 8) (s : State) : Host.Outcome State Fault Refusal :=
  act s fun s => responseTimeout s port tag.toNat

end Sys2Proof.Machine
end

