-- ==== Sys2Proof/Machine/Startup.lean ====
section
/-! DEFINITION. Reset and start-up (R325, R414 to R422), the test wrapper (R348, R349). -/

namespace Sys2Proof.Machine

open Sys2Proof

/-! ## Reset -/

/-- RST_N_ASSERT (R325, R349, R416): every register page and all data are lost; `TEST_EN` takes the level it is given.
The commands that wait, the wrapper register and the model's numbering of free values are no part of the reset. -/
def resetAssert (s : State) (testEn : Bool) : State :=
  { State.reset with rstN := false, testEn := testEn, wir := s.wir, free := s.free, pending := s.pending }
def execRstNAssert (testEn : Bool) (s : State) : Host.Outcome State Fault Refusal := .next (resetAssert s testEn)

/-- RST_N_RELEASE (R416): the start-up sequence begins at cycle 0. -/
def resetRelease (s : State) : State := if s.rstN then s else { s with rstN := true, cycle := 0 }
def execRstNRelease (s : State) : Host.Outcome State Fault Refusal :=
  if s.testEn then .fault .testMode else .next (resetRelease s)

/-! ## Start-up -/

/-- A factory row steering takes the lowest free spare of its bank (R179, Table 16-7). -/
def factorySteer (s : State) (e : Word × Word) : State :=
  let row := entryRow e
  if !(rowLoadable s row) then s
  else
    match freeSpare s row with
    | some k => steer s row k
    | none => s

/-- FUSE_LOAD_DONE (R418, R420, R422, Table 16-6): a failed check leaves `BLK` alone readable; else capability,
calibration, steerings, page lanes and table generation 0, and every fabric port is in service. -/
def fuseLoad (s : State) (image : FuseImage) : State :=
  if s.initFuse then s
  else if !(image.crcOk) then cfgSettle { s with initFuse := true, fuseErr := true }
  else
    let s := { s with initFuse := true, fuse := image, gens := [genZero] }
    let s := image.rows.foldl factorySteer s
    let s := (List.range (capCH s)).foldl applyMap s
    let s := (List.range 32).foldl (fun s f => updFab s f fun x => { x with live := true }) s
    cfgSettle s
def execFuseLoadDone (image : FuseImage) (s : State) : Host.Outcome State Fault Refusal := act s fun s => fuseLoad s image

/-- STARTUP_SELF_TEST_DONE (R420): each channel of the grade moves to `OUT` with its report. -/
def startupTest (s : State) (reports : List (List LaneReport)) : State :=
  if !s.initFuse || s.initTest then s
  else
    let s := (List.range (capCH s)).foldl (fun s n => testDone s n (reports.getD n [])) s
    cfgSettle { s with initTest := true }
def execStartupSelfTestDone (reports : List (List LaneReport)) (s : State) : Host.Outcome State Fault Refusal :=
  act s fun s => startupTest s reports

/-- STORE_INIT_DONE (R419): every store row holds zero with fresh code; the slices of the grade are in service, scrub is at
row 0, and the commits that waited go on. -/
def storeInit (s : State) : State :=
  if !s.initFuse || s.initStore then s
  else
    let s := { s with
      initStore := true
      mem := memClear s.mem 0 0x400000000
      rowErr := s.rowErr.filter fun e => !(isStore e.1)
      reported := s.reported.filter fun r => !(isStore r) }
    let s := (List.range (capCH s)).foldl (fun s n => updSlice s n fun x =>
      { x with live := true, mem := { x.mem with scrubPos := 0, scrubAt := s.cycle, queue := [], tracker := [] } }) s
    cfgSettle s
def execStoreInitDone (s : State) : Host.Outcome State Fault Refusal := act s storeInit

/-! ## The wrapper -/

/-- WRAPPER_INSTRUCTION (R348): `WS_EXTEST`, `WS_INTEST` and `WS_CLAMP` load as `WS_BYPASS` while `TEST_EN` is low. No
other state follows the wrapper (R349). Table 13-10 gives no meaning to other codes: the register holds a free value. -/
def wrapperLoad (s : State) (code : BitVec 8) : State :=
  if code = 0x00 || code = 0x10 then { s with wir := code }
  else if code = 0x01 || code = 0x02 || code = 0x03 then { s with wir := if s.testEn then code else 0x00 }
  else { s with wir := (Config.freeWord s.free).setWidth 8, free := s.free + 1 }
def execWrapperInstruction (code : BitVec 8) (s : State) : Host.Outcome State Fault Refusal := .next (wrapperLoad s code)

end Sys2Proof.Machine
end

