-- ==== Sys2Proof/Machine/Events.lean ====
section
/-! DEFINITION. Events of the cadence, the governor, the channels, the memories and the slow-tier ports, and the commands
of `snap`. -/

namespace Sys2Proof.Machine

open Sys2Proof

/-! ## Losses, images -/

/-- LOSS_EDIT (R398). -/
def execLossEdit (p : Part) (s : State) : Host.Outcome State Fault Refusal := act s fun s => lossEdit s p

/-- SNAP (R403, R404): issue. -/
def execSnap (p : Part) (st : Strm) (s : State) : Host.Outcome State Fault Refusal := act s fun s => snapOp s p st

/-- SNAP_QUIESCE (R404, R407). -/
def execSnapQuiesce (p : Part) (s : State) : Host.Outcome State Fault Refusal := act s fun s => snapQuiesce s p

/-- SNAP_TIMEOUT (R405). -/
def execSnapTimeout (p : Part) (s : State) : Host.Outcome State Fault Refusal := act s fun s => snapTimeout s p

/-! ## Channels -/

/-- CHANNEL_RETURN (R75, R169, R450). -/
def execChannelReturn (ch : Chan) (s : State) : Host.Outcome State Fault Refusal := act s fun s => channelReturn s ch

/-- SELF_TEST_START (R75, R76, R450). -/
def execSelfTestStart (ch : Chan) (s : State) : Host.Outcome State Fault Refusal := act s fun s => selfTestStart s ch

/-- SELF_TEST_DONE (R451): a commit that waited for `OUT` goes on. -/
def execSelfTestDone (ch : Chan) (report : List LaneReport) (s : State) : Host.Outcome State Fault Refusal :=
  act s fun s => cfgSettle (selfTestDone s ch report)

/-- CHANNEL_WATCHDOG (R395). -/
def execChannelWatchdog (ch : Chan) (s : State) : Host.Outcome State Fault Refusal := act s fun s => channelWatchdog s ch

/-- CTL_PARITY (R395). -/
def execCtlParity (ch : Chan) (group : BitVec 8) (s : State) : Host.Outcome State Fault Refusal :=
  act s fun s => ctlParity s ch group.toNat

/-! ## Cadence and governor -/

/-- CADENCE_TICK (R299, R300). -/
def execCadenceTick (phase : DWord) (s : State) : Host.Outcome State Fault Refusal := act s fun s => cadenceTick s phase

/-- CAD_VALID_FALL (R344). -/
def execCadValidFall (s : State) : Host.Outcome State Fault Refusal := act s cadFall

/-- CAD_VALID_RISE (R299, R344). -/
def execCadValidRise (s : State) : Host.Outcome State Fault Refusal := act s cadRise

/-- PWR_ACK (R319, R345). -/
def execPwrAck (s : State) : Host.Outcome State Fault Refusal := act s pwrAck

/-- BUDGET_IN_CHANGE (R346). -/
def execBudgetInChange (value : BitVec 16) (s : State) : Host.Outcome State Fault Refusal :=
  act s fun s => budgetTake s value.toNat

/-- BUDGET_REFILL (R310). -/
def execBudgetRefill (s : State) : Host.Outcome State Fault Refusal := act s budgetRefill

/-- TEMPERATURE_READING (R311). -/
def execTemperatureReading (ch : Chan) (code : BitVec 12) (s : State) : Host.Outcome State Fault Refusal :=
  act s fun s => temperature s ch code.toNat

/-- POWER_STATE_ENTRY (R312, R315). -/
def execPowerStateEntry (ch : Chan) (s : State) : Host.Outcome State Fault Refusal := act s fun s => powerEntry s ch

/-- POWER_WAKE_START (R315). -/
def execPowerWakeStart (ch : Chan) (s : State) : Host.Outcome State Fault Refusal := act s fun s => powerWake s ch

/-- DOZE_WAKE_REQUEST (R313). -/
def execDozeWakeRequest (slice : Chan) (s : State) : Host.Outcome State Fault Refusal := act s fun s => dozeWake s slice

/-- SRAM_RETENTION_ACK (R347). -/
def execSramRetentionAck (tier : Chan) (level : Bool) (s : State) : Host.Outcome State Fault Refusal :=
  act s fun s => sramAck s tier level

/-! ## Memories and slow-tier ports -/

/-- DRAIN_RELIEF_EDIT (R400). -/
def execDrainReliefEdit (q : SlowPort) (s : State) : Host.Outcome State Fault Refusal := act s fun s => drainEdit s q

/-- SLOW_PORT_BRING_UP (R429). -/
def execSlowPortBringUp (q : SlowPort) (s : State) : Host.Outcome State Fault Refusal := act s fun s => portClock s q

/-- DFI_INIT_COMPLETE (R429). -/
def execDfiInitComplete (q : SlowPort) (s : State) : Host.Outcome State Fault Refusal := act s fun s => dfiInit s q

/-- SLOW_PORT_READY (R429). -/
def execSlowPortReady (q : SlowPort) (s : State) : Host.Outcome State Fault Refusal := act s fun s => portUp s q

/-- TRAINING_TIMEOUT (R430). -/
def execTrainingTimeout (q : SlowPort) (s : State) : Host.Outcome State Fault Refusal := act s fun s => trainingTimeout s q

/-- DFI_ERROR (R400, R430). -/
def execDfiError (q : SlowPort) (code : BitVec 8) (s : State) : Host.Outcome State Fault Refusal :=
  act s fun s => dfiError s q code

/-- DFI_PHY_UPDATE (R336): granted at a burst boundary; it changes no state that the manual names. -/
def phyUpdate (s : State) (_q : SlowPort) : State := s
def execDfiPhyUpdate (q : SlowPort) (s : State) : Host.Outcome State Fault Refusal := act s fun s => phyUpdate s q

/-- REFRESH (R339): the controller's own commands to the device keep every row as it is. -/
def refreshPort (s : State) (_q : SlowPort) : State := s
def execRefresh (q : SlowPort) (s : State) : Host.Outcome State Fault Refusal := act s fun s => refreshPort s q

/-- PATROL_SCRUB_STEP (R189, R340). -/
def execPatrolScrubStep (unit : RowUnit) (upsets : List Upset) (s : State) : Host.Outcome State Fault Refusal :=
  act s fun s => scrubStep s unit upsets

/-- CORRECTION_WRITE_BACK (R188). -/
def execCorrectionWriteBack (unit : RowUnit) (s : State) : Host.Outcome State Fault Refusal :=
  act s fun s => writeBack s unit

/-- SLICE_LINK_FAIL (R397). -/
def execSliceLinkFail (slice : Chan) (s : State) : Host.Outcome State Fault Refusal := act s fun s => loseSlice s slice 0

end Sys2Proof.Machine
end

