-- ==== Sys2Proof/Machine/Dispatch.lean ====
section
/-! DEFINITION. The effect of a command on everything but the queue: one arm for each constructor. -/

namespace Sys2Proof.Machine

open Sys2Proof

def exec (i : Instr) (s : State) : Host.Outcome State Fault Refusal :=
  match i with
  | .fence p st => Sys2Proof.Machine.execFence p st s
  | .fenceTimeout p st => Sys2Proof.Machine.execFenceTimeout p st s
  | .taskBegin p st => Sys2Proof.Machine.execTaskBegin p st s
  | .taskEnd p st => Sys2Proof.Machine.execTaskEnd p st s
  | .waitPhase p st => Sys2Proof.Machine.execWaitPhase p st s
  | .stamp p st => Sys2Proof.Machine.execStamp p st s
  | .attnFwd p st => Sys2Proof.Machine.execAttnFwd p st s
  | .attnBwdA p st => Sys2Proof.Machine.execAttnBwdA p st s
  | .attnBwdB p st => Sys2Proof.Machine.execAttnBwdB p st s
  | .attnDec p st => Sys2Proof.Machine.execAttnDec p st s
  | .swarmDeadline p => Sys2Proof.Machine.execSwarmDeadline p s
  | .pageSelect p st => Sys2Proof.Machine.execPageSelect p st s
  | .softmax p st => Sys2Proof.Machine.execSoftmax p st s
  | .fn p st => Sys2Proof.Machine.execFn p st s
  | .norm p st => Sys2Proof.Machine.execNorm p st s
  | .rot p st => Sys2Proof.Machine.execRot p st s
  | .seqOpen p st => Sys2Proof.Machine.execSeqOpen p st s
  | .seqAppend p st => Sys2Proof.Machine.execSeqAppend p st s
  | .seqFork p st => Sys2Proof.Machine.execSeqFork p st s
  | .seqFree p st => Sys2Proof.Machine.execSeqFree p st s
  | .seqPark p st => Sys2Proof.Machine.execSeqPark p st s
  | .seqResume p st => Sys2Proof.Machine.execSeqResume p st s
  | .poolCompact p st => Sys2Proof.Machine.execPoolCompact p st s
  | .reclaimWinExpiry p => Sys2Proof.Machine.execReclaimWinExpiry p s
  | .lossEdit p => Sys2Proof.Machine.execLossEdit p s
  | .moltSend p st => Sys2Proof.Machine.execMoltSend p st s
  | .moltRecv p st => Sys2Proof.Machine.execMoltRecv p st s
  | .moltLocal p st => Sys2Proof.Machine.execMoltLocal p st s
  | .xfer p st => Sys2Proof.Machine.execXfer p st s
  | .feed p st => Sys2Proof.Machine.execFeed p st s
  | .transferPeriod p slot => Sys2Proof.Machine.execTransferPeriod p slot s
  | .ringStepAttn p st => Sys2Proof.Machine.execRingStepAttn p st s
  | .ringStepGather p st => Sys2Proof.Machine.execRingStepGather p st s
  | .redRecv p st => Sys2Proof.Machine.execRedRecv p st s
  | .mirrorSeg p st => Sys2Proof.Machine.execMirrorSeg p st s
  | .mirrorAloneExpiry port => Sys2Proof.Machine.execMirrorAloneExpiry port s
  | .snap p st => Sys2Proof.Machine.execSnap p st s
  | .snapQuiesce p => Sys2Proof.Machine.execSnapQuiesce p s
  | .snapTimeout p => Sys2Proof.Machine.execSnapTimeout p s
  | .ringPoll p st => Sys2Proof.Machine.execRingPoll p st s
  | .completionRecordWrite p st => Sys2Proof.Machine.execCompletionRecordWrite p st s
  | .channelTakeUnit ch => Sys2Proof.Machine.execChannelTakeUnit ch s
  | .unitEnd ch upset => Sys2Proof.Machine.execUnitEnd ch upset s
  | .streamArm bits => Sys2Proof.Machine.execStreamArm bits s
  | .streamDisarm bits => Sys2Proof.Machine.execStreamDisarm bits s
  | .cancel value => Sys2Proof.Machine.execCancel value s
  | .commitCalu => Sys2Proof.Machine.execCommitCalu s
  | .rowLoad word1 => Sys2Proof.Machine.execRowLoad word1 s
  | .commitFlt => Sys2Proof.Machine.execCommitFlt s
  | .commitWbt => Sys2Proof.Machine.execCommitWbt s
  | .commitPwr => Sys2Proof.Machine.execCommitPwr s
  | .commitPart => Sys2Proof.Machine.execCommitPart s
  | .commitStrm => Sys2Proof.Machine.execCommitStrm s
  | .commitStore => Sys2Proof.Machine.execCommitStore s
  | .commitXlat => Sys2Proof.Machine.execCommitXlat s
  | .xlatMap => Sys2Proof.Machine.execXlatMap s
  | .xlatUnmap => Sys2Proof.Machine.execXlatUnmap s
  | .commitPool => Sys2Proof.Machine.execCommitPool s
  | .commitFtab => Sys2Proof.Machine.execCommitFtab s
  | .commitMir => Sys2Proof.Machine.execCommitMir s
  | .commitSnap => Sys2Proof.Machine.execCommitSnap s
  | .snapRestore => Sys2Proof.Machine.execSnapRestore s
  | .svcVector ch => Sys2Proof.Machine.execSvcVector ch s
  | .svcRun ch => Sys2Proof.Machine.execSvcRun ch s
  | .channelReturn ch => Sys2Proof.Machine.execChannelReturn ch s
  | .commitPastSpare ch => Sys2Proof.Machine.execCommitPastSpare ch s
  | .selfTestStart ch => Sys2Proof.Machine.execSelfTestStart ch s
  | .selfTestDone ch report => Sys2Proof.Machine.execSelfTestDone ch report s
  | .retest ch => Sys2Proof.Machine.execRetest ch s
  | .commitMemp q => Sys2Proof.Machine.execCommitMemp q s
  | .slowPortDrain q => Sys2Proof.Machine.execSlowPortDrain q s
  | .drainReliefEdit q => Sys2Proof.Machine.execDrainReliefEdit q s
  | .slowPortRetire q => Sys2Proof.Machine.execSlowPortRetire q s
  | .commitRpg => Sys2Proof.Machine.execCommitRpg s
  | .commitFab => Sys2Proof.Machine.execCommitFab s
  | .fabricPortRetire => Sys2Proof.Machine.execFabricPortRetire s
  | .groupCommit => Sys2Proof.Machine.execGroupCommit s
  | .commitSwitch page => Sys2Proof.Machine.execCommitSwitch page s
  | .commitFollowOnEnd page => Sys2Proof.Machine.execCommitFollowOnEnd page s
  | .revert page => Sys2Proof.Machine.execRevert page s
  | .sliceLose bits => Sys2Proof.Machine.execSliceLose bits s
  | .readLCapture addr => Sys2Proof.Machine.execReadLCapture addr s
  | .registerWrite addr data => Sys2Proof.Machine.execRegisterWrite addr data s
  | .rstNAssert testEn => Sys2Proof.Machine.execRstNAssert testEn s
  | .rstNRelease => Sys2Proof.Machine.execRstNRelease s
  | .fuseLoadDone image => Sys2Proof.Machine.execFuseLoadDone image s
  | .startupSelfTestDone reports => Sys2Proof.Machine.execStartupSelfTestDone reports s
  | .storeInitDone => Sys2Proof.Machine.execStoreInitDone s
  | .cadenceTick phase => Sys2Proof.Machine.execCadenceTick phase s
  | .cadValidFall => Sys2Proof.Machine.execCadValidFall s
  | .pwrAck => Sys2Proof.Machine.execPwrAck s
  | .budgetInChange value => Sys2Proof.Machine.execBudgetInChange value s
  | .budgetRefill => Sys2Proof.Machine.execBudgetRefill s
  | .temperatureReading ch code => Sys2Proof.Machine.execTemperatureReading ch code s
  | .powerStateEntry ch => Sys2Proof.Machine.execPowerStateEntry ch s
  | .powerWakeStart ch => Sys2Proof.Machine.execPowerWakeStart ch s
  | .dozeWakeRequest slice => Sys2Proof.Machine.execDozeWakeRequest slice s
  | .sramRetentionAck tier level => Sys2Proof.Machine.execSramRetentionAck tier level s
  | .fabricTargetRead port hdr upsets => Sys2Proof.Machine.execFabricTargetRead port hdr upsets s
  | .fabricTargetWrite port hdr beats => Sys2Proof.Machine.execFabricTargetWrite port hdr beats s
  | .fabricIqCredit port => Sys2Proof.Machine.execFabricIqCredit port s
  | .fabricIpResponse port hdr data => Sys2Proof.Machine.execFabricIpResponse port hdr data s
  | .fabricResponseTimeout port tag => Sys2Proof.Machine.execFabricResponseTimeout port tag s
  | .headerFrameReceive port frame err => Sys2Proof.Machine.execHeaderFrameReceive port frame err s
  | .dataFrameReceive port frame err => Sys2Proof.Machine.execDataFrameReceive port frame err s
  | .freedReportTimer port => Sys2Proof.Machine.execFreedReportTimer port s
  | .linkUp port => Sys2Proof.Machine.execLinkUp port s
  | .linkDown port => Sys2Proof.Machine.execLinkDown port s
  | .remoteTimeout p st stamp => Sys2Proof.Machine.execRemoteTimeout p st stamp s
  | .slowPortBringUp q => Sys2Proof.Machine.execSlowPortBringUp q s
  | .dfiInitComplete q => Sys2Proof.Machine.execDfiInitComplete q s
  | .slowPortReady q => Sys2Proof.Machine.execSlowPortReady q s
  | .trainingTimeout q => Sys2Proof.Machine.execTrainingTimeout q s
  | .dfiError q code => Sys2Proof.Machine.execDfiError q code s
  | .dfiPhyUpdate q => Sys2Proof.Machine.execDfiPhyUpdate q s
  | .refresh q => Sys2Proof.Machine.execRefresh q s
  | .patrolScrubStep unit upsets => Sys2Proof.Machine.execPatrolScrubStep unit upsets s
  | .correctionWriteBack unit => Sys2Proof.Machine.execCorrectionWriteBack unit s
  | .channelWatchdog ch => Sys2Proof.Machine.execChannelWatchdog ch s
  | .ctlParity ch group => Sys2Proof.Machine.execCtlParity ch group s
  | .sliceLinkFail slice => Sys2Proof.Machine.execSliceLinkFail slice s
  | .wrapperInstruction code => Sys2Proof.Machine.execWrapperInstruction code s
  | .cadValidRise => Sys2Proof.Machine.execCadValidRise s

end Sys2Proof.Machine
end

