-- ==== Sys2Proof/Safety.lean ====
section
/-! DEFINITION. The terms in which claims are stated: when the block takes commands, what holds in reset, which commands
act through which pins. -/

namespace Sys2Proof

open Machine

/-- The configuration port answers: out of test mode (R349) and out of reset (R415). -/
def Answers (s : State) : Prop := s.testEn = false ∧ s.rstN = true

/-- The block runs: it answers, and fuse load has not failed (R418). -/
def Runs (s : State) : Prop := s.testEn = false ∧ s.rstN = true ∧ s.fuseErr = false

/-- No access of the configuration port is held and no commit is in progress (R342, R435). -/
def CfgQuiet (s : State) : Prop := s.cfgHeld = [] ∧ s.commits = []

/-- While `RST_N` is low every register is at its reset value and no memory is listed (R415, R416); pins, the wrapper
register, the queue and the model's numbering of free values are no registers of the block. -/
def ResetHeld (s : State) : Prop :=
  s.rstN = false →
    s = { State.reset with
      rstN := false
      testEn := s.testEn
      wir := s.wir
      free := s.free
      pending := s.pending }

/-- `TEST_EN` is low and no waiting command raises it. -/
def NeverTest (s : State) : Prop := s.testEn = false ∧ ∀ c ∈ s.pending, c ≠ .rstNAssert true

/-- Commands that come by `RST_N` or the wrapper's serial port, not through the block's functional ports. -/
def byPins : Instr → Bool
  | .rstNAssert _ | .rstNRelease | .wrapperInstruction _ => true
  | _ => false

/-- Commands that are accesses of the configuration port or what its commits start. -/
def byCfgPort : Instr → Bool
  | .commitCalu | .commitFlt | .commitWbt | .commitPwr | .commitPart | .commitStrm | .commitStore | .commitXlat
  | .xlatMap | .xlatUnmap | .commitPool | .commitFtab | .commitMir | .commitSnap | .snapRestore | .svcVector _
  | .svcRun _ | .commitPastSpare _ | .commitMemp _ | .slowPortDrain _ | .slowPortRetire _ | .commitRpg | .commitFab
  | .fabricPortRetire | .groupCommit | .commitSwitch _ | .commitFollowOnEnd _ | .rowLoad _ | .streamArm _
  | .streamDisarm _ | .cancel _ | .retest _ | .revert _ | .sliceLose _ | .readLCapture _ | .registerWrite _ _ => true
  | _ => false

/-- Rows of start-up (R416). -/
def byStartup : Instr → Bool
  | .fuseLoadDone _ | .startupSelfTestDone _ | .storeInitDone => true
  | _ => false

/-- Rows of the cadence (R299, R344). -/
def byCadence : Instr → Bool
  | .cadenceTick _ | .cadValidFall | .cadValidRise => true
  | _ => false

/-- Rows after which commits and accesses that waited may go on. -/
def lettingGo : Instr → Bool
  | .fabricIpResponse _ _ _ | .fabricResponseTimeout _ _ | .selfTestDone _ _ => true
  | _ => false

/-- Two states show the same through the configuration port's own state: every RW field, in shadow and in effect, page and
commit status, held accesses, captured words, table generations, and how far start-up has come. -/
def SameConfig (s t : State) : Prop :=
  t.shadow = s.shadow ∧ t.effect = s.effect ∧ t.pageStat = s.pageStat ∧ t.commits = s.commits ∧ t.gstat = s.gstat ∧
    t.cfgHeld = s.cfgHeld ∧ t.captured = s.captured ∧ t.rdata = s.rdata ∧ t.rload0 = s.rload0 ∧ t.gens = s.gens ∧
    t.rstat = s.rstat ∧ t.initFuse = s.initFuse ∧ t.fuseErr = s.fuseErr ∧ t.initTest = s.initTest ∧
    t.initStore = s.initStore

/-- The word lists of the configuration space are in ascending order of their keys. -/
def ConfigOrdered (s : State) : Prop :=
  wordsAsc s.shadow ∧ wordsAsc s.effect ∧ wordsAsc s.live ∧ wordsAsc s.pageStat ∧ wordsAsc s.captured

/-! ## Commits -/

/-- The page whose own commit a row is. -/
def commitPage : Instr → Option Nat
  | .commitCalu => some pgCALU
  | .commitFlt => some pgFLT
  | .commitWbt => some pgWBT
  | .commitPwr => some pgPWR
  | .commitPart => some pgPART
  | .commitStrm => some pgSTRM
  | .commitStore => some pgSTORE
  | .commitXlat | .xlatMap | .xlatUnmap => some pgXLAT
  | .commitPool => some pgPOOL
  | .commitFtab => some pgFTAB
  | .commitMir => some pgMIR
  | .commitSnap => some pgSNAP
  | .svcVector ch | .svcRun ch | .commitPastSpare ch => some (pgARY ch)
  | .commitMemp q | .slowPortDrain q | .slowPortRetire q => some (pgMEMP q)
  | .commitRpg => some pgRPG
  | .commitFab | .fabricPortRetire => some pgFAB
  | _ => none

/-- What a row of `commitPage` asks of the shadow: a commit that maps, unmaps, changes the service of a channel, drains or
retires is that row only where the shadow says so; a commit of `SNAP` with `RESTORE` is SNAP_RESTORE. -/
def commitAsked (s : State) : Instr → Bool
  | .xlatMap => mapWritten s false
  | .xlatUnmap => mapWritten s true
  | .commitSnap => !(bitOf (shadowW s pgSNAP 0x100) 3)
  | .svcVector ch => shadowW s (pgARY ch) 0x100 == 1
  | .svcRun ch => shadowW s (pgARY ch) 0x100 == 0
  | .slowPortDrain q => ctlWritten s q 0
  | .slowPortRetire q => ctlWritten s q 1
  | .fabricPortRetire => (bitsOf 32 (shadowW s pgFAB 0x104)).any fun f => !(bitOf (eff s pgFAB 0x104) f)
  | _ => true

/-- The own commit of a page, before its checks. -/
def ownCommit (pg : Nat) : Commit := { group := false, pages := [pg], stage := .waiting }

/-- The commit of the pages that have joined, before its checks (R438). -/
def joinedCommit (s : State) : Commit := { group := true, pages := joinedPages s, stage := .waiting }

/-- The pages whose `COMMITSTAT` a commit writes: a group's is shown in `BLK` too (R438). -/
def statPages (c : Commit) : List Nat := if c.group then pgBLK :: c.pages else c.pages

/-- The state in which the wait and the checks of a commit run, on a quiet port: the commit has started (R435). -/
def commitBegun (s : State) (c : Commit) : State :=
  { (statPages c).foldl (fun s pg => setCommitStat s pg 1) s with commits := [c] }

/-- The own commit of a page does not wait: the port is quiet, the page is there, and no wait condition of the page
holds (R342, R417, R435). -/
def CommitReady (s : State) (pg : Nat) : Prop :=
  Answers s ∧ CfgQuiet s ∧ s.initFuse = true ∧ pagePresent s pg = true ∧
    commitWaits (commitBegun s (ownCommit pg)) (ownCommit pg) = false

/-- A row whose restore runs its checks: the commit itself, where it does not wait, or the end of its wait; `u` is the state of
the checks. -/
def RestoreRow (i : Instr) (s u : State) : Prop :=
  i = .snapRestore ∧ CommitReady s pgSNAP ∧ u = commitBegun s (ownCommit pgSNAP) ∨
  (∃ pg : PageIx, (pg : Nat) = pgSNAP ∧ i = .commitSwitch pg) ∧ Answers s ∧ s.cfgHeld = [] ∧ s.commits = [ownCommit pgSNAP] ∧
    commitWaits s (ownCommit pgSNAP) = false ∧ u = s

/-- A word of a page after its commit: `MAP_COUNT` is zero (R444). -/
def settledWord (pg off v : Nat) : Nat := if pg = pgXLAT ∧ off = 0x110 then 0 else v

/-- Whether a commit has a follow-on that takes time. -/
def longCommit (s : State) (c : Commit) : Bool := c.pages.any (hasFollow s c.pages)

/-- From `s`, in which commit `c` runs, to `t`: every shadow value of its pages is in effect, no other page's words have
changed, and the commit has ended with `OK`, or stays in progress while its follow-on runs; `JOIN` is clear in the pages of
a group, and `GSTAT` names no page (R434, R435, R438). -/
def CommitPassed (s t : State) (c : Commit) : Prop :=
  (c.group = true → (∀ pg : Nat, c.pages.contains pg = true → pageJoined t pg = false) ∧
    (longCommit s c = false → t.gstat = 0)) ∧
  (∀ pg off : Nat, off < 0x1000 →
    eff t pg off = (if c.pages.contains pg then settledWord pg off (shadowW s pg off) else eff s pg off) ∧
    shadowW t pg off = (if c.pages.contains pg then settledWord pg off (shadowW s pg off) else shadowW s pg off)) ∧
  (∀ pg : Nat, commitStat t pg =
    if longCommit s c then commitStat s pg else if (statPages c).contains pg then 2 else commitStat s pg) ∧
  t.commits = (if longCommit s c then [{ c with stage := .follow }] else []) ∧ t.cfgHeld = []

/-- From `s`, in which commit `c` runs, to `t`, refused at field `b` of page `pg`: no field of a page changes. Each page's
`COMMITSTAT` carries the status, that of `pg`, and of `BLK` for a group, the field; `GSTAT` names the page of a group, whose
`JOIN` bits are clear (R436, R438). -/
def CommitRefused (s t : State) (c : Commit) (pg : Nat) (b : Bad) : Prop :=
  t = { s with
    live := t.live
    pageStat := t.pageStat
    commits := []
    gstat := if c.group then pg else s.gstat } ∧
  (c.group = true → ∀ q : Nat, c.pages.contains q = true → pageJoined t q = false) ∧
  ∀ q : Nat, commitStat t q =
    if (statPages c).contains q then
      (2 + b.status * 2 ^ 8 + if q = pg ∨ c.group = true ∧ q = pgBLK then b.off * 2 ^ 16 + b.index % 16 * 2 ^ 28 else 0) % 2 ^ 32
    else commitStat s q

/-! ## Accesses of the configuration port -/

/-- The port is quiet and holds no access to a page (R342, R417). -/
def PortOpen (s : State) (pg : Nat) : Prop := Answers s ∧ CfgQuiet s ∧ (pg = pgBLK ∨ s.initFuse = true)

/-- Words whose write acts: `PAGECTL`, `COMMIT`, the WO words, `STRM.CHEAD`, the entry window of `WBT`. -/
def actionWord (pg off : Nat) : Bool :=
  off == 0x008 || off == 0x010 || pg == pgCALU && (off == 0xF00 || off == 0xF04) ||
    pg == pgSTRM && (off == 0xF10 || off == 0xF14 || off == 0xF18 || offIn off 0xF80 0xFBF && off % 16 == 0xC) ||
    pg == pgSTORE && off == 0xF30 || isChanPage pg && pg % 4 == 0 && off == 0xF58 ||
    pg == pgWBT && offIn off 0x110 0x11F

/-- Whether an owner of reads is the fetch of an armed stream that `bits` names, for the partition of `STRM.SIDX`. -/
def fetchOf (s : State) (bits : Nat) (o : Owner) : Bool :=
  allStrms.any fun st => bitOf bits st.num && (strm s (sidx s) st).armed &&
    (o == .ring (pf (sidx s)) st || o == paramOwner (sidx s) st (strm s (sidx s) st).next)

/-- The access that a row is, where it is one; a commit is the write of `COMMIT.GO`. -/
def accessOf (s : State) : Instr → Option CfgAccess
  | .registerWrite a v => some { addr := a.toNat, data := v, write := true }
  | .readLCapture a => some { addr := a.toNat, data := 0, write := false }
  | .rowLoad w => some { addr := wordAddr pgCALU 0xF04, data := w, write := true }
  | .streamArm b => some { addr := wordAddr pgSTRM 0xF10, data := BitVec.ofNat 32 b.toNat, write := true }
  | .streamDisarm b => some { addr := wordAddr pgSTRM 0xF10, data := BitVec.ofNat 32 (b.toNat * 16), write := true }
  | .cancel v => some { addr := wordAddr pgSTRM 0xF18, data := BitVec.ofNat 32 v.toNat, write := true }
  | .retest ch => some { addr := wordAddr (pgARY ch) 0xF58, data := 1, write := true }
  | .sliceLose b => some { addr := wordAddr pgSTORE 0xF30, data := BitVec.ofNat 32 b.toNat, write := true }
  | .revert pg => some { addr := wordAddr pg 0x008, data := BitVec.ofNat 32 (4 + live s 0 pg 0x008 % 4), write := true }
  | .groupCommit => some { addr := wordAddr pgBLK 0x010, data := 2, write := true }
  | .snapRestore =>
    if bitOf (shadowW s pgSNAP 0x100) 3 then some { addr := wordAddr pgSNAP 0x010, data := 1, write := true } else none
  | c =>
    -- FABRIC_PORT_RETIRE is the end of a wait while a commit of `FAB` is in progress
    if c = .fabricPortRetire ∧ pageBusy s pgFAB = true ∨ commitAsked s c = false then none
    else (commitPage c).map fun pg => { addr := wordAddr pg 0x010, data := 1, write := true }

/-! ## Commands of the streams -/

/-- The control command that a row issues, by opcode. -/
def controlRow : Instr → Option (Part × Strm × Nat)
  | .fence p st => some (p, st, opFENCE)
  | .taskBegin p st => some (p, st, opTASKBEGIN)
  | .taskEnd p st => some (p, st, opTASKEND)
  | .waitPhase p st => some (p, st, opWAITPHASE)
  | .stamp p st => some (p, st, opSTAMP)
  | _ => none

/-- The channel command that a row issues, by opcode. -/
def chanRow : Instr → Option (Part × Strm × Nat)
  | .attnFwd p st => some (p, st, opFWD)
  | .attnBwdA p st => some (p, st, opBWDA)
  | .attnBwdB p st => some (p, st, opBWDB)
  | .attnDec p st => some (p, st, opDEC)
  | .pageSelect p st => some (p, st, opSELECT)
  | .softmax p st => some (p, st, opSOFTMAX)
  | .fn p st => some (p, st, opFN)
  | .norm p st => some (p, st, opNORM)
  | .rot p st => some (p, st, opROT)
  | _ => none

/-- The edit of the pool that a row makes, by opcode. A park and a local molt have rules of their own. -/
def editRow : Instr → Option (Part × Strm × Nat)
  | .seqOpen p st => some (p, st, opOPEN)
  | .seqAppend p st => some (p, st, opAPPEND)
  | .seqFork p st => some (p, st, opFORK)
  | .seqFree p st => some (p, st, opFREE)
  | .seqResume p st => some (p, st, opRESUME)
  | .poolCompact p st => some (p, st, opCOMPACT)
  | _ => none

/-- The transfer command that a row issues and starts, by opcode. -/
def transferRow : Instr → Option (Part × Strm × Nat)
  | .xfer p st => some (p, st, opXFER)
  | .feed p st => some (p, st, opFEED)
  | _ => none

/-- The command of the remote ports that a row issues and starts, by opcode and mode. -/
def remoteRow : Instr → Option (Part × Strm × Nat × (Cmd → Bool))
  | .moltSend p st => some (p, st, opMOLT, fun c => c.get .mode == 0)
  | .moltRecv p st => some (p, st, opMOLT, fun c => c.get .mode == 1)
  | .ringStepAttn p st => some (p, st, opRING, fun c => c.get .mode == 0)
  | .ringStepGather p st => some (p, st, opRING, fun c => c.get .mode == 1)
  | .redRecv p st => some (p, st, opRED, fun _ => true)
  | .mirrorSeg p st => some (p, st, opMIRROR, fun _ => true)
  | _ => none

/-- Command `k` is the next to issue in its stream, its parameter block was read, and it waits for no edit before it
(R216, R265, R274). -/
def MayIssue (s : State) (p : Nat) (st : Strm) (k : Cmd) : Prop :=
  headCmd s p st = some k ∧ k.paramErr = 0 ∧ (poolReads s p k && editBefore (strm s p st) k) = false

/-- The state and the command once the pin is taken that a command which reads the pool holds; `none` while there is no
slot for one (R225). -/
def pinned (s : State) (p : Nat) (st : Strm) (k : Cmd) : Option (State × Cmd) :=
  if poolReads s p k then takeCmdPin s p st k else some (s, k)

/-- A slice's retention ends and its channel begins to wake (R347). -/
def dozeLeft (s : State) (ch : Nat) : State :=
  updChan (updSlice s ch fun x => { x with ret := false }) ch fun x =>
    { x with waking := true, wakeAt := s.cycle, wakeLate := false }

/-- From `s` to `t` channels and slices change only where a dozing slice begins to wake (R313). -/
def DozeAlone (s t : State) : Prop :=
  ∀ n : Nat, n < 8 → chan t n = chan s n ∧ slice t n = slice s n ∨
    (chan s n).power = .doze ∧ (chan s n).waking = false ∧ chan t n = chan (dozeLeft s n) n ∧
      slice t n = { slice s n with ret := false }

/-- Whether a unit of an eligible command fits a channel of a partition in service (R309, R316). -/
def unitFits (s : State) (ch : Nat) : Bool :=
  match chanOwner s ch with
  | none => false
  | some p => chLive s ch && (chan s ch).unit.isNone && (chosen s p ch).isSome

/-- The counters of waiting of partition `n` and of channel `n`: `STRM.CQ_FULL`, `STRM.WC_WAIT`, `POOL.PIN_WAIT`,
`PWR.WAIT_ALLOW`, `PWR.WAIT_BUD` and `PWR.WAIT_HEAT` (R225, R281, R297, R309). -/
def waitKeys (n : Nat) : List Nat :=
  [liveKey n pgSTRM 0xF28, liveKey n pgSTRM 0xF20, liveKey n pgPOOL 0xF38, liveKey n pgPWR 0xF28, liveKey n pgPWR 0xF2C,
    liveKey n pgPWR 0xF30]

/-- What ends by itself in a partition after its work, and the swarms that are due (R140, R277 to R279). -/
def settled (s : State) (p : Nat) : State := launchDue (settle s p) p

/-- What follows an edit in its partition: the moves of prefetch-back that wait, and what ends by itself (R251). -/
def edited (s : State) (p : Nat) : State := settled (prefetchStep s p) p

/-- The command of a row of `remoteRow` that is issued and not started. -/
def readyRemote (s : State) (p : Nat) (st : Strm) (op : Nat) (mine : Cmd → Bool) : Option Cmd :=
  (strm s p st).cmds.find? fun c => c.op == op && mine c && c.stage == .issued && !(c.isChan)

/-- The transfer command of an opcode that is issued and not started. -/
def readyTransfer (s : State) (p : Nat) (st : Strm) (op : Nat) : Option Cmd :=
  (strm s p st).cmds.find? fun c => c.op == op && c.stage == .issued

/-- A `molt` receive whose frames have all come, and that waits for its edit (R380). -/
def heldMolt (s : State) (p : Nat) (st : Strm) : Option Cmd :=
  (strm s p st).cmds.find? fun c => c.op == opMOLT && c.get .mode == 1 && c.stage == .started && c.jobOver

end Sys2Proof
end

