-- ==== Sys2Proof/Certificates/Slice0/Obligations.lean ====
section
/-! DEFINITION. What is claimed of the block, each a proposition for the provers. -/

open Sys2Proof Sys2Proof.Machine

/-! ## The queue, reset and test mode -/

/-- A step runs the command at the front of the queue on the state with the queue's rest. What the manual leaves
open is the model's choice (log entry 6). -/
def Obligations.StepRunsFrontCommand : Prop :=
  ∀ (c : Instr) (rest : List Instr) (s : State),
    step { s with pending := c :: rest } = exec c { s with pending := rest }

/-- From every state out of test mode whose queue raises no `TEST_EN`, every number of steps ends in a next state:
no command stops the block, and as many steps as commands wait leave the queue empty. What the manual leaves open is
the model's choice (log entries 1, 5). -/
def Obligations.EveryQueueDrains : Prop :=
  ∀ (s : State), NeverTest s →
    (∀ k : Nat, ∃ t : State, Host.Core.run Sys2Proof.core k s = .next t) ∧
      ∃ t : State, Host.Core.run Sys2Proof.core s.pending.length s = .next t ∧ t.pending = [] ∧ t.testEn = false

/-- While `RST_N` is low every register of the block is at its reset value, whatever commands come (R415, R416).
What the manual leaves open is the model's choice (log entries 3, 8). -/
def Obligations.ResetStateIsKept : Prop :=
  ∀ (s t : State), ResetHeld s → step s = .next t → ResetHeld t

/-- The state after reset meets the invariant of `ResetStateIsKept`, and so does the block while `RST_N` is low.
What the manual leaves open is the model's choice (log entries 3, 8). -/
def Obligations.ResetMeetsResetState : Prop :=
  ResetHeld State.reset ∧ ∀ (s : State) (te : Bool), ResetHeld (resetAssert s te) ∧ (resetAssert s te).rstN = false

/-- In reset no command changes anything but those of the pins (R415). What the manual leaves open is the model's
choice (log entry 7). -/
def Obligations.ResetIsInert : Prop :=
  ∀ (c : Instr) (s : State), s.testEn = false → s.rstN = false → byPins c = false → exec c s = .next s

/-- While `TEST_EN` is high no functional behaviour is promised: every command but a reset and a load of the wrapper
register stops by name (R349). What the manual leaves open is the model's choice (log entry 5). -/
def Obligations.TestModeStopsByName : Prop :=
  ∀ (c : Instr) (s : State), s.testEn = true →
    ((∀ te, c ≠ .rstNAssert te) → (∀ code, c ≠ .wrapperInstruction code) → exec c s = .fault .testMode)

/-- After a failed fuse load only the configuration port acts (R418). What the manual leaves open is the model's
choice (log entry 7). -/
def Obligations.FailedFuseLoadLeavesConfigurationPort : Prop :=
  ∀ (c : Instr) (s : State), Answers s → s.fuseErr = true → byPins c = false → byCfgPort c = false →
    exec c s = .next s

/-- No command of the functional ports changes the levels of `RST_N` and `TEST_EN`, the wrapper register or the
queue. What the manual leaves open is the model's choice (log entry 10). -/
def Obligations.CommandsLeavePinsAndQueue : Prop :=
  ∀ (c : Instr) (s t : State), byPins c = false → exec c s = .next t →
    t.rstN = s.rstN ∧ t.testEn = s.testEn ∧ t.wir = s.wir ∧ t.pending = s.pending

/-! ## Memory, and who may change the configuration -/

/-- Under every step the listed memory keeps its canonical form, and the word lists of the configuration space keep
the order under which a read of a word gives what was written. What the manual leaves open is the model's choice
(log entry 4). -/
def Obligations.StorageStaysCanonical : Prop :=
  ∀ (s t : State), step s = .next t → (s.mem.wf → t.mem.wf) ∧ (ConfigOrdered s → ConfigOrdered t)

/-- The state after reset has its memory in canonical form and its word lists in order. -/
def Obligations.ResetMeetsInvariants : Prop := State.reset.mem.wf ∧ ConfigOrdered State.reset

/-- No command but those of the configuration port and of start-up changes a register's fields, in shadow or in
effect, a page's status, a commit, a held access or how far start-up has come; the phase and the wingbeat table
change by rows of the cadence alone (R299, R342, R433 to R435). Commands that let a waiting commit go on do so only
where one waits. What the manual leaves open is the model's choice (log entry 14). -/
def Obligations.ConfigurationChangesThroughItsPort : Prop :=
  ∀ (c : Instr) (s t : State), byPins c = false → byCfgPort c = false → byStartup c = false →
    (lettingGo c = true → CfgQuiet s) → exec c s = .next t →
    SameConfig s t ∧ (byCadence c = false → t.cad = s.cad ∧ t.wbt = s.wbt)

/-! ## Commits -/

/-- A commit whose checks pass puts every shadow value of its page into effect at once and changes no other page's
words; it has ended with `OK`, or its follow-on keeps it in progress (R434 to R436, R444). What the manual leaves
open is the model's choice (log entries 11, 15). -/
def Obligations.CommitTakesEffect : Prop :=
  ∀ (c : Instr) (s : State) (pg : Nat), commitPage c = some pg → commitAsked s c = true → CommitReady s pg →
    ConfigOrdered s → commitBad (commitBegun s (ownCommit pg)) [pg] = none →
    ∃ t : State, exec c s = .next t ∧ CommitPassed (commitBegun s (ownCommit pg)) t (ownCommit pg)

/-- When a check fails, nothing of the page changes, and its `COMMITSTAT` alone names the field and the status (R436);
where a slot of the wingbeat table overlaps, that slot shows in `WBT.INDEX`, and every other live word keeps its
value (R303). What the manual leaves open is the model's choice (log entries 11, 12, 60). -/
def Obligations.RefusedCommitChangesNothing : Prop :=
  ∀ (c : Instr) (s : State) (pg : Nat) (bad : Bad), commitPage c = some pg → commitAsked s c = true → CommitReady s pg →
    ConfigOrdered s → commitBad (commitBegun s (ownCommit pg)) [pg] = some (pg, bad) →
    ∃ t : State, exec c s = .next t ∧
      t = { s with
        live := t.live
        pageStat := t.pageStat } ∧
      (pg ≠ pgWBT ∨ bad.off ≠ 0x110 → t.live = s.live) ∧
      (pg = pgWBT → bad.off = 0x110 → live t 0 pgWBT 0xF00 = (slotOverlap (shadowTable s)).getD 0 ∧
        ∀ j q o : Nat, liveKey j q o ≠ liveKey 0 pgWBT 0xF00 → live t j q o = live s j q o) ∧
      (∀ q : Nat, q ≠ pg → commitStat t q = commitStat s q) ∧
      commitStat t pg = (2 + bad.status * 2 ^ 8 + bad.off * 2 ^ 16 + bad.index % 16 * 2 ^ 28) % 2 ^ 32

/-- A commit that waits, of one page or of a group, does nothing while its wait holds but to ask for rows of slices in
`DOZE`. When the wait has ended it goes on: every page switches, or none where a check fails (R435 to R438). What the
manual leaves open is the model's choice (log entries 14, 68). -/
def Obligations.WaitingCommitSwitches : Prop :=
  ∀ (s : State) (pg : PageIx) (c : Commit), Answers s → s.cfgHeld = [] → s.commits = [c] → c.stage = .waiting →
    c.pages.contains (pg : Nat) = true ∨ c.group = true ∧ (pg : Nat) = pgBLK → ConfigOrdered s →
    (c.pages.contains pgSNAP = true → bitOf (shadowW s pgSNAP 0x100) 3 = false) →
    (commitWaits s c = true → anyDoze s = false → exec (.commitSwitch pg) s = .next s) ∧
    (commitWaits s c = false → commitBad s c.pages = none →
      ∃ t : State, exec (.commitSwitch pg) s = .next t ∧ CommitPassed s t c) ∧
    (commitWaits s c = false → ∀ (q : Nat) (b : Bad), commitBad s c.pages = some (q, b) →
      ∃ t : State, exec (.commitSwitch pg) s = .next t ∧ CommitRefused s t c q b)

/-- The pages that have joined take effect together, or where a check fails none does; `BLK` shows the group's end, with the
field and its page where it is refused, and `JOIN` clears in every page of the group (R438). What the manual leaves open is
the model's choice (log entry 11). -/
def Obligations.GroupSwitchesTogether : Prop :=
  ∀ s : State, Answers s → CfgQuiet s → s.fuseErr = false → ConfigOrdered s →
    let u := commitBegun s (joinedCommit s)
    commitWaits u (joinedCommit s) = false →
    (commitBad u (joinedPages s) = none →
      ∃ t : State, exec .groupCommit s = .next t ∧ CommitPassed u t (joinedCommit s)) ∧
    (∀ (q : Nat) (b : Bad), commitBad u (joinedPages s) = some (q, b) →
      ∃ t : State, exec .groupCommit s = .next t ∧ CommitRefused u t (joinedCommit s) q b)

/-- The follow-on of a commit, of one page or of a group, ends: the commit is over with `OK`, a table generation that was
being written becomes current, and a restore, whose writes must have been answered, clears `RESTORE` in shadow and effect
(R164, R435, R438, R447). Nothing else changes, the status of every other page among it. What the manual leaves open is
the model's choice (log entry 15). -/
def Obligations.FollowOnEnds : Prop :=
  ∀ (s : State) (pg : PageIx) (c : Commit), Answers s → s.cfgHeld = [] → s.commits = [c] → c.stage = .follow →
    c.pages.contains (pg : Nat) = true ∨ c.group = true ∧ (pg : Nat) = pgBLK → ConfigOrdered s →
    (c.pages.contains pgSNAP = true → iqOutstanding s .block = true → exec (.commitFollowOnEnd pg) s = .next s) ∧
    (c.pages.contains pgSNAP = false ∨ iqOutstanding s .block = false →
      ∃ t : State, exec (.commitFollowOnEnd pg) s = .next t ∧
        t = { (if c.pages.contains pgFTAB = true then ftabCurrent s else s) with
          shadow := t.shadow
          effect := t.effect
          commits := []
          pageStat := t.pageStat
          gstat := if c.group then 0 else s.gstat } ∧
        (let ends (q o : Nat) : Prop :=
          c.pages.contains pgSNAP = true ∧ bitOf (shadowW s pgSNAP 0x100) 3 = true ∧ q = pgSNAP ∧ o = 0x100
         ∀ q o : Nat, o < 0x1000 → (¬ ends q o → shadowW t q o = shadowW s q o ∧ eff t q o = eff s q o) ∧
          (ends q o → shadowW t q o = shadowW s q o &&& 0x17 ∧ eff t q o = eff s q o &&& 0x17)) ∧
        ∀ q : Nat, commitStat t q = if (statPages c).contains q then 2 else commitStat s q)

/-- A commit of `SNAP` with `RESTORE`, at once or when its wait has ended (R409, R410, R447). One whose image cannot be
restored is refused with the reason in `RSTAT`, nothing is written (on memory without errors no byte changes at all; a
read may retire a row in error, R386), and of the fields only the restore's bit changes; that reason 5 shows before those
that name the same field is the model's reading (log entry 16). One that passes its checks
writes the image and stays in progress until its writes are done, the schedule of each stream that of the image, with
counters and slots free. What the manual leaves open is the model's choice (log entries 15, 83). -/
def Obligations.RestoreWritesOrRefuses : Prop :=
  ∀ (i : Instr) (s u : State), RestoreRow i s u → ConfigOrdered s → bitOf (shadowW s pgSNAP 0x100) 3 = true →
    let p := restorePart s
    (∀ (v : State) (off r : Nat), restoreCheck u = .fail v off r → ∃ t : State, exec i s = .next t ∧
      (s.rowErr = [] → t.mem = s.mem) ∧ t.parts = s.parts ∧
      t = { dropHost v .block with
        shadow := t.shadow
        effect := t.effect
        pageStat := t.pageStat
        commits := []
        rstat := r } ∧
      (∀ q o : Nat, o < 0x1000 → shadowW t q o =
        if q = pgSNAP ∧ o = 0x100 then shadowW s pgSNAP 0x100 &&& 0x17 else shadowW s q o) ∧
      (∀ q o : Nat, o < 0x1000 → eff t q o =
        if q = pgSNAP ∧ o = 0x100 then eff s pgSNAP 0x100 &&& 0x17 else eff s q o) ∧
      commitStat t pgSNAP = (2 + stCONFLICT * 2 ^ 8 + off * 2 ^ 16) % 2 ^ 32 ∧
      ∀ q : Nat, q ≠ pgSNAP → commitStat t q = commitStat s q) ∧
    (partArmed s p = true ∨ partLoad s p = false → restoreCheck u = .fail u 0x100 5) ∧
    (∀ (v : State) (hdr : List Byte) (secs : List (List Byte)), restoreCheck u = .pass v hdr secs →
      commitBad (dropHost v .block) [pgSNAP] = none →
      ∃ t : State, exec i s = .next t ∧
        t = keepPins s { restoreWrite (switchPages (dropHost v .block) [pgSNAP]) hdr secs with
          commits := [{ ownCommit pgSNAP with stage := .follow }] } ∧
        (∀ st : Strm,
          let word (k : Nat) : Word := BitVec.ofNat 32 (leAt (secs.getD 1 []) (32 * st.num + 4 * k) 4)
          (strm t p st).next = word 0 ∧ (strm t p st).low = word 1 ∧ (strm t p st).cseq = word 2 ∧
          (strm t p st).chead = word 3 ∧ (strm t p st).doneSet = []) ∧
        (part t p).counters = [] ∧ (part t p).slots = [])

/-! ## Accesses of the configuration port -/

/-- Every word of an absent page reads `0x0000_0000`, and a write to the page is discarded without any status (R5). -/
def Obligations.AbsentPageReadsZero : Prop :=
  ∀ (addr : BitVec 24) (v : Word) (s : State), PortOpen s (addr.toNat / 0x1000) →
    pagePresent s (addr.toNat / 0x1000) = false →
    exec (.readLCapture addr) s = .next { s with rdata := 0 } ∧ exec (.registerWrite addr v) s = .next s

/-- A write of an RW word writes the shadow, the bits that a table marks zero left out, and nothing else (R433, R434). -/
def Obligations.RegisterWriteReachesShadow : Prop :=
  ∀ (addr : BitVec 24) (v : Word) (s : State) (pg off : Nat), pg = addr.toNat / 0x1000 → off = addr.toNat % 0x1000 →
    PortOpen s pg → pagePresent s pg = true → ConfigOrdered s → rwMask s pg off ≠ 0 →
    ∃ t : State, exec (.registerWrite addr v) s = .next t ∧ t = { s with shadow := t.shadow } ∧
      shadowW t pg off = v.toNat &&& rwMask s pg off ∧
      ∀ q o : Nat, o < 0x1000 → ¬(q = pg ∧ o = off) → shadowW t q o = shadowW s q o

/-- A write of a live word loads it at once (R440), and one of a W1C word clears the bits written as 1; a write of any word
that is neither RW, live, W1C nor an action is discarded without any status (R433). Of the words whose write acts and that
no row of its own writes: `PAGECTL` takes `VIEW`, and `JOIN` where the page has one (R434, R438); `RLOAD0` keeps the word
for `RLOAD1` (R427); `WBT.ENTRYk` writes its word of the entry that `INDEX` selects (R302); `CHEADs` and `CUNTIL` load
the streams of the partition that `SIDX` shows (R290, R297). -/
def Obligations.LiveWritesLoadAndOthersAreDiscarded : Prop :=
  ∀ (addr : BitVec 24) (v : Word) (s : State) (pg off : Nat), pg = addr.toNat / 0x1000 → off = addr.toNat % 0x1000 →
    PortOpen s pg → pagePresent s pg = true → ConfigOrdered s →
    (rwMask s pg off = 0 → actionWord pg off = false →
      (∀ i m : Nat, liveWord s pg off = some (i, m) → ∃ t : State, exec (.registerWrite addr v) s = .next t ∧
        t = { s with live := t.live } ∧ live t i pg off = v.toNat &&& m ∧
        ∀ j q o : Nat, liveKey j q o ≠ liveKey i pg off → live t j q o = live s j q o) ∧
      (liveWord s pg off = none → w1cWord s pg off = none → exec (.registerWrite addr v) s = .next s)) ∧
    (∀ i m : Nat, w1cWord s pg off = some (i, m) → ∃ t : State, exec (.registerWrite addr v) s = .next t ∧
      t = { s with live := t.live } ∧
      live t i pg off = live s i pg off &&& (m ^^^ (v.toNat &&& m)) ∧
      ∀ j q o : Nat, liveKey j q o ≠ liveKey i pg off → live t j q o = live s j q o) ∧
    (off = 0x008 → bitOf v.toNat 2 = false → ∃ t : State, exec (.registerWrite addr v) s = .next t ∧
      t = { s with live := t.live } ∧ live t 0 pg 0x008 = v.toNat &&& (if pageJoin pg then 3 else 2) ∧
      ∀ j q o : Nat, liveKey j q o ≠ liveKey 0 pg 0x008 → live t j q o = live s j q o) ∧
    (pg = pgCALU → off = 0xF00 → exec (.registerWrite addr v) s = .next { s with rload0 := v }) ∧
    (pg = pgWBT → off % 4 = 0 → 0x110 ≤ off → off < 0x120 → exec (.registerWrite addr v) s = .next { s with
      wbt := { s.wbt with shadow := wordsSet s.wbt.shadow (4 * live s 0 pgWBT 0xF00 + (off - 0x110) / 4) 0 v } }) ∧
    (∀ st : Strm, pg = pgSTRM → off = 0xF8C + 0x10 * st.num → exec (.registerWrite addr v) s =
      .next (updStrm s (sidx s) st fun x => { x with chead := v })) ∧
    (pg = pgSTRM → off = 0xF14 → exec (.registerWrite addr v) s =
      .next (allStrms.foldl (fun u st => updStrm u (sidx s) st fun x => { x with cuntil := v }) s))

/-- A read of a word of a present page. An RW word shows its shadow, or the value in effect while `VIEW` is 1, and an RO, LV
or W1C word what it holds (R433, R434); of an untimed counter (log entry 18) nothing is claimed here. A read of the `L` word
of a pair captures both words in one cycle, and one of the `H` word returns the word captured, whatever the register
holds by then (R343); a read of `CURL` captures the three words of the channel's unit, and `CURSTAMP` and `CURUNIT` show
the captured ones (R453). -/
def Obligations.PairReadsAreConsistent : Prop :=
  ∀ (addr : BitVec 24) (s : State) (pg off : Nat), pg = addr.toNat / 0x1000 → off = addr.toNat % 0x1000 →
    PortOpen s pg → pagePresent s pg = true → ConfigOrdered s →
    (rwMask s pg off ≠ 0 → pg ≠ pgWBT → exec (.readLCapture addr) s = .next { s with
      rdata := BitVec.ofNat 32 (if pageView s pg then eff s pg off else shadowW s pg off) }) ∧
    (pg = pgWBT → off = 0x100 ∨ off = 0x104 → exec (.readLCapture addr) s = .next { s with
      rdata := if pageView s pg then (if off = 0x100 then s.wbt.table.period else s.wbt.table.count)
        else BitVec.ofNat 32 (shadowW s pg off) }) ∧
    (pairLow pg off = false → pairHigh pg off = false → untimed pg off = false →
      ¬(∃ n : Nat, n < 8 ∧ pg = pgPIPE n ∧ off = 0xF00) →
      exec (.readLCapture addr) s = .next { s with rdata := BitVec.ofNat 32 (showWord s pg off) }) ∧
    (∀ n : Nat, n < 8 → pg = pgPIPE n → off = 0xF00 → exec (.readLCapture addr) s = .next { updChan s n (fun x =>
      { x with curCap := curWords s n }) with rdata := (curWords s n).1 }) ∧
    (∀ n : Nat, n < 8 → pg = pgPIPE n → off = 0xF04 → exec (.readLCapture addr) s =
      .next { s with rdata := (chan s n).curCap.2.1 }) ∧
    (∀ n : Nat, n < 8 → pg = pgPIPE n → off = 0xF08 → exec (.readLCapture addr) s =
      .next { s with rdata := (chan s n).curCap.2.2 }) ∧
    (pairLow pg off = true → ∃ t : State, exec (.readLCapture addr) s = .next t ∧
      t = { s with
        rdata := BitVec.ofNat 32 (showWord s pg off)
        captured := t.captured } ∧
      wordsGet t.captured (addr.toNat + 4) 0 = BitVec.ofNat 32 (showWord s pg (off + 4))) ∧
    (pairHigh pg off = true →
      exec (.readLCapture addr) s = .next { s with rdata := wordsGet s.captured addr.toNat 0 })

/-- An access waits behind those that wait, while its page has a commit in progress, and, but for `BLK`, until fuse load
is done (R342, R417, R435); the words of `BLK.CBUSY`, which the driver watches while a commit runs, do not wait for a
group commit (the model's reading, log entry 14). -/
def Obligations.AccessIsHeld : Prop :=
  ∀ (c : Instr) (s : State) (a : CfgAccess), Answers s → accessOf s c = some a →
    s.cfgHeld ≠ [] ∨
      pageBusy s (a.addr / 0x1000) = true ∧ (a.addr / 0x1000 = pgBLK → ¬(0xF30 ≤ a.addr % 0x1000 ∧ a.addr % 0x1000 < 0xF3C)) ∨
      a.addr / 0x1000 ≠ pgBLK ∧ s.initFuse = false →
    exec c s = .next { s with cfgHeld := s.cfgHeld ++ [a] }

/-- Arming bits arm the streams of the partition that `STRM.SIDX` shows; a stream that is armed or drains is refused with
`BUSY`; nothing is armed where the partition is not loaded (R262, R307). -/
def Obligations.ArmBitsArm : Prop :=
  ∀ (bits : BitVec 4) (s : State), PortOpen s pgSTRM → s.fuseErr = false → ConfigOrdered s →
    (partLoad s (sidx s) = false → exec (.streamArm bits) s = .next s) ∧
    (partLoad s (sidx s) = true → ∃ t : State, exec (.streamArm bits) s = .next t ∧
      t = { (allStrms.foldl (fun u st => if bitOf bits.toNat st.num && !(strm s (sidx s) st).armed then
        updStrm u (sidx s) st (fun x => { x with armed := true, draining := false }) else u) s) with live := t.live } ∧
      (∀ st : Strm, strm t (sidx s) st =
        if bitOf bits.toNat st.num && !(strm s (sidx s) st).armed then
          { strm s (sidx s) st with armed := true, draining := false }
        else strm s (sidx s) st) ∧
      (live t (sidx s) pgSTRM 0xF1C =
        if allStrms.any (fun st => bitOf bits.toNat st.num && (strm s (sidx s) st).armed)
        then live s (sidx s) pgSTRM 0xF1C ||| 1 else live s (sidx s) pgSTRM 0xF1C))

/-- Disarming bits stop the fetch: a stream with no command is disarmed, one with commands drains (R262). That what the fetch
read or has in flight serves nothing any more is the model's reading (log entry 23); no other read is touched. -/
def Obligations.DisarmBitsDrain : Prop :=
  ∀ (bits : BitVec 4) (s : State), PortOpen s pgSTRM → s.fuseErr = false →
    (partLoad s (sidx s) = false → exec (.streamDisarm bits) s = .next s) ∧
    (partLoad s (sidx s) = true → ∃ t : State, exec (.streamDisarm bits) s = .next t ∧
      t = dropReads (allStrms.foldl (fun u st => if bitOf bits.toNat st.num && (strm s (sidx s) st).armed then
        updStrm u (sidx s) st (fun x => if x.cmds.isEmpty then { x with armed := false, draining := false, polling := false }
          else { x with draining := true, polling := false }) else u) s) (fetchOf s bits.toNat) ∧
      ∀ st : Strm, strm t (sidx s) st =
        if bitOf bits.toNat st.num && (strm s (sidx s) st).armed then
          (if (strm s (sidx s) st).cmds.isEmpty then
            { strm s (sidx s) st with armed := false, draining := false, polling := false }
          else { strm s (sidx s) st with
            draining := true
            polling := false })
        else strm s (sidx s) st)

/-- `REVERT` discards every uncommitted write of a page and changes no other page, no value in effect and no live word
but the page's own `PAGECTL`, whose `VIEW` stays, and `JOIN` where the page has one (R433, R434). -/
def Obligations.RevertRestoresEffect : Prop :=
  ∀ (pg : PageIx) (s : State), PortOpen s pg → pagePresent s pg = true → ConfigOrdered s →
    ∃ t : State, exec (.revert pg) s = .next t ∧
      t = { s with
        shadow := t.shadow
        live := t.live
        wbt := t.wbt } ∧
      (∀ q off : Nat, off < 0x1000 → shadowW t q off = if q = pg then eff s q off else shadowW s q off) ∧
      live t 0 pg 0x008 = (live s 0 pg 0x008 % 4 &&& if pageJoin pg then 3 else 2) ∧
      (∀ j q o : Nat, liveKey j q o ≠ liveKey 0 pg 0x008 → live t j q o = live s j q o) ∧
      t.wbt = (if (pg : Nat) = pgWBT then { s.wbt with shadow := (s.wbt.next.getD s.wbt.table).entries } else s.wbt)

/-- `RETEST` takes a channel in `OUT` to `TEST`, its report cleared, and is discarded in any other state (R450).
What the manual leaves open is the model's choice (log entry 35). -/
def Obligations.RetestRunsInOut : Prop :=
  ∀ (ch : Chan) (s : State), PortOpen s (pgARY ch) → pagePresent s (pgARY ch) = true →
    ∃ t : State, exec (.retest ch) s = .next t ∧ t = { s with chans := t.chans } ∧
      (∀ n : Nat, n < 8 → n ≠ ch → chan t n = chan s n) ∧
      chan t ch = (if (chan s ch).service == .out then
        { chan s ch with service := .test, cur := none, report := [], ran := false } else chan s ch)

/-- A cancel opens the window of the stream that its value names, up to `CUNTIL`, or moves it to the later bound; without `GO`
it does nothing (R290). That the partition's commands settle in the same step is the model's reading (log entry 66). -/
def Obligations.CancelOpensItsWindow : Prop :=
  ∀ (v : BitVec 4) (s : State), PortOpen s pgSTRM → s.fuseErr = false →
    (bitOf v.toNat 3 = false → exec (.cancel v) s = .next s) ∧
    (bitOf v.toNat 3 = true →
      let u := updStrm s (sidx s) (strmOf (v.toNat % 4)) fun x =>
        { x with
          cancelTo := match x.cancelTo with
            | none => some (x.cuntil, bitOf v.toNat 2)
            | some (b, r) => some (if stampLt b x.cuntil then x.cuntil else b, r || bitOf v.toNat 2) }
      exec (.cancel v) s = .next (keepPins s (launchDue (settle u (sidx s)) (sidx s))))

/-- A row load steers a row that is not in use to the lowest free spare of its bank, with its entry of the repair
table; a row that is known, or that the part does not have, stays as it is; a row in use moves (R427). What the
manual leaves open is the model's choice (log entry 37). -/
def Obligations.RowLoadSteersOneRow : Prop :=
  ∀ (w : Word) (s : State) (row : Nat), row = entryRow (s.rload0, w) → PortOpen s pgCALU → s.fuseErr = false →
    let known := (s.repair.any fun x => entryRow x == row) || s.fuse.rows.any fun x => entryRow x == row
    let used := if isStore row then s.initStore else portReady s (portOf row)
    (rowLoadable s row = false ∨ known = true → exec (.rowLoad w) s = .next s) ∧
    (rowLoadable s row = true → known = false → used = false → ∀ k : Nat, freeSpare s row = some k →
      ∃ t : State, exec (.rowLoad w) s = .next t ∧
        t = { s with
          slices := t.slices
          slow := t.slow
          repair := s.repair ++ [repairEntry row k] } ∧
        t = { updRowMem s row (fun m => { m with spares := (row, k) :: m.spares }) with repair := t.repair }) ∧
    (rowLoadable s row = true → known = false → used = true →
      exec (.rowLoad w) s = .next (keepPins s (moveRow s row)))

/-- A lost slice: the slices that a write of `STORE.LOSE` names, or the one whose tier link fails, are lost and no
other (R397). Where no channel holds a unit, so that no command can have a request outstanding there, memory keeps what it
holds and the slices change in nothing else; which units have one is left open (log entry 84). What the manual leaves
open is the model's choice (log entry 39). -/
def Obligations.LostSlicesAreThoseNamed : Prop :=
  ∀ (bits : BitVec 8) (n : Chan) (s : State), PortOpen s pgSTORE → s.fuseErr = false →
    (∃ t : State, exec (.sliceLose bits) s = .next t ∧
      (∀ k : Nat, k < 8 → (slice t k).lost = ((slice s k).lost || bitOf bits.toNat k && decide (k < capCH s))) ∧
      ((∀ ch : Nat, (chan s ch).unit = none) → t.mem = s.mem ∧ t.chans = s.chans ∧
        ∀ k : Nat, k < 8 → slice t k = { slice s k with lost := (slice t k).lost })) ∧
    ∃ t : State, exec (.sliceLinkFail n) s = .next t ∧
      (∀ k : Nat, k < 8 → (slice t k).lost = ((slice s k).lost || k == (n : Nat) && decide (k < capCH s))) ∧
      ((∀ ch : Nat, (chan s ch).unit = none) → t.mem = s.mem ∧ t.chans = s.chans ∧
        ∀ k : Nat, k < 8 → slice t k = { slice s k with lost := (slice t k).lost })

/-! ## Pins, start-up, time -/

/-- Asserting `RST_N` loses every register page and all data; the release starts the start-up sequence at cycle 0,
and a release of a pin that is high does nothing (R325, R415, R416). What the manual leaves open is the model's
choice (log entry 8). -/
def Obligations.ResetPinsStartAfresh : Prop :=
  ∀ (s : State) (te : Bool),
    (∃ t : State, exec (.rstNAssert te) s = .next t ∧ ResetHeld t ∧ t.rstN = false ∧ t.testEn = te ∧ t.mem = [] ∧
      t.pending = s.pending ∧ cap t = 0 ∧ (∀ pg off : Nat, eff t pg off = rwReset pg off % 2 ^ 32 ∧
        shadowW t pg off = rwReset pg off % 2 ^ 32)) ∧
    (s.testEn = false → s.rstN = false →
      exec .rstNRelease s = .next { s with
        rstN := true
        cycle := 0 }) ∧
    (s.testEn = false → s.rstN = true → exec .rstNRelease s = .next s)

/-- The wrapper instruction register loads the instructions of Table 13-10, one marked "no" as `WS_BYPASS` while `TEST_EN`
is low (R348), and no other state follows it (R349). For a code outside the table, which the manual leaves open, this is
the model's choice (log entry 9). -/
def Obligations.WrapperRegisterLoads : Prop :=
  ∀ (s : State) (code : BitVec 8), ∃ t : State, exec (.wrapperInstruction code) s = .next t ∧
    t = { s with
      wir := t.wir
      free := t.free } ∧
    (code = 0x00 ∨ code = 0x10 → t.wir = code) ∧
    (code = 0x01 ∨ code = 0x02 ∨ code = 0x03 → t.wir = if s.testEn then code else 0x00)

/-- Fuse load makes the capability readable and puts every fabric port in service; a failed check leaves the
capability zero and `BLK` alone present; a second load changes nothing (R418, R422, Table 16-6). What the manual
leaves open is the model's choice (log entry 8). -/
def Obligations.FuseLoadSetsTheGrade : Prop :=
  ∀ (image : FuseImage) (s : State), Runs s → CfgQuiet s →
    (s.initFuse = true → exec (.fuseLoadDone image) s = .next s) ∧
    (s.initFuse = false → image.crcOk = false → ∃ t : State, exec (.fuseLoadDone image) s = .next t ∧
      t = { s with
        initFuse := true
        fuseErr := true } ∧
      cap t = 0 ∧ ∀ pg : Nat, pg ≠ pgBLK → pagePresent t pg = false) ∧
    (s.initFuse = false → image.crcOk = true → ∃ t : State, exec (.fuseLoadDone image) s = .next t ∧
      t.initFuse = true ∧ t.fuseErr = false ∧ cap t = image.cap.toNat ∧ (∀ f : Nat, f < 32 → (fabP t f).live = true) ∧
      t.mem = s.mem ∧ t.shadow = s.shadow ∧ t.effect = s.effect ∧ t.gens = [genZero])

/-- The start-up self-test leaves every channel of the grade that was in `TEST` in `OUT` (R420), its arrays as a self-test
leaves them (the model's reading, log entry 76); store initialisation leaves zero in every byte of the store and every
slice of the grade in service, and nothing else of memory changes (R419). -/
def Obligations.StartupEnds : Prop :=
  ∀ (s : State) (rs : List (List LaneReport)), Runs s → CfgQuiet s → s.initFuse = true →
    (s.initTest = false → ∃ t : State, exec (.startupSelfTestDone rs) s = .next t ∧
      t = { s with
        initTest := true
        chans := t.chans } ∧
      ∀ n : Nat, n < 8 → chan t n = if n < capCH s ∧ (chan s n).service = .test then
        { chan s n with
          arrays := (chan s n).arrays.zipIdx.map fun (y, a) => if a < capARY s then y.tested else y
          service := .out
          report := cleanReport s (rs.getD n [])
          ran := true } else chan s n) ∧
    (s.initStore = false → ∃ t : State, exec .storeInitDone s = .next t ∧ t.initStore = true ∧
      (∀ a : Nat, memByte t.mem a = if a < 0x400000000 then 0 else memByte s.mem a) ∧
      (∀ n : Nat, n < 8 → (slice t n).live = ((slice s n).live || decide (n < capCH s))) ∧
      t.shadow = s.shadow ∧ t.effect = s.effect ∧ t.parts = s.parts ∧ t.chans = s.chans)

/-- A step on an empty queue changes nothing but the cycle number and the counters of waiting `CQ_FULL`, `WC_WAIT`,
`PIN_WAIT` of a partition and `WAIT_ALLOW`, `WAIT_BUD`, `WAIT_HEAT` of a channel, none of which falls (R225, R281, R297,
R309); nothing at all changes in reset or in test mode. That such a step is one core cycle, in which a partition counts at
most one, is the model's choice (log entry 2). -/
def Obligations.IdleStepOnlyCounts : Prop :=
  ∀ s : State, s.pending = [] → ConfigOrdered s → ∃ t : State, step s = .next t ∧
    (s.testEn = true ∨ s.rstN = false → t = s) ∧
    (s.testEn = false → s.rstN = true → t = { s with
      cycle := s.cycle + 1
      live := t.live } ∧
      (∀ j q o : Nat, (∀ n : Nat, n < 16 → liveKey j q o ∉ waitKeys n) → live t j q o = live s j q o) ∧
      (∀ j q o : Nat, q < 0x1000 → o < 0x1000 → live s j q o ≤ live t j q o) ∧
      ∀ p : Nat, p < 8 → live t p pgSTRM 0xF28 =
        if partLoad s p && cqFull s p then min (live s p pgSTRM 0xF28 + 1) 0xFFFFFFFF else live s p pgSTRM 0xF28)

/-! ## Cadence, governor, channels -/

/-- A tick with `CAD_VALID` high takes the phase of the interface; a tick whose phase does not rise, or that comes
within four cycles of the last, is a slip and leaves the phase; with `CAD_VALID` low a tick is ignored. The slot
that is active afterwards is the one whose span holds the phase; a committed table takes the old one's place at a tick that
is not too early, where the old one has no slots or a period begins (R299, R300, R303, R344). What the manual leaves open is
the model's choice (log entry 32). -/
def Obligations.TicksMoveThePhase : Prop :=
  ∀ (phase : DWord) (s : State), Runs s →
    let table (new : Nat) : WbTable :=
      if tabCount s.wbt.table = 0 ∨
        s.wbt.table.period.toNat ≠ 0 ∧ s.cad.phase.toNat / s.wbt.table.period.toNat ≠ new / s.wbt.table.period.toNat
      then s.wbt.next.getD s.wbt.table else s.wbt.table
    (s.cad.valid = false → exec (.cadenceTick phase) s = .next s) ∧
    (s.cad.valid = true → s.cad.seen = true → s.cycle < s.cad.last + 4 →
      ∃ t : State, exec (.cadenceTick phase) s = .next t ∧ t = { s with
        cad := { s.cad with cpt := 0, steps := 0 }
        live := t.live }) ∧
    (s.cad.valid = true → s.cad.first = false → s.cad.last + 4 ≤ s.cycle → phase.toNat ≤ s.cad.phase.toNat →
      ∃ t : State, exec (.cadenceTick phase) s = .next t ∧
        t.cad = { s.cad with last := s.cycle, seen := true, first := false, cpt := 0, steps := 0 } ∧
        SameConfig s t ∧ t.mem = s.mem ∧ t.parts = s.parts ∧ t.wbt.table = table s.cad.phase.toNat ∧
        t.wbt.gap = (slotAt t.wbt.table s.cad.phase.toNat).isNone ∧
        t.wbt.slot = (slotAt t.wbt.table s.cad.phase.toNat).getD 0) ∧
    (s.cad.valid = true → s.cad.last + 4 ≤ s.cycle → s.cad.first = true ∨ s.cad.phase.toNat < phase.toNat →
      ∃ t : State, exec (.cadenceTick phase) s = .next t ∧ t.cad.phase = phase ∧ t.cad.last = s.cycle ∧
        t.cad.first = false ∧ t.cad.held = true ∧ SameConfig s t ∧
        t.wbt.gap = (slotAt t.wbt.table phase.toNat).isNone ∧
        t.wbt.slot = (slotAt t.wbt.table phase.toNat).getD 0 ∧ t.wbt.table = table phase.toNat)

/-- While `CAD_VALID` is low phase and slot hold, and the first tick after its rise is taken as the first (R299,
R344). What the manual leaves open is the model's choice (log entry 32). -/
def Obligations.CadenceHoldsWhileInvalid : Prop :=
  ∀ s : State, Runs s →
    (∃ t : State, exec .cadValidFall s = .next t ∧ t = { s with
      cad := { s.cad with valid := false }
      live := t.live }) ∧
    (s.cad.valid = true → exec .cadValidRise s = .next s) ∧
    (s.cad.valid = false → exec .cadValidRise s = .next { s with
      cad := { s.cad with valid := true, first := true, cpt := 0, steps := 0 } })

/-- A value of `BUDGET_IN` that is taken passes to the core at a refill, and the level then gains its share, up to
its limit (R310, R346); an acknowledge puts the requested point into effect and asks for the next step of the
change, if one is left (R319, R345). What the manual leaves open is the model's choice (log entry 33). -/
def Obligations.BudgetAndPoint : Prop :=
  ∀ (v : BitVec 16) (s : State), Runs s →
    exec (.budgetInChange v) s = .next { s with gov := { s.gov with taken := v.toNat } } ∧
    (∃ t : State, exec .budgetRefill s = .next t ∧ t = { s with gov := t.gov } ∧ t.gov.budgetIn = s.gov.taken ∧
      t.gov.level = (if bitOf (eff s pgPWR 0x100) 0 then
        min (eff s pgPWR 0x10C : Int) (s.gov.level +
          max 0 ((250 * (s.gov.taken : Int) - (eff s pgPWR 0x108 : Nat)) * 1024 / (govFreq s : Int)))
        else s.gov.level)) ∧
    (s.gov.opened = false → exec .pwrAck s = .next s) ∧
    (s.gov.opened = true → ∃ t : State, exec .pwrAck s = .next t ∧ t = { s with gov := t.gov } ∧
      t.gov.point = s.gov.req ∧ t.gov.opened = decide (s.gov.req ≠ s.gov.target) ∧
      (t.gov.opened = true → t.gov.req / 4 = s.gov.req / 4 ∨ t.gov.req % 4 = s.gov.req % 4))

/-- A reading sets a channel's temperature; the work limit holds from its threshold on until the temperature has fallen by
the hysteresis. The first reading at the trip or over it writes one record and adds one to `PWR.TRIPn`; no other does
(R311). -/
def Obligations.TemperatureLimitsWork : Prop :=
  ∀ (ch : Chan) (code : BitVec 12) (s : State), Runs s → ConfigOrdered s → (ch : Nat) < capCH s →
    let c := tempOf s ch code.toNat
    let lim := eff s pgPWR 0x110
    ∃ t : State, exec (.temperatureReading ch code) s = .next t ∧
      chan t ch = { chan s ch with
        temp := c
        hot := decide (field lim 0 12 ≤ c) ||
          (chan s ch).hot && !(decide (c + 16 * field lim 12 4 < field lim 0 12))
        tripped := decide (field lim 16 12 ≤ c) } ∧
      (∀ n : Nat, n < 8 → n ≠ ch → chan t n = chan s n) ∧ t.mem = s.mem ∧ t.parts = s.parts ∧
      (field lim 16 12 ≤ c → (chan s ch).tripped = false →
        t.faults = ({ faultOf { Who.block 0 with ch := ch } 10 1 with
          fseq := (s.fseq + 1) % 2 ^ 32, phase := s.cad.phase, arg0 := c } :: s.faults).take 1024 ∧
        live t ch pgPWR 0xF3C = min (live s ch pgPWR 0xF3C + 1) 0xFFFFFFFF ∧
        t = { s with
          chans := t.chans
          faults := t.faults
          fseq := t.fseq
          live := t.live }) ∧
      (c < field lim 16 12 ∨ (chan s ch).tripped = true → t = { s with chans := t.chans })

/-- An idle channel takes the deepest state that is allowed: no deeper than the slot's `MIN_STATE`, `GATE` at most while
`CAD.CPT` or `CAD_VALID` does not tell the time, a state whose threshold the time to the next event reaches, and `DOZE`
only under the conditions of R312: enabled for the channel, no command of its partition fetched and not complete, no
pin held, no write-back queued. A deeper state is entered, its slice's retention with `DOZE`; a shallower one ends the
sleep, out of `DOZE` by a wake; else nothing changes (R312 to R315, R347). A channel that is not idle enters none. The
loss of what the arrays hold is the model's choice (log entry 76). -/
def Obligations.PowerStateEntryIsAllowed : Prop :=
  ∀ (ch : Chan) (s : State), Runs s →
    (capCH s ≤ ch ∨ idleChan s ch = false → exec (.powerStateEntry ch) s = .next s) ∧
    ((ch : Nat) < capCH s → idleChan s ch = true → ∃ d : Nat, d ≤ 3 ∧ (d = 0 ∨ depthOk s ch d = true) ∧
      (∀ e : Nat, d < e → e ≤ 3 → depthOk s ch e = false) ∧
      (d ≠ 0 → d ≤ regionMin s.wbt.table (if s.wbt.gap then none else some s.wbt.slot)) ∧
      (s.cad.cpt = 0 ∨ s.cad.valid = false → d ≤ 1) ∧
      (d ≠ 0 → s.cad.cpt ≠ 0 → s.cad.valid = true → ∀ x : Nat, eventIn s ch d = some x →
        eff s pgPWR (0x110 + 4 * d) ≤ x) ∧
      (d = 3 → bitOf (eff s pgPWR 0x120) ch = true ∧ (slice s ch).mem.queue = [] ∧
        ∀ p : Nat, chanOwner s ch = some p →
          (pool s p).pins = [] ∧ ∀ st : Strm, (strm s p st).cmds = []) ∧
      (d = (chan s ch).power.depth → exec (.powerStateEntry ch) s = .next s) ∧
      ((chan s ch).power.depth < d → ∃ t : State, exec (.powerStateEntry ch) s = .next t ∧
        t = { s with
          chans := t.chans
          slices := t.slices } ∧
        (∀ n : Nat, n < 8 → n ≠ ch → chan t n = chan s n ∧ slice t n = slice s n) ∧
        chan t ch = { powerLoss (chan s ch) d with power := Power.ofDepth d } ∧ (chan t ch).power.depth = d ∧
        slice t ch = if d = 3 then { slice s ch with ret := true } else slice s ch) ∧
      (d < (chan s ch).power.depth → (chan s ch).power ≠ .doze →
        exec (.powerStateEntry ch) s = .next (updChan s ch fun x => { x with power := Power.ofDepth d })) ∧
      (d < (chan s ch).power.depth → (chan s ch).power = .doze →
        exec (.powerStateEntry ch) s = .next (dozeLeft s ch)))

/-- The governor's wake begins the wake time before the event that is known, and is late where less is left; else a
channel wakes when a unit fits. `GATE` and `HOLD` end at once; `DOZE` first ends its slice's retention, and the channel
runs when the slice acknowledges, with both function banks written; a handshake longer than 20 µs is late. A request
for a row of a dozing slice adds one to `PWR.DOZE_HIT` and begins the wake, and no other live word changes; the target
requests and the streams' work that waited for the slice go on when it is back (R169, R313, R315, R316, R347). What the
manual leaves open is the model's choice (log entries 34, 68, 81). -/
def Obligations.ChannelsWake : Prop :=
  ∀ (ch : Chan) (s : State), Runs s → ConfigOrdered s → (ch : Nat) < capCH s →
    let begun := if (chan s ch).power = .doze then dozeLeft s ch
      else updChan s ch fun x => { x with power := .run, waking := false }
    ((chan s ch).power = .run ∨ (chan s ch).waking = true → exec (.powerWakeStart ch) s = .next s) ∧
    ((chan s ch).power ≠ .run → (chan s ch).waking = false →
      (wakeIn s ch = some (wakeTime s (chan s ch).power.depth) → exec (.powerWakeStart ch) s = .next begun) ∧
      (∀ x : Nat, wakeIn s ch = some x → x < wakeTime s (chan s ch).power.depth → ∃ t : State,
        exec (.powerWakeStart ch) s = .next t ∧ chan t ch = { chan begun ch with wakeLate := true } ∧
        slice t ch = slice begun ch ∧
        live t ch pgPWR 0xF38 = min (live s ch pgPWR 0xF38 + 1) 0xFFFFFFFF ∧
        t = { updChan begun ch (fun x => { x with wakeLate := true }) with live := t.live }) ∧
      ((∀ x : Nat, wakeIn s ch = some x → wakeTime s (chan s ch).power.depth < x) →
        exec (.powerWakeStart ch) s = .next (if unitFits s ch then begun else s))) ∧
    ((chan s ch).power ≠ .doze ∨ (chan s ch).waking = true → exec (.dozeWakeRequest ch) s = .next s) ∧
    ((chan s ch).power = .doze → (chan s ch).waking = false → ∃ t : State, exec (.dozeWakeRequest ch) s = .next t ∧
      t = { dozeLeft s ch with live := t.live } ∧
      live t ch pgPWR 0xF34 = min (live s ch pgPWR 0xF34 + 1) 0xFFFFFFFF ∧
      ∀ j q o : Nat, liveKey j q o ≠ liveKey ch pgPWR 0xF34 → live t j q o = live s j q o) ∧
    (exec (.sramRetentionAck ch true) s = .next (updSlice s ch fun x => { x with retAck := true })) ∧
    ((chan s ch).waking = true → (chan s ch).power = .doze → (slice s ch).ret = false → (slice s ch).retAck = true →
      ∃ v : State, (chan v ch).power = .run ∧
        (chan v ch).waking = false ∧ slice v ch = { slice s ch with retAck := false } ∧
        (if (chan v ch).bank % 2 = 0 then (chan v ch).gen0 else (chan v ch).gen1) = curGen s ∧
        (s.cycle ≤ (chan s ch).wakeAt + 20 * govFreq s → v.live = s.live) ∧
        v = { s with
          chans := v.chans
          slices := v.slices
          live := v.live
          dozed := s.dozed.filter fun e => e.1 != (ch : Nat) } ∧
        exec (.sramRetentionAck ch false) s = .next (keepPins s (
          allParts.foldl (fun s p => if partLoad s p then partWork s p else s) ((List.finRange 32).foldl tqResume v))))

/-- A channel's service: a leaving channel whose unit is done enters `TEST`; the end of a self-test leaves it in
`OUT` with its report; a channel that is asked back takes the repair map in effect, which gives its bad columns, array
states, roles and page lanes, and both function banks: the bank in use the current table generation, the other the one
that commands in flight still use or that a commit is writing. It is in service again, and leaves a `RETURNED` record
(R75, R76, R81, R169, R450, R451). In any other state each of these changes nothing. What the manual leaves open, what a
self-test leaves in the arrays among it, is the model's choice (log entries 35, 76). -/
def Obligations.ChannelServiceMoves : Prop :=
  ∀ (ch : Chan) (rs : List LaneReport) (s : State), Runs s → CfgQuiet s →
    ((chan s ch).service = .leaving → (chan s ch).unit = none →
      exec (.selfTestStart ch) s = .next (updChan s ch fun x =>
        { x with service := .test, cur := none, report := [], ran := false })) ∧
    ((chan s ch).service ≠ .leaving → exec (.selfTestStart ch) s = .next s) ∧
    (s.initTest = true → (ch : Nat) < capCH s → (chan s ch).service = .test →
      exec (.selfTestDone ch rs) s = .next (updChan s ch fun x =>
        { x with
          arrays := x.arrays.zipIdx.map fun (y, a) => if a < capARY s then y.tested else y
          service := .out
          report := cleanReport s rs
          ran := true })) ∧
    ((chan s ch).service ≠ .test → exec (.selfTestDone ch rs) s = .next s) ∧
    ((chan s ch).service = .out → (chan s ch).returning = true → ∃ t : State, exec (.channelReturn ch) s = .next t ∧
      (chan t ch).service = .run ∧ (chan t ch).returning = false ∧ (chan t ch).past = eff s (pgARY ch) 0x104 ∧
      (∀ a l k : Nat, a < 4 → l < 4 → ((4 * a + l, k) ∈ (chan t ch).badCols ↔ k ∈ laneBad s ch a l)) ∧
      (chan t ch).astate = (chan (applyMap s ch) ch).astate ∧ (chan t ch).role = (chan (applyMap s ch) ch).role ∧
      (chan t ch).lanes = (chan (applyMap s ch) ch).lanes ∧ (chan t ch).bank = (chan s ch).bank ∧
      (let other := if 2 ≤ (chan s ch).bank then curGen s + 1 else if switchPend s then prevGen s else curGen s
       if (chan s ch).bank % 2 = 0 then (chan t ch).gen0 = curGen s ∧ (chan t ch).gen1 = other
       else (chan t ch).gen1 = curGen s ∧ (chan t ch).gen0 = other) ∧
      (∀ n : Nat, n < 8 → n ≠ ch → chan t n = chan s n) ∧
      t.faults = ({ faultOf { Who.block 0 with ch := ch } 7 4 with
        fseq := (s.fseq + 1) % 2 ^ 32, phase := s.cad.phase } :: s.faults).take 1024 ∧
      t = { s with
        chans := t.chans
        faults := t.faults
        fseq := t.fseq
        live := t.live }) ∧
    ((chan s ch).service ≠ .out → exec (.channelReturn ch) s = .next s)

/-- A channel that makes no progress for the watchdog's limit, or reports a parity error in its control registers,
fails with a record of class 7: a channel in service is failed, one that was leaving goes to its test. Its unit is abandoned
and the commands that it serves end with `ABORTED` and that record, before what they leave settles; issued commands that no
channel of the partition can take any more are refused, and swarms that are due launch (R81, R140, R395, Table 18-4). In
every other case nothing changes. What the manual leaves open is the model's choice (log entries 35, 36, 66). -/
def Obligations.FailingChannelsStop : Prop :=
  ∀ (ch : Chan) (group : BitVec 8) (s : State), Runs s →
    ((chan s ch).unit = none ∨ eff s pgFLT 0x100 = 0 ∨ chanAsks s ch = true ∨
        s.cycle - (chan s ch).progress < eff s pgFLT 0x100 * 1024 →
      exec (.channelWatchdog ch) s = .next s) ∧
    ((chan s ch).service ≠ .run → (chan s ch).service ≠ .leaving → exec (.ctlParity ch group) s = .next s) ∧
    ∀ (i : Instr) (cause arg : Nat),
      i = .channelWatchdog ch ∧ cause = 1 ∧ arg = s.cycle - (chan s ch).progress ∧ (chan s ch).unit ≠ none ∧
          eff s pgFLT 0x100 ≠ 0 ∧ chanAsks s ch = false ∧ eff s pgFLT 0x100 * 1024 ≤ s.cycle - (chan s ch).progress ∨
        i = .ctlParity ch group ∧ cause = 2 ∧ arg = group.toNat →
      (chan s ch).service = .run ∨ (chan s ch).service = .leaving → ∃ w : State,
        (chan w ch).service = (if (chan s ch).service = .run then .failed else .leaving) ∧ (chan w ch).unit = none ∧
        w.faults = ({ faultOf { Who.block 0 with ch := ch } 7 cause with
          fseq := (s.fseq + 1) % 2 ^ 32, phase := s.cad.phase, arg0 := arg } :: s.faults).take 1024 ∧
        (∀ u : UnitHold, (chan s ch).unit = some u →
          (∀ (k : Word) (c : Cmd), k ∈ unitStamps s u → getCmd s u.part u.strm k = some c → c.op ≠ opTASKEND) →
          ∀ (k : Word) (c : Cmd), k ∈ unitStamps s u → getCmd s u.part u.strm k = some c → c.ended = false →
          ∃ d : Cmd, getCmd w u.part u.strm k = some d ∧ d.ended = true ∧ d.status = stABORTED) ∧
        (let settled (t : State) : State := match (chan s ch).unit with
          | some u => remSettle (launchDue (pruneSwarms (settle t u.part) u.part) u.part)
          | none => t
         let refused (t : State) : State := match chanOwner t ch with
          | some p => launchDue (settle (refuseStranded t p) p) p
          | none => t
         let tested (t : State) : State := if (chan s ch).service = .leaving then
            updChan t ch fun x => { x with service := .test, cur := none, report := [], ran := false }
          else t
         exec i s = .next (keepPins s (tested (refused (settled w)))))

/-! ## Fabric ports -/

/-- A target read is answered once, in its response form: `DECERR` from a retired port, whatever the request, `FMTERR` for
a header that breaks its format or an operation that is none, `DATAERR` for an uncorrectable row; else the bytes that
memory holds at the translated address, and with no row in error nothing else of the block changes. A beat without a
credit is lost. One that asks rows of a slice in DOZE, or that stands behind one of its class that does, waits and holds
its credit; the slices that it asks begin to wake (R201, R313, R327, R328, R330, R331, R401). What the manual leaves
open is the model's choice (log entries 51, 68, 82). -/
def Obligations.FabricReadsAreAnswered : Prop :=
  ∀ (f : FabPort) (h : BitVec 80) (ups : List Upset) (s : State), Runs s →
    let u := bump (addUpsets s ups) f pgFAB 0xF1C 1
    let held (t : State) : State := updFab t f fun x =>
      { x with held := x.held ++ [(h, [])], tqCred := x.tqCred - 1 }
    (hdrOpc h = 2 ∨ (fabP s f).tqCred = 0 →
      exec (.fabricTargetRead f h ups) s = .next (keepPins s (addUpsets s ups))) ∧
    (hdrOpc h ≠ 2 → (fabP s f).tqCred ≠ 0 → tqBehind s f h [] = true →
      exec (.fabricTargetRead f h ups) s = .next (keepPins s (held u))) ∧
    (hdrOpc h ≠ 2 → (fabP s f).tqCred ≠ 0 → tqBehind s f h [] = false →
      (asks u (performRead u f h) = true →
        exec (.fabricTargetRead f h ups) s = .next (keepPins s (held (askRows u (performRead u f h))))) ∧
      (bitOf (eff s pgFAB 0x104) f = true →
        exec (.fabricTargetRead f h ups) s = .next (keepPins s (failResp u f h fabDECERR false))) ∧
      (bitOf (eff s pgFAB 0x104) f = false → hdrOpc h ≠ 1 ∨ hdrBad h = true →
        exec (.fabricTargetRead f h ups) s = .next (keepPins s (failResp u f h fabFMTERR false))) ∧
      (hdrOpc h = 1 → ∀ (v w : State) (pa st d : Nat), targetAt u f h false = (v, .ok pa) →
        rowsRead v (Who.target v f) pa (128 * hdrLen h) = (w, .bad st d) → asks u w = false →
        exec (.fabricTargetRead f h ups) s = .next (keepPins s (failResp w f h fabDATAERR false))) ∧
      (hdrOpc h = 1 → asks u (performRead u f h) = false → s.rowErr = [] → ups = [] → ∃ t : State,
        exec (.fabricTargetRead f h ups) s = .next t ∧
        t = { s with
          live := t.live
          fabOut := t.fabOut } ∧
        (∀ pa : Nat, (targetAt u f h false).2 = .ok pa → t.fabOut = s.fabOut ++
          [{ port := f, tag := hdrTag h, status := 0, wack := false
             data := beatsOf (hdrLen h) (memBytes s.mem pa (128 * hdrLen h)) }]) ∧
        (∀ st : Nat, (targetAt u f h false).2 = .error st → t.fabOut = s.fabOut ++
          [{ port := f, tag := hdrTag h, status := st, wack := false, data := List.replicate (hdrLen h) 0 }]))) ∧
    (∀ t : State, let w := askRows s t
      w = { s with
        live := w.live
        chans := w.chans
        slices := w.slices
        dozed := w.dozed } ∧ DozeAlone s w)

/-- A target write is answered once with one beat: with `DECERR` from a retired port, whatever the request. One whose beats
have not all come is not performed, and a beat without a credit is lost. On memory with no row in error, the bytes of
its beats whose mask bits are set are written at the translated address, and no other byte changes; a write that is
answered with an error changes no byte. One that asks rows of a slice in DOZE, or that stands behind one of its class
that does, waits and holds the credits of its beats (R201, R313, R327, R328, R330, R331, R332, R401). What the manual
leaves open is the model's choice (log entries 51, 68, 82). -/
def Obligations.FabricWritesStoreTheirBytes : Prop :=
  ∀ (f : FabPort) (h : BitVec 80) (beats : List Beat) (s : State), Runs s →
    let got := min beats.length (fabP s f).tqCred
    let bs := beats.take (hdrLen h)
    let u := bump s f pgFAB 0xF1C got
    let held (t : State) : State := updFab t f fun x =>
      { x with held := x.held ++ [(h, bs)], tqCred := x.tqCred - hdrLen h }
    (hdrOpc h = 1 ∨ got < hdrLen h → exec (.fabricTargetWrite f h beats) s = .next (keepPins s u)) ∧
    (hdrOpc h ≠ 1 → hdrLen h ≤ got → tqBehind s f h bs = true →
      exec (.fabricTargetWrite f h beats) s = .next (keepPins s (held u))) ∧
    (hdrOpc h ≠ 1 → hdrLen h ≤ got → tqBehind s f h bs = false →
      (asks u (performWrite u f h bs) = true →
        exec (.fabricTargetWrite f h beats) s = .next (keepPins s (held (askRows u (performWrite u f h bs))))) ∧
      (bitOf (eff s pgFAB 0x104) f = true →
        exec (.fabricTargetWrite f h beats) s = .next (keepPins s (failResp u f h fabDECERR true))) ∧
      (hdrOpc h ≠ 2 → bitOf (eff s pgFAB 0x104) f = false →
        exec (.fabricTargetWrite f h beats) s = .next (keepPins s (failResp u f h fabFMTERR true))) ∧
      (hdrOpc h = 2 → asks u (performWrite u f h bs) = false → s.rowErr = [] →
        (∀ st : Nat, (targetAt u f h true).2 = .error st → ∃ t : State, exec (.fabricTargetWrite f h beats) s = .next t ∧
          t = { s with
            live := t.live
            fabOut := s.fabOut ++ [{ port := f, tag := hdrTag h, status := st, wack := true, data := [0] }] }) ∧
        (s.mem.wf → ∀ pa : Nat, (targetAt u f h true).2 = .ok pa →
          ∃ t : State, exec (.fabricTargetWrite f h beats) s = .next t ∧
            t.fabOut = s.fabOut ++ [{ port := f, tag := hdrTag h, status := 0, wack := true, data := [0] }] ∧
            (∀ a : Nat, memByte t.mem a =
              match (if pa ≤ a then (maskedBytes bs)[a - pa]? else none) with
              | some (b, true) => b
              | _ => memByte s.mem a) ∧
            t.parts = s.parts ∧ t.chans = s.chans ∧ t.shadow = s.shadow ∧ t.effect = s.effect)))

/-- An initiator port gains a credit up to 255 and sends what waits for it (R329). A response frees its tag and goes
to the request's owner; one to a request that timed out is counted and gives its tag back, one to no request is
discarded. A request unanswered for its limit is taken as answered with `DECERR`, and its tag stays out of use
(R334). What the manual leaves open is the model's choice (log entry 52). -/
def Obligations.FabricRequestsAreAnswered : Prop :=
  ∀ (f : FabPort) (h : BitVec 16) (tag : BitVec 8) (data : List (BitVec 1024)) (s : State), Runs s →
    let n := field h.toNat 0 8
    (255 ≤ (fabP s f).iqCred → exec (.fabricIqCredit f) s = .next (keepPins s (bump s f pgFAB 0xF18 1))) ∧
    ((fabP s f).iqCred < 255 → (fabP s f).waiting = [] →
      exec (.fabricIqCredit f) s = .next (updFab s f fun x => { x with iqCred := x.iqCred + 1 })) ∧
    ((fabP s f).iqCred < 255 → exec (.fabricIqCredit f) s = .next (keepPins s
      (iqPump (fabP s f).waiting.length (updFab s f fun x => { x with iqCred := x.iqCred + 1 }) f))) ∧
    ((fabP s f).sent.find? (fun r => r.tag == n) = none → (fabP s f).stale.contains n = false →
      exec (.fabricIpResponse f h data) s = .next s) ∧
    ((fabP s f).sent.find? (fun r => r.tag == n) = none → (fabP s f).stale.contains n = true →
      exec (.fabricIpResponse f h data) s = .next (keepPins s (iqPump (fabP s f).waiting.length
        (updFab (bump s f pgFAB 0xF14 1) f fun x => { x with stale := x.stale.filter fun t => t != n }) f))) ∧
    (∀ r : IqReq, (fabP s f).sent.find? (fun r => r.tag == n) = some r →
      let v := iqPump (fabP s f).waiting.length
        (updFab s f fun x => { x with sent := x.sent.filter fun y => y.tag != n }) f
      exec (.fabricIpResponse f h data) s = .next (keepPins s (iqContinue
        (answer v f r (field h.toNat 8 3) 1 (field h.toNat 8 3)
          (((data.flatMap fun b => leBytes 128 b.toNat).drop (r.addr % 128)).take r.bytes)) r.owner))) ∧
    ((fabP s f).sent.find? (fun r => r.tag == tag.toNat) = none →
      exec (.fabricResponseTimeout f tag) s = .next s) ∧
    (∀ r : IqReq, (fabP s f).sent.find? (fun r => r.tag == tag.toNat) = some r →
      (r.limit = 0 ∨ s.cycle - r.sent < r.limit * 1024 → exec (.fabricResponseTimeout f tag) s = .next s) ∧
      (r.limit ≠ 0 → r.limit * 1024 ≤ s.cycle - r.sent →
        let v := bump (updFab s f fun x =>
          { x with
            sent := x.sent.filter fun y => y.tag != tag.toNat
            stale := x.stale ++ [tag.toNat] }) f pgFAB 0xF10 1
        exec (.fabricResponseTimeout f tag) s =
          .next (keepPins s (iqContinue (answer v f r fabDECERR 2 tag.toNat []) r.owner))))

/-! ## Remote ports -/

/-- A link that comes up starts its counts at zero and sends a first group; one that falls writes a record, gives
the frames that wait to other ports and marks the sends whose frames were not freed (R341, R357); freeing that no
group has reported goes out in a group of its own when the timer asks (R354). What the manual leaves open is the
model's choice (log entries 54, 57). -/
def Obligations.LinksComeUpAndFall : Prop :=
  ∀ (n : RemPort) (s : State), Runs s →
    (remPresent s n = false ∨ (remP s n).up = true → exec (.linkUp n) s = .next s) ∧
    (remPresent s n = true → (remP s n).up = false →
      exec (.linkUp n) s = .next (keepPins s (remSettle (sendGroup (updRem s n fun x =>
        { x with
          up := true
          gseq := 0
          sent := [0, 0, 0, 0]
          freed := [0, 0, 0, 0]
          peerFreed := [0, 0, 0, 0]
          reported := [0, 0, 0, 0]
          group := []
          groupSent := [0, 0, 0, 0] }) n [])))) ∧
    (portTakes s n = false → exec (.linkDown n) s = .next s ∧ exec (.freedReportTimer n) s = .next s) ∧
    (portTakes s n = true →
      let v := addFault s { faultOf (Who.block 4) 9 3 with port := n }
      exec (.linkDown n) s = .next (keepPins s (remSettle (updRem
        ((jobCmds v).foldl (fun s e => jobLinkDown s n e.1 e.2.1 e.2.2.stamp) v) n fun x =>
        { x with up := false, group := [], mirror := [], alone := 0, aloneOk := false })))) ∧
    ((unreported s n).all (· == 0) = true → exec (.freedReportTimer n) s = .next s) ∧
    (portTakes s n = true → (unreported s n).any (· != 0) = true → ∃ t : State,
      exec (.freedReportTimer n) s = .next t ∧
        t.remOut = s.remOut ++ [(n, 3, headerBytes14 s n [])] ∧ (remP t n).reported = (remP s n).freed ∧
        (remP t n).gseq = ((remP s n).gseq + 1) % 2 ^ 32 ∧
        t = { s with
          rem := t.rem
          remOut := t.remOut
          live := t.live })

/-- A port whose link is down takes no frame (R341). A header that fails a check, or that has `SOF` in a beat
after the first two, is counted and its group is lost;
one that passes gives the peer's counts and the records of its group (R350 to R352). A data frame goes to the
landing buffer of its port if it passes its checks, is counted as an error if not, and ends its group when it is the
last (R353, R354). What the manual leaves open is the model's choice (log entry 55). -/
def Obligations.FramesAreChecked : Prop :=
  ∀ (n : RemPort) (frame : List Byte) (sof : BitVec 64) (err : Bool) (s : State), Runs s →
    let b := fitBytes 4096 frame
    let k := leAt b 0 1
    let good := !err && sof.toNat / 4 == 0 && leAt b 60 4 == crc32c (b.take 60 ++ b.drop 64) && allZero ((b.drop 1).take 3) &&
      allZero ((b.drop 42).take 18) && decide (k ≤ 63) && allZero ((b.drop (64 * (k + 1))).take (4096 - 64 * (k + 1)))
    (portTakes s n = false →
      exec (.headerFrameReceive n { bytes := frame, sof := sof } err) s = .next s ∧
        exec (.dataFrameReceive n { bytes := frame, sof := sof } err) s = .next s) ∧
    (portTakes s n = true → good = false → exec (.headerFrameReceive n { bytes := frame, sof := sof } err) s =
      .next (keepPins s (bumpRem (updRem s n fun x => { x with group := [] }) n 0xF1C 1))) ∧
    (portTakes s n = true → good = true →
      let v := updRem s n fun x =>
        { x with
          peerFreed := (List.range 4).map fun v => leAt b (24 + 4 * v) 4
          groupSent := (List.range 4).map fun v => leAt b (8 + 4 * v) 4
          blkid := leAt b 40 2
          group := (List.range k).map fun i => (b.drop (64 * (i + 1))).take 64 }
      exec (.headerFrameReceive n { bytes := frame, sof := sof } err) s =
        .next (keepPins s (remSettle (if k = 0 then groupOver v n else v)))) ∧
    (portTakes s n = true → (remP s n).group = [] →
      exec (.dataFrameReceive n { bytes := frame, sof := sof } err) s = .next (keepPins s (bumpRem s n 0xF18 1))) ∧
    (portTakes s n = true → ∀ (x : List Byte) (rest : List (List Byte)), (remP s n).group = x :: rest →
      let fr := frameOf x b (remP s n).blkid
      let ok := !err && sof.toNat / 4 == 0 && leAt x 60 4 == crc32c b && allZero ((x.drop 24).take 36) && decide (fr.vc ≤ 3) &&
        decide (leAt x 1 1 < 2) && decide (fr.offset < 2 ^ 40) && decide (1 ≤ fr.len) && decide (fr.len ≤ 4096)
      let v := updRem s n fun y => { y with group := rest, landing := if ok then y.landing ++ [fr] else y.landing }
      let w := if ok then v else bumpRem v n 0xF18 1
      exec (.dataFrameReceive n { bytes := frame, sof := sof } err) s =
        .next (keepPins s (remSettle (if rest.isEmpty then groupOver w n else w))))

/-- A command of the remote ports that no check refuses is issued; one that is issued starts when its stream is
eligible, the budget has room and no receive is open on its ports: its receive opens, its send begins and the budget
is charged (R356, R358, R361, R369, R375, R378 to R380). What the manual leaves open is the model's choice (log
entry 73). -/
def Obligations.RemoteCommandsIssueAndStart : Prop :=
  ∀ (i : Instr) (p : Part) (st : Strm) (op : Nat) (mine : Cmd → Bool) (s : State) (k : Cmd),
    remoteRow i = some (p, st, op, mine) → Runs s → (op = opMOLT → mine k = true → k.get .mode = 1 → heldMolt s p st = none) →
    k.op = op → mine k = true →
    (∀ (u v : State) (k1 k2 : Cmd) (r : Run), readyRemote s p st op mine = none → MayIssue s p st k →
      pinned s p st k = some (u, k1) → ranM u (cmdCtx u p st k1 0xFF 0) (remotePlan p k1) = .ok (k2, []) r →
      v = remoteIssued r.s p st k2 →
      exec i s = .next (keepPins s (settled (remSettle (match readyRemote v p st op mine with
        | some c => startRemote v p st c
        | none => v)) p))) ∧
    (∀ (u : State) (j : RemJob), readyRemote s p st op mine = some k → eligible s p st = true →
      budgetFits s k.energy = true → remoteWaits s k = false →
      jobStep s p st k (if k.op = opMIRROR then 5 else 4) (remoteJob k) = (u, some j) →
      exec i s = .next (keepPins s (settled (remSettle (updCmd (charge u k.energy) p st k.stamp fun c =>
        { c with stage := .started, begun := true, ticks := 0, remote := some j })) p)))

/-- A remote command whose receive or send is not done in its ticks faults with a record that names its ports (R359);
mirror frames that have waited their ticks may go alone (R375); a received sequence is edited into the pool when its
frames have all come (R380). That a row whose moment has not come changes nothing, that what ends settles in the same step,
and that the `MOLT_RECV` row makes that edit, is the model's reading (log entries 1, 66, 73). -/
def Obligations.RemoteWaitsEnd : Prop :=
  ∀ (p : Part) (st : Strm) (stamp : Word) (n : RemPort) (s : State), Runs s →
    (getCmd s p st stamp = none → exec (.remoteTimeout p st stamp) s = .next s) ∧
    (∀ (c : Cmd) (j : RemJob), getCmd s p st stamp = some c → liveJob c = some j →
      (c.get .tmo = 0 ∨ c.ticks < c.get .tmo → exec (.remoteTimeout p st stamp) s = .next s) ∧
      (c.get .tmo ≠ 0 → c.get .tmo ≤ c.ticks → (j.rxOpen && !(rxDone j)) = true →
        let v := addFault s { faultOf (Who.cmd p st stamp 4) 9 1 with
          arg0 := j.rxPorts % 2 ^ 32, arg1 := j.rxPorts / 2 ^ 32 }
        exec (.remoteTimeout p st stamp) s =
          .next (keepPins s (remSettle (settled (endCmd v p st stamp stABORTED (lastFault v)) p)))) ∧
      (c.get .tmo ≠ 0 → c.get .tmo ≤ c.ticks → (j.rxOpen && !(rxDone j)) = false →
        (txDone s j && !(mirrorWaits s p st stamp)) = false →
        let v := addFault s { faultOf (Who.cmd p st stamp 4) 9 2 with
          arg0 := j.txPorts % 2 ^ 32, arg1 := j.txPorts / 2 ^ 32 }
        exec (.remoteTimeout p st stamp) s =
          .next (keepPins s (remSettle (settled (endCmd v p st stamp stABORTED (lastFault v)) p))))) ∧
    (aloneTicks s = 0 ∨ (remP s n).alone < aloneTicks s ∨ (remP s n).mirror = [] →
      exec (.mirrorAloneExpiry n) s = .next s) ∧
    (aloneTicks s ≠ 0 → aloneTicks s ≤ (remP s n).alone → (remP s n).mirror ≠ [] →
      exec (.mirrorAloneExpiry n) s = .next (keepPins s (remSettle (updRem s n fun x => { x with aloneOk := true })))) ∧
    (∀ c : Cmd, heldMolt s p st = some c →
      exec (.moltRecv p st) s =
        .next (if editFree s p st c then keepPins s (settled (startEdit s p st c false) p) else s))

/-! ## Memories and slow-tier ports -/

/-- A slow-tier port comes up in steps, and each event that is not due changes nothing: the clock runs and a port
with a device trains; the device answers and is filled with zero; the fill ends and the port serves rows, every byte
of it zero, no other byte changed (R429). A training that does not end and an error of the interface lose the port
with a record (R400, R430). The interface's own updates and refreshes change nothing (R336, R339). What the manual
leaves open is the model's choice (log entries 40, 69). -/
def Obligations.SlowPortsComeUpInSteps : Prop :=
  ∀ (q : SlowPort) (code : BitVec 8) (s : State), Runs s →
    let x := slowP s q
    (capMT s ≤ q → exec (.slowPortBringUp q) s = .next s ∧ exec (.dfiError q code) s = .next s) ∧
    ((q : Nat) < capMT s → devType s q ≠ 0 → x.ready = false → x.training = false → x.filling = false → x.lost = false →
      x.retired = false →
      exec (.slowPortBringUp q) s = .next (updSlow s q fun x => { x with clk := true, training := true })) ∧
    ((q : Nat) < capMT s → devType s q = 0 →
      exec (.slowPortBringUp q) s = .next (updSlow s q fun x => { x with clk := true })) ∧
    (exec (.dfiInitComplete q) s =
      .next (if x.training && !x.retired then updSlow s q fun x => { x with training := false, filling := true } else s)) ∧
    (x.filling = false ∨ x.retired = true → exec (.slowPortReady q) s = .next s) ∧
    (x.filling = true → x.retired = false → ∃ t : State, exec (.slowPortReady q) s = .next t ∧
      (slowP t q).filling = false ∧ (slowP t q).ready = true ∧ (slowP t q).inLive = true ∧
      ∀ a : Nat, memByte t.mem a =
        if Config.slowBase + q * Config.slowPortBytes ≤ a ∧ a < Config.slowBase + q * Config.slowPortBytes + Config.slowPortBytes
        then 0 else memByte s.mem a) ∧
    (x.training = false → exec (.trainingTimeout q) s = .next s) ∧
    (x.training = true → ∃ t : State, exec (.trainingTimeout q) s = .next t ∧ (slowP t q).lost = true ∧
      (slowP t q).training = false ∧ (slowP t q).inLive = false ∧ t.mem = s.mem ∧
      t.faults = ({ faultOf (Who.block 3) 2 5 with
        port := q, fseq := (s.fseq + 1) % 2 ^ 32, phase := s.cad.phase } :: s.faults).take 1024) ∧
    ((q : Nat) < capMT s → ∃ t : State, exec (.dfiError q code) s = .next t ∧ (slowP t q).dfiErr = code ∧ t.mem = s.mem ∧
      (x.lost = true ∨ x.retired = true → t.faults = s.faults) ∧
      (x.lost = false → x.retired = false → (slowP t q).lost = true ∧ (slowP t q).ready = false ∧
        t.faults = ({ faultOf (Who.block 3) 2 4 with
          port := q, arg0 := code.toNat, fseq := (s.fseq + 1) % 2 ^ 32, phase := s.cad.phase } :: s.faults).take 1024)) ∧
    exec (.dfiPhyUpdate q) s = .next s ∧ exec (.refresh q) s = .next s

/-- A scrub step reads the row at the scrub's place and moves on, and a unit that does not run is only upset; on
memory without errors it changes nothing but the place and the counts of the pass (R189, R386). A queued row is
written back corrected: its bytes stay, its error is gone, and the queue is one shorter (R188). In DOZE both wait for
the wake of the slice, which begins (R313, R347). What the manual leaves open is the model's choice (log entries 34, 38,
68). -/
def Obligations.ScrubbingKeepsBytes : Prop :=
  ∀ (u : RowUnit) (ups : List Upset) (s : State), Runs s →
    (unitRuns (addUpsets s ups) u = false → exec (.patrolScrubStep u ups) s = .next (keepPins s (addUpsets s ups))) ∧
    (unitRuns s u = true → s.rowErr = [] →
      (∀ n, u = .slice n → (chan s n).power = .run ∨ (chan s n).power ≠ .doze ∧ (chan s n).waking = true) →
      exec (.patrolScrubStep u []) s = .next (scrubNext s u) ∧ (scrubNext s u).mem = s.mem ∧
        (unitMem (scrubNext s u) u).scrubPos =
          if (unitMem s u).scrubPos + 1 < unitRows s u then (unitMem s u).scrubPos + 1 else 0) ∧
    (∀ n : Chan, u = .slice n → unitRuns s u = true → s.rowErr = [] → (chan s n).power ≠ .run → (chan s n).power ≠ .doze →
      (chan s n).waking = false → exec (.patrolScrubStep u []) s = .next (scrubNext
        (updChan s n fun x => { x with power := .run, waking := false }) u)) ∧
    (∀ n : Chan, u = .slice n → (chan s n).power = .doze → let t := if (chan s n).waking then s else dozeLeft s n
      (unitRuns s u = true → exec (.patrolScrubStep u []) s = .next t) ∧
      ((unitMem s u).queue ≠ [] → exec (.correctionWriteBack u) s = .next t)) ∧
    ((unitMem s u).queue = [] → exec (.correctionWriteBack u) s = .next s) ∧
    ((∀ n, u = .slice n → (chan s n).power ≠ .doze) → ∀ (row : Nat) (rest : List (Nat × Bool)),
      let t := updUnitMem s u fun m => { m with queue := rest }
      ((unitMem s u).queue = (row, true) :: rest → exec (.correctionWriteBack u) s = .next t) ∧
      ((unitMem s u).queue = (row, false) :: rest → 2 ^ 60 ≤ row →
        exec (.correctionWriteBack u) s = .next (setPat t row []) ∧ rowPat (setPat t row []) row = []) ∧
      ((unitMem s u).queue = (row, false) :: rest → present s row = true →
        rowDecode (rowPat s row) = .corrected [] ∨ rowDecode (rowPat s row) = .clean [] →
        exec (.correctionWriteBack u) s = .next (keepPins s (wroteRow t row)) ∧
        (wroteRow t row).mem = s.mem ∧ rowPat (wroteRow t row) row = []))

/-- At an edit boundary a pool makes the edit that a loss asks for, and writes its record (R398); a drain takes up
to one edit's pages off its port, and the port is drained, with a record, once none is left (R400); one that fails
leaves what its reads counted and recorded (R188). What the manual
leaves open is the model's choice (log entries 39, 40). -/
def Obligations.LossesAndDrainsEditPools : Prop :=
  ∀ (p : Part) (q : SlowPort) (s : State), Runs s →
    ((pool s p).lossDue = false ∨ editBoundary s p = false → exec (.lossEdit p) s = .next s) ∧
    ((pool s p).lossDue = true → editBoundary s p = true → ∀ (n : Nat) (r : Run),
      ranM s (poolCtx s p) (editM lossEditM) = .ok n r →
      let v := updPool r.s p fun x => { x with lossDue := false }
      exec (.lossEdit p) s = .next (keepPins s (settled (addFault v
        { faultOf (poolWho p) 5 5 with arg0 := n, arg1 := (pool v p).instar }) p))) ∧
    ((slowP s q).draining = false → exec (.drainReliefEdit q) s = .next s) ∧
    ((slowP s q).draining = true → drainPart s q = none → pagesOnPort s q = 0 → (slowP s q).drained = false →
      ∃ t : State, exec (.drainReliefEdit q) s = .next t ∧ slowP t q = { slowP s q with drained := true } ∧
        t.mem = s.mem ∧ t.parts = s.parts ∧
        t.faults = ({ faultOf (Who.block 0) 2 6 with
          port := q, arg0 := (slowP s q).moved, fseq := (s.fseq + 1) % 2 ^ 32, phase := s.cad.phase } :: s.faults).take 1024) ∧
    ((slowP s q).draining = true → ∀ (d n : Nat) (r : Run), drainPart s q = some d →
      ranM s (poolCtx s d) (editM (drainEditM q)) = .ok n r →
      let v := settled (updSlow r.s q fun x => { x with moved := x.moved + n }) d
      pagesOnPort v q ≠ 0 → exec (.drainReliefEdit q) s = .next (keepPins s v)) ∧
    ((slowP s q).draining = true → ∀ (d e x : Nat) (t : State), drainPart s q = some d →
      ranM s (poolCtx s d) (editM (drainEditM q)) = .bad e x t → e ≠ stWAITNODE → e ≠ stWAITPIN → pagesOnPort t q ≠ 0 →
      exec (.drainReliefEdit q) s = .next (keepPins s t))

/-! ## Commands of the streams -/

/-- A control command is checked and issued; `task.begin` completes at issue; what the partition's commands wait for
is looked at again (R276 to R279, R284). A record that a check refuses is refused. With another command at the head
nothing is issued. What the manual leaves open is the model's choice (log entry 28). -/
def Obligations.ControlCommandsIssue : Prop :=
  ∀ (i : Instr) (p : Part) (st : Strm) (op : Nat) (s : State) (c : Cmd), controlRow i = some (p, st, op) → Runs s →
    headCmd s p st = some c →
    let nested := op == opTASKBEGIN && c.inTask && c.task != c.stamp
    let rs := recordRefs c.op c.record ++ shapeIf nested noField
    let v := updCmd s p st c.stamp fun c => { c with
      stage := .issued
      gen := curGen s
      factor := voltFactor s.gov.point
      phase0 := s.cad.phase
      dysil := some (dysilFields s p) }
    let again (s : State) : State := if op = opTASKBEGIN then s else settle s p
    (c.op = op → firstRef rs = none → exec i s = .next (keepPins s (again (settled
      (if op = opTASKBEGIN then endCmd v p st c.stamp stOK 0 else v) p)))) ∧
    (c.op = op → ∀ f : Ref, firstRef rs = some f →
      exec i s = .next (keepPins s (again (settled (refuseCmd s p st c.stamp f) p)))) ∧
    (c.op ≠ op → exec i s = .next (keepPins s (again s)))

/-- A channel command that no check refuses is issued at the head of its stream: it takes the generation and the
units, none for a zero run-time shape, and completes at once where it has none; else its shared parts join their
swarms (R82, R84, R106, R131, R138, R147, R164, R171, R281). One that a check refuses is refused. What the manual
leaves open is the model's choice (log entries 21, 46). -/
def Obligations.ChannelCommandsIssue : Prop :=
  ∀ (i : Instr) (p : Part) (st : Strm) (op : Nat) (s u : State) (k k1 k2 : Cmd) (rs : List Ref) (lens : List Nat)
    (parts : List (List Nat × List (List Nat))) (r : Run), chanRow i = some (p, st, op) → Runs s → k.op = op →
    MayIssue s p st k → pinned s p st k = some (u, k1) →
    ranM u (cmdCtx u p st k1 0xFF 0) (chanPlan p k1) = .ok (k2, rs, lens, parts) r →
    let lo := (unitRange k2 (chanUnits k2)).1
    let hi := (unitRange k2 (chanUnits k2)).2
    (firstRef rs = none → ∃ c : Cmd, c.stage = .issued ∧ c.gen = curGen r.s ∧ c.units = hi ∧ c.handed = lo ∧
      c.phase0 = r.s.cad.phase ∧ c.dysil = some (dysilFields r.s p) ∧ c.stamp = k2.stamp ∧ c.op = k2.op ∧ c.param = k2.param ∧
      exec i s = .next (keepPins s (settled (
        let v := updCmd r.s p st k2.stamp fun _ => c
        if hi ≤ lo then endCmd v p st k2.stamp stOK 0 else joinShared v p st c parts) p))) ∧
    (∀ f : Ref, firstRef rs = some f → exec i s = .next (keepPins s (refuseCmd r.s p st k2.stamp f)))

/-- A channel that can work takes the first unit that fits, with the repair map in effect where it turns to another
command (R81, R282, R309, R316). The end of a unit of a command or of a swarm lets its channel go, and what
follows from it takes place (R143, R281, R282); one that faults ends its commands (R145), one whose channel reports an
upset ends them with a record (R392, R393), and one that waits for a host read is held. A command that ends takes its
status, and unless that goes on it stops the commands of its task (R285, R286). Without a unit to take or to end nothing
changes there. Swarms that are due launch (R140). What the manual leaves open is the model's choice (log entries 25, 26). -/
def Obligations.UnitsAreTakenAndEnd : Prop :=
  ∀ (ch : Chan) (p : Part) (upset : Option UnitUpset) (s : State), Runs s →
    let after (t : State) (q : Nat) : State := launchDue (pruneSwarms (settle (boundary t ch) q) q) q
    exec (.swarmDeadline p) s = .next (keepPins s (launchDue s p)) ∧
    (chanOwner s ch = none → exec (.channelTakeUnit ch) s = .next (keepPins s (remSettle s))) ∧
    (∀ (o : Offer) (w : Nat), chanOwner s ch = some w → canTake s ch = true → chosen s w ch = some o →
      (chan s ch).cur = some (pf w, o.strm, o.stamp) →
      exec (.channelTakeUnit ch) s = .next (keepPins s (remSettle (grant s w ch o)))) ∧
    (∀ (o : Offer) (w : Nat), chanOwner s ch = some w → canTake s ch = true → chosen s w ch = some o →
      (chan s ch).cur ≠ some (pf w, o.strm, o.stamp) → (offers (atEdge s ch) w ch).contains o = true →
      exec (.channelTakeUnit ch) s = .next (keepPins s (remSettle (grant (atEdge s ch) w ch o)))) ∧
    ((chan s ch).unit = none → exec (.unitEnd ch upset) s = .next s) ∧
    (∀ (u : UnitHold) (c : Cmd) (r : Run), (chan s ch).unit = some u → u.swarm = none →
      getCmd s u.part u.strm u.stamp = some c → c.ended = false →
      runUnit s (cmdCtx s u.part u.strm c ch 7) (unitBody u.part (chan s ch).role c u.value) = .ok r →
      let v := updCmd (dropHost (applyRun (letGo r.s ch) ch r) (cmdCtx s u.part u.strm c ch 7).owner) u.part u.strm c.stamp
        fun c => { (c.take r 0).sortScores r.sums.length (u.value / max 1 (c.get .hkv)) with unitsOut := c.unitsOut - 1 }
      (chan v ch).unit = none ∧ exec (.unitEnd ch none) s = .next (keepPins s (after v u.part))) ∧
    (∀ (u : UnitHold) (c : Cmd) (e d : Nat) (r : Run), (chan s ch).unit = some u → u.swarm = none →
      getCmd s u.part u.strm u.stamp = some c → c.ended = false →
      runUnit s (cmdCtx s u.part u.strm c ch 7) (unitBody u.part (chan s ch).role c u.value) = .bad e d r →
      let v := updCmd (dropHost (applyRun (letGo r.s ch) ch r) (cmdCtx s u.part u.strm c ch 7).owner) u.part u.strm c.stamp
        fun c => { (c.take { r with sums := [] } 0) with unitsOut := c.unitsOut - 1 }
      exec (.unitEnd ch none) s = .next (keepPins s (after (endCmd v u.part u.strm c.stamp e d) u.part))) ∧
    (∀ (u : UnitHold) (c : Cmd) (t : State), (chan s ch).unit = some u → u.swarm = none →
      getCmd s u.part u.strm u.stamp = some c → c.ended = false →
      runUnit s (cmdCtx s u.part u.strm c ch 7) (unitBody u.part (chan s ch).role c u.value) = .host t →
      (chan t ch).unit.isSome = true → exec (.unitEnd ch none) s = .next (keepPins s t)) ∧
    (∀ (u : UnitHold) (id : Nat) (w : Swarm) (x : Ctx × Cmd × List Nat) (xs : List (Ctx × Cmd × List Nat)) (r : Run),
      (chan s ch).unit = some u → u.swarm = some id → ((part s u.part).swarms.find? fun w => w.id == id) = some w →
      groupCmds s u.part ch w u.value = x :: xs →
      let v := (x :: xs).zipIdx.foldl (fun t y => updCmd (dropHost t y.1.1.owner) u.part w.strm y.1.2.1.stamp fun c =>
        { (c.take { r with sums := [], escs := [], pipe := Pipe.zero } y.2) with shared := c.shared - y.1.2.2.length })
        (applyRun (letGo r.s ch) ch r)
      (runUnit s x.1 (swarmUnit u.part (chan s ch).role (x :: xs)) = .ok r →
        exec (.unitEnd ch none) s = .next (keepPins s (after v u.part))) ∧
      (∀ e d : Nat, runUnit s x.1 (swarmUnit u.part (chan s ch).role (x :: xs)) = .bad e d r →
        exec (.unitEnd ch none) s = .next (keepPins s (after
          ((inOrder s u.part w.strm ((x :: xs).map fun y => y.2.1.stamp)).foldl
            (fun t k => endCmd t u.part w.strm k e d) v) u.part)))) ∧
    (∀ (u : UnitHold) (n : Nat), (chan s ch).unit = some u → exec (.unitEnd ch (some (.corrected n))) s =
      .next (keepPins s (unitEnd (bump s 0 (pgARY ch) 0xF38 n) ch none))) ∧
    (∀ (u : UnitHold) (e : UnitUpset), (chan s ch).unit = some u → (∀ n, e ≠ .corrected n) →
      (∀ (k : Word) (c : Cmd), k ∈ unitStamps s u → getCmd s u.part u.strm k = some c → c.op ≠ opTASKEND) →
      ∃ v : State, (chan v ch).unit = none ∧
        v.faults = ({ upsetFault (Who.cmd u.part u.strm ((unitStamps s u).headD u.stamp) 7) ch e with
          fseq := (s.fseq + 1) % 2 ^ 32, phase := s.cad.phase } :: s.faults).take 1024 ∧
        (∀ (k : Word) (c : Cmd), k ∈ unitStamps s u → getCmd s u.part u.strm k = some c → c.ended = false →
          ∃ d : Cmd, getCmd v u.part u.strm k = some d ∧ d.ended = true ∧ (d.status = stECC ∨ d.status = stABORTED)) ∧
        exec (.unitEnd ch (some e)) s = .next (keepPins s (after v u.part))) ∧
    (∀ (st : Strm) (k : Word) (status detail : Nat) (c : Cmd), getCmd s p st k = some c → c.ended = false →
      (c.op = opTASKEND → c.inTask = true → goesOn status = true) →
      let aborts := c.inTask && !(goesOn status)
      let t := endCmd s p st k status detail
      (strm t p st).cmds = (strm s p st).cmds.map (fun o =>
        if o.stamp = k then { o with stage := .ended, status := status, detail := detail }
        else if aborts && (strm s p st).cmds.any (fun y =>
          y.stamp == o.stamp && (y.inTask && y.task == c.task && (y.stoppable || y.unstarted)))
        then { o with stage := .ended, status := stABORTED, detail := 0 } else o) ∧
      (strm t p st).tasks = (strm s p st).tasks.map (fun t => if aborts && t.first == c.task then { t with aborted := true } else t) ∧
      ∀ su : Strm, su ≠ st → strm t p su = strm s p su)

/-- An edit that its stream's turn and the pool allow is made as a whole: the budget is charged, the command holds
what it did and ends, a park of named sequences once its images are written. One that a check refuses is refused, and
one that finds no frames waits or ends, under its pin (R225); when its window is over it has a last try. One that the
budget has no room for is left (R310). The prefetch-back of commands that were fetched follows (R212, R215, R218, R222, R224, R226,
R228, R237, R238, R248, R251, R254, R255). A park whose image is written, and a local molt, do the same (R254, R381). What the manual leaves open is the model's choice (log
entries 42, 73). -/
def Obligations.EditsAreMadeWhole : Prop :=
  ∀ (p : Part) (st : Strm) (s : State) (k : Cmd), Runs s →
    (∀ (i : Instr) (op : Nat), editRow i = some (p, st, op) → headCmd s p st = some k → k.op = op →
      exec i s = .next (keepPins s (editStep s p st k))) ∧
    (k.paramErr = 0 → eligible s p st = true → editFree s p st k = true →
      let last := waitOver s p st k.stamp
      let cost (t : State) (d : EditDone) : Nat := estimate t (editWork (shapeOf t [] p) d.tx (d.put * (shapeOf t [] p).hkv))
      ∀ (k2 : Cmd) (w : EditRes) (r : Run), ranM s (cmdCtx s p st k 0xFF 0) (editRun p k last) = .ok (k2, w) r →
      (∀ d : EditDone, w = .done d →
        editStep s p st k = edited (if budgetFits s (cost r.s d) then editMade p st k2 d r else s) p) ∧
      (∀ (images : List (Nat × Nat)) (d : EditDone) (r2 : Run), w = .ready images →
        ranM r.s (cmdCtx r.s p st k2 0xFF 0) (editBody k2 last images) = .ok d r2 →
        editStep s p st k = edited (if budgetFits r.s (cost r2.s d) then editMade p st k2 d r2 else r.s) p) ∧
      (∀ f : Ref, w = .refused f →
        editStep s p st k = edited (endPinned r.s p st k2.stamp fun t => refuseCmd t p st k2.stamp f) p) ∧
      (∀ short : Nat, w = .wait short →
        editStep s p st k = edited (setWait (unpin r.s p st k.stamp) p st k.stamp short) p) ∧
      (∀ short : Nat, w = .noFrame short →
        editStep s p st k = edited (endPinned r.s p st k2.stamp fun t => noFrameEnd t p st k2.stamp 1 short) p) ∧
      (w = .parkFull →
        editStep s p st k = edited (endPinned r.s p st k2.stamp fun t => parkFullEnd t p st k2.stamp) p)) ∧
    (∀ (d : EditDone) (r : Run) (k0 : Cmd), k.op ≠ opTASKEND → getCmd r.s p st k.stamp = some k0 → ∃ c : Cmd,
      getCmd (editMade p st k d r) p st k.stamp = some c ∧ c.op = k.op ∧ c.pin = k0.pin ∧
      c.energy = estimate r.s (editWork (shapeOf r.s [] p) d.tx (d.put * (shapeOf r.s [] p).hkv)) ∧
      c.countA = d.frames ∧ c.countB = d.pos % 2 ^ 32 ∧
      (k.op = opPARK → k.named ≠ [] → c.stage = .started) ∧
      (k.op ≠ opPARK ∨ k.named = [] → c.stage = .ended ∧ c.status = stOK ∧ c.detail = 0)) ∧
    (parkHeld s p st = some k → exec (.seqPark p st) s = .next (keepPins s (settled (finishPark s p st k) p))) ∧
    (parkHeld s p st = none → headCmd s p st = some k → k.op = opPARK →
      let v := editStep s p st k
      exec (.seqPark p st) s = .next (keepPins s (match parkHeld v p st with
        | some c => settled (finishPark v p st c) p
        | none => v))) ∧
    (headCmd s p st = some k → k.op = opMOLT → 2 ≤ k.get .mode →
      exec (.moltLocal p st) s = .next (keepPins s (editStep s p st k))) ∧
    ((pool s p).wait = none → exec (.reclaimWinExpiry p) s = .next s) ∧
    (∀ w : EditWait, (pool s p).wait = some w →
      (w.ticks < eff s pgPOOL 0x104 → exec (.reclaimWinExpiry p) s = .next s) ∧
      (eff s pgPOOL 0x104 ≤ w.ticks → getCmd s p w.strm w.stamp = some k → k.op ≠ opPARK →
        eligible s p w.strm = true →
        exec (.reclaimWinExpiry p) s = .next (keepPins s (edited (startEdit s p w.strm k true) p))))

/-- A transfer command that no check refuses is issued; one that is issued takes its slot and moves its first
transfer, and a slot in use turns it away. The next transfer of a slot starts when its period is over and the one
before is complete (R292 to R294). What the manual leaves open is the model's choice (log entries 50, 73). -/
def Obligations.TransfersRunInTheirSlots : Prop :=
  ∀ (p : Part) (st : Strm) (slot : Fin 32) (s : State), Runs s →
    (∀ (i : Instr) (op : Nat) (k : Cmd), transferRow i = some (p, st, op) →
      (readyTransfer s p st op = none → headCmd s p st = some k → k.op = op →
        let v := issueTransfer s p st k
        exec i s = .next (keepPins s (settled (match readyTransfer v p st op with
          | some c => startTransfer v p st c
          | none => v) p))) ∧
      (readyTransfer s p st op = some k → eligible s p st = true → budgetFits s k.energy = true →
        (slotOf s p (k.get .xs) = none → exec i s = .next (keepPins s (settled
          (settleSlot (moveData (takeSlot s p st k) p (k.get .xs)) p (k.get .xs)) p))) ∧
        ((slotOf s p (k.get .xs)).isSome = true → exec i s = .next (keepPins s (settled
          (endCmd (setBusy s p 2) p st k.stamp stARMBUSY (k.get .xs)) p))))) ∧
    (slotOf s p slot = none → exec (.transferPeriod p slot) s = .next s) ∧
    (∀ x : XSlot, slotOf s p slot = some x →
      (x.phase ≠ 0 ∨ x.sinceStart < x.period → exec (.transferPeriod p slot) s = .next s) ∧
      (x.phase = 0 → x.period ≤ x.sinceStart →
        exec (.transferPeriod p slot) s = .next (keepPins s (settled
          (settleSlot (moveData (updSlot s p slot fun y => { y with phase := 1, sinceStart := 0 }) p slot) p slot) p))))

/-- A `snap` that no check refuses is issued, and the held swarms of its partition launch at once (R403, R404). Where
its partition is not quiet it stays; where it is, the header of its image is written and its sections follow, and it
completes once the image is whole (R407). One that has waited its ticks, like a fence that has, ends with
`FENCE_TIMEOUT` and a record (R277, R405). A fence completes once its condition holds, and a `wait.phase` once its phase
is reached (R277, R279). What the manual leaves open is the model's choice (log entries 17, 83). -/
def Obligations.SnapsAndFencesWait : Prop :=
  ∀ (p : Part) (st : Strm) (s : State) (k : Cmd), Runs s →
    (MayIssue s p st k → k.op = opSNAP → ∀ (u : State) (k1 : Cmd) (rs : List Ref) (w : Work) (r : Run),
      pinned s p st k = some (u, k1) → ranM u (cmdCtx u p st k1 0xFF 0) (snapPlan k1) = .ok (rs, w) r →
      (firstRef rs = none → exec (.snap p st) s = .next (keepPins s (settled (snapIssued r.s p st k1 w) p))) ∧
      (∀ f : Ref, firstRef rs = some f →
        exec (.snap p st) s = .next (keepPins s (settled (refuseCmd r.s p st k1.stamp f) p)))) ∧
    (snapsOf s p = [] → exec (.snapQuiesce p) s = .next (keepPins s (settled s p))) ∧
    (snapsOf s p = [(st, k)] → getCmd s p st k.stamp = some k →
      (k.stage = .issued → quiet s p st k = false → exec (.snapQuiesce p) s = .next (keepPins s (settled s p))) ∧
      (k.stage = .issued → quiet s p st k = true → eligible s p st = true → budgetFits s k.energy = true →
        let x := cmdCtx s p st k 0xFF 0
        let h := { k with quiesced := some (k.quiesced.getD s.cad.phase) }
        ∀ r : Run, runM (writeHeader h) (Run.of s x) = (.ok (), r) → runWait s x (.ok ()) r = none →
        let v := updCmd (dropHost r.s x.owner) p st k.stamp fun c =>
          { c with outs := r.outs.foldl (fun o e => noteOut o e.1 e.2.1 e.2.2) c.outs }
        let w := updCmd (charge v k.energy) p st k.stamp fun c =>
          { c with stage := .started, begun := true, quiesced := h.quiesced, imgStep := 1 }
        exec (.snapQuiesce p) s = .next (keepPins s (settled
          (snapWith p st k.stamp snapEnd (snapWith p st k.stamp snapFinal (snapWith p st k.stamp snapBody w))) p))) ∧
      (k.stage = .started → k.imgStep = 3 → cmdWaits s p st k.stamp = false →
        exec (.snapQuiesce p) s = .next (keepPins s (settled (endCmd s p st k.stamp stOK 0) p)))) ∧
    (snapsOf s p = [(st, k)] → k.stage = .issued → k.quiesced = none → quiet s p st k = false → k.get .tmo ≠ 0 →
      k.get .tmo ≤ k.ticks →
      let v := addFault s { faultOf (Who.cmd p st k.stamp 0) 4 5 with arg0 := k.ticks }
      exec (.snapTimeout p) s = .next (keepPins s (settled (endCmd v p st k.stamp stFENCETMO (lastFault v)) p))) ∧
    (snapsOf s p = [] → exec (.snapTimeout p) s = .next s) ∧
    (fenceLate s p st = none → exec (.fenceTimeout p st) s = .next s) ∧
    (fenceLate s p st = some k →
      let v := addFault s { faultOf (Who.cmd p st k.stamp 0) 4 5 with arg0 := k.ticks }
      exec (.fenceTimeout p st) s = .next (keepPins s (settled (endCmd
        (updCmd v p st k.stamp fun c => { c with countA := c.ticks }) p st k.stamp stFENCETMO (lastFault v)) p))) ∧
    ((∀ o, (strm s p o).cancelTo = none) → (∀ o, o ≠ st → (strm s p o).cmds = []) → (strm s p st).cmds = [k] →
      k.stage = .issued →
      (k.op = opFENCE → settle s p =
        if allStrms.all (fun o => o == st || !(bitOf (leAt k.record 36 1) o.num) ||
          stampGe (strm s p o).low (BitVec.ofNat 32 (leAt k.record (44 + 4 * o.num) 4)))
        then endCmd (updCmd s p st k.stamp fun c => { c with countA := c.ticks }) p st k.stamp stOK 0 else s) ∧
      (k.op = opWAITPHASE → settle s p =
        if leAt k.record 40 8 ≤ s.cad.phase.toNat then endCmd s p st k.stamp stOK 0 else s))

/-- A poll of a stream that may fetch reads the slot of its next record. A record that is not valid ends the poll
and takes nothing; a valid one is taken and the poll goes on; a read that fails disarms the stream with a record. A
stream of a partition that is not loaded, or one that may not fetch, takes nothing (R258 to R261, R264, R307). What
the manual leaves open is the model's choice (log entry 23). -/
def Obligations.RingsArePolled : Prop :=
  ∀ (p : Part) (st : Strm) (s : State), Runs s →
    (partLoad s p = false → exec (.ringPoll p st) s = .next s) ∧
    (partLoad s p = true → mayFetch s p st = false →
      exec (.ringPoll p st) s = .next (keepPins s (launchDue (setPolling s p st false) p))) ∧
    (partLoad s p = true → mayFetch s p st = true → ∀ (bs : List Byte) (r : Run),
      slotRead s p st (nextSlotVa s p st) = .ok bs r →
      (leAt bs 0 1 = 0 ∨ leAt bs 4 4 ≠ (strm r.s p st).next.toNat →
        exec (.ringPoll p st) s = .next (keepPins s (launchDue
          (setPolling (dropHost r.s (.ring (pf p) st)) p st false) p))) ∧
      (leAt bs 0 1 ≠ 0 → leAt bs 4 4 = (strm r.s p st).next.toNat →
        isControl (leAt bs 0 1) = true ∨ leAt bs 8 7 = 0 ∨ leAt bs 26 2 = 0 →
        exec (.ringPoll p st) s = .next (keepPins s (launchDue
          (pollLoop 64 (takeRecord r.s p st bs [] 0 0) p st) p)))) ∧
    (partLoad s p = true → mayFetch s p st = true → ∀ (e d : Nat) (w : State),
      slotRead s p st (nextSlotVa s p st) = .bad e d w → e ≠ stECC →
      exec (.ringPoll p st) s = .next (keepPins s (launchDue
        (ringFail (dropHost s (.ring (pf p) st)) p st (nextSlotVa s p st)) p)))

/-- The completion of the next command that ended and needs no record or has room for one: a quiet command that ended
well completes without a record; any other writes its record, with the next number, after its checksum entries (R296,
R297, R412). Where no ended command may complete nothing is written. A command that completes leaves its stream with its
pin, and `LOW` rises to the first stamp that is not complete (R225, R296). What the manual leaves open is the model's
choice (log entry 23). -/
def Obligations.CompletionsAreRecorded : Prop :=
  ∀ (p : Part) (st : Strm) (s : State), Runs s →
    (nextDone s p st = none → exec (.completionRecordWrite p st) s = .next (keepPins s (launchDue s p))) ∧
    (ringRoom s p st = false → (∀ c ∈ (strm s p st).cmds, (c.quiet && c.status == stOK) = false) →
      exec (.completionRecordWrite p st) s = .next (keepPins s (launchDue s p))) ∧
    (∀ (c : Cmd) (t : State), nextDone s p st = some c → pinAsks s p c = some t →
      exec (.completionRecordWrite p st) s = .next (keepPins s (launchDue t p))) ∧
    (∀ (c : Cmd) (w : State), nextDone s p st = some c → pinAsks s p c = none →
      let sums := c.status == stOK && checksumMode s p && !(isControl c.op)
      (sums = false → w = s) →
      (sums = true → ∃ (n : Nat) (r : Run), ranM s (cmdCtx s p st c 0xFF 0) (checksums st c) = .ok n r ∧ w = r.s) →
      let quiet := c.quiet && c.status == stOK
      let a := advise w p st c
      let n := ((strm w p st).cseq + 1).toNat
      (quiet = true → exec (.completionRecordWrite p st) s = .next (keepPins s (launchDue (completeCmd a.1 p st c) p))) ∧
      (quiet = false → ∀ r : Run,
        ranM a.1 { who := Who.cmd p st c.stamp 0, part := p, root := none, owner := .completion (pf p) st }
          (wrPlain (recordVa a.1 p st n) (completionBytes c n a.2)) = .ok () r →
        exec (.completionRecordWrite p st) s = .next (keepPins s (launchDue (completeCmd
          (updStrm r.s p st fun x => { x with cseq := x.cseq + 1 }) p st c) p)))) ∧
    (∀ (c : Cmd) (n : Nat), n < 2 ^ 32 →
      let x := strm s p st
      let done := x.doneSet ++ [c.stamp]
      (∀ i : Nat, i < n → x.low + BitVec.ofNat 32 i ∈ done) → x.low + BitVec.ofNat 32 n ∉ done →
      ∃ v : State, completeCmd s p st c = settle v p ∧ (strm v p st).low = x.low + BitVec.ofNat 32 n ∧
        (strm v p st).cmds = x.cmds.filter (fun o => o.stamp != c.stamp) ∧
        (strm v p st).doneQ = x.doneQ.filter (fun k => k != c.stamp) ∧
        (pool v p).pins = (match c.pin with
          | some k => ((pool s p).pins.map fun q =>
              if q.instar = k then { q with count := q.count - 1 } else q).filter fun q => q.count != 0
          | none => (pool s p).pins) ∧
        ∀ su : Strm, su ≠ st → strm v p su = strm s p su)
end

