-- ==== Sys2Proof/Laws/State.lean ====
section
/-! SUPPORT. What the named updates of a part of the state leave alone, one lemma for each field, and what reading a part
after an update of it gives. -/

namespace Sys2Proof.Machine

open Sys2Proof

/-! ## Fields that an update leaves alone -/

section
variable (s : State) (p : Nat) (f : Partition → Partition)

@[simp] theorem updPart_rstN : (updPart s p f).rstN = s.rstN := rfl
@[simp] theorem updPart_testEn : (updPart s p f).testEn = s.testEn := rfl
@[simp] theorem updPart_cycle : (updPart s p f).cycle = s.cycle := rfl
@[simp] theorem updPart_initFuse : (updPart s p f).initFuse = s.initFuse := rfl
@[simp] theorem updPart_fuseErr : (updPart s p f).fuseErr = s.fuseErr := rfl
@[simp] theorem updPart_initTest : (updPart s p f).initTest = s.initTest := rfl
@[simp] theorem updPart_initStore : (updPart s p f).initStore = s.initStore := rfl
@[simp] theorem updPart_fuse : (updPart s p f).fuse = s.fuse := rfl
@[simp] theorem updPart_mem : (updPart s p f).mem = s.mem := rfl
@[simp] theorem updPart_rowErr : (updPart s p f).rowErr = s.rowErr := rfl
@[simp] theorem updPart_reported : (updPart s p f).reported = s.reported := rfl
@[simp] theorem updPart_shadow : (updPart s p f).shadow = s.shadow := rfl
@[simp] theorem updPart_effect : (updPart s p f).effect = s.effect := rfl
@[simp] theorem updPart_live : (updPart s p f).live = s.live := rfl
@[simp] theorem updPart_pageStat : (updPart s p f).pageStat = s.pageStat := rfl
@[simp] theorem updPart_commits : (updPart s p f).commits = s.commits := rfl
@[simp] theorem updPart_gstat : (updPart s p f).gstat = s.gstat := rfl
@[simp] theorem updPart_cfgHeld : (updPart s p f).cfgHeld = s.cfgHeld := rfl
@[simp] theorem updPart_captured : (updPart s p f).captured = s.captured := rfl
@[simp] theorem updPart_rdata : (updPart s p f).rdata = s.rdata := rfl
@[simp] theorem updPart_rload0 : (updPart s p f).rload0 = s.rload0 := rfl
@[simp] theorem updPart_chans : (updPart s p f).chans = s.chans := rfl
@[simp] theorem updPart_slices : (updPart s p f).slices = s.slices := rfl
@[simp] theorem updPart_dozed : (updPart s p f).dozed = s.dozed := rfl
@[simp] theorem updPart_slow : (updPart s p f).slow = s.slow := rfl
@[simp] theorem updPart_fab : (updPart s p f).fab = s.fab := rfl
@[simp] theorem updPart_fabOut : (updPart s p f).fabOut = s.fabOut := rfl
@[simp] theorem updPart_iqDone : (updPart s p f).iqDone = s.iqDone := rfl
@[simp] theorem updPart_rem : (updPart s p f).rem = s.rem := rfl
@[simp] theorem updPart_remOut : (updPart s p f).remOut = s.remOut := rfl
@[simp] theorem updPart_segments : (updPart s p f).segments = s.segments := rfl
@[simp] theorem updPart_faults : (updPart s p f).faults = s.faults := rfl
@[simp] theorem updPart_fseq : (updPart s p f).fseq = s.fseq := rfl
@[simp] theorem updPart_repair : (updPart s p f).repair = s.repair := rfl
@[simp] theorem updPart_cad : (updPart s p f).cad = s.cad := rfl
@[simp] theorem updPart_wbt : (updPart s p f).wbt = s.wbt := rfl
@[simp] theorem updPart_gov : (updPart s p f).gov = s.gov := rfl
@[simp] theorem updPart_gens : (updPart s p f).gens = s.gens := rfl
@[simp] theorem updPart_ckSeq : (updPart s p f).ckSeq = s.ckSeq := rfl
@[simp] theorem updPart_rstat : (updPart s p f).rstat = s.rstat := rfl
@[simp] theorem updPart_wir : (updPart s p f).wir = s.wir := rfl
@[simp] theorem updPart_free : (updPart s p f).free = s.free := rfl
@[simp] theorem updPart_pending : (updPart s p f).pending = s.pending := rfl

end

section
variable (s : State) (n : Nat) (f : Channel → Channel)

@[simp] theorem updChan_rstN : (updChan s n f).rstN = s.rstN := rfl
@[simp] theorem updChan_testEn : (updChan s n f).testEn = s.testEn := rfl
@[simp] theorem updChan_cycle : (updChan s n f).cycle = s.cycle := rfl
@[simp] theorem updChan_initFuse : (updChan s n f).initFuse = s.initFuse := rfl
@[simp] theorem updChan_fuseErr : (updChan s n f).fuseErr = s.fuseErr := rfl
@[simp] theorem updChan_initTest : (updChan s n f).initTest = s.initTest := rfl
@[simp] theorem updChan_initStore : (updChan s n f).initStore = s.initStore := rfl
@[simp] theorem updChan_fuse : (updChan s n f).fuse = s.fuse := rfl
@[simp] theorem updChan_mem : (updChan s n f).mem = s.mem := rfl
@[simp] theorem updChan_rowErr : (updChan s n f).rowErr = s.rowErr := rfl
@[simp] theorem updChan_reported : (updChan s n f).reported = s.reported := rfl
@[simp] theorem updChan_shadow : (updChan s n f).shadow = s.shadow := rfl
@[simp] theorem updChan_effect : (updChan s n f).effect = s.effect := rfl
@[simp] theorem updChan_live : (updChan s n f).live = s.live := rfl
@[simp] theorem updChan_pageStat : (updChan s n f).pageStat = s.pageStat := rfl
@[simp] theorem updChan_commits : (updChan s n f).commits = s.commits := rfl
@[simp] theorem updChan_gstat : (updChan s n f).gstat = s.gstat := rfl
@[simp] theorem updChan_cfgHeld : (updChan s n f).cfgHeld = s.cfgHeld := rfl
@[simp] theorem updChan_captured : (updChan s n f).captured = s.captured := rfl
@[simp] theorem updChan_rdata : (updChan s n f).rdata = s.rdata := rfl
@[simp] theorem updChan_rload0 : (updChan s n f).rload0 = s.rload0 := rfl
@[simp] theorem updChan_parts : (updChan s n f).parts = s.parts := rfl
@[simp] theorem updChan_slices : (updChan s n f).slices = s.slices := rfl
@[simp] theorem updChan_dozed : (updChan s n f).dozed = s.dozed := rfl
@[simp] theorem updChan_slow : (updChan s n f).slow = s.slow := rfl
@[simp] theorem updChan_fab : (updChan s n f).fab = s.fab := rfl
@[simp] theorem updChan_fabOut : (updChan s n f).fabOut = s.fabOut := rfl
@[simp] theorem updChan_iqDone : (updChan s n f).iqDone = s.iqDone := rfl
@[simp] theorem updChan_rem : (updChan s n f).rem = s.rem := rfl
@[simp] theorem updChan_remOut : (updChan s n f).remOut = s.remOut := rfl
@[simp] theorem updChan_segments : (updChan s n f).segments = s.segments := rfl
@[simp] theorem updChan_faults : (updChan s n f).faults = s.faults := rfl
@[simp] theorem updChan_fseq : (updChan s n f).fseq = s.fseq := rfl
@[simp] theorem updChan_repair : (updChan s n f).repair = s.repair := rfl
@[simp] theorem updChan_cad : (updChan s n f).cad = s.cad := rfl
@[simp] theorem updChan_wbt : (updChan s n f).wbt = s.wbt := rfl
@[simp] theorem updChan_gov : (updChan s n f).gov = s.gov := rfl
@[simp] theorem updChan_gens : (updChan s n f).gens = s.gens := rfl
@[simp] theorem updChan_ckSeq : (updChan s n f).ckSeq = s.ckSeq := rfl
@[simp] theorem updChan_rstat : (updChan s n f).rstat = s.rstat := rfl
@[simp] theorem updChan_wir : (updChan s n f).wir = s.wir := rfl
@[simp] theorem updChan_free : (updChan s n f).free = s.free := rfl
@[simp] theorem updChan_pending : (updChan s n f).pending = s.pending := rfl

end

section
variable (s : State) (n : Nat) (f : Slice → Slice)

@[simp] theorem updSlice_rstN : (updSlice s n f).rstN = s.rstN := rfl
@[simp] theorem updSlice_testEn : (updSlice s n f).testEn = s.testEn := rfl
@[simp] theorem updSlice_cycle : (updSlice s n f).cycle = s.cycle := rfl
@[simp] theorem updSlice_initFuse : (updSlice s n f).initFuse = s.initFuse := rfl
@[simp] theorem updSlice_fuseErr : (updSlice s n f).fuseErr = s.fuseErr := rfl
@[simp] theorem updSlice_initTest : (updSlice s n f).initTest = s.initTest := rfl
@[simp] theorem updSlice_initStore : (updSlice s n f).initStore = s.initStore := rfl
@[simp] theorem updSlice_fuse : (updSlice s n f).fuse = s.fuse := rfl
@[simp] theorem updSlice_mem : (updSlice s n f).mem = s.mem := rfl
@[simp] theorem updSlice_rowErr : (updSlice s n f).rowErr = s.rowErr := rfl
@[simp] theorem updSlice_reported : (updSlice s n f).reported = s.reported := rfl
@[simp] theorem updSlice_shadow : (updSlice s n f).shadow = s.shadow := rfl
@[simp] theorem updSlice_effect : (updSlice s n f).effect = s.effect := rfl
@[simp] theorem updSlice_live : (updSlice s n f).live = s.live := rfl
@[simp] theorem updSlice_pageStat : (updSlice s n f).pageStat = s.pageStat := rfl
@[simp] theorem updSlice_commits : (updSlice s n f).commits = s.commits := rfl
@[simp] theorem updSlice_gstat : (updSlice s n f).gstat = s.gstat := rfl
@[simp] theorem updSlice_cfgHeld : (updSlice s n f).cfgHeld = s.cfgHeld := rfl
@[simp] theorem updSlice_captured : (updSlice s n f).captured = s.captured := rfl
@[simp] theorem updSlice_rdata : (updSlice s n f).rdata = s.rdata := rfl
@[simp] theorem updSlice_rload0 : (updSlice s n f).rload0 = s.rload0 := rfl
@[simp] theorem updSlice_parts : (updSlice s n f).parts = s.parts := rfl
@[simp] theorem updSlice_chans : (updSlice s n f).chans = s.chans := rfl
@[simp] theorem updSlice_dozed : (updSlice s n f).dozed = s.dozed := rfl
@[simp] theorem updSlice_slow : (updSlice s n f).slow = s.slow := rfl
@[simp] theorem updSlice_fab : (updSlice s n f).fab = s.fab := rfl
@[simp] theorem updSlice_fabOut : (updSlice s n f).fabOut = s.fabOut := rfl
@[simp] theorem updSlice_iqDone : (updSlice s n f).iqDone = s.iqDone := rfl
@[simp] theorem updSlice_rem : (updSlice s n f).rem = s.rem := rfl
@[simp] theorem updSlice_remOut : (updSlice s n f).remOut = s.remOut := rfl
@[simp] theorem updSlice_segments : (updSlice s n f).segments = s.segments := rfl
@[simp] theorem updSlice_faults : (updSlice s n f).faults = s.faults := rfl
@[simp] theorem updSlice_fseq : (updSlice s n f).fseq = s.fseq := rfl
@[simp] theorem updSlice_repair : (updSlice s n f).repair = s.repair := rfl
@[simp] theorem updSlice_cad : (updSlice s n f).cad = s.cad := rfl
@[simp] theorem updSlice_wbt : (updSlice s n f).wbt = s.wbt := rfl
@[simp] theorem updSlice_gov : (updSlice s n f).gov = s.gov := rfl
@[simp] theorem updSlice_gens : (updSlice s n f).gens = s.gens := rfl
@[simp] theorem updSlice_ckSeq : (updSlice s n f).ckSeq = s.ckSeq := rfl
@[simp] theorem updSlice_rstat : (updSlice s n f).rstat = s.rstat := rfl
@[simp] theorem updSlice_wir : (updSlice s n f).wir = s.wir := rfl
@[simp] theorem updSlice_free : (updSlice s n f).free = s.free := rfl
@[simp] theorem updSlice_pending : (updSlice s n f).pending = s.pending := rfl

end

section
variable (s : State) (q : Nat) (f : SlowSt → SlowSt)

@[simp] theorem updSlow_rstN : (updSlow s q f).rstN = s.rstN := rfl
@[simp] theorem updSlow_testEn : (updSlow s q f).testEn = s.testEn := rfl
@[simp] theorem updSlow_cycle : (updSlow s q f).cycle = s.cycle := rfl
@[simp] theorem updSlow_initFuse : (updSlow s q f).initFuse = s.initFuse := rfl
@[simp] theorem updSlow_fuseErr : (updSlow s q f).fuseErr = s.fuseErr := rfl
@[simp] theorem updSlow_initTest : (updSlow s q f).initTest = s.initTest := rfl
@[simp] theorem updSlow_initStore : (updSlow s q f).initStore = s.initStore := rfl
@[simp] theorem updSlow_fuse : (updSlow s q f).fuse = s.fuse := rfl
@[simp] theorem updSlow_mem : (updSlow s q f).mem = s.mem := rfl
@[simp] theorem updSlow_rowErr : (updSlow s q f).rowErr = s.rowErr := rfl
@[simp] theorem updSlow_reported : (updSlow s q f).reported = s.reported := rfl
@[simp] theorem updSlow_shadow : (updSlow s q f).shadow = s.shadow := rfl
@[simp] theorem updSlow_effect : (updSlow s q f).effect = s.effect := rfl
@[simp] theorem updSlow_live : (updSlow s q f).live = s.live := rfl
@[simp] theorem updSlow_pageStat : (updSlow s q f).pageStat = s.pageStat := rfl
@[simp] theorem updSlow_commits : (updSlow s q f).commits = s.commits := rfl
@[simp] theorem updSlow_gstat : (updSlow s q f).gstat = s.gstat := rfl
@[simp] theorem updSlow_cfgHeld : (updSlow s q f).cfgHeld = s.cfgHeld := rfl
@[simp] theorem updSlow_captured : (updSlow s q f).captured = s.captured := rfl
@[simp] theorem updSlow_rdata : (updSlow s q f).rdata = s.rdata := rfl
@[simp] theorem updSlow_rload0 : (updSlow s q f).rload0 = s.rload0 := rfl
@[simp] theorem updSlow_parts : (updSlow s q f).parts = s.parts := rfl
@[simp] theorem updSlow_chans : (updSlow s q f).chans = s.chans := rfl
@[simp] theorem updSlow_slices : (updSlow s q f).slices = s.slices := rfl
@[simp] theorem updSlow_dozed : (updSlow s q f).dozed = s.dozed := rfl
@[simp] theorem updSlow_fab : (updSlow s q f).fab = s.fab := rfl
@[simp] theorem updSlow_fabOut : (updSlow s q f).fabOut = s.fabOut := rfl
@[simp] theorem updSlow_iqDone : (updSlow s q f).iqDone = s.iqDone := rfl
@[simp] theorem updSlow_rem : (updSlow s q f).rem = s.rem := rfl
@[simp] theorem updSlow_remOut : (updSlow s q f).remOut = s.remOut := rfl
@[simp] theorem updSlow_segments : (updSlow s q f).segments = s.segments := rfl
@[simp] theorem updSlow_faults : (updSlow s q f).faults = s.faults := rfl
@[simp] theorem updSlow_fseq : (updSlow s q f).fseq = s.fseq := rfl
@[simp] theorem updSlow_repair : (updSlow s q f).repair = s.repair := rfl
@[simp] theorem updSlow_cad : (updSlow s q f).cad = s.cad := rfl
@[simp] theorem updSlow_wbt : (updSlow s q f).wbt = s.wbt := rfl
@[simp] theorem updSlow_gov : (updSlow s q f).gov = s.gov := rfl
@[simp] theorem updSlow_gens : (updSlow s q f).gens = s.gens := rfl
@[simp] theorem updSlow_ckSeq : (updSlow s q f).ckSeq = s.ckSeq := rfl
@[simp] theorem updSlow_rstat : (updSlow s q f).rstat = s.rstat := rfl
@[simp] theorem updSlow_wir : (updSlow s q f).wir = s.wir := rfl
@[simp] theorem updSlow_free : (updSlow s q f).free = s.free := rfl
@[simp] theorem updSlow_pending : (updSlow s q f).pending = s.pending := rfl

end

section
variable (s : State) (n : Nat) (f : FabSt → FabSt)

@[simp] theorem updFab_rstN : (updFab s n f).rstN = s.rstN := rfl
@[simp] theorem updFab_testEn : (updFab s n f).testEn = s.testEn := rfl
@[simp] theorem updFab_cycle : (updFab s n f).cycle = s.cycle := rfl
@[simp] theorem updFab_initFuse : (updFab s n f).initFuse = s.initFuse := rfl
@[simp] theorem updFab_fuseErr : (updFab s n f).fuseErr = s.fuseErr := rfl
@[simp] theorem updFab_initTest : (updFab s n f).initTest = s.initTest := rfl
@[simp] theorem updFab_initStore : (updFab s n f).initStore = s.initStore := rfl
@[simp] theorem updFab_fuse : (updFab s n f).fuse = s.fuse := rfl
@[simp] theorem updFab_mem : (updFab s n f).mem = s.mem := rfl
@[simp] theorem updFab_rowErr : (updFab s n f).rowErr = s.rowErr := rfl
@[simp] theorem updFab_reported : (updFab s n f).reported = s.reported := rfl
@[simp] theorem updFab_shadow : (updFab s n f).shadow = s.shadow := rfl
@[simp] theorem updFab_effect : (updFab s n f).effect = s.effect := rfl
@[simp] theorem updFab_live : (updFab s n f).live = s.live := rfl
@[simp] theorem updFab_pageStat : (updFab s n f).pageStat = s.pageStat := rfl
@[simp] theorem updFab_commits : (updFab s n f).commits = s.commits := rfl
@[simp] theorem updFab_gstat : (updFab s n f).gstat = s.gstat := rfl
@[simp] theorem updFab_cfgHeld : (updFab s n f).cfgHeld = s.cfgHeld := rfl
@[simp] theorem updFab_captured : (updFab s n f).captured = s.captured := rfl
@[simp] theorem updFab_rdata : (updFab s n f).rdata = s.rdata := rfl
@[simp] theorem updFab_rload0 : (updFab s n f).rload0 = s.rload0 := rfl
@[simp] theorem updFab_parts : (updFab s n f).parts = s.parts := rfl
@[simp] theorem updFab_chans : (updFab s n f).chans = s.chans := rfl
@[simp] theorem updFab_slices : (updFab s n f).slices = s.slices := rfl
@[simp] theorem updFab_dozed : (updFab s n f).dozed = s.dozed := rfl
@[simp] theorem updFab_slow : (updFab s n f).slow = s.slow := rfl
@[simp] theorem updFab_fabOut : (updFab s n f).fabOut = s.fabOut := rfl
@[simp] theorem updFab_iqDone : (updFab s n f).iqDone = s.iqDone := rfl
@[simp] theorem updFab_rem : (updFab s n f).rem = s.rem := rfl
@[simp] theorem updFab_remOut : (updFab s n f).remOut = s.remOut := rfl
@[simp] theorem updFab_segments : (updFab s n f).segments = s.segments := rfl
@[simp] theorem updFab_faults : (updFab s n f).faults = s.faults := rfl
@[simp] theorem updFab_fseq : (updFab s n f).fseq = s.fseq := rfl
@[simp] theorem updFab_repair : (updFab s n f).repair = s.repair := rfl
@[simp] theorem updFab_cad : (updFab s n f).cad = s.cad := rfl
@[simp] theorem updFab_wbt : (updFab s n f).wbt = s.wbt := rfl
@[simp] theorem updFab_gov : (updFab s n f).gov = s.gov := rfl
@[simp] theorem updFab_gens : (updFab s n f).gens = s.gens := rfl
@[simp] theorem updFab_ckSeq : (updFab s n f).ckSeq = s.ckSeq := rfl
@[simp] theorem updFab_rstat : (updFab s n f).rstat = s.rstat := rfl
@[simp] theorem updFab_wir : (updFab s n f).wir = s.wir := rfl
@[simp] theorem updFab_free : (updFab s n f).free = s.free := rfl
@[simp] theorem updFab_pending : (updFab s n f).pending = s.pending := rfl

end

section
variable (s : State) (n : Nat) (f : RemSt → RemSt)

@[simp] theorem updRem_rstN : (updRem s n f).rstN = s.rstN := rfl
@[simp] theorem updRem_testEn : (updRem s n f).testEn = s.testEn := rfl
@[simp] theorem updRem_cycle : (updRem s n f).cycle = s.cycle := rfl
@[simp] theorem updRem_initFuse : (updRem s n f).initFuse = s.initFuse := rfl
@[simp] theorem updRem_fuseErr : (updRem s n f).fuseErr = s.fuseErr := rfl
@[simp] theorem updRem_initTest : (updRem s n f).initTest = s.initTest := rfl
@[simp] theorem updRem_initStore : (updRem s n f).initStore = s.initStore := rfl
@[simp] theorem updRem_fuse : (updRem s n f).fuse = s.fuse := rfl
@[simp] theorem updRem_mem : (updRem s n f).mem = s.mem := rfl
@[simp] theorem updRem_rowErr : (updRem s n f).rowErr = s.rowErr := rfl
@[simp] theorem updRem_reported : (updRem s n f).reported = s.reported := rfl
@[simp] theorem updRem_shadow : (updRem s n f).shadow = s.shadow := rfl
@[simp] theorem updRem_effect : (updRem s n f).effect = s.effect := rfl
@[simp] theorem updRem_live : (updRem s n f).live = s.live := rfl
@[simp] theorem updRem_pageStat : (updRem s n f).pageStat = s.pageStat := rfl
@[simp] theorem updRem_commits : (updRem s n f).commits = s.commits := rfl
@[simp] theorem updRem_gstat : (updRem s n f).gstat = s.gstat := rfl
@[simp] theorem updRem_cfgHeld : (updRem s n f).cfgHeld = s.cfgHeld := rfl
@[simp] theorem updRem_captured : (updRem s n f).captured = s.captured := rfl
@[simp] theorem updRem_rdata : (updRem s n f).rdata = s.rdata := rfl
@[simp] theorem updRem_rload0 : (updRem s n f).rload0 = s.rload0 := rfl
@[simp] theorem updRem_parts : (updRem s n f).parts = s.parts := rfl
@[simp] theorem updRem_chans : (updRem s n f).chans = s.chans := rfl
@[simp] theorem updRem_slices : (updRem s n f).slices = s.slices := rfl
@[simp] theorem updRem_dozed : (updRem s n f).dozed = s.dozed := rfl
@[simp] theorem updRem_slow : (updRem s n f).slow = s.slow := rfl
@[simp] theorem updRem_fab : (updRem s n f).fab = s.fab := rfl
@[simp] theorem updRem_fabOut : (updRem s n f).fabOut = s.fabOut := rfl
@[simp] theorem updRem_iqDone : (updRem s n f).iqDone = s.iqDone := rfl
@[simp] theorem updRem_remOut : (updRem s n f).remOut = s.remOut := rfl
@[simp] theorem updRem_segments : (updRem s n f).segments = s.segments := rfl
@[simp] theorem updRem_faults : (updRem s n f).faults = s.faults := rfl
@[simp] theorem updRem_fseq : (updRem s n f).fseq = s.fseq := rfl
@[simp] theorem updRem_repair : (updRem s n f).repair = s.repair := rfl
@[simp] theorem updRem_cad : (updRem s n f).cad = s.cad := rfl
@[simp] theorem updRem_wbt : (updRem s n f).wbt = s.wbt := rfl
@[simp] theorem updRem_gov : (updRem s n f).gov = s.gov := rfl
@[simp] theorem updRem_gens : (updRem s n f).gens = s.gens := rfl
@[simp] theorem updRem_ckSeq : (updRem s n f).ckSeq = s.ckSeq := rfl
@[simp] theorem updRem_rstat : (updRem s n f).rstat = s.rstat := rfl
@[simp] theorem updRem_wir : (updRem s n f).wir = s.wir := rfl
@[simp] theorem updRem_free : (updRem s n f).free = s.free := rfl
@[simp] theorem updRem_pending : (updRem s n f).pending = s.pending := rfl

end

section
variable (s : State) (p : Nat) (f : Pool → Pool)

@[simp] theorem updPool_rstN : (updPool s p f).rstN = s.rstN := rfl
@[simp] theorem updPool_testEn : (updPool s p f).testEn = s.testEn := rfl
@[simp] theorem updPool_cycle : (updPool s p f).cycle = s.cycle := rfl
@[simp] theorem updPool_initFuse : (updPool s p f).initFuse = s.initFuse := rfl
@[simp] theorem updPool_fuseErr : (updPool s p f).fuseErr = s.fuseErr := rfl
@[simp] theorem updPool_initTest : (updPool s p f).initTest = s.initTest := rfl
@[simp] theorem updPool_initStore : (updPool s p f).initStore = s.initStore := rfl
@[simp] theorem updPool_fuse : (updPool s p f).fuse = s.fuse := rfl
@[simp] theorem updPool_mem : (updPool s p f).mem = s.mem := rfl
@[simp] theorem updPool_rowErr : (updPool s p f).rowErr = s.rowErr := rfl
@[simp] theorem updPool_reported : (updPool s p f).reported = s.reported := rfl
@[simp] theorem updPool_shadow : (updPool s p f).shadow = s.shadow := rfl
@[simp] theorem updPool_effect : (updPool s p f).effect = s.effect := rfl
@[simp] theorem updPool_live : (updPool s p f).live = s.live := rfl
@[simp] theorem updPool_pageStat : (updPool s p f).pageStat = s.pageStat := rfl
@[simp] theorem updPool_commits : (updPool s p f).commits = s.commits := rfl
@[simp] theorem updPool_gstat : (updPool s p f).gstat = s.gstat := rfl
@[simp] theorem updPool_cfgHeld : (updPool s p f).cfgHeld = s.cfgHeld := rfl
@[simp] theorem updPool_captured : (updPool s p f).captured = s.captured := rfl
@[simp] theorem updPool_rdata : (updPool s p f).rdata = s.rdata := rfl
@[simp] theorem updPool_rload0 : (updPool s p f).rload0 = s.rload0 := rfl
@[simp] theorem updPool_chans : (updPool s p f).chans = s.chans := rfl
@[simp] theorem updPool_slices : (updPool s p f).slices = s.slices := rfl
@[simp] theorem updPool_dozed : (updPool s p f).dozed = s.dozed := rfl
@[simp] theorem updPool_slow : (updPool s p f).slow = s.slow := rfl
@[simp] theorem updPool_fab : (updPool s p f).fab = s.fab := rfl
@[simp] theorem updPool_fabOut : (updPool s p f).fabOut = s.fabOut := rfl
@[simp] theorem updPool_iqDone : (updPool s p f).iqDone = s.iqDone := rfl
@[simp] theorem updPool_rem : (updPool s p f).rem = s.rem := rfl
@[simp] theorem updPool_remOut : (updPool s p f).remOut = s.remOut := rfl
@[simp] theorem updPool_segments : (updPool s p f).segments = s.segments := rfl
@[simp] theorem updPool_faults : (updPool s p f).faults = s.faults := rfl
@[simp] theorem updPool_fseq : (updPool s p f).fseq = s.fseq := rfl
@[simp] theorem updPool_repair : (updPool s p f).repair = s.repair := rfl
@[simp] theorem updPool_cad : (updPool s p f).cad = s.cad := rfl
@[simp] theorem updPool_wbt : (updPool s p f).wbt = s.wbt := rfl
@[simp] theorem updPool_gov : (updPool s p f).gov = s.gov := rfl
@[simp] theorem updPool_gens : (updPool s p f).gens = s.gens := rfl
@[simp] theorem updPool_ckSeq : (updPool s p f).ckSeq = s.ckSeq := rfl
@[simp] theorem updPool_rstat : (updPool s p f).rstat = s.rstat := rfl
@[simp] theorem updPool_wir : (updPool s p f).wir = s.wir := rfl
@[simp] theorem updPool_free : (updPool s p f).free = s.free := rfl
@[simp] theorem updPool_pending : (updPool s p f).pending = s.pending := rfl

end

section
variable (s : State) (p : Nat) (st : Strm) (f : StreamSt → StreamSt)

@[simp] theorem updStrm_rstN : (updStrm s p st f).rstN = s.rstN := rfl
@[simp] theorem updStrm_testEn : (updStrm s p st f).testEn = s.testEn := rfl
@[simp] theorem updStrm_cycle : (updStrm s p st f).cycle = s.cycle := rfl
@[simp] theorem updStrm_initFuse : (updStrm s p st f).initFuse = s.initFuse := rfl
@[simp] theorem updStrm_fuseErr : (updStrm s p st f).fuseErr = s.fuseErr := rfl
@[simp] theorem updStrm_initTest : (updStrm s p st f).initTest = s.initTest := rfl
@[simp] theorem updStrm_initStore : (updStrm s p st f).initStore = s.initStore := rfl
@[simp] theorem updStrm_fuse : (updStrm s p st f).fuse = s.fuse := rfl
@[simp] theorem updStrm_mem : (updStrm s p st f).mem = s.mem := rfl
@[simp] theorem updStrm_rowErr : (updStrm s p st f).rowErr = s.rowErr := rfl
@[simp] theorem updStrm_reported : (updStrm s p st f).reported = s.reported := rfl
@[simp] theorem updStrm_shadow : (updStrm s p st f).shadow = s.shadow := rfl
@[simp] theorem updStrm_effect : (updStrm s p st f).effect = s.effect := rfl
@[simp] theorem updStrm_live : (updStrm s p st f).live = s.live := rfl
@[simp] theorem updStrm_pageStat : (updStrm s p st f).pageStat = s.pageStat := rfl
@[simp] theorem updStrm_commits : (updStrm s p st f).commits = s.commits := rfl
@[simp] theorem updStrm_gstat : (updStrm s p st f).gstat = s.gstat := rfl
@[simp] theorem updStrm_cfgHeld : (updStrm s p st f).cfgHeld = s.cfgHeld := rfl
@[simp] theorem updStrm_captured : (updStrm s p st f).captured = s.captured := rfl
@[simp] theorem updStrm_rdata : (updStrm s p st f).rdata = s.rdata := rfl
@[simp] theorem updStrm_rload0 : (updStrm s p st f).rload0 = s.rload0 := rfl
@[simp] theorem updStrm_chans : (updStrm s p st f).chans = s.chans := rfl
@[simp] theorem updStrm_slices : (updStrm s p st f).slices = s.slices := rfl
@[simp] theorem updStrm_dozed : (updStrm s p st f).dozed = s.dozed := rfl
@[simp] theorem updStrm_slow : (updStrm s p st f).slow = s.slow := rfl
@[simp] theorem updStrm_fab : (updStrm s p st f).fab = s.fab := rfl
@[simp] theorem updStrm_fabOut : (updStrm s p st f).fabOut = s.fabOut := rfl
@[simp] theorem updStrm_iqDone : (updStrm s p st f).iqDone = s.iqDone := rfl
@[simp] theorem updStrm_rem : (updStrm s p st f).rem = s.rem := rfl
@[simp] theorem updStrm_remOut : (updStrm s p st f).remOut = s.remOut := rfl
@[simp] theorem updStrm_segments : (updStrm s p st f).segments = s.segments := rfl
@[simp] theorem updStrm_faults : (updStrm s p st f).faults = s.faults := rfl
@[simp] theorem updStrm_fseq : (updStrm s p st f).fseq = s.fseq := rfl
@[simp] theorem updStrm_repair : (updStrm s p st f).repair = s.repair := rfl
@[simp] theorem updStrm_cad : (updStrm s p st f).cad = s.cad := rfl
@[simp] theorem updStrm_wbt : (updStrm s p st f).wbt = s.wbt := rfl
@[simp] theorem updStrm_gov : (updStrm s p st f).gov = s.gov := rfl
@[simp] theorem updStrm_gens : (updStrm s p st f).gens = s.gens := rfl
@[simp] theorem updStrm_ckSeq : (updStrm s p st f).ckSeq = s.ckSeq := rfl
@[simp] theorem updStrm_rstat : (updStrm s p st f).rstat = s.rstat := rfl
@[simp] theorem updStrm_wir : (updStrm s p st f).wir = s.wir := rfl
@[simp] theorem updStrm_free : (updStrm s p st f).free = s.free := rfl
@[simp] theorem updStrm_pending : (updStrm s p st f).pending = s.pending := rfl

end

section
variable (s t : State)

@[simp] theorem keepPins_rstN : (keepPins s t).rstN = s.rstN := rfl
@[simp] theorem keepPins_testEn : (keepPins s t).testEn = s.testEn := rfl
@[simp] theorem keepPins_cycle : (keepPins s t).cycle = t.cycle := rfl
@[simp] theorem keepPins_initFuse : (keepPins s t).initFuse = t.initFuse := rfl
@[simp] theorem keepPins_fuseErr : (keepPins s t).fuseErr = t.fuseErr := rfl
@[simp] theorem keepPins_initTest : (keepPins s t).initTest = t.initTest := rfl
@[simp] theorem keepPins_initStore : (keepPins s t).initStore = t.initStore := rfl
@[simp] theorem keepPins_fuse : (keepPins s t).fuse = t.fuse := rfl
@[simp] theorem keepPins_mem : (keepPins s t).mem = t.mem := rfl
@[simp] theorem keepPins_rowErr : (keepPins s t).rowErr = t.rowErr := rfl
@[simp] theorem keepPins_reported : (keepPins s t).reported = t.reported := rfl
@[simp] theorem keepPins_shadow : (keepPins s t).shadow = t.shadow := rfl
@[simp] theorem keepPins_effect : (keepPins s t).effect = t.effect := rfl
@[simp] theorem keepPins_live : (keepPins s t).live = t.live := rfl
@[simp] theorem keepPins_pageStat : (keepPins s t).pageStat = t.pageStat := rfl
@[simp] theorem keepPins_commits : (keepPins s t).commits = t.commits := rfl
@[simp] theorem keepPins_gstat : (keepPins s t).gstat = t.gstat := rfl
@[simp] theorem keepPins_cfgHeld : (keepPins s t).cfgHeld = t.cfgHeld := rfl
@[simp] theorem keepPins_captured : (keepPins s t).captured = t.captured := rfl
@[simp] theorem keepPins_rdata : (keepPins s t).rdata = t.rdata := rfl
@[simp] theorem keepPins_rload0 : (keepPins s t).rload0 = t.rload0 := rfl
@[simp] theorem keepPins_parts : (keepPins s t).parts = t.parts := rfl
@[simp] theorem keepPins_chans : (keepPins s t).chans = t.chans := rfl
@[simp] theorem keepPins_slices : (keepPins s t).slices = t.slices := rfl
@[simp] theorem keepPins_dozed : (keepPins s t).dozed = t.dozed := rfl
@[simp] theorem keepPins_slow : (keepPins s t).slow = t.slow := rfl
@[simp] theorem keepPins_fab : (keepPins s t).fab = t.fab := rfl
@[simp] theorem keepPins_fabOut : (keepPins s t).fabOut = t.fabOut := rfl
@[simp] theorem keepPins_iqDone : (keepPins s t).iqDone = t.iqDone := rfl
@[simp] theorem keepPins_rem : (keepPins s t).rem = t.rem := rfl
@[simp] theorem keepPins_remOut : (keepPins s t).remOut = t.remOut := rfl
@[simp] theorem keepPins_segments : (keepPins s t).segments = t.segments := rfl
@[simp] theorem keepPins_faults : (keepPins s t).faults = t.faults := rfl
@[simp] theorem keepPins_fseq : (keepPins s t).fseq = t.fseq := rfl
@[simp] theorem keepPins_repair : (keepPins s t).repair = t.repair := rfl
@[simp] theorem keepPins_cad : (keepPins s t).cad = t.cad := rfl
@[simp] theorem keepPins_wbt : (keepPins s t).wbt = t.wbt := rfl
@[simp] theorem keepPins_gov : (keepPins s t).gov = t.gov := rfl
@[simp] theorem keepPins_gens : (keepPins s t).gens = t.gens := rfl
@[simp] theorem keepPins_ckSeq : (keepPins s t).ckSeq = t.ckSeq := rfl
@[simp] theorem keepPins_rstat : (keepPins s t).rstat = t.rstat := rfl
@[simp] theorem keepPins_wir : (keepPins s t).wir = s.wir := rfl
@[simp] theorem keepPins_free : (keepPins s t).free = t.free := rfl
@[simp] theorem keepPins_pending : (keepPins s t).pending = s.pending := rfl

end

/-! ## Reading a part after an update -/

theorem part_updPart (s : State) (p k : Nat) (f : Partition → Partition) :
    part (updPart s p f) k = if Fin.ofNat 8 p = Fin.ofNat 8 k then f (part s p) else part s k := by
  simp only [part, updPart, Fin.getElem_fin, Vector.getElem_set]
  simp [Fin.ext_iff]

theorem chan_updChan (s : State) (n k : Nat) (f : Channel → Channel) :
    chan (updChan s n f) k = if Fin.ofNat 8 n = Fin.ofNat 8 k then f (chan s n) else chan s k := by
  simp only [chan, updChan, Fin.getElem_fin, Vector.getElem_set]
  simp [Fin.ext_iff]

theorem slice_updSlice (s : State) (n k : Nat) (f : Slice → Slice) :
    slice (updSlice s n f) k = if Fin.ofNat 8 n = Fin.ofNat 8 k then f (slice s n) else slice s k := by
  simp only [slice, updSlice, Fin.getElem_fin, Vector.getElem_set]
  simp [Fin.ext_iff]

theorem slowP_updSlow (s : State) (q k : Nat) (f : SlowSt → SlowSt) :
    slowP (updSlow s q f) k = if Fin.ofNat 16 q = Fin.ofNat 16 k then f (slowP s q) else slowP s k := by
  simp only [slowP, updSlow, Fin.getElem_fin, Vector.getElem_set]
  simp [Fin.ext_iff]

theorem fabP_updFab (s : State) (n k : Nat) (f : FabSt → FabSt) :
    fabP (updFab s n f) k = if Fin.ofNat 32 n = Fin.ofNat 32 k then f (fabP s n) else fabP s k := by
  simp only [fabP, updFab, Fin.getElem_fin, Vector.getElem_set]
  simp [Fin.ext_iff]

theorem remP_updRem (s : State) (n k : Nat) (f : RemSt → RemSt) :
    remP (updRem s n f) k = if Fin.ofNat 64 n = Fin.ofNat 64 k then f (remP s n) else remP s k := by
  simp only [remP, updRem, Fin.getElem_fin, Vector.getElem_set]
  simp [Fin.ext_iff]

theorem pool_updPool (s : State) (p k : Nat) (f : Pool → Pool) :
    pool (updPool s p f) k = if Fin.ofNat 8 p = Fin.ofNat 8 k then f (pool s p) else pool s k := by
  simp only [pool, updPool, part_updPart]
  split <;> rfl

theorem strm_setStrm (x : Partition) (st su : Strm) (y : StreamSt) :
    (x.setStrm st y).strm su = if st = su then y else x.strm su := by
  cases st <;> cases su <;> rfl

theorem strm_updStrm (s : State) (p k : Nat) (st su : Strm) (f : StreamSt → StreamSt) :
    strm (updStrm s p st f) k su =
      if Fin.ofNat 8 p = Fin.ofNat 8 k ∧ st = su then f (strm s p st) else strm s k su := by
  simp only [strm, updStrm, part_updPart]
  by_cases h : Fin.ofNat 8 p = Fin.ofNat 8 k
  · have hp : part s k = part s p := by simp only [part, h]
    rw [if_pos h, strm_setStrm]
    by_cases h2 : st = su
    · rw [if_pos h2, if_pos ⟨h, h2⟩]
    · rw [if_neg h2, if_neg fun x => h2 x.2, hp]
  · rw [if_neg h, if_neg fun x => h x.1]

theorem pool_updStrm (s : State) (p k : Nat) (st : Strm) (f : StreamSt → StreamSt) :
    pool (updStrm s p st f) k = pool s k := by
  simp only [pool, updStrm, part_updPart]
  split
  · next h =>
    have hp : part s k = part s p := by simp only [part, h]
    cases st <;> simp [Partition.setStrm, hp]
  · rfl

end Sys2Proof.Machine
end

