-- ==== Sys2Proof/Laws/Exec.lean ====
section
/-! SUPPORT. The shapes that the effect of a command can have, once for all commands. -/

namespace Sys2Proof.Machine

open Sys2Proof

theorem exec_act (c : Instr) (hp : byPins c = false) (hc : byCfgPort c = false) :
    ∃ f : State → State, ∀ s, exec c s = act s f := by
  cases c <;> first
    | (cases hp; done)
    | (cases hc; done)
    | exact ⟨_, fun _ => rfl⟩

theorem exec_actCfg (c : Instr) (hc : byCfgPort c = true) : ∃ f : State → State, ∀ s, exec c s = actCfg s f := by
  cases c <;> first
    | (cases hc; done)
    | exact ⟨_, fun _ => rfl⟩

/-! ## What the two shapes do -/

theorem act_test {s : State} (h : s.testEn = true) (f : State → State) : act s f = .fault .testMode := by
  simp [act, h]

theorem actCfg_test {s : State} (h : s.testEn = true) (f : State → State) : actCfg s f = .fault .testMode := by
  simp [actCfg, h]

theorem act_reset {s : State} (h : s.testEn = false) (hr : s.rstN = false) (f : State → State) : act s f = .next s := by
  simp [act, h, hr]

theorem actCfg_reset {s : State} (h : s.testEn = false) (hr : s.rstN = false) (f : State → State) :
    actCfg s f = .next s := by
  simp [actCfg, h, hr]

theorem act_fuseErr {s : State} (h : s.testEn = false) (hf : s.fuseErr = true) (f : State → State) :
    act s f = .next s := by
  simp [act, h, hf]

theorem act_runs {s : State} (h : Runs s) (f : State → State) : act s f = .next (keepPins s (f s)) := by
  simp [act, h.1, h.2.1, h.2.2]

theorem actCfg_answers {s : State} (h : Answers s) (f : State → State) : actCfg s f = .next (keepPins s (f s)) := by
  simp [actCfg, h.1, h.2]

/-- A run of `k + 1` steps whose first step answers a next state. -/
theorem run_succ (M : Host.Core) (k : Nat) {s t : M.State} (h : M.step s = .next t) : M.run (k + 1) s = M.run k t := by
  show (match M.step s with
    | .next s' => M.run k s'
    | .fault r => .fault r
    | .refused r => .refused r) = _
  rw [h]

end Sys2Proof.Machine
end

