-- ==== Sys2Proof/Laws/Memory.lean ====
section
/-! SUPPORT. Laws of the memory operations: each keeps the canonical form, and a byte read after a write is the byte
written there or the byte that stood there. -/

namespace Sys2Proof.Machine

open Sys2Proof

/-! ## Canonical form -/

theorem mem_cellsOf {c : Host.Cell} {a : Nat} {bs : List Byte} (h : c ∈ cellsOf a bs) :
    a ≤ c.1 ∧ c.1 < a + bs.length ∧ c.2 ≠ 0 := by
  induction bs generalizing a with
  | nil => simp [cellsOf] at h
  | cons b bs ih =>
    simp only [cellsOf] at h
    split at h
    · obtain ⟨h1, h2, h3⟩ := ih h
      exact ⟨by omega, by simp only [List.length_cons]; omega, h3⟩
    · next hb =>
      rcases List.mem_cons.1 h with rfl | h
      · exact ⟨Nat.le_refl _, by simp, hb⟩
      · obtain ⟨h1, h2, h3⟩ := ih h
        exact ⟨by omega, by simp only [List.length_cons]; omega, h3⟩

theorem cellsOf_rising (a : Nat) (bs : List Byte) : (cellsOf a bs).Pairwise (fun x y => x.1 < y.1) := by
  induction bs generalizing a with
  | nil => simp [cellsOf]
  | cons b bs ih =>
    simp only [cellsOf]
    split
    · exact ih _
    · refine List.pairwise_cons.2 ⟨fun c hc => ?_, ih _⟩
      have := mem_cellsOf hc
      simp only; omega

theorem memPut_wf {m : Memory} (h : Memory.wf m) (a : Nat) (bs : List Byte) : Memory.wf (memPut m a bs) := by
  obtain ⟨hp, hz⟩ := h
  refine ⟨?_, ?_⟩
  · refine List.pairwise_append.2 ⟨List.pairwise_append.2 ⟨hp.filter _, cellsOf_rising a bs, ?_⟩, hp.filter _, ?_⟩
    · intro x hx y hy
      have := mem_cellsOf hy
      simp only [List.mem_filter, decide_eq_true_eq] at hx
      omega
    · intro x hx y hy
      simp only [List.mem_filter, decide_eq_true_eq] at hy
      rcases List.mem_append.1 hx with hx | hx
      · simp only [List.mem_filter, decide_eq_true_eq] at hx; omega
      · have := mem_cellsOf hx; omega
  · intro c hc
    rcases List.mem_append.1 hc with hc | hc
    · rcases List.mem_append.1 hc with hc | hc
      · exact hz c (List.mem_filter.1 hc).1
      · exact (mem_cellsOf hc).2.2
    · exact hz c (List.mem_filter.1 hc).1

theorem memClear_wf {m : Memory} (h : Memory.wf m) (a n : Nat) : Memory.wf (memClear m a n) := by
  obtain ⟨hp, hz⟩ := h
  refine ⟨List.pairwise_append.2 ⟨hp.filter _, hp.filter _, ?_⟩, ?_⟩
  · intro x hx y hy
    simp only [List.mem_filter, decide_eq_true_eq] at hx hy
    omega
  · intro c hc
    rcases List.mem_append.1 hc with hc | hc <;> exact hz c (List.mem_filter.1 hc).1

theorem reset_mem_wf : Memory.wf State.reset.mem := by decide

/-! ## Reading a byte -/

theorem memByte_append (m n : Memory) (x : Nat) :
    memByte (m ++ n) x = if m.any (fun c => c.1 == x) then memByte m x else memByte n x := by
  induction m with
  | nil => simp
  | cons c m ih =>
    simp only [List.cons_append, memByte, List.any_cons]
    by_cases h : c.1 = x <;> simp [h, ih]

theorem memByte_filter {m : Memory} {x : Nat} {q : Host.Cell → Bool} (h : ∀ c, c.1 = x → q c = true) :
    memByte (m.filter q) x = memByte m x := by
  induction m with
  | nil => rfl
  | cons c m ih =>
    by_cases hc : c.1 = x
    · simp [h c hc, memByte, hc]
    · by_cases hq : q c = true
      · simp [hq, memByte, hc, ih]
      · simp [hq, memByte, hc, ih]

theorem memByte_none {m : Memory} {x : Nat} (h : ∀ c ∈ m, c.1 ≠ x) : memByte m x = 0 := by
  induction m with
  | nil => rfl
  | cons c m ih =>
    have hc := h c (by simp)
    simp [memByte, hc, ih fun d hd => h d (by simp [hd])]

theorem any_key_false {m : Memory} {x : Nat} (h : ∀ c ∈ m, c.1 ≠ x) : (m.any fun c => c.1 == x) = false := by
  simp only [List.any_eq_false, beq_iff_eq]
  exact fun c hc => h c hc

theorem any_key_filter {m : Memory} {x : Nat} {q : Host.Cell → Bool} (h : ∀ c, c.1 = x → q c = true) :
    ((m.filter q).any fun c => c.1 == x) = m.any fun c => c.1 == x := by
  induction m with
  | nil => rfl
  | cons c m ih =>
    by_cases hc : c.1 = x
    · simp [h c hc, hc]
    · by_cases hq : q c = true <;> simp [hq, hc, ih]

theorem memByte_none_any {m : Memory} {x : Nat} (h : (m.any fun c => c.1 == x) = false) : memByte m x = 0 := by
  refine memByte_none fun c hc he => ?_
  simp only [List.any_eq_false, beq_iff_eq] at h
  exact h c hc he

theorem memByte_cellsOf (a x : Nat) (bs : List Byte) :
    memByte (cellsOf a bs) x = if a ≤ x then bs.getD (x - a) 0 else 0 := by
  induction bs generalizing a with
  | nil => simp [cellsOf, memByte]
  | cons b bs ih =>
    by_cases hx : x = a
    · subst hx
      simp only [cellsOf]
      split
      · next hb => rw [ih]; simp [hb]
      · simp [memByte]
    · have step : memByte (cellsOf a (b :: bs)) x = memByte (cellsOf (a + 1) bs) x := by
        simp only [cellsOf]
        split
        · rfl
        · have : a ≠ x := fun h => hx h.symm
          simp [memByte, this]
      rw [step, ih]
      by_cases hle : a + 1 ≤ x
      · have h1 : a ≤ x := by omega
        have h2 : x - a = (x - (a + 1)) + 1 := by omega
        simp [hle, h1, h2]
      · have h1 : ¬ a ≤ x := by omega
        simp [hle, h1]

/-- The first of two parts answers where it lists the address, else the second. -/
theorem memByte_append_left {m n : Memory} {x : Nat} (h : ∀ c ∈ n, c.1 ≠ x) : memByte (m ++ n) x = memByte m x := by
  rw [memByte_append]
  split
  · rfl
  · next hm =>
    rw [memByte_none h]
    exact (memByte_none_any (by simpa only [Bool.not_eq_true] using hm)).symm

theorem memByte_append_right {m n : Memory} {x : Nat} (h : ∀ c ∈ m, c.1 ≠ x) : memByte (m ++ n) x = memByte n x := by
  rw [memByte_append, any_key_false h]; simp

theorem key_below {m : Memory} {a x : Nat} (h : a ≤ x) : ∀ c ∈ m.filter (fun c => decide (c.1 < a)), c.1 ≠ x := by
  intro c hc
  simp only [List.mem_filter, decide_eq_true_eq] at hc
  omega

theorem key_above {m : Memory} {b x : Nat} (h : x < b) : ∀ c ∈ m.filter (fun c => decide (b ≤ c.1)), c.1 ≠ x := by
  intro c hc
  simp only [List.mem_filter, decide_eq_true_eq] at hc
  omega

theorem memByte_below {m : Memory} {a x : Nat} (h : x < a) :
    memByte (m.filter fun c => decide (c.1 < a)) x = memByte m x :=
  memByte_filter fun c hc => by simpa [hc] using h

theorem memByte_above {m : Memory} {b x : Nat} (h : b ≤ x) :
    memByte (m.filter fun c => decide (b ≤ c.1)) x = memByte m x :=
  memByte_filter fun c hc => by simpa [hc] using h

/-- A byte read after a run of bytes is written at `a`: of the run inside it, as before outside. -/
theorem memByte_memPut (m : Memory) (a x : Nat) (bs : List Byte) :
    memByte (memPut m a bs) x = if a ≤ x ∧ x < a + bs.length then bs.getD (x - a) 0 else memByte m x := by
  have out : ¬ (a ≤ x ∧ x < a + bs.length) → ∀ c ∈ cellsOf a bs, c.1 ≠ x := by
    intro h c hc he
    have := mem_cellsOf hc
    omega
  unfold memPut
  by_cases hlo : x < a
  · have h : ¬ (a ≤ x ∧ x < a + bs.length) := by omega
    rw [if_neg h, memByte_append_left (key_above (by omega)), memByte_append_left (out h), memByte_below hlo]
  · rw [List.append_assoc, memByte_append_right (key_below (by omega))]
    by_cases hhi : x < a + bs.length
    · rw [if_pos ⟨by omega, hhi⟩, memByte_append_left (key_above hhi), memByte_cellsOf, if_pos (by omega)]
    · have h : ¬ (a ≤ x ∧ x < a + bs.length) := by omega
      rw [if_neg h, memByte_append_right (out h), memByte_above (by omega)]

/-- A byte read after a run of bytes is cleared: zero inside, as before outside. -/
theorem memByte_memClear (m : Memory) (a n x : Nat) :
    memByte (memClear m a n) x = if a ≤ x ∧ x < a + n then 0 else memByte m x := by
  unfold memClear
  by_cases hlo : x < a
  · rw [if_neg (by omega), memByte_append_left (key_above (by omega)), memByte_below hlo]
  · rw [memByte_append_right (key_below (by omega))]
    by_cases hhi : x < a + n
    · rw [if_pos ⟨by omega, hhi⟩, memByte_none (key_above hhi)]
    · rw [if_neg (by omega), memByte_above (by omega)]

end Sys2Proof.Machine
end

