-- ==== Sys2Proof/Laws/Words.lean ====
section
/-! SUPPORT. Sparse words: what a read gives after a write, and the order of their keys. -/

namespace Sys2Proof.Machine

open Sys2Proof

theorem wordsDrop_sub {ws : Words} {k : Nat} : (wordsDrop ws k).Sublist ws := by
  induction ws with
  | nil => exact List.Sublist.slnil
  | cons e ws ih =>
    obtain ⟨j, w⟩ := e
    unfold wordsDrop
    split
    · exact List.sublist_cons_self _ _
    · split
      · exact List.Sublist.refl _
      · exact ih.cons₂ _

theorem wordsDrop_asc {ws : Words} {k : Nat} (h : wordsAsc ws) : wordsAsc (wordsDrop ws k) := h.sublist wordsDrop_sub

theorem mem_wordsPut {ws : Words} {k : Nat} {w : Word} {e : Nat × Word} (h : e ∈ wordsPut ws k w) : e = (k, w) ∨ e ∈ ws := by
  induction ws with
  | nil => simpa [wordsPut] using h
  | cons x ws ih =>
    obtain ⟨j, v⟩ := x
    unfold wordsPut at h
    split at h
    · rcases List.mem_cons.1 h with h | h
      · exact .inl h
      · exact .inr (List.mem_cons_of_mem _ h)
    · split at h
      · rcases List.mem_cons.1 h with h | h
        · exact .inl h
        · exact .inr h
      · rcases List.mem_cons.1 h with h | h
        · exact .inr (h ▸ List.mem_cons_self)
        · exact (ih h).imp id (List.mem_cons_of_mem _)

theorem wordsPut_asc {ws : Words} {k : Nat} {w : Word} (h : wordsAsc ws) : wordsAsc (wordsPut ws k w) := by
  induction ws with
  | nil => exact List.pairwise_singleton _ _
  | cons x ws ih =>
    obtain ⟨j, v⟩ := x
    have hp := List.pairwise_cons.1 h
    unfold wordsPut
    split
    · next e => exact List.pairwise_cons.2 ⟨fun y hy => e ▸ hp.1 y hy, hp.2⟩
    · split
      · next hk =>
        refine List.pairwise_cons.2 ⟨fun y hy => ?_, h⟩
        rcases List.mem_cons.1 hy with rfl | hy
        · exact hk
        · exact hk.trans (hp.1 y hy)
      · next hn hk =>
        refine List.pairwise_cons.2 ⟨fun y hy => ?_, ih hp.2⟩
        rcases mem_wordsPut hy with rfl | hy
        · exact Nat.lt_of_le_of_ne (Nat.le_of_not_lt hk) hn
        · exact hp.1 y hy

theorem wordsSet_asc {ws : Words} {k : Nat} {d w : Word} (h : wordsAsc ws) : wordsAsc (wordsSet ws k d w) := by
  unfold wordsSet
  split
  · exact wordsDrop_asc h
  · exact wordsPut_asc h

theorem wordsGet_none {ws : Words} {k : Nat} {d : Word} (h : ∀ e ∈ ws, k < e.1) : wordsGet ws k d = d := by
  cases ws with
  | nil => rfl
  | cons e ws =>
    have := h e List.mem_cons_self
    unfold wordsGet
    rw [if_neg (by omega), if_pos this]

theorem wordsGet_put (ws : Words) (k j : Nat) (d w : Word) :
    wordsGet (wordsPut ws k w) j d = if j = k then w else wordsGet ws j d := by
  induction ws with
  | nil =>
    by_cases hj : j = k
    · subst hj; simp [wordsPut, wordsGet]
    · simp [wordsPut, wordsGet, hj, Ne.symm hj]
  | cons x ws ih =>
    obtain ⟨i, v⟩ := x
    unfold wordsPut
    split
    · next e =>
      subst e
      by_cases hj : j = i
      · subst hj; simp [wordsGet]
      · simp [wordsGet, hj, Ne.symm hj]
    · split
      · next hn hk =>
        by_cases hj : j = k
        · subst hj; simp [wordsGet]
        · rw [if_neg hj]
          conv_lhs => unfold wordsGet
          rw [if_neg (fun e => hj e.symm)]
          split
          · next hlt =>
            conv_rhs => unfold wordsGet
            rw [if_neg (by omega), if_pos (by omega)]
          · rfl
      · next hn hk =>
        unfold wordsGet
        rw [ih]
        by_cases hj : j = k
        · subst hj; simp only [if_true]; rw [if_neg hn, if_neg hk]
        · simp only [if_neg hj]

theorem wordsGet_drop {ws : Words} (h : wordsAsc ws) (k j : Nat) (d : Word) :
    wordsGet (wordsDrop ws k) j d = if j = k then d else wordsGet ws j d := by
  induction ws with
  | nil => simp [wordsDrop, wordsGet]
  | cons x ws ih =>
    obtain ⟨i, v⟩ := x
    have hp := List.pairwise_cons.1 h
    unfold wordsDrop
    split
    · next e =>
      subst e
      by_cases hj : j = i
      · subst hj; rw [if_pos rfl]; exact wordsGet_none hp.1
      · rw [if_neg hj]
        conv_rhs => unfold wordsGet
        rw [if_neg (fun e => hj e.symm)]
        split
        · next hlt => exact wordsGet_none fun e he => hlt.trans (hp.1 e he)
        · rfl
    · split
      · next hn hk =>
        by_cases hj : j = k
        · subst hj
          rw [if_pos rfl]
          exact wordsGet_none fun e he => by
            rcases List.mem_cons.1 he with rfl | he
            · exact hk
            · exact hk.trans (hp.1 e he)
        · rw [if_neg hj]
      · next hn hk =>
        unfold wordsGet
        rw [ih hp.2]
        by_cases hj : j = k
        · subst hj; simp only [if_true]; rw [if_neg hn, if_neg hk]
        · simp only [if_neg hj]

theorem wordsGet_set {ws : Words} (h : wordsAsc ws) (k j : Nat) (d e w : Word) (hd : j = k → d = e) :
    wordsGet (wordsSet ws k e w) j d = if j = k then w else wordsGet ws j d := by
  unfold wordsSet
  split
  · next hw =>
    rw [wordsGet_drop h]
    split
    · next hj => rw [hw, hd hj]
    · rfl
  · exact wordsGet_put ws k j d w

/-! ## Pages -/

theorem pageWords_asc {ws : Words} {pg : Nat} (h : wordsAsc ws) : wordsAsc (pageWords ws pg) := h.sublist List.filter_sublist

theorem copyPage_asc {ws src : Words} {pg : Nat} (h : wordsAsc ws) (hs : wordsAsc src) : wordsAsc (copyPage ws src pg) := by
  unfold copyPage
  refine List.pairwise_append.2 ⟨List.pairwise_append.2 ⟨h.sublist List.filter_sublist, pageWords_asc hs, ?_⟩,
    h.sublist List.filter_sublist, ?_⟩
  · intro a ha b hb
    have h1 := (List.mem_filter.1 ha).2
    have h2 := (List.mem_filter.1 hb).2
    simp only [decide_eq_true_eq, beq_iff_eq] at h1 h2
    omega
  · intro a ha b hb
    have h2 := (List.mem_filter.1 hb).2
    rcases List.mem_append.1 ha with ha | ha
    · have h1 := (List.mem_filter.1 ha).2
      simp only [decide_eq_true_eq] at h1 h2
      omega
    · have h1 := (List.mem_filter.1 ha).2
      simp only [decide_eq_true_eq, beq_iff_eq] at h1 h2
      omega

theorem wordsGet_filter {ws : Words} (h : wordsAsc ws) {q : Nat × Word → Bool} {k : Nat} {d : Word} (hq : ∀ w, q (k, w) = true) :
    wordsGet (ws.filter q) k d = wordsGet ws k d := by
  induction ws with
  | nil => rfl
  | cons x ws ih =>
    obtain ⟨i, v⟩ := x
    have hp := List.pairwise_cons.1 h
    rw [List.filter_cons]
    by_cases hi : i = k
    · subst hi; rw [if_pos (hq v)]; simp [wordsGet]
    · split
      · unfold wordsGet; rw [if_neg hi, if_neg hi, ih hp.2]
      · rw [ih hp.2]
        conv_rhs => unfold wordsGet
        rw [if_neg hi]
        split
        · next hlt => exact wordsGet_none fun e he => hlt.trans (hp.1 e he)
        · rfl

theorem wordsGet_append_left {a b : Words} {k : Nat} {d : Word} (ha : wordsAsc (a ++ b)) (h : ∀ e ∈ b, k < e.1) :
    wordsGet (a ++ b) k d = wordsGet a k d := by
  induction a with
  | nil => exact wordsGet_none h
  | cons x a ih =>
    obtain ⟨i, v⟩ := x
    have hp := List.pairwise_cons.1 ha
    simp only [List.cons_append, wordsGet]
    rw [ih hp.2]

theorem wordsGet_append_right {a b : Words} {k : Nat} {d : Word} (h : ∀ e ∈ a, e.1 < k) :
    wordsGet (a ++ b) k d = wordsGet b k d := by
  induction a with
  | nil => rfl
  | cons x a ih =>
    obtain ⟨i, v⟩ := x
    have h1 := h (i, v) List.mem_cons_self
    simp only [List.cons_append, wordsGet]
    rw [if_neg (by omega), if_neg (by omega), ih fun e he => h e (List.mem_cons_of_mem _ he)]

theorem wordsGet_copyPage {ws src : Words} (h : wordsAsc ws) (hs : wordsAsc src) (pg k : Nat) (d : Word) :
    wordsGet (copyPage ws src pg) k d = if k / 0x1000 = pg then wordsGet src k d else wordsGet ws k d := by
  have ha := copyPage_asc (pg := pg) h hs
  unfold copyPage at ha ⊢
  split
  · next e =>
    rw [wordsGet_append_left ha, wordsGet_append_right]
    · exact wordsGet_filter hs fun w => by simpa using e
    · intro x hx
      have := (List.mem_filter.1 hx).2
      simp only [decide_eq_true_eq] at this
      omega
    · intro x hx
      have := (List.mem_filter.1 hx).2
      simp only [decide_eq_true_eq] at this
      omega
  · next e =>
    by_cases hlt : k / 0x1000 < pg
    · rw [List.append_assoc] at ha ⊢
      rw [wordsGet_append_left ha]
      · exact wordsGet_filter h fun w => by simp only [decide_eq_true_eq]; omega
      · intro x hx
        rcases List.mem_append.1 hx with hx | hx
        · have := (List.mem_filter.1 hx).2
          simp only [beq_iff_eq] at this
          omega
        · have := (List.mem_filter.1 hx).2
          simp only [decide_eq_true_eq] at this
          omega
    · rw [wordsGet_append_right]
      · exact wordsGet_filter h fun w => by simp only [decide_eq_true_eq]; omega
      · intro x hx
        rcases List.mem_append.1 hx with hx | hx
        · have := (List.mem_filter.1 hx).2
          simp only [decide_eq_true_eq] at this
          omega
        · have := (List.mem_filter.1 hx).2
          simp only [beq_iff_eq] at this
          omega

end Sys2Proof.Machine
end

