-- ==== Sys2Proof/Laws/FrameOps.lean ====
section
/-! SUPPORT. What the work of the block leaves as it is: the rules by which it is shown, and registers and shared operations. Each lemma has the name of the definition that it is about. -/

namespace Sys2Proof.Machine

open Sys2Proof

set_option Elab.async false

/-- What work of the block off its configuration port leaves as it is. -/
structure Kind where
  cad : Bool
  conf : Bool
  port : Bool
  lost : Bool

structure Fixed where
  rstN : Bool
  testEn : Bool
  cycle : Nat
  init : Bool × Bool × Bool × Bool
  shadow : Words
  effect : Words
  pageStat : Words
  commits : List Commit
  gstat : Nat
  cfgHeld : List CfgAccess
  captured : Words
  rdata : Word
  rload0 : Word
  cad : Cadence
  wbt : Wingbeat
  gens : List TableGen
  rstat : Nat
  wir : BitVec 8
  pending : List Instr
  lost : List Bool
  cap : Word

def fixedOf (k : Kind) (s : State) : Fixed :=
  { rstN := s.rstN
    testEn := s.testEn
    cycle := s.cycle
    init := (s.initFuse, s.fuseErr, s.initTest, s.initStore)
    shadow := if k.conf then s.shadow else []
    effect := if k.conf then s.effect else []
    pageStat := if k.port then s.pageStat else []
    commits := if k.port then s.commits else []
    gstat := if k.port then s.gstat else 0
    cfgHeld := if k.port then s.cfgHeld else []
    captured := if k.port then s.captured else []
    rdata := if k.port then s.rdata else 0
    rload0 := if k.port then s.rload0 else 0
    cad := if k.cad then s.cad else Cadence.idle
    wbt := if k.cad && k.conf then s.wbt else Wingbeat.idle
    gens := if k.conf then s.gens else []
    rstat := if k.port then s.rstat else 0
    wir := s.wir
    pending := s.pending
    lost := if k.lost then s.slices.toList.map (·.lost) else []
    cap := s.fuse.cap }

structure Keeps (k : Kind) (s t : State) : Prop where
  fixed : fixedOf k t = fixedOf k s
  mem : s.mem.wf → t.mem.wf
  ord : ConfigOrdered s → ConfigOrdered t

variable {kd : Kind}

theorem Keeps.refl (s) : Keeps kd s s := ⟨rfl, id, id⟩
theorem Keeps.trans {a b c} (h : Keeps kd a b) (g : Keeps kd b c) : Keeps kd a c := ⟨g.fixed.trans h.fixed, g.mem ∘ h.mem, g.ord ∘ h.ord⟩

theorem Keeps.upd {a x : State} {rowErr reported parts chans dozed slow fab fabOut iqDone rem remOut segments faults fseq repair gov ckSeq free} :
   Keeps kd a { x with
     rowErr := rowErr, reported := reported, parts := parts, chans := chans, dozed := dozed, slow := slow, fab := fab, fabOut := fabOut, iqDone := iqDone, rem := rem, remOut := remOut, segments := segments, faults := faults, fseq := fseq, repair := repair, gov := gov, ckSeq := ckSeq, free := free } ↔ Keeps kd a x := ⟨fun h => ⟨h.1, h.2, h.3⟩, fun h => ⟨h.1, h.2, h.3⟩⟩
theorem Keeps.put {a x : State} {m n bs rowErr reported parts chans dozed slow fab fabOut iqDone rem remOut segments faults fseq repair gov ckSeq free}
  (h : Keeps kd a x) (hm : x.mem.wf → Memory.wf m) : Keeps kd a { x with mem := memPut m n bs, rowErr := rowErr, reported := reported, parts := parts, chans := chans, dozed := dozed, slow := slow, fab := fab, fabOut := fabOut, iqDone := iqDone, rem := rem, remOut := remOut, segments := segments, faults := faults, fseq := fseq, repair := repair, gov := gov, ckSeq := ckSeq, free := free } := h.trans ⟨rfl, fun h => memPut_wf (hm h) _ _, id⟩
theorem Keeps.clear {a x : State} {m n k rowErr reported parts chans dozed slow fab fabOut iqDone rem remOut segments faults fseq repair gov ckSeq free}
  (h : Keeps kd a x) (hm : x.mem.wf → Memory.wf m) : Keeps kd a { x with mem := memClear m n k, rowErr := rowErr, reported := reported, parts := parts, chans := chans, dozed := dozed, slow := slow, fab := fab, fabOut := fabOut, iqDone := iqDone, rem := rem, remOut := remOut, segments := segments, faults := faults, fseq := fseq, repair := repair, gov := gov, ckSeq := ckSeq, free := free } := h.trans ⟨rfl, fun h => memClear_wf (hm h) _ _, id⟩

/-! ## Rules -/

theorem getD_map_of {P : State → Prop} {α} {f : α → State} {o : Option α} {s} (h : P s) (hf : ∀ a, P (f a)) :
    P ((o.map f).getD s) := by
  cases o with
  | none => exact h
  | some a => exact hf a
theorem foldl_keeps {P : State → Prop} {α} {f : State → α → State} {l : List α} {s} (h : P s) (hf : ∀ s a, P s → P (f s a)) : P (l.foldl f s) := by
  induction l generalizing s with
  | nil => exact h
  | cons a l ih => exact ih (hf _ _ h)
theorem foldl_keeps₁ {P : State → Prop} {α β} {f : State × β → α → State × β} {l : List α} {s} (h : P s.1) (hf : ∀ s a, P s.1 → P (f s a).1) : P (l.foldl f s).1 := by
  induction l generalizing s with
  | nil => exact h
  | cons a l ih => exact ih (hf _ _ h)

theorem fst_of {P : State → Prop} {β} {x : State × β} {s y} (h : P x.1) (e : x = (s, y)) : P s := by subst e; exact h

structure KeepsO (kd : Kind) (a : State) (o : Option State) : Prop where
  of : ∀ t, o = some t → Keeps kd a t
theorem keepsO_none {a} : KeepsO kd a none := ⟨by intro t h; cases h⟩
theorem keepsO_some {a s} (h : Keeps kd a s) : KeepsO kd a (some s) := ⟨by intro t e; cases e; exact h⟩
theorem keepsO_of {a} {x : Option State} {s} (h : KeepsO kd a x) (e : x = some s) : Keeps kd a s := h.of s e
theorem keepsO_getD {a} {x : Option State} {s} (h : KeepsO kd a x) (h2 : Keeps kd a s) : Keeps kd a (x.getD s) := by
  cases x with
  | none => exact h2
  | some t => exact h.of t rfl
structure KeepsP {β} (kd : Kind) (a : State) (o : Option (State × β)) : Prop where
  of : ∀ t, o = some t → Keeps kd a t.1
theorem keepsP_none {a β} : KeepsP (β := β) kd a none := ⟨by intro t h; cases h⟩
theorem keepsP_some {a s β} {b : β} (h : Keeps kd a s) : KeepsP kd a (some (s, b)) := ⟨by intro t e; cases e; exact h⟩
theorem keepsP_of {a β} {x : Option (State × β)} {s b} (h : KeepsP kd a x) (e : x = some (s, b)) : Keeps kd a s := h.of _ e

structure Ok {α : Type} (kd : Kind) (a : State) (m : M α) : Prop where
  of : ∀ r, Keeps kd a r.s → Keeps kd a (runM m r).2.s

section
variable {a : State} {α β : Type}
theorem ok_pure {x : α} : Ok kd a (pure x) := ⟨fun _ h => h⟩
theorem ok_throw {e : Nat × Nat} : Ok kd a (throw e : M α) := ⟨fun _ h => h⟩
theorem runM_bind (m : M α) (k : α → M β) (r : Run) :
    runM (m >>= k) r = match runM m r with
      | (.ok x, r') => runM (k x) r'
      | (.error e, r') => (.error e, r') := by
  simp only [runM, bind, ExceptT.bind, ExceptT.run, ExceptT.mk, StateT.run, StateT.bind, ExceptT.bindCont]
  rcases h : m r with ⟨x, r'⟩
  rcases x with e | x <;> rfl
theorem ok_bind {m : M α} {k : α → M β} (h : Ok kd a m) (hk : ∀ x, Ok kd a (k x)) : Ok kd a (m >>= k) := by
  constructor
  intro r hr
  rw [runM_bind]
  have := h.of r hr
  rcases hm : runM m r with ⟨x, r'⟩
  rw [hm] at this
  rcases x with e | x
  · exact this
  · exact (hk x).of r' this
theorem ok_map {m : M α} {f : α → β} (h : Ok kd a m) : Ok kd a (f <$> m) := by
  have : (f <$> m) = (m >>= fun x => pure (f x)) := by rw [map_eq_pure_bind]
  rw [this]; exact ok_bind h fun x => ok_pure
theorem ok_get {k : Run → M β} (hk : ∀ r, Keeps kd a r.s → Ok kd a (k r)) : Ok kd a ((get : M Run) >>= k) := by
  constructor
  intro r hr
  rw [runM_bind]
  exact (hk r hr).of r hr
theorem ok_get0 : Ok kd a (get : M Run) := ⟨fun _ h => h⟩
theorem ok_set {r : Run} (h : Keeps kd a r.s) : Ok kd a (set r : M PUnit) := ⟨fun _ _ => h⟩
theorem ok_modify {f : Run → Run} (h : ∀ r, Keeps kd a r.s → Keeps kd a (f r).s) : Ok kd a (modify f : M PUnit) := ⟨fun r hr => h r hr⟩
theorem ok_modS {f : State → State} (h : ∀ s, Keeps kd a s → Keeps kd a (f s)) : Ok kd a (modS f) := ⟨fun r hr => h r.s hr⟩
theorem ok_getS {k : State → M β} (hk : ∀ s, Keeps kd a s → Ok kd a (k s)) : Ok kd a (getS >>= k) := by
  constructor
  intro r hr
  rw [runM_bind]
  exact (hk r.s hr).of r hr
theorem ok_getS0 : Ok kd a getS := ⟨fun _ h => h⟩
theorem ok_tryCatch {m : M α} {k : Nat × Nat → M α} (h : Ok kd a m) (hk : ∀ e, Ok kd a (k e)) : Ok kd a (tryCatch m k) := by
  constructor
  intro r hr
  have h1 := h.of r hr
  show Keeps kd a (runM (tryCatch m k) r).2.s
  have : runM (tryCatch m k) r = match runM m r with
      | (.ok x, r') => (.ok x, r')
      | (.error e, r') => runM (k e) r' := by
    simp only [runM, tryCatch, tryCatchThe, MonadExceptOf.tryCatch, ExceptT.tryCatch, ExceptT.run, ExceptT.mk, StateT.run, bind, StateT.bind]
    rcases h : m r with ⟨x, r'⟩
    rcases x with e | x <;> rfl
  rw [this]
  rcases hm : runM m r with ⟨x, r'⟩
  rw [hm] at h1
  rcases x with e | x
  · exact (hk e).of r' h1
  · exact h1
theorem ok_mapM {l : List α} {f : α → M β} (h : ∀ x, Ok kd a (f x)) : Ok kd a (l.mapM f) := by
  induction l with
  | nil => exact ok_pure
  | cons x l ih => rw [List.mapM_cons]; exact ok_bind (h x) fun _ => ok_bind ih fun _ => ok_pure
theorem ok_forM {l : List α} {f : α → M PUnit} (h : ∀ x, Ok kd a (f x)) : Ok kd a (l.forM f) := by
  induction l with
  | nil => exact ok_pure
  | cons x l ih => exact ok_bind (h x) fun _ => ih
theorem ok_foldlM {l : List α} {f : β → α → M β} {b : β} (h : ∀ b x, Ok kd a (f b x)) : Ok kd a (l.foldlM f b) := by
  induction l generalizing b with
  | nil => exact ok_pure
  | cons x l ih => rw [List.foldlM_cons]; exact ok_bind (h b x) fun _ => ih
theorem ok_anyM {l : List α} {f : α → M Bool} (h : ∀ x, Ok kd a (f x)) : Ok kd a (l.anyM f) := by
  induction l with
  | nil => exact ok_pure
  | cons x l ih => unfold List.anyM; exact ok_bind (h x) fun b => by cases b; exact ih; exact ok_pure
theorem ok_allM {l : List α} {f : α → M Bool} (h : ∀ x, Ok kd a (f x)) : Ok kd a (l.allM f) := by
  induction l with
  | nil => exact ok_pure
  | cons x l ih => unfold List.allM; exact ok_bind (h x) fun b => by cases b; exact ok_pure; exact ih
theorem ok_filterMapM {l : List α} {f : α → M (Option β)} (h : ∀ x, Ok kd a (f x)) : Ok kd a (l.filterMapM f) := by
  have : ∀ acc, Ok kd a (List.filterMapM.loop f l acc) := by
    induction l with
    | nil => intro acc; exact ok_pure
    | cons x l ih => intro acc; unfold List.filterMapM.loop; exact ok_bind (h x) fun b => by cases b; exact ih _; exact ih _
  exact this []
theorem ok_findSomeM? {l : List α} {f : α → M (Option β)} (h : ∀ x, Ok kd a (f x)) : Ok kd a (l.findSomeM? f) := by
  induction l with
  | nil => exact ok_pure
  | cons x l ih => unfold List.findSomeM?; exact ok_bind (h x) fun b => by cases b; exact ih; exact ok_pure
theorem run_of {m : M α} {r r' : Run} {x} (e : runM m r = (x, r')) (h : Ok kd a m) (hr : Keeps kd a r.s) : Keeps kd a r'.s := by
  have := h.of r hr; rw [e] at this; exact this
end

theorem run_of₀ {a s : State} {α} {c : Ctx} {m : M α} {r' : Run} {x} (e : runM m (Run.of s c) = (x, r')) (h : Ok kd a m) (hr : Keeps kd a s) : Keeps kd a r'.s := run_of e h hr
theorem ite_of {p : Prop} {α : Sort _} {P : α → Prop} {x y : α} [Decidable p] (h1 : P x) (h2 : P y) : P (if p then x else y) := by split <;> assumption
theorem ok_ite {a : State} {α : Type} {p : Prop} [Decidable p] {x y : M α} (h1 : Ok kd a x) (h2 : Ok kd a y) : Ok kd a (if p then x else y) := ite_of h1 h2
theorem keeps_ite {a : State} {p : Prop} [Decidable p] {x y : State} (h1 : Keeps kd a x) (h2 : Keeps kd a y) : Keeps kd a (if p then x else y) := ite_of h1 h2
theorem keeps_ite₁ {a : State} {β} {p : Prop} [Decidable p] {x y : State × β} (h1 : Keeps kd a x.1) (h2 : Keeps kd a y.1) : Keeps kd a (if p then x else y).1 := by split <;> assumption
theorem keepsO_ite {a : State} {p : Prop} [Decidable p] {x y : Option State} (h1 : KeepsO kd a x) (h2 : KeepsO kd a y) : KeepsO kd a (if p then x else y) := ite_of h1 h2
theorem keepsP_ite {a : State} {β} {p : Prop} [Decidable p] {x y : Option (State × β)} (h1 : KeepsP kd a x) (h2 : KeepsP kd a y) : KeepsP kd a (if p then x else y) := ite_of h1 h2

theorem ok_cut {a : State} {α γ δ : Type} {m : M α} (f : γ → M δ) (h : ∀ x, Ok kd a (f x)) (k : (∀ x, Ok kd a (f x)) → Ok kd a m) : Ok kd a m := k h
theorem ok_cut₀ {a : State} {α δ : Type} {m : M α} (f : M δ) (h : Ok kd a f) (k : Ok kd a f → Ok kd a m) : Ok kd a m := k h
theorem keeps_cut {a t : State} (f : State) (h : Keeps kd a f) (k : Keeps kd a f → Keeps kd a t) : Keeps kd a t := k h
theorem keeps_cut₁ {a t : State} {β : Type} (f : State × β) (h : Keeps kd a f.1) (k : Keeps kd a f.1 → Keeps kd a t) : Keeps kd a t := k h
theorem keeps_cutf {a t : State} (f : State → State) (h : ∀ s, Keeps kd a s → Keeps kd a (f s)) (k : (∀ s, Keeps kd a s → Keeps kd a (f s)) → Keeps kd a t) : Keeps kd a t := k h
theorem keepsO_cut {a : State} {t} (f : State) (h : Keeps kd a f) (k : Keeps kd a f → KeepsO kd a t) : KeepsO kd a t := k h
theorem keepsP_cut {a : State} {β} {t : Option (State × β)} (f : State) (h : Keeps kd a f) (k : Keeps kd a f → KeepsP kd a t) : KeepsP kd a t := k h
theorem ok_cuts {a : State} {α : Type} {m : M α} (f : State) (h : Keeps kd a f) (k : Keeps kd a f → Ok kd a m) : Ok kd a m := k h

theorem go {p : Prop} (h : p := by
  repeat' (first
    | (with_reducible assumption)
    | (with_reducible refine keeps_ite ?_ ?_)
    | (with_reducible refine foldl_keeps ?_ ?_)
    | (with_reducible refine keeps_ite₁ ?_ ?_)
    | (with_reducible refine foldl_keeps₁ ?_ ?_)
    | (with_reducible exact id)
    | (with_reducible exact fun h => memPut_wf h _ _)
    | (with_reducible intro _)
    | (with_reducible apply_assumption (transparency := .reducible) -exfalso -symm)
    | (with_reducible exact keepsO_none)
    | (with_reducible exact keepsP_none)
    | (with_reducible refine keepsO_some ?_)
    | (with_reducible refine keepsP_some ?_)
    | (with_reducible refine keepsO_ite ?_ ?_)
    | (with_reducible refine keepsP_ite ?_ ?_)
    | (with_reducible refine keepsO_getD ?_ ?_)
    | (with_reducible refine fst_of ?_ ‹_ = (_, _)›)
    | (with_reducible refine keepsO_of ?_ ‹_ = some _›)
    | (with_reducible refine keepsP_of ?_ ‹_ = some (_, _)›)
    | split
    | (simp only [Keeps.upd])
    | (with_reducible refine Keeps.put ?_ ?_)
    | (with_reducible refine Keeps.clear ?_ ?_)
    | dsimp only
    )) : p := h

theorem goM {p : Prop} (h : p := by
  repeat' (first
    | (with_reducible refine ok_get ?_)
    | (with_reducible refine ok_getS ?_)
    | (with_reducible refine ok_bind ?_ ?_)
    | (with_reducible exact ok_pure)
    | (with_reducible intro _)
    | (with_reducible apply_assumption (transparency := .reducible) -exfalso -symm)
    | (with_reducible refine ok_ite ?_ ?_)
    | (with_reducible refine ok_forM ?_)
    | (with_reducible refine ok_mapM ?_)
    | (with_reducible refine ok_map ?_)
    | (with_reducible exact ok_throw)
    | (with_reducible exact ok_get0)
    | (with_reducible exact ok_getS0)
    | (with_reducible refine ok_set ?_)
    | (with_reducible refine ok_modify ?_)
    | (with_reducible refine ok_modS ?_)
    | (with_reducible refine ok_foldlM ?_)
    | (with_reducible refine ok_anyM ?_)
    | (with_reducible refine ok_allM ?_)
    | (with_reducible refine ok_filterMapM ?_)
    | (with_reducible refine ok_findSomeM? ?_)
    | (with_reducible refine ok_tryCatch ?_ ?_)
    | (with_reducible assumption)
    | (with_reducible refine keeps_ite ?_ ?_)
    | (with_reducible refine foldl_keeps ?_ ?_)
    | (with_reducible refine keeps_ite₁ ?_ ?_)
    | (with_reducible refine foldl_keeps₁ ?_ ?_)
    | (with_reducible exact id)
    | (with_reducible exact fun h => memPut_wf h _ _)
    | (with_reducible exact keepsO_none)
    | (with_reducible exact keepsP_none)
    | (with_reducible refine keepsO_some ?_)
    | (with_reducible refine keepsP_some ?_)
    | (with_reducible refine keepsO_ite ?_ ?_)
    | (with_reducible refine keepsP_ite ?_ ?_)
    | (with_reducible refine keepsO_getD ?_ ?_)
    | (with_reducible refine fst_of ?_ ‹_ = (_, _)›)
    | (with_reducible refine keepsO_of ?_ ‹_ = some _›)
    | (with_reducible refine keepsP_of ?_ ‹_ = some (_, _)›)
    | split
    | (simp only [Keeps.upd])
    | (with_reducible refine Keeps.put ?_ ?_)
    | (with_reducible refine Keeps.clear ?_ ?_)
    | dsimp only
    )) : p := h

/-! ### Regs -/

theorem setLive_keeps {z0 s : State} {idx pg off v : Nat} (h : Keeps kd z0 s) : Keeps kd z0 (setLive s idx pg off v) :=
  h.trans ⟨rfl, id, fun o => ⟨o.1, o.2.1, wordsSet_asc o.2.2.1, o.2.2.2⟩⟩

theorem bump_keeps {z0 : State} {s : State} {idx pg off n : Nat} (h : Keeps kd z0 s) :
    Keeps kd z0 (bump s idx pg off n) := by
  have := @setLive_keeps
  unfold bump
  exact go

/-! ### Ops -/

theorem updPart_keeps {z0 : State} {s : State} {p : Nat} {f : Partition → Partition} (h : Keeps kd z0 s) :
    Keeps kd z0 (updPart s p f) := by
  unfold updPart
  exact go

theorem updChan_keeps {z0 : State} {s : State} {n : Nat} {f : Channel → Channel} (h : Keeps kd z0 s) :
    Keeps kd z0 (updChan s n f) := by
  unfold updChan
  exact go

theorem updSlice_lost (s : State) (n : Nat) (f : Slice → Slice) (hf : ∀ x : Slice, (f x).lost = x.lost) :
    (updSlice s n f).slices.toList.map (·.lost) = s.slices.toList.map (·.lost) := by
  apply List.ext_getElem (by simp [updSlice])
  intro i h1 h2
  simp only [updSlice, slice, List.getElem_map, Vector.getElem_toList, Vector.getElem_set]
  split
  · next e => subst e; exact hf _
  · rfl

theorem updSlice_keeps {z0 : State} {s : State} {n : Nat} {f : Slice → Slice} (h : Keeps kd z0 s)
    (hf : ∀ x : Slice, (f x).lost = x.lost) : Keeps kd z0 (updSlice s n f) := by
  refine h.trans ⟨?_, id, id⟩
  have e := updSlice_lost s n f hf
  unfold fixedOf
  rw [e]; rfl

theorem updSlice_any {z0 : State} {s : State} {n : Nat} {f : Slice → Slice} (h : Keeps kd z0 s) (hk : kd.lost = false) :
    Keeps kd z0 (updSlice s n f) := by
  refine h.trans ⟨?_, id, id⟩
  unfold fixedOf
  rw [hk]; rfl

theorem updSlow_keeps {z0 : State} {s : State} {q : Nat} {f : SlowSt → SlowSt} (h : Keeps kd z0 s) :
    Keeps kd z0 (updSlow s q f) := by
  unfold updSlow
  exact go

theorem updFab_keeps {z0 : State} {s : State} {n : Nat} {f : FabSt → FabSt} (h : Keeps kd z0 s) :
    Keeps kd z0 (updFab s n f) := by
  unfold updFab
  exact go

theorem updRem_keeps {z0 : State} {s : State} {n : Nat} {f : RemSt → RemSt} (h : Keeps kd z0 s) :
    Keeps kd z0 (updRem s n f) := by
  unfold updRem
  exact go

theorem updPool_keeps {z0 : State} {s : State} {p : Nat} {f : Pool → Pool} (h : Keeps kd z0 s) :
    Keeps kd z0 (updPool s p f) := by
  have := @updPart_keeps
  unfold updPool
  exact go

theorem updStrm_keeps {z0 : State} {s : State} {p : Nat} {st : Strm} {f : StreamSt → StreamSt} (h : Keeps kd z0 s) :
    Keeps kd z0 (updStrm s p st f) := by
  have := @updPart_keeps
  unfold updStrm
  exact go

theorem addFault_keeps {z0 : State} {s : State} {f : FaultRec} (h : Keeps kd z0 s) :
    Keeps kd z0 (addFault s f) := by
  have := @bump_keeps
  unfold addFault
  exact go

theorem setPat_keeps {z0 : State} {s : State} {row : Nat} {pat : List (Nat × BitVec 16)} (h : Keeps kd z0 s) :
    Keeps kd z0 (setPat s row pat) := by
  unfold setPat
  exact go

theorem addUpset_keeps {z0 : State} {s : State} {u : Upset} (h : Keeps kd z0 s) :
    Keeps kd z0 (addUpset s u) := by
  have := @setPat_keeps
  unfold addUpset
  exact go

theorem addUpsets_keeps {z0 : State} {s : State} {us : List Upset} (h : Keeps kd z0 s) :
    Keeps kd z0 (addUpsets s us) := by
  have := @addUpset_keeps
  unfold addUpsets
  exact go

theorem updRowMem_keeps {z0 : State} {s : State} {row : Nat} {f : RowMem → RowMem} (h : Keeps kd z0 s) :
    Keeps kd z0 (updRowMem s row f) := by
  have := @updSlice_keeps
  have := @updSlow_keeps
  unfold updRowMem
  exact go

theorem bumpRow_keeps {z0 : State} {s : State} {row k : Nat} (h : Keeps kd z0 s) :
    Keeps kd z0 (bumpRow s row k) := by
  have := @bump_keeps
  unfold bumpRow
  exact go

theorem rows_keeps {z0 : State} {s : State} {l : List (Word × Word)} (h : Keeps kd z0 s) :
    Keeps kd z0 { s with fuse := { s.fuse with rows := l } } := h.trans ⟨rfl, id, id⟩

theorem steer_keeps {z0 : State} {s : State} {row spare : Nat} (h : Keeps kd z0 s) :
    Keeps kd z0 (steer s row spare) := by
  have h1 := @updRowMem_keeps kd z0 s row (fun m => { m with spares := (row, spare) :: m.spares }) h
  unfold steer
  dsimp only
  split
  · exact rows_keeps h1
  · exact go

theorem spareOut_keeps {z0 : State} {s : State} {row : Nat} (h : Keeps kd z0 s) :
    Keeps kd z0 (spareOut s row) := by
  have := @addFault_keeps
  have := @updRowMem_keeps
  unfold spareOut
  exact go

theorem retireRow_keeps {z0 : State} {s : State} {row count : Nat} (h : Keeps kd z0 s) :
    Keeps kd z0 (retireRow s row count) := by
  have := @addFault_keeps
  have := @setPat_keeps
  have := @updRowMem_keeps
  have := @steer_keeps
  have := @spareOut_keeps
  unfold retireRow
  exact go

theorem corrected_keeps {z0 : State} {s : State} {row : Nat} {rest : List (Nat × BitVec 16)} (h : Keeps kd z0 s) :
    Keeps kd z0 (corrected s row rest) := by
  have := @updRowMem_keeps
  have := @bumpRow_keeps
  have := @retireRow_keeps
  unfold corrected
  exact go

theorem readRow_keeps {z0 : State} {s : State} {w : Who} {row : Nat} (h : Keeps kd z0 s) :
    Keeps kd z0 (readRow s w row).1 := by
  have := @addFault_keeps
  have := @bumpRow_keeps
  have := @corrected_keeps
  unfold readRow
  exact go

theorem wroteRow_keeps {z0 : State} {s : State} {row : Nat} (h : Keeps kd z0 s) :
    Keeps kd z0 (wroteRow s row) := by
  have := @setPat_keeps
  have := @updRowMem_keeps
  have := @retireRow_keeps
  unfold wroteRow
  exact go

theorem dozeHit_keeps {z0 : State} {s : State} {n : Nat} (h : Keeps kd z0 s) :
    Keeps kd z0 (dozeHit s n) := by
  have := @bump_keeps
  have := @updChan_keeps
  have := @updSlice_keeps
  unfold dozeHit
  exact go

theorem dozeTouch_keeps {z0 : State} {s : State} {n ch : Nat} (h : Keeps kd z0 s) :
    Keeps kd z0 (dozeTouch s n ch) := by
  have := @dozeHit_keeps
  unfold dozeTouch
  exact go

theorem askRows_keeps {z0 : State} {s t : State} (h : Keeps kd z0 s) :
    Keeps kd z0 (askRows s t) := by
  have := @dozeTouch_keeps
  unfold askRows
  exact go

theorem touchRows_keeps {z0 : State} {s : State} {ch pa n : Nat} {write : Bool} (h : Keeps kd z0 s) :
    Keeps kd z0 (touchRows s ch pa n write) := by
  have := @bump_keeps
  have := @dozeTouch_keeps
  unfold touchRows
  exact go

theorem rowsRead_keeps {z0 : State} {s : State} {w : Who} {pa n : Nat} (h : Keeps kd z0 s) :
    Keeps kd z0 (rowsRead s w pa n).1 := by
  have := @readRow_keeps
  have := @touchRows_keeps
  unfold rowsRead
  exact go

theorem rowWrite_keeps {z0 : State} {s : State} {w : Who} {pa : Nat} {bs : List Byte} (h : Keeps kd z0 s) :
    Keeps kd z0 (rowWrite s w pa bs).1 := by
  have := @readRow_keeps
  have := @wroteRow_keeps
  unfold rowWrite
  exact go

theorem rowsWrite_keeps {z0 : State} {s : State} {w : Who} {pa : Nat} {bs : List Byte} (h : Keeps kd z0 s) :
    Keeps kd z0 (rowsWrite s w pa bs).1 := by
  have := @rowWrite_keeps
  have := @touchRows_keeps
  unfold rowsWrite
  exact go

end Sys2Proof.Machine
end

