-- ==== Sys2Proof/Laws/FrameXlat.lean ====
section
/-! SUPPORT. What the work of the block leaves as it is: translation. Each lemma has the name of the definition that it is about. -/

namespace Sys2Proof.Machine

open Sys2Proof

set_option Elab.async false
variable {kd : Kind}

/-! ### Xlat -/

theorem iqPump_keeps {a : State} {n : Nat} {s : State} {f : Nat} (h : Keeps kd a s) : Keeps kd a (iqPump n s f) := by
  induction n generalizing s with
  | zero => exact h
  | succ n ih =>
    have := @bump_keeps
    have := @updFab_keeps
    unfold iqPump
    exact go

theorem iqAdd_keeps {z0 : State} {s : State} {f : Nat} {r : IqReq} (h : Keeps kd z0 s) :
    Keeps kd z0 (iqAdd s f r) := by
  have := @updFab_keeps
  have := @iqPump_keeps
  unfold iqAdd
  exact go

theorem hostReq_keeps {z0 : State} {s : State} {p : Nat} {o : Owner} {port : Option Nat} {a n : Nat} {data : Option (List Byte)} (h : Keeps kd z0 s) :
    KeepsO kd z0 (hostReq s p o port a n data) := by
  have := @iqAdd_keeps
  unfold hostReq
  exact go

theorem readEntry_keeps {z0 : State} {s : State} {w : Who} {node idx : Nat} (h : Keeps kd z0 s) :
    Keeps kd z0 (readEntry s w node idx).1 := by
  have := @rowsRead_keeps
  unfold readEntry
  exact go

theorem walkFrom_keeps {a : State} {w : Who} {va k : Nat} {s : State} {node : Nat} (h : Keeps kd a s) :
    Keeps kd a (walkFrom w va k s node).1 := by
  have := @readEntry_keeps
  induction k generalizing s node with
  | zero =>
    unfold walkFrom
    exact go
  | succ k ih =>
    unfold walkFrom
    exact go

theorem checkPa_keeps {z0 : State} {s : State} {pa leaf : Nat} {write : Bool} (h : Keeps kd z0 s) :
    Keeps kd z0 (checkPa s pa leaf write).1 := by
  have := @bump_keeps
  unfold checkPa
  exact go

theorem xlate_keeps {z0 : State} {s : State} {c : Ctx} {va : Nat} {write : Bool} (h : Keeps kd z0 s) :
    Keeps kd z0 (xlate s c va write).1 := by
  have := @walkFrom_keeps
  have := @checkPa_keeps
  unfold xlate
  exact go

theorem xlFault_keeps {z0 : State} {s : State} {c : Ctx} {va cause : Nat} (h : Keeps kd z0 s) :
    Keeps kd z0 (xlFault s c va cause) := by
  have := @addFault_keeps
  unfold xlFault
  exact go

theorem noPortFault_keeps {z0 : State} {s : State} {c : Ctx} {a : Nat} (h : Keeps kd z0 s) :
    Keeps kd z0 (noPortFault s c a) := by
  have := @addFault_keeps
  unfold noPortFault
  exact go

theorem hostAsk_keeps {z0 : State} {s : State} {c : Ctx} {a n : Nat} (h : Keeps kd z0 s) :
    Keeps kd z0 (hostAsk s c a n) := by
  have := @hostReq_keeps
  unfold hostAsk
  exact go

theorem runWait_keeps {z0 s : State} {α} {c : Ctx} {x : Except (Nat × Nat) α} {r : Run} (h : Keeps kd z0 s) :
    KeepsO kd z0 (runWait s c x r) := by
  unfold runWait
  split
  · exact keepsO_some (askRows_keeps h)
  · split
    · split
      · exact keepsO_some (hostAsk_keeps h)
      · exact keepsO_none
    · exact keepsO_none
/-- What follows work, however it ended, has a property that each of its ends has. -/
theorem Ran.fold_all {α β : Type} {P : β → Prop} {x : Ran α} {ok : α → Run → β} {bad : Nat → Nat → State → β}
    {host : State → β} (h1 : ∀ a r, x = .ok a r → P (ok a r)) (h2 : ∀ e d t, x = .bad e d t → P (bad e d t))
    (h3 : ∀ t, x = .host t → P (host t)) : P (x.fold ok bad host) := by
  cases x with
  | ok a r => exact h1 _ _ rfl
  | bad e d t => exact h2 _ _ _ rfl
  | host t => exact h3 _ rfl

theorem ran_ok {a s : State} {α} {c} {m : M α} {x r} (e : ranM s c m = .ok x r) (h : Keeps kd a s) (hm : Ok kd a m) : Keeps kd a r.s := by
  unfold ranM at e
  have h1 := hm.of (Run.of s c) h
  dsimp only at e
  split at e
  · cases e
  · split at e
    · cases e; exact h1
    · cases e
theorem ran_bad {a s t : State} {α} {c} {m : M α} {x y} (e : ranM s c m = .bad x y t) (h : Keeps kd a s) (hm : Ok kd a m) : Keeps kd a t := by
  unfold ranM at e
  have h1 := hm.of (Run.of s c) h
  dsimp only at e
  split at e
  · cases e
  · split at e
    · cases e
    · cases e; exact h1
theorem ran_host {a s t : State} {α} {c} {m : M α} (e : ranM s c m = .host t) (h : Keeps kd a s) (hm : Ok kd a m) : Keeps kd a t := by
  unfold ranM at e
  dsimp only at e
  split at e
  · next hw => cases e; exact keepsO_of (runWait_keeps h) hw
  · split at e <;> cases e

theorem go2 {p : Prop} (h : p := by
  repeat' (first
    | (with_reducible assumption)
    | (with_reducible refine keeps_ite ?_ ?_)
    | (with_reducible refine foldl_keeps ?_ ?_)
    | (with_reducible refine keeps_ite₁ ?_ ?_)
    | (with_reducible refine foldl_keeps₁ ?_ ?_)
    | (with_reducible exact id)
    | (with_reducible exact fun h => memPut_wf h _ _)
    | (with_reducible intro _)
    | (with_reducible apply_assumption (transparency := .reducible) -exfalso -symm)
    | (with_reducible exact keepsO_none)
    | (with_reducible exact keepsP_none)
    | (with_reducible refine keepsO_some ?_)
    | (with_reducible refine keepsP_some ?_)
    | (with_reducible refine keepsO_ite ?_ ?_)
    | (with_reducible refine keepsP_ite ?_ ?_)
    | (with_reducible refine keepsO_getD ?_ ?_)
    | (with_reducible refine ran_ok ‹ranM _ _ _ = .ok _ _› ?_ ?_)
    | (with_reducible refine ran_bad ‹ranM _ _ _ = .bad _ _ _› ?_ ?_)
    | (with_reducible refine ran_host ‹ranM _ _ _ = .host _› ?_ ?_)
    | (with_reducible refine run_of₀ ‹runM _ (Run.of _ _) = _› ?_ ?_)
    | (with_reducible refine run_of ‹runM _ _ = _› ?_ ?_)
    | (with_reducible refine fst_of ?_ ‹_ = (_, _)›)
    | (with_reducible refine keepsO_of ?_ ‹_ = some _›)
    | (with_reducible refine keepsP_of ?_ ‹_ = some (_, _)›)
    | (with_reducible refine ok_get ?_)
    | (with_reducible refine ok_getS ?_)
    | (with_reducible refine ok_bind ?_ ?_)
    | (with_reducible exact ok_pure)
    | (with_reducible refine ok_ite ?_ ?_)
    | (with_reducible refine ok_forM ?_)
    | (with_reducible refine ok_mapM ?_)
    | (with_reducible refine ok_map ?_)
    | (with_reducible exact ok_throw)
    | (with_reducible exact ok_get0)
    | (with_reducible exact ok_getS0)
    | (with_reducible refine ok_set ?_)
    | (with_reducible refine ok_modify ?_)
    | (with_reducible refine ok_modS ?_)
    | (with_reducible refine ok_foldlM ?_)
    | (with_reducible refine ok_anyM ?_)
    | (with_reducible refine ok_allM ?_)
    | (with_reducible refine ok_filterMapM ?_)
    | (with_reducible refine ok_findSomeM? ?_)
    | (with_reducible refine ok_tryCatch ?_ ?_)
    | split
    | (simp only [Keeps.upd])
    | (with_reducible refine Keeps.put ?_ ?_)
    | (with_reducible refine Keeps.clear ?_ ?_)
    | dsimp only
    )) : p := h

theorem goJ {p : Prop} (h : p := by
  repeat' (first
    | (extract_lets +onlyGivenNames jp; first
      | (refine ok_cut jp (fun x => ?_) (fun _ => ?_); (on_goal 2 => clear_value jp); on_goal 1 => (dsimp -zeta only [jp]; clear jp))
      | (refine ok_cut₀ jp ?_ (fun _ => ?_); (on_goal 2 => clear_value jp); on_goal 1 => (dsimp -zeta only [jp]; clear jp))
      | (refine keeps_cut jp ?_ (fun _ => ?_); (on_goal 2 => clear_value jp); on_goal 1 => (dsimp -zeta only [jp]; clear jp))
      | (refine keeps_cut₁ jp ?_ (fun _ => ?_); (on_goal 2 => clear_value jp); on_goal 1 => (dsimp -zeta only [jp]; clear jp))
      | (refine keeps_cutf jp (fun x _ => ?_) (fun _ => ?_); (on_goal 2 => clear_value jp); on_goal 1 => (dsimp -zeta only [jp]; clear jp))
      | (refine keepsO_cut jp ?_ (fun _ => ?_); (on_goal 2 => clear_value jp); on_goal 1 => (dsimp -zeta only [jp]; clear jp))
      | (refine keepsP_cut jp ?_ (fun _ => ?_); (on_goal 2 => clear_value jp); on_goal 1 => (dsimp -zeta only [jp]; clear jp))
      | (refine ok_cuts jp ?_ (fun _ => ?_); (on_goal 2 => clear_value jp); on_goal 1 => (dsimp -zeta only [jp]; clear jp))
      | (clear_value jp))
    | (with_reducible refine ok_get ?_)
    | (with_reducible refine ok_getS ?_)
    | (with_reducible refine ok_bind ?_ ?_)
    | (with_reducible exact ok_pure)
    | (with_reducible intro _)
    | (with_reducible apply_assumption (transparency := .reducible) -exfalso -symm)
    | (with_reducible refine ok_ite ?_ ?_)
    | (with_reducible refine ok_forM ?_)
    | (with_reducible refine ok_mapM ?_)
    | (with_reducible refine ok_map ?_)
    | (with_reducible exact ok_throw)
    | (with_reducible exact ok_get0)
    | (with_reducible exact ok_getS0)
    | (with_reducible refine ok_set ?_)
    | (with_reducible refine ok_modify ?_)
    | (with_reducible refine ok_modS ?_)
    | (with_reducible refine ok_foldlM ?_)
    | (with_reducible refine ok_anyM ?_)
    | (with_reducible refine ok_allM ?_)
    | (with_reducible refine ok_filterMapM ?_)
    | (with_reducible refine ok_findSomeM? ?_)
    | (with_reducible refine ok_tryCatch ?_ ?_)
    | (with_reducible assumption)
    | (with_reducible refine keeps_ite ?_ ?_)
    | (with_reducible refine foldl_keeps ?_ ?_)
    | (with_reducible refine keeps_ite₁ ?_ ?_)
    | (with_reducible refine foldl_keeps₁ ?_ ?_)
    | (with_reducible exact id)
    | (with_reducible exact fun h => memPut_wf h _ _)
    | (with_reducible exact keepsO_none)
    | (with_reducible exact keepsP_none)
    | (with_reducible refine keepsO_some ?_)
    | (with_reducible refine keepsP_some ?_)
    | (with_reducible refine keepsO_ite ?_ ?_)
    | (with_reducible refine keepsP_ite ?_ ?_)
    | (with_reducible refine keepsO_getD ?_ ?_)
    | (with_reducible refine ran_ok ‹ranM _ _ _ = .ok _ _› ?_ ?_)
    | (with_reducible refine ran_bad ‹ranM _ _ _ = .bad _ _ _› ?_ ?_)
    | (with_reducible refine ran_host ‹ranM _ _ _ = .host _› ?_ ?_)
    | (with_reducible refine run_of₀ ‹runM _ (Run.of _ _) = _› ?_ ?_)
    | (with_reducible refine run_of ‹runM _ _ = _› ?_ ?_)
    | (with_reducible refine fst_of ?_ ‹_ = (_, _)›)
    | (with_reducible refine keepsO_of ?_ ‹_ = some _›)
    | (with_reducible refine keepsP_of ?_ ‹_ = some (_, _)›)
    | split
    | (simp only [Keeps.upd])
    | (with_reducible refine Keeps.put ?_ ?_)
    | (with_reducible refine Keeps.clear ?_ ?_)
    | dsimp only
    )) : p := h

theorem paRead_keeps {z0 : State} {s : State} {c : Ctx} {pa n : Nat} (h : Keeps kd z0 s) :
    Keeps kd z0 (paRead s c pa n).1 := by
  have := @rowsRead_keeps
  have := @noPortFault_keeps
  unfold paRead
  exact go

theorem paWrite_keeps {z0 : State} {s : State} {c : Ctx} {pa : Nat} {bs : List Byte} (h : Keeps kd z0 s) :
    Keeps kd z0 (paWrite s c pa bs).1 := by
  have := @rowsWrite_keeps
  have := @hostReq_keeps
  have := @noPortFault_keeps
  unfold paWrite
  exact go

theorem vread_keeps {z0 : State} {s : State} {c : Ctx} {va n : Nat} (h : Keeps kd z0 s) :
    Keeps kd z0 (vread s c va n).1 := by
  have := @xlate_keeps
  have := @xlFault_keeps
  have := @paRead_keeps
  unfold vread
  exact go

theorem vwrite_keeps {z0 : State} {s : State} {c : Ctx} {va : Nat} {bs : List Byte} (h : Keeps kd z0 s) :
    Keeps kd z0 (vwrite s c va bs).1 := by
  have := @xlate_keeps
  have := @xlFault_keeps
  have := @paWrite_keeps
  unfold vwrite
  exact go

end Sys2Proof.Machine
end

