-- ==== Sys2Proof/Laws/FrameOperands.lean ====
section
/-! SUPPORT. What the work of the block leaves as it is: operands, arrays, checks, pages. Each lemma has the name of the definition that it is about. -/

namespace Sys2Proof.Machine

open Sys2Proof

set_option Elab.async false
variable {kd : Kind}

/-! ### Operands -/

/-! ### Array -/

/-! ### Flags -/

theorem bumpMon_keeps {z0 : State} {s : State} {slot pg off n : Nat} (h : Keeps kd z0 s) :
    Keeps kd z0 (bumpMon s slot pg off n) := by
  have := @setLive_keeps
  unfold bumpMon
  exact go2

theorem applyMon_keeps {z0 : State} {s : State} {ch slot : Nat} {m : Mon} (h : Keeps kd z0 s) :
    Keeps kd z0 (applyMon s ch slot m) := by
  have := @setLive_keeps
  have := @bumpMon_keeps
  unfold applyMon
  exact go2

theorem applyPipe_keeps {z0 : State} {s : State} {ch : Nat} {c : Pipe} (h : Keeps kd z0 s) :
    Keeps kd z0 (applyPipe s ch c) := by
  have := @bump_keeps
  unfold applyPipe
  exact go2

theorem updArray_keeps {z0 : State} {s : State} {ch a : Nat} {f : ArrayMem → ArrayMem} (h : Keeps kd z0 s) :
    Keeps kd z0 (updArray s ch a f) := by
  have := @updChan_keeps
  unfold updArray
  exact go2

theorem applyArr_keeps {z0 : State} {s : State} {ch : Nat} {w : ArrWork} (h : Keeps kd z0 s) :
    Keeps kd z0 (applyArr s ch w) := by
  have := @bump_keeps
  have := @updArray_keeps
  unfold applyArr
  exact go2

theorem dropHost_keeps {z0 : State} {s : State} {o : Owner} (h : Keeps kd z0 s) :
    Keeps kd z0 (dropHost s o) := by
  unfold dropHost
  exact go2

theorem freshWord_keeps {z0 : State}   :
    Ok kd z0 (freshWord : M Word) := by
  unfold freshWord
  exact goM

theorem tally_keeps {z0 : State} {slot : Nat} {f : Mon → Mon}  :
    Ok kd z0 ((tally slot f) : M Unit) := by
  unfold tally
  exact goM

theorem tallyG_keeps {z0 : State} {slot : Nat} {g : GCount}  :
    Ok kd z0 ((tallyG slot g) : M Unit) := by
  have := @tally_keeps
  unfold tallyG
  exact goM

theorem tallyNan_keeps {z0 : State} {slot n : Nat}  :
    Ok kd z0 ((tallyNan slot n) : M Unit) := by
  have := @tally_keeps
  unfold tallyNan
  exact goM

theorem modPipe_keeps {z0 : State} {f : Pipe → Pipe}  :
    Ok kd z0 ((modPipe f) : M Unit) := by
  unfold modPipe
  exact goM

theorem addWork_keeps {z0 : State} {w : ArrWork}  :
    Ok kd z0 ((addWork w) : M Unit) := by
  unfold addWork
  exact goM

theorem faultM_keeps {z0 : State} {α : Type} {st cls cause : Nat} {f : FaultRec → FaultRec}  :
    Ok kd z0 ((faultM st cls cause f) : M α) := by
  have := @addFault_keeps
  unfold faultM
  exact goM

theorem overflowM_keeps {z0 : State} {α : Type}  :
    Ok kd z0 (overflowM : M α) := by
  have := @faultM_keeps
  unfold overflowM
  exact goM

theorem chk_keeps {z0 : State} {x : F32}  :
    Ok kd z0 ((chk x) : M F32) := by
  have := @overflowM_keeps
  unfold chk
  exact goM

theorem chkAll_keeps {z0 : State} {xs : List F32}  :
    Ok kd z0 ((chkAll xs) : M (List F32)) := by
  have := @overflowM_keeps
  unfold chkAll
  exact goM

theorem countSlowPg_keeps {z0 : State} {ks : List PageKey} :
    Ok kd z0 (countSlowPg ks : M Unit) := by
  have := @bump_keeps
  unfold countSlowPg
  exact goM

theorem rd_keeps {z0 : State} {va n : Nat}  :
    Ok kd z0 ((rd va n) : M (List Byte)) := by
  have := @vread_keeps
  have := @countSlowPg_keeps
  unfold rd
  exact goM

theorem wr_keeps {z0 : State} {key va : Nat} {bs : List Byte}  :
    Ok kd z0 ((wr key va bs) : M Unit) := by
  have := @vwrite_keeps
  unfold wr
  exact goM

theorem rdF32_keeps {z0 : State} {va : Nat}  :
    Ok kd z0 ((rdF32 va) : M F32) := by
  have := @rd_keeps
  unfold rdF32
  exact goM

theorem rdFloats_keeps {z0 : State} {d : Desc} {fmt : Nat} {co : List Nat} {n : Nat}  :
    Ok kd z0 ((rdFloats d fmt co n) : M (List F32)) := by
  have := @rd_keeps
  unfold rdFloats
  exact goM

theorem wrFloats_keeps {z0 : State} {key : Nat} {d : Desc} {fmt : Nat} {co : List Nat} {vs : List F32}  :
    Ok kd z0 ((wrFloats key d fmt co vs) : M Unit) := by
  have := @overflowM_keeps
  have := @wr_keeps
  unfold wrFloats
  exact goM

theorem escTable_go_keeps {z0 : State} {va b n prev acc miss} : Ok kd z0 (escTable.go va b n prev acc miss) := by
  have := @rd_keeps
  induction n generalizing va prev acc miss with
  | zero =>
    unfold escTable.go
    exact go2
  | succ _ ih =>
    unfold escTable.go
    exact go2
theorem escTable_keeps {z0 : State} {va b : Nat} : Ok kd z0 (escTable va b) := by
  have := @escTable_go_keeps
  have := @rd_keeps
  unfold escTable
  exact go2

theorem escRead_keeps {z0 : State} {va b slot : Nat} {first : Bool}  :
    Ok kd z0 ((escRead va b slot first) : M (List (Nat × List F32))) := by
  have := @tally_keeps
  have := @escTable_keeps
  unfold escRead
  exact goM

theorem useBlock_keeps {z0 : State} {slot fmt scale : Nat} {codes : List Nat} {n thr : Nat} {esc : List (Nat × List F32)}  :
    Ok kd z0 ((useBlock slot fmt scale codes n thr esc) : M (List Elem)) := by
  have := @tally_keeps
  unfold useBlock
  exact goM

theorem flyBlock_keeps {z0 : State} {slot fmt seed o n thr : Nat} {vs : List F32}  :
    Ok kd z0 ((flyBlock slot fmt seed o n thr vs) : M (List Elem)) := by
  have := @tally_keeps
  have := @overflowM_keeps
  unfold flyBlock
  exact goM

theorem rdCodes_keeps {z0 : State} {d : Desc} {fmt i0 cut : Nat}  :
    Ok kd z0 ((rdCodes d fmt i0 cut) : M (List Nat)) := by
  have := @rd_keeps
  unfold rdCodes
  exact goM

theorem rdVec_keeps {z0 : State} {slot : Nat} {d : Desc} {fmt hdim thr : Nat} {esc : List (Nat × List F32)} {co : List Nat}  :
    Ok kd z0 ((rdVec slot d fmt hdim thr esc co) : M (List (List Elem))) := by
  have := @rd_keeps
  have := @useBlock_keeps
  have := @rdCodes_keeps
  unfold rdVec
  exact goM

theorem rdFly_keeps {z0 : State} {slot : Nat} {d : Desc} {src fmt hdim seed thr : Nat} {co : List Nat}  :
    Ok kd z0 ((rdFly slot d src fmt hdim seed thr co) : M (List (List Elem))) := by
  have := @rdFloats_keeps
  have := @flyBlock_keeps
  unfold rdFly
  exact goM

theorem rdCols_keeps {z0 : State} {slot : Nat} {d : Desc} {fmt hdim thr : Nat} {esc : List (Nat × List F32)} {c2 lim : Nat} {co : Nat → List Nat}  :
    Ok kd z0 ((rdCols slot d fmt hdim thr esc c2 lim co) : M (List (List Elem))) := by
  have := @rd_keeps
  have := @useBlock_keeps
  have := @rows_keeps
  unfold rdCols
  exact goM

theorem quantOut_keeps {z0 : State} {slot fmt seed o n : Nat} {met : Bool} {vs : List F32} :
    Ok kd z0 (quantOut slot fmt seed o n met vs : M (Nat × List Nat)) := by
  have := @tally_keeps
  have := @overflowM_keeps
  unfold quantOut
  exact goM

/-! ### Pages -/

theorem tabRead_keeps {z0 : State} {s : State} {w : Who} {pa n : Nat} (h : Keeps kd z0 s) :
    Keeps kd z0 (tabRead s w pa n).1 := by
  have := @addFault_keeps
  have := @rowsRead_keeps
  unfold tabRead
  exact go2

theorem tabRd_keeps {z0 : State} {pa n : Nat}  :
    Ok kd z0 ((tabRd pa n) : M (List Byte)) := by
  have := @tabRead_keeps
  unfold tabRd
  exact goM

theorem rootEntry_keeps {z0 : State} {root i : Nat}  :
    Ok kd z0 ((rootEntry root i) : M Nat) := by
  have := @tabRd_keeps
  unfold rootEntry
  exact goM

theorem seqRec_keeps {z0 : State} {root seq : Nat}  :
    Ok kd z0 ((seqRec root seq) : M SeqRec) := by
  have := @tabRd_keeps
  have := @rootEntry_keeps
  unfold seqRec
  exact goM

theorem seqLen_keeps {z0 : State} {root seq layer : Nat}  :
    Ok kd z0 ((seqLen root seq layer) : M Nat) := by
  have := @tabRd_keeps
  have := @rootEntry_keeps
  unfold seqLen
  exact goM

theorem theRoot_keeps {z0 : State}   :
    Ok kd z0 (theRoot : M Nat) := by
  unfold theRoot
  exact goM

theorem poolLeaf_keeps {z0 : State} {root va : Nat}  :
    Ok kd z0 ((poolLeaf root va) : M (Option Nat)) := by
  have := @walkFrom_keeps
  unfold poolLeaf
  exact goM

theorem pageAt_keeps {z0 : State} {root : Nat} {hd : Shape} {seq layer head page : Nat}  :
    Ok kd z0 ((pageAt root hd seq layer head page) : M (Option PageAt)) := by
  have := @poolLeaf_keeps
  unfold pageAt
  exact goM

theorem frameRd_keeps {z0 : State} {va base off n : Nat}  :
    Ok kd z0 ((frameRd va base off n) : M (List Byte)) := by
  have := @paRead_keeps
  have := @faultM_keeps
  unfold frameRd
  exact goM

theorem pageSlots_keeps {z0 : State} {hd : Shape} {va page : Nat} {pg : PageAt} {occ : Bool}  :
    Ok kd z0 ((pageSlots hd va page pg occ) : M (List Bool)) := by
  have := @frameRd_keeps
  unfold pageSlots
  exact goM

theorem pageVec_keeps {z0 : State} {slot : Nat} {hd : Shape} {va : Nat} {pg : PageAt} {isV : Bool} {j hdim thr : Nat}  :
    Ok kd z0 ((pageVec slot hd va pg isV j hdim thr) : M (List (List Elem))) := by
  have := @useBlock_keeps
  have := @frameRd_keeps
  unfold pageVec
  exact goM

theorem entries_keeps {z0 : State} {va n : Nat}  :
    Ok kd z0 ((entries va n) : M (List Nat)) := by
  have := @rd_keeps
  unfold entries
  exact goM

end Sys2Proof.Machine
end

