-- ==== Sys2Proof/Laws/FrameKernels.lean ====
section
/-! SUPPORT. What the work of the block leaves as it is: channel kernels. Each lemma has the name of the definition that it is about. -/

namespace Sys2Proof.Machine

open Sys2Proof

set_option Elab.async false
variable {kd : Kind}

/-! ### Attn -/

theorem scores_keeps {z0 : State} {cols : List Col} {slot : Nat} {q : List (List Elem)}  :
    Ok kd z0 ((scores cols slot q) : M (List F32)) := by
  have := @tallyG_keeps
  have := @chkAll_keeps
  unfold scores
  exact goM

theorem probCodes_keeps {z0 : State} {e : AEnv} {r : Nat} {m : F32} {zs : List (Col × F32)}  :
    Ok kd z0 ((probCodes e r m zs) : M (List (Nat × Nat))) := by
  have := @chk_keeps
  unfold probCodes
  exact goM

theorem valueRow_keeps {z0 : State} {e : AEnv} {ag : List (List (List Elem))} {slot : Nat} {codes : List (Nat × Nat)} :
    Ok kd z0 (valueRow e ag slot codes : M (List F32)) := by
  have := @tallyG_keeps
  unfold valueRow
  exact goM

theorem rowTile_keeps {z0 : State} {e : AEnv} {cols : List Col} {ag : List (List (List Elem))} {vis : List Bool} {row : QRow} {st : Chain}  :
    Ok kd z0 ((rowTile e cols ag vis row st) : M (Chain × List (Nat × Nat))) := by
  have := @tallyG_keeps
  have := @tallyNan_keeps
  have := @modPipe_keeps
  have := @chk_keeps
  have := @chkAll_keeps
  have := @scores_keeps
  have := @probCodes_keeps
  have := @valueRow_keeps
  unfold rowTile
  exact goM

theorem mergeChain_keeps {z0 : State} {g : TableGen} {a b : Chain}  :
    Ok kd z0 ((mergeChain g a b) : M Chain) := by
  have := @chk_keeps
  have := @chkAll_keeps
  unfold mergeChain
  exact goM

theorem finishRow_keeps {z0 : State} {g : TableGen} {st : Chain}  :
    Ok kd z0 ((finishRow g st) : M (List F32 × F32 × F32)) := by
  have := @modPipe_keeps
  have := @chk_keeps
  have := @chkAll_keeps
  unfold finishRow
  exact goM

theorem passWork_keeps {z0 : State} {role c rows : Nat}  :
    Ok kd z0 ((passWork role c rows) : M Unit) := by
  have := @addWork_keeps
  have := @rows_keeps
  unfold passWork
  exact goM

theorem keepChains_keeps {z0 : State} {a b : List Chain} :
    Ok kd z0 (keepChains a b : M Unit) := by
  unfold keepChains
  exact goM

theorem loadTile_keeps {z0 : State} {l : Load} :
    Ok kd z0 (loadTile l : M Unit) := by
  unfold loadTile
  exact goM

theorem loadPair_keeps {z0 : State} {e : AEnv} {role c : Nat} {cs : List Col} :
    Ok kd z0 (loadPair e role c cs : M Unit) := by
  have := @loadTile_keeps
  unfold loadPair
  exact goM

theorem runTiles_keeps {z0 : State} {e : AEnv} {role : Nat} {rows : List QRow} {tiles : Nat} {cols : Nat → M (List Col)} {fill : List Col → M (List Col)} {vis : QRow → Col → Bool} {fold : List Col → List (List (Nat × Nat)) → M Unit} (hcols : ∀ x0, Ok kd z0 (cols x0)) (hfill : ∀ x0, Ok kd z0 (fill x0)) (hfold : ∀ x0 x1, Ok kd z0 (fold x0 x1)) :
    Ok kd z0 ((runTiles e role rows tiles cols fill vis fold) : M (List Chain)) := by
  have := @modPipe_keeps
  have := @rowTile_keeps
  have := @mergeChain_keeps
  have := @passWork_keeps
  have := @keepChains_keeps
  have := @loadPair_keeps
  unfold runTiles
  exact goM

theorem queryRow_keeps {z0 : State} {c : Cmd} {slot hdim : Nat} {esc : List (Nat × List F32)} {co : List Nat}  :
    Ok kd z0 ((queryRow c slot hdim esc co) : M (List (List Elem))) := by
  have := @rdVec_keeps
  have := @rdFly_keeps
  unfold queryRow
  exact goM

theorem keyVecs_keeps {z0 : State} {slot : Nat} {d : Desc} {fmt orient hdim thr : Nat} {esc : List (Nat × List F32)} {c2 n lim : Nat} {co : Nat → List Nat}  :
    Ok kd z0 ((keyVecs slot d fmt orient hdim thr esc c2 n lim co) : M (List (List (List Elem)))) := by
  have := @rdVec_keeps
  have := @rdCols_keeps
  unfold keyVecs
  exact goM

theorem fillPages_keeps {z0 : State} {slot : Nat} {hd : Shape} {va : Col → Nat} {hdim thr : Nat} {cs : List Col}  :
    Ok kd z0 ((fillPages slot hd va hdim thr cs) : M (List Col)) := by
  have := @pageVec_keeps
  unfold fillPages
  exact goM

theorem pageCols_keeps {z0 : State} {root : Nat} {hd : Shape} {seq layer head page c0 len : Nat} {occ : Bool}  :
    Ok kd z0 ((pageCols root hd seq layer head page c0 len occ) : M (List Col)) := by
  have := @pageAt_keeps
  have := @pageSlots_keeps
  unfold pageCols
  exact goM

theorem countSlowPages_keeps {z0 : State} {p : Nat} {cs : List Col}  :
    Ok kd z0 ((countSlowPages p cs) : M Unit) := by
  have := @bump_keeps
  unfold countSlowPages
  exact goM

/-! ### Forward -/

theorem lenTab_keeps {z0 : State} {c : Cmd}  :
    Ok kd z0 ((lenTab c) : M (List (Nat × Nat))) := by
  have := @rd_keeps
  unfold lenTab
  exact goM

theorem shapeRefs_keeps {z0 : State} {c : Cmd} {tensor : Bool} {per most : Nat} :
    Ok kd z0 (shapeRefs c tensor per most : M (List Ref)) := by
  unfold shapeRefs
  exact goM

theorem fwdRefs_keeps {z0 : State} {p : Nat} {c : Cmd}  :
    Ok kd z0 ((fwdRefs p c) : M (List Ref)) := by
  have := @seqRec_keeps
  have := @theRoot_keeps
  have := @shapeRefs_keeps
  unfold fwdRefs
  exact goM

theorem fillTensor_keeps {z0 : State} {slot : Nat} {c : Cmd} {ik iv : Nat} {escK escV : List (Nat × List F32)} {j b lim : Nat} {cs : List Col}  :
    Ok kd z0 ((fillTensor slot c ik iv escK escV j b lim cs) : M (List Col)) := by
  have := @keyVecs_keeps
  unfold fillTensor
  exact goM

theorem seqCols_keeps {z0 : State} {root : Nat} {hd : Shape} {seq layer head t len : Nat} {occ : Bool}  :
    Ok kd z0 ((seqCols root hd seq layer head t len occ) : M (List Col)) := by
  have := @pageCols_keeps
  unfold seqCols
  exact goM

theorem fwdUnit_keeps {z0 : State} {p role : Nat} {c : Cmd} {v : Nat} {first : Bool}  :
    Ok kd z0 ((fwdUnit p role c v first) : M Unit) := by
  have := @wr_keeps
  have := @wrFloats_keeps
  have := @escRead_keeps
  have := @seqLen_keeps
  have := @theRoot_keeps
  have := @finishRow_keeps
  have := @runTiles_keeps
  have := @queryRow_keeps
  have := @fillPages_keeps
  have := @countSlowPages_keeps
  have := @fillTensor_keeps
  have := @seqCols_keeps
  have := @rows_keeps
  unfold fwdUnit
  exact goJ

/-! ### Backward -/

theorem bwdRefs_keeps {z0 : State} {c : Cmd}  :
    Ok kd z0 ((bwdRefs c) : M (List Ref)) := by
  have := @shapeRefs_keeps
  unfold bwdRefs
  exact goM

theorem bwdPair_keeps {z0 : State} {slot : Nat} {e : AEnv} {scale s dp l d : F32} :
    Ok kd z0 (bwdPair slot e scale s dp l d : M (F32 × F32)) := by
  have := @chk_keeps
  have := @tallyNan_keeps
  unfold bwdPair
  exact goM

theorem dsRow_keeps {z0 : State} {c : Cmd} {slot : Nat} {n : Nat → Nat} {live : Nat → Bool} {vs : Nat → F32}  :
    Ok kd z0 ((dsRow c slot n live vs) : M (List (List Elem))) := by
  have := @flyBlock_keeps
  unfold dsRow
  exact goM

theorem addGrad_keeps {z0 : State} {acc : Option (List F32)} {v : List F32}  :
    Ok kd z0 ((addGrad acc v) : M (Option (List F32))) := by
  have := @chkAll_keeps
  unfold addGrad
  exact goM

theorem joinGrad_keeps {z0 : State} {a b : Option (List F32)}  :
    Ok kd z0 ((joinGrad a b) : M (Option (List F32))) := by
  have := @chkAll_keeps
  unfold joinGrad
  exact goM

theorem burstWork_keeps {z0 : State} {role ch rows : Nat} {isB : Bool} :
    Ok kd z0 (burstWork role ch rows isB : M Unit) := by
  have := @addWork_keeps
  have := @rows_keeps
  unfold burstWork
  exact goM

theorem aRowTile_keeps {z0 : State} {c : Cmd} {e : AEnv} {scale : F32} {cols : List Col} {agK : List (List (List Elem))} {vis : List Bool} {row : ARow} {acc : Option (List F32) × Bool}  :
    Ok kd z0 ((aRowTile c e scale cols agK vis row acc) : M (Option (List F32) × Bool)) := by
  have := @tallyG_keeps
  have := @chkAll_keeps
  have := @scores_keeps
  have := @bwdPair_keeps
  have := @dsRow_keeps
  have := @addGrad_keeps
  unfold aRowTile
  exact goM

theorem bwdAUnit_keeps {z0 : State} {role : Nat} {c : Cmd} {v : Nat} {first : Bool}  :
    Ok kd z0 ((bwdAUnit role c v first) : M Unit) := by
  have := @modPipe_keeps
  have := @chk_keeps
  have := @wr_keeps
  have := @rdF32_keeps
  have := @rdFloats_keeps
  have := @wrFloats_keeps
  have := @escRead_keeps
  have := @rdVec_keeps
  have := @queryRow_keeps
  have := @fillTensor_keeps
  have := @joinGrad_keeps
  have := @burstWork_keeps
  have := @aRowTile_keeps
  have := @tallyNan_keeps
  have := @keepChains_keeps
  have := @loadPair_keeps
  have := @rows_keeps
  unfold bwdAUnit
  exact goM

theorem bRowTile_keeps {z0 : State} {c : Cmd} {e : AEnv} {scale : F32} {nBase : Nat} {cols : List BCol} {agQ agD : List (List (List Elem))} {vis : List Bool} {slot tile : Nat} {kq vq : List (List Elem)} {acc : KGrad}  :
    Ok kd z0 ((bRowTile c e scale nBase cols agQ agD vis slot tile kq vq acc) : M KGrad) := by
  have := @tallyG_keeps
  have := @chkAll_keeps
  have := @scores_keeps
  have := @bwdPair_keeps
  have := @dsRow_keeps
  have := @addGrad_keeps
  unfold bRowTile
  exact goM

theorem wrGrad_keeps {z0 : State} {c : Cmd} {i hdim : Nat} {co : List Nat} {flag : Bool} {v : Option (List F32)}  :
    Ok kd z0 ((wrGrad c i hdim co flag v) : M Unit) := by
  have := @wrFloats_keeps
  unfold wrGrad
  exact goM

theorem loadLD_keeps {z0 : State} {chain : Nat} {l : List (Word × Word)} :
    Ok kd z0 (loadLD chain l : M Unit) := by
  unfold loadLD
  exact goM

theorem bwdBUnit_keeps {z0 : State} {role : Nat} {c : Cmd} {v : Nat} {first : Bool}  :
    Ok kd z0 ((bwdBUnit role c v first) : M Unit) := by
  have := @modPipe_keeps
  have := @rd_keeps
  have := @escRead_keeps
  have := @rdVec_keeps
  have := @joinGrad_keeps
  have := @burstWork_keeps
  have := @bRowTile_keeps
  have := @wrGrad_keeps
  have := @tallyNan_keeps
  have := @keepChains_keeps
  have := @loadPair_keeps
  have := @loadLD_keeps
  have := @rows_keeps
  unfold bwdBUnit
  exact goM

/-! ### Generation -/

theorem readTables_keeps {z0 : State} {c : Cmd}  :
    Ok kd z0 ((readTables c) : M Cmd) := by
  have := @rd_keeps
  have := @entries_keeps
  have := @lenTab_keeps
  unfold readTables
  exact goM

theorem dEnt_keeps {z0 : State} {root : Nat} {c : Cmd} {e : Nat}  :
    Ok kd z0 ((dEnt root c e) : M DEnt) := by
  have := @seqLen_keeps
  unfold dEnt
  exact goM

theorem entRefs_keeps {z0 : State} {root : Nat} {c : Cmd}  :
    Ok kd z0 ((entRefs root c) : M (List Ref)) := by
  have := @seqRec_keeps
  have := @dEnt_keeps
  unfold entRefs
  exact goM

theorem decRefs_keeps {z0 : State} {p : Nat} {c : Cmd}  :
    Ok kd z0 ((decRefs p c) : M (List Ref)) := by
  have := @seqLen_keeps
  have := @theRoot_keeps
  have := @entRefs_keeps
  have := @seqRec_keeps
  unfold decRefs
  exact goM

theorem decRow_keeps {z0 : State} {c : Cmd} {x : DEnt} {slot : Nat} {esc : List (Nat × List F32)} {r : Nat}  :
    Ok kd z0 ((decRow c x slot esc r) : M QRow) := by
  have := @queryRow_keeps
  unfold decRow
  exact goM

theorem withCtx_keeps {z0 : State} {α : Type} {x : Ctx} {m : M α} (hm : Ok kd z0 m) :
    Ok kd z0 ((withCtx x m) : M α) := by
  unfold withCtx
  exact goM

theorem freshBytes_keeps {z0 : State} {n : Nat} :
    Ok kd z0 (freshBytes n : M (List Byte)) := by
  have := @freshWord_keeps
  unfold freshBytes
  exact goM

theorem wrAside_keeps {z0 : State} {va : Nat} {bs : List Byte} :
    Ok kd z0 (wrAside va bs : M Unit) := by
  have := @vwrite_keeps
  unfold wrAside
  exact goM

theorem bounceOpd_keeps {z0 : State} {d : Desc} {o : Opd} :
    Ok kd z0 (bounceOpd d o : M Unit) := by
  have := @freshBytes_keeps
  have := @wrAside_keeps
  unfold bounceOpd
  exact goM

theorem bounceAll_keeps {z0 : State} {c : Cmd} :
    Ok kd z0 (bounceAll c : M Unit) := by
  have := @bounceOpd_keeps
  unfold bounceAll
  exact goM

theorem jobsOf_keeps {z0 : State} {ix : Nat} {x : Ctx} {c : Cmd} {rows : List Nat}  :
    Ok kd z0 ((jobsOf ix x c rows) : M (List SwJob)) := by
  have := @escRead_keeps
  have := @theRoot_keeps
  have := @dEnt_keeps
  have := @decRow_keeps
  have := @withCtx_keeps
  have := @bounceAll_keeps
  have := @rows_keeps
  unfold jobsOf
  exact goM

theorem sharedCols_keeps {z0 : State} {hd : Shape} {x : SwJob} {t : Nat}  :
    Ok kd z0 ((sharedCols hd x t) : M (List Col)) := by
  have := @theRoot_keeps
  have := @pageCols_keeps
  unfold sharedCols
  exact goM

theorem recount_keeps {z0 : State} {slot thr : Nat} {es : List Elem} :
    Ok kd z0 (recount slot thr es : M Unit) := by
  have := @useBlock_keeps
  unfold recount
  exact goM

theorem fillShared_keeps {z0 : State} {p : Nat} {hd : Shape} {x : SwJob} {held cs : List Col}  :
    Ok kd z0 ((fillShared p hd x held cs) : M (List Col)) := by
  have := @fillPages_keeps
  have := @countSlowPages_keeps
  have := @recount_keeps
  unfold fillShared
  exact goM

theorem swarmTile_keeps {z0 : State} {p role : Nat} {s0 : State} {hd : Shape} {jobs : List SwJob} {t : Nat} {acc : List (List Chain × List Chain)}  :
    Ok kd z0 ((swarmTile p role s0 hd jobs t acc) : M (List (List Chain × List Chain))) := by
  have := @modPipe_keeps
  have := @rowTile_keeps
  have := @passWork_keeps
  have := @withCtx_keeps
  have := @sharedCols_keeps
  have := @fillShared_keeps
  have := @loadPair_keeps
  have : ∀ (o : Option SwJob) (f : SwJob → M PUnit), (∀ x, Ok kd z0 (f x)) → Ok kd z0 (o.forM f) := fun o f h => by
    cases o
    · exact ok_pure
    · exact h _
  unfold swarmTile
  exact goM

theorem swarmUnit_keeps {z0 : State} {p role : Nat} {cmds : List (Ctx × Cmd × List Nat)}  :
    Ok kd z0 ((swarmUnit p role cmds) : M Unit) := by
  have := @wr_keeps
  have := @mergeChain_keeps
  have := @withCtx_keeps
  have := @jobsOf_keeps
  have := @swarmTile_keeps
  have := @keepChains_keeps
  have := @rows_keeps
  unfold swarmUnit
  exact goM

theorem privateList_keeps {z0 : State} {c : Cmd} {x : DEnt} {v : Nat}  :
    Ok kd z0 ((privateList c x v) : M (List (Option Nat))) := by
  have := @rd_keeps
  unfold privateList
  exact goM

theorem privateCols_keeps {z0 : State} {root : Nat} {hd : Shape} {c : Cmd} {x : DEnt} {j : Nat} {lanes : List (Option Nat)}  :
    Ok kd z0 ((privateCols root hd c x j lanes) : M (List Col)) := by
  have := @pageCols_keeps
  unfold privateCols
  exact goM

theorem addSum_keeps {z0 : State} {addr v : Nat}  :
    Ok kd z0 ((addSum addr v) : M Unit) := by
  unfold addSum
  exact goM

theorem foldCodes_keeps {z0 : State} {hd : Shape} {cs : List Col} {codes : List (List (Nat × Nat))}  :
    Ok kd z0 ((foldCodes hd cs codes) : M Unit) := by
  have := @addSum_keeps
  unfold foldCodes
  exact goM

theorem loadMasks_keeps {z0 : State} {l : List Nat} :
    Ok kd z0 (loadMasks l : M Unit) := by
  unfold loadMasks
  exact goM

theorem decUnit_keeps {z0 : State} {p role : Nat} {c : Cmd} {v : Nat} {first : Bool}  :
    Ok kd z0 ((decUnit p role c v first) : M Unit) := by
  have := @rd_keeps
  have := @wr_keeps
  have := @wrFloats_keeps
  have := @escRead_keeps
  have := @rdVec_keeps
  have := @seqRec_keeps
  have := @theRoot_keeps
  have := @mergeChain_keeps
  have := @finishRow_keeps
  have := @runTiles_keeps
  have := @fillPages_keeps
  have := @countSlowPages_keeps
  have := @dEnt_keeps
  have := @decRow_keeps
  have := @privateList_keeps
  have := @privateCols_keeps
  have := @foldCodes_keeps
  have := @loadMasks_keeps
  have := @rows_keeps
  unfold decUnit
  exact goM

theorem selRefs_keeps {z0 : State} {p : Nat} {c : Cmd}  :
    Ok kd z0 ((selRefs p c) : M (List Ref)) := by
  have := @theRoot_keeps
  have := @entRefs_keeps
  unfold selRefs
  exact goM

theorem summaryRow_keeps {z0 : State} {slot : Nat} {hd : Shape} {va : Nat} {pg : PageAt} {mode hdim thr : Nat}  :
    Ok kd z0 ((summaryRow slot hd va pg mode hdim thr) : M (List (List Elem) × List (List Elem))) := by
  have := @useBlock_keeps
  have := @frameRd_keeps
  have := @countSlowPg_keeps
  unfold summaryRow
  exact goM

theorem selectWork_keeps {z0 : State} {role np rows fmt : Nat} {cols : Nat → List (Nat × List Elem)} :
    Ok kd z0 (selectWork role np rows fmt cols : M Unit) := by
  have := @addWork_keeps
  have := @loadTile_keeps
  have := @rows_keeps
  unfold selectWork
  exact goM

theorem selUnit_keeps {z0 : State} {p role : Nat} {c : Cmd} {v : Nat} {first : Bool}  :
    Ok kd z0 ((selUnit p role c v first) : M Unit) := by
  have := @freshWord_keeps
  have := @tallyG_keeps
  have := @chk_keeps
  have := @wr_keeps
  have := @escRead_keeps
  have := @theRoot_keeps
  have := @pageAt_keeps
  have := @dEnt_keeps
  have := @decRow_keeps
  have := @summaryRow_keeps
  have := @selectWork_keeps
  have := @rows_keeps
  unfold selUnit
  exact goM

/-! ### RowUnits -/

theorem rdFlat_keeps {z0 : State} {d : Desc} {fmt i0 n : Nat}  :
    Ok kd z0 ((rdFlat d fmt i0 n) : M (List F32)) := by
  have := @rd_keeps
  unfold rdFlat
  exact goM

theorem rdElems_keeps {z0 : State} {slot : Nat} {d : Desc} {fmt i0 n : Nat}  :
    Ok kd z0 ((rdElems slot d fmt i0 n) : M (List F32)) := by
  have := @tally_keeps
  have := @tallyNan_keeps
  have := @chkAll_keeps
  have := @rd_keeps
  have := @rdFlat_keeps
  unfold rdElems
  exact goM

theorem wrFlat_keeps {z0 : State} {key : Nat} {d : Desc} {fmt i0 : Nat} {vs : List F32}  :
    Ok kd z0 ((wrFlat key d fmt i0 vs) : M Unit) := by
  have := @overflowM_keeps
  have := @wr_keeps
  unfold wrFlat
  exact goM

theorem outBlock_keeps {z0 : State} {c : Cmd} {slot fmt n : Nat} {vs : List F32}  :
    Ok kd z0 ((outBlock c slot fmt n vs) : M (Nat × List Nat)) := by
  have := @overflowM_keeps
  have := @quantOut_keeps
  unfold outBlock
  exact goM

theorem wrBlocks_keeps {z0 : State} {c : Cmd} {key slot : Nat} {d : Desc} {fmt i0 : Nat} {vs : List F32}  :
    Ok kd z0 ((wrBlocks c key slot d fmt i0 vs) : M Unit) := by
  have := @wr_keeps
  have := @outBlock_keeps
  unfold wrBlocks
  exact goM

theorem wrEscs_keeps {z0 : State} {c : Cmd} {es : List (Nat × List Nat)}  :
    Ok kd z0 ((wrEscs c es) : M Unit) := by
  have := @faultM_keeps
  have := @wr_keeps
  unfold wrEscs
  exact goM

theorem chkNan_keeps {z0 : State} {slot : Nat} {x : F32} :
    Ok kd z0 (chkNan slot x : M F32) := by
  have := @chk_keeps
  have := @tallyNan_keeps
  unfold chkNan
  exact goM

theorem softmaxUnit_keeps {z0 : State} {c : Cmd} {v : Nat}  :
    Ok kd z0 ((softmaxUnit c v) : M Unit) := by
  have := @tallyNan_keeps
  have := @modPipe_keeps
  have := @chk_keeps
  have := @wr_keeps
  have := @rdFloats_keeps
  have := @wrFloats_keeps
  have := @chkNan_keeps
  unfold softmaxUnit
  exact goM

theorem fnUnit_keeps {z0 : State} {c : Cmd} {v : Nat}  :
    Ok kd z0 ((fnUnit c v) : M Unit) := by
  have := @tallyNan_keeps
  have := @chk_keeps
  have := @rdFlat_keeps
  have := @wrFlat_keeps
  have := @chkNan_keeps
  unfold fnUnit
  exact goM

theorem rdVector_keeps {z0 : State} {va fmt n : Nat}  :
    Ok kd z0 ((rdVector va fmt n) : M (List F32)) := by
  have := @rd_keeps
  unfold rdVector
  exact goM

theorem zeroVarM_keeps {z0 : State} {α : Type} {v : Nat} :
    Ok kd z0 (zeroVarM v : M α) := by
  have := @faultM_keeps
  unfold zeroVarM
  exact goM

theorem normUnit_keeps {z0 : State} {c : Cmd} {v : Nat}  :
    Ok kd z0 ((normUnit c v) : M Unit) := by
  have := @tallyNan_keeps
  have := @modPipe_keeps
  have := @chk_keeps
  have := @chkAll_keeps
  have := @wr_keeps
  have := @rdFloats_keeps
  have := @wrFloats_keeps
  have := @rdVector_keeps
  have := @zeroVarM_keeps
  unfold normUnit
  exact goJ

theorem rotBases_keeps {z0 : State} {c : Cmd}  :
    Ok kd z0 ((rotBases c) : M (List Nat)) := by
  have := @rd_keeps
  have := @rows_keeps
  unfold rotBases
  exact goM

theorem rotRefs_keeps {z0 : State} {c : Cmd}  :
    Ok kd z0 ((rotRefs c) : M (List Ref)) := by
  have := @rotBases_keeps
  have := @rows_keeps
  unfold rotRefs
  exact goM

theorem rotUnit_keeps {z0 : State} {c : Cmd} {v : Nat}  :
    Ok kd z0 ((rotUnit c v) : M Unit) := by
  have := @tallyNan_keeps
  have := @chk_keeps
  have := @rdFloats_keeps
  have := @wrFloats_keeps
  have := @wrBlocks_keeps
  have := @rdVector_keeps
  have := @rotBases_keeps
  have := @rows_keeps
  unfold rotUnit
  exact goM

theorem xferOnce_keeps {z0 : State} {c : Cmd}  :
    Ok kd z0 ((xferOnce c) : M Nat) := by
  have := @rdElems_keeps
  have := @wrFlat_keeps
  have := @wrBlocks_keeps
  have := @wrEscs_keeps
  have := @bounceAll_keeps
  unfold xferOnce
  exact goM

theorem feedOnce_keeps {z0 : State} {c : Cmd}  :
    Ok kd z0 ((feedOnce c) : M Nat) := by
  have := @iqAdd_keeps
  have := @rd_keeps
  have := @bounceAll_keeps
  unfold feedOnce
  exact goM

end Sys2Proof.Machine
end

