-- ==== Sys2Proof/Laws/FramePool.lean ====
section
/-! SUPPORT. What the work of the block leaves as it is: the pool and its pressure. Each lemma has the name of the definition that it is about. -/

namespace Sys2Proof.Machine

open Sys2Proof

set_option Elab.async false
variable {kd : Kind}

/-! ### Pool -/

theorem partM_keeps {z0 : State}   :
    Ok kd z0 (partM : M Nat) := by
  unfold partM
  exact goM

theorem getP_keeps {z0 : State}   :
    Ok kd z0 (getP : M Pool) := by
  have := @partM_keeps
  unfold getP
  exact goM

theorem modP_keeps {z0 : State} {f : Pool → Pool}  :
    Ok kd z0 ((modP f) : M Unit) := by
  have := @updPool_keeps
  have := @partM_keeps
  unfold modP
  exact goM

theorem shapeM_keeps {z0 : State}   :
    Ok kd z0 (shapeM : M Shape) := by
  have := @partM_keeps
  unfold shapeM
  exact goM

theorem modTx_keeps {z0 : State} {f : Tx → Tx}  :
    Ok kd z0 ((modTx f) : M Unit) := by
  unfold modTx
  exact goM

theorem tabWr_keeps {z0 : State} {pa : Nat} {bs : List Byte}  :
    Ok kd z0 ((tabWr pa bs) : M Unit) := by
  have := @rowsWrite_keeps
  have := @faultM_keeps
  unfold tabWr
  exact goM

theorem putFrame_keeps {z0 : State} {s : State} {p f v : Nat} (h : Keeps kd z0 s) :
    Keeps kd z0 (putFrame s p f v) := by
  have := @rowsWrite_keeps
  unfold putFrame
  exact go2

theorem frameCount_keeps {z0 : State} {f : Nat}  :
    Ok kd z0 ((frameCount f) : M Nat) := by
  have := @tabRd_keeps
  have := @partM_keeps
  unfold frameCount
  exact goM

theorem freeTail_keeps {z0 : State} {s : State} {p f : Nat} (h : Keeps kd z0 s) :
    Keeps kd z0 (freeTail s p f) := by
  have := @updPool_keeps
  have := @putFrame_keeps
  unfold freeTail
  exact go2

theorem reclaim_keeps {z0 : State} {s : State} {p : Nat} (h : Keeps kd z0 s) :
    Keeps kd z0 (reclaim s p) := by
  have := @bump_keeps
  have := @updPool_keeps
  have := @freeTail_keeps
  unfold reclaim
  exact go2

theorem takePin_keeps {z0 : State} {s : State} {p : Nat} (h : Keeps kd z0 s) :
    KeepsO kd z0 (takePin s p) := by
  have := @updPool_keeps
  unfold takePin
  exact go2

theorem dropPin_keeps {z0 : State} {s : State} {p instar : Nat} (h : Keeps kd z0 s) :
    Keeps kd z0 (dropPin s p instar) := by
  have := @updPool_keeps
  have := @reclaim_keeps
  unfold dropPin
  exact go2

theorem takeGranule_keeps {z0 : State} {s : State} {p : Nat} (h : Keeps kd z0 s) :
    KeepsP kd z0 (takeGranule s p) := by
  have := @updPool_keeps
  unfold takeGranule
  exact go2

theorem takeNode_keeps {z0 : State}   :
    Ok kd z0 (takeNode : M Nat) := by
  have := @partM_keeps
  have := @modTx_keeps
  have := @takeGranule_keeps
  unfold takeNode
  exact goM

theorem newNode_keeps {z0 : State}   :
    Ok kd z0 (newNode : M Nat) := by
  have := @tabWr_keeps
  have := @takeNode_keeps
  unfold newNode
  exact goM

theorem ownCopy_keeps {z0 : State} {g : Nat}  :
    Ok kd z0 ((ownCopy g) : M Nat) := by
  have := @tabRd_keeps
  have := @modTx_keeps
  have := @tabWr_keeps
  have := @takeNode_keeps
  unfold ownCopy
  exact goM

theorem dropNode_keeps {z0 : State} {g : Nat}  :
    Ok kd z0 ((dropNode g) : M Unit) := by
  have := @modP_keeps
  have := @modTx_keeps
  unfold dropNode
  exact goM

theorem entRd_keeps {z0 : State} {g i : Nat}  :
    Ok kd z0 ((entRd g i) : M Nat) := by
  have := @tabRd_keeps
  unfold entRd
  exact goM

theorem entWr_keeps {z0 : State} {g i v : Nat}  :
    Ok kd z0 ((entWr g i v) : M Unit) := by
  have := @tabWr_keeps
  unfold entWr
  exact goM

theorem ownRoot_keeps {z0 : State}   :
    Ok kd z0 (ownRoot : M Nat) := by
  have := @modTx_keeps
  have := @ownCopy_keeps
  unfold ownRoot
  exact goM

theorem ownChild_keeps {z0 : State} {g i : Nat} {make : Bool}  :
    Ok kd z0 ((ownChild g i make) : M (Option Nat)) := by
  have := @newNode_keeps
  have := @ownCopy_keeps
  have := @entRd_keeps
  have := @entWr_keeps
  unfold ownChild
  exact goM

theorem ownSeqNode_keeps {z0 : State} {seq : Nat} {make : Bool}  :
    Ok kd z0 ((ownSeqNode seq make) : M (Option Nat)) := by
  have := @ownRoot_keeps
  have := @ownChild_keeps
  unfold ownSeqNode
  exact goM

theorem putLeaf_keeps {z0 : State} {va e : Nat}  :
    Ok kd z0 ((putLeaf va e) : M Unit) := by
  have := @tabRd_keeps
  have := @dropNode_keeps
  have := @entWr_keeps
  have := @ownChild_keeps
  have := @ownSeqNode_keeps
  unfold putLeaf
  exact goM

theorem dropSeqNode_keeps {z0 : State} {seq : Nat}  :
    Ok kd z0 ((dropSeqNode seq) : M Unit) := by
  have := @tabRd_keeps
  have := @dropNode_keeps
  have := @entRd_keeps
  have := @entWr_keeps
  have := @ownRoot_keeps
  have := @ownChild_keeps
  unfold dropSeqNode
  exact goM

theorem ownTable_keeps {z0 : State} {i : Nat}  :
    Ok kd z0 ((ownTable i) : M Nat) := by
  have := @newNode_keeps
  have := @ownCopy_keeps
  have := @entRd_keeps
  have := @entWr_keeps
  have := @ownRoot_keeps
  unfold ownTable
  exact goM

theorem putSeqRec_keeps {z0 : State} {seq : Nat} {x : SeqRec}  :
    Ok kd z0 ((putSeqRec seq x) : M Unit) := by
  have := @tabWr_keeps
  have := @ownTable_keeps
  unfold putSeqRec
  exact goM

theorem putLen_keeps {z0 : State} {seq layer n : Nat}  :
    Ok kd z0 ((putLen seq layer n) : M Unit) := by
  have := @tabWr_keeps
  have := @ownTable_keeps
  unfold putLen
  exact goM

theorem txRoot_keeps {z0 : State}   :
    Ok kd z0 (txRoot : M Nat) := by
  unfold txRoot
  exact goM

theorem mapPage_keeps {z0 : State} {seq layer head page f : Nat} {b : PageBits}  :
    Ok kd z0 ((mapPage seq layer head page f b) : M Unit) := by
  have := @partM_keeps
  have := @shapeM_keeps
  have := @putLeaf_keeps
  unfold mapPage
  exact goM

theorem unmapPage_keeps {z0 : State} {seq layer head page : Nat}  :
    Ok kd z0 ((unmapPage seq layer head page) : M Unit) := by
  have := @shapeM_keeps
  have := @putLeaf_keeps
  unfold unmapPage
  exact goM

theorem findPage_keeps {z0 : State} {root seq layer head page : Nat}  :
    Ok kd z0 ((findPage root seq layer head page) : M (Option Page)) := by
  have := @pageAt_keeps
  have := @partM_keeps
  have := @shapeM_keeps
  unfold findPage
  exact goM

theorem pagesOf_keeps {z0 : State} {root seq layer head : Nat}  :
    Ok kd z0 ((pagesOf root seq layer head) : M (List Page)) := by
  have := @seqLen_keeps
  have := @findPage_keeps
  unfold pagesOf
  exact goM

theorem allPagesOf_keeps {z0 : State} {root seq : Nat}  :
    Ok kd z0 ((allPagesOf root seq) : M (List Page)) := by
  have := @shapeM_keeps
  have := @pagesOf_keeps
  unfold allPagesOf
  exact goM

theorem liveSeqs_keeps {z0 : State} {root : Nat}  :
    Ok kd z0 ((liveSeqs root) : M (List (Nat × SeqRec))) := by
  have := @tabRd_keeps
  have := @entRd_keeps
  unfold liveSeqs
  exact goM

theorem refFrame_keeps {z0 : State} {f : Nat} {d : Int}  :
    Ok kd z0 ((refFrame f d) : M Unit) := by
  have := @modTx_keeps
  unfold refFrame
  exact goM

theorem unlinkFrame_keeps {z0 : State} {s : State} {p f : Nat} (h : Keeps kd z0 s) :
    Keeps kd z0 (unlinkFrame s p f) := by
  have := @updPool_keeps
  have := @putFrame_keeps
  unfold unlinkFrame
  exact go2

theorem takeFrameBut_keeps {z0 : State} {slow : Bool} {skip : Nat}  :
    Ok kd z0 ((takeFrameBut slow skip) : M Nat) := by
  have := @partM_keeps
  have := @getP_keeps
  have := @modTx_keeps
  have := @putFrame_keeps
  have := @unlinkFrame_keeps
  unfold takeFrameBut
  exact goM

theorem takeFrame_keeps {z0 : State} {slow : Bool}  :
    Ok kd z0 ((takeFrame slow) : M Nat) := by
  have := @takeFrameBut_keeps
  unfold takeFrame
  exact goM

theorem frameBase_keeps {z0 : State} {f : Nat}  :
    Ok kd z0 ((frameBase f) : M Nat) := by
  have := @partM_keeps
  unfold frameBase
  exact goM

theorem frRd_keeps {z0 : State} {f off n : Nat}  :
    Ok kd z0 ((frRd f off n) : M (List Byte)) := by
  have := @tabRd_keeps
  have := @frameBase_keeps
  unfold frRd
  exact goM

theorem frWr_keeps {z0 : State} {f off : Nat} {bs : List Byte}  :
    Ok kd z0 ((frWr f off bs) : M Unit) := by
  have := @tabWr_keeps
  have := @frameBase_keeps
  unfold frWr
  exact goM

theorem failCopy_keeps {z0 : State} {es : List (Option (Nat × Nat))} :
    Ok kd z0 (failCopy es : M Unit) := by
  unfold failCopy
  exact goM

theorem frameRows_keeps {z0 : State} {src : Nat} :
    Ok kd z0 (frameRows src : M (List (List Byte) × Option (Nat × Nat))) := by
  have := @frRd_keeps
  have := @shapeM_keeps
  unfold frameRows
  exact goM

theorem copyFrame_keeps {z0 : State} {src dst : Nat}  :
    Ok kd z0 ((copyFrame src dst) : M Unit) := by
  have := @shapeM_keeps
  have := @frRd_keeps
  have := @frWr_keeps
  have := @modTx_keeps
  have := @failCopy_keeps
  have := @frameRows_keeps
  have := @rows_keeps
  unfold copyFrame
  exact goM

theorem freshFrame_keeps {z0 : State} {f seq layer head page : Nat}  :
    Ok kd z0 ((freshFrame f seq layer head page) : M Unit) := by
  have := @shapeM_keeps
  have := @frWr_keeps
  unfold freshFrame
  exact goM

theorem isPrivate_keeps {z0 : State} {g : Page}  :
    Ok kd z0 ((isPrivate g) : M Bool) := by
  have := @frameCount_keeps
  unfold isPrivate
  exact goM

theorem pageOcc_keeps {z0 : State} {hd : Shape} {g : Page}  :
    Ok kd z0 ((pageOcc hd g) : M Nat) := by
  have := @frRd_keeps
  unfold pageOcc
  exact goM

theorem keyValues_keeps {z0 : State} {hd : Shape} {f occ : Nat}  :
    Ok kd z0 ((keyValues hd f occ) : M (List (Nat × List F32))) := by
  have := @frRd_keeps
  unfold keyValues
  exact goM

theorem summaryBytes_keeps {z0 : State} {h : Shape} {slot seed seq layer head page : Nat} {vs : List (Nat × List F32)} :
    Ok kd z0 (summaryBytes h slot seed seq layer head page vs : M (List Byte)) := by
  have := @chk_keeps
  have := @quantOut_keeps
  unfold summaryBytes
  exact goM

theorem writeSummary_keeps {z0 : State} {mon seq layer head page f occ slot : Nat} :
    Ok kd z0 (writeSummary mon seq layer head page f occ slot : M Unit) := by
  have := @partM_keeps
  have := @shapeM_keeps
  have := @frWr_keeps
  have := @keyValues_keeps
  have := @summaryBytes_keeps
  unfold writeSummary
  exact goM

theorem beginTx_keeps {z0 : State}   :
    Ok kd z0 (beginTx : M Unit) := by
  have := @getP_keeps
  have := @modTx_keeps
  unfold beginTx
  exact goM

theorem commitTx_keeps {z0 : State}   :
    Ok kd z0 (commitTx : M Unit) := by
  have := @bump_keeps
  have := @partM_keeps
  have := @getP_keeps
  have := @modP_keeps
  have := @modTx_keeps
  have := @putFrame_keeps
  have := @frameCount_keeps
  have := @freeTail_keeps
  have := @reclaim_keeps
  have := @entWr_keeps
  unfold commitTx
  exact goM

theorem undoCounts_asc {before after : Words} (h : wordsAsc after) : wordsAsc (undoCounts before after) := by
  unfold undoCounts
  extract_lets ofPool
  have h0 := h.filter fun e => !(ofPool e)
  generalize before.filter ofPool = l
  generalize after.filter (fun e => !(ofPool e)) = w at h0 ⊢
  induction l generalizing w with
  | nil => exact h0
  | cons e l ih => exact ih _ (wordsSet_asc h0)

theorem undoEdit_keeps {z0 : State} {before after : Run} (hb : Keeps kd z0 before.s) (ha : Keeps kd z0 after.s) :
    Keeps kd z0 (undoEdit before after) := by
  have := @updPool_keeps
  have := @freeTail_keeps
  have h0 : Keeps kd z0 { after.s with
      mem := before.s.mem
      live := undoCounts before.s.live after.s.live } :=
    ⟨ha.fixed, hb.mem, fun o => ⟨(ha.ord o).1, (ha.ord o).2.1, undoCounts_asc (ha.ord o).2.2.1, (ha.ord o).2.2.2⟩⟩
  have := @unlinkFrame_keeps
  unfold undoEdit
  exact go2

theorem editM_keeps {z0 : State} {α : Type} {m : M α} (hm : Ok kd z0 m) : Ok kd z0 (editM m) := by
  have := @beginTx_keeps
  have := @commitTx_keeps
  have h1 : Ok kd z0 (do
      beginTx
      let a ← m
      commitTx
      return a) := goM
  have := @getP_keeps
  unfold editM
  refine ok_bind getP_keeps fun x => ?_
  extract_lets k jp
  suffices hj : ∀ u, Ok kd z0 (jp u) from ok_ite (ok_bind ok_throw hj) (hj ())
  intro u
  refine ok_get fun r hr => ?_
  have hk : Ok kd z0 k := h1
  split
  · next h2 => exact ok_bind (ok_set (run_of h2 hk hr)) fun _ => ok_pure
  · next h2 =>
    have := run_of h2 hk hr
    refine ok_bind (ok_set (Keeps.upd.2 ?_)) fun _ => ok_throw
    split
    · exact hr
    · exact undoEdit_keeps hr this

theorem spansOf_keeps {z0 : State} {root : Nat} {c : Cmd}  :
    Ok kd z0 ((spansOf root c) : M (List (Nat × Nat × Nat))) := by
  have := @seqLen_keeps
  unfold spansOf
  exact goM

theorem appPlan_keeps {z0 : State} {root : Nat} {c : Cmd}  :
    Ok kd z0 ((appPlan root c) : M (List (Nat × Nat × Nat × Option Page))) := by
  have := @shapeM_keeps
  have := @frameCount_keeps
  have := @findPage_keeps
  have := @spansOf_keeps
  unfold appPlan
  exact goM

theorem sourceVec_keeps {z0 : State} {c : Cmd} {isV : Bool} {hd : Shape} {seq layer head pos q : Nat}  :
    Ok kd z0 ((sourceVec c isV hd seq layer head pos q) : M (List Nat × List Nat)) := by
  have := @tally_keeps
  have := @rd_keeps
  have := @rdFloats_keeps
  have := @rdCodes_keeps
  have := @quantOut_keeps
  unfold sourceVec
  exact goM

theorem decayScores_keeps {z0 : State} {seq layer page sh : Nat}  :
    Ok kd z0 ((decayScores seq layer page sh) : M Unit) := by
  have := @shapeM_keeps
  have := @txRoot_keeps
  have := @pagesOf_keeps
  have := @frRd_keeps
  have := @frWr_keeps
  have := @isPrivate_keeps
  unfold decayScores
  exact goM

theorem writePosition_keeps {z0 : State} {c : Cmd} {hd : Shape} {g : Page} {pos q : Nat}  :
    Ok kd z0 ((writePosition c hd g pos q) : M Unit) := by
  have := @frRd_keeps
  have := @frWr_keeps
  have := @sourceVec_keeps
  unfold writePosition
  exact goM

theorem appendEdit_keeps {z0 : State} {c : Cmd}  :
    Ok kd z0 ((appendEdit c) : M Unit) := by
  have := @bump_keeps
  have := @seqRec_keeps
  have := @partM_keeps
  have := @shapeM_keeps
  have := @putLen_keeps
  have := @txRoot_keeps
  have := @mapPage_keeps
  have := @findPage_keeps
  have := @refFrame_keeps
  have := @takeFrame_keeps
  have := @copyFrame_keeps
  have := @freshFrame_keeps
  have := @pageOcc_keeps
  have := @writeSummary_keeps
  have := @spansOf_keeps
  have := @appPlan_keeps
  have := @decayScores_keeps
  have := @writePosition_keeps
  have := @bounceAll_keeps
  unfold appendEdit
  exact goM

theorem openEdit_keeps {z0 : State} {c : Cmd}  :
    Ok kd z0 ((openEdit c) : M Unit) := by
  have := @ownSeqNode_keeps
  have := @putSeqRec_keeps
  unfold openEdit
  exact goM

theorem forkEdit_keeps {z0 : State} {c : Cmd}  :
    Ok kd z0 ((forkEdit c) : M Unit) := by
  have := @seqRec_keeps
  have := @seqLen_keeps
  have := @shapeM_keeps
  have := @ownSeqNode_keeps
  have := @putSeqRec_keeps
  have := @putLen_keeps
  have := @txRoot_keeps
  have := @mapPage_keeps
  have := @allPagesOf_keeps
  have := @refFrame_keeps
  unfold forkEdit
  exact goM

theorem closeSeq_keeps {z0 : State} {q : Nat} {rec_ : SeqRec}  :
    Ok kd z0 ((closeSeq q rec_) : M Unit) := by
  have := @seqLen_keeps
  have := @shapeM_keeps
  have := @dropSeqNode_keeps
  have := @putSeqRec_keeps
  have := @putLen_keeps
  have := @txRoot_keeps
  have := @allPagesOf_keeps
  have := @refFrame_keeps
  unfold closeSeq
  exact goM

theorem seqTotal_keeps {z0 : State} {root q : Nat}  :
    Ok kd z0 ((seqTotal root q) : M Nat) := by
  have := @seqLen_keeps
  have := @shapeM_keeps
  unfold seqTotal
  exact goM

theorem freeEdit_keeps {z0 : State} {c : Cmd}  :
    Ok kd z0 ((freeEdit c) : M Nat) := by
  have := @seqRec_keeps
  have := @modP_keeps
  have := @txRoot_keeps
  have := @closeSeq_keeps
  have := @seqTotal_keeps
  unfold freeEdit
  exact goM

theorem scoreAdd_keeps {z0 : State} {u : ScoreUpd}  :
    Ok kd z0 ((scoreAdd u) : M Unit) := by
  have := @chk_keeps
  have := @tabRd_keeps
  have := @partM_keeps
  have := @tabWr_keeps
  have := @frameCount_keeps
  unfold scoreAdd
  exact goM

/-! ### Pressure -/

theorem deficitM_keeps {z0 : State} {need : Nat}  :
    Ok kd z0 ((deficitM need) : M Int) := by
  have := @partM_keeps
  unfold deficitM
  exact goM

theorem asPool_keeps {z0 : State} {α : Type} {m : M α} (hm : Ok kd z0 m) :
    Ok kd z0 ((asPool m) : M α) := by
  have := @withCtx_keeps
  unfold asPool
  exact goM

theorem openPages_keeps {z0 : State}   :
    Ok kd z0 (openPages : M (List (Page × SeqRec))) := by
  have := @getP_keeps
  have := @allPagesOf_keeps
  have := @liveSeqs_keeps
  unfold openPages
  exact goM

theorem moveFrames_keeps {z0 : State} {fs : List (Nat × List Page)} {dst : M Nat} (hdst : Ok kd z0 dst) :
    Ok kd z0 ((moveFrames fs dst) : M Unit) := by
  have := @mapPage_keeps
  have := @refFrame_keeps
  have := @copyFrame_keeps
  unfold moveFrames
  exact goM

theorem candidates_keeps {z0 : State}   :
    Ok kd z0 (candidates : M (List Cand)) := by
  have := @seqLen_keeps
  have := @getP_keeps
  have := @shapeM_keeps
  have := @frRd_keeps
  have := @isPrivate_keeps
  have := @pageOcc_keeps
  have := @openPages_keeps
  unfold candidates
  exact goM

theorem slotPinned_keeps {z0 : State} {g : Page} {slot : Nat}  :
    Ok kd z0 ((slotPinned g slot) : M Bool) := by
  have := @getP_keeps
  have := @findPage_keeps
  have := @liveSeqs_keeps
  unfold slotPinned
  exact goM

theorem evictRound_keeps {z0 : State} {mon : Nat} {cs : List Cand} :
    Ok kd z0 (evictRound mon cs : M (List (Nat × Nat × Nat))) := by
  have := @bump_keeps
  have := @partM_keeps
  have := @shapeM_keeps
  have := @mapPage_keeps
  have := @unmapPage_keeps
  have := @refFrame_keeps
  have := @frWr_keeps
  have := @pageOcc_keeps
  have := @writeSummary_keeps
  have := @slotPinned_keeps
  unfold evictRound
  exact goM

theorem compactPair_keeps {z0 : State} {a b : Page × Nat}  :
    Ok kd z0 ((compactPair a b) : M Unit) := by
  have := @bump_keeps
  have := @partM_keeps
  have := @shapeM_keeps
  have := @mapPage_keeps
  have := @refFrame_keeps
  have := @takeFrame_keeps
  have := @frRd_keeps
  have := @frWr_keeps
  have := @failCopy_keeps
  have := @frameRows_keeps
  unfold compactPair
  exact goM

theorem compactHeads_keeps {z0 : State} {hs : List (Nat × Nat × Nat)}  :
    Ok kd z0 ((compactHeads hs) : M Nat) := by
  have := @partM_keeps
  have := @shapeM_keeps
  have := @txRoot_keeps
  have := @pagesOf_keeps
  have := @isPrivate_keeps
  have := @pageOcc_keeps
  have := @compactPair_keeps
  unfold compactHeads
  exact goM

theorem compactEdit_keeps {z0 : State} {c : Cmd}  :
    Ok kd z0 ((compactEdit c) : M Nat) := by
  have := @shapeM_keeps
  have := @compactHeads_keeps
  unfold compactEdit
  exact goM

theorem countMons_keeps {z0 : State} {s : State} {p : Nat} {r : Run} (h : Keeps kd z0 s) (hr : Keeps kd z0 r.s) :
    Keeps kd z0 (countMons s p r) := by
  have := @applyMon_keeps
  unfold countMons
  exact go2

theorem flushMons_keeps {z0 : State}  :
    Ok kd z0 (flushMons  : M Unit) := by
  have := @countMons_keeps
  unfold flushMons
  exact goM

theorem evictLoop_keeps {z0 : State} {mon n need : Nat}  : Ok kd z0 (evictLoop mon n need) := by
  have := @flushMons_keeps
  have := @partM_keeps
  have := @editM_keeps
  have := @deficitM_keeps
  have := @candidates_keeps
  have := @evictRound_keeps
  have := @compactHeads_keeps
  induction n generalizing need with
  | zero =>
    unfold evictLoop
    exact goM
  | succ _ ih =>
    unfold evictLoop
    exact goM

theorem spillable_keeps {z0 : State}   :
    Ok kd z0 (spillable : M (List Page)) := by
  have := @partM_keeps
  have := @shapeM_keeps
  have := @frRd_keeps
  have := @isPrivate_keeps
  have := @openPages_keeps
  unfold spillable
  exact goM

theorem spillLoop_keeps {z0 : State} {n need : Nat}  : Ok kd z0 (spillLoop n need) := by
  have := @bump_keeps
  have := @partM_keeps
  have := @takeFrame_keeps
  have := @editM_keeps
  have := @moveFrames_keeps
  have := @spillable_keeps
  induction n generalizing need with
  | zero =>
    unfold spillLoop
    exact goM
  | succ _ ih =>
    unfold spillLoop
    exact goM

theorem backMoves_keeps {z0 : State} {keys : List (Nat × Nat × Nat × Nat)}  :
    Ok kd z0 ((backMoves keys) : M Unit) := by
  have := @bump_keeps
  have := @partM_keeps
  have := @getP_keeps
  have := @findPage_keeps
  have := @allPagesOf_keeps
  have := @liveSeqs_keeps
  have := @takeFrame_keeps
  have := @editM_keeps
  have := @moveFrames_keeps
  unfold backMoves
  exact goM

theorem wrPlain_keeps {z0 : State} {va : Nat} {bs : List Byte}  :
    Ok kd z0 ((wrPlain va bs) : M Unit) := by
  have := @vwrite_keeps
  unfold wrPlain
  exact goM

theorem frameImage_keeps {z0 : State} {hd : Shape} {g : Page}  :
    Ok kd z0 ((frameImage hd g) : M (List Byte)) := by
  have := @frRd_keeps
  have := @pageOcc_keeps
  have := @failCopy_keeps
  have := @frameRows_keeps
  have := @rows_keeps
  unfold frameImage
  exact goM

theorem imageHead_keeps {z0 : State} {root q : Nat} {extra : List Byte}  :
    Ok kd z0 ((imageHead root q extra) : M (List Byte × List Byte × List Page)) := by
  have := @seqRec_keeps
  have := @seqLen_keeps
  have := @shapeM_keeps
  have := @findPage_keeps
  unfold imageHead
  exact goM

theorem seqImage_keeps {z0 : State} {root q : Nat} {extra : List Byte}  :
    Ok kd z0 ((seqImage root q extra) : M (List (List Byte))) := by
  have := @shapeM_keeps
  have := @frameImage_keeps
  have := @imageHead_keeps
  unfold seqImage
  exact goM

theorem countSlowOf_keeps {z0 : State} {gs : List Page} :
    Ok kd z0 (countSlowOf gs : M Unit) := by
  have := @countSlowPg_keeps
  unfold countSlowOf
  exact goM

theorem imagePart_keeps {z0 : State} {root q : Nat} {extra : List Byte} {off n : Nat}  :
    Ok kd z0 ((imagePart root q extra off n) : M (List Byte)) := by
  have := @shapeM_keeps
  have := @frameImage_keeps
  have := @imageHead_keeps
  have := @countSlowOf_keeps
  unfold imagePart
  exact goM

theorem imageG_keeps {z0 : State} {root q : Nat}  :
    Ok kd z0 ((imageG root q) : M Nat) := by
  have := @seqLen_keeps
  have := @shapeM_keeps
  have := @allPagesOf_keeps
  unfold imageG
  exact goM

theorem putImage_keeps {z0 : State} {va : Nat} {l : List (List Byte)}  : Ok kd z0 (putImage va l) := by
  have := @wrPlain_keeps
  induction l generalizing va with
  | nil =>
    unfold putImage
    exact goM
  | cons _ _ ih =>
    unfold putImage
    exact goM

theorem parkSlot_keeps {z0 : State} {root q : Nat}  :
    Ok kd z0 ((parkSlot root q) : M (Option Nat)) := by
  have := @partM_keeps
  have := @getP_keeps
  have := @imageG_keeps
  unfold parkSlot
  exact goM

theorem parkEdit_keeps {z0 : State} {q slot : Nat}  :
    Ok kd z0 ((parkEdit q slot) : M Unit) := by
  have := @seqRec_keeps
  have := @modP_keeps
  have := @txRoot_keeps
  have := @closeSeq_keeps
  unfold parkEdit
  exact goM

theorem imageEdit_keeps {z0 : State} {q va : Nat}  :
    Ok kd z0 ((imageEdit q va) : M Unit) := by
  have := @rd_keeps
  have := @shapeM_keeps
  have := @ownSeqNode_keeps
  have := @putSeqRec_keeps
  have := @putLen_keeps
  have := @mapPage_keeps
  have := @refFrame_keeps
  have := @takeFrame_keeps
  have := @frWr_keeps
  unfold imageEdit
  exact goM

theorem imagePages_keeps {z0 : State} {va : Nat}  :
    Ok kd z0 ((imagePages va) : M Nat) := by
  have := @rd_keeps
  unfold imagePages
  exact goM

theorem resumeEdit_keeps {z0 : State} {c : Cmd}  :
    Ok kd z0 ((resumeEdit c) : M Unit) := by
  have := @partM_keeps
  have := @getP_keeps
  have := @modP_keeps
  have := @imageEdit_keeps
  unfold resumeEdit
  exact goM

theorem victim_keeps {z0 : State} {names : List Nat} {prio : Nat}  :
    Ok kd z0 ((victim names prio) : M (Option (Nat × Nat))) := by
  have := @getP_keeps
  have := @liveSeqs_keeps
  have := @parkSlot_keeps
  unfold victim
  exact goM

theorem parkWalk_keeps {z0 : State} {slot : Nat}  :
    Ok kd z0 ((parkWalk slot) : M Bool) := by
  have := @xlate_keeps
  have := @xlFault_keeps
  have := @partM_keeps
  have := @noPortFault_keeps
  unfold parkWalk
  exact goM

theorem preemptLoop_keeps {z0 : State} {n need : Nat} {names : List Nat} {prio : Nat}  : Ok kd z0 (preemptLoop n need names prio) := by
  have := @bump_keeps
  have := @addFault_keeps
  have := @partM_keeps
  have := @getP_keeps
  have := @modP_keeps
  have := @editM_keeps
  have := @deficitM_keeps
  have := @seqImage_keeps
  have := @putImage_keeps
  have := @parkEdit_keeps
  have := @victim_keeps
  have := @parkWalk_keeps
  induction n generalizing need names prio with
  | zero =>
    unfold preemptLoop
    exact goM
  | succ _ ih =>
    unfold preemptLoop
    exact goM

theorem relieve_keeps {z0 : State} {mon need : Nat} {names : List Nat} {prio : Nat} :
    Ok kd z0 (relieve mon need names prio : M Unit) := by
  have := @withCtx_keeps
  have := @partM_keeps
  have := @getP_keeps
  have := @deficitM_keeps
  have := @asPool_keeps
  have := @evictLoop_keeps
  have := @spillLoop_keeps
  have := @preemptLoop_keeps
  unfold relieve
  exact goM

theorem lossEditM_keeps {z0 : State}   :
    Ok kd z0 (lossEditM : M Nat) := by
  have := @seqRec_keeps
  have := @partM_keeps
  have := @putSeqRec_keeps
  have := @txRoot_keeps
  have := @openPages_keeps
  unfold lossEditM
  exact goM

theorem framesOnPort_keeps {z0 : State} {q : Nat}  :
    Ok kd z0 ((framesOnPort q) : M (List (Nat × List Page))) := by
  have := @partM_keeps
  have := @getP_keeps
  have := @allPagesOf_keeps
  have := @liveSeqs_keeps
  unfold framesOnPort
  exact goM

theorem drainEditM_keeps {z0 : State} {q : Nat}  :
    Ok kd z0 ((drainEditM q) : M Nat) := by
  have := @partM_keeps
  have := @takeFrame_keeps
  have := @moveFrames_keeps
  have := @framesOnPort_keeps
  unfold drainEditM
  exact goM

theorem moltFrames_keeps {z0 : State} {c : Cmd}  :
    Ok kd z0 ((moltFrames c) : M (List (Nat × List Page))) := by
  have := @partM_keeps
  have := @getP_keeps
  have := @allPagesOf_keeps
  unfold moltFrames
  exact goM

theorem moltLocalEdit_keeps {z0 : State} {c : Cmd}  :
    Ok kd z0 ((moltLocalEdit c) : M Nat) := by
  have := @takeFrameBut_keeps
  have := @moveFrames_keeps
  have := @moltFrames_keeps
  unfold moltLocalEdit
  exact goM

end Sys2Proof.Machine
end

