-- ==== Sys2Proof/Laws/FrameStreams.lean ====
section
/-! SUPPORT. What the work of the block leaves as it is: the life of commands, units, fetch, transfers. Each lemma has the name of the definition that it is about. -/

namespace Sys2Proof.Machine

open Sys2Proof

set_option Elab.async false
variable {kd : Kind}

/-! ### Life -/

theorem updCmd_keeps {z0 : State} {s : State} {p : Nat} {st : Strm} {stamp : Word} {f : Cmd → Cmd} (h : Keeps kd z0 s) :
    Keeps kd z0 (updCmd s p st stamp f) := by
  have := @updStrm_keeps
  unfold updCmd
  exact go2

theorem bumpFree_keeps {z0 : State} {s : State} {p off : Nat} (h : Keeps kd z0 s) :
    Keeps kd z0 (bumpFree s p off) := by
  have := @bump_keeps
  unfold bumpFree
  exact go2

theorem abandonUnits_keeps {z0 : State} {s : State} {p : Nat} {st : Strm} {stamp : Word} (h : Keeps kd z0 s) :
    Keeps kd z0 (abandonUnits s p st stamp) := by
  have := @updChan_keeps
  have := @bumpFree_keeps
  unfold abandonUnits
  exact go2

theorem withdraw_keeps {z0 : State} {s : State} {p : Nat} {st : Strm} {stamp : Word} (h : Keeps kd z0 s) :
    Keeps kd z0 (withdraw s p st stamp) := by
  have := @updPart_keeps
  unfold withdraw
  exact go2

theorem markEnd_keeps {z0 : State} {s : State} {p : Nat} {st : Strm} {stamp : Word} {status detail : Nat} (h : Keeps kd z0 s) :
    Keeps kd z0 (markEnd s p st stamp status detail) := by
  have := @updPart_keeps
  have := @updPool_keeps
  have := @updStrm_keeps
  have := @abandonUnits_keeps
  have := @withdraw_keeps
  have := @bumpFree_keeps
  unfold markEnd
  exact go2

theorem endAll_keeps {z0 : State} {s : State} {p : Nat} {st : Strm} {sel : Cmd → Bool} {status : Nat} (h : Keeps kd z0 s) :
    Keeps kd z0 (endAll s p st sel status) := by
  have := @markEnd_keeps
  unfold endAll
  exact go2

theorem abortTask_keeps {z0 : State} {s : State} {p : Nat} {st : Strm} {first : Word} (h : Keeps kd z0 s) :
    Keeps kd z0 (abortTask s p st first) := by
  have := @updStrm_keeps
  have := @endAll_keeps
  unfold abortTask
  exact go2

theorem endCmd_keeps {z0 : State} {s : State} {p : Nat} {st : Strm} {stamp : Word} {status detail : Nat} (h : Keeps kd z0 s) :
    Keeps kd z0 (endCmd s p st stamp status detail) := by
  have := @updCmd_keeps
  have := @markEnd_keeps
  have := @abortTask_keeps
  unfold endCmd
  exact go2

theorem refuseCmd_keeps {z0 : State} {s : State} {p : Nat} {st : Strm} {stamp : Word} {r : Ref} (h : Keeps kd z0 s) :
    Keeps kd z0 (refuseCmd s p st stamp r) := by
  have := @endCmd_keeps
  unfold refuseCmd
  exact go2

theorem runCancel_keeps {z0 : State} {s : State} {p : Nat} {st : Strm} (h : Keeps kd z0 s) :
    Keeps kd z0 (runCancel s p st) := by
  have := @updStrm_keeps
  have := @endAll_keeps
  unfold runCancel
  exact go2

theorem dirtyList_keeps {z0 : State} {s : State} {p : Nat} {st : Strm} {c : Cmd} {t : TaskSt} (h : Keeps kd z0 s) :
    Keeps kd z0 (dirtyList s p st c t).1 := by
  have := @entries_keeps
  have := @wrPlain_keeps
  unfold dirtyList
  exact go2

theorem readBack_keeps {z0 : State} {c : Cmd} {outs : List (Nat × Nat × Nat)} {key : Nat}  :
    Ok kd z0 ((readBack c outs key) : M (List Byte)) := by
  have := @rd_keeps
  unfold readBack
  exact goM

theorem checksums_keeps {z0 : State} {st : Strm} {c : Cmd}  :
    Ok kd z0 ((checksums st c) : M Nat) := by
  have := @partM_keeps
  have := @wrPlain_keeps
  have := @readBack_keeps
  unfold checksums
  exact goM

theorem noteOuts_keeps {z0 : State} {s : State} {p : Nat} {st : Strm} {stamp : Word} {r : Run} (h : Keeps kd z0 s) :
    Keeps kd z0 (noteOuts s p st stamp r) := by
  have := @updCmd_keeps
  unfold noteOuts
  exact go2

theorem finishChan_keeps {z0 : State} {s : State} {p : Nat} {st : Strm} {c : Cmd} (h : Keeps kd z0 s) :
    Keeps kd z0 (finishChan s p st c) := by
  have := @scores_keeps
  have := @wrEscs_keeps
  have := @scoreAdd_keeps
  have := @updCmd_keeps
  have := @endCmd_keeps
  have := @noteOuts_keeps
  have := @runWait_keeps
  unfold finishChan
  exact go2

theorem settleControl_keeps {z0 : State} {s : State} {p : Nat} {st : Strm} {c : Cmd} (h : Keeps kd z0 s) :
    Keeps kd z0 (settleControl s p st c) := by
  have := @wrPlain_keeps
  have := @updCmd_keeps
  have := @endCmd_keeps
  unfold settleControl
  exact go2

theorem settleTaskEnd_keeps {z0 : State} {s : State} {p : Nat} {st : Strm} {c : Cmd} (h : Keeps kd z0 s) :
    Keeps kd z0 (settleTaskEnd s p st c) := by
  have := @updCmd_keeps
  have := @markEnd_keeps
  have := @endCmd_keeps
  have := @dirtyList_keeps
  unfold settleTaskEnd
  exact go2

theorem refuseUnknown_keeps {z0 : State} {s : State} {p : Nat} {st : Strm} (h : Keeps kd z0 s) :
    Keeps kd z0 (refuseUnknown s p st) := by
  have := @refuseCmd_keeps
  unfold refuseUnknown
  exact go2

theorem settleRound_keeps {z0 : State} {s : State} {p : Nat} {st : Strm} (h : Keeps kd z0 s) :
    Keeps kd z0 (settleRound s p st) := by
  have := @finishChan_keeps
  have := @settleControl_keeps
  have := @settleTaskEnd_keeps
  unfold settleRound
  exact go2

theorem settle_keeps {z0 : State} {s : State} {p : Nat} (h : Keeps kd z0 s) :
    Keeps kd z0 (settle s p) := by
  have := @runCancel_keeps
  have := @refuseUnknown_keeps
  have := @settleRound_keeps
  unfold settle
  exact go2

theorem fenceTick_keeps {z0 : State} {s : State} {p : Nat} {st : Strm} (h : Keeps kd z0 s) :
    Keeps kd z0 (fenceTick s p st) := by
  have := @updStrm_keeps
  unfold fenceTick
  exact go2

theorem dropReads_keeps {z0 : State} {s : State} {f : Owner → Bool} (h : Keeps kd z0 s) :
    Keeps kd z0 (dropReads s f) := by
  unfold dropReads
  exact go2

theorem dropFetch_keeps {z0 : State} {s : State} {p : Nat} {st : Strm} (h : Keeps kd z0 s) :
    Keeps kd z0 (dropFetch s p st) := by
  have := @dropReads_keeps
  unfold dropFetch
  exact go2

theorem ringFail_keeps {z0 : State} {s : State} {p : Nat} {st : Strm} {va : Nat} (h : Keeps kd z0 s) :
    Keeps kd z0 (ringFail s p st va) := by
  have := @updStrm_keeps
  have := @addFault_keeps
  have := @dropFetch_keeps
  unfold ringFail
  exact go2

theorem advise_keeps {z0 : State} {s : State} {p : Nat} {st : Strm} {c : Cmd} (h : Keeps kd z0 s) :
    Keeps kd z0 (advise s p st c).1 := by
  have := @updPart_keeps
  unfold advise
  exact go2

theorem completeCmd_keeps {z0 : State} {s : State} {p : Nat} {st : Strm} {c : Cmd} (h : Keeps kd z0 s) :
    Keeps kd z0 (completeCmd s p st c) := by
  have := @updPart_keeps
  have := @updStrm_keeps
  have := @entries_keeps
  have := @dropPin_keeps
  have := @settle_keeps
  unfold completeCmd
  exact go2

theorem recordRun_ok {z0 s : State} {p : Nat} {st : Strm} {c n raised} {a r} (e : recordRun s p st c n raised = .ok a r) (h : Keeps kd z0 s) : Keeps kd z0 r.s :=
  ran_ok e h wrPlain_keeps
theorem recordRun_bad {z0 s t : State} {p : Nat} {st : Strm} {c n raised} {a b} (e : recordRun s p st c n raised = .bad a b t) (h : Keeps kd z0 s) : Keeps kd z0 t :=
  ran_bad e h wrPlain_keeps
theorem recordRun_host {z0 s t : State} {p : Nat} {st : Strm} {c n raised} (e : recordRun s p st c n raised = .host t) (h : Keeps kd z0 s) : Keeps kd z0 t :=
  ran_host e h wrPlain_keeps

theorem putRecord_keeps {z0 s : State} {p : Nat} {st : Strm} {c : Cmd} {n : Nat} {raised : Bool} (h : Keeps kd z0 s) : Keeps kd z0 (putRecord s p st c n raised) := by
  unfold putRecord
  rcases e : recordRun s p st c n raised with _ | _ | _ <;> simp only [Ran.fold]
  · exact completeCmd_keeps (updStrm_keeps (recordRun_ok e h))
  · exact completeCmd_keeps (ringFail_keeps (keeps_ite (recordRun_bad e h) h))
  · exact recordRun_host e h

theorem writeRecord_keeps {z0 : State} {s : State} {p : Nat} {st : Strm} {c : Cmd} (h : Keeps kd z0 s) :
    Keeps kd z0 (writeRecord s p st c) := by
  have := @advise_keeps
  have := @completeCmd_keeps
  have := @putRecord_keeps
  unfold writeRecord
  exact go2

theorem pinAsks_keeps {z0 : State} {s : State} {p : Nat} {c : Cmd} (h : Keeps kd z0 s) :
    KeepsO kd z0 (pinAsks s p c) := by
  unfold pinAsks
  refine keepsO_ite keepsO_none ?_
  cases c.pin with
  | none => exact keepsO_none
  | some n => exact keepsO_ite (keepsO_some (askRows_keeps h)) keepsO_none

theorem completeNext_keeps {z0 : State} {s : State} {p : Nat} {st : Strm} (h : Keeps kd z0 s) :
    Keeps kd z0 (completeNext s p st) := by
  have := @endCmd_keeps
  have := @checksums_keeps
  have := @writeRecord_keeps
  have := @pinAsks_keeps
  unfold completeNext
  exact go2

/-! ### Energy -/

theorem editStat_keeps {z0 : State} {α : Type} {m : M α} (hm : Ok kd z0 m) :
    Ok kd z0 ((editStat m) : M (α × Tx)) := by
  have := @editM_keeps
  unfold editStat
  exact goM

theorem charge_keeps {z0 : State} {s : State} {e : Nat} (h : Keeps kd z0 s) :
    Keeps kd z0 (charge s e) := by
  unfold charge
  exact go2

/-! ### Swarm -/

theorem sharesPrefix_keeps {z0 : State} {root : Nat} {hd : Shape} {c : Cmd} {seq j : Nat}  :
    Ok kd z0 ((sharesPrefix root hd c seq j) : M Bool) := by
  have := @pageAt_keeps
  unfold sharesPrefix
  exact goM

theorem sharedRows_keeps {z0 : State} {c : Cmd} {j : Nat}  :
    Ok kd z0 ((sharedRows c j) : M (List Nat × List (List Nat))) := by
  have := @theRoot_keeps
  have := @shapeM_keeps
  have := @sharesPrefix_keeps
  unfold sharedRows
  exact goM

theorem launch_keeps {z0 : State} {s : State} {p : Nat} {id off : Nat} (h : Keeps kd z0 s) :
    Keeps kd z0 (launch s p id off) := by
  have := @bump_keeps
  have := @updPart_keeps
  unfold launch
  exact go2

theorem soloSwarm_keeps {z0 : State} {s : State} {p : Nat} {st : Strm} {c : Cmd} {j : Nat} {rows : List Nat} (h : Keeps kd z0 s) :
    Keeps kd z0 (soloSwarm s p st c j rows) := by
  have := @updPart_keeps
  have := @launch_keeps
  have := @rows_keeps
  unfold soloSwarm
  exact go2

theorem joinSwarm_keeps {z0 : State} {s : State} {p : Nat} {c : Cmd} {j : Nat} {rows : List Nat} (h : Keeps kd z0 s) :
    Keeps kd z0 (joinSwarm s p c j rows) := by
  have := @updPart_keeps
  have := @rows_keeps
  unfold joinSwarm
  exact go2

theorem dropGroups_keeps {z0 : State} {s : State} {p : Nat} (h : Keeps kd z0 s) :
    Keeps kd z0 (dropGroups s p) := by
  have := @bumpFree_keeps
  have := @updChan_keeps
  unfold dropGroups
  exact go2

theorem launchDue_keeps {z0 : State} {s : State} {p : Nat} (h : Keeps kd z0 s) :
    Keeps kd z0 (launchDue s p) := by
  have := @launch_keeps
  have := @dropGroups_keeps
  unfold launchDue
  exact go2

theorem launchAll_keeps {z0 : State} {s : State} {p : Nat} (h : Keeps kd z0 s) :
    Keeps kd z0 (launchAll s p) := by
  have := @launch_keeps
  unfold launchAll
  exact go2

theorem joinShared_keeps {z0 : State} {s : State} {p : Nat} {st : Strm} {c : Cmd} {parts : List (List Nat × List (List Nat))} (h : Keeps kd z0 s) :
    Keeps kd z0 (joinShared s p st c parts) := by
  have := @bump_keeps
  have := @soloSwarm_keeps
  have := @joinSwarm_keeps
  have := @rows_keeps
  unfold joinShared
  exact go2

/-! ### Issue -/

theorem takeCmdPin_keeps {z0 : State} {s : State} {p : Nat} {st : Strm} {c : Cmd} (h : Keeps kd z0 s) :
    KeepsP kd z0 (takeCmdPin s p st c) := by
  have := @takePin_keeps
  have := @updCmd_keeps
  unfold takeCmdPin
  exact go2

theorem paramFail_keeps {z0 : State} {s : State} {p : Nat} {st : Strm} {c : Cmd} (h : Keeps kd z0 s) :
    Keeps kd z0 (paramFail s p st c) := by
  have := @addFault_keeps
  have := @endCmd_keeps
  unfold paramFail
  exact go2

theorem chanIssueRefs_keeps {z0 : State} {p : Nat} {c : Cmd}  :
    Ok kd z0 ((chanIssueRefs p c) : M (List Ref)) := by
  have := @fwdRefs_keeps
  have := @bwdRefs_keeps
  have := @decRefs_keeps
  have := @selRefs_keeps
  have := @rotRefs_keeps
  unfold chanIssueRefs
  exact goM

theorem planLens_keeps {z0 : State} {c : Cmd}  :
    Ok kd z0 ((planLens c) : M (List Nat)) := by
  have := @seqLen_keeps
  have := @theRoot_keeps
  unfold planLens
  exact goM

theorem chanPlan_keeps {z0 : State} {p : Nat} {c : Cmd}  :
    Ok kd z0 ((chanPlan p c) : M (Cmd × List Ref × List Nat × List (List Nat × List (List Nat)))) := by
  have := @readTables_keeps
  have := @sharedRows_keeps
  have := @chanIssueRefs_keeps
  have := @planLens_keeps
  unfold chanPlan
  exact goM

theorem chanIssued_keeps {z0 : State} {s : State} {p : Nat} {st : Strm} {c : Cmd} {lens : List Nat} {parts : List (List Nat × List (List Nat))} (h : Keeps kd z0 s) :
    Keeps kd z0 (chanIssued s p st c lens parts) := by
  have := @updCmd_keeps
  have := @endCmd_keeps
  have := @settle_keeps
  have := @launchDue_keeps
  have := @joinShared_keeps
  unfold chanIssued
  exact go2

theorem issueChan_keeps {z0 : State} {s : State} {p : Nat} {st : Strm} {c : Cmd} (h : Keeps kd z0 s) :
    Keeps kd z0 (issueChan s p st c) := by
  have := @endCmd_keeps
  have := @refuseCmd_keeps
  have := @takeCmdPin_keeps
  have := @paramFail_keeps
  have := @chanPlan_keeps
  have := @chanIssued_keeps
  unfold issueChan
  exact go2

theorem issueControl_keeps {z0 : State} {s : State} {p : Nat} {st : Strm} {c : Cmd} (h : Keeps kd z0 s) :
    Keeps kd z0 (issueControl s p st c) := by
  have := @updCmd_keeps
  have := @endCmd_keeps
  have := @refuseCmd_keeps
  have := @settle_keeps
  have := @launchDue_keeps
  unfold issueControl
  exact go2

theorem issueOp_keeps {z0 s : State} {p : Nat} {st : Strm} {op : Nat} {f : State → Nat → Strm → Cmd → State} (h : Keeps kd z0 s)
    (hf : ∀ s p st c, Keeps kd z0 s → Keeps kd z0 (f s p st c)) : Keeps kd z0 (issueOp s p st op f) := by
  unfold issueOp
  exact go2

/-! ### Edit -/

theorem seqState_keeps {z0 : State} {root q : Nat}  :
    Ok kd z0 ((seqState root q) : M Nat) := by
  have := @seqRec_keeps
  unfold seqState
  exact goM

theorem openElsewhere_keeps {z0 : State} {p q : Nat}  :
    Ok kd z0 ((openElsewhere p q) : M Bool) := by
  have := @seqState_keeps
  unfold openElsewhere
  exact goM

theorem editEntRefs_keeps {z0 : State} {p : Nat} {c : Cmd}  :
    Ok kd z0 ((editEntRefs p c) : M (List Ref)) := by
  have := @getP_keeps
  have := @shapeM_keeps
  have := @spansOf_keeps
  have := @seqState_keeps
  have := @openElsewhere_keeps
  unfold editEntRefs
  exact goM

theorem editRefs_keeps {z0 : State} {p : Nat} {c : Cmd}  :
    Ok kd z0 ((editRefs p c) : M (List Ref)) := by
  have := @editEntRefs_keeps
  unfold editRefs
  exact goM

theorem lengthSum_keeps {z0 : State} {qs : List Nat}  :
    Ok kd z0 ((lengthSum qs) : M Nat) := by
  have := @getP_keeps
  have := @seqTotal_keeps
  unfold lengthSum
  exact goM

theorem withFrames_keeps {z0 : State} {mon need : Nat} {names : List Nat} {prio : Nat} {expired : Bool} {images : List (Nat × Nat)} :
    Ok kd z0 (withFrames mon need names prio expired images : M EditRes) := by
  have := @partM_keeps
  have := @relieve_keeps
  unfold withFrames
  exact goM

theorem pinSelf_keeps {z0 : State}   :
    Ok kd z0 (pinSelf : M Unit) := by
  have := @partM_keeps
  have := @takePin_keeps
  have := @updCmd_keeps
  unfold pinSelf
  exact goM

theorem plainEdit_keeps {z0 : State} {pos : M Nat} {m : M Unit} (hpos : Ok kd z0 pos) (hm : Ok kd z0 m) :
    Ok kd z0 ((plainEdit pos m) : M EditDone) := by
  have := @editStat_keeps
  have := @pinSelf_keeps
  unfold plainEdit
  exact goM

theorem namedPrio_keeps {z0 : State} {c : Cmd}  :
    Ok kd z0 ((namedPrio c) : M Nat) := by
  have := @seqRec_keeps
  have := @getP_keeps
  unfold namedPrio
  exact goM

theorem moltImages_keeps {z0 : State} {c : Cmd} :
    Ok kd z0 (moltImages c : M (Except Nat (List (Nat × Nat)))) := by
  have := @rd_keeps
  have := @shapeM_keeps
  have := @partM_keeps
  unfold moltImages
  exact goM

theorem parkAll_keeps {z0 : State} {c : Cmd} {slots : List Nat}  :
    Ok kd z0 ((parkAll c slots) : M Unit) := by
  have := @parkEdit_keeps
  unfold parkAll
  exact goM

theorem parkSlotsOf_keeps {z0 : State} {c : Cmd}  :
    Ok kd z0 ((parkSlotsOf c) : M (Option (List Nat))) := by
  have := @partM_keeps
  have := @getP_keeps
  have := @imageG_keeps
  unfold parkSlotsOf
  exact goM

theorem editRun_keeps {z0 : State} {p : Nat} {c0 : Cmd} {expired : Bool}  :
    Ok kd z0 ((editRun p c0 expired) : M (Cmd × EditRes)) := by
  have := @faultM_keeps
  have := @rd_keeps
  have := @readTables_keeps
  have := @getP_keeps
  have := @appPlan_keeps
  have := @appendEdit_keeps
  have := @openEdit_keeps
  have := @forkEdit_keeps
  have := @freeEdit_keeps
  have := @compactEdit_keeps
  have := @seqImage_keeps
  have := @putImage_keeps
  have := @imageEdit_keeps
  have := @imagePages_keeps
  have := @resumeEdit_keeps
  have := @moltFrames_keeps
  have := @moltLocalEdit_keeps
  have := @editRefs_keeps
  have := @lengthSum_keeps
  have := @withFrames_keeps
  have := @pinSelf_keeps
  have := @plainEdit_keeps
  have := @namedPrio_keeps
  have := @moltImages_keeps
  have := @parkSlotsOf_keeps
  have := @allPagesOf_keeps
  have := @countSlowOf_keeps
  unfold editRun
  exact goM

theorem setWait_keeps {z0 : State} {s : State} {p : Nat} {st : Strm} {stamp : Word} {short : Nat} (h : Keeps kd z0 s) :
    Keeps kd z0 (setWait s p st stamp short) := by
  have := @updPool_keeps
  have := @updCmd_keeps
  unfold setWait
  exact go2

theorem noFrameEnd_keeps {z0 : State} {s : State} {p : Nat} {st : Strm} {stamp : Word} {cause short : Nat} (h : Keeps kd z0 s) :
    Keeps kd z0 (noFrameEnd s p st stamp cause short) := by
  have := @bump_keeps
  have := @addFault_keeps
  have := @endCmd_keeps
  unfold noFrameEnd
  exact go2

theorem parkFullEnd_keeps {z0 : State} {s : State} {p : Nat} {st : Strm} {stamp : Word} (h : Keeps kd z0 s) :
    Keeps kd z0 (parkFullEnd s p st stamp) := by
  have := @bump_keeps
  have := @addFault_keeps
  have := @endCmd_keeps
  unfold parkFullEnd
  exact go2

theorem unpin_keeps {z0 : State} {s : State} {p : Nat} {st : Strm} {stamp : Word} (h : Keeps kd z0 s) :
    Keeps kd z0 (unpin s p st stamp) := by
  have := @dropPin_keeps
  have := @updCmd_keeps
  unfold unpin
  exact go2

theorem editMade_keeps {z0 : State} {p : Nat} {st : Strm} {c : Cmd} {d : EditDone} {r : Run} (hr : Keeps kd z0 r.s) :
    Keeps kd z0 (editMade p st c d r) := by
  have := @updCmd_keeps
  have := @endCmd_keeps
  have := @countMons_keeps
  have := @charge_keeps
  unfold editMade
  exact go2

theorem editBody_keeps {z0 : State} {c : Cmd} {expired : Bool} {images : List (Nat × Nat)} :
    Ok kd z0 (editBody c expired images : M EditDone) := by
  have := @appendEdit_keeps
  have := @imageEdit_keeps
  have := @lengthSum_keeps
  have := @plainEdit_keeps
  have := @resumeEdit_keeps
  unfold editBody
  exact goM

theorem editFits_keeps {z0 : State} {s0 : State} {p : Nat} {st : Strm} {c : Cmd} {d : EditDone} {r : Run} (h : Keeps kd z0 s0)
    (hr : Keeps kd z0 r.s) : Keeps kd z0 (editFits s0 p st c d r) := by
  unfold editFits
  exact keeps_ite h (editMade_keeps hr)

theorem endPinned_keeps {z0 : State} {s : State} {p : Nat} {st : Strm} {stamp : Word} {f : State → State} (h : Keeps kd z0 s)
    (hf : ∀ t, Keeps kd z0 t → Keeps kd z0 (f t)) : Keeps kd z0 (endPinned s p st stamp f) := by
  have := @takeCmdPin_keeps
  have := hf s h
  unfold endPinned
  split
  · exact h
  · refine keeps_ite this ?_
    split
    · exact h
    · next e => exact hf _ (keepsP_of (takeCmdPin_keeps h) e)

theorem editStopped_keeps {z0 : State} {s : State} {p : Nat} {st : Strm} {c : Cmd} {expired : Bool} {e d : Nat} (h : Keeps kd z0 s) :
    Keeps kd z0 (editStopped s p st c expired e d) := by
  have := @endCmd_keeps
  have := @endPinned_keeps
  have := @noFrameEnd_keeps
  have := @setWait_keeps
  have := @unpin_keeps
  unfold editStopped
  exact go2

theorem startEdit_keeps {z0 : State} {s0 : State} {p : Nat} {st : Strm} {c0 : Cmd} {expired : Bool} (h : Keeps kd z0 s0) :
    Keeps kd z0 (startEdit s0 p st c0 expired) := by
  have := @endCmd_keeps
  have := @refuseCmd_keeps
  have := @editRun_keeps
  have := @setWait_keeps
  have := @noFrameEnd_keeps
  have := @parkFullEnd_keeps
  have := @unpin_keeps
  have := @editMade_keeps
  have := @editBody_keeps
  have := @editFits_keeps
  have := @editStopped_keeps
  have := @endPinned_keeps
  unfold startEdit
  exact go2

theorem finishPark_keeps {z0 : State} {s : State} {p : Nat} {st : Strm} {c : Cmd} (h : Keeps kd z0 s) :
    Keeps kd z0 (finishPark s p st c) := by
  have := @updCmd_keeps
  have := @endCmd_keeps
  have := @editStat_keeps
  have := @parkAll_keeps
  have := @parkSlotsOf_keeps
  have := @setWait_keeps
  have := @parkFullEnd_keeps
  unfold finishPark
  exact go2

theorem prefetchKeys_keeps {z0 : State} {c0 : Cmd}  :
    Ok kd z0 ((prefetchKeys c0) : M (List (Nat × Nat × Nat × Nat))) := by
  have := @seqLen_keeps
  have := @theRoot_keeps
  have := @readTables_keeps
  have := @dEnt_keeps
  have := @privateList_keeps
  have := @shapeM_keeps
  unfold prefetchKeys
  exact goM

theorem prefetchList_keeps {z0 : State} {s : State} {p : Nat} {x : Prefetch} (h : Keeps kd z0 s) :
    Keeps kd z0 (prefetchList s p x).1 := by
  have := @dropHost_keeps
  have := @prefetchKeys_keeps
  unfold prefetchList
  exact go2

theorem prefetchStep_keeps {z0 : State} {s : State} {p : Nat} (h : Keeps kd z0 s) :
    Keeps kd z0 (prefetchStep s p) := by
  have := @backMoves_keeps
  have := @prefetchList_keeps
  have := @updPool_keeps
  unfold prefetchStep
  exact go2

theorem editStep_keeps {z0 : State} {s : State} {p : Nat} {st : Strm} {c : Cmd} (h : Keeps kd z0 s) :
    Keeps kd z0 (editStep s p st c) := by
  have := @settle_keeps
  have := @launchDue_keeps
  have := @paramFail_keeps
  have := @startEdit_keeps
  have := @prefetchStep_keeps
  unfold editStep
  exact go2

theorem editOp_keeps {z0 : State} {s : State} {p : Nat} {st : Strm} {op : Nat} (h : Keeps kd z0 s) :
    Keeps kd z0 (editOp s p st op) := by
  have := @issueOp_keeps
  have := @editStep_keeps
  unfold editOp
  exact go2

theorem waitExpired_keeps {z0 : State} {s : State} {p : Nat} (h : Keeps kd z0 s) :
    Keeps kd z0 (waitExpired s p) := by
  have := @updPool_keeps
  have := @settle_keeps
  have := @launchDue_keeps
  have := @noFrameEnd_keeps
  have := @startEdit_keeps
  have := @prefetchStep_keeps
  unfold waitExpired
  exact go2

/-! ### Ring -/

theorem ringUnit_keeps {z0 : State} {role : Nat} {c : Cmd} {v : Nat} {first : Bool}  :
    Ok kd z0 ((ringUnit role c v first) : M Unit) := by
  have := @rd_keeps
  have := @wr_keeps
  have := @wrFloats_keeps
  have := @escRead_keeps
  have := @rdVec_keeps
  have := @mergeChain_keeps
  have := @finishRow_keeps
  have := @runTiles_keeps
  have := @queryRow_keeps
  have := @rows_keeps
  unfold ringUnit
  exact goM

/-! ### Units -/

theorem applyMap_keeps {z0 : State} {s : State} {n : Nat} (h : Keeps kd z0 s) :
    Keeps kd z0 (applyMap s n) := by
  have := @updChan_keeps
  unfold applyMap
  exact go2

theorem refuseStranded_keeps {z0 : State} {s : State} {p : Nat} (h : Keeps kd z0 s) :
    Keeps kd z0 (refuseStranded s p) := by
  have := @endCmd_keeps
  unfold refuseStranded
  exact go2

theorem newMap_keeps {z0 : State} {s : State} {n : Nat} (h : Keeps kd z0 s) :
    Keeps kd z0 (newMap s n) := by
  have := @applyMap_keeps
  have := @refuseStranded_keeps
  unfold newMap
  exact go2

theorem rewriteBank_keeps {z0 : State} {s : State} {n : Nat} (h : Keeps kd z0 s) :
    Keeps kd z0 (rewriteBank s n) := by
  have := @bump_keeps
  have := @updChan_keeps
  unfold rewriteBank
  exact go2

theorem atEdge_keeps {z0 : State} {s : State} {n : Nat} (h : Keeps kd z0 s) :
    Keeps kd z0 (atEdge s n) := by
  have := @newMap_keeps
  have := @rewriteBank_keeps
  unfold atEdge
  exact go2

theorem boundary_keeps {z0 : State} {s : State} {n : Nat} (h : Keeps kd z0 s) :
    Keeps kd z0 (boundary s n) := by
  have := @updChan_keeps
  have := @applyMap_keeps
  have := @atEdge_keeps
  unfold boundary
  exact go2

theorem boundaries_keeps {z0 : State} {s : State} (h : Keeps kd z0 s) :
    Keeps kd z0 (boundaries s) := by
  have := @boundary_keeps
  unfold boundaries
  exact go2

theorem startCmd_keeps {z0 : State} {s : State} {p : Nat} {st : Strm} {stamp : Word} (h : Keeps kd z0 s) :
    Keeps kd z0 (startCmd s p st stamp) := by
  have := @updCmd_keeps
  unfold startCmd
  exact go2

theorem nextValue_keeps {z0 : State} {s : State} {p : Nat} {st : Strm} {c : Cmd} (h : Keeps kd z0 s) :
    Keeps kd z0 (nextValue s p st c) := by
  have := @updPart_keeps
  have := @updCmd_keeps
  unfold nextValue
  exact go2

theorem chargeUnit_keeps {z0 : State} {s : State} {ch e : Nat} (h : Keeps kd z0 s) :
    Keeps kd z0 (chargeUnit s ch e) := by
  have := @updChan_keeps
  have := @charge_keeps
  unfold chargeUnit
  exact go2

theorem grant_keeps {z0 : State} {s : State} {p ch : Nat} {o : Offer} (h : Keeps kd z0 s) :
    Keeps kd z0 (grant s p ch o) := by
  have := @updPart_keeps
  have := @updChan_keeps
  have := @startCmd_keeps
  have := @nextValue_keeps
  have := @chargeUnit_keeps
  unfold grant
  exact go2

theorem takeUnit_keeps {z0 : State} {s : State} {ch : Nat} (h : Keeps kd z0 s) :
    Keeps kd z0 (takeUnit s ch) := by
  have := @applyMap_keeps
  have := @grant_keeps
  have := @atEdge_keeps
  unfold takeUnit
  exact go2

theorem unit_ok {z0 s : State} {x : Ctx} {m : M Unit} {r : Run} (e : runUnit s x m = .ok r) (hs : Keeps kd z0 s) (hm : Ok kd z0 m) : Keeps kd z0 r.s := by
  unfold runUnit at e
  have h1 := hm.of (Run.of s x) hs
  dsimp only at e
  split at e
  · cases e
  · split at e
    · cases e; exact h1
    · cases e
theorem unit_bad {z0 s : State} {x : Ctx} {m : M Unit} {r : Run} {y d} (e : runUnit s x m = .bad y d r) (hs : Keeps kd z0 s) (hm : Ok kd z0 m) : Keeps kd z0 r.s := by
  unfold runUnit at e
  have h1 := hm.of (Run.of s x) hs
  dsimp only at e
  split at e
  · cases e
  · split at e
    · cases e
    · cases e; exact h1
theorem unit_host {z0 s t : State} {x : Ctx} {m : M Unit} (e : runUnit s x m = .host t) (hs : Keeps kd z0 s) : Keeps kd z0 t := by
  unfold runUnit at e
  dsimp only at e
  split at e
  · next hw => cases e; exact keepsO_of (runWait_keeps hs) hw
  · split at e <;> cases e
theorem goU {p : Prop} (h : p := by
  repeat' (first
    | (with_reducible assumption)
    | (with_reducible refine keeps_ite ?_ ?_)
    | (with_reducible refine foldl_keeps ?_ ?_)
    | (with_reducible refine keeps_ite₁ ?_ ?_)
    | (with_reducible refine foldl_keeps₁ ?_ ?_)
    | (with_reducible exact id)
    | (with_reducible exact fun h => memPut_wf h _ _)
    | (with_reducible intro _)
    | (with_reducible apply_assumption (transparency := .reducible) -exfalso -symm)
    | (with_reducible exact keepsO_none)
    | (with_reducible exact keepsP_none)
    | (with_reducible refine keepsO_some ?_)
    | (with_reducible refine keepsP_some ?_)
    | (with_reducible refine keepsO_ite ?_ ?_)
    | (with_reducible refine keepsP_ite ?_ ?_)
    | (with_reducible refine keepsO_getD ?_ ?_)
    | (with_reducible refine ran_ok ‹ranM _ _ _ = .ok _ _› ?_ ?_)
    | (with_reducible refine ran_bad ‹ranM _ _ _ = .bad _ _ _› ?_ ?_)
    | (with_reducible refine ran_host ‹ranM _ _ _ = .host _› ?_ ?_)
    | (with_reducible refine run_of₀ ‹runM _ (Run.of _ _) = _› ?_ ?_)
    | (with_reducible refine run_of ‹runM _ _ = _› ?_ ?_)
    | (with_reducible refine unit_ok ‹runUnit _ _ _ = .ok _› ?_ ?_)
    | (with_reducible refine unit_bad ‹runUnit _ _ _ = .bad _ _ _› ?_ ?_)
    | (with_reducible refine unit_host ‹runUnit _ _ _ = .host _› ?_)
    | (with_reducible refine fst_of ?_ ‹_ = (_, _)›)
    | (with_reducible refine keepsO_of ?_ ‹_ = some _›)
    | (with_reducible refine keepsP_of ?_ ‹_ = some (_, _)›)
    | (with_reducible refine ok_get ?_)
    | (with_reducible refine ok_getS ?_)
    | (with_reducible refine ok_bind ?_ ?_)
    | (with_reducible exact ok_pure)
    | (with_reducible refine ok_ite ?_ ?_)
    | (with_reducible refine ok_forM ?_)
    | (with_reducible refine ok_mapM ?_)
    | (with_reducible refine ok_map ?_)
    | (with_reducible exact ok_throw)
    | (with_reducible exact ok_get0)
    | (with_reducible exact ok_getS0)
    | (with_reducible refine ok_set ?_)
    | (with_reducible refine ok_modify ?_)
    | (with_reducible refine ok_modS ?_)
    | (with_reducible refine ok_foldlM ?_)
    | (with_reducible refine ok_anyM ?_)
    | (with_reducible refine ok_allM ?_)
    | (with_reducible refine ok_filterMapM ?_)
    | (with_reducible refine ok_findSomeM? ?_)
    | (with_reducible refine ok_tryCatch ?_ ?_)
    | split
    | (simp only [Keeps.upd])
    | (with_reducible refine Keeps.put ?_ ?_)
    | (with_reducible refine Keeps.clear ?_ ?_)
    | dsimp only
    )) : p := h

theorem unitBody_keeps {z0 : State} {p role : Nat} {c : Cmd} {v : Nat}  :
    Ok kd z0 ((unitBody p role c v) : M Unit) := by
  have := @fwdUnit_keeps
  have := @bwdAUnit_keeps
  have := @bwdBUnit_keeps
  have := @decUnit_keeps
  have := @selUnit_keeps
  have := @softmaxUnit_keeps
  have := @fnUnit_keeps
  have := @normUnit_keeps
  have := @rotUnit_keeps
  have := @ringUnit_keeps
  have := @bounceAll_keeps
  unfold unitBody
  exact goM

theorem applyLoad_keeps {z0 : State} {s : State} {ch : Nat} {l : Load} (h : Keeps kd z0 s) :
    Keeps kd z0 (applyLoad s ch l) := by
  have := @updArray_keeps
  unfold applyLoad
  exact go2

theorem applyRun_keeps {z0 : State} {s : State} {ch : Nat} {r : Run} (h : Keeps kd z0 s) (hr : Keeps kd z0 r.s) :
    Keeps kd z0 (applyRun s ch r) := by
  have := @applyMon_keeps
  have := @applyPipe_keeps
  have := @applyArr_keeps
  have := @updChan_keeps
  have := @applyLoad_keeps
  unfold applyRun
  exact go2

theorem letGo_keeps {z0 : State} {s : State} {ch : Nat} (h : Keeps kd z0 s) :
    Keeps kd z0 (letGo s ch) := by
  have := @updChan_keeps
  unfold letGo
  exact go2

theorem endUnit_keeps {z0 : State} {s : State} {ch : Nat} {u : UnitHold} {c : Cmd} (h : Keeps kd z0 s) :
    Keeps kd z0 (endUnit s ch u c) := by
  have := @dropHost_keeps
  have := @updCmd_keeps
  have := @endCmd_keeps
  have := @unitBody_keeps
  have := @applyRun_keeps
  have := @letGo_keeps
  unfold endUnit
  exact goU

theorem endGroup_keeps {z0 : State} {s : State} {ch : Nat} {u : UnitHold} {w : Swarm} (h : Keeps kd z0 s) :
    Keeps kd z0 (endGroup s ch u w) := by
  unfold endGroup
  extract_lets p cs after
  have ha : ∀ {t : State} {r : Run}, Keeps kd z0 t → Keeps kd z0 r.s → Keeps kd z0 (after t r) := by
    intro t r h1 h2
    exact foldl_keeps (applyRun_keeps (letGo_keeps h1) h2) fun _ _ h => updCmd_keeps (dropHost_keeps h)
  clear_value after cs
  split
  · exact letGo_keeps h
  · split
    · exact unit_host ‹_› h
    · next e => exact ha (unit_ok e h swarmUnit_keeps) (unit_ok e h swarmUnit_keeps)
    · next e =>
      exact foldl_keeps (ha (unit_bad e h swarmUnit_keeps) (unit_bad e h swarmUnit_keeps)) fun _ _ h => endCmd_keeps h

theorem pruneSwarms_keeps {z0 : State} {s : State} {p : Nat} (h : Keeps kd z0 s) :
    Keeps kd z0 (pruneSwarms s p) := by
  have := @updPart_keeps
  unfold pruneSwarms
  exact go2

theorem upsetUnit_keeps {z0 : State} {s : State} {ch : Nat} {u : UnitHold} {e : UnitUpset} (h : Keeps kd z0 s) :
    Keeps kd z0 (upsetUnit s ch u e) := by
  have := @bump_keeps
  have := @addFault_keeps
  have := @endCmd_keeps
  have := @letGo_keeps
  have := @corrected_keeps
  have := @updChan_keeps
  unfold upsetUnit
  exact go2

theorem unitDone_keeps {z0 : State} {s : State} {ch : Nat} {u : UnitHold} (h : Keeps kd z0 s) :
    Keeps kd z0 (unitDone s ch u) := by
  have := @endGroup_keeps
  have := @endUnit_keeps
  have := @letGo_keeps
  unfold unitDone
  exact go2

theorem unitEnd_keeps {z0 : State} {s : State} {ch : Nat} {upset : Option UnitUpset} (h : Keeps kd z0 s) :
    Keeps kd z0 (unitEnd s ch upset) := by
  have := @settle_keeps
  have := @launchDue_keeps
  have := @boundary_keeps
  have := @letGo_keeps
  have := @endUnit_keeps
  have := @endGroup_keeps
  have := @pruneSwarms_keeps
  have := @upsetUnit_keeps
  have := @bump_keeps
  have := @corrected_keeps
  have := @unitDone_keeps
  unfold unitEnd
  exact go2

/-! ### Fetch -/

theorem prefetchBack_keeps {z0 : State} {s : State} {p : Nat} {st : Strm} {c : Cmd} (h : Keeps kd z0 s) :
    Keeps kd z0 (prefetchBack s p st c) := by
  have := @asPool_keeps
  have := @backMoves_keeps
  have := @prefetchKeys_keeps
  have := @updPool_keeps
  have := @prefetchStep_keeps
  unfold prefetchBack
  exact go2

theorem readParam_keeps {z0 : State} {s : State} {p : Nat} {st : Strm} {stamp : Word} {va n : Nat} (h : Keeps kd z0 s) :
    Keeps kd z0 (readParam s p st stamp va n).1 := by
  have := @dropHost_keeps
  have := @rd_keeps
  unfold readParam
  exact go2

theorem takeRecord_keeps {z0 : State} {s : State} {p : Nat} {st : Strm} {record param : List Byte} {err detail : Nat} (h : Keeps kd z0 s) :
    Keeps kd z0 (takeRecord s p st record param err detail) := by
  have := @updStrm_keeps
  have := @dropHost_keeps
  have := @entries_keeps
  have := @markEnd_keeps
  have := @settle_keeps
  have := @prefetchBack_keeps
  unfold takeRecord
  exact go2

theorem setPolling_keeps {z0 : State} {s : State} {p : Nat} {st : Strm} {b : Bool} (h : Keeps kd z0 s) :
    Keeps kd z0 (setPolling s p st b) := by
  have := @updStrm_keeps
  unfold setPolling
  exact go2

theorem slotRead_ok {z0 s : State} {p : Nat} {st : Strm} {va : Nat} {a r} (e : slotRead s p st va = .ok a r) (h : Keeps kd z0 s) : Keeps kd z0 r.s :=
  ran_ok e h rd_keeps
theorem slotRead_bad {z0 s t : State} {p : Nat} {st : Strm} {va : Nat} {a b} (e : slotRead s p st va = .bad a b t) (h : Keeps kd z0 s) : Keeps kd z0 t :=
  ran_bad e h rd_keeps
theorem slotRead_host {z0 s t : State} {p : Nat} {st : Strm} {va : Nat} (e : slotRead s p st va = .host t) (h : Keeps kd z0 s) : Keeps kd z0 t :=
  ran_host e h rd_keeps

theorem slotTake_keeps {z0 : State} {s : State} {p : Nat} {st : Strm} {bs : List Byte} (h : Keeps kd z0 s) :
    Keeps kd z0 (slotTake s p st bs).1 := by
  have := @dropHost_keeps
  have := @readParam_keeps
  have := @takeRecord_keeps
  have := @setPolling_keeps
  unfold slotTake
  exact go2

theorem pollOnce_keeps {z0 s : State} {p : Nat} {st : Strm} (h : Keeps kd z0 s) : Keeps kd z0 (pollOnce s p st).1 := by
  unfold pollOnce
  dsimp only
  split
  · exact setPolling_keeps h
  · split
    · next e => exact setPolling_keeps (slotRead_host e h)
    · next e => exact ringFail_keeps (dropHost_keeps (keeps_ite (slotRead_bad e h) h))
    · next e => exact slotTake_keeps (slotRead_ok e h)

theorem pollLoop_keeps {z0 : State} {n : Nat} {s : State} {p : Nat} {st : Strm} (h : Keeps kd z0 s) : Keeps kd z0 (pollLoop n s p st) := by
  have := @setPolling_keeps
  have := @pollOnce_keeps
  induction n generalizing s p st with
  | zero =>
    unfold pollLoop
    exact go2
  | succ _ ih =>
    unfold pollLoop
    exact go2

theorem ringPoll_keeps {z0 : State} {s : State} {p : Nat} {st : Strm} (h : Keeps kd z0 s) :
    Keeps kd z0 (ringPoll s p st) := by
  have := @launchDue_keeps
  have := @pollLoop_keeps
  unfold ringPoll
  exact go2

theorem setBusy_keeps {z0 : State} {s : State} {p b : Nat} (h : Keeps kd z0 s) :
    Keeps kd z0 (setBusy s p b) := by
  have := @setLive_keeps
  unfold setBusy
  exact go2

theorem armStream_keeps {z0 : State} {s : State} {p : Nat} {st : Strm} (h : Keeps kd z0 s) :
    Keeps kd z0 (armStream s p st) := by
  have := @updStrm_keeps
  have := @setBusy_keeps
  unfold armStream
  exact go2

theorem disarmStream_keeps {z0 : State} {s : State} {p : Nat} {st : Strm} (h : Keeps kd z0 s) :
    Keeps kd z0 (disarmStream s p st) := by
  have := @updStrm_keeps
  have := @dropReads_keeps
  have := @dropFetch_keeps
  unfold disarmStream
  exact go2

theorem writeArm_keeps {z0 : State} {s : State} {v : Nat} (h : Keeps kd z0 s) :
    Keeps kd z0 (writeArm s v) := by
  have := @armStream_keeps
  have := @disarmStream_keeps
  unfold writeArm
  exact go2

theorem writeCuntil_keeps {z0 : State} {s : State} {v : Word} (h : Keeps kd z0 s) :
    Keeps kd z0 (writeCuntil s v) := by
  have := @updStrm_keeps
  unfold writeCuntil
  exact go2

theorem writeCancel_keeps {z0 : State} {s : State} {v : Nat} (h : Keeps kd z0 s) :
    Keeps kd z0 (writeCancel s v) := by
  have := @updStrm_keeps
  have := @settle_keeps
  have := @launchDue_keeps
  unfold writeCancel
  exact go2

/-! ### Transfer -/

theorem issueTransfer_keeps {z0 : State} {s : State} {p : Nat} {st : Strm} {c : Cmd} (h : Keeps kd z0 s) :
    Keeps kd z0 (issueTransfer s p st c) := by
  have := @updCmd_keeps
  have := @endCmd_keeps
  have := @refuseCmd_keeps
  have := @takeCmdPin_keeps
  have := @paramFail_keeps
  unfold issueTransfer
  exact go2

theorem updSlot_keeps {z0 : State} {s : State} {p k : Nat} {f : XSlot → XSlot} (h : Keeps kd z0 s) :
    Keeps kd z0 (updSlot s p k f) := by
  have := @updPart_keeps
  unfold updSlot
  exact go2

theorem moveData_keeps {z0 s : State} {p k : Nat} (h : Keeps kd z0 s) : Keeps kd z0 (moveData s p k) := by
  have := @applyMon_keeps
  have := @countMons_keeps
  unfold moveData
  split
  · exact h
  · split
    · exact h
    · split
      · exact h
      · next c _ =>
        dsimp only
        have hm : Ok kd z0 (if c.op = opXFER then xferOnce c else feedOnce c) := ok_ite xferOnce_keeps feedOnce_keeps
        have hr : ∀ x, Keeps kd z0 (runM (if c.op = opXFER then xferOnce c else feedOnce c) (Run.of s x)).2.s := fun x => hm.of (Run.of s x) h
        have hc : ∀ {r : Run} {b : Prop} [Decidable b] {ch : Nat} {o : Owner}, Keeps kd z0 r.s → Keeps kd z0
            (dropHost (if b then countMons r.s p r else r.mons.foldl (fun s m => applyMon s ch m.1 m.2) r.s) o) :=
          fun h => dropHost_keeps (keeps_ite (countMons_keeps h h) (foldl_keeps h fun _ _ h => applyMon_keeps h))
        split
        · exact keepsO_of (runWait_keeps h) ‹_›
        · split
          · exact updSlot_keeps (updCmd_keeps (hc (hr _)))
          · exact endCmd_keeps (updCmd_keeps (hc (hr _)))

theorem settleSlot_keeps {z0 : State} {s : State} {p k : Nat} (h : Keeps kd z0 s) :
    Keeps kd z0 (settleSlot s p k) := by
  have := @updCmd_keeps
  have := @endCmd_keeps
  have := @updSlot_keeps
  unfold settleSlot
  exact go2

theorem runSlots_keeps {z0 : State} {s : State} {p : Nat} (h : Keeps kd z0 s) :
    Keeps kd z0 (runSlots s p) := by
  have := @moveData_keeps
  have := @settleSlot_keeps
  unfold runSlots
  exact go2

theorem takeSlot_keeps {z0 : State} {s : State} {p : Nat} {st : Strm} {c : Cmd} (h : Keeps kd z0 s) :
    Keeps kd z0 (takeSlot s p st c) := by
  have := @updPart_keeps
  have := @updCmd_keeps
  have := @charge_keeps
  unfold takeSlot
  exact go2

theorem startTransfer_keeps {z0 : State} {s : State} {p : Nat} {st : Strm} {c : Cmd} (h : Keeps kd z0 s) :
    Keeps kd z0 (startTransfer s p st c) := by
  have := @endCmd_keeps
  have := @setBusy_keeps
  have := @moveData_keeps
  have := @settleSlot_keeps
  have := @takeSlot_keeps
  unfold startTransfer
  exact go2

theorem transferOp_keeps {z0 : State} {s : State} {p : Nat} {st : Strm} {op : Nat} (h : Keeps kd z0 s) :
    Keeps kd z0 (transferOp s p st op) := by
  have := @settle_keeps
  have := @launchDue_keeps
  have := @issueOp_keeps
  have := @issueTransfer_keeps
  have := @startTransfer_keeps
  unfold transferOp
  exact go2

theorem transferPeriod_keeps {z0 : State} {s : State} {p k : Nat} (h : Keeps kd z0 s) :
    Keeps kd z0 (transferPeriod s p k) := by
  have := @settle_keeps
  have := @launchDue_keeps
  have := @updSlot_keeps
  have := @moveData_keeps
  have := @settleSlot_keeps
  unfold transferPeriod
  exact go2

end Sys2Proof.Machine
end

