-- ==== Sys2Proof/Laws/FrameBlock.lean ====
section
/-! SUPPORT. What the work of the block leaves as it is: remote ports, governor, channels, tiers. Each lemma has the name of the definition that it is about. -/

namespace Sys2Proof.Machine

open Sys2Proof

set_option Elab.async false
variable {kd : Kind}

/-! ### Remote -/

theorem updJob_keeps {z0 : State} {s : State} {p : Nat} {st : Strm} {stamp : Word} {f : RemJob → RemJob} (h : Keeps kd z0 s) :
    Keeps kd z0 (updJob s p st stamp f) := by
  have := @updCmd_keeps
  unfold updJob
  exact go2

theorem jobStep_keeps {z0 : State} {α : Type} {s : State} {p : Nat} {st : Strm} {c : Cmd} {cls : Nat} {m : M α} (h : Keeps kd z0 s) (hm : Ok kd z0 m) :
    Keeps kd z0 (jobStep s p st c cls m).1 := by
  have := @hostAsk_keeps
  have := @dropHost_keeps
  have := @updCmd_keeps
  have := @endCmd_keeps
  have := @countMons_keeps
  have := @runWait_keeps
  have hr : ∀ x, Keeps kd z0 (runM m (Run.of s x)).2.s := fun x => hm.of (Run.of s x) h
  unfold jobStep
  exact go2

theorem redChunk_keeps {z0 : State} {c : Cmd} {k : Nat} {got : Option (List Byte × Nat)}  :
    Ok kd z0 ((redChunk c k got) : M Unit) := by
  have := @tally_keeps
  have := @tallyNan_keeps
  have := @overflowM_keeps
  have := @chkAll_keeps
  have := @wr_keeps
  have := @rdFlat_keeps
  have := @wrFlat_keeps
  have := @bounceAll_keeps
  unfold redChunk
  exact goM

theorem scratchAt_keeps {z0 : State} {va : Nat} :
    Ok kd z0 (scratchAt va : M Bool) := by
  have := @xlFault_keeps
  have := @xlate_keeps
  unfold scratchAt
  exact goM

theorem mirrorPlan_keeps {z0 : State} {c : Cmd}  :
    Ok kd z0 ((mirrorPlan c) : M (List (Nat × Nat) × Nat)) := by
  have := @xlate_keeps
  have := @xlFault_keeps
  have := @bounceAll_keeps
  have := @scratchAt_keeps
  unfold mirrorPlan
  exact goM

theorem moltSizes_keeps {z0 : State} {c : Cmd}  :
    Ok kd z0 ((moltSizes c) : M (List Nat)) := by
  have := @theRoot_keeps
  have := @imageG_keeps
  unfold moltSizes
  exact goM

theorem moltBytes_keeps {z0 : State} {c : Cmd} {k : Nat}  :
    Ok kd z0 ((moltBytes c k) : M (List Byte)) := by
  have := @theRoot_keeps
  have := @partM_keeps
  have := @imagePart_keeps
  have := @moltSizes_keeps
  unfold moltBytes
  exact goM

theorem moltSendRefs_keeps {z0 : State} {p : Nat} {c : Cmd}  :
    Ok kd z0 ((moltSendRefs p c) : M (List Ref)) := by
  have := @editEntRefs_keeps
  unfold moltSendRefs
  exact goM

theorem framePayload_keeps {z0 : State} {c : Cmd} {j : RemJob} {k : Nat}  :
    Ok kd z0 ((framePayload c j k) : M (Nat × List Byte × Nat × Nat × Nat)) := by
  have := @rd_keeps
  have := @moltBytes_keeps
  unfold framePayload
  exact goM

theorem freeBytes_keeps {z0 : State} {s : State} {n : Nat} (h : Keeps kd z0 s) :
    Keeps kd z0 (freeBytes s n).1 := by
  unfold freeBytes
  exact go2

theorem frameOut_keeps {z0 : State} {s : State} {j : RemJob} {k : Nat} {x : Nat × List Byte × Nat × Nat × Nat} (h : Keeps kd z0 s) :
    Keeps kd z0 (frameOut s j k x).1 := by
  have := @freeBytes_keeps
  unfold frameOut
  exact go2

theorem countSent_keeps {z0 : State} {s : State} {n : Nat} {p : Nat} {st : Strm} {stamp : Word} {vc : Nat} (h : Keeps kd z0 s) :
    Keeps kd z0 (countSent s n p st stamp vc) := by
  have := @updRem_keeps
  have := @updJob_keeps
  unfold countSent
  exact go2

theorem handOut_keeps {z0 : State} {n : Nat} {s : State} {b : Batch} {p : Nat} {st : Strm} {stamp : Word} (h : Keeps kd z0 s) : Keeps kd z0 (handOut n s b p st stamp).1 := by
  have := @updRem_keeps
  have := @updJob_keeps
  have := @jobStep_keeps
  have := @framePayload_keeps
  have := @frameOut_keeps
  have := @countSent_keeps
  induction n generalizing s b with
  | zero =>
    unfold handOut
    exact go2
  | succ _ ih =>
    unfold handOut
    exact go2

theorem mirrorOut_keeps {z0 : State} {n : Nat} {s : State} {b : Batch} {k : Nat} (h : Keeps kd z0 s) : Keeps kd z0 (mirrorOut n s b k).1 := by
  have := @updRem_keeps
  have := @jobStep_keeps
  have := @framePayload_keeps
  have := @frameOut_keeps
  have := @countSent_keeps
  induction n generalizing s b with
  | zero =>
    unfold mirrorOut
    exact go2
  | succ _ ih =>
    unfold mirrorOut
    exact go2

theorem dropMirror_keeps {z0 : State} {s : State} (h : Keeps kd z0 s) :
    Keeps kd z0 (dropMirror s) := by
  have := @updRem_keeps
  unfold dropMirror
  exact go2

theorem bumpRem_keeps {z0 : State} {s : State} {n off k : Nat} (h : Keeps kd z0 s) :
    Keeps kd z0 (bumpRem s n off k) := by
  have := @bump_keeps
  unfold bumpRem
  exact go2

theorem sendGroup_keeps {z0 : State} {s : State} {n : Nat} {b : List (List Byte × List Byte)} (h : Keeps kd z0 s) :
    Keeps kd z0 (sendGroup s n b) := by
  have := @updRem_keeps
  have := @bumpRem_keeps
  unfold sendGroup
  exact go2

theorem sendRound_keeps {z0 : State} {s : State} (h : Keeps kd z0 s) :
    Keeps kd z0 (sendRound s) := by
  have := @updRem_keeps
  have := @handOut_keeps
  have := @mirrorOut_keeps
  have := @dropMirror_keeps
  have := @sendGroup_keeps
  unfold sendRound
  exact go2

theorem sendAll_keeps {z0 : State} {s : State} (h : Keeps kd z0 s) :
    Keeps kd z0 (sendAll s) := by
  have := @sendGroup_keeps
  have := @sendRound_keeps
  unfold sendAll
  exact go2

theorem freeHead_keeps {z0 : State} {s : State} {n vc : Nat} (h : Keeps kd z0 s) :
    Keeps kd z0 (freeHead s n vc) := by
  have := @updRem_keeps
  unfold freeHead
  exact go2

theorem groupOver_keeps {z0 : State} {s : State} {n : Nat} (h : Keeps kd z0 s) :
    Keeps kd z0 (groupOver s n) := by
  have := @updRem_keeps
  unfold groupOver
  exact go2

theorem keepWrite_ok {z0 s : State} {p va bs} {a r} (e : keepWrite s p va bs = .ok a r) (h : Keeps kd z0 s) : Keeps kd z0 r.s :=
  ran_ok e h wrPlain_keeps
theorem keepWrite_bad {z0 s t : State} {p va bs} {a b} (e : keepWrite s p va bs = .bad a b t) (h : Keeps kd z0 s) : Keeps kd z0 t :=
  ran_bad e h wrPlain_keeps
theorem keepWrite_host {z0 s t : State} {p va bs} (e : keepWrite s p va bs = .host t) (h : Keeps kd z0 s) : Keeps kd z0 t :=
  ran_host e h wrPlain_keeps

theorem keepIndex_keeps {z0 s : State} {p : Nat} {f : Frame} {got : Nat} (h : Keeps kd z0 s) : Keeps kd z0 (keepIndex s p f got) := by
  unfold keepIndex
  rcases e : keepWrite s p (indexVa s [] + 16 * f.xid) (leBytes 4 f.step ++ leBytes 4 got ++ leBytes 8 s.cad.phase.toNat) with _ | _ | _ <;>
    simp only [Ran.fold]
  · exact keepWrite_ok e h
  · exact keepWrite_bad e h
  · exact keepWrite_host e h

theorem keepCount_keeps {z0 : State} {s : State} {p : Nat} {f : Frame} (h : Keeps kd z0 s) :
    Keeps kd z0 (keepCount s p f) := by
  have := @bump_keeps
  have := @keepIndex_keeps
  unfold keepCount
  exact go2

theorem keepFrame_keeps {z0 s : State} {n : Nat} {f : Frame} (h : Keeps kd z0 s) : Keeps kd z0 (keepFrame s n f).1 := by
  unfold keepFrame
  split
  · exact h
  · next p _ =>
    dsimp only
    split
    · exact h
    · rcases e : keepWrite s p (cocoonVa s [] + f.offset) (f.data.take f.len) with _ | _ | _ <;> simp only [Ran.fold]
      · exact keepCount_keeps (keepWrite_ok e h)
      · exact keepWrite_bad e h
      · exact keepWrite_host e h

theorem landFrame_keeps {z0 : State} {c : Cmd} {f : Frame}  :
    Ok kd z0 ((landFrame c f) : M Unit) := by
  have := @faultM_keeps
  have := @wr_keeps
  have := @wrPlain_keeps
  have := @redChunk_keeps
  unfold landFrame
  exact goM

theorem landRun_keeps {z0 : State} {s : State} {p : Nat} {st : Strm} {c : Cmd} {f : Frame} (h : Keeps kd z0 s) :
    Keeps kd z0 (landRun s p st c f).1 := by
  have := @jobStep_keeps
  have := @landFrame_keeps
  unfold landRun
  exact go2

theorem takeFor_keeps {z0 : State} {s : State} {n vc : Nat} {f : Frame} {p : Nat} {st : Strm} {c : Cmd} (h : Keeps kd z0 s) :
    Keeps kd z0 (takeFor s n vc f p st c).1 := by
  have := @updJob_keeps
  have := @bumpRem_keeps
  have := @freeHead_keeps
  have := @landRun_keeps
  unfold takeFor
  exact go2

theorem keepHead_keeps {z0 : State} {s : State} {n vc : Nat} {f : Frame} (h : Keeps kd z0 s) :
    Keeps kd z0 (keepHead s n vc f).1 := by
  have := @bump_keeps
  have := @bumpRem_keeps
  have := @freeHead_keeps
  have := @keepFrame_keeps
  unfold keepHead
  exact go2

theorem takeHead_keeps {z0 : State} {s : State} {n vc : Nat} (h : Keeps kd z0 s) :
    Keeps kd z0 (takeHead s n vc).1 := by
  have := @bumpRem_keeps
  have := @freeHead_keeps
  have := @takeFor_keeps
  have := @keepHead_keeps
  unfold takeHead
  exact go2

theorem takeHeads_keeps {z0 : State} {n : Nat} {s : State} {k vc : Nat} (h : Keeps kd z0 s) : Keeps kd z0 (takeHeads n s k vc) := by
  have := @landRun_keeps
  have := @takeHead_keeps
  induction n generalizing s with
  | zero =>
    unfold takeHeads
    exact go2
  | succ _ ih =>
    unfold takeHeads
    exact go2

theorem takeAll_keeps {z0 : State} {s : State} (h : Keeps kd z0 s) :
    Keeps kd z0 (takeAll s) := by
  have := @takeHeads_keeps
  unfold takeAll
  exact go2

theorem redLocal_keeps {z0 : State} {n : Nat} {s : State} {p : Nat} {st : Strm} {stamp : Word} (h : Keeps kd z0 s) : Keeps kd z0 (redLocal n s p st stamp) := by
  have := @updJob_keeps
  have := @jobStep_keeps
  have := @redChunk_keeps
  induction n generalizing s with
  | zero =>
    unfold redLocal
    exact go2
  | succ _ ih =>
    unfold redLocal
    exact go2

theorem finishRemote_keeps {z0 : State} {s : State} {p : Nat} {st : Strm} {stamp : Word} (h : Keeps kd z0 s) :
    Keeps kd z0 (finishRemote s p st stamp) := by
  have := @updCmd_keeps
  have := @endCmd_keeps
  have := @startEdit_keeps
  have := @updJob_keeps
  unfold finishRemote
  exact go2

theorem remSettle_keeps {z0 : State} {s : State} (h : Keeps kd z0 s) :
    Keeps kd z0 (remSettle s) := by
  have := @settle_keeps
  have := @launchDue_keeps
  have := @sendAll_keeps
  have := @takeAll_keeps
  have := @redLocal_keeps
  have := @finishRemote_keeps
  unfold remSettle
  exact go2

theorem remoteJob_keeps {z0 : State} {c : Cmd}  :
    Ok kd z0 ((remoteJob c) : M RemJob) := by
  have := @bump_keeps
  have := @mirrorPlan_keeps
  have := @moltSizes_keeps
  unfold remoteJob
  exact goM

theorem startRemote_keeps {z0 : State} {s : State} {p : Nat} {st : Strm} {c : Cmd} (h : Keeps kd z0 s) :
    Keeps kd z0 (startRemote s p st c) := by
  have := @updCmd_keeps
  have := @charge_keeps
  have := @jobStep_keeps
  have := @remoteJob_keeps
  unfold startRemote
  exact go2

theorem remoteRefs_keeps {z0 : State} {p : Nat} {c : Cmd}  :
    Ok kd z0 ((remoteRefs p c) : M (List Ref)) := by
  have := @editRefs_keeps
  have := @moltSendRefs_keeps
  unfold remoteRefs
  exact goM

theorem remotePlan_keeps {z0 : State} {p : Nat} {c : Cmd}  :
    Ok kd z0 ((remotePlan p c) : M (Cmd × List Ref)) := by
  have := @readTables_keeps
  have := @remoteRefs_keeps
  unfold remotePlan
  exact goM

theorem remoteIssued_keeps {z0 : State} {s : State} {p : Nat} {st : Strm} {c : Cmd} (h : Keeps kd z0 s) :
    Keeps kd z0 (remoteIssued s p st c) := by
  have := @updCmd_keeps
  have := @endCmd_keeps
  unfold remoteIssued
  exact go2

theorem issueRemote_keeps {z0 : State} {s : State} {p : Nat} {st : Strm} {c : Cmd} (h : Keeps kd z0 s) :
    Keeps kd z0 (issueRemote s p st c) := by
  have := @endCmd_keeps
  have := @refuseCmd_keeps
  have := @takeCmdPin_keeps
  have := @paramFail_keeps
  have := @remotePlan_keeps
  have := @remoteIssued_keeps
  unfold issueRemote
  exact go2

theorem remoteOp_keeps {z0 : State} {s : State} {p : Nat} {st : Strm} {op : Nat} {mine : Cmd → Bool} (h : Keeps kd z0 s) :
    Keeps kd z0 (remoteOp s p st op mine) := by
  have := @settle_keeps
  have := @launchDue_keeps
  have := @remSettle_keeps
  have := @startRemote_keeps
  have := @issueRemote_keeps
  unfold remoteOp
  exact go2

theorem moltRecv_keeps {z0 : State} {s : State} {p : Nat} {st : Strm} (h : Keeps kd z0 s) :
    Keeps kd z0 (moltRecv s p st) := by
  have := @settle_keeps
  have := @launchDue_keeps
  have := @startEdit_keeps
  have := @remoteOp_keeps
  unfold moltRecv
  exact go2

theorem headerReceive_keeps {z0 : State} {s : State} {n : Nat} {frame : List Byte} {sof : BitVec 64} {err : Bool} (h : Keeps kd z0 s) :
    Keeps kd z0 (headerReceive s n frame sof err) := by
  have := @updRem_keeps
  have := @bumpRem_keeps
  have := @groupOver_keeps
  have := @remSettle_keeps
  unfold headerReceive
  exact go2

theorem dataReceive_keeps {z0 : State} {s : State} {n : Nat} {frame : List Byte} {sof : BitVec 64} {err : Bool} (h : Keeps kd z0 s) :
    Keeps kd z0 (dataReceive s n frame sof err) := by
  have := @updRem_keeps
  have := @bumpRem_keeps
  have := @groupOver_keeps
  have := @remSettle_keeps
  unfold dataReceive
  exact go2

theorem freedReport_keeps {z0 : State} {s : State} {n : Nat} (h : Keeps kd z0 s) :
    Keeps kd z0 (freedReport s n) := by
  have := @sendGroup_keeps
  unfold freedReport
  exact go2

theorem linkUp_keeps {z0 : State} {s : State} {n : Nat} (h : Keeps kd z0 s) :
    Keeps kd z0 (linkUp s n) := by
  have := @updRem_keeps
  have := @sendGroup_keeps
  have := @remSettle_keeps
  unfold linkUp
  exact go2

theorem jobLinkDown_keeps {z0 : State} {s : State} {n : Nat} {p : Nat} {st : Strm} {stamp : Word} (h : Keeps kd z0 s) :
    Keeps kd z0 (jobLinkDown s n p st stamp) := by
  have := @updJob_keeps
  unfold jobLinkDown
  exact go2

theorem linkDown_keeps {z0 : State} {s : State} {n : Nat} (h : Keeps kd z0 s) :
    Keeps kd z0 (linkDown s n) := by
  have := @updRem_keeps
  have := @addFault_keeps
  have := @remSettle_keeps
  have := @jobLinkDown_keeps
  unfold linkDown
  exact go2

theorem remoteTimeout_keeps {z0 : State} {s : State} {p : Nat} {st : Strm} {stamp : Word} (h : Keeps kd z0 s) :
    Keeps kd z0 (remoteTimeout s p st stamp) := by
  have := @addFault_keeps
  have := @endCmd_keeps
  have := @settle_keeps
  have := @launchDue_keeps
  have := @remSettle_keeps
  unfold remoteTimeout
  exact go2

theorem mirrorAlone_keeps {z0 : State} {s : State} {n : Nat} (h : Keeps kd z0 s) :
    Keeps kd z0 (mirrorAlone s n) := by
  have := @updRem_keeps
  have := @remSettle_keeps
  unfold mirrorAlone
  exact go2

theorem remoteTick_keeps {z0 : State} {s : State} (h : Keeps kd z0 s) :
    Keeps kd z0 (remoteTick s) := by
  have := @updRem_keeps
  have := @updCmd_keeps
  unfold remoteTick
  exact go2

/-! ### Power -/

theorem govStep_keeps {z0 : State} {s : State} (h : Keeps kd z0 s) :
    Keeps kd z0 (govStep s) := by
  unfold govStep
  exact go2

theorem govChoose_keeps {z0 : State} {s : State} (h : Keeps kd z0 s) :
    Keeps kd z0 (govChoose s) := by
  have := @bump_keeps
  have := @addFault_keeps
  have := @govStep_keeps
  unfold govChoose
  exact go2

theorem pwrAck_keeps {z0 : State} {s : State} (h : Keeps kd z0 s) :
    Keeps kd z0 (pwrAck s) := by
  have := @govStep_keeps
  unfold pwrAck
  exact go2

theorem budgetTake_keeps {z0 : State} {s : State} {v : Nat} (h : Keeps kd z0 s) :
    Keeps kd z0 (budgetTake s v) := by
  unfold budgetTake
  exact go2

theorem budgetRefill_keeps {z0 : State} {s : State} (h : Keeps kd z0 s) :
    Keeps kd z0 (budgetRefill s) := by
  unfold budgetRefill
  exact go2

theorem temperature_keeps {z0 : State} {s : State} {ch code : Nat} (h : Keeps kd z0 s) :
    Keeps kd z0 (temperature s ch code) := by
  have := @bump_keeps
  have := @updChan_keeps
  have := @addFault_keeps
  unfold temperature
  exact go2

theorem goDeeper_keeps {z0 : State} {s : State} {ch d : Nat} (h : Keeps kd z0 s) :
    Keeps kd z0 (goDeeper s ch d) := by
  have := @updChan_keeps
  have := @updSlice_keeps
  unfold goDeeper
  exact go2

theorem writeBanks_keeps {z0 : State} {s : State} {ch : Nat} (h : Keeps kd z0 s) :
    Keeps kd z0 (writeBanks s ch) := by
  have := @updChan_keeps
  unfold writeBanks
  exact go2

theorem wakeEnd_keeps {z0 : State} {s : State} {ch : Nat} (h : Keeps kd z0 s) :
    Keeps kd z0 (wakeEnd s ch) := by
  have := @updChan_keeps
  have := @writeBanks_keeps
  unfold wakeEnd
  exact go2

theorem wake_keeps {z0 : State} {s : State} {ch : Nat} (h : Keeps kd z0 s) :
    Keeps kd z0 (wake s ch) := by
  have := @updChan_keeps
  have := @updSlice_keeps
  have := @wakeEnd_keeps
  unfold wake
  exact go2

theorem powerEntry_keeps {z0 : State} {s : State} {ch : Nat} (h : Keeps kd z0 s) :
    Keeps kd z0 (powerEntry s ch) := by
  have := @updChan_keeps
  have := @updSlice_keeps
  have := @wake_keeps
  have := @goDeeper_keeps
  unfold powerEntry
  exact go2

theorem wakeForUnit_keeps {z0 : State} {s : State} {ch : Nat} (h : Keeps kd z0 s) :
    Keeps kd z0 (wakeForUnit s ch) := by
  have := @wake_keeps
  unfold wakeForUnit
  exact go2

theorem lateWake_keeps {z0 : State} {s : State} {ch : Nat} (h : Keeps kd z0 s) :
    Keeps kd z0 (lateWake s ch) := by
  have := @bump_keeps
  have := @updChan_keeps
  unfold lateWake
  exact go2

theorem powerWake_keeps {z0 : State} {s : State} {ch : Nat} (h : Keeps kd z0 s) :
    Keeps kd z0 (powerWake s ch) := by
  have := @wake_keeps
  have := @updChan_keeps
  have := @wakeForUnit_keeps
  have := @lateWake_keeps
  unfold powerWake
  exact go2

theorem dozeWake_keeps {z0 : State} {s : State} {ch : Nat} (h : Keeps kd z0 s) :
    Keeps kd z0 (dozeWake s ch) := by
  have := @bump_keeps
  have := @wake_keeps
  have := @dozeTouch_keeps
  have := @dozeHit_keeps
  unfold dozeWake
  exact go2

theorem lateAt_keeps {z0 : State} {known : Bool} {s : State} {ch : Nat} (h : Keeps kd z0 s) :
    Keeps kd z0 (lateAt known s ch) := by
  have := @lateWake_keeps
  have := @updChan_keeps
  have := @wake_keeps
  unfold lateAt
  exact go2

theorem retentionAck_keeps {z0 : State} {s : State} {ch : Nat} {level : Bool} (h : Keeps kd z0 s) :
    Keeps kd z0 (retentionAck s ch level) := by
  have := @updSlice_keeps
  have := @wakeEnd_keeps
  have := @lateWake_keeps
  unfold retentionAck
  exact go2

theorem resetAllow_keeps {z0 : State} {s : State} (h : Keeps kd z0 s) :
    Keeps kd z0 (resetAllow s) := by
  have := @updChan_keeps
  unfold resetAllow
  exact go2

theorem snapTick_keeps {z0 : State} {s : State} {p : Nat} {st : Strm} (h : Keeps kd z0 s) :
    Keeps kd z0 (snapTick s p st) := by
  have := @updStrm_keeps
  unfold snapTick
  exact go2

theorem partTick_keeps {z0 : State} {s : State} {p : Nat} (h : Keeps kd z0 s) :
    Keeps kd z0 (partTick s p) := by
  have := @bump_keeps
  have := @updPart_keeps
  have := @updPool_keeps
  have := @fenceTick_keeps
  have := @snapTick_keeps
  unfold partTick
  exact go2

/-! ### Service -/

theorem chanFault_keeps {z0 : State} {s : State} {ch cause arg0 : Nat} (h : Keeps kd z0 s) :
    Keeps kd z0 (chanFault s ch cause arg0) := by
  have := @addFault_keeps
  unfold chanFault
  exact go2

theorem enterTest_keeps {z0 : State} {s : State} {ch : Nat} (h : Keeps kd z0 s) :
    Keeps kd z0 (enterTest s ch) := by
  have := @updChan_keeps
  unfold enterTest
  exact go2

theorem svcOut_keeps {z0 : State} {s : State} {ch : Nat} (h : Keeps kd z0 s) :
    Keeps kd z0 (svcOut s ch) := by
  have := @updChan_keeps
  have := @chanFault_keeps
  have := @enterTest_keeps
  unfold svcOut
  exact go2

theorem svcBack_keeps {z0 : State} {s : State} {ch : Nat} (h : Keeps kd z0 s) :
    Keeps kd z0 (svcBack s ch) := by
  have := @updChan_keeps
  unfold svcBack
  exact go2

theorem selfTestStart_keeps {z0 : State} {s : State} {ch : Nat} (h : Keeps kd z0 s) :
    Keeps kd z0 (selfTestStart s ch) := by
  have := @enterTest_keeps
  unfold selfTestStart
  exact go2

theorem testDone_keeps {z0 : State} {s : State} {ch : Nat} {rs : List LaneReport} (h : Keeps kd z0 s) :
    Keeps kd z0 (testDone s ch rs) := by
  have := @updChan_keeps
  unfold testDone
  exact go2

theorem selfTestDone_keeps {z0 : State} {s : State} {ch : Nat} {rs : List LaneReport} (h : Keeps kd z0 s) :
    Keeps kd z0 (selfTestDone s ch rs) := by
  have := @testDone_keeps
  unfold selfTestDone
  exact go2

theorem retestGo_keeps {z0 : State} {s : State} {ch : Nat} (h : Keeps kd z0 s) :
    Keeps kd z0 (retestGo s ch) := by
  have := @enterTest_keeps
  unfold retestGo
  exact go2

theorem channelReturn_keeps {z0 : State} {s : State} {ch : Nat} (h : Keeps kd z0 s) :
    Keeps kd z0 (channelReturn s ch) := by
  have := @updChan_keeps
  have := @applyMap_keeps
  have := @writeBanks_keeps
  have := @chanFault_keeps
  unfold channelReturn
  exact go2

theorem faultUnit_keeps {z0 : State} {s : State} {ch d : Nat} (h : Keeps kd z0 s) :
    Keeps kd z0 (faultUnit s ch d) := by
  have := @endCmd_keeps
  have := @launchDue_keeps
  have := @pruneSwarms_keeps
  have := @remSettle_keeps
  have := @settle_keeps
  have := @updChan_keeps
  unfold faultUnit
  exact go2

theorem chanFail_keeps {z0 : State} {s : State} {ch cause arg0 : Nat} (h : Keeps kd z0 s) :
    Keeps kd z0 (chanFail s ch cause arg0) := by
  have := @updChan_keeps
  have := @endCmd_keeps
  have := @settle_keeps
  have := @launchDue_keeps
  have := @pruneSwarms_keeps
  have := @remSettle_keeps
  have := @chanFault_keeps
  have := @enterTest_keeps
  have := @faultUnit_keeps
  have := @refuseStranded_keeps
  unfold chanFail
  exact go2

theorem channelWatchdog_keeps {z0 : State} {s : State} {ch : Nat} (h : Keeps kd z0 s) :
    Keeps kd z0 (channelWatchdog s ch) := by
  have := @chanFail_keeps
  unfold channelWatchdog
  exact go2

theorem ctlParity_keeps {z0 : State} {s : State} {ch group : Nat} (h : Keeps kd z0 s) :
    Keeps kd z0 (ctlParity s ch group) := by
  have := @chanFail_keeps
  unfold ctlParity
  exact go2

/-! ### ConfigRead -/

theorem loosen_keeps {z0 : State} {s : State} {pg off : Nat} (h : Keeps kd z0 s) :
    Keeps kd z0 (loosen s pg off) := by
  have := @bump_keeps
  unfold loosen
  exact go2

theorem writeChead_keeps {z0 : State} {s : State} {off : Nat} {v : Word} (h : Keeps kd z0 s) :
    Keeps kd z0 (writeChead s off v) := by
  have := @updStrm_keeps
  unfold writeChead
  exact go2

/-! ### Tiers -/

theorem updUnitMem_keeps {z0 : State} {s : State} {u : RowUnit} {f : RowMem → RowMem} (h : Keeps kd z0 s) :
    Keeps kd z0 (updUnitMem s u f) := by
  have := @updSlice_keeps
  have := @updSlow_keeps
  unfold updUnitMem
  exact go2

theorem scrubNext_keeps {z0 : State} {s : State} {u : RowUnit} (h : Keeps kd z0 s) :
    Keeps kd z0 (scrubNext s u) := by
  have := @updUnitMem_keeps
  unfold scrubNext
  exact go2

theorem bumpUnit_keeps {z0 : State} {s : State} {u : RowUnit} {k : Nat} (h : Keeps kd z0 s) :
    Keeps kd z0 (bumpUnit s u k) := by
  have := @bump_keeps
  unfold bumpUnit
  exact go2

theorem readCells_keeps {z0 : State} {s : State} {u : RowUnit} {id : Nat} (h : Keeps kd z0 s) :
    Keeps kd z0 (readCells s u id) := by
  have := @bumpUnit_keeps
  have := @corrected_keeps
  have := @updUnitMem_keeps
  unfold readCells
  exact go2

theorem wakeUnit_keeps {z0 : State} {s : State} {u : RowUnit} (h : Keeps kd z0 s) :
    Keeps kd z0 (wakeUnit s u) := by
  have := @wake_keeps
  unfold wakeUnit
  exact go2

theorem scrubStep_keeps {z0 : State} {s : State} {u : RowUnit} {ups : List Upset} (h : Keeps kd z0 s) :
    Keeps kd z0 (scrubStep s u ups) := by
  have := @addUpsets_keeps
  have := @readRow_keeps
  have := @dozeWake_keeps
  have := @scrubNext_keeps
  have := @wake_keeps
  have := @readCells_keeps
  have := @wakeUnit_keeps
  unfold scrubStep
  exact go2

theorem writeBack_keeps {z0 : State} {s : State} {u : RowUnit} (h : Keeps kd z0 s) :
    Keeps kd z0 (writeBack s u) := by
  have := @corrected_keeps
  have := @wroteRow_keeps
  have := @updUnitMem_keeps
  have := @setPat_keeps
  have := @wakeUnit_keeps
  unfold writeBack
  exact go2

theorem moveRow_keeps {z0 : State} {s : State} {row : Nat} (h : Keeps kd z0 s) :
    Keeps kd z0 (moveRow s row) := by
  have := @setPat_keeps
  have := @retireRow_keeps
  have := @readRow_keeps
  unfold moveRow
  exact go2

theorem rowLoad_keeps {z0 : State} {s : State} {w1 : Word} (h : Keeps kd z0 s) :
    Keeps kd z0 (rowLoad s w1) := by
  have := @steer_keeps
  have := @spareOut_keeps
  have := @moveRow_keeps
  unfold rowLoad
  exact go2

theorem lossAll_keeps {z0 : State} {s : State} (h : Keeps kd z0 s) :
    Keeps kd z0 (lossAll s) := by
  have := @updPool_keeps
  unfold lossAll
  exact go2

theorem loseAsk_keeps {z0 : State} {n d : Nat} {s : State} {ch : Nat} (h : Keeps kd z0 s) :
    Keeps kd z0 (loseAsk n d s ch) := by
  have := @faultUnit_keeps
  unfold loseAsk
  exact go2

theorem orderDone_keeps {z0 : State} {was s : State} {p : Nat} (h : Keeps kd z0 s) :
    Keeps kd z0 (orderDone was s p) := by
  have := @updStrm_keeps
  unfold orderDone
  exact go2

theorem loseSlice_keeps {z0 : State} {s : State} {n arg0 : Nat} (hk : kd.lost = false) (h : Keeps kd z0 s) :
    Keeps kd z0 (loseSlice s n arg0) := by
  unfold loseSlice
  refine keeps_ite h ?_
  refine lossAll_keeps (foldl_keeps (foldl_keeps (foldl_keeps (addFault_keeps (updSlice_any h hk)) ?_) ?_) ?_)
  · exact fun _ _ h => loseAsk_keeps h
  · exact fun _ _ h => orderDone_keeps h
  · exact fun _ _ h => keeps_ite (updPool_keeps (addFault_keeps h)) h

theorem loseSlices_keeps {z0 : State} {s : State} {bits : Nat} (hk : kd.lost = false) (h : Keeps kd z0 s) :
    Keeps kd z0 (loseSlices s bits) := by
  have := @loseSlice_keeps
  unfold loseSlices
  exact go2

theorem lossEdit_keeps {z0 : State} {s : State} {p : Nat} (h : Keeps kd z0 s) :
    Keeps kd z0 (lossEdit s p) := by
  have := @updPool_keeps
  have := @addFault_keeps
  have := @editM_keeps
  have := @lossEditM_keeps
  have := @settle_keeps
  have := @launchDue_keeps
  unfold lossEdit
  exact go2

theorem losePort_keeps {z0 : State} {s : State} {q cause arg0 : Nat} (h : Keeps kd z0 s) :
    Keeps kd z0 (losePort s q cause arg0) := by
  have := @updSlow_keeps
  have := @addFault_keeps
  have := @lossAll_keeps
  unfold losePort
  exact go2

theorem bringUp_keeps {z0 : State} {s : State} {q : Nat} (h : Keeps kd z0 s) :
    Keeps kd z0 (bringUp s q) := by
  have := @updSlow_keeps
  unfold bringUp
  exact go2

theorem portClock_keeps {z0 : State} {s : State} {q : Nat} (h : Keeps kd z0 s) :
    Keeps kd z0 (portClock s q) := by
  have := @updSlow_keeps
  have := @bringUp_keeps
  unfold portClock
  exact go2

theorem dfiInit_keeps {z0 : State} {s : State} {q : Nat} (h : Keeps kd z0 s) :
    Keeps kd z0 (dfiInit s q) := by
  have := @updSlow_keeps
  unfold dfiInit
  exact go2

theorem zeroFill_keeps {z0 : State} {s : State} {q : Nat} (h : Keeps kd z0 s) :
    Keeps kd z0 (zeroFill s q) := by
  have := @wroteRow_keeps
  unfold zeroFill
  exact go2

theorem portUp_keeps {z0 : State} {s : State} {q : Nat} (h : Keeps kd z0 s) :
    Keeps kd z0 (portUp s q) := by
  have := @updSlow_keeps
  have := @zeroFill_keeps
  unfold portUp
  exact go2

theorem trainingTimeout_keeps {z0 : State} {s : State} {q : Nat} (h : Keeps kd z0 s) :
    Keeps kd z0 (trainingTimeout s q) := by
  have := @losePort_keeps
  unfold trainingTimeout
  exact go2

theorem dfiError_keeps {z0 : State} {s : State} {q : Nat} {code : BitVec 8} (h : Keeps kd z0 s) :
    Keeps kd z0 (dfiError s q code) := by
  have := @updSlow_keeps
  have := @losePort_keeps
  unfold dfiError
  exact go2

theorem drainOnce_keeps {z0 : State} {s : State} {q p : Nat} (h : Keeps kd z0 s) :
    Keeps kd z0 (drainOnce s q p) := by
  have hm : Ok kd z0 (editM (drainEditM q)) := editM_keeps drainEditM_keeps
  unfold drainOnce
  apply Ran.fold_all
  · exact fun _ _ e => launchDue_keeps (settle_keeps (updSlow_keeps (ran_ok e h hm)))
  · exact fun _ _ _ e => keeps_ite h (ran_bad e h hm)
  · exact fun _ e => ran_host e h hm

theorem drainEdit_keeps {z0 : State} {s : State} {q : Nat} (h : Keeps kd z0 s) :
    Keeps kd z0 (drainEdit s q) := by
  have ht : Keeps kd z0 (((drainPart s q).map (drainOnce s q)).getD s) := getD_map_of h fun _ => drainOnce_keeps h
  unfold drainEdit
  exact keeps_ite h (keeps_ite (updSlow_keeps (addFault_keeps ht)) ht)

/-! ### Static -/

/-! ### Checks -/

end Sys2Proof.Machine
end

