-- ==== Sys2Proof/Laws/FrameSnap.lean ====
section
/-! SUPPORT. What the work of the block leaves as it is: images. Each lemma has the name of the definition that it is about. -/

namespace Sys2Proof.Machine

open Sys2Proof

set_option Elab.async false
variable {kd : Kind}

/-! ### Snap -/

theorem parkedMarks_keeps {z0 : State}  :
    Ok kd z0 (parkedMarks  : M (List (Nat × Nat × Nat))) := by
  have := @getP_keeps
  have := @rootEntry_keeps
  unfold parkedMarks
  exact goM

theorem secTables_keeps {z0 : State}   :
    Ok kd z0 (secTables : M (List Byte)) := by
  have := @tabRd_keeps
  have := @partM_keeps
  have := @getP_keeps
  have := @parkedMarks_keeps
  unfold secTables
  exact goM

theorem liveFrames_keeps {z0 : State}   :
    Ok kd z0 (liveFrames : M (List Nat)) := by
  have := @tabRd_keeps
  have := @partM_keeps
  unfold liveFrames
  exact goM

theorem secFrames_keeps {z0 : State} {c : Cmd}  :
    Ok kd z0 ((secFrames c) : M (List Byte)) := by
  have := @tabRd_keeps
  have := @partM_keeps
  have := @liveFrames_keeps
  unfold secFrames
  exact goM

theorem tensorList_keeps {z0 : State} {c : Cmd}  :
    Ok kd z0 ((tensorList c) : M (List Byte × List Nat)) := by
  have := @rd_keeps
  unfold tensorList
  exact goM

theorem isScratch_keeps {z0 : State} {g : Nat}  :
    Ok kd z0 ((isScratch g) : M Bool) := by
  have := @xlate_keeps
  have := @xlFault_keeps
  unfold isScratch
  exact goM

theorem presentOf_keeps {z0 : State} {gs : List Nat}  :
    Ok kd z0 ((presentOf gs) : M (List (Nat × Nat))) := by
  have := @isScratch_keeps
  unfold presentOf
  exact goM

theorem secTensors_keeps {z0 : State} {c : Cmd}  :
    Ok kd z0 ((secTensors c) : M (List Byte)) := by
  have := @rd_keeps
  have := @tensorList_keeps
  have := @presentOf_keeps
  unfold secTensors
  exact goM

theorem imageSize_keeps {z0 : State} {c : Cmd}  :
    Ok kd z0 ((imageSize c) : M Nat) := by
  have := @partM_keeps
  have := @liveFrames_keeps
  have := @tensorList_keeps
  have := @presentOf_keeps
  unfold imageSize
  exact goM

theorem snapRefs_keeps {z0 : State} {c : Cmd}  :
    Ok kd z0 ((snapRefs c) : M (List Ref)) := by
  have := @imageSize_keeps
  unfold snapRefs
  exact goM

theorem snapWork_keeps {z0 : State} {c : Cmd}  :
    Ok kd z0 ((snapWork c) : M Work) := by
  have := @partM_keeps
  have := @liveFrames_keeps
  have := @tensorList_keeps
  have := @imageSize_keeps
  unfold snapWork
  exact goM

theorem snapPlan_keeps {z0 : State} {c : Cmd}  :
    Ok kd z0 ((snapPlan c) : M (List Ref × Work)) := by
  have := @snapRefs_keeps
  have := @snapWork_keeps
  unfold snapPlan
  exact goM

theorem snapIssued_keeps {z0 : State} {s : State} {p : Nat} {st : Strm} {c : Cmd} {w : Work} (h : Keeps kd z0 s) :
    Keeps kd z0 (snapIssued s p st c w) := by
  have := @dropHost_keeps
  have := @updCmd_keeps
  have := @launchAll_keeps
  unfold snapIssued
  exact go2

theorem issueSnap_keeps {z0 : State} {s : State} {p : Nat} {st : Strm} {c : Cmd} (h : Keeps kd z0 s) :
    Keeps kd z0 (issueSnap s p st c) := by
  have := @endCmd_keeps
  have := @refuseCmd_keeps
  have := @paramFail_keeps
  have := @snapPlan_keeps
  have := @snapIssued_keeps
  have := @takeCmdPin_keeps
  unfold issueSnap
  exact go2

theorem writeSections_keeps {z0 : State} {c : Cmd}  :
    Ok kd z0 ((writeSections c) : M (List Byte)) := by
  have := @wr_keeps
  have := @partM_keeps
  have := @secTables_keeps
  have := @secFrames_keeps
  have := @secTensors_keeps
  unfold writeSections
  exact goM

theorem snapRun_keeps {z0 : State} {α : Type} {s : State} {p : Nat} {st : Strm} {c : Cmd} {m : M α} {f : State → α → State}
    (h : Keeps kd z0 s) (hm : Ok kd z0 m) (hf : ∀ s a, Keeps kd z0 s → Keeps kd z0 (f s a)) : Keeps kd z0 (snapRun s p st c m f) := by
  have hr : ∀ x, Keeps kd z0 (runM m (Run.of s x)).2.s := fun x => hm.of (Run.of s x) h
  unfold snapRun
  dsimp only
  split
  · exact keepsO_of (runWait_keeps h) ‹_›
  · split
    · exact hf _ _ (updCmd_keeps (dropHost_keeps (hr _)))
    · exact endCmd_keeps (updCmd_keeps (dropHost_keeps (hr _)))

theorem writeHeader_keeps {z0 : State} {c : Cmd} :
    Ok kd z0 (writeHeader c : M Unit) := by
  have := @partM_keeps
  have := @wr_keeps
  unfold writeHeader
  exact goM

theorem snapStart_keeps {z0 : State} {s : State} {p : Nat} {st : Strm} {c : Cmd} (h : Keeps kd z0 s) :
    Keeps kd z0 (snapStart s p st c) := by
  have := @updCmd_keeps
  have := @charge_keeps
  have := @writeSections_keeps
  have := @snapRun_keeps
  have := @writeHeader_keeps
  unfold snapStart
  exact go2

theorem snapFinal_keeps {z0 : State} {s : State} {p : Nat} {st : Strm} {c : Cmd} (h : Keeps kd z0 s) :
    Keeps kd z0 (snapFinal s p st c) := by
  have := @wr_keeps
  have := @updCmd_keeps
  have := @snapRun_keeps
  unfold snapFinal
  exact go2

theorem snapEnd_keeps {z0 : State} {s : State} {p : Nat} {st : Strm} {c : Cmd} (h : Keeps kd z0 s) :
    Keeps kd z0 (snapEnd s p st c) := by
  have := @endCmd_keeps
  unfold snapEnd
  exact go2

theorem snapBody_keeps {z0 : State} {s : State} {p : Nat} {st : Strm} {c : Cmd} (h : Keeps kd z0 s) :
    Keeps kd z0 (snapBody s p st c) := by
  have := @snapRun_keeps
  have := @updCmd_keeps
  have := @writeSections_keeps
  unfold snapBody
  exact go2

theorem snapWith_keeps {z0 : State} {p : Nat} {st : Strm} {stamp : Word} {f : State → Nat → Strm → Cmd → State} {s : State}
    (hf : ∀ c, Keeps kd z0 (f s p st c)) (h : Keeps kd z0 s) : Keeps kd z0 (snapWith p st stamp f s) := by
  unfold snapWith
  split
  · exact hf _
  · exact h

theorem snapGo_keeps {z0 : State} {s : State} {p : Nat} (h : Keeps kd z0 s) :
    Keeps kd z0 (snapGo s p) := by
  unfold snapGo
  refine foldl_keeps h fun _ e h => ?_
  simp only [List.foldl_cons, List.foldl_nil]
  have h1 := snapWith_keeps (p := p) (st := e.1) (stamp := e.2.stamp) (fun _ => snapStart_keeps h) h
  have h2 := snapWith_keeps (p := p) (st := e.1) (stamp := e.2.stamp) (fun _ => snapBody_keeps h1) h1
  have h3 := snapWith_keeps (p := p) (st := e.1) (stamp := e.2.stamp) (fun _ => snapFinal_keeps h2) h2
  exact snapWith_keeps (fun _ => snapEnd_keeps h3) h3

theorem snapOp_keeps {z0 : State} {s : State} {p : Nat} {st : Strm} (h : Keeps kd z0 s) :
    Keeps kd z0 (snapOp s p st) := by
  have := @settle_keeps
  have := @launchDue_keeps
  have := @issueOp_keeps
  have := @issueSnap_keeps
  unfold snapOp
  exact go2

theorem snapQuiesce_keeps {z0 : State} {s : State} {p : Nat} (h : Keeps kd z0 s) :
    Keeps kd z0 (snapQuiesce s p) := by
  have := @settle_keeps
  have := @launchDue_keeps
  have := @snapGo_keeps
  unfold snapQuiesce
  exact go2

theorem snapTimeout_keeps {z0 : State} {s : State} {p : Nat} (h : Keeps kd z0 s) :
    Keeps kd z0 (snapTimeout s p) := by
  have := @addFault_keeps
  have := @endCmd_keeps
  have := @settle_keeps
  have := @launchDue_keeps
  unfold snapTimeout
  exact go2

end Sys2Proof.Machine
end

