-- ==== Sys2Proof/Laws/FrameFollow.lean ====
section
/-! SUPPORT. What the work of the block leaves as it is: what commits start. Each lemma has the name of the definition that it is about. -/

namespace Sys2Proof.Machine

open Sys2Proof

set_option Elab.async false

variable {kd : Kind}

/-- Work that a commit starts: registers and their values in effect may change, what the port itself shows does not. -/
abbrev kdF (po : Bool) : Kind := { cad := false, conf := false, port := po, lost := false }
variable {po : Bool}

theorem Keeps.updF {a x : State} {wbt gens cad rowErr reported parts chans dozed slow fab fabOut iqDone rem remOut segments faults fseq repair gov ckSeq free} :
   Keeps (kdF po) a { x with
     wbt := wbt, gens := gens, cad := cad, rowErr := rowErr, reported := reported, parts := parts, chans := chans, dozed := dozed, slow := slow, fab := fab, fabOut := fabOut, iqDone := iqDone, rem := rem, remOut := remOut, segments := segments, faults := faults, fseq := fseq, repair := repair, gov := gov, ckSeq := ckSeq, free := free } ↔ Keeps (kdF po) a x := ⟨fun h => ⟨h.1, h.2, h.3⟩, fun h => ⟨h.1, h.2, h.3⟩⟩

theorem setShadow_keeps {z0 s : State} {pg off v : Nat} (h : Keeps (kdF po) z0 s) : Keeps (kdF po) z0 (setShadow s pg off v) :=
  h.trans ⟨rfl, id, fun o => ⟨wordsSet_asc o.1, o.2⟩⟩
theorem setEff_keeps {z0 s : State} {pg off v : Nat} (h : Keeps (kdF po) z0 s) : Keeps (kdF po) z0 (setEff s pg off v) :=
  h.trans ⟨rfl, id, fun o => ⟨o.1, wordsSet_asc o.2.1, o.2.2⟩⟩
theorem switchPage_keeps {z0 s : State} {pg : Nat} (h : Keeps (kdF po) z0 s) : Keeps (kdF po) z0 (switchPage s pg) :=
  h.trans ⟨rfl, id, fun o => ⟨o.1, copyPage_asc o.2.1 o.1, o.2.2⟩⟩

/-- The state that a read of an image leaves. -/
def ImgRead.state : ImgRead → State
  | .ok s _ _ | .bad s _ | .wait s => s
/-- The state that the check of a restore leaves. -/
def RestoreCheck.state : RestoreCheck → State
  | .pass s _ _ | .fail s _ _ | .wait s => s

theorem goF {p : Prop} (h : p := by
  repeat' (first
    | (with_reducible assumption)
    | (with_reducible refine keeps_ite ?_ ?_)
    | (with_reducible refine foldl_keeps ?_ ?_)
    | (with_reducible refine keeps_ite₁ ?_ ?_)
    | (with_reducible refine foldl_keeps₁ ?_ ?_)
    | (with_reducible exact id)
    | (with_reducible exact fun h => memPut_wf h _ _)
    | (with_reducible intro _)
    | (with_reducible apply_assumption (transparency := .reducible) -exfalso -symm)
    | (with_reducible exact keepsO_none)
    | (with_reducible exact keepsP_none)
    | (with_reducible refine keepsO_some ?_)
    | (with_reducible refine keepsP_some ?_)
    | (with_reducible refine keepsO_ite ?_ ?_)
    | (with_reducible refine keepsP_ite ?_ ?_)
    | (with_reducible refine keepsO_getD ?_ ?_)
    | (with_reducible refine ran_ok ‹ranM _ _ _ = .ok _ _› ?_ ?_)
    | (with_reducible refine ran_bad ‹ranM _ _ _ = .bad _ _ _› ?_ ?_)
    | (with_reducible refine ran_host ‹ranM _ _ _ = .host _› ?_ ?_)
    | (with_reducible refine run_of₀ ‹runM _ (Run.of _ _) = _› ?_ ?_)
    | (with_reducible refine run_of ‹runM _ _ = _› ?_ ?_)
    | (with_reducible refine fst_of ?_ ‹_ = (_, _)›)
    | (with_reducible refine keepsO_of ?_ ‹_ = some _›)
    | (with_reducible refine keepsP_of ?_ ‹_ = some (_, _)›)
    | (with_reducible refine ok_get ?_)
    | (with_reducible refine ok_getS ?_)
    | (with_reducible refine ok_bind ?_ ?_)
    | (with_reducible exact ok_pure)
    | (with_reducible refine ok_ite ?_ ?_)
    | (with_reducible refine ok_forM ?_)
    | (with_reducible refine ok_mapM ?_)
    | (with_reducible refine ok_map ?_)
    | (with_reducible exact ok_throw)
    | (with_reducible exact ok_get0)
    | (with_reducible exact ok_getS0)
    | (with_reducible refine ok_set ?_)
    | (with_reducible refine ok_modify ?_)
    | (with_reducible refine ok_modS ?_)
    | (with_reducible refine ok_foldlM ?_)
    | (with_reducible refine ok_anyM ?_)
    | (with_reducible refine ok_allM ?_)
    | (with_reducible refine ok_filterMapM ?_)
    | (with_reducible refine ok_findSomeM? ?_)
    | (with_reducible refine ok_tryCatch ?_ ?_)
    | split
    | (simp only [Keeps.upd])
    | (simp only [Keeps.updF])
    | (with_reducible refine Keeps.put ?_ ?_)
    | (with_reducible refine Keeps.clear ?_ ?_)
    | dsimp only
    )) : p := h
/-! ### Follow -/

theorem zeroSpan_keeps {z0 : State} {s : State} {r : Span} (h : Keeps kd z0 s) :
    Keeps kd z0 (zeroSpan s r) := by
  have := @wroteRow_keeps
  have := @touchRows_keeps
  have := @rows_keeps
  unfold zeroSpan
  exact go2

theorem areaReset_keeps {z0 : State} {s : State} {p : Nat} (h : Keeps kd z0 s) :
    Keeps kd z0 (areaReset s p) := by
  have := @updPool_keeps
  have := @zeroSpan_keeps
  unfold areaReset
  exact go2

theorem nodeEntry_keeps {z0 s : State} {g i : Nat} (h : Keeps kd z0 s) : Keeps kd z0 (nodeEntry s g i).1 := by
  have := @tabRead_keeps
  unfold nodeEntry
  exact go2

theorem putEntry_keeps {z0 s : State} {g i e : Nat} (h : Keeps kd z0 s) : Keeps kd z0 (putEntry s g i e) := by
  have := @rowsWrite_keeps
  unfold putEntry
  exact go2

theorem leafTable_keeps {z0 : State} {p : Nat} {make : Bool} {vg n : Nat} {s : State} {g : Nat} (h : Keeps kd z0 s) :
    Keeps kd z0 (leafTable p make vg n s g).1 := by
  have := @nodeEntry_keeps
  have := @putEntry_keeps
  have := @takeGranule_keeps
  have := @zeroSpan_keeps
  induction n generalizing s g with
  | zero =>
    unfold leafTable
    exact go2
  | succ _ ih =>
    unfold leafTable
    exact go2

theorem mapPiece_keeps {z0 : State} {s : State} {m : MapReq} {vg n : Nat} (h : Keeps kd z0 s) :
    Keeps kd z0 (mapPiece s m vg n) := by
  have := @rowsWrite_keeps
  have := @leafTable_keeps
  unfold mapPiece
  exact go2

theorem applyMapFields_keeps {z0 : State} {s : State} {m : MapReq} (h : Keeps kd z0 s) :
    Keeps kd z0 (applyMapFields s m) := by
  have := @mapPiece_keeps
  unfold applyMapFields
  exact go2

theorem takeGranules_keeps {z0 : State} {p n : Nat} {s : State} (h : Keeps kd z0 s) : Keeps kd z0 (takeGranules p n s).1 := by
  have := @takeGranule_keeps
  induction n generalizing s with
  | zero =>
    unfold takeGranules
    exact go2
  | succ _ ih =>
    unfold takeGranules
    exact go2

theorem poolInit_keeps {z0 : State} {s : State} {p : Nat} (h : Keeps kd z0 s) :
    Keeps kd z0 (poolInit s p) := by
  have := @updPool_keeps
  have := @rowsWrite_keeps
  have := @takeGranule_keeps
  have := @zeroSpan_keeps
  have := @takeGranules_keeps
  unfold poolInit
  exact go2

theorem poolFollow_keeps {z0 : State} {s0 : State} {v : List Nat} {s : State} (h : Keeps kd z0 s) :
    Keeps kd z0 (poolFollow s0 v s) := by
  have := @poolInit_keeps
  have := @updPool_keeps
  unfold poolFollow
  exact go2

theorem partFollow_keeps {z0 : State} {s0 : State} {v : List Nat} {s : State} (h : Keeps kd z0 s) :
    Keeps kd z0 (partFollow s0 v s) := by
  have := @updPart_keeps
  have := @updPool_keeps
  have := @poolInit_keeps
  unfold partFollow
  exact go2

theorem strmFollow_keeps {z0 : State} {s0 : State} {v : List Nat} {s : State} (h : Keeps kd z0 s) :
    Keeps kd z0 (strmFollow s0 v s) := by
  have := @updStrm_keeps
  unfold strmFollow
  exact go2

theorem ftabWrite_keeps {z0 : State} {s : State} (h : Keeps kd z0 s) :
    Keeps kd z0 (ftabWrite s) := by
  have := @updChan_keeps
  unfold ftabWrite
  exact go2

theorem pwrFollow_keeps {z0 : State} {s0 : State} {s : State} (h : Keeps kd z0 s) :
    Keeps kd z0 (pwrFollow s0 s) := by
  have := @govChoose_keeps
  unfold pwrFollow
  exact go2

theorem mempFollow_keeps {z0 : State} {s0 : State} {v : List Nat} {q : Nat} {s : State} (h : Keeps kd z0 s) :
    Keeps kd z0 (mempFollow s0 v q s) := by
  have := @updSlow_keeps
  have := @bringUp_keeps
  unfold mempFollow
  exact go2

theorem aryFollow_keeps {z0 : State} {s0 : State} {v : List Nat} {n : Nat} {s : State} (h : Keeps kd z0 s) :
    Keeps kd z0 (aryFollow s0 v n s) := by
  have := @boundary_keeps
  have := @svcOut_keeps
  have := @svcBack_keeps
  unfold aryFollow
  exact go2

/-! ### Follow -/

theorem xlatFollow_keeps {z0 : State} {s0 : State} {v : List Nat} {s : State} (h : Keeps (kdF po) z0 s) :
    Keeps (kdF po) z0 (xlatFollow s0 v s) := by
  have := @setShadow_keeps
  have := @setEff_keeps
  have := @areaReset_keeps
  have := @applyMapFields_keeps
  unfold xlatFollow
  exact goF

theorem ftabCurrent_keeps {z0 : State} {s : State} (h : Keeps (kdF po) z0 s) :
    Keeps (kdF po) z0 (ftabCurrent s) := by
  have := @updChan_keeps
  unfold ftabCurrent
  exact goF

theorem pageFollow_keeps {z0 : State} {s0 : State} {v : List Nat} {s : State} {pg : Nat} (h : Keeps (kdF po) z0 s) :
    Keeps (kdF po) z0 (pageFollow s0 v s pg) := by
  have := @updFab_keeps
  have := @boundaries_keeps
  have := @xlatFollow_keeps
  have := @poolFollow_keeps
  have := @partFollow_keeps
  have := @strmFollow_keeps
  have := @ftabWrite_keeps
  have := @pwrFollow_keeps
  have := @mempFollow_keeps
  have := @aryFollow_keeps
  unfold pageFollow
  exact goF

/-! ### Restore -/

theorem imgBytes_keeps {z0 s : State} {p va n : Nat} (h : Keeps kd z0 s) : Keeps kd z0 (imgBytes s p va n).1 := by
  unfold imgBytes
  refine keeps_ite₁ h ?_
  apply Ran.fold_all (P := fun x : State × Except Bool (List Byte) => Keeps kd z0 x.1)
  · exact fun _ _ e => ran_ok e h rd_keeps
  · exact fun _ _ _ e => ran_bad e h rd_keeps
  · exact fun _ e => ran_host e h rd_keeps

theorem imgSections_keeps {z0 s : State} {p va : Nat} {hdr : List Byte} {n : Nat} {secs : List (List Byte)} (h : Keeps kd z0 s) :
    Keeps kd z0 (imgSections p va hdr n s secs).state := by
  induction n generalizing s secs with
  | zero => exact h
  | succ k ih =>
    unfold imgSections
    dsimp only
    split
    · next e => exact fst_of (imgBytes_keeps h) e
    · next e => exact fst_of (imgBytes_keeps h) e
    · next e =>
      have := fst_of (P := Keeps kd z0) (imgBytes_keeps h) e
      split
      · exact ih this
      · exact this

theorem readImage_keeps {z0 s : State} (h : Keeps kd z0 s) : Keeps kd z0 (readImage s).state := by
  unfold readImage
  dsimp only
  split
  · next e => exact fst_of (imgBytes_keeps h) e
  · next e => exact fst_of (imgBytes_keeps h) e
  · next e =>
    have := fst_of (P := Keeps kd z0) (imgBytes_keeps h) e
    split
    · exact this
    · split
      · exact this
      · exact imgSections_keeps this

theorem putWord_keeps {z0 : State} {regs : List Byte} {pg : Nat} {s : State} {off : Nat} (h : Keeps (kdF po) z0 s) :
    Keeps (kdF po) z0 (putWord regs pg s off) := by
  have := @setShadow_keeps
  have := @setEff_keeps
  unfold putWord
  exact goF

theorem putSpace_keeps {z0 : State} {s : State} {regs : List Byte} {p : Nat} (h : Keeps (kdF po) z0 s) :
    Keeps (kdF po) z0 (putSpace s regs p) := by
  have := @setShadow_keeps
  have := @setEff_keeps
  have := @putWord_keeps
  unfold putSpace
  exact goF

theorem putOwner_keeps {z0 : State} {s : State} {regs : List Byte} {p : Nat} (h : Keeps (kdF po) z0 s) :
    Keeps (kdF po) z0 (putOwner s regs p) := by
  have := @putWord_keeps
  unfold putOwner
  exact goF

theorem putTables_keeps {z0 : State} {s : State} {p : Nat} {sec : List Byte} (h : Keeps (kdF po) z0 s) :
    Keeps (kdF po) z0 (putTables s p sec) := by
  have := @updPool_keeps
  have := @rowsWrite_keeps
  have := @zeroSpan_keeps
  unfold putTables
  exact goF

theorem takeParked_keeps {z0 : State} {root : Nat} :
    Ok kd z0 (takeParked root : M (List (Nat × Nat))) := by
  have := @liveSeqs_keeps
  have := @rootEntry_keeps
  have := @tabRd_keeps
  have := @tabWr_keeps
  unfold takeParked
  exact goM

theorem rebuildPool_keeps {z0 : State} {s : State} {p instar : Nat} (h : Keeps (kdF po) z0 s) :
    Keeps (kdF po) z0 (rebuildPool s p instar) := by
  have := @updPool_keeps
  have := @liveSeqs_keeps
  have := @takeParked_keeps
  unfold rebuildPool
  exact goF

theorem putFrames_keeps {z0 : State} {s : State} {p : Nat} {sec : List Byte} (h : Keeps (kdF po) z0 s) :
    Keeps (kdF po) z0 (putFrames s p sec) := by
  have := @rowsWrite_keeps
  unfold putFrames
  exact goF

theorem putGranule_keeps {z0 : State} {p : Nat} {sec : List Byte} {at0 : Nat} {s : State} {g i : Nat} (h : Keeps (kdF po) z0 s) :
    Keeps (kdF po) z0 (putGranule p sec at0 s g i) := by
  have := @vwrite_keeps
  unfold putGranule
  exact goF

theorem putGranules_keeps {z0 : State} {s : State} {p : Nat} {sec : List Byte} {gs : List Nat} (h : Keeps (kdF po) z0 s) :
    Keeps (kdF po) z0 (putGranules s p sec gs) := by
  have := @putGranule_keeps
  unfold putGranules
  exact goF

theorem putTensors_keeps {z0 : State} {s : State} {p : Nat} {sec : List Byte} (h : Keeps (kdF po) z0 s) :
    Keeps (kdF po) z0 (putTensors s p sec) := by
  have := @putGranules_keeps
  unfold putTensors
  exact goF

theorem putSched_keeps {z0 : State} {s : State} {p : Nat} {sec : List Byte} (h : Keeps (kdF po) z0 s) :
    Keeps (kdF po) z0 (putSched s p sec) := by
  have := @updPart_keeps
  have := @updStrm_keeps
  unfold putSched
  exact goF

theorem putBlock_keeps {z0 : State} {s : State} {regs hdr : List Byte} (h : Keeps (kdF po) z0 s) :
    Keeps (kdF po) z0 (putBlock s regs hdr) := by
  have := @entries_keeps
  have := @boundaries_keeps
  have := @ftabWrite_keeps
  have := @ftabCurrent_keeps
  have := @putWord_keeps
  unfold putBlock
  exact goF

theorem restoreCheck_keeps {z0 s : State} (h : Keeps kd z0 s) : Keeps kd z0 (restoreCheck s).state := by
  have hi := readImage_keeps h
  unfold restoreCheck
  dsimp only
  split
  · exact h
  · split
    · next e => rw [e] at hi; exact hi
    · next e => rw [e] at hi; exact hi
    · next e =>
      rw [e] at hi
      split
      · exact hi
      · split
        · exact hi
        · split
          · exact askRows_keeps hi
          · exact hi

theorem restoreWrite_keeps {z0 : State} {s : State} {hdr : List Byte} {secs : List (List Byte)} (h : Keeps (kdF po) z0 s) :
    Keeps (kdF po) z0 (restoreWrite s hdr secs) := by
  have := @putSpace_keeps
  have := @putOwner_keeps
  have := @putTables_keeps
  have := @rebuildPool_keeps
  have := @putFrames_keeps
  have := @putTensors_keeps
  have := @putSched_keeps
  have := @putBlock_keeps
  unfold restoreWrite
  exact goF

end Sys2Proof.Machine
end

