-- ==== Sys2Proof/Laws/FrameControl.lean ====
section
/-! SUPPORT. What the work of the block leaves as it is: commits and accesses. Each lemma has the name of the definition that it is about. -/

namespace Sys2Proof.Machine

open Sys2Proof

set_option Elab.async false

/-- What every command leaves but those of reset and start-up. -/
abbrev kdM : Kind := { cad := false, conf := false, port := false, lost := false }

theorem Keeps.updM {a x : State} {commits gstat cfgHeld rdata rload0 rstat wbt gens cad rowErr reported parts chans dozed slow fab fabOut iqDone rem remOut segments faults fseq repair gov ckSeq free} :
   Keeps kdM a { x with
     commits := commits, gstat := gstat, cfgHeld := cfgHeld, rdata := rdata, rload0 := rload0, rstat := rstat, wbt := wbt, gens := gens, cad := cad, rowErr := rowErr, reported := reported, parts := parts, chans := chans, dozed := dozed, slow := slow, fab := fab, fabOut := fabOut, iqDone := iqDone, rem := rem, remOut := remOut, segments := segments, faults := faults, fseq := fseq, repair := repair, gov := gov, ckSeq := ckSeq, free := free } ↔ Keeps kdM a x := ⟨fun h => ⟨h.1, h.2, h.3⟩, fun h => ⟨h.1, h.2, h.3⟩⟩

theorem setCommitStat_keeps {z0 s : State} {pg v : Nat} (h : Keeps kdM z0 s) : Keeps kdM z0 (setCommitStat s pg v) :=
  h.trans ⟨rfl, id, fun o => ⟨o.1, o.2.1, o.2.2.1, wordsSet_asc o.2.2.2.1, o.2.2.2.2⟩⟩
theorem revertPage_keeps {z0 s : State} {pg : Nat} (h : Keeps kdM z0 s) : Keeps kdM z0 (revertPage s pg) := by
  have h1 : Keeps kdM z0 { s with shadow := copyPage s.shadow s.effect pg } :=
    h.trans ⟨rfl, id, fun o => ⟨copyPage_asc o.1 o.2.1, o.2⟩⟩
  unfold revertPage
  exact keeps_ite (Keeps.updM.2 h1) h1

theorem goC {p : Prop} (h : p := by
  repeat' (first
    | (with_reducible assumption)
    | (with_reducible refine keeps_ite ?_ ?_)
    | (with_reducible refine foldl_keeps ?_ ?_)
    | (with_reducible refine keeps_ite₁ ?_ ?_)
    | (with_reducible refine foldl_keeps₁ ?_ ?_)
    | (with_reducible exact id)
    | (with_reducible exact fun h => memPut_wf h _ _)
    | (with_reducible intro _)
    | (with_reducible apply_assumption (transparency := .reducible) -exfalso -symm)
    | (with_reducible exact keepsO_none)
    | (with_reducible exact keepsP_none)
    | (with_reducible refine keepsO_some ?_)
    | (with_reducible refine keepsP_some ?_)
    | (with_reducible refine keepsO_ite ?_ ?_)
    | (with_reducible refine keepsP_ite ?_ ?_)
    | (with_reducible refine keepsO_getD ?_ ?_)
    | (with_reducible refine ran_ok ‹ranM _ _ _ = .ok _ _› ?_ ?_)
    | (with_reducible refine ran_bad ‹ranM _ _ _ = .bad _ _ _› ?_ ?_)
    | (with_reducible refine ran_host ‹ranM _ _ _ = .host _› ?_ ?_)
    | (with_reducible refine run_of₀ ‹runM _ (Run.of _ _) = _› ?_ ?_)
    | (with_reducible refine run_of ‹runM _ _ = _› ?_ ?_)
    | (with_reducible refine fst_of ?_ ‹_ = (_, _)›)
    | (with_reducible refine keepsO_of ?_ ‹_ = some _›)
    | (with_reducible refine keepsP_of ?_ ‹_ = some (_, _)›)
    | (with_reducible refine ok_get ?_)
    | (with_reducible refine ok_getS ?_)
    | (with_reducible refine ok_bind ?_ ?_)
    | (with_reducible exact ok_pure)
    | (with_reducible refine ok_ite ?_ ?_)
    | (with_reducible refine ok_forM ?_)
    | (with_reducible refine ok_mapM ?_)
    | (with_reducible refine ok_map ?_)
    | (with_reducible exact ok_throw)
    | (with_reducible exact ok_get0)
    | (with_reducible exact ok_getS0)
    | (with_reducible refine ok_set ?_)
    | (with_reducible refine ok_modify ?_)
    | (with_reducible refine ok_modS ?_)
    | (with_reducible refine ok_foldlM ?_)
    | (with_reducible refine ok_anyM ?_)
    | (with_reducible refine ok_allM ?_)
    | (with_reducible refine ok_filterMapM ?_)
    | (with_reducible refine ok_findSomeM? ?_)
    | (with_reducible refine ok_tryCatch ?_ ?_)
    | split
    | (simp only [Keeps.upd])
    | (simp only [Keeps.updM])
    | (with_reducible refine Keeps.put ?_ ?_)
    | (with_reducible refine Keeps.clear ?_ ?_)
    | dsimp only
    )) : p := h
/-! ### ConfigRead -/

theorem regRead_keeps {z0 s : State} {pg off : Nat} (h : Keeps kdM z0 s) : Keeps kdM z0 (regRead s pg off) := by
  have := @updChan_keeps
  have hl := loosen_keeps (pg := pg) (off := off) h
  have hc : ∀ w v, Keeps kdM z0 { loosen s pg off with
      rdata := w
      captured := wordsSet (loosen s pg off).captured (wordAddr pg off + 4) 0 v } := fun _ _ =>
    hl.trans ⟨rfl, id, fun o => ⟨o.1, o.2.1, o.2.2.1, o.2.2.2.1, wordsSet_asc o.2.2.2.2⟩⟩
  unfold regRead
  exact goC

theorem plainWrite_keeps {z0 : State} {s : State} {pg off : Nat} {v : Word} (h : Keeps kdM z0 s) :
    Keeps kdM z0 (plainWrite s pg off v) := by
  have := @setShadow_keeps
  have := @setLive_keeps
  have := @writeChead_keeps
  unfold plainWrite
  exact goC

variable {po : Bool}
/-! ### Commit -/

theorem switchPages_keeps {z0 : State} {s : State} {v : List Nat} (h : Keeps (kdF po) z0 s) :
    Keeps (kdF po) z0 (switchPages s v) := by
  have := @switchPage_keeps
  have := @pageFollow_keeps
  unfold switchPages
  exact goF

/-! ### Commit -/

theorem endCommit_keeps {z0 : State} {s : State} {c : Commit} {bad : Option (Nat × Bad)} (h : Keeps kdM z0 s) :
    Keeps kdM z0 (endCommit s c bad) := by
  have := @setShadow_keeps
  have := @setEff_keeps
  have := @setCommitStat_keeps
  unfold endCommit
  exact goC

theorem unjoin_keeps {z0 : State} {s : State} {c : Commit} (h : Keeps kdM z0 s) :
    Keeps kdM z0 (unjoin s c) := by
  have := @setLive_keeps
  unfold unjoin
  exact goC

theorem refuseCommit_keeps {z0 : State} {s : State} {c : Commit} {bad : Nat × Bad} (h : Keeps kdM z0 s) :
    Keeps kdM z0 (refuseCommit s c bad) := by
  have := @setLive_keeps
  have := @endCommit_keeps
  have := @unjoin_keeps
  unfold refuseCommit
  exact goC

theorem passCommit_keeps {z0 : State} {s : State} {c : Commit} {more : Bool} {after : State → State} (h : Keeps kdM z0 s) (hafter : ∀ x, Keeps kdM z0 x → Keeps kdM z0 (after x)) :
    Keeps kdM z0 (passCommit s c more after) := by
  have := @endCommit_keeps
  have := @unjoin_keeps
  have := @switchPages_keeps
  unfold passCommit
  exact goC

theorem waitCommit_keeps {z0 : State} {s : State} {c : Commit} (h : Keeps kd z0 s) :
    Keeps kd z0 (waitCommit s c) := by
  have := @askRows_keeps
  have := @switchPages_keeps
  unfold waitCommit
  exact go2

theorem tryCommit_keeps {z0 s : State} {c : Commit} (h : Keeps kdM z0 s) : Keeps kdM z0 (tryCommit s c) := by
  have hr := restoreCheck_keeps (kd := kdF false) h
  unfold tryCommit
  split
  · exact h
  · split
    · exact waitCommit_keeps h
    · split
      · split
        · next e => rw [e] at hr; exact hr
        · next e => rw [e] at hr; exact endCommit_keeps (Keeps.updM.2 (dropHost_keeps hr))
        · next e =>
          rw [e] at hr
          dsimp only
          split
          · exact refuseCommit_keeps (dropHost_keeps hr)
          · exact passCommit_keeps (dropHost_keeps hr) fun _ hx => restoreWrite_keeps hx
      · split
        · exact refuseCommit_keeps h
        · exact passCommit_keeps h fun _ hx => hx

theorem tryAll_keeps {z0 : State} {s : State} (h : Keeps kdM z0 s) :
    Keeps kdM z0 (tryAll s) := by
  have := @tryCommit_keeps
  unfold tryAll
  exact goC

theorem startCommit_keeps {z0 : State} {s : State} {group : Bool} {pages : List Nat} (h : Keeps kdM z0 s) :
    Keeps kdM z0 (startCommit s group pages) := by
  have := @setCommitStat_keeps
  have := @tryCommit_keeps
  unfold startCommit
  exact goC

theorem writeCommit_keeps {z0 : State} {s : State} {pg : Nat} {v : Word} (h : Keeps kdM z0 s) :
    Keeps kdM z0 (writeCommit s pg v) := by
  have := @setCommitStat_keeps
  have := @startCommit_keeps
  unfold writeCommit
  exact goC

theorem commitSwitch_keeps {z0 : State} {s : State} {pg : Nat} (h : Keeps kdM z0 s) :
    Keeps kdM z0 (commitSwitch s pg) := by
  have := @tryCommit_keeps
  unfold commitSwitch
  exact goC

theorem followEnd_keeps {z0 : State} {s : State} {pg : Nat} (h : Keeps kdM z0 s) :
    Keeps kdM z0 (followEnd s pg) := by
  have := @ftabCurrent_keeps
  have := @endCommit_keeps
  unfold followEnd
  exact goC

theorem writePageCtl_keeps {z0 : State} {s : State} {pg : Nat} {v : Word} (h : Keeps kdM z0 s) :
    Keeps kdM z0 (writePageCtl s pg v) := by
  have := @revertPage_keeps
  have := @setLive_keeps
  unfold writePageCtl
  exact goC

theorem regWrite_keeps {z0 : State} {s : State} {pg off : Nat} {v : Word} (h : Keeps kdM z0 s) :
    Keeps kdM z0 (regWrite s pg off v) := by
  have := @writeArm_keeps
  have := @writeCuntil_keeps
  have := @writeCancel_keeps
  have := @retestGo_keeps
  have := @plainWrite_keeps
  have := @rowLoad_keeps
  have := @loseSlices_keeps kdM
  have := @writeCommit_keeps
  have := @writePageCtl_keeps
  unfold regWrite
  exact goC

theorem accessDo_keeps {z0 : State} {s : State} {a : CfgAccess} (h : Keeps kdM z0 s) :
    Keeps kdM z0 (accessDo s a) := by
  have := @regRead_keeps
  have := @regWrite_keeps
  unfold accessDo
  exact goC

theorem releaseHeld_keeps {z0 : State} {n : Nat} {s : State} (h : Keeps kdM z0 s) : Keeps kdM z0 (releaseHeld n s) := by
  have := @accessDo_keeps
  induction n generalizing s with
  | zero =>
    unfold releaseHeld
    exact goC
  | succ _ ih =>
    unfold releaseHeld
    exact goC

theorem cfgSettle_keeps {z0 : State} {s : State} (h : Keeps kdM z0 s) :
    Keeps kdM z0 (cfgSettle s) := by
  have := @tryAll_keeps
  have := @releaseHeld_keeps
  unfold cfgSettle
  exact goC

theorem cfgAccess_keeps {z0 : State} {s : State} {a : CfgAccess} (h : Keeps kdM z0 s) :
    Keeps kdM z0 (cfgAccess s a) := by
  have := @accessDo_keeps
  have := @cfgSettle_keeps
  unfold cfgAccess
  exact goC

theorem cfgWrite_keeps {z0 : State} {s : State} {pg off : Nat} {v : Word} (h : Keeps kdM z0 s) :
    Keeps kdM z0 (cfgWrite s pg off v) := by
  have := @cfgAccess_keeps
  unfold cfgWrite
  exact goC

theorem cfgRead_keeps {z0 : State} {s : State} {addr : Nat} (h : Keeps kdM z0 s) :
    Keeps kdM z0 (cfgRead s addr) := by
  have := @cfgAccess_keeps
  unfold cfgRead
  exact goC

theorem commitGo_keeps {z0 : State} {s : State} {pg : Nat} (h : Keeps kdM z0 s) :
    Keeps kdM z0 (commitGo s pg) := by
  have := @cfgWrite_keeps
  unfold commitGo
  exact goC

/-! ### Control -/

theorem fabRetire_keeps {z0 : State} {s : State} (h : Keeps kdM z0 s) :
    Keeps kdM z0 (fabRetire s) := by
  have := @commitSwitch_keeps
  have := @cfgSettle_keeps
  have := @commitGo_keeps
  unfold fabRetire
  exact goC

end Sys2Proof.Machine
end

