-- ==== Sys2Proof/Laws/FrameEvents.lean ====
section
/-! SUPPORT. What the work of the block leaves as it is: events and the fabric. Each lemma has the name of the definition that it is about. -/

namespace Sys2Proof.Machine

open Sys2Proof

set_option Elab.async false

theorem Keeps.toM {k : Kind} {s t : State} (h : Keeps k s t) : Keeps kdM s t := by
  refine ⟨?_, h.mem, h.ord⟩
  have e := h.fixed
  simp only [fixedOf, Fixed.mk.injEq] at e ⊢
  simp_all

/-- What the rows of the cadence leave. -/
abbrev kdK : Kind := { cad := false, conf := true, port := true, lost := false }

theorem Keeps.updK {a x : State} {cad wbt rowErr reported parts chans dozed slow fab fabOut iqDone rem remOut segments faults fseq repair gov ckSeq free} :
   Keeps kdK a { x with
     cad := cad, wbt := wbt, rowErr := rowErr, reported := reported, parts := parts, chans := chans, dozed := dozed, slow := slow, fab := fab, fabOut := fabOut, iqDone := iqDone, rem := rem, remOut := remOut, segments := segments, faults := faults, fseq := fseq, repair := repair, gov := gov, ckSeq := ckSeq, free := free } ↔ Keeps kdK a x := ⟨fun h => ⟨h.1, h.2, h.3⟩, fun h => ⟨h.1, h.2, h.3⟩⟩

theorem goK {p : Prop} (h : p := by
  repeat' (first
    | (with_reducible assumption)
    | (with_reducible refine keeps_ite ?_ ?_)
    | (with_reducible refine foldl_keeps ?_ ?_)
    | (with_reducible refine keeps_ite₁ ?_ ?_)
    | (with_reducible refine foldl_keeps₁ ?_ ?_)
    | (with_reducible exact id)
    | (with_reducible exact fun h => memPut_wf h _ _)
    | (with_reducible intro _)
    | (with_reducible apply_assumption (transparency := .reducible) -exfalso -symm)
    | (with_reducible exact keepsO_none)
    | (with_reducible exact keepsP_none)
    | (with_reducible refine keepsO_some ?_)
    | (with_reducible refine keepsP_some ?_)
    | (with_reducible refine keepsO_ite ?_ ?_)
    | (with_reducible refine keepsP_ite ?_ ?_)
    | (with_reducible refine keepsO_getD ?_ ?_)
    | (with_reducible refine ran_ok ‹ranM _ _ _ = .ok _ _› ?_ ?_)
    | (with_reducible refine ran_bad ‹ranM _ _ _ = .bad _ _ _› ?_ ?_)
    | (with_reducible refine ran_host ‹ranM _ _ _ = .host _› ?_ ?_)
    | (with_reducible refine run_of₀ ‹runM _ (Run.of _ _) = _› ?_ ?_)
    | (with_reducible refine run_of ‹runM _ _ = _› ?_ ?_)
    | (with_reducible refine fst_of ?_ ‹_ = (_, _)›)
    | (with_reducible refine keepsO_of ?_ ‹_ = some _›)
    | (with_reducible refine keepsP_of ?_ ‹_ = some (_, _)›)
    | (with_reducible refine ok_get ?_)
    | (with_reducible refine ok_getS ?_)
    | (with_reducible refine ok_bind ?_ ?_)
    | (with_reducible exact ok_pure)
    | (with_reducible refine ok_ite ?_ ?_)
    | (with_reducible refine ok_forM ?_)
    | (with_reducible refine ok_mapM ?_)
    | (with_reducible refine ok_map ?_)
    | (with_reducible exact ok_throw)
    | (with_reducible exact ok_get0)
    | (with_reducible exact ok_getS0)
    | (with_reducible refine ok_set ?_)
    | (with_reducible refine ok_modify ?_)
    | (with_reducible refine ok_modS ?_)
    | (with_reducible refine ok_foldlM ?_)
    | (with_reducible refine ok_anyM ?_)
    | (with_reducible refine ok_allM ?_)
    | (with_reducible refine ok_filterMapM ?_)
    | (with_reducible refine ok_findSomeM? ?_)
    | (with_reducible refine ok_tryCatch ?_ ?_)
    | split
    | (simp only [Keeps.upd])
    | (simp only [Keeps.updK])
    | (with_reducible refine Keeps.put ?_ ?_)
    | (with_reducible refine Keeps.clear ?_ ?_)
    | dsimp only
    )) : p := h
/-! ### Power -/

theorem slip_keeps {z0 : State} {s : State} (h : Keeps kdK z0 s) :
    Keeps kdK z0 (slip s) := by
  have := @bump_keeps
  unfold slip
  exact goK

theorem slotStage_keeps {z0 : State} {s : State} {old : Nat} (h : Keeps kdK z0 s) :
    Keeps kdK z0 (slotStage s old).1 := by
  have := @bump_keeps
  have := @resetAllow_keeps
  unfold slotStage
  exact goK

theorem powerTick_keeps {z0 : State} {known : Bool} {s : State} {fresh : Bool} (h : Keeps kd z0 s) :
    Keeps kd z0 (powerTick known s fresh) := by
  have := @lateAt_keeps
  have := @powerEntry_keeps
  unfold powerTick
  exact go2

theorem quietMark_keeps {z0 : State} {phase : DWord} {s : State} {p : Nat} (h : Keeps kd z0 s) :
    Keeps kd z0 (quietMark phase s p) := by
  have := @updStrm_keeps
  unfold quietMark
  exact go2

theorem tickRest_keeps {z0 : State} {known : Bool} {t : State × Bool} (h : Keeps kd z0 t.1) :
    Keeps kd z0 (tickRest known t) := by
  have := @settle_keeps
  have := @launchDue_keeps
  have := @remoteTick_keeps
  have := @govChoose_keeps
  have := @partTick_keeps
  have := @powerTick_keeps
  unfold tickRest
  exact go2

theorem countTick_keeps {z0 : State} {s : State} {old : DWord} {known : Bool} (h : Keeps kdK z0 s) :
    Keeps kdK z0 (countTick s old known) := by
  unfold countTick
  exact tickRest_keeps (slotStage_keeps (bump_keeps (foldl_keeps h fun _ _ h => quietMark_keeps h)))

theorem cadenceTick_keeps {z0 : State} {s : State} {phase : DWord} (h : Keeps kdK z0 s) :
    Keeps kdK z0 (cadenceTick s phase) := by
  have := @slip_keeps
  have := @countTick_keeps
  have := @govChoose_keeps
  have := @powerTick_keeps
  have := @slotStage_keeps
  unfold cadenceTick
  exact goK

theorem cadFall_keeps {z0 : State} {s : State} (h : Keeps kdK z0 s) :
    Keeps kdK z0 (cadFall s) := by
  have := @bump_keeps
  unfold cadFall
  exact goK

theorem cadRise_keeps {z0 : State} {s : State} (h : Keeps kdK z0 s) :
    Keeps kdK z0 (cadRise s) := by
  unfold cadRise
  exact goK

variable {kd : Kind}
/-! ### Fabric -/

theorem respond_keeps {z0 : State} {s : State} {f : FabPort} {hd : BitVec 80} {status : Nat} {wack : Bool} {data : List (BitVec 1024)} (h : Keeps kd z0 s) :
    Keeps kd z0 (respond s f hd status wack data) := by
  unfold respond
  exact go2

theorem failResp_keeps {z0 : State} {s : State} {f : FabPort} {hd : BitVec 80} {status : Nat} {write : Bool} (h : Keeps kd z0 s) :
    Keeps kd z0 (failResp s f hd status write) := by
  have := @respond_keeps
  unfold failResp
  exact go2

theorem targetAt_keeps {z0 : State} {s : State} {f : FabPort} {hd : BitVec 80} {write : Bool} (h : Keeps kd z0 s) :
    Keeps kd z0 (targetAt s f hd write).1 := by
  have := @xlate_keeps
  unfold targetAt
  exact go2

theorem maskedWrite_keeps {z0 : State} {s : State} {f : FabPort} {pa : Nat} {run : List (Byte × Bool)} (h : Keeps kd z0 s) :
    Keeps kd z0 (maskedWrite s f pa run).1 := by
  have := @readRow_keeps
  have := @wroteRow_keeps
  have := @touchRows_keeps
  unfold maskedWrite
  exact go2

theorem performRead_keeps {z0 : State} {s : State} {f : FabPort} {hd : BitVec 80} (h : Keeps kd z0 s) :
    Keeps kd z0 (performRead s f hd) := by
  have := @rowsRead_keeps
  have := @respond_keeps
  have := @failResp_keeps
  have := @targetAt_keeps
  unfold performRead
  exact go2

theorem performWrite_keeps {z0 : State} {s : State} {f : FabPort} {hd : BitVec 80} {beats : List Beat} (h : Keeps kd z0 s) :
    Keeps kd z0 (performWrite s f hd beats) := by
  have := @respond_keeps
  have := @failResp_keeps
  have := @targetAt_keeps
  have := @maskedWrite_keeps
  unfold performWrite
  exact go2

theorem tqTake_keeps {z0 : State} {s : State} {f : FabPort} {hd : BitVec 80} {beats : List Beat} (h : Keeps kd z0 s) :
    Keeps kd z0 (tqTake s f hd beats) := by
  have := @updFab_keeps
  have := @askRows_keeps
  have ht : Keeps kd z0 (if beats.isEmpty then performRead s f hd else performWrite s f hd beats) :=
    keeps_ite (performRead_keeps h) (performWrite_keeps h)
  unfold tqTake
  exact keeps_ite (updFab_keeps h) (keeps_ite (updFab_keeps (askRows_keeps h)) ht)

theorem tqResume_keeps {z0 : State} {s : State} {f : FabPort} (h : Keeps kd z0 s) :
    Keeps kd z0 (tqResume s f) := by
  unfold tqResume
  exact keeps_ite h (foldl_keeps (updFab_keeps h) fun _ _ h => tqTake_keeps h)

theorem targetRead_keeps {z0 : State} {s : State} {f : FabPort} {hd : BitVec 80} {ups : List Upset} (h : Keeps kd z0 s) :
    Keeps kd z0 (targetRead s f hd ups) := by
  have := @bump_keeps
  have := @addUpsets_keeps
  have := @tqTake_keeps
  unfold targetRead
  exact go2

theorem targetWrite_keeps {z0 : State} {s : State} {f : FabPort} {hd : BitVec 80} {beats : List Beat} (h : Keeps kd z0 s) :
    Keeps kd z0 (targetWrite s f hd beats) := by
  have := @bump_keeps
  have := @tqTake_keeps
  unfold targetWrite
  exact go2

theorem iqCredit_keeps {z0 : State} {s : State} {f : Nat} (h : Keeps kd z0 s) :
    Keeps kd z0 (iqCredit s f) := by
  have := @bump_keeps
  have := @updFab_keeps
  have := @iqPump_keeps
  unfold iqCredit
  exact go2

theorem answer_keeps {z0 : State} {s : State} {f : Nat} {r : IqReq} {status cause arg : Nat} {bytes : List Byte} (h : Keeps kd z0 s) :
    Keeps kd z0 (answer s f r status cause arg bytes) := by
  have := @updPool_keeps
  have := @addFault_keeps
  have := @dropHost_keeps
  have := @endCmd_keeps
  have := @ringFail_keeps
  unfold answer
  exact go2

theorem iqWork_keeps {z0 : State} {s : State} {o : Owner} (h : Keeps kd z0 s) :
    Keeps kd z0 (iqWork s o) := by
  have := @settle_keeps
  have := @launchDue_keeps
  have := @finishPark_keeps
  have := @ringPoll_keeps
  have := @runSlots_keeps
  have := @remSettle_keeps
  have := @snapGo_keeps
  have := @prefetchStep_keeps
  unfold iqWork
  exact go2

/-! ### Startup -/

theorem factorySteer_keeps {z0 : State} {s : State} {e : Word × Word} (h : Keeps kd z0 s) :
    Keeps kd z0 (factorySteer s e) := by
  have := @steer_keeps
  unfold factorySteer
  exact go2

/-! ### Streams -/

theorem fenceTimeout_keeps {z0 : State} {s : State} {p : Nat} {st : Strm} (h : Keeps kd z0 s) :
    Keeps kd z0 (fenceTimeout s p st) := by
  have := @addFault_keeps
  have := @updCmd_keeps
  have := @endCmd_keeps
  have := @settle_keeps
  have := @launchDue_keeps
  unfold fenceTimeout
  exact go2

theorem seqPark_keeps {z0 : State} {s : State} {p : Nat} {st : Strm} (h : Keeps kd z0 s) :
    Keeps kd z0 (seqPark s p st) := by
  have := @settle_keeps
  have := @launchDue_keeps
  have := @finishPark_keeps
  have := @editOp_keeps
  unfold seqPark
  exact go2

theorem moltLocal_keeps {z0 : State} {s : State} {p : Nat} {st : Strm} (h : Keeps kd z0 s) :
    Keeps kd z0 (moltLocal s p st) := by
  have := @editStep_keeps
  unfold moltLocal
  exact go2

/-! ### Fabric -/

theorem iqContinue_keeps {z0 : State} {s : State} {o : Owner} (h : Keeps kdM z0 s) :
    Keeps kdM z0 (iqContinue s o) := by
  have := @cfgSettle_keeps
  have := @iqWork_keeps
  unfold iqContinue
  exact goC

theorem ipResponse_keeps {z0 : State} {s : State} {f : Nat} {hd : BitVec 16} {data : List (BitVec 1024)} (h : Keeps kdM z0 s) :
    Keeps kdM z0 (ipResponse s f hd data) := by
  have := @bump_keeps
  have := @updFab_keeps
  have := @iqPump_keeps
  have := @answer_keeps
  have := @iqContinue_keeps
  unfold ipResponse
  exact goC

theorem responseTimeout_keeps {z0 : State} {s : State} {f tag : Nat} (h : Keeps kdM z0 s) :
    Keeps kdM z0 (responseTimeout s f tag) := by
  have := @bump_keeps
  have := @updFab_keeps
  have := @answer_keeps
  have := @iqContinue_keeps
  unfold responseTimeout
  exact goC

/-! ### Events -/

theorem phyUpdate_keeps {z0 : State} {s : State} {_q : SlowPort} (h : Keeps kd z0 s) :
    Keeps kd z0 (phyUpdate s _q) := by
  unfold phyUpdate
  exact go2

theorem refreshPort_keeps {z0 : State} {s : State} {_q : SlowPort} (h : Keeps kd z0 s) :
    Keeps kd z0 (refreshPort s _q) := by
  unfold refreshPort
  exact go2

/-! ### Commands that let commits go on -/

/-- What a command leaves that is no command of the configuration port, the cadence or start-up. -/
abbrev kdA : Kind := { cad := true, conf := true, port := true, lost := false }

theorem Keeps.quiet {s t : State} (h : Keeps kdA s t) (hq : CfgQuiet s) : CfgQuiet t := by
  have e := h.fixed
  simp only [fixedOf, Fixed.mk.injEq] at e
  exact ⟨by simp_all [CfgQuiet], by simp_all [CfgQuiet]⟩

theorem cfgSettle_quiet {s : State} (hq : CfgQuiet s) : cfgSettle s = s := by
  have ht : tryAll s = s := by simp [tryAll, hq.2]
  unfold cfgSettle
  simp only [ht, hq.1]
  rfl

theorem iqContinue_quiet {z0 s : State} {o : Owner} (hq : CfgQuiet z0) (h : Keeps kdA z0 s) : Keeps kdA z0 (iqContinue s o) := by
  have hw := iqWork_keeps (o := o) h
  rw [iqContinue, cfgSettle_quiet (hw.quiet hq)]
  exact hw

theorem ipResponse_quiet {z0 s : State} {f : Nat} {hd : BitVec 16} {data : List (BitVec 1024)} (hq : CfgQuiet z0) (h : Keeps kdA z0 s) :
    Keeps kdA z0 (ipResponse s f hd data) := by
  have := @bump_keeps
  have := @updFab_keeps
  have := @iqPump_keeps
  have := @answer_keeps
  have hc := fun s o h => @iqContinue_quiet z0 s o hq h
  unfold ipResponse
  exact go2

theorem responseTimeout_quiet {z0 s : State} {f tag : Nat} (hq : CfgQuiet z0) (h : Keeps kdA z0 s) :
    Keeps kdA z0 (responseTimeout s f tag) := by
  have := @bump_keeps
  have := @updFab_keeps
  have := @answer_keeps
  have hc := fun s o h => @iqContinue_quiet z0 s o hq h
  unfold responseTimeout
  exact go2
end Sys2Proof.Machine
end

