-- ==== Sys2Proof/Laws/FrameExec.lean ====
section
/-! SUPPORT. What the work of the block leaves as it is: every row but those of pins and start-up. Each lemma has the name of the definition that it is about. -/

namespace Sys2Proof.Machine

open Sys2Proof

set_option Elab.async false

variable {kd : Kind}

theorem Keeps.pins {s t : State} (h : Keeps kd s t) : Keeps kd s (keepPins s t) := by
  have e := h.fixed
  refine ⟨?_, fun hm => h.mem hm, fun o => h.ord o⟩
  simp only [fixedOf, Fixed.mk.injEq, keepPins] at e ⊢
  simp_all

theorem act_keeps {s t : State} {f : State → State} (hf : Keeps kd s (f s)) (h : act s f = .next t) : Keeps kd s t := by
  unfold act at h
  split at h
  · cases h
  · split at h
    · cases h; exact Keeps.refl s
    · cases h; exact hf.pins

theorem actCfg_keeps {s t : State} {f : State → State} (hf : Keeps kd s (f s)) (h : actCfg s f = .next t) : Keeps kd s t := by
  unfold actCfg at h
  split at h
  · cases h
  · split at h
    · cases h; exact Keeps.refl s
    · cases h; exact hf.pins

theorem execCommitCalu_keeps {s : State} {t : State} (h : execCommitCalu s = .next t) : Keeps kdM s t := by
  have := @commitGo_keeps
  have h0 := Keeps.refl (kd := kdM) s
  unfold execCommitCalu at h
  refine actCfg_keeps ?_ h
  exact goC

theorem execCommitFlt_keeps {s : State} {t : State} (h : execCommitFlt s = .next t) : Keeps kdM s t := by
  have := @commitGo_keeps
  have h0 := Keeps.refl (kd := kdM) s
  unfold execCommitFlt at h
  refine actCfg_keeps ?_ h
  exact goC

theorem execCommitWbt_keeps {s : State} {t : State} (h : execCommitWbt s = .next t) : Keeps kdM s t := by
  have := @commitGo_keeps
  have h0 := Keeps.refl (kd := kdM) s
  unfold execCommitWbt at h
  refine actCfg_keeps ?_ h
  exact goC

theorem execCommitPwr_keeps {s : State} {t : State} (h : execCommitPwr s = .next t) : Keeps kdM s t := by
  have := @commitGo_keeps
  have h0 := Keeps.refl (kd := kdM) s
  unfold execCommitPwr at h
  refine actCfg_keeps ?_ h
  exact goC

theorem execCommitPart_keeps {s : State} {t : State} (h : execCommitPart s = .next t) : Keeps kdM s t := by
  have := @commitGo_keeps
  have h0 := Keeps.refl (kd := kdM) s
  unfold execCommitPart at h
  refine actCfg_keeps ?_ h
  exact goC

theorem execCommitStrm_keeps {s : State} {t : State} (h : execCommitStrm s = .next t) : Keeps kdM s t := by
  have := @commitGo_keeps
  have h0 := Keeps.refl (kd := kdM) s
  unfold execCommitStrm at h
  refine actCfg_keeps ?_ h
  exact goC

theorem execCommitStore_keeps {s : State} {t : State} (h : execCommitStore s = .next t) : Keeps kdM s t := by
  have := @commitGo_keeps
  have h0 := Keeps.refl (kd := kdM) s
  unfold execCommitStore at h
  refine actCfg_keeps ?_ h
  exact goC

theorem execCommitXlat_keeps {s : State} {t : State} (h : execCommitXlat s = .next t) : Keeps kdM s t := by
  have := @commitGo_keeps
  have h0 := Keeps.refl (kd := kdM) s
  unfold execCommitXlat at h
  refine actCfg_keeps ?_ h
  exact goC

theorem execXlatMap_keeps {s : State} {t : State} (h : execXlatMap s = .next t) : Keeps kdM s t := by
  have := @commitGo_keeps
  have h0 := Keeps.refl (kd := kdM) s
  unfold execXlatMap at h
  refine actCfg_keeps ?_ h
  exact goC

theorem execXlatUnmap_keeps {s : State} {t : State} (h : execXlatUnmap s = .next t) : Keeps kdM s t := by
  have := @commitGo_keeps
  have h0 := Keeps.refl (kd := kdM) s
  unfold execXlatUnmap at h
  refine actCfg_keeps ?_ h
  exact goC

theorem execCommitPool_keeps {s : State} {t : State} (h : execCommitPool s = .next t) : Keeps kdM s t := by
  have := @commitGo_keeps
  have h0 := Keeps.refl (kd := kdM) s
  unfold execCommitPool at h
  refine actCfg_keeps ?_ h
  exact goC

theorem execCommitFtab_keeps {s : State} {t : State} (h : execCommitFtab s = .next t) : Keeps kdM s t := by
  have := @commitGo_keeps
  have h0 := Keeps.refl (kd := kdM) s
  unfold execCommitFtab at h
  refine actCfg_keeps ?_ h
  exact goC

theorem execCommitMir_keeps {s : State} {t : State} (h : execCommitMir s = .next t) : Keeps kdM s t := by
  have := @commitGo_keeps
  have h0 := Keeps.refl (kd := kdM) s
  unfold execCommitMir at h
  refine actCfg_keeps ?_ h
  exact goC

theorem execCommitSnap_keeps {s : State} {t : State} (h : execCommitSnap s = .next t) : Keeps kdM s t := by
  have := @commitGo_keeps
  have h0 := Keeps.refl (kd := kdM) s
  unfold execCommitSnap at h
  refine actCfg_keeps ?_ h
  exact goC

theorem execSnapRestore_keeps {s : State} {t : State} (h : execSnapRestore s = .next t) : Keeps kdM s t := by
  have := @commitGo_keeps
  have h0 := Keeps.refl (kd := kdM) s
  unfold execSnapRestore at h
  refine actCfg_keeps ?_ h
  exact goC

theorem execSvcVector_keeps {ch : Chan} {s : State} {t : State} (h : execSvcVector ch s = .next t) : Keeps kdM s t := by
  have := @commitGo_keeps
  have h0 := Keeps.refl (kd := kdM) s
  unfold execSvcVector at h
  refine actCfg_keeps ?_ h
  exact goC

theorem execSvcRun_keeps {ch : Chan} {s : State} {t : State} (h : execSvcRun ch s = .next t) : Keeps kdM s t := by
  have := @commitGo_keeps
  have h0 := Keeps.refl (kd := kdM) s
  unfold execSvcRun at h
  refine actCfg_keeps ?_ h
  exact goC

theorem execCommitPastSpare_keeps {ch : Chan} {s : State} {t : State} (h : execCommitPastSpare ch s = .next t) : Keeps kdM s t := by
  have := @commitGo_keeps
  have h0 := Keeps.refl (kd := kdM) s
  unfold execCommitPastSpare at h
  refine actCfg_keeps ?_ h
  exact goC

theorem execCommitMemp_keeps {q : SlowPort} {s : State} {t : State} (h : execCommitMemp q s = .next t) : Keeps kdM s t := by
  have := @commitGo_keeps
  have h0 := Keeps.refl (kd := kdM) s
  unfold execCommitMemp at h
  refine actCfg_keeps ?_ h
  exact goC

theorem execSlowPortDrain_keeps {q : SlowPort} {s : State} {t : State} (h : execSlowPortDrain q s = .next t) : Keeps kdM s t := by
  have := @commitGo_keeps
  have h0 := Keeps.refl (kd := kdM) s
  unfold execSlowPortDrain at h
  refine actCfg_keeps ?_ h
  exact goC

theorem execSlowPortRetire_keeps {q : SlowPort} {s : State} {t : State} (h : execSlowPortRetire q s = .next t) : Keeps kdM s t := by
  have := @commitGo_keeps
  have h0 := Keeps.refl (kd := kdM) s
  unfold execSlowPortRetire at h
  refine actCfg_keeps ?_ h
  exact goC

theorem execCommitRpg_keeps {s : State} {t : State} (h : execCommitRpg s = .next t) : Keeps kdM s t := by
  have := @commitGo_keeps
  have h0 := Keeps.refl (kd := kdM) s
  unfold execCommitRpg at h
  refine actCfg_keeps ?_ h
  exact goC

theorem execCommitFab_keeps {s : State} {t : State} (h : execCommitFab s = .next t) : Keeps kdM s t := by
  have := @commitGo_keeps
  have h0 := Keeps.refl (kd := kdM) s
  unfold execCommitFab at h
  refine actCfg_keeps ?_ h
  exact goC

theorem execFabricPortRetire_keeps {s : State} {t : State} (h : execFabricPortRetire s = .next t) : Keeps kdM s t := by
  have := @fabRetire_keeps
  have h0 := Keeps.refl (kd := kdM) s
  unfold execFabricPortRetire at h
  refine actCfg_keeps ?_ h
  exact goC

theorem execGroupCommit_keeps {s : State} {t : State} (h : execGroupCommit s = .next t) : Keeps kdM s t := by
  have := @cfgWrite_keeps
  have h0 := Keeps.refl (kd := kdM) s
  unfold execGroupCommit at h
  refine actCfg_keeps ?_ h
  exact goC

theorem execCommitSwitch_keeps {page : PageIx} {s : State} {t : State} (h : execCommitSwitch page s = .next t) : Keeps kdM s t := by
  have := @commitSwitch_keeps
  have := @cfgSettle_keeps
  have h0 := Keeps.refl (kd := kdM) s
  unfold execCommitSwitch at h
  refine actCfg_keeps ?_ h
  exact goC

theorem execCommitFollowOnEnd_keeps {page : PageIx} {s : State} {t : State} (h : execCommitFollowOnEnd page s = .next t) : Keeps kdM s t := by
  have := @followEnd_keeps
  have := @cfgSettle_keeps
  have h0 := Keeps.refl (kd := kdM) s
  unfold execCommitFollowOnEnd at h
  refine actCfg_keeps ?_ h
  exact goC

theorem execRowLoad_keeps {word1 : Word} {s : State} {t : State} (h : execRowLoad word1 s = .next t) : Keeps kdM s t := by
  have := @cfgWrite_keeps
  have h0 := Keeps.refl (kd := kdM) s
  unfold execRowLoad at h
  refine actCfg_keeps ?_ h
  exact goC

theorem execStreamArm_keeps {bits : BitVec 4} {s : State} {t : State} (h : execStreamArm bits s = .next t) : Keeps kdM s t := by
  have := @cfgWrite_keeps
  have h0 := Keeps.refl (kd := kdM) s
  unfold execStreamArm at h
  refine actCfg_keeps ?_ h
  exact goC

theorem execStreamDisarm_keeps {bits : BitVec 4} {s : State} {t : State} (h : execStreamDisarm bits s = .next t) : Keeps kdM s t := by
  have := @cfgWrite_keeps
  have h0 := Keeps.refl (kd := kdM) s
  unfold execStreamDisarm at h
  refine actCfg_keeps ?_ h
  exact goC

theorem execCancel_keeps {value : BitVec 4} {s : State} {t : State} (h : execCancel value s = .next t) : Keeps kdM s t := by
  have := @cfgWrite_keeps
  have h0 := Keeps.refl (kd := kdM) s
  unfold execCancel at h
  refine actCfg_keeps ?_ h
  exact goC

theorem execRetest_keeps {ch : Chan} {s : State} {t : State} (h : execRetest ch s = .next t) : Keeps kdM s t := by
  have := @cfgWrite_keeps
  have h0 := Keeps.refl (kd := kdM) s
  unfold execRetest at h
  refine actCfg_keeps ?_ h
  exact goC

theorem execRevert_keeps {page : PageIx} {s : State} {t : State} (h : execRevert page s = .next t) : Keeps kdM s t := by
  have := @cfgWrite_keeps
  have h0 := Keeps.refl (kd := kdM) s
  unfold execRevert at h
  refine actCfg_keeps ?_ h
  exact goC

theorem execSliceLose_keeps {bits : BitVec 8} {s : State} {t : State} (h : execSliceLose bits s = .next t) : Keeps kdM s t := by
  have := @cfgWrite_keeps
  have h0 := Keeps.refl (kd := kdM) s
  unfold execSliceLose at h
  refine actCfg_keeps ?_ h
  exact goC

theorem execReadLCapture_keeps {addr : BitVec 24} {s : State} {t : State} (h : execReadLCapture addr s = .next t) : Keeps kdM s t := by
  have := @cfgRead_keeps
  have h0 := Keeps.refl (kd := kdM) s
  unfold execReadLCapture at h
  refine actCfg_keeps ?_ h
  exact goC

theorem execRegisterWrite_keeps {addr : BitVec 24} {data : Word} {s : State} {t : State} (h : execRegisterWrite addr data s = .next t) : Keeps kdM s t := by
  have := @cfgWrite_keeps
  have h0 := Keeps.refl (kd := kdM) s
  unfold execRegisterWrite at h
  refine actCfg_keeps ?_ h
  exact goC

theorem execFence_keeps {p : Part} {st : Strm} {s : State} {t : State} (h : execFence p st s = .next t) : Keeps kd s t := by
  have := @settle_keeps
  have := @issueControl_keeps
  have := @issueOp_keeps
  have h0 := Keeps.refl (kd := kd) s
  unfold execFence at h
  refine act_keeps ?_ h
  exact go2

theorem execFenceTimeout_keeps {p : Part} {st : Strm} {s : State} {t : State} (h : execFenceTimeout p st s = .next t) : Keeps kd s t := by
  have := @fenceTimeout_keeps
  have h0 := Keeps.refl (kd := kd) s
  unfold execFenceTimeout at h
  refine act_keeps ?_ h
  exact go2

theorem execTaskBegin_keeps {p : Part} {st : Strm} {s : State} {t : State} (h : execTaskBegin p st s = .next t) : Keeps kd s t := by
  have := @issueControl_keeps
  have := @issueOp_keeps
  have h0 := Keeps.refl (kd := kd) s
  unfold execTaskBegin at h
  refine act_keeps ?_ h
  exact go2

theorem execTaskEnd_keeps {p : Part} {st : Strm} {s : State} {t : State} (h : execTaskEnd p st s = .next t) : Keeps kd s t := by
  have := @settle_keeps
  have := @issueControl_keeps
  have := @issueOp_keeps
  have h0 := Keeps.refl (kd := kd) s
  unfold execTaskEnd at h
  refine act_keeps ?_ h
  exact go2

theorem execWaitPhase_keeps {p : Part} {st : Strm} {s : State} {t : State} (h : execWaitPhase p st s = .next t) : Keeps kd s t := by
  have := @settle_keeps
  have := @issueControl_keeps
  have := @issueOp_keeps
  have h0 := Keeps.refl (kd := kd) s
  unfold execWaitPhase at h
  refine act_keeps ?_ h
  exact go2

theorem execStamp_keeps {p : Part} {st : Strm} {s : State} {t : State} (h : execStamp p st s = .next t) : Keeps kd s t := by
  have := @settle_keeps
  have := @issueControl_keeps
  have := @issueOp_keeps
  have h0 := Keeps.refl (kd := kd) s
  unfold execStamp at h
  refine act_keeps ?_ h
  exact go2

theorem execAttnFwd_keeps {p : Part} {st : Strm} {s : State} {t : State} (h : execAttnFwd p st s = .next t) : Keeps kd s t := by
  have := @issueChan_keeps
  have := @issueOp_keeps
  have h0 := Keeps.refl (kd := kd) s
  unfold execAttnFwd at h
  refine act_keeps ?_ h
  exact go2

theorem execAttnBwdA_keeps {p : Part} {st : Strm} {s : State} {t : State} (h : execAttnBwdA p st s = .next t) : Keeps kd s t := by
  have := @issueChan_keeps
  have := @issueOp_keeps
  have h0 := Keeps.refl (kd := kd) s
  unfold execAttnBwdA at h
  refine act_keeps ?_ h
  exact go2

theorem execAttnBwdB_keeps {p : Part} {st : Strm} {s : State} {t : State} (h : execAttnBwdB p st s = .next t) : Keeps kd s t := by
  have := @issueChan_keeps
  have := @issueOp_keeps
  have h0 := Keeps.refl (kd := kd) s
  unfold execAttnBwdB at h
  refine act_keeps ?_ h
  exact go2

theorem execAttnDec_keeps {p : Part} {st : Strm} {s : State} {t : State} (h : execAttnDec p st s = .next t) : Keeps kd s t := by
  have := @issueChan_keeps
  have := @issueOp_keeps
  have h0 := Keeps.refl (kd := kd) s
  unfold execAttnDec at h
  refine act_keeps ?_ h
  exact go2

theorem execSwarmDeadline_keeps {p : Part} {s : State} {t : State} (h : execSwarmDeadline p s = .next t) : Keeps kd s t := by
  have := @launchDue_keeps
  have h0 := Keeps.refl (kd := kd) s
  unfold execSwarmDeadline at h
  refine act_keeps ?_ h
  exact go2

theorem execPageSelect_keeps {p : Part} {st : Strm} {s : State} {t : State} (h : execPageSelect p st s = .next t) : Keeps kd s t := by
  have := @issueChan_keeps
  have := @issueOp_keeps
  have h0 := Keeps.refl (kd := kd) s
  unfold execPageSelect at h
  refine act_keeps ?_ h
  exact go2

theorem execSoftmax_keeps {p : Part} {st : Strm} {s : State} {t : State} (h : execSoftmax p st s = .next t) : Keeps kd s t := by
  have := @issueChan_keeps
  have := @issueOp_keeps
  have h0 := Keeps.refl (kd := kd) s
  unfold execSoftmax at h
  refine act_keeps ?_ h
  exact go2

theorem execFn_keeps {p : Part} {st : Strm} {s : State} {t : State} (h : execFn p st s = .next t) : Keeps kd s t := by
  have := @issueChan_keeps
  have := @issueOp_keeps
  have h0 := Keeps.refl (kd := kd) s
  unfold execFn at h
  refine act_keeps ?_ h
  exact go2

theorem execNorm_keeps {p : Part} {st : Strm} {s : State} {t : State} (h : execNorm p st s = .next t) : Keeps kd s t := by
  have := @issueChan_keeps
  have := @issueOp_keeps
  have h0 := Keeps.refl (kd := kd) s
  unfold execNorm at h
  refine act_keeps ?_ h
  exact go2

theorem execRot_keeps {p : Part} {st : Strm} {s : State} {t : State} (h : execRot p st s = .next t) : Keeps kd s t := by
  have := @issueChan_keeps
  have := @issueOp_keeps
  have h0 := Keeps.refl (kd := kd) s
  unfold execRot at h
  refine act_keeps ?_ h
  exact go2

theorem execSeqOpen_keeps {p : Part} {st : Strm} {s : State} {t : State} (h : execSeqOpen p st s = .next t) : Keeps kd s t := by
  have := @editOp_keeps
  have h0 := Keeps.refl (kd := kd) s
  unfold execSeqOpen at h
  refine act_keeps ?_ h
  exact go2

theorem execSeqAppend_keeps {p : Part} {st : Strm} {s : State} {t : State} (h : execSeqAppend p st s = .next t) : Keeps kd s t := by
  have := @editOp_keeps
  have h0 := Keeps.refl (kd := kd) s
  unfold execSeqAppend at h
  refine act_keeps ?_ h
  exact go2

theorem execSeqFork_keeps {p : Part} {st : Strm} {s : State} {t : State} (h : execSeqFork p st s = .next t) : Keeps kd s t := by
  have := @editOp_keeps
  have h0 := Keeps.refl (kd := kd) s
  unfold execSeqFork at h
  refine act_keeps ?_ h
  exact go2

theorem execSeqFree_keeps {p : Part} {st : Strm} {s : State} {t : State} (h : execSeqFree p st s = .next t) : Keeps kd s t := by
  have := @editOp_keeps
  have h0 := Keeps.refl (kd := kd) s
  unfold execSeqFree at h
  refine act_keeps ?_ h
  exact go2

theorem execSeqPark_keeps {p : Part} {st : Strm} {s : State} {t : State} (h : execSeqPark p st s = .next t) : Keeps kd s t := by
  have := @seqPark_keeps
  have h0 := Keeps.refl (kd := kd) s
  unfold execSeqPark at h
  refine act_keeps ?_ h
  exact go2

theorem execSeqResume_keeps {p : Part} {st : Strm} {s : State} {t : State} (h : execSeqResume p st s = .next t) : Keeps kd s t := by
  have := @editOp_keeps
  have h0 := Keeps.refl (kd := kd) s
  unfold execSeqResume at h
  refine act_keeps ?_ h
  exact go2

theorem execPoolCompact_keeps {p : Part} {st : Strm} {s : State} {t : State} (h : execPoolCompact p st s = .next t) : Keeps kd s t := by
  have := @editOp_keeps
  have h0 := Keeps.refl (kd := kd) s
  unfold execPoolCompact at h
  refine act_keeps ?_ h
  exact go2

theorem execReclaimWinExpiry_keeps {p : Part} {s : State} {t : State} (h : execReclaimWinExpiry p s = .next t) : Keeps kd s t := by
  have := @waitExpired_keeps
  have h0 := Keeps.refl (kd := kd) s
  unfold execReclaimWinExpiry at h
  refine act_keeps ?_ h
  exact go2

theorem execXfer_keeps {p : Part} {st : Strm} {s : State} {t : State} (h : execXfer p st s = .next t) : Keeps kd s t := by
  have := @transferOp_keeps
  have h0 := Keeps.refl (kd := kd) s
  unfold execXfer at h
  refine act_keeps ?_ h
  exact go2

theorem execFeed_keeps {p : Part} {st : Strm} {s : State} {t : State} (h : execFeed p st s = .next t) : Keeps kd s t := by
  have := @transferOp_keeps
  have h0 := Keeps.refl (kd := kd) s
  unfold execFeed at h
  refine act_keeps ?_ h
  exact go2

theorem execTransferPeriod_keeps {p : Part} {slot : Fin 32} {s : State} {t : State} (h : execTransferPeriod p slot s = .next t) : Keeps kd s t := by
  have := @transferPeriod_keeps
  have h0 := Keeps.refl (kd := kd) s
  unfold execTransferPeriod at h
  refine act_keeps ?_ h
  exact go2

theorem execMoltSend_keeps {p : Part} {st : Strm} {s : State} {t : State} (h : execMoltSend p st s = .next t) : Keeps kd s t := by
  have := @remoteOp_keeps
  have h0 := Keeps.refl (kd := kd) s
  unfold execMoltSend at h
  refine act_keeps ?_ h
  exact go2

theorem execMoltRecv_keeps {p : Part} {st : Strm} {s : State} {t : State} (h : execMoltRecv p st s = .next t) : Keeps kd s t := by
  have := @moltRecv_keeps
  have h0 := Keeps.refl (kd := kd) s
  unfold execMoltRecv at h
  refine act_keeps ?_ h
  exact go2

theorem execMoltLocal_keeps {p : Part} {st : Strm} {s : State} {t : State} (h : execMoltLocal p st s = .next t) : Keeps kd s t := by
  have := @moltLocal_keeps
  have h0 := Keeps.refl (kd := kd) s
  unfold execMoltLocal at h
  refine act_keeps ?_ h
  exact go2

theorem execRingStepAttn_keeps {p : Part} {st : Strm} {s : State} {t : State} (h : execRingStepAttn p st s = .next t) : Keeps kd s t := by
  have := @remoteOp_keeps
  have h0 := Keeps.refl (kd := kd) s
  unfold execRingStepAttn at h
  refine act_keeps ?_ h
  exact go2

theorem execRingStepGather_keeps {p : Part} {st : Strm} {s : State} {t : State} (h : execRingStepGather p st s = .next t) : Keeps kd s t := by
  have := @remoteOp_keeps
  have h0 := Keeps.refl (kd := kd) s
  unfold execRingStepGather at h
  refine act_keeps ?_ h
  exact go2

theorem execRedRecv_keeps {p : Part} {st : Strm} {s : State} {t : State} (h : execRedRecv p st s = .next t) : Keeps kd s t := by
  have := @remoteOp_keeps
  have h0 := Keeps.refl (kd := kd) s
  unfold execRedRecv at h
  refine act_keeps ?_ h
  exact go2

theorem execMirrorSeg_keeps {p : Part} {st : Strm} {s : State} {t : State} (h : execMirrorSeg p st s = .next t) : Keeps kd s t := by
  have := @remoteOp_keeps
  have h0 := Keeps.refl (kd := kd) s
  unfold execMirrorSeg at h
  refine act_keeps ?_ h
  exact go2

theorem execMirrorAloneExpiry_keeps {port : RemPort} {s : State} {t : State} (h : execMirrorAloneExpiry port s = .next t) : Keeps kd s t := by
  have := @mirrorAlone_keeps
  have h0 := Keeps.refl (kd := kd) s
  unfold execMirrorAloneExpiry at h
  refine act_keeps ?_ h
  exact go2

theorem execHeaderFrameReceive_keeps {port : RemPort} {frame : LinkFrame} {err : Bool} {s : State} {t : State} (h : execHeaderFrameReceive port frame err s = .next t) : Keeps kd s t := by
  have := @headerReceive_keeps
  have h0 := Keeps.refl (kd := kd) s
  unfold execHeaderFrameReceive at h
  refine act_keeps ?_ h
  exact go2

theorem execDataFrameReceive_keeps {port : RemPort} {frame : LinkFrame} {err : Bool} {s : State} {t : State} (h : execDataFrameReceive port frame err s = .next t) : Keeps kd s t := by
  have := @dataReceive_keeps
  have h0 := Keeps.refl (kd := kd) s
  unfold execDataFrameReceive at h
  refine act_keeps ?_ h
  exact go2

theorem execFreedReportTimer_keeps {port : RemPort} {s : State} {t : State} (h : execFreedReportTimer port s = .next t) : Keeps kd s t := by
  have := @freedReport_keeps
  have h0 := Keeps.refl (kd := kd) s
  unfold execFreedReportTimer at h
  refine act_keeps ?_ h
  exact go2

theorem execLinkUp_keeps {port : RemPort} {s : State} {t : State} (h : execLinkUp port s = .next t) : Keeps kd s t := by
  have := @linkUp_keeps
  have h0 := Keeps.refl (kd := kd) s
  unfold execLinkUp at h
  refine act_keeps ?_ h
  exact go2

theorem execLinkDown_keeps {port : RemPort} {s : State} {t : State} (h : execLinkDown port s = .next t) : Keeps kd s t := by
  have := @linkDown_keeps
  have h0 := Keeps.refl (kd := kd) s
  unfold execLinkDown at h
  refine act_keeps ?_ h
  exact go2

theorem execRemoteTimeout_keeps {p : Part} {st : Strm} {stamp : Word} {s : State} {t : State} (h : execRemoteTimeout p st stamp s = .next t) : Keeps kd s t := by
  have := @remoteTimeout_keeps
  have h0 := Keeps.refl (kd := kd) s
  unfold execRemoteTimeout at h
  refine act_keeps ?_ h
  exact go2

theorem execRingPoll_keeps {p : Part} {st : Strm} {s : State} {t : State} (h : execRingPoll p st s = .next t) : Keeps kd s t := by
  have := @ringPoll_keeps
  have h0 := Keeps.refl (kd := kd) s
  unfold execRingPoll at h
  refine act_keeps ?_ h
  exact go2

theorem execCompletionRecordWrite_keeps {p : Part} {st : Strm} {s : State} {t : State} (h : execCompletionRecordWrite p st s = .next t) : Keeps kd s t := by
  have := @completeNext_keeps
  have := @launchDue_keeps
  have h0 := Keeps.refl (kd := kd) s
  unfold execCompletionRecordWrite at h
  refine act_keeps ?_ h
  exact go2

theorem execChannelTakeUnit_keeps {ch : Chan} {s : State} {t : State} (h : execChannelTakeUnit ch s = .next t) : Keeps kd s t := by
  have := @takeUnit_keeps
  have := @remSettle_keeps
  have := @wakeForUnit_keeps
  have h0 := Keeps.refl (kd := kd) s
  unfold execChannelTakeUnit at h
  refine act_keeps ?_ h
  exact go2

theorem execUnitEnd_keeps {ch : Chan} {upset : Option UnitUpset} {s : State} {t : State} (h : execUnitEnd ch upset s = .next t) : Keeps kd s t := by
  have := @unitEnd_keeps
  have h0 := Keeps.refl (kd := kd) s
  unfold execUnitEnd at h
  refine act_keeps ?_ h
  exact go2

theorem execFabricTargetRead_keeps {port : FabPort} {hdr : BitVec 80} {upsets : List Upset} {s : State} {t : State} (h : execFabricTargetRead port hdr upsets s = .next t) : Keeps kd s t := by
  have := @targetRead_keeps
  have h0 := Keeps.refl (kd := kd) s
  unfold execFabricTargetRead at h
  refine act_keeps ?_ h
  exact go2

theorem execFabricTargetWrite_keeps {port : FabPort} {hdr : BitVec 80} {beats : List Beat} {s : State} {t : State} (h : execFabricTargetWrite port hdr beats s = .next t) : Keeps kd s t := by
  have := @targetWrite_keeps
  have h0 := Keeps.refl (kd := kd) s
  unfold execFabricTargetWrite at h
  refine act_keeps ?_ h
  exact go2

theorem execFabricIqCredit_keeps {port : FabPort} {s : State} {t : State} (h : execFabricIqCredit port s = .next t) : Keeps kd s t := by
  have := @iqCredit_keeps
  have h0 := Keeps.refl (kd := kd) s
  unfold execFabricIqCredit at h
  refine act_keeps ?_ h
  exact go2

theorem execFabricIpResponse_keeps {port : FabPort} {hdr : BitVec 16} {data : List (BitVec 1024)} {s : State} {t : State} (h : execFabricIpResponse port hdr data s = .next t) : Keeps kdM s t := by
  have := @ipResponse_keeps
  have h0 := Keeps.refl (kd := kdM) s
  unfold execFabricIpResponse at h
  refine act_keeps ?_ h
  exact goC

theorem execFabricResponseTimeout_keeps {port : FabPort} {tag : BitVec 8} {s : State} {t : State} (h : execFabricResponseTimeout port tag s = .next t) : Keeps kdM s t := by
  have := @responseTimeout_keeps
  have h0 := Keeps.refl (kd := kdM) s
  unfold execFabricResponseTimeout at h
  refine act_keeps ?_ h
  exact goC

theorem execLossEdit_keeps {p : Part} {s : State} {t : State} (h : execLossEdit p s = .next t) : Keeps kd s t := by
  have := @lossEdit_keeps
  have h0 := Keeps.refl (kd := kd) s
  unfold execLossEdit at h
  refine act_keeps ?_ h
  exact go2

theorem execSnap_keeps {p : Part} {st : Strm} {s : State} {t : State} (h : execSnap p st s = .next t) : Keeps kd s t := by
  have := @snapOp_keeps
  have h0 := Keeps.refl (kd := kd) s
  unfold execSnap at h
  refine act_keeps ?_ h
  exact go2

theorem execSnapQuiesce_keeps {p : Part} {s : State} {t : State} (h : execSnapQuiesce p s = .next t) : Keeps kd s t := by
  have := @snapQuiesce_keeps
  have h0 := Keeps.refl (kd := kd) s
  unfold execSnapQuiesce at h
  refine act_keeps ?_ h
  exact go2

theorem execSnapTimeout_keeps {p : Part} {s : State} {t : State} (h : execSnapTimeout p s = .next t) : Keeps kd s t := by
  have := @snapTimeout_keeps
  have h0 := Keeps.refl (kd := kd) s
  unfold execSnapTimeout at h
  refine act_keeps ?_ h
  exact go2

theorem execChannelReturn_keeps {ch : Chan} {s : State} {t : State} (h : execChannelReturn ch s = .next t) : Keeps kd s t := by
  have := @channelReturn_keeps
  have h0 := Keeps.refl (kd := kd) s
  unfold execChannelReturn at h
  refine act_keeps ?_ h
  exact go2

theorem execSelfTestStart_keeps {ch : Chan} {s : State} {t : State} (h : execSelfTestStart ch s = .next t) : Keeps kd s t := by
  have := @selfTestStart_keeps
  have h0 := Keeps.refl (kd := kd) s
  unfold execSelfTestStart at h
  refine act_keeps ?_ h
  exact go2

theorem execSelfTestDone_keeps {ch : Chan} {report : List LaneReport} {s : State} {t : State} (h : execSelfTestDone ch report s = .next t) : Keeps kdM s t := by
  have := @selfTestDone_keeps
  have := @cfgSettle_keeps
  have h0 := Keeps.refl (kd := kdM) s
  unfold execSelfTestDone at h
  refine act_keeps ?_ h
  exact goC

theorem execChannelWatchdog_keeps {ch : Chan} {s : State} {t : State} (h : execChannelWatchdog ch s = .next t) : Keeps kd s t := by
  have := @channelWatchdog_keeps
  have h0 := Keeps.refl (kd := kd) s
  unfold execChannelWatchdog at h
  refine act_keeps ?_ h
  exact go2

theorem execCtlParity_keeps {ch : Chan} {group : BitVec 8} {s : State} {t : State} (h : execCtlParity ch group s = .next t) : Keeps kd s t := by
  have := @ctlParity_keeps
  have h0 := Keeps.refl (kd := kd) s
  unfold execCtlParity at h
  refine act_keeps ?_ h
  exact go2

theorem execCadenceTick_keeps {phase : DWord} {s : State} {t : State} (h : execCadenceTick phase s = .next t) : Keeps kdK s t := by
  have := @cadenceTick_keeps
  have h0 := Keeps.refl (kd := kdK) s
  unfold execCadenceTick at h
  refine act_keeps ?_ h
  exact goK

theorem execCadValidFall_keeps {s : State} {t : State} (h : execCadValidFall s = .next t) : Keeps kdK s t := by
  have := @cadFall_keeps
  have h0 := Keeps.refl (kd := kdK) s
  unfold execCadValidFall at h
  refine act_keeps ?_ h
  exact goK

theorem execCadValidRise_keeps {s : State} {t : State} (h : execCadValidRise s = .next t) : Keeps kdK s t := by
  have := @cadRise_keeps
  have h0 := Keeps.refl (kd := kdK) s
  unfold execCadValidRise at h
  refine act_keeps ?_ h
  exact goK

theorem execPwrAck_keeps {s : State} {t : State} (h : execPwrAck s = .next t) : Keeps kd s t := by
  have := @pwrAck_keeps
  have h0 := Keeps.refl (kd := kd) s
  unfold execPwrAck at h
  refine act_keeps ?_ h
  exact go2

theorem execBudgetInChange_keeps {value : BitVec 16} {s : State} {t : State} (h : execBudgetInChange value s = .next t) : Keeps kd s t := by
  have := @budgetTake_keeps
  have h0 := Keeps.refl (kd := kd) s
  unfold execBudgetInChange at h
  refine act_keeps ?_ h
  exact go2

theorem execBudgetRefill_keeps {s : State} {t : State} (h : execBudgetRefill s = .next t) : Keeps kd s t := by
  have := @budgetRefill_keeps
  have h0 := Keeps.refl (kd := kd) s
  unfold execBudgetRefill at h
  refine act_keeps ?_ h
  exact go2

theorem execTemperatureReading_keeps {ch : Chan} {code : BitVec 12} {s : State} {t : State} (h : execTemperatureReading ch code s = .next t) : Keeps kd s t := by
  have := @temperature_keeps
  have h0 := Keeps.refl (kd := kd) s
  unfold execTemperatureReading at h
  refine act_keeps ?_ h
  exact go2

theorem execPowerStateEntry_keeps {ch : Chan} {s : State} {t : State} (h : execPowerStateEntry ch s = .next t) : Keeps kd s t := by
  have := @powerEntry_keeps
  have h0 := Keeps.refl (kd := kd) s
  unfold execPowerStateEntry at h
  refine act_keeps ?_ h
  exact go2

theorem execPowerWakeStart_keeps {ch : Chan} {s : State} {t : State} (h : execPowerWakeStart ch s = .next t) : Keeps kd s t := by
  have := @powerWake_keeps
  have h0 := Keeps.refl (kd := kd) s
  unfold execPowerWakeStart at h
  refine act_keeps ?_ h
  exact go2

theorem execDozeWakeRequest_keeps {slice : Chan} {s : State} {t : State} (h : execDozeWakeRequest slice s = .next t) : Keeps kd s t := by
  have := @dozeWake_keeps
  have h0 := Keeps.refl (kd := kd) s
  unfold execDozeWakeRequest at h
  refine act_keeps ?_ h
  exact go2

theorem partWork_keeps {z0 : State} {s : State} {p : Nat} (h : Keeps kd z0 s) :
    Keeps kd z0 (partWork s p) := by
  have := @iqWork_keeps
  have := @ringPoll_keeps
  unfold partWork
  exact go2

theorem sramAck_keeps {z0 : State} {s : State} {ch : Nat} {level : Bool} (h : Keeps kd z0 s) :
    Keeps kd z0 (sramAck s ch level) := by
  have := @partWork_keeps
  have := @retentionAck_keeps
  have := @tqResume_keeps
  unfold sramAck
  exact go2

theorem execSramRetentionAck_keeps {tier : Chan} {level : Bool} {s : State} {t : State} (h : execSramRetentionAck tier level s = .next t) : Keeps kd s t := by
  have := @retentionAck_keeps
  have h0 := Keeps.refl (kd := kd) s
  have := @sramAck_keeps
  unfold execSramRetentionAck at h
  refine act_keeps ?_ h
  exact go2

theorem execDrainReliefEdit_keeps {q : SlowPort} {s : State} {t : State} (h : execDrainReliefEdit q s = .next t) : Keeps kd s t := by
  have := @drainEdit_keeps
  have h0 := Keeps.refl (kd := kd) s
  unfold execDrainReliefEdit at h
  refine act_keeps ?_ h
  exact go2

theorem execSlowPortBringUp_keeps {q : SlowPort} {s : State} {t : State} (h : execSlowPortBringUp q s = .next t) : Keeps kd s t := by
  have := @portClock_keeps
  have h0 := Keeps.refl (kd := kd) s
  unfold execSlowPortBringUp at h
  refine act_keeps ?_ h
  exact go2

theorem execDfiInitComplete_keeps {q : SlowPort} {s : State} {t : State} (h : execDfiInitComplete q s = .next t) : Keeps kd s t := by
  have := @dfiInit_keeps
  have h0 := Keeps.refl (kd := kd) s
  unfold execDfiInitComplete at h
  refine act_keeps ?_ h
  exact go2

theorem execSlowPortReady_keeps {q : SlowPort} {s : State} {t : State} (h : execSlowPortReady q s = .next t) : Keeps kd s t := by
  have := @portUp_keeps
  have h0 := Keeps.refl (kd := kd) s
  unfold execSlowPortReady at h
  refine act_keeps ?_ h
  exact go2

theorem execTrainingTimeout_keeps {q : SlowPort} {s : State} {t : State} (h : execTrainingTimeout q s = .next t) : Keeps kd s t := by
  have := @trainingTimeout_keeps
  have h0 := Keeps.refl (kd := kd) s
  unfold execTrainingTimeout at h
  refine act_keeps ?_ h
  exact go2

theorem execDfiError_keeps {q : SlowPort} {code : BitVec 8} {s : State} {t : State} (h : execDfiError q code s = .next t) : Keeps kd s t := by
  have := @dfiError_keeps
  have h0 := Keeps.refl (kd := kd) s
  unfold execDfiError at h
  refine act_keeps ?_ h
  exact go2

theorem execDfiPhyUpdate_keeps {q : SlowPort} {s : State} {t : State} (h : execDfiPhyUpdate q s = .next t) : Keeps kd s t := by
  have := @phyUpdate_keeps
  have h0 := Keeps.refl (kd := kd) s
  unfold execDfiPhyUpdate at h
  refine act_keeps ?_ h
  exact go2

theorem execRefresh_keeps {q : SlowPort} {s : State} {t : State} (h : execRefresh q s = .next t) : Keeps kd s t := by
  have := @refreshPort_keeps
  have h0 := Keeps.refl (kd := kd) s
  unfold execRefresh at h
  refine act_keeps ?_ h
  exact go2

theorem execPatrolScrubStep_keeps {unit : RowUnit} {upsets : List Upset} {s : State} {t : State} (h : execPatrolScrubStep unit upsets s = .next t) : Keeps kd s t := by
  have := @scrubStep_keeps
  have h0 := Keeps.refl (kd := kd) s
  unfold execPatrolScrubStep at h
  refine act_keeps ?_ h
  exact go2

theorem execCorrectionWriteBack_keeps {unit : RowUnit} {s : State} {t : State} (h : execCorrectionWriteBack unit s = .next t) : Keeps kd s t := by
  have := @writeBack_keeps
  have h0 := Keeps.refl (kd := kd) s
  unfold execCorrectionWriteBack at h
  refine act_keeps ?_ h
  exact go2

theorem execSliceLinkFail_keeps {slice : Chan} {s : State} {t : State} (hk : kd.lost = false) (h : execSliceLinkFail slice s = .next t) : Keeps kd s t := by
  have := @loseSlice_keeps
  have h0 := Keeps.refl (kd := kd) s
  unfold execSliceLinkFail at h
  refine act_keeps ?_ h
  exact go2

end Sys2Proof.Machine
end

