-- ==== Sys2Proof/WellFormed.lean ====
section
/-! DEFINITION. Which commands are well formed: the operands that the manual's tables admit. A term
outside is no command that the block's ports can carry. -/

namespace Sys2Proof

/-- Bits [lo + width − 1 : lo] of a register word's number. -/
def capField (n lo width : Nat) : Nat := (n >>> lo) % 2 ^ width

/-- A `BLK.CAP` word of a grade that exists (R2, R3, Table 16-4). -/
def capOk (c : Nat) : Bool :=
  (capField c 0 4 == 4 || capField c 0 4 == 6 || capField c 0 4 == 8) &&
  (capField c 4 3 == 3 || capField c 4 3 == 4) && capField c 7 1 == 0 &&
  (capField c 8 5 == 0 || capField c 8 5 == 8 || capField c 8 5 == 16) &&
  (capField c 13 7 == 0 || capField c 13 7 == 32 || capField c 13 7 == 64) &&
  capField c 25 7 == 0 && (capField c 22 3 == 0 || capField c 13 7 != 0)

/-- A page lane's report: array, lane and physical columns in range, columns ascending (R76). -/
def LaneReport.ok (r : LaneReport) : Bool :=
  decide (r.array < 4) && decide (r.lane < 4) && r.columns.all (fun c => decide (c < 260)) &&
    decide (r.columns.Pairwise (· < ·))

/-- A fuse store that Table 16-7 describes. -/
def FuseImage.ok (f : FuseImage) : Bool :=
  capOk f.cap.toNat && f.columns.all (fun e => decide (e.1 < 8) && e.2.ok) &&
    decide (f.th.length = 8) && decide (f.vf.length = 8)

/-- A write request's beats are `LEN` + 1 (R327). -/
def beatsOk (hdr : BitVec 80) (beats : List Beat) : Bool :=
  decide (beats.length = capField hdr.toNat 16 2 + 1)

/-- An upset of a symbol of a row (R186). -/
def Upset.ok (u : Upset) : Bool := decide (u.sym < 272) && u.row % 512 == 0

/-- What a unit's memories report (R392, R393, Table 15-2). -/
def UnitUpset.ok : UnitUpset → Bool
  | .residue a _ _ => decide (a < 4)
  | .dataMem m _ => decide (m < 4)
  | .corrected n => decide (0 < n)

/-- Whether a command is well formed. -/
def Instr.wf : Instr → Bool
  | .unitEnd _ (some u) => u.ok
  | .rowLoad _ => true
  | .selfTestDone _ rs => rs.all LaneReport.ok
  | .readLCapture a => a.toNat % 4 == 0
  | .registerWrite a _ => a.toNat % 4 == 0
  | .fuseLoadDone f => f.ok
  | .startupSelfTestDone rs => decide (rs.length = 8) && rs.all fun r => r.all LaneReport.ok
  | .fabricTargetRead _ _ us => us.all Upset.ok
  | .fabricTargetWrite _ h bs => beatsOk h bs
  | .fabricIpResponse _ _ d => decide (d.length ≤ 4)
  | .headerFrameReceive _ f _ => decide (f.bytes.length = 4096) && f.sof.toNat % 4 == 3
  | .dataFrameReceive _ f _ => decide (f.bytes.length = 4096) && f.sof.toNat % 4 == 1
  | .patrolScrubStep _ us => us.all Upset.ok
  | _ => true

end Sys2Proof
end

