-- ==== Sys2Proof/Tests/Slice0.lean ====
section
/-! SUPPORT. Small tests: terms that `Instr.wf` refuses, and for each statement with hypotheses a state and operands that
meet them together, clause by clause. -/

namespace Sys2Proof.Tests

open Sys2Proof Sys2Proof.Machine

set_option Elab.async false

/-! ## States -/

/-- A started block of the largest grade (Table 16-4), out of test mode, its port quiet. -/
def full : State :=
  { State.reset with
    initFuse := true
    initTest := true
    initStore := true
    fuse := { FuseImage.blank with cap := 0x01F81048, crcOk := true } }

/-- `full` with partition 0 loaded. -/
def loaded : State := { full with effect := [(wordAddr pgPART 0x100, 1)], shadow := [(wordAddr pgPART 0x100, 1)] }

/-! ## Well-formedness -/

theorem test_wf_unit_upset : Instr.wf (.unitEnd 0 (some (.residue 4 0 0))) = false := by decide
theorem test_wf_data_mem : Instr.wf (.unitEnd 0 (some (.dataMem 4 0))) = false := by decide
theorem test_wf_report_array : Instr.wf (.selfTestDone 0 [{ array := 4, lane := 0, columns := [] }]) = false := by decide
theorem test_wf_report_lane : Instr.wf (.selfTestDone 0 [{ array := 0, lane := 4, columns := [] }]) = false := by decide
theorem test_wf_report_column : Instr.wf (.selfTestDone 0 [{ array := 0, lane := 0, columns := [260] }]) = false := by decide
theorem test_wf_report_order : Instr.wf (.selfTestDone 0 [{ array := 0, lane := 0, columns := [2, 1] }]) = false := by decide
theorem test_wf_read_aligned : Instr.wf (.readLCapture 2) = false := by decide
theorem test_wf_write_aligned : Instr.wf (.registerWrite 1 0) = false := by decide
theorem test_wf_fuse_cap : Instr.wf (.fuseLoadDone full.fuse) = false := by decide
theorem test_wf_fuse_channels :
    Instr.wf (.fuseLoadDone { full.fuse with cap := 0x01F81045, th := List.replicate 8 0, vf := List.replicate 8 0 }) = false := by
  decide
theorem test_wf_fuse : Instr.wf (.fuseLoadDone { full.fuse with th := List.replicate 8 0, vf := List.replicate 8 0 }) = true := by
  decide
theorem test_wf_startup_reports : Instr.wf (.startupSelfTestDone []) = false := by decide
theorem test_wf_upset_symbol : Instr.wf (.fabricTargetRead 0 0 [{ row := 0, sym := 272, diff := 1 }]) = false := by decide
theorem test_wf_upset_row : Instr.wf (.patrolScrubStep (.slice 0) [{ row := 1, sym := 0, diff := 1 }]) = false := by decide
theorem test_wf_beats : Instr.wf (.fabricTargetWrite 0 0 []) = false := by decide
theorem test_wf_response : Instr.wf (.fabricIpResponse 0 0 (List.replicate 5 0)) = false := by decide
theorem test_wf_header_frame : Instr.wf (.headerFrameReceive 0 { bytes := [], sof := 0 } false) = false := by decide
theorem test_wf_data_frame : Instr.wf (.dataFrameReceive 0 { bytes := [], sof := 0 } false) = false := by decide

/-! ## The queue, reset and test mode -/

theorem test_never_test : NeverTest { full with pending := [.rstNAssert false] } :=
  ⟨rfl, by intro c h; simp only [List.mem_singleton] at h; subst h; decide⟩

theorem test_reset_kept : ∃ t, ResetHeld (resetAssert full false) ∧ step (resetAssert full false) = .next t :=
  ⟨_, fun _ => rfl, rfl⟩

theorem test_reset_inert :
    (resetAssert full false).testEn = false ∧ (resetAssert full false).rstN = false ∧ byPins .pwrAck = false := by decide

theorem test_test_mode :
    ({ full with testEn := true } : State).testEn = true ∧ (∀ te, Instr.pwrAck ≠ .rstNAssert te) ∧
      ∀ code, Instr.pwrAck ≠ .wrapperInstruction code :=
  ⟨rfl, fun _ h => Instr.noConfusion h, fun _ h => Instr.noConfusion h⟩

theorem test_fuse_err :
    Answers { full with fuseErr := true } ∧ ({ full with fuseErr := true } : State).fuseErr = true ∧
      byPins .pwrAck = false ∧ byCfgPort .pwrAck = false := ⟨⟨rfl, rfl⟩, rfl, rfl, rfl⟩

theorem test_pins_kept : ∃ t, byPins .pwrAck = false ∧ exec .pwrAck full = .next t := ⟨_, rfl, rfl⟩

theorem test_storage : ∃ t, step { full with pending := [.pwrAck] } = .next t ∧ full.mem.wf ∧ ConfigOrdered full :=
  ⟨_, rfl, by simp only [ConfigOrdered]; decide⟩

theorem test_config_port : ∃ t, byPins .pwrAck = false ∧ byCfgPort .pwrAck = false ∧ byStartup .pwrAck = false ∧
    (lettingGo .pwrAck = true → CfgQuiet full) ∧ exec .pwrAck full = .next t ∧ byCadence .pwrAck = false :=
  ⟨_, rfl, rfl, rfl, fun _ => ⟨rfl, rfl⟩, rfl, rfl⟩

theorem test_config_port_answer : ∃ t, byPins (.fabricIpResponse 0 0 []) = false ∧ byCfgPort (.fabricIpResponse 0 0 []) = false ∧
    lettingGo (.fabricIpResponse 0 0 []) = true ∧ CfgQuiet full ∧ exec (.fabricIpResponse 0 0 []) full = .next t :=
  ⟨_, rfl, rfl, rfl, ⟨rfl, rfl⟩, rfl⟩

/-! ## Commits -/

/-- `FLT.WDOG` written and not committed. -/
def watch : State := { full with shadow := [(wordAddr pgFLT 0x100, 5)] }

theorem test_commit : commitPage .commitFlt = some pgFLT ∧ commitAsked watch .commitFlt = true ∧ CommitReady watch pgFLT ∧
    ConfigOrdered watch ∧ commitBad (commitBegun watch (ownCommit pgFLT)) [pgFLT] = none := by
  simp only [CommitReady, Answers, CfgQuiet, ConfigOrdered]; decide +kernel

/-- A wingbeat table of one slot and no period (R303). -/
def noPeriod : State := { full with shadow := [(wordAddr pgWBT 0x104, 0x401)] }

theorem test_refused : commitPage .commitWbt = some pgWBT ∧ commitAsked noPeriod .commitWbt = true ∧
    CommitReady noPeriod pgWBT ∧ ConfigOrdered noPeriod ∧
    commitBad (commitBegun noPeriod (ownCommit pgWBT)) [pgWBT] = some (pgWBT, { status := stCONFLICT, off := 0x100, index := 0 }) := by
  simp only [CommitReady, Answers, CfgQuiet, ConfigOrdered]; decide +kernel

/-- `STRM.POLL0` written zero (R257). -/
def noPoll : State := { full with shadow := [(wordAddr pgSTRM 0x180, 0)] }

theorem test_refused_strm : commitPage .commitStrm = some pgSTRM ∧ commitAsked noPoll .commitStrm = true ∧
    CommitReady noPoll pgSTRM ∧ ConfigOrdered noPoll ∧ pgSTRM ≠ pgWBT ∧
    (commitBad (commitBegun noPoll (ownCommit pgSTRM)) [pgSTRM]).isSome = true := by
  simp only [CommitReady, Answers, CfgQuiet, ConfigOrdered]; decide +kernel

theorem test_waiting : let s := commitBegun watch (ownCommit 3)
    Answers s ∧ s.cfgHeld = [] ∧ s.commits = [ownCommit ((3 : PageIx) : Nat)] ∧ ConfigOrdered s ∧ commitWaits s (ownCommit 3) = false ∧
      (3 : Nat) ≠ pgBLK ∧ ((3 : Nat) = pgSNAP → bitOf (shadowW s pgSNAP 0x100) 3 = false) ∧ commitBad s [3] = none := by
  simp only [Answers, ConfigOrdered]; decide +kernel

/-- `FLT` has joined the group. -/
def joined : State := setLive watch 0 pgFLT 0x008 1

theorem test_group : Answers joined ∧ CfgQuiet joined ∧ joined.fuseErr = false ∧ ConfigOrdered joined ∧ joinedPages joined = [pgFLT] ∧
    commitWaits (commitBegun joined (joinedCommit joined)) (joinedCommit joined) = false ∧
    commitBad (commitBegun joined (joinedCommit joined)) (joinedPages joined) = none := by
  simp only [Answers, CfgQuiet, ConfigOrdered]; decide +kernel

theorem test_follow_on : let s := { full with commits := [{ ownCommit 12 with stage := .follow }] }
    Answers s ∧ s.cfgHeld = [] ∧ s.commits = [{ ownCommit ((12 : PageIx) : Nat) with stage := .follow }] ∧ (12 : Nat) ≠ pgSNAP ∧
      ConfigOrdered s := by
  simp only [Answers, ConfigOrdered]; decide +kernel

/-! ## Accesses of the configuration port -/

theorem test_absent : let a : BitVec 24 := 0xFFF000
    PortOpen full (a.toNat / 0x1000) ∧ pagePresent full (a.toNat / 0x1000) = false := by
  simp only [PortOpen, Answers, CfgQuiet]; decide

theorem test_rw_word : let a : BitVec 24 := 0x003100
    PortOpen full (a.toNat / 0x1000) ∧ pagePresent full (a.toNat / 0x1000) = true ∧ ConfigOrdered full ∧
      rwMask full (a.toNat / 0x1000) (a.toNat % 0x1000) ≠ 0 := by
  simp only [PortOpen, Answers, CfgQuiet, ConfigOrdered]; decide

theorem test_live_word : PortOpen full pgFLT ∧ pagePresent full pgFLT = true ∧ ConfigOrdered full ∧ rwMask full pgFLT 0xF04 = 0 ∧
    actionWord pgFLT 0xF04 = false ∧ liveWord full pgFLT 0xF04 = some (0, 0xFFFFFFFF) := by
  simp only [PortOpen, Answers, CfgQuiet, ConfigOrdered]; decide

theorem test_ro_word : rwMask full pgFLT 0xF00 = 0 ∧ actionWord pgFLT 0xF00 = false ∧ liveWord full pgFLT 0xF00 = none ∧
    w1cWord full pgFLT 0xF00 = none := by decide

theorem test_pair : PortOpen full pgCAD ∧ pagePresent full pgCAD = true ∧ ConfigOrdered full ∧ pairLow pgCAD 0xF00 = true ∧
    pairHigh pgCAD 0xF04 = true := by
  simp only [PortOpen, Answers, CfgQuiet, ConfigOrdered]; decide

theorem test_held : ∃ a, Answers { full with cfgHeld := [a] } ∧ accessOf full (.readLCapture 0) = some a ∧
    ({ full with cfgHeld := [a] } : State).cfgHeld ≠ [] := ⟨_, ⟨rfl, rfl⟩, rfl, by decide⟩

theorem test_held_busy : ∃ a, Answers (commitBegun full (ownCommit pgFLT)) ∧
    accessOf (commitBegun full (ownCommit pgFLT)) (.readLCapture 0x003000) = some a ∧
    pageBusy (commitBegun full (ownCommit pgFLT)) (a.addr / 0x1000) = true ∧ a.addr / 0x1000 ≠ pgBLK :=
  ⟨_, ⟨rfl, rfl⟩, rfl, by decide +kernel, by decide⟩

theorem test_held_group : let s := commitBegun joined (joinedCommit joined)
    ∃ a, Answers s ∧ accessOf s (.readLCapture 0x000F2C) = some a ∧ pageBusy s (a.addr / 0x1000) = true ∧
      ¬(0xF30 ≤ a.addr % 0x1000 ∧ a.addr % 0x1000 < 0xF3C) := ⟨_, ⟨rfl, rfl⟩, rfl, by decide +kernel, by decide⟩

theorem test_held_early : ∃ a, Answers State.reset ∧ accessOf State.reset (.readLCapture 0x003000) = some a ∧
    a.addr / 0x1000 ≠ pgBLK ∧ State.reset.initFuse = false := ⟨_, ⟨rfl, rfl⟩, rfl, by decide, rfl⟩

theorem test_arm : PortOpen full pgSTRM ∧ full.fuseErr = false ∧ ConfigOrdered full ∧ partLoad full (sidx full) = false ∧
    PortOpen loaded pgSTRM ∧ loaded.fuseErr = false ∧ ConfigOrdered loaded ∧ partLoad loaded (sidx loaded) = true := by
  simp only [PortOpen, Answers, CfgQuiet, ConfigOrdered]; decide +kernel

theorem test_arm_sets : (match exec (.streamArm 1) loaded with
    | .next t => (strm t 0 .F).armed && !(strm t 0 .B).armed
    | _ => false) = true := by decide +kernel

theorem test_revert : PortOpen watch pgFLT ∧ pagePresent watch pgFLT = true ∧ ConfigOrdered watch := by
  simp only [PortOpen, Answers, CfgQuiet, ConfigOrdered]; decide

theorem test_retest : PortOpen full (pgARY 7) ∧ pagePresent full (pgARY 7) = true := by
  simp only [PortOpen, Answers, CfgQuiet]; decide

theorem test_cancel : PortOpen loaded pgSTRM ∧ loaded.fuseErr = false ∧ bitOf (7 : BitVec 4).toNat 3 = false ∧
    bitOf (8 : BitVec 4).toNat 3 = true := by
  simp only [PortOpen, Answers, CfgQuiet]; decide

/-- The first row of slice 0, and the second word of its entry. -/
theorem test_row_load : entryRow (full.rload0, 0) = 0 ∧ PortOpen full pgCALU ∧ full.fuseErr = false ∧ rowLoadable full 0 = true ∧
    full.initStore = true ∧ isStore 0 = true := by
  simp only [PortOpen, Answers, CfgQuiet]; decide

theorem test_row_load_spare : let s := { full with initStore := false }
    PortOpen s pgCALU ∧ rowLoadable s 0 = true ∧ (s.repair.any fun x => entryRow x == 0) = false ∧
      (s.fuse.rows.any fun x => entryRow x == 0) = false ∧ s.initStore = false ∧ freeSpare s 0 = some 0 := by
  simp only [PortOpen, Answers, CfgQuiet]; decide

theorem test_row_load_absent : rowLoadable { full with fuse := { full.fuse with cap := 0x01F81044 } } (7 * Config.sliceBytes) = false := by
  decide

theorem test_lose : PortOpen full pgSTORE ∧ full.fuseErr = false ∧ ∀ ch : Nat, (chan full ch).unit = none := by
  have h : ∀ i : Fin 8, full.chans[i].unit = none := by decide
  exact ⟨by simp only [PortOpen, Answers, CfgQuiet]; decide, rfl, fun ch => h (Fin.ofNat 8 ch)⟩

/-! ## Pins, start-up, time -/

theorem test_release : (resetAssert full false).testEn = false ∧ (resetAssert full false).rstN = false ∧
    full.testEn = false ∧ full.rstN = true := by decide

theorem test_wrapper : (match exec (.wrapperInstruction 0x02) full with
    | .next t => t.wir == 0
    | _ => false) = true := by decide +kernel

theorem test_fuse_load : Runs full ∧ CfgQuiet full ∧ full.initFuse = true ∧ Runs State.reset ∧ CfgQuiet State.reset ∧
    State.reset.initFuse = false ∧ FuseImage.blank.crcOk = false ∧ full.fuse.crcOk = true := by
  simp only [Runs, CfgQuiet]; decide

theorem test_startup : let s := { full with initTest := false, initStore := false }
    Runs s ∧ CfgQuiet s ∧ s.initFuse = true ∧ s.initTest = false ∧ s.initStore = false := by
  simp only [Runs, CfgQuiet]; decide

theorem test_idle : full.pending = [] ∧ ConfigOrdered full ∧ (resetAssert full true).pending = [] ∧
    ConfigOrdered (resetAssert full true) ∧ (resetAssert full true).testEn = true := by
  simp only [ConfigOrdered]; decide

/-! ## A partition at work -/

/-- The table area of partition 0 begins at granule 256; virtual granules 0 to 15 map to store granules 0 to 15. -/
def mapped : Memory :=
  let m := (List.range 16).foldl (fun m i => memPut m (259 * 0x8000 + 8 * i) (leBytes 8 (i * 0x8000 + 3))) []
  [256, 257, 258].foldl (fun m g => memPut m (g * 0x8000) (leBytes 8 ((g + 1) * 0x8000 + 1))) m

/-- The words of partition 0: all channels and remote ports, fabric port 0, slice 0; rings at `0x40000` and `0x48000`. -/
def words0 : Words :=
  [(wordAddr pgPART 0x100, 1), (wordAddr pgPART 0x200, 0xFF), (wordAddr pgPART 0x204, 1), (wordAddr pgPART 0x208, 0xFF),
    (wordAddr pgPART 0x210, 0x3FF), (wordAddr pgSTRM 0x100, 0x40000), (wordAddr pgSTRM 0x108, 0x48000),
    (wordAddr pgXLAT 0x200, 256), (wordAddr pgXLAT 0x204, 64), (wordAddr pgXLAT 0x208, 0), (wordAddr pgXLAT 0x20C, 0),
    (wordAddr pgXLAT 0x210, 0xFFFF)]

/-- Partition 0 loaded and mapped, every channel in service, one wingbeat slot in which all streams are eligible. -/
def work : State :=
  { loaded with
    effect := words0
    shadow := words0
    mem := mapped
    slices := full.slices.map fun x => { x with live := true }
    chans := full.chans.map fun c => { c with service := .run, allow := 1000000 }
    fab := full.fab.map fun x => { x with live := true }
    gens := [genZero]
    wbt := { full.wbt with
      gap := false
      table := { period := 100, count := 0x401, entries := [(0, 0), (1, 100), (2, 0xFFFFFFFF), (3, 0xFFFFFFF)] } } }

/-- A fetched command: its record and its parameter block. -/
def fetched (record param : List Byte) : Cmd :=
  { stamp := 0, op := leAt record 0 1, record := record, param := param, paramErr := 0, paramVa := 0, task := 0
    inTask := false, stage := .fetched, status := 0, detail := 0, flags := 0, countA := 0, countB := 0, info := 0, gen := 0
    factor := 0, energy := 0, pin := none, units := 0, unitsOut := 0, handed := 0, phase0 := 0, ticks := 0, prec := 0
    totals := { blk := 0, sat := 0, trunc := 0, esc := 0, emptyRow := 0, nanRow := 0 }
    outs := [], scores := [], scored := false, shared := 0, escs := [], escDone := false, remote := none, ents := [], trees := [], lens := []
    image := [], imgStep := 0, quiesced := none, dysil := none, begun := false }

/-- The record of a control command. -/
def control (op : Nat) : List Byte := leBytes 1 op ++ zeroBytes 63

/-- The record of a command with a parameter block at `0x50000`. -/
def withParam (op size : Nat) : List Byte :=
  leBytes 1 op ++ zeroBytes 7 ++ leBytes 8 0x50000 ++ zeroBytes 10 ++ leBytes 2 (size / 64) ++ zeroBytes 36

def command (op : Nat) (param : List Byte) : Cmd := fetched (withParam op param.length) param

/-- Stream F of partition 0 is armed and has fetched a command. -/
def withCmd (s : State) (c : Cmd) : State := updStrm s 0 .F fun x => { x with armed := true, cmds := [c], next := 1 }

/-- The parameter block of an `fn` of `count` elements from a vector at 0 to one at 0. -/
def fnParam (count : Nat) : List Byte :=
  zeroBytes 72 ++ leBytes 5 count ++ zeroBytes 51 ++
    [0, 1].flatMap fun _ => zeroBytes 32 ++ (List.replicate 6 (leBytes 4 1)).flatten ++ zeroBytes 264

/-- Whether work succeeds with an answer and a run that fit. -/
def okSat {α : Type} (x : Ran α) (f : α → Run → Bool) : Bool :=
  match x with
  | .ok a r => f a r
  | _ => false

theorem ok_sat {α : Type} {x : Ran α} {f : α → Run → Bool} (h : okSat x f = true) : ∃ a r, x = .ok a r ∧ f a r = true := by
  cases x with
  | ok a r => exact ⟨a, r, rfl, h⟩
  | bad _ _ _ => exact absurd h (by simp [okSat])
  | host _ => exact absurd h (by simp [okSat])

/-! ## Cadence, governor, channels -/

theorem test_tick_ignored : Runs full ∧ full.cad.valid = false := by simp only [Runs]; decide

theorem test_tick_slip : let s := { full with cad := { full.cad with valid := true, seen := true, first := false, last := 5, phase := 9 }, cycle := 5 }
    Runs s ∧ s.cad.valid = true ∧ s.cad.seen = true ∧ s.cycle < s.cad.last + 4 := by
  simp only [Runs]; decide

theorem test_tick_back : let s := { full with cad := { full.cad with valid := true, seen := true, first := false, last := 5, phase := 9 }, cycle := 9 }
    Runs s ∧ s.cad.valid = true ∧ s.cad.first = false ∧ s.cad.last + 4 ≤ s.cycle ∧ (9 : DWord).toNat ≤ s.cad.phase.toNat := by
  simp only [Runs]; decide

theorem test_tick : let s := { full with cad := { full.cad with valid := true, seen := true, first := false, last := 5, phase := 9 }, cycle := 9 }
    Runs s ∧ s.cad.valid = true ∧ s.cad.last + 4 ≤ s.cycle ∧ (s.cad.first = true ∨ s.cad.phase.toNat < (10 : DWord).toNat) ∧
      s.wbt.next = none := by
  simp only [Runs]; decide

theorem test_cad_rise : let s := { full with cad := { full.cad with valid := true } }
    Runs s ∧ s.cad.valid = true ∧ full.cad.valid = false := by simp only [Runs]; decide

theorem test_ack : let s := { full with gov := { full.gov with opened := true, req := 7, target := 11 } }
    Runs s ∧ s.gov.opened = true ∧ full.gov.opened = false := by simp only [Runs]; decide

/-- A sensor of slope 1 (Table 16-7), and the trip limit of 105 degrees. -/
def sensed : State := { full with fuse := { full.fuse with th := List.replicate 8 0x10000000 } }

theorem test_trip : Runs sensed ∧ (7 : Nat) < capCH sensed ∧ tempOf sensed 7 1680 = 1680 ∧
    field (eff sensed pgPWR 0x110) 16 12 = 1680 ∧ (chan sensed 7).tripped = false ∧ tempOf sensed 7 1679 < 1680 := by
  simp only [Runs]; decide +kernel

/-- `work` whose slot allows every state, with `DOZE` enabled and the time of the next slot known, at a cycle. -/
def sleepy (cycle : Nat) : State :=
  { work with
    cycle := cycle
    wbt := { work.wbt with table := { work.wbt.table with entries := [(0, 0), (1, 100), (2, 0xFFFFFFFF), (3, 0x3FFFFFFF)] } } }
def timed : State :=
  { setEff (sleepy 0) pgPWR 0x120 0xFF with cad := { work.cad with valid := true, seen := true, first := false, cpt := 1000, steps := 2 } }
def inState (s : State) (x : Power) : State := updChan s 0 fun c => { c with power := x }

/-- The time is not told: `GATE` is the deepest state. -/
theorem test_sleep : let s := sleepy 0
    Runs s ∧ (0 : Nat) < capCH s ∧ idleChan s 0 = true ∧ idleChan full 0 = false ∧
    depthOk s 0 1 = true ∧ depthOk s 0 2 = false ∧ depthOk s 0 3 = false ∧
    (chan (inState s .gate) 0).power.depth = 1 ∧ idleChan (inState s .hold) 0 = true ∧ depthOk (inState s .hold) 0 2 = false ∧
    idleChan (inState s .doze) 0 = true ∧ depthOk (inState s .doze) 0 3 = false := by
  simp only [Runs]; decide +kernel

/-- The time is told: `DOZE` is the deepest state. -/
theorem test_sleep_doze : Runs timed ∧ (0 : Nat) < capCH timed ∧ idleChan timed 0 = true ∧ depthOk timed 0 3 = true ∧
    timed.cad.cpt ≠ 0 ∧ timed.cad.valid = true ∧ (eventIn timed 0 3).isSome = true ∧ (chanOwner timed 0).isSome = true := by
  simp only [Runs]; decide +kernel

theorem test_wake : let gate := inState (sleepy 0) .gate
    let due := inState (sleepy 3065936) .gate
    let late := inState (sleepy 3065950) .gate
    let doze := inState work .doze
    let back := updSlice (updChan doze 0 fun x => { x with waking := true }) 0 fun x => { x with retAck := true }
    Runs work ∧ ConfigOrdered work ∧ (0 : Nat) < capCH work ∧ (chan work 0).power = .run ∧
      Runs gate ∧ ConfigOrdered gate ∧ (chan gate 0).power = .gate ∧ (chan gate 0).waking = false ∧
      (wakeIn gate 0).any (fun x => decide (wakeTime gate 1 < x)) = true ∧
      Runs due ∧ ConfigOrdered due ∧ wakeIn due 0 = some (wakeTime due (chan due 0).power.depth) ∧
      Runs late ∧ ConfigOrdered late ∧ (wakeIn late 0).any (fun x => decide (x < wakeTime late (chan late 0).power.depth)) = true ∧
      Runs doze ∧ (chan doze 0).power = .doze ∧ (chan doze 0).waking = false ∧ Runs back ∧ (chan back 0).waking = true ∧
      (chan back 0).power = .doze ∧ (slice back 0).ret = false ∧ (slice back 0).retAck = true := by
  simp only [Runs, ConfigOrdered]; decide +kernel

theorem test_service : let leaving := updChan work 0 fun x => { x with service := .leaving }
    let out := updChan work 0 fun x => { x with service := .out, returning := true }
    Runs leaving ∧ CfgQuiet leaving ∧ (chan leaving 0).service = .leaving ∧ (chan leaving 0).unit = none ∧
      (chan work 0).service ≠ .leaving ∧ full.initTest = true ∧ (7 : Nat) < capCH full ∧ (chan full 7).service = .test ∧
      (chan work 0).service ≠ .test ∧ Runs full ∧ CfgQuiet full ∧ Runs out ∧ CfgQuiet out ∧ (chan out 0).service = .out ∧ (chan out 0).returning = true ∧ (chan work 0).service ≠ .out := by
  simp only [Runs, CfgQuiet]; decide +kernel

/-- Channel 0 holds a unit of an `fn` and has made no progress for the limit. -/
def late : State :=
  { updChan work 0 fun x => { x with unit := some { part := 0, strm := .F, stamp := 0, value := 0, swarm := none, since := 0 } } with
    cycle := 0x400 * 1024 }

theorem test_watchdog : Runs late ∧ (chan work 0).unit = none ∧ (chan late 0).unit ≠ none ∧ eff late pgFLT 0x100 ≠ 0 ∧
    chanAsks late 0 = false ∧ eff late pgFLT 0x100 * 1024 ≤ late.cycle - (chan late 0).progress ∧
    work.cycle - (chan work 0).progress < eff work pgFLT 0x100 * 1024 := by
  simp only [Runs]; decide +kernel

theorem test_parity : Runs work ∧ (chan full 0).service ≠ .run ∧ (chan full 0).service ≠ .leaving ∧ (chan work 0).service = .run ∧
    (chan work 0).unit = none := by
  simp only [Runs]; decide +kernel

/-! ## Fabric ports -/

/-- A read of four beats at VA 384 with tag 5 breaks the format; one of one beat does not. -/
def readHdr (va len : Nat) : BitVec 80 := BitVec.ofNat 80 (1 + 5 * 16 + len * 0x10000 + va / 128 * 0x100000)
def writeHdr (va len : Nat) : BitVec 80 := BitVec.ofNat 80 (2 + 5 * 16 + len * 0x10000 + va / 128 * 0x100000)

theorem test_read_forms : Runs work ∧ (fabP work 0).tqCred ≠ 0 ∧ (fabP (updFab work 0 fun x => { x with tqCred := 0 }) 0).tqCred = 0 ∧ hdrOpc (writeHdr 0 0) = 2 ∧ hdrOpc 0 ≠ 1 ∧ hdrOpc 0 ≠ 2 ∧ hdrOpc (readHdr 0 0) = 1 ∧
    bitOf (eff work pgFAB 0x104) 0 = false ∧ hdrBad (readHdr 384 1) = true ∧ hdrBad (readHdr 384 0) = false := by
  simp only [Runs]; decide +kernel

theorem test_read_retired : let s := { work with effect := words0 ++ [(wordAddr pgFAB 0x104, 1)] }
    Runs s ∧ (fabP s 0).tqCred ≠ 0 ∧ hdrOpc (readHdr 0 0) ≠ 2 ∧ hdrOpc (writeHdr 0 0) ≠ 1 ∧
      hdrLen (writeHdr 0 0) ≤ min [({ data := 7, mask := 1 } : Beat)].length (fabP s 0).tqCred ∧
      bitOf (eff s pgFAB 0x104) ((0 : FabPort) : Nat) = true := by
  simp only [Runs]; decide +kernel

theorem gfXs_zero (n : Nat) : gfXs n 0 = 0 := by
  induction n with
  | zero => rfl
  | succ n ih => exact ih

theorem gfMul_zero (b : Nat) : gfMul 0 b = 0 := by
  unfold gfMul
  have : ∀ (l : List Nat), l.foldl (fun acc i => if bitOf b i then acc ^^^ gfXs i 0 else acc) 0 = 0 := by
    intro l
    induction l with
    | nil => rfl
    | cons i l ih => 
      simp only [List.foldl_cons, gfXs_zero, Nat.xor_self, ite_self]
      simpa only [gfXs_zero] using ih
  exact this _

theorem symSyndromes_zero (k : Nat) : symSyndromes k 0 = List.replicate 16 0 := by
  simp only [symSyndromes, gfXs_zero]; rfl

/-- Three symbols in error whose first two syndromes are zero. -/
def burst : List (Nat × BitVec 16) := [(271, 2), (270, 3), (269, 1)]

theorem burst_decode : rowDecode burst = .uncorrectable := by
  have h : syndromes burst = 0 :: 0 :: (syndromes burst).drop 2 ∧ (syndromes burst).any (· != 0) = true := by decide +kernel
  obtain ⟨h1, h2⟩ := h
  have hf : findPair (syndromes burst) = none := by
    unfold findPair
    rw [List.findSome?_eq_none_iff]
    intro k _
    have hp : pairSolve ((syndromes burst).getD 0 0) ((syndromes burst).getD 1 0) k = (0, 0) := by
      rw [h1]
      simp only [List.getD_cons_zero, List.getD_cons_succ, pairSolve, gfMul_zero, Nat.xor_self]
    rw [hp]
    have hs : syndromes [(k, BitVec.ofNat 16 0), (k + 1, BitVec.ofNat 16 0)] = List.replicate 16 0 := by
      simp only [syndromes, List.foldl_cons, List.foldl_nil, BitVec.toNat_ofNat, Nat.zero_mod, symSyndromes_zero]; rfl
    simp only [hs]
    rw [if_neg]
    intro e
    rw [← e] at h2
    exact absurd h2 (by decide)
  have ha : (syndromes burst).all (· == 0) = false := by
    rw [← Bool.not_eq_true, List.all_eq_true]
    intro h
    obtain ⟨x, hx, hn⟩ := List.any_eq_true.1 h2
    have := h x hx
    simp at this hn
    exact hn this
  unfold rowDecode
  simp only [hf, ha]
  rfl

/-- Row 0 has errors that the code detects and cannot correct. -/
def spoilt : State := { work with rowErr := [(0, burst)] }

theorem reads_bad (s : State) (w : Who) (h : s.rowErr = [(0, burst)]) (hd : (chan s 0).power = .run) :
    ∃ u st d, rowsRead s w 0 128 = (u, .bad st d) ∧ u.dozed = s.dozed := by
  have hc : touchRows s w.ch 0 128 false = s := by
    have h1 : isSlow 0 = false := by decide
    have h2 : isStore 0 = true ∧ sliceOf 0 = 0 := by decide
    unfold touchRows dozeTouch
    rw [if_neg (by decide), h1, h2.1, h2.2, hd]
    rfl
  have hp : rowPat s 0 = burst := by rw [rowPat, h]; rfl
  refine ⟨(readRow s w 0).1, stECC, lastFault (readRow s w 0).1, ?_, ?_⟩
  rotate_left
  · have hb : ∀ (t : State) (i pg off k : Nat), (bump t i pg off k).dozed = t.dozed := fun _ _ _ _ _ => by
      unfold bump; split <;> rfl
    have hm : (bumpRow s 0 2).dozed = s.dozed := by unfold bumpRow; split <;> exact hb _ _ _ _ _
    have ha : ∀ (t : State) (f : FaultRec), (addFault t f).dozed = t.dozed := by
      intro t f
      unfold addFault
      dsimp only
      split
      · exact hb _ _ _ _ _
      · rfl
    unfold readRow
    rw [hp, burst_decode]
    exact (ha _ _).trans hm
  unfold rowsRead
  simp only [hc, h]
  have hr : (readRow s w 0).2 = none := by unfold readRow; rw [hp, burst_decode]
  simp [sortBy, rowOf, Config.rowBytes]
  split <;> simp_all

theorem spoilt_target : (targetAt (bump spoilt 0 pgFAB 0xF1C 1) 0 (readHdr 0 0) false).2.toOption = some 0 ∧
    (targetAt (bump spoilt 0 pgFAB 0xF1C 1) 0 (readHdr 0 0) false).1.rowErr = [(0, burst)] ∧
    (chan (targetAt (bump spoilt 0 pgFAB 0xF1C 1) 0 (readHdr 0 0) false).1 0).power = .run ∧
    (targetAt (bump spoilt 0 pgFAB 0xF1C 1) 0 (readHdr 0 0) false).1.dozed = (bump spoilt 0 pgFAB 0xF1C 1).dozed ∧
    tqBehind spoilt 0 (readHdr 0 0) [] = false ∧ (fabP spoilt 0).tqCred ≠ 0 ∧ hdrOpc (readHdr 0 0) = 1 ∧
    128 * hdrLen (readHdr 0 0) = 128 := by decide +kernel

theorem ok_pair {α ε β : Type} {x : α × Except ε β} {b : β} (h : x.2.toOption = some b) : x = (x.1, .ok b) := by
  obtain ⟨a, c⟩ := x
  cases c with
  | ok c => exact congrArg (fun p => (a, Except.ok p)) (Option.some.inj h)
  | error e => exact absurd h (by simp [Except.toOption])

theorem test_read_spoilt : ∃ v w pa st d, Runs spoilt ∧ (fabP spoilt 0).tqCred ≠ 0 ∧ hdrOpc (readHdr 0 0) = 1 ∧
    tqBehind spoilt 0 (readHdr 0 0) [] = false ∧ asks (bump spoilt 0 pgFAB 0xF1C 1) w = false ∧ targetAt (bump spoilt 0 pgFAB 0xF1C 1) 0 (readHdr 0 0) false = (v, .ok pa) ∧
      rowsRead v (Who.target v 0) pa (128 * hdrLen (readHdr 0 0)) = (w, .bad st d) := by
  obtain ⟨h1, h2, hd, hz, ht, hq, h3, h4⟩ := spoilt_target
  rw [h4]
  obtain ⟨w, st, d, hr, hw⟩ := reads_bad _ (Who.target (targetAt (bump spoilt 0 pgFAB 0xF1C 1) 0 (readHdr 0 0) false).1 0) h2 hd
  exact ⟨_, w, 0, st, d, ⟨rfl, rfl, rfl⟩, hq, h3, ht, by rw [asks, hw, hz]; exact bne_self_eq_false _, ok_pair h1, hr⟩

theorem test_read : Runs work ∧ (fabP work 0).tqCred ≠ 0 ∧ hdrOpc (readHdr 0x7FF80 0) = 1 ∧ work.rowErr = [] ∧
    tqBehind work 0 (readHdr 0x7FF80 0) [] = false ∧
    asks (bump work 0 pgFAB 0xF1C 1) (performRead (bump work 0 pgFAB 0xF1C 1) 0 (readHdr 0x7FF80 0)) = false ∧ (targetAt (bump work 0 pgFAB 0xF1C 1) 0 (readHdr 0x7FF80 0) false).2.toOption = some 0x7FF80 ∧
    (targetAt (bump work 0 pgFAB 0xF1C 1) 0 (readHdr 0x80000 0) false).2.toOption = none := by
  simp only [Runs]; decide +kernel

theorem test_write : let beat : List Beat := [{ data := 7, mask := 1 }]
    Runs work ∧ work.rowErr = [] ∧ work.mem.wf ∧ hdrOpc (writeHdr 0 0) = 2 ∧ tqBehind work 0 (writeHdr 0 0) (beat.take (hdrLen (writeHdr 0 0))) = false ∧
    asks (bump work 0 pgFAB 0xF1C 1) (performWrite (bump work 0 pgFAB 0xF1C 1) 0 (writeHdr 0 0) (beat.take (hdrLen (writeHdr 0 0)))) = false ∧ hdrOpc 0 ≠ 1 ∧ hdrOpc 0 ≠ 2 ∧
    hdrLen 0 ≤ min beat.length (fabP work 0).tqCred ∧ bitOf (eff work pgFAB 0x104) 0 = false ∧
    hdrLen (writeHdr 0 0) ≤ min beat.length (fabP work 0).tqCred ∧
    min ([] : List Beat).length (fabP work 0).tqCred < hdrLen (writeHdr 0 0) ∧
    (targetAt (bump work 0 pgFAB 0xF1C 1) 0 (writeHdr 0 0) true).2.toOption = some 0 ∧
    (targetAt (bump work 0 pgFAB 0xF1C 1) 0 (writeHdr 0x80000 0) true).2.toOption = none := by
  simp only [Runs]; decide +kernel

theorem test_write_stores : (match exec (.fabricTargetWrite 0 (writeHdr 0 0) [{ data := 0x0907, mask := 1 }]) work with
    | .next t => memByte t.mem 0 == 7 && memByte t.mem 1 == 0
    | _ => false) = true := by decide +kernel

/-! ## Requests of the initiator ports -/

def asked (tag limit : Nat) : IqReq :=
  { tag := tag, engine := false, write := false, addr := 0, bytes := 64, data := [], owner := .block, limit := limit, sent := 0 }

/-- Fabric port 1 has requests with tags 5 and 6 out, the second with a limit, and has given up on tag 7. -/
def asking : State := { updFab work 1 fun x => { x with iqCred := 255, sent := [asked 5 0, asked 6 1], stale := [7] } with cycle := 1024 }

theorem test_initiator : Runs asking ∧ 255 ≤ (fabP asking 1).iqCred ∧ (fabP asking 0).iqCred < 255 ∧ (fabP asking 0).waiting = [] ∧
    (fabP asking 1).sent.find? (fun r => r.tag == field (0x0008 : BitVec 16).toNat 0 8) = none ∧
    (fabP asking 1).stale.contains (field (0x0008 : BitVec 16).toNat 0 8) = false ∧
    (fabP asking 1).sent.find? (fun r => r.tag == field (0x0007 : BitVec 16).toNat 0 8) = none ∧
    (fabP asking 1).stale.contains (field (0x0007 : BitVec 16).toNat 0 8) = true ∧
    (fabP asking 1).sent.find? (fun r => r.tag == field (0x0005 : BitVec 16).toNat 0 8) = some (asked 5 0) ∧
    (fabP asking 1).sent.find? (fun r => r.tag == (7 : BitVec 8).toNat) = none ∧
    (fabP asking 1).sent.find? (fun r => r.tag == (5 : BitVec 8).toNat) = some (asked 5 0) ∧ (asked 5 0).limit = 0 ∧
    (fabP asking 1).sent.find? (fun r => r.tag == (6 : BitVec 8).toNat) = some (asked 6 1) ∧ (asked 6 1).limit ≠ 0 ∧
    (asked 6 1).limit * 1024 ≤ asking.cycle - (asked 6 1).sent := by
  simp only [Runs]; decide +kernel

/-! ## Remote ports -/

/-- Remote port 1 is up with one frame freed, and remote port 2 awaits a data frame of its group. -/
def linked : State :=
  updRem (updRem work 1 fun x => { x with up := true, freed := [1, 0, 0, 0] }) 2 fun x => { x with up := true, group := [[]] }

theorem test_links : Runs linked ∧ (remP linked 1).up = true ∧ remPresent linked 0 = true ∧ (remP linked 0).up = false ∧
    portTakes linked 0 = false ∧ portTakes linked 1 = true ∧ (unreported linked 2).all (· == 0) = true ∧
    (unreported linked 1).any (· != 0) = true := by
  simp only [Runs]; decide +kernel

theorem crcBit_lt {c : Nat} (h : c < 2 ^ 32) : crcBit c < 2 ^ 32 := by
  unfold crcBit
  split
  · exact Nat.xor_lt_two_pow (by omega) (by decide)
  · omega

theorem crcByte_lt {c : Nat} (h : c < 2 ^ 32) (b : Byte) : crcByte c b < 2 ^ 32 := by
  have := b.isLt
  unfold crcByte
  iterate 8 apply crcBit_lt
  exact Nat.xor_lt_two_pow h (by omega)

theorem crc32c_lt (bs : List Byte) : crc32c bs < 2 ^ 32 := by
  have : ∀ c : Nat, c < 2 ^ 32 → bs.foldl crcByte c < 2 ^ 32 := by
    induction bs with
    | nil => exact fun _ h => h
    | cons b bs ih => exact fun c h => ih _ (crcByte_lt h b)
  exact Nat.xor_lt_two_pow (this _ (by decide)) (by decide)

/-- A header frame of no records with the check `x` and the bytes `z` behind it. -/
def headerOf (x : Nat) (z : List Byte) : List Byte := zeroBytes 60 ++ leBytes 4 x ++ z

def goodHeader (frame : List Byte) (sof : BitVec 64) (err : Bool) : Bool :=
  let b := fitBytes 4096 frame
  let k := leAt b 0 1
  !err && sof.toNat / 4 == 0 && leAt b 60 4 == crc32c (b.take 60 ++ b.drop 64) && allZero ((b.drop 1).take 3) &&
    allZero ((b.drop 42).take 18) && decide (k ≤ 63) && allZero ((b.drop (64 * (k + 1))).take (4096 - 64 * (k + 1)))

theorem headerOf_good (z : List Byte) (h : z = zeroBytes 4032) :
    goodHeader (headerOf (crc32c (zeroBytes 60 ++ z)) z) 1 false = true := by
  have hl : z.length = 4032 := by rw [h]; exact List.length_replicate
  have hz : allZero z = true := by
    rw [h, allZero, List.all_eq_true]; exact fun b hb => beq_iff_eq.2 (List.eq_of_mem_replicate hb)
  have hc := crc32c_lt (zeroBytes 60 ++ z)
  generalize hx : crc32c (zeroBytes 60 ++ z) = x at hc
  have hb : fitBytes 4096 (headerOf x z) = headerOf x z := by
    have hn : (headerOf x z).length = 4096 := by
      have : (headerOf x z).length = z.length + 64 := rfl
      omega
    unfold fitBytes
    rw [List.take_append_of_le_length (by omega)]
    exact List.take_of_length_le (by omega)
  have h1 : leAt (headerOf x z) 60 4 = leNat (leBytes 4 x) := rfl
  have h2 : leAt (headerOf x z) 0 1 = 0 := rfl
  have h3 : (headerOf x z).take 60 = zeroBytes 60 := rfl
  have h4 : ((headerOf x z).drop 1).take 3 = zeroBytes 3 := rfl
  have h5 : ((headerOf x z).drop 42).take 18 = zeroBytes 18 := rfl
  have h6 : (headerOf x z).drop 64 = z := rfl
  have hv : leNat (leBytes 4 x) = x := by simp [leBytes, leNat]; omega
  unfold goodHeader
  simp only [hb, h1, h2, h3, h4, h5, h6, hx, hv, Nat.zero_add, Nat.mul_one, List.take_of_length_le (show z.length ≤ 4096 - 64 by omega), hz]
  simp [allZero, zeroBytes]

theorem test_frames : Runs linked ∧ portTakes linked 0 = false ∧ portTakes linked 1 = true ∧ goodHeader [] 1 true = false ∧
    goodHeader [] 4 false = false ∧
    (remP linked 1).group = [] ∧ portTakes linked 2 = true ∧
    (remP linked 2).group = [[]] := by
  simp only [Runs]; decide +kernel

/-! ## Commands of the remote ports -/

/-- A field of a parameter block is set to a value. -/
def setField (op : Nat) (ps : List Byte) (e : Fld × Nat) : List Byte :=
  match (famPlaced op).find? fun x => x.1 == e.1 with
  | some (_, o, b) => ps.take o ++ leBytes (container b) e.2 ++ ps.drop (o + container b)
  | none => ps

/-- A parameter block with these fields, whose descriptors name one element at 0. -/
def paramOf (op : Nat) (fs : List (Fld × Nat)) : List Byte :=
  fs.foldl (setField op) (zeroBytes (if descCount op = 0 then roundUp (famEnd op) 64 else descOff op 0) ++
    (List.range (descCount op)).flatMap fun _ => zeroBytes 32 ++ (List.replicate 6 (leBytes 4 1)).flatten ++ zeroBytes 264)

def withFields (op : Nat) (fs : List (Fld × Nat)) : Cmd := command op (paramOf op fs)

/-- A `red.recv` of one element that receives on port 0 and has a limit of one tick. -/
def redCmd : Cmd := withFields opRED [(.mode, 9), (.elems, 1), (.rxPorts, 1), (.tmo, 1)]

/-- `redCmd` has started and waits for its frames; the other command has lost its send. -/
def receiving : Cmd := { redCmd with stage := .started, ticks := 1, remote := some { noJob with rxOpen := true, rxPorts := 1 } }
def sending : Cmd := { redCmd with stage := .started, ticks := 1, remote := some { noJob with txLost := true, txPorts := 1 } }
def patient : Cmd := { receiving with ticks := 0 }

/-- A `molt` whose frames have come. -/
def molting : Cmd := { withFields opMOLT [(.mode, 1)] with stage := .started }

theorem test_remote_issue : ∃ mine u k1 k2 r, remoteRow (.redRecv 0 .F) = some (0, .F, opRED, mine) ∧ Runs (withCmd work redCmd) ∧
    redCmd.op = opRED ∧ opRED ≠ opMOLT ∧ mine redCmd = true ∧ readyRemote (withCmd work redCmd) 0 .F opRED mine = none ∧
    MayIssue (withCmd work redCmd) 0 .F redCmd ∧ pinned (withCmd work redCmd) 0 .F redCmd = some (u, k1) ∧
    ranM u (cmdCtx u 0 .F k1 0xFF 0) (remotePlan 0 k1) = .ok (k2, []) r := by
  have h : okSat (ranM (withCmd work redCmd) (cmdCtx (withCmd work redCmd) 0 .F redCmd 0xFF 0) (remotePlan 0 redCmd))
      (fun a _ => a.2.isEmpty) = true := by decide +kernel
  obtain ⟨⟨k2, rs⟩, r, hr, he⟩ := ok_sat h
  obtain rfl : rs = [] := List.isEmpty_iff.1 he
  refine ⟨fun _ => true, withCmd work redCmd, redCmd, k2, r, rfl, ⟨rfl, rfl, rfl⟩, ?_, ?_, rfl, ?_, ?_, ?_, hr⟩
  all_goals (try simp only [MayIssue]); decide +kernel

theorem test_remote_start : let s := withCmd work { redCmd with stage := .issued }
    readyRemote s 0 .F opRED (fun _ => true) = some { redCmd with stage := .issued } ∧ eligible s 0 .F = true ∧
      budgetFits s redCmd.energy = true ∧ remoteWaits s { redCmd with stage := .issued } = false ∧
      (jobStep s 0 .F { redCmd with stage := .issued } 4 (remoteJob { redCmd with stage := .issued })).2.isSome = true ∧
      opRED ≠ opMIRROR := by decide +kernel

theorem test_remote_waits : getCmd work 0 .F 0 = none ∧ getCmd (withCmd work receiving) 0 .F 0 = some receiving ∧
    (liveJob receiving).any (fun j => j.rxOpen && !(rxDone j)) = true ∧ receiving.get .tmo ≠ 0 ∧
    receiving.get .tmo ≤ receiving.ticks ∧ getCmd (withCmd work patient) 0 .F 0 = some patient ∧ (liveJob patient).isSome = true ∧
    patient.ticks < patient.get .tmo ∧ getCmd (withCmd work sending) 0 .F 0 = some sending ∧ sending.get .tmo ≤ sending.ticks ∧
    (liveJob sending).any (fun j => !(j.rxOpen && !(rxDone j)) &&
      !(txDone (withCmd work sending) j && !(mirrorWaits (withCmd work sending) 0 .F 0))) = true ∧
    heldMolt (withCmd work molting) 0 .F = some molting := by decide +kernel

theorem test_mirror_alone : let s := setEff (updRem work 1 fun x => { x with mirror := [(0, .F, 0, 0)], alone := 1 }) pgMIR 0x11C 0x100
    (remP work 1).mirror = [] ∧ Runs s ∧ aloneTicks s ≠ 0 ∧ aloneTicks s ≤ (remP s 1).alone ∧ (remP s 1).mirror ≠ [] := by
  simp only [Runs]; decide +kernel

/-! ## Memories and slow-tier ports -/

/-- A described device on port 0; port 1 trains and port 2 is filled; port 3 is lost. -/
def tiers : State :=
  updSlow (updSlow (updSlow (setEff work (pgMEMP 0) 0x100 1) 1 fun x => { x with training := true }) 2 fun x => { x with filling := true })
    3 fun x => { x with lost := true }

theorem test_tiers : Runs tiers ∧ 3 < capMT tiers ∧ capMT { tiers with fuse := { tiers.fuse with cap := 0x01F80048 } } = 0 ∧
    devType tiers 0 ≠ 0 ∧ (slowP tiers 0).ready = false ∧ (slowP tiers 0).training = false ∧ (slowP tiers 0).filling = false ∧
    (slowP tiers 0).lost = false ∧ (slowP tiers 0).retired = false ∧ devType tiers 4 = 0 ∧ (slowP tiers 1).training = true ∧
    (slowP tiers 2).filling = true ∧ (slowP tiers 2).retired = false ∧ (slowP tiers 3).filling = false ∧
    (slowP tiers 3).lost = true := by
  simp only [Runs]; decide +kernel

/-- Row 0 waits corrected in the queue of slice 0, a row read since waits behind it in that of slice 1. -/
def queued : State :=
  let q (l : List (Nat × Bool)) (x : Slice) : Slice := { x with mem := { x.mem with queue := l } }
  { updSlice (updSlice work 0 (q [(0, false)])) 1 (q [(0, true)]) with rowErr := [(0, [(0, 5)])] }

/-- A channel dozes, and its slice is retained. -/
def retained : State := updChan (updSlice work 2 fun x => { x with ret := true }) 2 fun x => { x with power := .doze }

theorem test_scrub : Runs queued ∧ unitRuns (addUpsets full []) (.slice 0) = false ∧ unitRuns work (.slice 0) = true ∧ work.rowErr = [] ∧
    (chan work 0).power = .run ∧ Runs retained ∧ unitRuns retained (.slice 2) = true ∧ retained.rowErr = [] ∧
    (chan retained 2).power ≠ .run ∧ (chan retained 2).waking = false ∧ (unitMem work (.slice 0)).queue = [] ∧ (unitMem queued (.slice 1)).queue = [(0, true)] ∧
    (unitMem queued (.slice 0)).queue = [(0, false)] ∧ present queued 0 = true ∧ rowDecode (rowPat queued 0) = .corrected [] := by
  simp only [Runs]; decide +kernel

/-! ## Control commands and channel commands -/

def fence : Cmd := fetched (control opFENCE) []
def badFence : Cmd := fetched (leBytes 1 opFENCE ++ [2] ++ zeroBytes 62) []

theorem test_control : controlRow (.fence 0 .F) = some (0, .F, opFENCE) ∧ headCmd (withCmd work fence) 0 .F = some fence ∧
    firstRef (recordRefs fence.op fence.record ++ shapeIf false noField) = none ∧
    headCmd (withCmd work badFence) 0 .F = some badFence ∧
    (firstRef (recordRefs badFence.op badFence.record ++ shapeIf false noField)).isSome = true ∧
    headCmd (withCmd work redCmd) 0 .F = some redCmd ∧ redCmd.op ≠ opFENCE ∧ Runs (withCmd work fence) := by
  simp only [Runs]; decide +kernel

theorem test_task_begin : let c := fetched (control opTASKBEGIN) []
    controlRow (.taskBegin 0 .F) = some (0, .F, opTASKBEGIN) ∧ headCmd (withCmd work c) 0 .F = some c ∧
    firstRef (recordRefs c.op c.record ++ shapeIf (opTASKBEGIN == opTASKBEGIN && c.inTask && c.task != c.stamp) noField) = none := by
  decide +kernel

/-- The hypotheses on the issue of an `fn` command, and a property of its plan. -/
def ChanIssue (k : Cmd) (f : Cmd × List Ref × List Nat × List (List Nat × List (List Nat)) → Run → Bool) : Prop :=
  ∃ u k1 k2 rs lens parts r, chanRow (.fn 0 .F) = some (0, .F, opFN) ∧ Runs (withCmd work k) ∧ k.op = opFN ∧
    MayIssue (withCmd work k) 0 .F k ∧ pinned (withCmd work k) 0 .F k = some (u, k1) ∧
    ranM u (cmdCtx u 0 .F k1 0xFF 0) (chanPlan 0 k1) = .ok (k2, rs, lens, parts) r ∧ f (k2, rs, lens, parts) r = true

/-- An `fn` of one element at most is not refused; one with a parameter block of zeros is. -/
theorem chan_witness (k : Cmd) (f : Cmd × List Ref × List Nat × List (List Nat × List (List Nat)) → Run → Bool)
    (h : okSat (ranM (withCmd work k) (cmdCtx (withCmd work k) 0 .F k 0xFF 0) (chanPlan 0 k)) f = true) (hk : k.op = opFN)
    (hm : MayIssue (withCmd work k) 0 .F k) (hp : pinned (withCmd work k) 0 .F k = some (withCmd work k, k)) :
    ChanIssue k f := by
  obtain ⟨⟨k2, rs, lens, parts⟩, r, hr, he⟩ := ok_sat h
  exact ⟨_, _, k2, rs, lens, parts, r, rfl, ⟨rfl, rfl, rfl⟩, hk, hm, hp, hr, he⟩

theorem test_chan_none : ChanIssue (command opFN (fnParam 0))
    (fun a _ => firstRef a.2.1 == none && unitRange a.1 (chanUnits a.1) == (0, 0)) := chan_witness _ _ (by decide +kernel) rfl
  (by simp only [MayIssue]; decide +kernel) (by decide +kernel)

theorem test_chan_one : ChanIssue (command opFN (fnParam 1))
    (fun a _ => firstRef a.2.1 == none && unitRange a.1 (chanUnits a.1) == (0, 1)) := chan_witness _ _ (by decide +kernel) rfl
  (by simp only [MayIssue]; decide +kernel) (by decide +kernel)

theorem test_chan_refused : ChanIssue (command opFN (zeroBytes 768)) (fun a _ => (firstRef a.2.1).isSome) := chan_witness _ _ (by decide +kernel) rfl
  (by simp only [MayIssue]; decide +kernel) (by decide +kernel)

/-- The state that a command leaves. -/
def after (i : Instr) (s : State) : State :=
  match exec i s with
  | .next t => t
  | _ => s

/-! ## Units -/

def okRun (x : UnitRun) : Bool :=
  match x with
  | .ok _ => true
  | _ => false

/-- An `fn` of one element is issued, and channel 0 has taken its unit; it stands between its units. -/
def issued : State := after (.fn 0 .F) (withCmd work (command opFN (fnParam 1)))
def taken : State := after (.channelTakeUnit 0) issued
def between : State := updChan issued 0 fun x => { x with cur := some (0, .F, 0) }

theorem test_take : chanOwner full 0 = none ∧ chanOwner issued 0 = some 0 ∧ canTake issued 0 = true ∧
    (chosen issued 0 0).any (fun o => (chan issued 0).cur != some (0, o.strm, o.stamp) &&
      (offers (atEdge issued 0) 0 0).contains o) = true ∧
    chanOwner between 0 = some 0 ∧ canTake between 0 = true ∧
    (chosen between 0 0).any (fun o => (chan between 0).cur == some (0, o.strm, o.stamp)) = true := by
  decide +kernel

theorem test_unit_end : Runs taken ∧ (chan full 0).unit = none ∧
    ((chan taken 0).unit.any fun u => u.swarm.isNone && (getCmd taken u.part u.strm u.stamp).any fun c => !c.ended &&
      okRun (runUnit taken (cmdCtx taken u.part u.strm c 0 7) (unitBody u.part (chan taken 0).role c u.value))) = true := by
  simp only [Runs]; decide +kernel

/-! ## Edits -/

/-- A pool of one frame of one head and one layer at granule 0, which returns to its free list at instar 2; sequence 0 is open
and empty. The root is granule 260. -/
def pooled : State :=
  let m := memPut (memPut mapped (260 * 0x8000 + 8 * 64) (leBytes 8 (261 * 0x8000))) (261 * 0x8000) [1]
  let words := [(0, 0x10000), (1, 0x10001), (2, 1), (4, 1)]
  let s := words.foldl (fun s x => setEff s pgPOOL (0x200 + 4 * x.1) x.2) { work with mem := memPut m 0x60000 (leBytes 8 0x10000) }
  updPool s 0 fun x =>
    { x with root := 260, instar := 1, nodes := [256, 257, 258, 259, 260, 261], frameTab := [262], retiring := [(0, 2)] }

def editOf (c : Cmd) : Ran (Cmd × EditRes) :=
  let s := withCmd pooled c
  ranM s (cmdCtx s 0 .F c 0xFF 0) (editRun 0 c (waitOver s 0 .F c.stamp))

def mayEdit (c : Cmd) : Bool :=
  let s := withCmd pooled c
  headCmd s 0 .F == some c && c.paramErr == 0 && eligible s 0 .F && editFree s 0 .F c

/-- An open of no sequence is made, one with a reserved field is refused, and an append of one position waits for the frame. -/
theorem test_edit_made : let c := withFields opOPEN []
    editRow (.seqOpen 0 .F) = some (0, .F, opOPEN) ∧ c.op = opOPEN ∧ mayEdit c = true ∧
    okSat (editOf c) (fun a r => match a.2 with
      | .done d => budgetFits (withCmd pooled c) (estimate r.s (editWork (shapeOf r.s [] 0) d.tx (d.put * (shapeOf r.s [] 0).hkv)))
      | _ => false) = true := by decide +kernel

theorem test_edit_refused : let c := withFields opOPEN [(.layer, 1)]
    mayEdit c = true ∧ okSat (editOf c) (fun a _ => match a.2 with
      | .refused _ => true
      | _ => false) = true := by decide +kernel

theorem test_edit_waits : let c := withFields opAPPEND [(.entTab, 0x60000), (.nent, 1)]
    editRow (.seqAppend 0 .F) = some (0, .F, opAPPEND) ∧ mayEdit c = true ∧ okSat (editOf c) (fun a _ => match a.2 with
      | .wait n => n == 1
      | _ => false) = true := by decide +kernel

def editIn (s : State) (c : Cmd) : Ran (Cmd × EditRes) :=
  ranM (withCmd s c) (cmdCtx (withCmd s c) 0 .F c 0xFF 0) (editRun 0 c (waitOver (withCmd s c) 0 .F c.stamp))

/-- An append of no entry has its frames at once. -/
theorem test_edit_ready : let c := withFields opAPPEND []
    okSat (editIn pooled c) (fun a r => match a.2 with
      | .ready images => okSat (ranM r.s (cmdCtx r.s 0 .F a.1 0xFF 0) (editBody a.1 (waitOver (withCmd pooled c) 0 .F c.stamp) images))
          (fun _ _ => true)
      | _ => false) = true := by decide +kernel

/-- Without a window to wait in, an append of one position fails. -/
theorem test_edit_fails : let c := withFields opAPPEND [(.entTab, 0x60000), (.nent, 1)]
    let s := setEff pooled pgPOOL 0x104 0
    okSat (editIn s c) (fun a _ => match a.2 with
      | .noFrame _ => true
      | _ => false) = true ∧ editFree (withCmd s c) 0 .F c = true ∧ eligible (withCmd s c) 0 .F = true := by decide +kernel

/-- No park slot is there for sequence 0. -/
theorem test_park_full : let c := withFields opPARK [(.entTab, 0x60008), (.nent, 1)]
    okSat (editIn pooled c) (fun a _ => match a.2 with
      | .parkFull => true
      | _ => false) = true := by decide +kernel

theorem test_edit_others : let park := withFields opPARK []
    let held := { park with stage := .started }
    let near := withFields opMOLT [(.mode, 2)]
    let open_ := withFields opOPEN []
    let w : EditWait := { strm := .F, stamp := 0, ticks := 63, short := 1 }
    let waits (c : Cmd) (n : Nat) := updPool (withCmd pooled c) 0 fun x => { x with wait := some { w with ticks := n } }
    parkHeld (withCmd pooled held) 0 .F = some held ∧ parkHeld (withCmd pooled park) 0 .F = none ∧
    headCmd (withCmd pooled park) 0 .F = some park ∧ park.op = opPARK ∧ headCmd (withCmd pooled near) 0 .F = some near ∧
    near.op = opMOLT ∧ 2 ≤ near.get .mode ∧ (pool pooled 0).wait = none ∧ (pool (waits open_ 63) 0).wait = some w ∧
    w.ticks < eff (waits open_ 63) pgPOOL 0x104 ∧ (pool (waits open_ 64) 0).wait = some { w with ticks := 64 } ∧
    eff (waits open_ 64) pgPOOL 0x104 ≤ 64 ∧ eligible (waits open_ 64) 0 .F = true ∧ getCmd (waits open_ 64) 0 w.strm w.stamp = some open_ ∧ open_.op ≠ opPARK := by
  decide +kernel

/-! ## Losses and drains -/

/-- A pool without a sequence, a loss edit due, and port 5 draining. -/
def losing : State :=
  updSlow (updPool { pooled with mem := mapped } 0 fun x => { x with lossDue := true }) 5 fun x => { x with draining := true }

theorem test_loss : Runs losing ∧ (pool pooled 0).lossDue = false ∧ (pool losing 0).lossDue = true ∧ editBoundary losing 0 = true ∧
    okSat (ranM losing (poolCtx losing 0) (editM lossEditM)) (fun _ _ => true) = true := by
  simp only [Runs]; decide +kernel

theorem test_drain : (slowP losing 4).draining = false ∧ (slowP losing 5).draining = true ∧ drainPart losing 5 = none ∧
    pagesOnPort losing 5 = 0 ∧ (slowP losing 5).drained = false := by decide +kernel

/-- Sequence 0 has one page, in slow-tier frame 1 on port 5, which drains; no frame is free. -/
def leaving : State :=
  let leaf := Config.slowBase + 5 * Config.slowPortBytes + 1 + 64 * 2 ^ 56
  let cells := [(260 * 0x8000 + 8 * 64, 261 * 0x8000), (260 * 0x8000 + 8 * 2048, 262 * 0x8000), (260 * 0x8000 + 8 * 16, 263 * 0x8000 + 1),
    (261 * 0x8000, 1), (262 * 0x8000, 1), (263 * 0x8000, 264 * 0x8000 + 1), (264 * 0x8000, 265 * 0x8000 + 1), (265 * 0x8000, leaf)]
  let s := { pooled with mem := cells.foldl (fun m x => memPut m x.1 (leBytes 8 x.2)) [] }
  let s := setEff (setEff s pgPOOL 0x224 0x200000) pgPOOL 0x22C 1
  updSlow (updPool s 0 fun x => { x with retiring := [], nodes := (List.range 10).map (· + 256) }) 5 fun x => { x with draining := true, ready := true }


theorem runM_then {α β : Type} {m : M α} {k : α → M β} {r r' : Run} {a : α} (h : runM m r = (.ok a, r')) :
    runM (m >>= k) r = runM (k a) r' := by
  simp only [runM, bind, ExceptT.bind, ExceptT.run, ExceptT.mk, StateT.run, StateT.bind, ExceptT.bindCont] at h ⊢
  rw [h]

theorem ranM_ok {α : Type} {m : M α} {s : State} {c : Ctx} {a : α} {r : Run} (h : runM m (Run.of s c) = (.ok a, r))
    (hd : asks s r.s = false) : ranM s c m = .ok a r := by
  unfold ranM runWait
  rw [h]
  simp only [hd, Bool.false_eq_true, if_false]

theorem peekM_ok {α : Type} {m : M α} {s : State} {c : Ctx} {a : α} {r : Run} (h : runM m (Run.of s c) = (.ok a, r)) :
    peekM s c m = some a := by
  unfold peekM
  rw [h]
  rfl

theorem runM_mapM {α β : Type} {f : α → M β} {g : α → β} {r : Run} (l : List α)
    (h : ∀ x ∈ l, runM (f x) r = (.ok (g x), r)) : runM (l.mapM f) r = (.ok (l.map g), r) := by
  induction l with
  | nil => rfl
  | cons x l ih =>
    rw [List.mapM_cons, runM_then (h x (List.mem_cons_self ..)), runM_then (ih fun y hy => h y (List.mem_cons_of_mem _ hy))]
    rfl

/-- Rows without errors read as memory holds them, where no channel dozes. -/
theorem rows_plain (s : State) (h1 : s.rowErr = []) (hd : (chan s 0).power = .run) {pa n : Nat} (hp : pa < 0x80000000) (w : Who) :
    rowsRead s w pa n = (s, .ok (memBytes s.mem pa n)) := by
  have hs : isStore pa = true ∧ sliceOf pa = 0 := ⟨decide_eq_true (Nat.lt_trans hp (by decide)), Nat.div_eq_of_lt hp⟩
  have h3 : isSlow pa = false := by
    rw [isSlow, decide_eq_false (by simp only [Config.slowBase]; omega), Bool.false_and]
  have ht : touchRows s w.ch pa n false = s := by
    unfold touchRows dozeTouch
    rw [h3, hs.1, hs.2, hd]
    split <;> rfl
  simp only [rowsRead, ht, h1]
  rfl

/-- A state whose table area reads as that of `leaving`. -/
def Like (s : State) : Prop :=
  (s.mem.filter fun c => decide (c.1 < 262 * 0x8000)) = (leaving.mem.filter fun c => decide (c.1 < 262 * 0x8000)) ∧ s.rowErr = [] ∧ (chan s 0).power = .run ∧ 0 < capCH s ∧ (slice s 0).lost = false

theorem mem_part {m k : Memory} {e : Nat} (h : (m.filter fun c => decide (c.1 < e)) = k.filter fun c => decide (c.1 < e)) {a n : Nat}
    (ha : a + n ≤ e) : memBytes m a n = memBytes k a n := by
  have f : ∀ m : Memory, (m.filter fun c => decide (a ≤ c.1) && decide (c.1 < a + n)) =
      (m.filter fun c => decide (c.1 < e)).filter fun c => decide (a ≤ c.1) && decide (c.1 < a + n) := fun m => by
    rw [List.filter_filter]
    refine List.filter_congr fun c _ => ?_
    by_cases h1 : c.1 < a + n
    · rw [decide_eq_true (show c.1 < e by omega), Bool.and_true]
    · rw [decide_eq_false h1, Bool.and_false, Bool.false_and]
  rw [memBytes, memBytes, f m, f k, h]

theorem leaving_read {r : Run} (hr : Like r.s) {pa : Nat} (n : Nat) (he : pa + n ≤ 262 * 0x8000) :
    runM (tabRd pa n) r = (.ok (memBytes leaving.mem pa n), r) := by
  have hp : pa < 0x80000000 := by omega
  have h2 : present r.s pa = true := by
    have hs : isStore pa = true ∧ sliceOf pa = 0 := ⟨decide_eq_true (Nat.lt_trans hp (by decide)), Nat.div_eq_of_lt hp⟩
    simp only [present, hs.1, hs.2, hr.2.2.2.1, hr.2.2.2.2, if_true]
    rfl
  have h4 : ¬ noRoot * Config.granule ≤ pa := by simp only [noRoot, Config.granule]; omega
  have ht : tabRead r.s r.ctx.who pa n = (r.s, .ok (memBytes leaving.mem pa n)) := by
    simp only [tabRead, if_neg h4, h2, rows_plain r.s hr.2.1 hr.2.2.1 hp, mem_part hr.1 he]
    rfl
  unfold tabRd
  simp only [runM, bind, ExceptT.bind, ExceptT.run, ExceptT.mk, StateT.run, StateT.bind, ExceptT.bindCont, get, getThe, MonadStateOf.get,
    StateT.get, liftM, monadLift, MonadLift.monadLift, ExceptT.lift, Functor.map, StateT.map, pure, StateT.pure, ht, set, StateT.set,
    ExceptT.pure]

theorem leaving_entry {r : Run} (hr : Like r.s) (i : Nat) (h : i < 0x1000) :
    runM (entRd 260 i) r = (.ok (leNat (memBytes leaving.mem (260 * 0x8000 + 8 * i) 8)), r) := by
  unfold entRd
  rw [runM_then (leaving_read hr 8 (by simp only [Config.granule]; omega))]
  rfl

/-- The sequence record of a pool's one open sequence. -/
def openOne : SeqRec := { SeqRec.closed with state := 1 }

theorem records_one (z : List Byte) (m : Nat) (h : z = List.replicate m 0) :
    ((List.range 2048).filterMap fun k =>
      let r := SeqRec.ofBytes (((1 :: z).drop (16 * k)).take 16)
      if r.state = 0 then none else some (2048 * 0 + k, r)) = [(0, SeqRec.ofBytes ((1 :: z).take 16))] := by
  have hz : ∀ k, (SeqRec.ofBytes (((1 :: z).drop (16 * (k + 1))).take 16)).state = 0 := fun k => by
    rw [show 16 * (k + 1) = (16 * k + 15) + 1 by omega, List.drop_succ_cons, h, List.drop_replicate, List.take_replicate]
    simp only [SeqRec.ofBytes, leAt, List.drop_zero, List.take_replicate]
    generalize min 1 (min 16 (m - (16 * k + 15))) = n
    induction n with
    | zero => rfl
    | succ n ih => rw [List.replicate_succ, leNat, ih]; rfl
  have h1 : (SeqRec.ofBytes (((1 :: z).drop (16 * 0)).take 16)).state = 1 := by
    simp [SeqRec.ofBytes, leAt, leNat]
  rw [show (2048 : Nat) = 2047 + 1 from rfl, List.range_succ_eq_map, List.filterMap_cons]
  have hn : ∀ (f : Nat → Nat × SeqRec), (List.map Nat.succ (List.range 2047)).filterMap (fun k =>
      if (SeqRec.ofBytes (((1 :: z).drop (16 * k)).take 16)).state = 0 then none else some (f k)) = [] := fun f => by
    rw [List.filterMap_map]
    exact List.filterMap_eq_nil_iff.2 fun k _ => if_pos (hz k)
  simp only [h1, hn]
  rfl

theorem memRun_nil (n : Nat) : ∀ a, memRun [] a n = List.replicate n 0 := by
  induction n with
  | zero => exact fun _ => rfl
  | succ n ih => exact fun a => congrArg (List.cons 0) (ih (a + 1))

theorem memRun_one (a n : Nat) (b : Byte) : memRun [(a, b)] a (n + 1) = b :: List.replicate n 0 := by
  rw [← memRun_nil n (a + 1)]
  exact if_pos rfl

/-- The granule of sequence records. -/
theorem leaving_records : memBytes leaving.mem (261 * 0x8000) Config.granule = 1 :: List.replicate 32767 0 := by
  have h : (leaving.mem.filter fun c => decide (261 * 0x8000 ≤ c.1) && decide (c.1 < 261 * 0x8000 + Config.granule)) =
      [(261 * 0x8000, 1)] := by decide +kernel
  rw [memBytes, h]
  exact memRun_one _ 32767 1

theorem leaving_seqs {r : Run} (hr : Like r.s) : runM (liveSeqs 260) r = (.ok [(0, openOne)], r) := by
  have key : ∀ i ∈ List.range 32, runM (do
      let e ← entRd 260 (64 + i)
      if e = 0 then return []
      else
        let bs ← tabRd e Config.granule
        return (List.range 2048).filterMap fun k =>
          let r := SeqRec.ofBytes ((bs.drop (16 * k)).take 16)
          if r.state = 0 then none else some (2048 * i + k, r)) r = (.ok (if i = 0 then [(0, openOne)] else []), r) := by
    intro i hi
    rw [List.mem_range] at hi
    rw [runM_then (leaving_entry hr (64 + i) (by omega))]
    by_cases h0 : i = 0
    · have : leNat (memBytes leaving.mem (260 * 0x8000 + 8 * (64 + 0)) 8) = 261 * 0x8000 := by decide +kernel
      subst h0
      rw [this, if_neg (by decide), if_pos rfl, runM_then (leaving_read hr _ (by decide)), leaving_records]
      exact congrArg (fun l => (Except.ok l, r)) (records_one _ 32767 rfl)
    · have : leNat (memBytes leaving.mem (260 * 0x8000 + 8 * (64 + i)) 8) = 0 := by
        have : ∀ i : Fin 32, i.val ≠ 0 → leNat (memBytes leaving.mem (260 * 0x8000 + 8 * (64 + i.val)) 8) = 0 := by decide +kernel
        exact this ⟨i, hi⟩ h0
      rw [if_pos this, if_neg h0]
      rfl
  unfold liveSeqs
  rw [runM_then (runM_mapM _ key)]
  rfl

/-- The run of an edit of port 5's drain, once it has begun. -/
def begun : Run := { Run.of leaving (poolCtx leaving 0) with tx := { Tx.none with root := 260 } }
def onPort : List (Nat × List Page) :=
  [(1, [{ seq := 0, layer := 0, head := 0, page := 0, frame := 1, at_ := { leaf := 4611687461536399361, base := 1443109011456 } }])]

/-- A run of partition 0 that finds one page on port 5. -/
def Finds (r : Run) : Prop :=
  Like r.s ∧ r.ctx.part = 0 ∧ (pool r.s 0).root = 260 ∧
    runM ([(0, openOne)].mapM fun e => allPagesOf 260 e.1) r = (.ok [(onPort.flatMap (·.2))], r) ∧
    ((byFrame [onPort.flatMap (·.2)].flatten).filter fun e => isSlowFrame r.s 0 e.1 && portOf (frameAddr r.s [] 0 e.1) == 5) = onPort

theorem leaving_frames {r : Run} (h : Finds r) : runM (framesOnPort 5) r = (.ok onPort, r) := by
  obtain ⟨hl, hp, hq, ha, hf⟩ := h
  unfold framesOnPort
  rw [runM_then (m := getS) (a := r.s) (r' := r) rfl, runM_then (m := partM) (a := 0) (r' := r) (by rw [← hp]; rfl),
    runM_then (m := getP) (a := pool r.s 0) (r' := r) (by rw [← hp]; rfl), hq, runM_then (leaving_seqs hl), runM_then ha]
  exact congrArg (fun l => (Except.ok l, r)) hf

theorem begun_finds : Finds begun := by simp only [Finds, Like]; decide +kernel
theorem read_finds : Finds (Run.of leaving (readCtx leaving 0)) := by simp only [Finds, Like]; decide +kernel

theorem drain_part {s : State} (hf : Finds (Run.of s (readCtx s 0))) (h : editBoundary s 0 = true ∧ (pool s 0).lossDue = false) :
    drainPart s 5 = some 0 := by
  unfold drainPart
  rw [show allParts = 0 :: allParts.drop 1 from rfl, List.find?_cons_of_pos]
  rw [h.1, h.2, peekM_ok (leaving_frames hf)]
  exact Eq.refl true

theorem drain_pages {s : State} (hf : Finds (Run.of s (readCtx s 0))) (h0 : hasPool s 0 = true)
    (h1 : ∀ p ∈ allParts.drop 1, hasPool s p = false) : pagesOnPort s 5 ≠ 0 := by
  unfold pagesOnPort
  rw [show allParts = 0 :: allParts.drop 1 from rfl, List.map_cons, h0, peekM_ok (leaving_frames hf), List.map_congr_left (g := fun _ => 0)
    fun p hp => by rw [h1 p hp]; rfl]
  decide

theorem runM_editM {α : Type} {m : M α} {a : α} {r r1 : Run} (h1 : runM beginTx r = (.ok (), r1)) (h2 : runM m r1 = (.ok a, r1))
    (h3 : runM commitTx r1 = (.ok (), r1)) (h0 : instarRoom (pool r.s r.ctx.part) = true) : runM (editM m) r = (.ok a, r1) := by
  have h : runM (do beginTx; let a ← m; commitTx; return a) r = (.ok a, r1) := by
    rw [runM_then h1, runM_then h2, runM_then h3]
    rfl
  unfold editM
  rw [runM_then (m := getP) (a := pool r.s r.ctx.part) (r' := r) rfl]
  simp only [h0, Bool.not_true, Bool.false_eq_true, if_false]
  rw [runM_then (m := get) (a := r) (r' := r) rfl]
  simp only [h]
  rfl

theorem leaving_drain : ranM leaving (poolCtx leaving 0) (editM (drainEditM 5)) = .ok 0 begun := by
  have hd : runM (drainEditM 5) begun = (.ok 0, begun) := by
    have : freeCount leaving 0 false + freeCount leaving 0 true = 0 := by decide +kernel
    unfold drainEditM
    rw [runM_then (m := partM) (a := 0) (r' := begun) rfl, runM_then (leaving_frames begun_finds),
      runM_then (m := getS) (a := leaving) (r' := begun) rfl, runM_then (m := getS) (a := leaving) (r' := begun) rfl]
    simp only [this]
    rfl
  exact ranM_ok (runM_editM (by decide +kernel) hd (by decide +kernel) (by decide +kernel)) (by decide +kernel)

theorem test_drain_part : Runs leaving ∧ (slowP leaving 5).draining = true ∧ drainPart leaving 5 = some 0 ∧
    ∃ r, ranM leaving (poolCtx leaving 0) (editM (drainEditM 5)) = .ok 0 r ∧
      pagesOnPort (settled (updSlow r.s 5 fun x => { x with moved := x.moved + 0 }) 0) 5 ≠ 0 := by
  have h : settled (updSlow begun.s 5 fun x => { x with moved := x.moved + 0 }) 0 = leaving := by decide +kernel
  refine ⟨⟨rfl, rfl, rfl⟩, by decide +kernel, drain_part read_finds (by decide +kernel), begun, leaving_drain, ?_⟩
  rw [h]
  exact drain_pages read_finds (by decide +kernel) (by decide +kernel)

/-- The port of `leaving` answers no more and a store frame is free, so that the move fails. -/
def gone : State := updPool (updSlow leaving 5 fun x => { x with ready := false }) 0 fun x => { x with free := [0], frameTab := [266] }
def goneBegun : Run := { Run.of gone (poolCtx gone 0) with tx := { Tx.none with root := 260 } }
def goneMove : Except (Nat × Nat) Unit × Run :=
  runM (moveFrames onPort do
    if freeCount (← getS) 0 false = 0 then takeFrame true else takeFrame false) goneBegun
def goneLeft : State :=
  { undoEdit (Run.of gone (poolCtx gone 0)) goneMove.2 with dozed := goneMove.2.s.dozed }

theorem gone_fails : (match goneMove.1 with
    | .error e => e.1 != stWAITNODE && e.1 != stWAITPAGE && e.1 != stHOST && e.1 != stWAITPIN
    | _ => false) = true := by decide +kernel

theorem gone_finds : Finds (Run.of goneLeft (readCtx goneLeft 0)) := by simp only [Finds, Like]; decide +kernel
theorem gone_begins : Finds goneBegun := by simp only [Finds, Like]; decide +kernel

theorem runM_fails {α β : Type} {m : M α} {k : α → M β} {r r' : Run} {e : Nat × Nat} (h : runM m r = (.error e, r')) :
    runM (m >>= k) r = (.error e, r') := by
  simp only [runM, bind, ExceptT.bind, ExceptT.run, ExceptT.mk, StateT.run, StateT.bind, ExceptT.bindCont] at h ⊢
  rw [h]
  rfl

theorem ranM_bad {α : Type} {m : M α} {s t : State} {c : Ctx} {e : Nat × Nat} {u : State} (h : runM m (Run.of s c) = (.error e, { Run.of s c with s := u }))
    (ht : t = u) (hk : asks s t = false) (h3 : ¬ e.1 = stHOST) : ranM s c m = .bad e.1 e.2 t := by
  subst ht
  unfold ranM runWait
  rw [h]
  simp only [hk, Bool.false_eq_true, if_false, h3]

theorem editM_fails {α : Type} {m : M α} {e : Nat × Nat} {r r0 r1 : Run} (hb : runM beginTx r = (.ok (), r0))
    (hm : runM m r0 = (.error e, r1)) (h0 : instarRoom (pool r.s r.ctx.part) = true)
    (he : (e.1 = stWAITNODE && r.waits || e.1 = stWAITPAGE || e.1 = stHOST) = false) :
    runM (editM m) r = (.error e, { r with s := { undoEdit r r1 with dozed := r1.s.dozed } }) := by
  have h : runM (do beginTx; let a ← m; commitTx; return a) r = (.error e, r1) := by
    rw [runM_then hb]
    exact runM_fails hm
  unfold editM
  rw [runM_then (m := getP) (a := pool r.s r.ctx.part) (r' := r) rfl]
  simp only [h0, Bool.not_true, Bool.false_eq_true, if_false]
  rw [runM_then (m := get) (a := r) (r' := r) rfl]
  simp only [h, he, Bool.false_eq_true, if_false]
  rfl

theorem gone_drain : ∃ e x, ranM gone (poolCtx gone 0) (editM (drainEditM 5)) = .bad e x goneLeft ∧ e ≠ stWAITNODE ∧ e ≠ stWAITPIN := by
  have hw := gone_fails
  obtain ⟨x, r1, hg⟩ : ∃ x r1, goneMove = (x, r1) := ⟨_, _, rfl⟩
  rw [hg] at hw
  cases x with
  | ok _ => exact absurd hw Bool.false_ne_true
  | error e =>
    simp only [Bool.and_eq_true, bne_iff_ne, ne_eq] at hw
    obtain ⟨⟨⟨h1, h2⟩, h3⟩, h4⟩ := hw
    refine ⟨e.1, e.2, ?_, h1, h4⟩
    have hd : runM (drainEditM 5) goneBegun = (.error e, r1) := by
      unfold drainEditM
      rw [runM_then (m := partM) (a := 0) (r' := goneBegun) rfl, runM_then (leaving_frames gone_begins),
        runM_then (m := getS) (a := gone) (r' := goneBegun) rfl, runM_then (m := getS) (a := gone) (r' := goneBegun) rfl]
      have hr : pageGroups (onPort.take (freeCount gone 0 false + freeCount gone 0 true)) = [onPort] := by decide +kernel
      simp only [hr]
      unfold goneMove at hg
      exact runM_fails hg
    have hb : runM beginTx (Run.of gone (poolCtx gone 0)) = (.ok (), goneBegun) := by decide +kernel
    have he := editM_fails hb hd (by decide +kernel) (by simp [h1, h2, h3])
    have hl : goneLeft = { undoEdit (Run.of gone (poolCtx gone 0)) r1 with dozed := r1.s.dozed } := by rw [goneLeft, hg]
    have hk : asks gone goneLeft = false := by decide +kernel
    exact ranM_bad he hl hk h3

theorem test_drain_fails : Runs gone ∧ (slowP gone 5).draining = true ∧ drainPart gone 5 = some 0 ∧
    (∃ e x, ranM gone (poolCtx gone 0) (editM (drainEditM 5)) = .bad e x goneLeft ∧ e ≠ stWAITNODE ∧ e ≠ stWAITPIN) ∧
    pagesOnPort goneLeft 5 ≠ 0 :=
  ⟨⟨rfl, rfl, rfl⟩, by decide +kernel, drain_part (by simp only [Finds, Like]; decide +kernel) (by decide +kernel), gone_drain,
    drain_pages gone_finds (by decide +kernel) (by decide +kernel)⟩

/-! ## Transfers -/

def moving : Cmd := { withFields opXFER [(.repeat, 1)] with stage := .issued }
def slotAt (phase since : Nat) : XSlot := { slot := 0, strm := .F, stamp := 9, left := 2, phase := phase, period := 4, sinceStart := since }
def withSlot (s : State) (x : XSlot) : State := updPart s 0 fun p => { p with slots := [x] }

theorem test_transfer : let head := withFields opXFER [(.repeat, 1)]
    let s := withCmd work moving
    transferRow (.xfer 0 .F) = some (0, .F, opXFER) ∧ readyTransfer (withCmd work head) 0 .F opXFER = none ∧
    headCmd (withCmd work head) 0 .F = some head ∧ head.op = opXFER ∧ readyTransfer s 0 .F opXFER = some moving ∧
    eligible s 0 .F = true ∧ budgetFits s moving.energy = true ∧ slotOf s 0 (moving.get .xs) = none ∧
    (slotOf (withSlot s (slotAt 1 0)) 0 (moving.get .xs)).isSome = true ∧ slotOf work 0 0 = none ∧
    slotOf (withSlot work (slotAt 1 4)) 0 0 = some (slotAt 1 4) ∧ slotOf (withSlot work (slotAt 0 3)) 0 0 = some (slotAt 0 3) ∧
    slotOf (withSlot work (slotAt 0 4)) 0 0 = some (slotAt 0 4) := by decide +kernel

/-! ## `snap` and `fence` -/

def snapCmd (n : Nat) : Cmd := withFields opSNAP [(.imgG, n), (.tmo, 1)]

def snapAsked (n : Nat) : Ran (List Ref × Work) :=
  ranM (withCmd work (snapCmd n)) (cmdCtx (withCmd work (snapCmd n)) 0 .F (snapCmd n) 0xFF 0) (snapPlan (snapCmd n))

theorem test_snap : headCmd (withCmd work (snapCmd 1000)) 0 .F = some (snapCmd 1000) ∧ headCmd (withCmd work (snapCmd 0)) 0 .F = some (snapCmd 0) ∧
    (snapCmd 0).op = opSNAP ∧ (snapCmd 0).paramErr = 0 ∧ okSat (snapAsked 1000) (fun a _ => firstRef a.1 == none) = true ∧
    okSat (snapAsked 0) (fun a _ => (firstRef a.1).isSome) = true := by decide +kernel

theorem test_timeouts : let k := { snapCmd 1000 with stage := .issued, ticks := 1 }
    let f := { fetched (leBytes 1 opFENCE ++ zeroBytes 39 ++ leBytes 4 1 ++ zeroBytes 20) [] with stage := .issued, ticks := 1 }
    let s := updStrm (withCmd work k) 0 .B fun x => { x with armed := true, cmds := [fence], next := 1 }
    Runs s ∧ snapsOf s 0 = [(.F, k)] ∧ k.stage = .issued ∧ k.quiesced = none ∧ quiet s 0 .F k = false ∧ k.get .tmo ≠ 0 ∧ k.get .tmo ≤ k.ticks ∧ snapsOf work 0 = [] ∧
    fenceLate work 0 .F = none ∧ fenceLate (withCmd work f) 0 .F = some f := by
  simp only [Runs]; decide +kernel

/-! ## Rings and completions -/

/-- Stream F of partition 0 is armed; the slot of its next record holds `record`. -/
def polled (record : List Byte) : State :=
  { updStrm work 0 .F fun x => { x with armed := true } with mem := memPut mapped 0x40000 record }

def lostRing : State := setEff (polled []) pgSTRM 0x100 0x100000

theorem test_poll : partLoad full 0 = false ∧ partLoad work 0 = true ∧ mayFetch work 0 .F = false ∧ mayFetch (polled []) 0 .F = true ∧
    okSat (slotRead (polled []) 0 .F (nextSlotVa (polled []) 0 .F)) (fun bs _ => leAt bs 0 1 == 0) = true ∧
    okSat (slotRead (polled (control opFENCE)) 0 .F (nextSlotVa (polled (control opFENCE)) 0 .F)) (fun bs r => leAt bs 0 1 != 0 &&
      leAt bs 4 4 == (strm r.s 0 .F).next.toNat && isControl (leAt bs 0 1)) = true ∧
    partLoad lostRing 0 = true ∧ mayFetch lostRing 0 .F = true ∧ (match slotRead lostRing 0 .F (nextSlotVa lostRing 0 .F) with
      | .bad e _ _ => e != stECC
      | _ => false) = true := by decide +kernel

/-- A fence, quiet or not, has ended; the completion ring has room for its record where `head` is 0. -/
def ended (quiet : Nat) : Cmd := { fetched (leBytes 1 opFENCE ++ [BitVec.ofNat 8 quiet] ++ zeroBytes 62) [] with stage := .ended }
def finished (quiet head : Nat) : State :=
  updStrm (withCmd work (ended quiet)) 0 .F fun x => { x with doneQ := [0], chead := BitVec.ofNat 32 head }

theorem test_completion : nextDone work 0 .F = none ∧ nextDone (finished 1 0) 0 .F = some (ended 1) ∧ (ended 1).quiet = true ∧
    (ended 1).status = stOK ∧ nextDone (finished 0 0) 0 .F = some (ended 0) ∧ (ended 0).quiet = false ∧
    checksumMode (finished 0 0) 0 = false ∧ ringRoom (finished 0 2) 0 .F = false ∧ ringRoom (finished 0 0) 0 .F = true ∧
    (let a := advise (finished 0 0) 0 .F (ended 0)
    okSat (ranM a.1 { who := Who.cmd 0 .F (ended 0).stamp 0, part := 0, root := none, owner := .completion (pf 0) .F }
      (wrPlain (recordVa a.1 0 .F ((strm (finished 0 0) 0 .F).cseq + 1).toNat)
        (completionBytes (ended 0) ((strm (finished 0 0) 0 .F).cseq + 1).toNat a.2))) (fun _ _ => true)) = true := by decide +kernel

/-! ## Restores -/

/-- The header of an image whose one section that is not empty is the registers, in the next granule. -/
def imgHeader : List Byte :=
  leBytes 2 0 ++ leBytes 2 1 ++ leBytes 4 1 ++ zeroBytes 8 ++ leBytes 4 1 ++ zeroBytes 44 ++ leBytes 4 1 ++ leBytes 4 1 ++ leBytes 4 0xFFFFFFFF
def imgPool : List Byte := [1, 0, 0, 0, 1, 175, 236, 122, 202]
/-- `work` with an image at granules 4 and 5, and its restore written to `SNAP`. -/
def restoring : State :=
  { work with
    shadow := words0 ++ [(wordAddr pgSNAP 0x100, 8), (wordAddr pgSNAP 0x104, 4)]
    mem := memPut (memPut (memPut mapped (4 * 0x8000) imgHeader) (5 * 0x8000) (leBytes 4 0xFFFFFFFF)) (5 * 0x8000 + 11040) imgPool }
def restoringU : State := commitBegun restoring (ownCommit pgSNAP)

theorem restoring_xlate (g : Nat) (h : g = 4 ∨ g = 5) : xlate restoringU (restoreCtx 0) (g * 0x8000) false =
   (restoringU, .ok (g * 0x8000) (g * 0x8000 + 3)) := by
  rcases h with rfl | rfl <;> decide +kernel

/-- What `rd` does once its bytes are read. -/
def rdRest (va n : Nat) (r : Run) (x : State × Acc) : M (List Byte) := do
  match x with
  | (s, .ok bs) => set { r with s := s }; countSlowPg (slowUnder s r.ctx va n); return bs
  | (s, .bad st d) => set { r with s := s }; throw (st, d)

theorem img_bytes {va n : Nat} {bs : List Byte} (hb : bitOf va 55 = false)
    (hv : vread restoringU (restoreCtx 0) va n = (restoringU, .ok bs)) : imgBytes restoringU 0 va n = (restoringU, .ok bs) := by
  have hr : rd va n = (get >>= fun r => rdRest va n r (vread r.s r.ctx va n)) := by
    unfold rd rdRest; rfl
  have h : runM (rd va n) (Run.of restoringU (restoreCtx 0)) = (.ok bs, Run.of restoringU (restoreCtx 0)) := by
    rw [hr, runM_then (m := get) (a := Run.of restoringU (restoreCtx 0)) (r' := Run.of restoringU (restoreCtx 0)) rfl]
    have e : vread (Run.of restoringU (restoreCtx 0)).s (Run.of restoringU (restoreCtx 0)).ctx va n = (restoringU, .ok bs) := hv
    rw [e]
    unfold rdRest
    have hs : slowUnder restoringU (Run.of restoringU (restoreCtx 0)).ctx va n = [] := by
      unfold slowUnder
      rw [hb]
      rfl
    simp only [hs]
    rfl
  unfold imgBytes
  rw [if_neg (by decide +kernel), ranM_ok h (by unfold asks; exact bne_self_eq_false _)]
  rfl

theorem restoring_bytes (g : Nat) (h : g = 4 ∨ g = 5) : imgBytes restoringU 0 (g * 0x8000) Config.granule =
    (restoringU, .ok (memBytes restoringU.mem (g * 0x8000) Config.granule)) := by
  have hc : cutRange Config.granule Config.granule (g * 0x8000 % 2 ^ 56) Config.granule = [(g * 0x8000, Config.granule)] := by
    rcases h with rfl | rfl <;> decide +kernel
  have hp : paRead restoringU (restoreCtx 0) (g * 0x8000) Config.granule =
      (restoringU, .ok (memBytes restoringU.mem (g * 0x8000) Config.granule)) := by
    have hh : isHost (g * 0x8000) = false := by rcases h with rfl | rfl <;> decide
    unfold paRead
    rw [hh]
    simp only [Bool.false_eq_true, if_false]
    exact rows_plain _ rfl (by decide +kernel) (by rcases h with rfl | rfl <;> decide) _
  have hv : vread restoringU (restoreCtx 0) (g * 0x8000) Config.granule =
      (restoringU, .ok (memBytes restoringU.mem (g * 0x8000) Config.granule)) := by
    unfold vread
    rw [hc]
    simp only [List.foldl_cons, List.foldl_nil, restoring_xlate g h, hp, List.nil_append]
  exact img_bytes (by rcases h with rfl | rfl <;> decide) hv

theorem restoring_empty (va : Nat) (h : bitOf va 55 = false) : imgBytes restoringU 0 va 0 = (restoringU, .ok []) :=
  img_bytes h rfl

def imgHdr : List Byte := memBytes restoringU.mem (4 * 0x8000) Config.granule
def imgRegs : List Byte := memBytes restoringU.mem (5 * 0x8000) Config.granule

/-- The register section: four bytes that clear the check, and `POOL` words 8 and 9 with bytes that clear it again. -/
def regs0 : List Byte := leBytes 4 0xFFFFFFFF ++ (List.replicate 11036 0 ++ (imgPool ++ List.replicate 21719 0))

theorem memRun_skip (b n : Nat) (v : Byte) (rest : Memory) : ∀ k c, c + k = b →
    memRun ((b, v) :: rest) c (k + n) = List.replicate k 0 ++ memRun ((b, v) :: rest) b n := by
  intro k
  induction k with
  | zero => intro c h; simp only [Nat.add_zero] at h; subst h; simp
  | succ k ih =>
    intro c h
    rw [show k + 1 + n = (k + n) + 1 by omega, memRun, if_neg (show ¬ b = c by omega), ih (c + 1) (by omega), List.replicate_succ, List.cons_append]

theorem crc_zeros (n : Nat) : (List.replicate n (0 : Byte)).foldl crcByte 0 = 0 := by
  induction n with
  | zero => rfl
  | succ n ih => rw [List.replicate_succ, List.foldl_cons]; exact ih

theorem imgRegs_eq : imgRegs = regs0 := by
  have h : (restoringU.mem.filter fun c => decide (5 * 0x8000 ≤ c.1) && decide (c.1 < 5 * 0x8000 + Config.granule)) =
      [(163840, 255), (163841, 255), (163842, 255), (163843, 255), (174880, 1), (174884, 1), (174885, 175), (174886, 236),
        (174887, 122), (174888, 202)] := by decide +kernel
  rw [imgRegs, memBytes, h, show Config.granule = 32764 + 1 + 1 + 1 + 1 from rfl]
  have hit : ∀ (a n : Nat) (v : Byte) (rest : Memory), memRun ((a, v) :: rest) a (n + 1) = v :: memRun rest (a + 1) n :=
    fun _ _ _ _ => by rw [memRun, if_pos rfl]
  rw [hit, hit, hit, hit, show (32764 : Nat) = 11036 + (3 + 21720 + 4 + 1) from rfl,
    memRun_skip 174880 (3 + 21720 + 4 + 1) 1 _ 11036 _ rfl, hit, show 3 + 21720 + 4 = 3 + (21719 + 1 + 1 + 1 + 1 + 1) from rfl,
    memRun_skip 174884 (21719 + 1 + 1 + 1 + 1 + 1) 1 _ 3 _ rfl, hit, hit, hit, hit, hit, memRun_nil]
  rfl

theorem imgRegs_crc : crc32c imgRegs = 0xFFFFFFFF := by
  have h1 : (leBytes 4 0xFFFFFFFF).foldl crcByte 0xFFFFFFFF = 0 := by decide +kernel
  have h2 : imgPool.foldl crcByte 0 = 0 := by decide +kernel
  rw [crc32c, imgRegs_eq, regs0, List.foldl_append, h1, List.foldl_append, crc_zeros, List.foldl_append, h2, crc_zeros]
  rfl

theorem restoring_read : readImage restoringU = .ok restoringU imgHdr [imgRegs, [], [], [], []] := by
  have e0 : restorePart restoringU = 0 ∧ restoreVa restoringU = 4 * 0x8000 := by decide +kernel
  have e1 : leAt imgHdr 2 2 = 1 ∧ leAt imgHdr 4 4 = 1 ∧ leAt imgHdr 16 4 = 1 ∧ leAt imgHdr 64 4 = 1 ∧ leAt imgHdr 68 4 = 1 ∧
      leAt imgHdr 72 4 = 0xFFFFFFFF := by decide +kernel
  have e2 : ∀ k : Fin 4, leAt imgHdr (64 + 16 * (4 - k.val)) 4 = 0 ∧ leAt imgHdr (64 + 16 * (4 - k.val) + 4) 4 = 0 ∧ leAt imgHdr (64 + 16 * (4 - k.val) + 8) 4 = 0 := by decide +kernel
  have hz : ∀ (k : Nat) (secs : List (List Byte)), k ≤ 4 → imgSections 0 (4 * 0x8000) imgHdr k restoringU secs =
      .ok restoringU imgHdr (secs ++ List.replicate k []) := by
    intro k
    induction k with
    | zero => intro secs _; simp [imgSections]
    | succ k ih =>
      intro secs hk
      have := e2 ⟨k, by omega⟩
      unfold imgSections
      simp only [this.1, this.2.1, this.2.2, Nat.zero_mul, Nat.add_zero, restoring_empty (4 * 0x8000) (by decide)]
      rw [if_pos (by decide), ih _ (by omega), List.append_assoc, List.replicate_succ]
      rfl
  unfold readImage
  have h4 := restoring_bytes 4 (Or.inl rfl)
  have h5 := restoring_bytes 5 (Or.inr rfl)
  rw [e0.1, e0.2]
  dsimp only
  rw [h4]
  dsimp only
  rw [show memBytes restoringU.mem (4 * 0x8000) Config.granule = imgHdr from rfl, if_neg (by rw [e1.1, e1.2.1]; decide),
    if_neg (by rw [e1.2.2.1]; decide)]
  unfold imgSections
  dsimp only
  rw [e1.2.2.2.1, e1.2.2.2.2.1, e1.2.2.2.2.2]
  rw [show 4 * 0x8000 + 1 * Config.granule = 5 * 0x8000 from rfl, show 1 * Config.granule = Config.granule from rfl, h5]
  dsimp only
  rw [show memBytes restoringU.mem (5 * 0x8000) Config.granule = imgRegs from rfl, if_pos imgRegs_crc, hz 4 _ (by decide)]
  rfl



theorem check_pass {s v : State} {hdr : List Byte} {secs : List (List Byte)} {regs tabs : List Byte} (hp : restorePart s = 0)
    (ha : partArmed s 0 = false) (hl : partLoad s 0 = true) (hr : readImage s = .ok v hdr secs) (h0 : secs.getD 0 [] = regs)
    (h2 : secs.getD 2 [] = tabs) (ho : restoreOutside (putTables (putSpace v regs 0) 0 tabs) 0 = false)
    (hb : (poolRules (putTables (putSpace v regs 0) 0 tabs) [] 0).isEmpty = true) (hd : anyDoze v = false) : restoreCheck s = .pass v hdr secs := by
  subst h0 h2
  unfold restoreCheck
  dsimp only
  rw [hp, if_neg (by rw [ha, hl]; decide), hr]
  dsimp only
  rw [if_neg (by rw [ho]; decide), if_neg (by rw [hb]; decide), if_neg (by rw [hd, Bool.false_and]; decide)]

theorem restoring_checks : partArmed restoringU 0 = false ∧ partLoad restoringU 0 = true ∧
    restoreOutside (putTables (putSpace restoringU regs0 0) 0 []) 0 = false ∧
    (poolRules (putTables (putSpace restoringU regs0 0) 0 []) [] 0).isEmpty = true := by decide +kernel

theorem restoring_pass : restoreCheck restoringU = .pass restoringU imgHdr [imgRegs, [], [], [], []] :=
  check_pass (by decide +kernel) restoring_checks.1 restoring_checks.2.1 restoring_read imgRegs_eq rfl restoring_checks.2.2.1
    restoring_checks.2.2.2 (by decide +kernel)

theorem test_restore_ready : CommitReady restoring pgSNAP ∧ ConfigOrdered restoring ∧ bitOf (shadowW restoring pgSNAP 0x100) 3 = true := by
  simp only [CommitReady, Answers, CfgQuiet, ConfigOrdered]; decide +kernel
theorem test_restore_pass : CommitReady restoring pgSNAP ∧ ConfigOrdered restoring ∧
    bitOf (shadowW restoring pgSNAP 0x100) 3 = true ∧ ∃ v hdr secs,
      restoreCheck (commitBegun restoring (ownCommit pgSNAP)) = .pass v hdr secs ∧ commitBad (dropHost v .block) [pgSNAP] = none :=
  ⟨test_restore_ready.1, test_restore_ready.2.1, test_restore_ready.2.2, restoringU, imgHdr, _, restoring_pass, by decide +kernel⟩

/-- A restore into a partition that is not loaded, and into one of which a stream is armed. -/
def restoreUnloaded : State := { full with shadow := [(wordAddr pgSNAP 0x100, 8)] }
def restoreArmed : State := updStrm restoring 0 .F fun x => { x with armed := true }

theorem test_restore_fail : CommitReady restoreUnloaded pgSNAP ∧ ConfigOrdered restoreUnloaded ∧
    bitOf (shadowW restoreUnloaded pgSNAP 0x100) 3 = true ∧ partLoad restoreUnloaded (restorePart restoreUnloaded) = false ∧
    ∃ v off r, restoreCheck (commitBegun restoreUnloaded (ownCommit pgSNAP)) = .fail v off r := by
  have h : CommitReady restoreUnloaded pgSNAP ∧ ConfigOrdered restoreUnloaded ∧
      bitOf (shadowW restoreUnloaded pgSNAP 0x100) 3 = true ∧ partLoad restoreUnloaded (restorePart restoreUnloaded) = false ∧
      (let u := commitBegun restoreUnloaded (ownCommit pgSNAP)
      (partArmed u (restorePart u) || !(partLoad u (restorePart u)))) = true := by
    simp only [CommitReady, Answers, CfgQuiet, ConfigOrdered]; decide +kernel
  refine ⟨h.1, h.2.1, h.2.2.1, h.2.2.2.1, commitBegun restoreUnloaded (ownCommit pgSNAP), 0x100, 5, ?_⟩
  unfold restoreCheck
  dsimp only
  rw [if_pos h.2.2.2.2]

theorem test_restore_armed : CommitReady restoreArmed pgSNAP ∧ ConfigOrdered restoreArmed ∧
    bitOf (shadowW restoreArmed pgSNAP 0x100) 3 = true ∧ partArmed restoreArmed (restorePart restoreArmed) = true := by
  simp only [CommitReady, Answers, CfgQuiet, ConfigOrdered]; decide +kernel

/-! ## Waiting commits, groups and follow-ons -/

def begin1 (s : State) (pg : Nat) : State := commitBegun s (ownCommit pg)

/-- A commit that a restore's reads hold up, and one that no longer waits but is refused. -/
theorem test_waiting_refused : let s := begin1 noPeriod pgWBT
    Answers s ∧ s.cfgHeld = [] ∧ s.commits = [ownCommit pgWBT] ∧ ConfigOrdered s ∧ commitWaits s (ownCommit pgWBT) = false ∧
      (commitBad s [pgWBT]).isSome = true := by
  simp only [Answers, ConfigOrdered]; decide +kernel

/-- Partition 0 is to be unloaded while stream F drains a command. -/
def unloading : State :=
  begin1 { updStrm loaded 0 .F (fun x => { x with armed := true, draining := true, cmds := [fetched (control opFENCE) []] }) with
    shadow := [(wordAddr pgPART 0x100, 0)] } pgPART

theorem test_waiting_waits : Answers unloading ∧ unloading.cfgHeld = [] ∧ unloading.commits = [ownCommit pgPART] ∧ ConfigOrdered unloading ∧
    commitWaits unloading (ownCommit pgPART) = true ∧ anyDoze unloading = false := by
  simp only [Answers, ConfigOrdered]; decide +kernel

theorem test_waiting_group : let s := commitBegun joined (joinedCommit joined)
    let c : Commit := { group := true, pages := [pgFLT], stage := .waiting }
    Answers s ∧ s.cfgHeld = [] ∧ s.commits = [c] ∧ ConfigOrdered s ∧ commitWaits s c = false ∧ commitBad s c.pages = none ∧
      c.pages.contains pgSNAP = false := by
  simp only [Answers, ConfigOrdered]; decide +kernel

/-- `WBT` and `FLT` have joined, and `WBT` is refused. -/
def joinedBad : State := setLive (setLive { noPeriod with shadow := noPeriod.shadow ++ [(wordAddr pgWBT 0x108, 0)] } 0 pgFLT 0x008 1) 0 pgWBT 0x008 1

theorem test_group_refused : Answers joinedBad ∧ CfgQuiet joinedBad ∧ joinedBad.fuseErr = false ∧ ConfigOrdered joinedBad ∧
    joinedPages joinedBad = [pgFLT, pgWBT] ∧ commitWaits (commitBegun joinedBad (joinedCommit joinedBad)) (joinedCommit joinedBad) = false ∧
    commitBad (commitBegun joinedBad (joinedCommit joinedBad)) (joinedPages joinedBad) =
      some (pgWBT, { status := stCONFLICT, off := 0x100, index := 0 }) := by
  simp only [Answers, CfgQuiet, ConfigOrdered]; decide +kernel

/-- The follow-on of a group, and of a restore whose writes are answered or not. -/
theorem test_follow_on_group :
    let c : Commit := { group := true, pages := [pgSTRM], stage := .follow }
    let s := { full with commits := [c] }
    Answers s ∧ s.cfgHeld = [] ∧ s.commits = [c] ∧ c.group = true ∧ c.pages.contains pgSNAP = false ∧ ConfigOrdered s := by
  simp only [Answers, ConfigOrdered]; decide +kernel

theorem test_follow_on_restore :
    let c : Commit := { ownCommit pgSNAP with stage := .follow }
    let s := { full with commits := [c], shadow := [(wordAddr pgSNAP 0x100, 8)] }
    let u := updFab s 1 fun x => { x with sent := [asked 5 0] }
    Answers s ∧ s.cfgHeld = [] ∧ s.commits = [c] ∧ c.pages.contains pgSNAP = true ∧ ConfigOrdered s ∧ iqOutstanding s .block = false ∧
      bitOf (shadowW s pgSNAP 0x100) 3 = true ∧ Answers u ∧ u.cfgHeld = [] ∧ u.commits = [c] ∧ ConfigOrdered u ∧
      iqOutstanding u .block = true := by
  simp only [Answers, ConfigOrdered]; decide +kernel

/-! ## Words that act, and reads -/

theorem test_w1c : PortOpen full pgSTRM ∧ pagePresent full pgSTRM = true ∧ w1cWord full pgSTRM 0xF1C = some (0, 3) ∧
    PortOpen full (pgPIPE 7 + 2) ∧ pagePresent full (pgPIPE 7 + 2) = true ∧ w1cWord full (pgPIPE 7 + 2) 0xF34 = some (0, 1) := by
  simp only [PortOpen, Answers, CfgQuiet]; decide +kernel

theorem test_acting_words : (∀ pg ∈ [pgCALU, pgWBT, pgSTRM, pgFLT], PortOpen full pg ∧ pagePresent full pg = true) ∧ ConfigOrdered full ∧
    pageJoin pgFLT = true ∧ bitOf (3 : Word).toNat 2 = false := by
  simp only [PortOpen, Answers, CfgQuiet, ConfigOrdered]; decide +kernel

/-- `PAGECTL.VIEW` of `FLT` and of `WBT` shows what is in effect. -/
def viewed : State := setLive (setLive watch 0 pgFLT 0x008 2) 0 pgWBT 0x008 2

theorem test_reads : PortOpen viewed pgFLT ∧ pagePresent viewed pgFLT = true ∧ ConfigOrdered viewed ∧ rwMask viewed pgFLT 0x100 ≠ 0 ∧
    pageView viewed pgFLT = true ∧ eff viewed pgFLT 0x100 ≠ shadowW viewed pgFLT 0x100 ∧ pageView watch pgFLT = false ∧
    PortOpen viewed pgWBT ∧ pagePresent viewed pgWBT = true ∧ pageView viewed pgWBT = true ∧ pagePresent full (pgPIPE 7) = true ∧
    PortOpen full (pgPIPE 7) ∧ pairLow pgFLT 0xF00 = false ∧ pairHigh pgFLT 0xF00 = false ∧ untimed pgFLT 0xF00 = false := by
  simp only [PortOpen, Answers, CfgQuiet, ConfigOrdered]; decide +kernel

theorem test_commit_held : let s := { full with cfgHeld := [{ addr := 0, data := 0, write := false }] }
    accessOf s .commitFlt = some { addr := wordAddr pgFLT 0x010, data := 1, write := true } ∧ Answers s ∧ s.cfgHeld ≠ [] ∧
    (accessOf (setShadow s (pgARY 7) 0x100 1) (.svcVector 7)).isSome = true := by
  simp only [Answers]; decide +kernel

/-- A restore whose wait is over. -/
theorem test_restore_switch : let s := begin1 restoring pgSNAP
    (∃ pg : PageIx, (pg : Nat) = pgSNAP) ∧ Answers s ∧ s.cfgHeld = [] ∧ s.commits = [ownCommit pgSNAP] ∧
      commitWaits s (ownCommit pgSNAP) = false ∧ ConfigOrdered s ∧ bitOf (shadowW s pgSNAP 0x100) 3 = true ∧
      ∃ v hdr secs, restoreCheck s = .pass v hdr secs ∧ commitBad (dropHost v .block) [pgSNAP] = none := by
  refine ⟨⟨14, rfl⟩, ?_, ?_, ?_, ?_, ?_, ?_, restoringU, imgHdr, _, restoring_pass, by decide +kernel⟩
  all_goals (try simp only [Answers, ConfigOrdered]); decide +kernel

/-! ## Tables that switch, channels that fail -/

/-- A committed table takes the place of one without slots at a tick whose phase does not rise (R303). -/
theorem test_tick_table :
    let s := { full with
      cad := { full.cad with valid := true, seen := true, first := false, last := 5, phase := 9 }
      cycle := 9
      wbt := { full.wbt with next := some work.wbt.table } }
    Runs s ∧ s.cad.valid = true ∧ s.cad.first = false ∧ s.cad.last + 4 ≤ s.cycle ∧ (9 : DWord).toNat ≤ s.cad.phase.toNat ∧
      tabCount s.wbt.table = 0 := by
  simp only [Runs]; decide +kernel

/-- Channel 0 holds the unit of a command of no task; it is in service, or it leaves. -/
def stuck (x : Service) : State :=
  { updChan taken 0 (fun c => { c with service := x }) with cycle := 0x400 * 1024 }

theorem test_failing (x : Service) (hx : x = .run ∨ x = .leaving) : Runs (stuck x) ∧ (chan (stuck x) 0).unit ≠ none ∧
    eff (stuck x) pgFLT 0x100 ≠ 0 ∧ chanAsks (stuck x) 0 = false ∧
    eff (stuck x) pgFLT 0x100 * 1024 ≤ (stuck x).cycle - (chan (stuck x) 0).progress ∧ (chan (stuck x) 0).service = x ∧
    ((chan (stuck x) 0).unit.any fun u => (unitStamps (stuck x) u).all fun k =>
      (getCmd (stuck x) u.part u.strm k).any fun c => c.op != opTASKEND && !c.ended) = true := by
  simp only [Runs]
  rcases hx with rfl | rfl <;> decide +kernel

/-! ## Requests that wait for a slice in DOZE -/

/-- `work` with slice 0 in DOZE. -/
def dozing : State := inState work .doze
def ordered (h : BitVec 80) : BitVec 80 := h + BitVec.ofNat 80 (3 * 0x1000)
/-- Fabric port 0 holds a read and a write of class 3. -/
def behind : State := updFab dozing 0 fun x => { x with held := [(ordered (readHdr 0 0), []), (ordered (writeHdr 0 0), [{ data := 7, mask := 1 }])] }

theorem test_target_waits : let beat : List Beat := [{ data := 7, mask := 1 }]
    Runs dozing ∧ hdrOpc (readHdr 0 0) = 1 ∧ (fabP dozing 0).tqCred ≠ 0 ∧ tqBehind dozing 0 (readHdr 0 0) [] = false ∧
    asks (bump dozing 0 pgFAB 0xF1C 1) (performRead (bump dozing 0 pgFAB 0xF1C 1) 0 (readHdr 0 0)) = true ∧
    hdrOpc (writeHdr 0 0) = 2 ∧ hdrLen (writeHdr 0 0) ≤ min beat.length (fabP dozing 0).tqCred ∧
    asks (bump dozing 0 pgFAB 0xF1C 1) (performWrite (bump dozing 0 pgFAB 0xF1C 1) 0 (writeHdr 0 0) (beat.take (hdrLen (writeHdr 0 0)))) = true ∧
    Runs behind ∧ hdrOpc (ordered (readHdr 0 0)) ≠ 2 ∧ tqBehind behind 0 (ordered (readHdr 0 0)) [] = true ∧
    hdrOpc (ordered (writeHdr 0 0)) ≠ 1 ∧ hdrLen (ordered (writeHdr 0 0)) ≤ min beat.length (fabP behind 0).tqCred ∧
    tqBehind behind 0 (ordered (writeHdr 0 0)) (beat.take (hdrLen (ordered (writeHdr 0 0)))) = true := by
  simp only [Runs]; decide +kernel

theorem test_scrub_waits : let s := { updSlice dozing 0 (fun x => { x with mem := { x.mem with queue := [(0, false)] } }) with initStore := true }
    Runs s ∧ (chan s 0).power = .doze ∧ (chan s 0).waking = false ∧ unitRuns s (.slice 0) = true ∧ (unitMem s (.slice 0)).queue ≠ [] ∧
    (let g := inState work .gate
     unitRuns g (.slice 0) = true ∧ g.rowErr = [] ∧ (chan g 0).power ≠ .run ∧ (chan g 0).power ≠ .doze ∧ (chan g 0).waking = false) ∧
    (let q := updSlice work 0 fun x => { x with mem := { x.mem with queue := [(2 ^ 60, false)] } }
     (unitMem q (.slice 0)).queue = [(2 ^ 60, false)] ∧ (chan q 0).power ≠ .doze) := by
  simp only [Runs]; decide +kernel

/-! ## Ends of units -/

/-- What `runUnit` answers for the unit that a channel holds for a command. -/
def runOf (s : State) (ch : Nat) : Option UnitRun :=
  (chan s ch).unit.bind fun u => (getCmd s u.part u.strm u.stamp).bind fun c =>
    if c.ended || u.swarm.isSome then none
    else some (runUnit s (cmdCtx s u.part u.strm c ch 7) (unitBody u.part (chan s ch).role c u.value))

/-- The operands of the unit are mapped no more, so that it faults; or they lie in a slice in DOZE, so that it waits. -/
theorem test_unit_faults : let s := { taken with mem := [] }
    Runs s ∧ (runOf s 0).any (fun x => match x with
      | .bad _ _ _ => true
      | _ => false) = true := by
  simp only [Runs]; decide +kernel

theorem test_unit_waits : let s := inState (after (.channelTakeUnit 1) issued) .doze
    Runs s ∧ (runOf s 1).any (fun x => match x with
      | .host t => (chan t 1).unit.isSome
      | _ => false) = true := by
  simp only [Runs]; decide +kernel

theorem test_unit_upset : Runs taken ∧ (∀ n, UnitUpset.residue 0 0 0 ≠ .corrected n) ∧
    ((chan taken 0).unit.any fun u => (unitStamps taken u).all fun k =>
      (getCmd taken u.part u.strm k).any fun c => c.op != opTASKEND && !c.ended) = true := by
  refine ⟨by simp only [Runs]; decide +kernel, fun n h => UnitUpset.noConfusion h, by decide +kernel⟩

/-- Channel 0 holds a row group of a swarm of one row of an `attn.dec`. -/
def herd : State :=
  let c := { withFields opDEC [(.pfxPages, 0)] with stage := .started, shared := 1 }
  let w : Swarm := { id := 3, strm := .F, key := [], members := [{ stamp := 0, head := 0, rows := [0], phase := 0, hold := 0 }],
                     launched := true, counted := true, next := 1, groups := 1, energy := 0 }
  let s := updPart (withCmd work c) 0 fun x => { x with swarms := [w] }
  updChan s 0 fun x => { x with unit := some { part := 0, strm := .F, stamp := 0, value := 0, swarm := some 3, since := 0 } }

def herdRun (s : State) : Option UnitRun :=
  (chan s 0).unit.bind fun u => u.swarm.bind fun id => ((part s u.part).swarms.find? fun w => w.id == id).bind fun w =>
    match groupCmds s u.part 0 w u.value with
    | [] => none
    | x :: xs => some (runUnit s x.1 (swarmUnit u.part (chan s 0).role (x :: xs)))

theorem test_swarm_unit : Runs herd ∧ (herdRun herd).any okRun = true ∧ (herdRun { herd with mem := [] }).any (fun x => match x with
      | .bad _ _ _ => true
      | _ => false) = true := by
  simp only [Runs]; decide +kernel

/-- A command of an open task ends badly. -/
theorem test_end_cmd : let c := { redCmd with stage := .started, inTask := true, task := 0 }
    getCmd (withCmd work c) 0 .F 0 = some c ∧ c.ended = false ∧ c.op ≠ opTASKEND := by decide +kernel

/-! ## Fences and `wait.phase` that end, a `snap` at its quiesce point -/

def phaseCmd : Cmd := { fetched (control opWAITPHASE) [] with stage := .issued }
def fenceNow : Cmd := { fence with stage := .issued }

theorem test_settles : ∀ c ∈ [fenceNow, phaseCmd],
    (∀ o, (strm (withCmd work c) 0 o).cancelTo = none) ∧ (∀ o, o ≠ .F → (strm (withCmd work c) 0 o).cmds = []) ∧
      (strm (withCmd work c) 0 .F).cmds = [c] ∧ c.stage = .issued := by
  intro c hc
  have h : ∀ c ∈ [fenceNow, phaseCmd], (strm (withCmd work c) 0 .F).cmds = [c] ∧ c.stage = .issued ∧
      ∀ o ∈ allStrms, (strm (withCmd work c) 0 o).cancelTo = none ∧ (o = .F ∨ (strm (withCmd work c) 0 o).cmds = []) := by
    decide +kernel
  obtain ⟨h1, h2, h3⟩ := h c hc
  have h4 := fun o => h3 o (by cases o <;> decide)
  exact ⟨fun o => (h4 o).1, fun o ho => (h4 o).2.resolve_left ho, h1, h2⟩

def snapNow : Cmd := { snapCmd 1000 with stage := .issued }

theorem ranM_was {α : Type} {m : M α} {s : State} {c : Ctx} {a : α} {r : Run} (h : ranM s c m = .ok a r) :
    runM m (Run.of s c) = (.ok a, r) ∧ runWait s c (.ok a) r = none := by
  unfold ranM at h
  generalize runM m (Run.of s c) = x at h
  obtain ⟨y, r1⟩ := x
  dsimp only at h
  split at h
  · cases h
  · rename_i hw
    cases y with
    | ok b => cases h; exact ⟨rfl, hw⟩
    | error e => cases h

theorem test_snap_quiet : let s := withCmd work snapNow
    let x := cmdCtx s 0 .F snapNow 0xFF 0
    let h := { snapNow with quiesced := some (snapNow.quiesced.getD s.cad.phase) }
    Runs s ∧ snapsOf s 0 = [(.F, snapNow)] ∧ getCmd s 0 .F snapNow.stamp = some snapNow ∧ quiet s 0 .F snapNow = true ∧ eligible s 0 .F = true ∧
    budgetFits s snapNow.energy = true ∧ ∃ r, runM (writeHeader h) (Run.of s x) = (.ok (), r) ∧ runWait s x (.ok ()) r = none := by
  have h : okSat (ranM (withCmd work snapNow) (cmdCtx (withCmd work snapNow) 0 .F snapNow 0xFF 0) (writeHeader
      { snapNow with quiesced := some (snapNow.quiesced.getD (withCmd work snapNow).cad.phase) })) (fun _ _ => true) = true := by decide +kernel
  obtain ⟨a, r, hr, _⟩ := ok_sat h
  have q : Runs (withCmd work snapNow) ∧ snapsOf (withCmd work snapNow) 0 = [(.F, snapNow)] ∧
      getCmd (withCmd work snapNow) 0 .F snapNow.stamp = some snapNow ∧ quiet (withCmd work snapNow) 0 .F snapNow = true ∧
      eligible (withCmd work snapNow) 0 .F = true ∧ budgetFits (withCmd work snapNow) snapNow.energy = true := by
    simp only [Runs]; decide +kernel
  exact ⟨q.1, q.2.1, q.2.2.1, q.2.2.2.1, q.2.2.2.2.1, q.2.2.2.2.2, r, ranM_was hr⟩

theorem test_snap_ends : let k := { snapNow with stage := .started, imgStep := 3 }
    let s := withCmd work k
    Runs s ∧ snapsOf s 0 = [(.F, k)] ∧ getCmd s 0 .F k.stamp = some k ∧ k.stage = .started ∧ k.imgStep = 3 ∧
      cmdWaits s 0 .F k.stamp = false := by
  simp only [Runs]; decide +kernel

/-! ## Completions -/

theorem test_complete_low : let s := finished 0 0
    let x := strm s 0 .F
    let done := x.doneSet ++ [(ended 0).stamp]
    (∀ i : Nat, i < 1 → x.low + BitVec.ofNat 32 i ∈ done) ∧ x.low + BitVec.ofNat 32 1 ∉ done := by
  refine ⟨fun i hi => ?_, by decide +kernel⟩
  obtain rfl : i = 0 := by omega
  decide +kernel

theorem test_completion_waits : let s := finished 0 2
    ringRoom s 0 .F = false ∧ (∀ c ∈ (strm s 0 .F).cmds, (c.quiet && c.status == stOK) = false) ∧
    (let k := { ended 1 with pin := some 0 }
     let d := inState (updPool (withCmd pooled k) 0 fun x => { x with instar := 3, pins := [{ instar := 0, root := 0, count := 1 }] }) .doze
     let d := updStrm d 0 .F fun x => { x with doneQ := [0] }
     nextDone d 0 .F = some k ∧ (pinAsks d 0 k).isSome = true) ∧
    (let k := { redCmd with stage := .ended }
     let s := setEff (updStrm (withCmd work k) 0 .F fun x => { x with doneQ := [0] }) pgSNAP 0x10C 2
     nextDone s 0 .F = some k ∧ pinAsks s 0 k = none ∧ (k.status == stOK && checksumMode s 0 && !(isControl k.op)) = true ∧
     okSat (ranM s (cmdCtx s 0 .F k 0xFF 0) (checksums .F k)) (fun _ _ => true) = true) := by
  decide +kernel

end Sys2Proof.Tests
end

section
/-! The configuration port when it is open: an access takes place at once, and what it does on an absent page. -/

namespace Sys2Proof.Machine

open Sys2Proof

/-! ## Addresses -/

theorem wordAddr_div_mod (a : Nat) : wordAddr (a / 0x1000) (a % 0x1000) = a := by
  unfold wordAddr
  omega

/-! ## An open port -/

theorem pageBusy_quiet {s : State} (hq : CfgQuiet s) (pg : Nat) : pageBusy s pg = false := by
  simp [pageBusy, hq.2]

/-- An open port holds no access (R342, R417). -/
theorem accessWaits_open {s : State} {addr : Nat} (h : PortOpen s (addr / 0x1000)) : accessWaits s addr = false := by
  obtain ⟨-, hquiet, hfuse⟩ := h
  rcases hfuse with hpg | hinit
  · simp [accessWaits, pageBusy_quiet hquiet, hpg]
  · simp [accessWaits, pageBusy_quiet hquiet, hinit]

/-- At an open port an access takes place at once; what it leaves quiet has nothing more to do. -/
theorem cfgAccess_open {s : State} {a : CfgAccess} (h : PortOpen s (a.addr / 0x1000)) (hq : CfgQuiet (accessDo s a)) :
    cfgAccess s a = accessDo s a := by
  have hheld : s.cfgHeld = [] := h.2.1.1
  simp [cfgAccess, hheld, accessWaits_open h, cfgSettle_quiet hq]

theorem keepPins_self (s : State) : keepPins s s = s := rfl

theorem keepPins_rdata_only (s : State) (w : Word) : keepPins s { s with rdata := w } = { s with rdata := w } := rfl

/-! ## Absent pages (R5) -/

/-- No counter of an absent page counts. -/
theorem loosen_absent {s : State} {pg : Nat} (ha : pagePresent s pg = false) (off : Nat) : loosen s pg off = s := by
  unfold loosen
  cases liveWord s pg off with
  | none => rfl
  | some w => simp [ha]

theorem regRead_absent {s : State} {pg : Nat} (ha : pagePresent s pg = false) (off : Nat) :
    regRead s pg off = { s with rdata := 0 } := by
  simp [regRead, loosen_absent ha, ha]

theorem regWrite_absent {s : State} {pg : Nat} (ha : pagePresent s pg = false) (off : Nat) (v : Word) :
    regWrite s pg off v = s := by
  simp [regWrite, ha]

theorem cfgRead_absent {s : State} {addr : Nat} (h : PortOpen s (addr / 0x1000))
    (ha : pagePresent s (addr / 0x1000) = false) : cfgRead s addr = { s with rdata := 0 } := by
  have hdo : accessDo s { addr := addr, data := 0, write := false } = { s with rdata := 0 } :=
    regRead_absent ha (addr % 0x1000)
  have hquiet : CfgQuiet { s with rdata := 0 } := h.2.1
  exact (cfgAccess_open h (hdo ▸ hquiet)).trans hdo

theorem cfgWrite_absent {s : State} {addr : Nat} (h : PortOpen s (addr / 0x1000))
    (ha : pagePresent s (addr / 0x1000) = false) (v : Word) : cfgWrite s (addr / 0x1000) (addr % 0x1000) v = s := by
  have hdo : accessDo s { addr := addr, data := v, write := true } = s := regWrite_absent ha (addr % 0x1000) v
  have hquiet : CfgQuiet s := h.2.1
  rw [cfgWrite, wordAddr_div_mod]
  exact (cfgAccess_open h (hdo.symm ▸ hquiet)).trans hdo

/-! ## The commands of the port -/

theorem exec_readLCapture (addr : BitVec 24) (s : State) :
    exec (.readLCapture addr) s = actCfg s fun s => cfgRead s addr.toNat := rfl

theorem exec_registerWrite (addr : BitVec 24) (v : Word) (s : State) :
    exec (.registerWrite addr v) s =
      actCfg s fun s => cfgWrite s (addr.toNat / 0x1000) (addr.toNat % 0x1000) v := rfl

/-- Settles O18: an open port makes the access at once, a read of an absent page gives zero, and a write to it is
discarded. -/
theorem absentPageReadsZero : Obligations.AbsentPageReadsZero := by
  intro addr v s hopen habsent
  have hans : Answers s := hopen.1
  constructor
  · rw [exec_readLCapture, actCfg_answers hans, cfgRead_absent hopen habsent, keepPins_rdata_only]
  · rw [exec_registerWrite, actCfg_answers hans, cfgWrite_absent hopen habsent, keepPins_self]

end Sys2Proof.Machine
end

section
/-! Reads of the configuration port (R342, R343, R453): which words are which, what `regRead` does with each, and what the
command READ_L_CAPTURE does at an open port. -/

namespace Sys2Proof.Machine

open Sys2Proof

/-! ## Where words lie -/

theorem isChanPage_pgPIPE {n : Nat} (hn : n < 8) : isChanPage (pgPIPE n) = true := by
  have hlow : 0x40 ≤ pgPIPE n := by unfold pgPIPE; omega
  have hhigh : pgPIPE n ≤ 0x5F := by unfold pgPIPE; omega
  simp [isChanPage, hlow, hhigh]

/-- The pages of the block's own tables lie below those of the channels (Table 17-1). -/
theorem pgPIPE_ne {n p : Nat} (hp : p < 0x40) : pgPIPE n ≠ p := by
  unfold pgPIPE
  omega

theorem offIn_pgPIPE {n lo hi : Nat} (hhi : hi < 0x40) : offIn (pgPIPE n) lo hi = false := by
  have hle : ¬pgPIPE n ≤ hi := by unfold pgPIPE; omega
  simp [offIn, hle]

theorem pgPIPE_mod_four (n : Nat) : pgPIPE n % 4 = 1 := by
  unfold pgPIPE
  omega

theorem pgChan_pgPIPE (n : Nat) : pgChan (pgPIPE n) = n := by
  unfold pgChan pgPIPE
  omega

theorem eq_pgPIPE_of_mod {pg : Nat} (hc : isChanPage pg = true) (hm : pg % 4 = 1) : ∃ n : Nat, n < 8 ∧ pg = pgPIPE n := by
  simp only [isChanPage, Bool.and_eq_true, decide_eq_true_eq] at hc
  refine ⟨(pg - 0x41) / 4, ?_, ?_⟩
  · omega
  · unfold pgPIPE
    omega

/-- The pairs of R343: `CAD.PHASE`, `POOL.INSTAR` and `POOL.OLDEST`, `RPG.LINK`. -/
theorem pairLow_cases {pg off : Nat} (h : pairLow pg off = true) :
    (pg = pgCAD ∧ off = 0xF00) ∨ (pg = pgPOOL ∧ (off = 0xF10 ∨ off = 0xF18)) ∨ (pg = pgRPG ∧ off = 0xF00) := by
  simpa [pairLow, or_assoc] using h

theorem pairHigh_cases {pg off : Nat} (h : pairHigh pg off = true) : ∃ low : Nat, off = low + 4 ∧ pairLow pg low = true := by
  simp only [pairHigh, Bool.and_eq_true, decide_eq_true_eq] at h
  exact ⟨off - 4, by omega, h.2⟩

theorem pairHigh_eq_false_of_pairLow {pg off : Nat} (h : pairLow pg off = true) : pairHigh pg off = false := by
  obtain ⟨rfl, rfl⟩ | ⟨rfl, rfl | rfl⟩ | ⟨rfl, rfl⟩ := pairLow_cases h <;> decide

theorem untimed_eq_false_of_pairLow {pg off : Nat} (h : pairLow pg off = true) : untimed pg off = false := by
  obtain ⟨rfl, rfl⟩ | ⟨rfl, rfl | rfl⟩ | ⟨rfl, rfl⟩ := pairLow_cases h <;> decide

theorem untimed_eq_false_of_pairHigh {pg off : Nat} (h : pairHigh pg off = true) : untimed pg off = false := by
  obtain ⟨low, rfl, hlow⟩ := pairHigh_cases h
  obtain ⟨rfl, rfl⟩ | ⟨rfl, rfl | rfl⟩ | ⟨rfl, rfl⟩ := pairLow_cases hlow <;> decide

/-- The words of pairs and the untimed counters lie in the live region of a page. -/
theorem pairLow_eq_false_of_lt {pg off : Nat} (h : off < 0xF00) : pairLow pg off = false := by
  by_contra hlow
  have := pairLow_cases (Bool.eq_true_of_not_eq_false hlow)
  omega

theorem pairHigh_eq_false_of_lt {pg off : Nat} (h : off < 0xF00) : pairHigh pg off = false := by
  simp [pairHigh, pairLow_eq_false_of_lt (pg := pg) (show off - 4 < 0xF00 by omega)]

theorem untimed_eq_false_of_lt {pg off : Nat} (h : off < 0xF00) : untimed pg off = false := by
  have hne : ∀ k : Nat, 0xF00 ≤ k → off ≠ k := by omega
  have hin : offIn off 0xF18 0xF24 = false := by simp [offIn]; omega
  simp [untimed, hin, hne]

theorem pairLow_pgPIPE (n off : Nat) : pairLow (pgPIPE n) off = false := by
  by_contra hlow
  have := pairLow_cases (Bool.eq_true_of_not_eq_false hlow)
  simp only [pgPIPE, pgCAD, pgPOOL, pgRPG] at this
  omega

theorem pairHigh_pgPIPE (n off : Nat) : pairHigh (pgPIPE n) off = false := by
  simp [pairHigh, pairLow_pgPIPE]

theorem untimed_pgPIPE (n off : Nat) : untimed (pgPIPE n) off = false := by
  simp [untimed, pgPIPE_mod_four, offIn_pgPIPE, pgPIPE_ne, pgSTORE, pgXLAT]

/-! ### RW words lie between the common words and the live ones (R433) -/

theorem rwMask_eq_zero_of_misaligned {off : Nat} (h : off % 4 ≠ 0) (s : State) (pg : Nat) : rwMask s pg off = 0 := by
  simp [rwMask, h]

theorem rwMask_eq_zero_of_lt {off : Nat} (h : off < 0x100) (s : State) (pg : Nat) : rwMask s pg off = 0 := by
  have hle : ∀ k : Nat, 0x100 ≤ k → ¬k ≤ off := by omega
  have hne : ∀ k : Nat, 0x100 ≤ k → off ≠ k := by omega
  simp [rwMask, hle, hne]

theorem rwMask_eq_zero_of_ge {off : Nat} (h : 0xF00 ≤ off) (s : State) (pg : Nat) : rwMask s pg off = 0 := by
  have hlt : ∀ k : Nat, k ≤ 0xF00 → ¬off < k := by omega
  have hne : ∀ k : Nat, k < 0xF00 → off ≠ k := by omega
  simp [rwMask, hlt, hne]

theorem rwMask_ne_zero {s : State} {pg off : Nat} (h : rwMask s pg off ≠ 0) : off % 4 = 0 ∧ 0x100 ≤ off ∧ off < 0xF00 := by
  refine ⟨?_, ?_, ?_⟩ <;> by_contra hoff
  · exact h (rwMask_eq_zero_of_misaligned hoff s pg)
  · exact h (rwMask_eq_zero_of_lt (not_le.mp hoff) s pg)
  · exact h (rwMask_eq_zero_of_ge (not_lt.mp hoff) s pg)

/-! ## What words show -/

theorem showWord_rw {s : State} {pg off : Nat} (hp : pagePresent s pg = true) (hrw : rwMask s pg off ≠ 0)
    (hpg : pg ≠ pgWBT) : showWord s pg off = if pageView s pg then eff s pg off else shadowW s pg off := by
  obtain ⟨halign, hlow, -⟩ := rwMask_ne_zero hrw
  have hcommon : ¬off < 0x20 := by omega
  simp [showWord, hp, halign, hcommon, hpg, hrw]

theorem rwMask_wbt_ne_zero (s : State) {off : Nat} (hoff : off = 0x100 ∨ off = 0x104) : rwMask s pgWBT off ≠ 0 := by
  rcases hoff with rfl | rfl
  · show (0xFFFFFFFF : Nat) ≠ 0
    decide
  · show (0xFFF : Nat) ≠ 0
    decide

/-- With `VIEW` set the fields of `WBT` show the table in effect. -/
theorem showWord_wbt {s : State} {off : Nat} (hp : pagePresent s pgWBT = true) (hoff : off = 0x100 ∨ off = 0x104) :
    BitVec.ofNat 32 (showWord s pgWBT off) =
      if pageView s pgWBT then (if off = 0x100 then s.wbt.table.period else s.wbt.table.count)
      else BitVec.ofNat 32 (shadowW s pgWBT off) := by
  have hrw := rwMask_wbt_ne_zero s hoff
  cases hv : pageView s pgWBT with
  | false => rcases hoff with rfl | rfl <;> simp [showWord, hp, hv, hrw, offIn]
  | true => rcases hoff with rfl | rfl <;> simp [showWord, hp, hv, offIn]

/-- The `CUR` words of a channel's unit are read-only words of its `PIPE` page (Table 18-5). -/
theorem showWord_cur {s : State} {n off : Nat} (hn : n < 8) (hp : pagePresent s (pgPIPE n) = true)
    (hoff : off = 0xF00 ∨ off = 0xF04 ∨ off = 0xF08) : showWord s (pgPIPE n) off = pipeWord s n off := by
  have hrw : rwMask s (pgPIPE n) off = 0 := rwMask_eq_zero_of_ge (by omega) s (pgPIPE n)
  have hlive : liveWord s (pgPIPE n) off = none := by
    have hin : offIn off 0xF10 0xF20 = false := by simp [offIn]; omega
    simp [liveWord, pgPIPE_ne, offIn_pgPIPE, pgPIPE_mod_four, hin, pgCAL, pgFLT, pgCAD, pgWBT, pgPWR, pgSTRM, pgSTORE,
      pgXLAT, pgPOOL, pgMIR, pgFAB]
  have hw1c : w1cWord s (pgPIPE n) off = none := by
    simp [w1cWord, pgPIPE_ne, pgPIPE_mod_four, pgSTRM]
  have hro : roWord s (pgPIPE n) off = pipeWord s n off := by
    simp [roWord, pgPIPE_ne, offIn_pgPIPE, isChanPage_pgPIPE hn, pgPIPE_mod_four, pgChan_pgPIPE, pgBLK, pgCAL, pgFLT,
      pgCAD, pgWBT, pgPWR, pgSTRM, pgSTORE, pgXLAT, pgPOOL, pgFTAB, pgSNAP, pgRPG, pgFAB]
  have halign : off % 4 = 0 := by omega
  have hcommon : ¬off < 0x20 := by omega
  have hwbt : pgPIPE n ≠ pgWBT := pgPIPE_ne (by decide)
  simp [showWord, hp, halign, hcommon, hwbt, hrw, hlive, hw1c, hro]

theorem showWord_curL {s : State} {n : Nat} (hn : n < 8) (hp : pagePresent s (pgPIPE n) = true) :
    BitVec.ofNat 32 (showWord s (pgPIPE n) 0xF00) = (curWords s n).1 := by
  simp [showWord_cur hn hp, pipeWord]

theorem showWord_curStamp {s : State} {n : Nat} (hn : n < 8) (hp : pagePresent s (pgPIPE n) = true) :
    BitVec.ofNat 32 (showWord s (pgPIPE n) 0xF04) = (chan s n).curCap.2.1 := by
  simp [showWord_cur hn hp, pipeWord]

theorem showWord_curUnit {s : State} {n : Nat} (hn : n < 8) (hp : pagePresent s (pgPIPE n) = true) :
    BitVec.ofNat 32 (showWord s (pgPIPE n) 0xF08) = (chan s n).curCap.2.2 := by
  simp [showWord_cur hn hp, pipeWord]

/-! ## What a read does -/

theorem loosen_of_timed {pg off : Nat} (h : untimed pg off = false) (s : State) : loosen s pg off = s := by
  unfold loosen
  cases liveWord s pg off with
  | none => rfl
  | some w => simp [h]

theorem loosen_frame (s : State) (pg off : Nat) :
    ∃ lives frees, loosen s pg off = { s with live := lives, free := frees } := by
  unfold loosen bump
  split
  next => split_ifs <;> exact ⟨_, _, rfl⟩
  next => exact ⟨_, _, rfl⟩

/-- A read moves an untimed counter, the data that the port shows and what is captured, and nothing else. -/
theorem regRead_frame (s : State) (pg off : Nat) : ∃ lives frees w caps cs,
    regRead s pg off = { s with live := lives, free := frees, rdata := w, captured := caps, chans := cs } := by
  obtain ⟨lives, frees, hl⟩ := loosen_frame s pg off
  unfold regRead
  rw [hl]
  dsimp only
  split_ifs <;> exact ⟨_, _, _, _, _, rfl⟩

theorem regRead_quiet {s : State} (hq : CfgQuiet s) (pg off : Nat) : CfgQuiet (regRead s pg off) := by
  obtain ⟨_, _, _, _, _, hr⟩ := regRead_frame s pg off
  rw [hr]
  exact hq

theorem keepPins_regRead (s : State) (pg off : Nat) : keepPins s (regRead s pg off) = regRead s pg off := by
  obtain ⟨_, _, _, _, _, hr⟩ := regRead_frame s pg off
  rw [hr]
  rfl

theorem regRead_pairLow {s : State} {pg off : Nat} (hp : pagePresent s pg = true) (h : pairLow pg off = true) :
    regRead s pg off = { s with
      rdata := BitVec.ofNat 32 (showWord s pg off)
      captured := wordsSet s.captured (wordAddr pg off + 4) 0 (BitVec.ofNat 32 (showWord s pg (off + 4))) } := by
  simp [regRead, loosen_of_timed (untimed_eq_false_of_pairLow h), hp, pairHigh_eq_false_of_pairLow h, h]

theorem regRead_pairHigh {s : State} {pg off : Nat} (hp : pagePresent s pg = true) (h : pairHigh pg off = true) :
    regRead s pg off = { s with rdata := wordsGet s.captured (wordAddr pg off) 0 } := by
  simp [regRead, loosen_of_timed (untimed_eq_false_of_pairHigh h), hp, h]

theorem regRead_curL {s : State} {n : Nat} (hn : n < 8) (hp : pagePresent s (pgPIPE n) = true) :
    regRead s (pgPIPE n) 0xF00 =
      { updChan s n (fun x => { x with curCap := curWords s n }) with rdata := (curWords s n).1 } := by
  simp [regRead, loosen_of_timed (untimed_pgPIPE n 0xF00), hp, pairLow_pgPIPE, pairHigh_pgPIPE, isChanPage_pgPIPE hn,
    pgPIPE_mod_four, pgChan_pgPIPE, showWord_curL hn hp]
  rfl

/-- A word that no read captures from is shown as it is. -/
theorem regRead_plain {s : State} {pg off : Nat} (hp : pagePresent s pg = true) (hlow : pairLow pg off = false)
    (hhigh : pairHigh pg off = false) (hun : untimed pg off = false) (hcur : ¬∃ n : Nat, n < 8 ∧ pg = pgPIPE n ∧ off = 0xF00) :
    regRead s pg off = { s with rdata := BitVec.ofNat 32 (showWord s pg off) } := by
  have hnotCur : ¬((isChanPage pg = true ∧ pg % 4 = 1) ∧ off = 0xF00) := by
    rintro ⟨⟨hc, hm⟩, hoff⟩
    obtain ⟨n, hn, hpg⟩ := eq_pgPIPE_of_mod hc hm
    exact hcur ⟨n, hn, hpg, hoff⟩
  simp [regRead, loosen_of_timed hun, hp, hlow, hhigh, hnotCur]

theorem regRead_of_lt {s : State} {pg off : Nat} (hp : pagePresent s pg = true) (hoff : off < 0xF00) :
    regRead s pg off = { s with rdata := BitVec.ofNat 32 (showWord s pg off) } :=
  regRead_plain hp (pairLow_eq_false_of_lt hoff) (pairHigh_eq_false_of_lt hoff) (untimed_eq_false_of_lt hoff)
    fun ⟨_, _, _, h⟩ => by omega

theorem regRead_pgPIPE {s : State} {n off : Nat} (hp : pagePresent s (pgPIPE n) = true) (hoff : off ≠ 0xF00) :
    regRead s (pgPIPE n) off = { s with rdata := BitVec.ofNat 32 (showWord s (pgPIPE n) off) } :=
  regRead_plain hp (pairLow_pgPIPE n off) (pairHigh_pgPIPE n off) (untimed_pgPIPE n off) fun ⟨_, _, _, h⟩ => hoff h

/-! ## The command -/

/-- At an open port READ_L_CAPTURE is the read of its word. -/
theorem exec_readLCapture_open {addr : BitVec 24} {s : State} (h : PortOpen s (addr.toNat / 0x1000)) :
    exec (.readLCapture addr) s = .next (regRead s (addr.toNat / 0x1000) (addr.toNat % 0x1000)) := by
  have hans : Answers s := h.1
  have hread : cfgRead s addr.toNat = regRead s (addr.toNat / 0x1000) (addr.toNat % 0x1000) :=
    cfgAccess_open (a := { addr := addr.toNat, data := 0, write := false }) h (regRead_quiet h.2.1 _ _)
  rw [exec_readLCapture, actCfg_answers hans, hread, keepPins_regRead]

/-- Settles O21, from the equations of `regRead`: an open port makes the read at once. -/
theorem pairReadsAreConsistent : Obligations.PairReadsAreConsistent := by
  intro addr s pg off hpg hoff hopen hp ⟨_, _, _, _, hcap⟩
  have haddr : wordAddr pg off = addr.toNat := hpg ▸ hoff ▸ wordAddr_div_mod addr.toNat
  have hexec : exec (.readLCapture addr) s = .next (regRead s pg off) := by
    subst hpg hoff
    exact exec_readLCapture_open hopen
  rw [hexec]
  refine ⟨?rw, ?wbt, ?plain, ?curL, ?curStamp, ?curUnit, ?low, ?high⟩
  case rw =>
    intro hrw hwbt
    rw [regRead_of_lt hp (rwMask_ne_zero hrw).2.2, showWord_rw hp hrw hwbt]
  case wbt =>
    intro hwbt hword
    rw [regRead_of_lt hp (by omega), hwbt, showWord_wbt (hwbt ▸ hp) hword]
  case plain =>
    intro hlow hhigh hun hcur
    rw [regRead_plain hp hlow hhigh hun hcur]
  case curL =>
    intro n hn hpipe hword
    rw [hpipe, hword, regRead_curL hn (hpipe ▸ hp)]
  case curStamp =>
    intro n hn hpipe hword
    rw [hpipe, hword, regRead_pgPIPE (hpipe ▸ hp) (by decide), showWord_curStamp hn (hpipe ▸ hp)]
  case curUnit =>
    intro n hn hpipe hword
    rw [hpipe, hword, regRead_pgPIPE (hpipe ▸ hp) (by decide), showWord_curUnit hn (hpipe ▸ hp)]
  case low =>
    intro hlow
    refine ⟨_, congrArg _ (regRead_pairLow hp hlow), rfl, ?_⟩
    rw [haddr, wordsGet_set hcap _ _ _ _ _ fun _ => rfl, if_pos rfl]
  case high =>
    intro hhigh
    rw [regRead_pairHigh hp hhigh, haddr]

end Sys2Proof.Machine
end

section
/-! What every command leaves as it is, by the class of the command: the rows of the block's own work, of the configuration
port, of the cadence and of start-up. From it: memory and word lists stay canonical, and the configuration changes through
its port. -/

namespace Sys2Proof.Machine

open Sys2Proof

/-! ## Each class of commands -/

/-- Rows that are no business of the pins, the configuration port, start-up, the cadence or a waiting commit. -/
def ownWork (c : Instr) : Bool :=
  !(byPins c || byCfgPort c || byStartup c || byCadence c || lettingGo c)

theorem ownWork_of {c : Instr} (hp : byPins c = false) (hc : byCfgPort c = false) (hs : byStartup c = false)
    (hcad : byCadence c = false) (hl : lettingGo c = false) : ownWork c = true := by
  simp [ownWork, hp, hc, hs, hcad, hl]

theorem exec_ownWork_keeps {c : Instr} {s t : State} (hw : ownWork c = true) (h : exec c s = .next t) : Keeps kdA s t := by
  cases c with
  | fence => exact execFence_keeps h
  | fenceTimeout => exact execFenceTimeout_keeps h
  | taskBegin => exact execTaskBegin_keeps h
  | taskEnd => exact execTaskEnd_keeps h
  | waitPhase => exact execWaitPhase_keeps h
  | stamp => exact execStamp_keeps h
  | attnFwd => exact execAttnFwd_keeps h
  | attnBwdA => exact execAttnBwdA_keeps h
  | attnBwdB => exact execAttnBwdB_keeps h
  | attnDec => exact execAttnDec_keeps h
  | swarmDeadline => exact execSwarmDeadline_keeps h
  | pageSelect => exact execPageSelect_keeps h
  | softmax => exact execSoftmax_keeps h
  | fn => exact execFn_keeps h
  | norm => exact execNorm_keeps h
  | rot => exact execRot_keeps h
  | seqOpen => exact execSeqOpen_keeps h
  | seqAppend => exact execSeqAppend_keeps h
  | seqFork => exact execSeqFork_keeps h
  | seqFree => exact execSeqFree_keeps h
  | seqPark => exact execSeqPark_keeps h
  | seqResume => exact execSeqResume_keeps h
  | poolCompact => exact execPoolCompact_keeps h
  | reclaimWinExpiry => exact execReclaimWinExpiry_keeps h
  | lossEdit => exact execLossEdit_keeps h
  | moltSend => exact execMoltSend_keeps h
  | moltRecv => exact execMoltRecv_keeps h
  | moltLocal => exact execMoltLocal_keeps h
  | xfer => exact execXfer_keeps h
  | feed => exact execFeed_keeps h
  | transferPeriod => exact execTransferPeriod_keeps h
  | ringStepAttn => exact execRingStepAttn_keeps h
  | ringStepGather => exact execRingStepGather_keeps h
  | redRecv => exact execRedRecv_keeps h
  | mirrorSeg => exact execMirrorSeg_keeps h
  | mirrorAloneExpiry => exact execMirrorAloneExpiry_keeps h
  | snap => exact execSnap_keeps h
  | snapQuiesce => exact execSnapQuiesce_keeps h
  | snapTimeout => exact execSnapTimeout_keeps h
  | ringPoll => exact execRingPoll_keeps h
  | completionRecordWrite => exact execCompletionRecordWrite_keeps h
  | channelTakeUnit => exact execChannelTakeUnit_keeps h
  | unitEnd => exact execUnitEnd_keeps h
  | channelReturn => exact execChannelReturn_keeps h
  | selfTestStart => exact execSelfTestStart_keeps h
  | drainReliefEdit => exact execDrainReliefEdit_keeps h
  | pwrAck => exact execPwrAck_keeps h
  | budgetInChange => exact execBudgetInChange_keeps h
  | budgetRefill => exact execBudgetRefill_keeps h
  | temperatureReading => exact execTemperatureReading_keeps h
  | powerStateEntry => exact execPowerStateEntry_keeps h
  | powerWakeStart => exact execPowerWakeStart_keeps h
  | dozeWakeRequest => exact execDozeWakeRequest_keeps h
  | sramRetentionAck => exact execSramRetentionAck_keeps h
  | fabricTargetRead => exact execFabricTargetRead_keeps h
  | fabricTargetWrite => exact execFabricTargetWrite_keeps h
  | fabricIqCredit => exact execFabricIqCredit_keeps h
  | headerFrameReceive => exact execHeaderFrameReceive_keeps h
  | dataFrameReceive => exact execDataFrameReceive_keeps h
  | freedReportTimer => exact execFreedReportTimer_keeps h
  | linkUp => exact execLinkUp_keeps h
  | linkDown => exact execLinkDown_keeps h
  | remoteTimeout => exact execRemoteTimeout_keeps h
  | slowPortBringUp => exact execSlowPortBringUp_keeps h
  | dfiInitComplete => exact execDfiInitComplete_keeps h
  | slowPortReady => exact execSlowPortReady_keeps h
  | trainingTimeout => exact execTrainingTimeout_keeps h
  | dfiError => exact execDfiError_keeps h
  | dfiPhyUpdate => exact execDfiPhyUpdate_keeps h
  | refresh => exact execRefresh_keeps h
  | patrolScrubStep => exact execPatrolScrubStep_keeps h
  | correctionWriteBack => exact execCorrectionWriteBack_keeps h
  | channelWatchdog => exact execChannelWatchdog_keeps h
  | ctlParity => exact execCtlParity_keeps h
  | sliceLinkFail => exact execSliceLinkFail_keeps rfl h
  | _ => cases hw

theorem exec_cfgPort_keeps {c : Instr} {s t : State} (hc : byCfgPort c = true) (h : exec c s = .next t) : Keeps kdM s t := by
  cases c with
  | streamArm => exact execStreamArm_keeps h
  | streamDisarm => exact execStreamDisarm_keeps h
  | cancel => exact execCancel_keeps h
  | commitCalu => exact execCommitCalu_keeps h
  | rowLoad => exact execRowLoad_keeps h
  | commitFlt => exact execCommitFlt_keeps h
  | commitWbt => exact execCommitWbt_keeps h
  | commitPwr => exact execCommitPwr_keeps h
  | commitPart => exact execCommitPart_keeps h
  | commitStrm => exact execCommitStrm_keeps h
  | commitStore => exact execCommitStore_keeps h
  | commitXlat => exact execCommitXlat_keeps h
  | xlatMap => exact execXlatMap_keeps h
  | xlatUnmap => exact execXlatUnmap_keeps h
  | commitPool => exact execCommitPool_keeps h
  | commitFtab => exact execCommitFtab_keeps h
  | commitMir => exact execCommitMir_keeps h
  | commitSnap => exact execCommitSnap_keeps h
  | snapRestore => exact execSnapRestore_keeps h
  | svcVector => exact execSvcVector_keeps h
  | svcRun => exact execSvcRun_keeps h
  | commitPastSpare => exact execCommitPastSpare_keeps h
  | retest => exact execRetest_keeps h
  | commitMemp => exact execCommitMemp_keeps h
  | slowPortDrain => exact execSlowPortDrain_keeps h
  | slowPortRetire => exact execSlowPortRetire_keeps h
  | commitRpg => exact execCommitRpg_keeps h
  | commitFab => exact execCommitFab_keeps h
  | fabricPortRetire => exact execFabricPortRetire_keeps h
  | groupCommit => exact execGroupCommit_keeps h
  | commitSwitch => exact execCommitSwitch_keeps h
  | commitFollowOnEnd => exact execCommitFollowOnEnd_keeps h
  | revert => exact execRevert_keeps h
  | sliceLose => exact execSliceLose_keeps h
  | readLCapture => exact execReadLCapture_keeps h
  | registerWrite => exact execRegisterWrite_keeps h
  | _ => cases hc

theorem exec_cadence_keeps {c : Instr} {s t : State} (hc : byCadence c = true) (h : exec c s = .next t) : Keeps kdK s t := by
  cases c with
  | cadenceTick => exact execCadenceTick_keeps h
  | cadValidFall => exact execCadValidFall_keeps h
  | cadValidRise => exact execCadValidRise_keeps h
  | _ => cases hc

theorem exec_lettingGo_keeps {c : Instr} {s t : State} (hc : lettingGo c = true) (h : exec c s = .next t) : Keeps kdM s t := by
  cases c with
  | fabricIpResponse => exact execFabricIpResponse_keeps h
  | fabricResponseTimeout => exact execFabricResponseTimeout_keeps h
  | selfTestDone => exact execSelfTestDone_keeps h
  | _ => cases hc

/-- Where no commit waits and no access is held, those rows have nothing to let go. -/
theorem exec_lettingGo_quiet {c : Instr} {s t : State} (hc : lettingGo c = true) (hq : CfgQuiet s) (h : exec c s = .next t) :
    Keeps kdA s t := by
  have h0 : Keeps kdA s s := Keeps.refl s
  cases c with
  | fabricIpResponse port hdr data =>
    exact act_keeps (f := fun s => ipResponse s port hdr data) (ipResponse_quiet hq h0) h
  | fabricResponseTimeout port tag =>
    exact act_keeps (f := fun s => responseTimeout s port tag.toNat) (responseTimeout_quiet hq h0) h
  | selfTestDone ch report =>
    have hdone : Keeps kdA s (selfTestDone s ch report) := selfTestDone_keeps h0
    have hsettle : Keeps kdA s (cfgSettle (selfTestDone s ch report)) := by
      rwa [cfgSettle_quiet (hdone.quiet hq)]
    exact act_keeps (f := fun s => cfgSettle (selfTestDone s ch report)) hsettle h
  | _ => cases hc

/-! ## Storage -/

/-- Memory keeps its canonical form and the word lists their order from `s` to `t`. -/
structure StorageKept (s t : State) : Prop where
  mem : s.mem.wf → t.mem.wf
  ord : ConfigOrdered s → ConfigOrdered t

theorem StorageKept.refl (s : State) : StorageKept s s := ⟨id, id⟩

theorem StorageKept.trans {a b c : State} (h : StorageKept a b) (g : StorageKept b c) : StorageKept a c :=
  ⟨g.mem ∘ h.mem, g.ord ∘ h.ord⟩

theorem Keeps.storage {k : Kind} {s t : State} (h : Keeps k s t) : StorageKept s t := ⟨h.mem, h.ord⟩

theorem foldl_storage {α : Type} {f : State → α → State} (hf : ∀ s a, StorageKept s (f s a)) (l : List α) (s : State) :
    StorageKept s (l.foldl f s) :=
  foldl_keeps (P := StorageKept s) (.refl s) fun u a h => h.trans (hf u a)

theorem cfgSettle_storage (s : State) : StorageKept s (cfgSettle s) := (cfgSettle_keeps (.refl s)).storage

theorem fuseLoad_storage (s : State) (image : FuseImage) : StorageKept s (fuseLoad s image) := by
  unfold fuseLoad
  split_ifs
  · exact .refl s
  · exact StorageKept.trans (b := { s with initFuse := true, fuseErr := true }) ⟨id, id⟩ (cfgSettle_storage _)
  · have hstart : StorageKept s { s with initFuse := true, fuse := image, gens := [genZero] } := ⟨id, id⟩
    have hrows := foldl_storage (fun s e => (factorySteer_keeps (kd := kdA) (e := e) (.refl s)).storage) image.rows
    have hmaps := foldl_storage (fun s n => (applyMap_keeps (kd := kdA) (n := n) (.refl s)).storage)
    have hports := foldl_storage (fun s f => (updFab_keeps (kd := kdA) (n := f)
      (f := fun x => { x with live := true }) (.refl s)).storage) (List.range 32)
    exact (((hstart.trans (hrows _)).trans (hmaps _ _)).trans (hports _)).trans (cfgSettle_storage _)

theorem startupTest_storage (s : State) (reports : List (List LaneReport)) : StorageKept s (startupTest s reports) := by
  unfold startupTest
  split_ifs
  · exact .refl s
  · have htests := foldl_storage (fun s n => (testDone_keeps (kd := kdA) (ch := n) (rs := reports.getD n []) (.refl s)).storage)
      (List.range (capCH s)) s
    have hflag (u : State) : StorageKept u { u with initTest := true } := ⟨id, id⟩
    exact (htests.trans (hflag _)).trans (cfgSettle_storage _)

theorem storeInit_storage (s : State) : StorageKept s (storeInit s) := by
  unfold storeInit
  split_ifs
  · exact .refl s
  · have hzero : StorageKept s { s with
        initStore := true
        mem := memClear s.mem 0 0x400000000
        rowErr := s.rowErr.filter fun e => !(isStore e.1)
        reported := s.reported.filter fun r => !(isStore r) } := ⟨fun hm => memClear_wf hm _ _, id⟩
    have hslices := foldl_storage (fun s n => (updSlice_any (kd := kdA) (n := n) (f := fun x =>
      { x with live := true, mem := { x.mem with scrubPos := 0, scrubAt := s.cycle, queue := [], tracker := [] } })
      (.refl s) rfl).storage)
    exact (hzero.trans (hslices _ _)).trans (cfgSettle_storage _)

theorem act_storage {s t : State} {f : State → State} (hf : StorageKept s (f s)) (h : act s f = .next t) : StorageKept s t := by
  unfold act at h
  split_ifs at h <;> cases h
  · exact .refl s
  · exact hf.trans ⟨id, id⟩

theorem resetAssert_storage (s : State) (te : Bool) : StorageKept s (resetAssert s te) :=
  ⟨fun _ => reset_mem_wf, fun _ => by simp [ConfigOrdered, resetAssert, State.reset]⟩

theorem exec_startup_storage {c : Instr} {s t : State} (hs : byStartup c = true) (h : exec c s = .next t) : StorageKept s t := by
  cases c with
  | fuseLoadDone image => exact act_storage (f := fun s => fuseLoad s image) (fuseLoad_storage s image) h
  | startupSelfTestDone reports => exact act_storage (f := fun s => startupTest s reports) (startupTest_storage s reports) h
  | storeInitDone => exact act_storage (storeInit_storage s) h
  | _ => cases hs

theorem exec_pins_storage {c : Instr} {s t : State} (hp : byPins c = true) (h : exec c s = .next t) : StorageKept s t := by
  cases c with
  | rstNAssert te =>
    cases h
    exact resetAssert_storage s te
  | rstNRelease =>
    change execRstNRelease s = _ at h
    unfold execRstNRelease resetRelease at h
    split_ifs at h <;> cases h <;> exact ⟨id, id⟩
  | wrapperInstruction code =>
    cases h
    unfold wrapperLoad
    split_ifs <;> exact ⟨id, id⟩
  | _ => cases hp

theorem exec_storage {c : Instr} {s t : State} (h : exec c s = .next t) : StorageKept s t := by
  cases hp : byPins c with
  | true => exact exec_pins_storage hp h
  | false =>
  cases hc : byCfgPort c with
  | true => exact (exec_cfgPort_keeps hc h).storage
  | false =>
  cases hs : byStartup c with
  | true => exact exec_startup_storage hs h
  | false =>
  cases hcad : byCadence c with
  | true => exact (exec_cadence_keeps hcad h).storage
  | false =>
  cases hl : lettingGo c with
  | true => exact (exec_lettingGo_keeps hl h).storage
  | false => exact (exec_ownWork_keeps (ownWork_of hp hc hs hcad hl) h).storage

/-! ## Cycles without a command -/

theorem cycleCounts_keeps (s : State) : Keeps kdA s (cycleCounts s) := by
  have hb := @bump_keeps kdA s
  unfold cycleCounts
  refine foldl_keeps (foldl_keeps (.refl s) ?parts) ?chans
  case parts =>
    intro u p hu
    exact keeps_ite (hb (keeps_ite (hb (keeps_ite (hb hu) hu)) (keeps_ite (hb hu) hu)))
      (keeps_ite (hb (keeps_ite (hb hu) hu)) (keeps_ite (hb hu) hu))
  case chans =>
    intro u ch hu
    cases unitWait s ch with
    | none => exact hu
    | some k => exact hb hu

theorem coreCycle_storage (s : State) : StorageKept s (coreCycle s) := by
  unfold coreCycle
  split_ifs
  · exact .refl s
  · exact StorageKept.trans (cycleCounts_keeps s).storage ⟨id, id⟩

theorem step_nil {s : State} (h : s.pending = []) : step s = .next (coreCycle s) := by
  unfold step
  rw [h]

theorem step_cons {s : State} {c : Instr} {rest : List Instr} (h : s.pending = c :: rest) :
    step s = exec c { s with pending := rest } := by
  unfold step
  rw [h]

/-- Settles O9: each class of commands, and a cycle without one, keeps the canonical forms. -/
theorem storageStaysCanonical : Obligations.StorageStaysCanonical := by
  intro s t h
  have hkept : StorageKept s t := by
    cases hq : s.pending with
    | nil =>
      rw [step_nil hq] at h
      cases h
      exact coreCycle_storage s
    | cons c rest =>
      rw [step_cons hq] at h
      exact StorageKept.trans (b := { s with pending := rest }) ⟨id, id⟩ (exec_storage h)
  exact ⟨hkept.mem, hkept.ord⟩

/-- Settles O10. -/
theorem resetMeetsInvariants : Obligations.ResetMeetsInvariants :=
  ⟨reset_mem_wf, by simp [ConfigOrdered, State.reset]⟩

/-! ## The configuration -/

/-- A kind that fixes the words and the port fixes what the port shows. -/
theorem Keeps.sameConfig {cad lost : Bool} {s t : State}
    (h : Keeps { cad := cad, conf := true, port := true, lost := lost } s t) : SameConfig s t := by
  have e := h.fixed
  simp only [fixedOf, Fixed.mk.injEq, Prod.mk.injEq, if_true] at e
  simp only [SameConfig]
  tauto

theorem Keeps.cadence {s t : State} (h : Keeps kdA s t) : t.cad = s.cad ∧ t.wbt = s.wbt := by
  have e := h.fixed
  simp only [fixedOf, Fixed.mk.injEq, if_true, Bool.and_self] at e
  tauto

/-- Settles O11: the block's own work leaves both; a row of the cadence leaves the configuration; a row that lets a commit go
finds none. -/
theorem configurationChangesThroughItsPort : Obligations.ConfigurationChangesThroughItsPort := by
  intro c s t hp hc hs hquiet h
  cases hcad : byCadence c with
  | true => exact ⟨(exec_cadence_keeps hcad h).sameConfig, fun e => by cases e⟩
  | false =>
    have hkeeps : Keeps kdA s t := by
      cases hl : lettingGo c with
      | true => exact exec_lettingGo_quiet hl (hquiet hl) h
      | false => exact exec_ownWork_keeps (ownWork_of hp hc hs hcad hl) h
    exact ⟨hkeeps.sameConfig, fun _ => hkeeps.cadence⟩

end Sys2Proof.Machine
end

section
/-! Reading words after a write of one, and reading a part of the state after a run of like updates. -/

namespace Sys2Proof.Machine

open Sys2Proof

/-! ## Runs of like updates -/

theorem foldl_keeps_mem {P : State → Prop} {α : Type} {f : State → α → State} {l : List α} {s : State} (h : P s)
    (hf : ∀ s a, a ∈ l → P s → P (f s a)) : P (l.foldl f s) := by
  induction l generalizing s with
  | nil => exact h
  | cons a l ih => exact ih (hf s a (by simp) h) fun u b hb => hf u b (List.mem_cons_of_mem _ hb)

/-- A reading `g` that only the update at `p` changes, by `F`, after a run of updates without repeats. -/
theorem foldl_read {α β : Type} [DecidableEq α] {P : State → Prop} {g : State → β} {F : β → β} {f : State → α → State} {p : α}
    {l : List α} (hl : l.Nodup) (keep : ∀ s a, a ∈ l → P s → P (f s a))
    (other : ∀ s a, a ∈ l → P s → a ≠ p → g (f s a) = g s) (here : ∀ s, P s → g (f s p) = F (g s)) {s : State} (hs : P s) :
    g (l.foldl f s) = if p ∈ l then F (g s) else g s := by
  induction l generalizing s with
  | nil => simp
  | cons a l ih =>
    obtain ⟨hnot, hrest⟩ := List.nodup_cons.1 hl
    have htail := ih hrest (fun s b hb => keep s b (List.mem_cons_of_mem a hb))
      (fun s b hb => other s b (List.mem_cons_of_mem a hb)) (keep s a List.mem_cons_self hs)
    rw [List.foldl_cons, htail]
    by_cases ha : a = p
    · subst ha
      simp [hnot, here s hs]
    · simp [other s a List.mem_cons_self hs ha, Ne.symm ha]

/-! ## Words of the configuration space -/

theorem wordAddr_inj {pg off q o : Nat} (hoff : off < 0x1000) (ho : o < 0x1000) :
    wordAddr q o = wordAddr pg off ↔ q = pg ∧ o = off := by
  unfold wordAddr
  omega

theorem liveKey_inj {i pg off j q o : Nat} (hpg : pg < 0x1000) (hq : q < 0x1000) (hoff : off < 0x1000) (ho : o < 0x1000) :
    liveKey j q o = liveKey i pg off ↔ j = i ∧ q = pg ∧ o = off := by
  unfold liveKey wordAddr
  omega

theorem live_lt (s : State) (i pg off : Nat) : live s i pg off < 2 ^ 32 := BitVec.isLt _

theorem live_setLive_same {s : State} (h : wordsAsc s.live) (i pg off v : Nat) :
    live (setLive s i pg off v) i pg off = v % 2 ^ 32 := by
  simp [live, setLive, wordsGet_set h]

theorem live_setLive_ne {s : State} (h : wordsAsc s.live) {i pg off j q o : Nat} (hk : liveKey j q o ≠ liveKey i pg off) (v : Nat) :
    live (setLive s i pg off v) j q o = live s j q o := by
  simp [live, setLive, wordsGet_set h _ _ _ _ _ fun e => absurd e hk, hk]

theorem setLive_asc {s : State} (h : wordsAsc s.live) (i pg off v : Nat) : wordsAsc (setLive s i pg off v).live :=
  wordsSet_asc h

theorem bump_asc {s : State} (h : wordsAsc s.live) (i pg off n : Nat) : wordsAsc (bump s i pg off n).live := by
  unfold bump
  split_ifs
  · exact h
  · exact setLive_asc h _ _ _ _

theorem live_bump_same {s : State} (h : wordsAsc s.live) (i pg off n : Nat) :
    live (bump s i pg off n) i pg off = min (live s i pg off + n) 0xFFFFFFFF := by
  have hlt := live_lt s i pg off
  unfold bump
  split_ifs with hn
  · omega
  · rw [live_setLive_same h]
    omega

theorem live_bump_ne {s : State} (h : wordsAsc s.live) {i pg off j q o : Nat} (hk : liveKey j q o ≠ liveKey i pg off) (n : Nat) :
    live (bump s i pg off n) j q o = live s j q o := by
  unfold bump
  split_ifs
  · rfl
  · exact live_setLive_ne h hk _

theorem bump_frame (s : State) (i pg off n : Nat) : bump s i pg off n = { s with live := (bump s i pg off n).live } := by
  unfold bump
  split_ifs <;> rfl

theorem shadowW_setShadow {s : State} (h : wordsAsc s.shadow) {pg off q o : Nat} (hoff : off < 0x1000) (ho : o < 0x1000) (v : Nat) :
    shadowW (setShadow s pg off v) q o =
      if q = pg ∧ o = off then (v &&& rwMask s pg off) % 2 ^ 32 else shadowW s q o := by
  have hinj := wordAddr_inj (pg := pg) (q := q) hoff ho
  simp only [shadowW, setShadow]
  rw [wordsGet_set h _ _ _ _ _ fun e => by rw [(hinj.1 e).1, (hinj.1 e).2]]
  simp only [hinj]
  split_ifs
  · exact BitVec.toNat_ofNat _ _
  · rfl

theorem eff_setEff {s : State} (h : wordsAsc s.effect) {pg off q o : Nat} (hoff : off < 0x1000) (ho : o < 0x1000) (v : Nat) :
    eff (setEff s pg off v) q o = if q = pg ∧ o = off then v % 2 ^ 32 else eff s q o := by
  have hinj := wordAddr_inj (pg := pg) (q := q) hoff ho
  simp only [eff, setEff]
  rw [wordsGet_set h _ _ _ _ _ fun e => by rw [(hinj.1 e).1, (hinj.1 e).2]]
  simp only [hinj]
  split_ifs
  · exact BitVec.toNat_ofNat _ _
  · rfl

end Sys2Proof.Machine
end

section
/-! The queue, reset, test mode and the cycle of an empty queue. -/

namespace Sys2Proof.Machine

open Sys2Proof

/-! ## What a command can do -/

theorem act_next {s t : State} {f : State → State} (h : act s f = .next t) : t = s ∨ t = keepPins s (f s) := by
  unfold act at h
  split_ifs at h <;> cases h
  · exact .inl rfl
  · exact .inr rfl

theorem actCfg_next {s t : State} {f : State → State} (h : actCfg s f = .next t) : t = s ∨ t = keepPins s (f s) := by
  unfold actCfg at h
  split_ifs at h <;> cases h
  · exact .inl rfl
  · exact .inr rfl

theorem act_answers {s : State} (h : s.testEn = false) (f : State → State) : ∃ t : State, act s f = .next t := by
  unfold act
  split_ifs
  · simp_all
  · exact ⟨_, rfl⟩
  · exact ⟨_, rfl⟩

theorem actCfg_answers_some {s : State} (h : s.testEn = false) (f : State → State) : ∃ t : State, actCfg s f = .next t := by
  unfold actCfg
  split_ifs
  · simp_all
  · exact ⟨_, rfl⟩
  · exact ⟨_, rfl⟩

/-- A command that no pin carries leaves the state as it is, or changes all but the pins, the wrapper and the queue. -/
theorem exec_next {c : Instr} {s t : State} (hp : byPins c = false) (h : exec c s = .next t) :
    t = s ∨ ∃ u : State, t = keepPins s u := by
  cases hc : byCfgPort c with
  | true =>
    obtain ⟨f, hf⟩ := exec_actCfg c hc
    exact (actCfg_next (hf s ▸ h)).imp id fun e => ⟨_, e⟩
  | false =>
    obtain ⟨f, hf⟩ := exec_act c hp hc
    exact (act_next (hf s ▸ h)).imp id fun e => ⟨_, e⟩

/-- Settles O8: a command that ends in a next state leaves it as it was, or keeps the pins of the one before (`exec_next`). -/
theorem commandsLeavePinsAndQueue : Obligations.CommandsLeavePinsAndQueue := by
  intro c s t hp h
  obtain rfl | ⟨u, rfl⟩ := exec_next hp h
  · exact ⟨rfl, rfl, rfl, rfl⟩
  · exact ⟨rfl, rfl, rfl, rfl⟩

/-- Settles O1. -/
theorem stepRunsFrontCommand : Obligations.StepRunsFrontCommand := fun _ _ _ => step_cons rfl

/-- Settles O5. -/
theorem resetIsInert : Obligations.ResetIsInert := by
  intro c s htest hrst hp
  cases hc : byCfgPort c with
  | true =>
    obtain ⟨f, hf⟩ := exec_actCfg c hc
    rw [hf, actCfg_reset htest hrst]
  | false =>
    obtain ⟨f, hf⟩ := exec_act c hp hc
    rw [hf, act_reset htest hrst]

/-- Settles O6. -/
theorem testModeStopsByName : Obligations.TestModeStopsByName := by
  intro c s htest hassert hwrap
  cases hp : byPins c with
  | true =>
    cases c with
    | rstNAssert te => exact absurd rfl (hassert te)
    | rstNRelease =>
      show execRstNRelease s = _
      simp [execRstNRelease, htest]
    | wrapperInstruction code => exact absurd rfl (hwrap code)
    | _ => cases hp
  | false =>
    cases hc : byCfgPort c with
    | true =>
      obtain ⟨f, hf⟩ := exec_actCfg c hc
      rw [hf, actCfg_test htest]
    | false =>
      obtain ⟨f, hf⟩ := exec_act c hp hc
      rw [hf, act_test htest]

/-- Settles O7. -/
theorem failedFuseLoadLeavesConfigurationPort : Obligations.FailedFuseLoadLeavesConfigurationPort := by
  intro c s hans hfuse hp hc
  obtain ⟨f, hf⟩ := exec_act c hp hc
  rw [hf, act_fuseErr hans.1 hfuse]

/-! ## Reset -/

theorem resetHeld_resetAssert (s : State) (te : Bool) : ResetHeld (resetAssert s te) := fun _ => rfl

/-- Settles O4. -/
theorem resetMeetsResetState : Obligations.ResetMeetsResetState :=
  ⟨fun h => absurd h (by decide), fun s te => ⟨resetHeld_resetAssert s te, rfl⟩⟩

theorem resetHeld_resetRelease (s : State) : ResetHeld (resetRelease s) := by
  intro h
  unfold resetRelease at h
  split_ifs at h
  simp_all

/-- Loading the wrapper register moves it and the numbering of free values alone. -/
theorem wrapperLoad_frame (s : State) (code : BitVec 8) :
    wrapperLoad s code = { s with
      wir := (wrapperLoad s code).wir
      free := (wrapperLoad s code).free } := by
  unfold wrapperLoad
  split_ifs <;> rfl

theorem resetHeld_wrapperLoad {s : State} (hs : ResetHeld s) (code : BitVec 8) : ResetHeld (wrapperLoad s code) := by
  intro h
  rw [wrapperLoad_frame] at h ⊢
  have hheld := hs h
  rw [hheld]

theorem exec_resetHeld {c : Instr} {s t : State} (hs : ResetHeld s) (h : exec c s = .next t) : ResetHeld t := by
  cases hp : byPins c with
  | true =>
    cases c with
    | rstNAssert te =>
      cases h
      exact resetHeld_resetAssert s te
    | rstNRelease =>
      change execRstNRelease s = _ at h
      unfold execRstNRelease at h
      split_ifs at h
      cases h
      exact resetHeld_resetRelease s
    | wrapperInstruction code =>
      cases h
      exact resetHeld_wrapperLoad hs code
    | _ => cases hp
  | false =>
    intro hrst
    have hpins := commandsLeavePinsAndQueue c s t hp h
    have hrstS : s.rstN = false := hpins.1.symm.trans hrst
    cases htest : s.testEn with
    | true =>
      rw [testModeStopsByName c s htest (fun te e => by subst e; cases hp) (fun code e => by subst e; cases hp)] at h
      cases h
    | false =>
      rw [resetIsInert c s htest hrstS hp] at h
      cases h
      exact hs hrst

theorem coreCycle_inert {s : State} (h : s.testEn = true ∨ s.rstN = false) : coreCycle s = s := by
  rcases h with h | h <;> simp [coreCycle, h]

theorem coreCycle_rstN (s : State) : (coreCycle s).rstN = s.rstN := by
  unfold coreCycle
  split_ifs <;> rfl

/-- Settles O3: in reset the commands of the pins keep the reset values, and every other is inert. -/
theorem resetStateIsKept : Obligations.ResetStateIsKept := by
  intro s t hs h
  cases hq : s.pending with
  | nil =>
    rw [step_nil hq] at h
    cases h
    intro hrst
    rw [coreCycle_rstN] at hrst
    rw [coreCycle_inert (.inr hrst)]
    exact hs hrst
  | cons c rest =>
    rw [step_cons hq] at h
    refine exec_resetHeld (fun hrst => ?_) h
    have hheld := hs hrst
    rw [hheld]

/-! ## The pins and the wrapper -/

/-- Settles O30. -/
theorem resetPinsStartAfresh : Obligations.ResetPinsStartAfresh := by
  intro s te
  refine ⟨⟨_, rfl, resetHeld_resetAssert s te, rfl, rfl, rfl, rfl, rfl, fun pg off => ?_⟩, fun htest hrst => ?_,
    fun htest hrst => ?_⟩
  · exact ⟨BitVec.toNat_ofNat _ _, BitVec.toNat_ofNat _ _⟩
  · show execRstNRelease s = _
    simp [execRstNRelease, resetRelease, htest, hrst]
  · show execRstNRelease s = _
    simp [execRstNRelease, resetRelease, htest, hrst]

/-- Settles O31. -/
theorem wrapperRegisterLoads : Obligations.WrapperRegisterLoads := by
  intro s code
  refine ⟨wrapperLoad s code, rfl, wrapperLoad_frame s code, ?_, ?_⟩
  · rintro (rfl | rfl) <;> rfl
  · rintro (rfl | rfl | rfl) <;> rfl

/-! ## The queue -/

/-- Out of test mode every command but a reset that raises `TEST_EN` ends out of test mode and leaves the queue. -/
theorem exec_answers {c : Instr} {s : State} (h : s.testEn = false) (hc : c ≠ .rstNAssert true) :
    ∃ t : State, exec c s = .next t ∧ t.testEn = false ∧ t.pending = s.pending := by
  cases hp : byPins c with
  | true =>
    cases c with
    | rstNAssert te =>
      cases te with
      | true => exact absurd rfl hc
      | false => exact ⟨_, rfl, rfl, rfl⟩
    | rstNRelease =>
      refine ⟨resetRelease s, if_neg (by simp [h]), ?_⟩
      unfold resetRelease
      split_ifs <;> exact ⟨h, rfl⟩
    | wrapperInstruction code =>
      refine ⟨wrapperLoad s code, rfl, ?_⟩
      rw [wrapperLoad_frame]
      exact ⟨h, rfl⟩
    | _ => cases hp
  | false =>
    have hnext : ∃ t : State, exec c s = .next t := by
      cases hcfg : byCfgPort c with
      | true =>
        obtain ⟨f, hf⟩ := exec_actCfg c hcfg
        rw [hf]
        exact actCfg_answers_some h f
      | false =>
        obtain ⟨f, hf⟩ := exec_act c hp hcfg
        rw [hf]
        exact act_answers h f
    obtain ⟨t, ht⟩ := hnext
    obtain ⟨-, htest, -, hpend⟩ := commandsLeavePinsAndQueue c s t hp ht
    exact ⟨t, ht, htest.trans h, hpend⟩

theorem coreCycle_pins (s : State) : (coreCycle s).testEn = s.testEn ∧ (coreCycle s).pending = s.pending := by
  unfold coreCycle
  split_ifs <;> exact ⟨rfl, rfl⟩

/-- A step takes the front of the queue and keeps test mode away. -/
theorem step_neverTest {s : State} (h : NeverTest s) :
    ∃ t : State, step s = .next t ∧ NeverTest t ∧ t.pending = s.pending.tail := by
  obtain ⟨htest, hqueue⟩ := h
  cases hq : s.pending with
  | nil =>
    obtain ⟨ht, hp⟩ := coreCycle_pins s
    exact ⟨coreCycle s, step_nil hq, ⟨ht.trans htest, by simp [hp, hq]⟩, hp.trans hq⟩
  | cons c rest =>
    rw [hq] at hqueue
    obtain ⟨t, hexec, ht, hp⟩ := exec_answers (s := { s with pending := rest }) htest (hqueue c (by simp))
    refine ⟨t, (step_cons hq).trans hexec, ⟨ht, fun d hd => hqueue d ?_⟩, hp⟩
    rw [hp] at hd
    exact List.mem_cons_of_mem _ hd

theorem run_neverTest (k : Nat) {s : State} (h : NeverTest s) :
    ∃ t : State, Host.Core.run Sys2Proof.core k s = .next t ∧ NeverTest t ∧ t.pending = s.pending.drop k := by
  induction k generalizing s with
  | zero => exact ⟨s, rfl, h, rfl⟩
  | succ k ih =>
    obtain ⟨t, hstep, ht, hp⟩ := step_neverTest h
    obtain ⟨u, hrun, hu, hpu⟩ := ih ht
    refine ⟨u, (run_succ Sys2Proof.core k hstep).trans hrun, hu, ?_⟩
    rw [hpu, hp, List.drop_tail]

/-- Settles O2: by `run_neverTest` `k` steps take `k` commands off the queue. -/
theorem everyQueueDrains : Obligations.EveryQueueDrains := by
  intro s h
  refine ⟨fun k => (run_neverTest k h).imp fun t ht => ht.1, ?_⟩
  obtain ⟨t, hrun, hnever, hp⟩ := run_neverTest s.pending.length h
  exact ⟨t, hrun, by simp [hp], hnever.1⟩

/-! ## The cycle of an empty queue -/

/-- From `s` to `t` only counters of waiting have moved, and none has fallen. -/
structure WaitCounted (s t : State) : Prop where
  frame : t = { s with live := t.live }
  asc : wordsAsc t.live
  other : ∀ j q o : Nat, (∀ n : Nat, n < 16 → liveKey j q o ∉ waitKeys n) → live t j q o = live s j q o
  grown : ∀ j q o : Nat, q < 0x1000 → o < 0x1000 → live s j q o ≤ live t j q o

theorem WaitCounted.bump {s t : State} (h : WaitCounted s t) {i pg off : Nat} (hi : i < 16)
    (hkey : liveKey i pg off ∈ waitKeys i) (hpg : pg < 0x1000) (hoff : off < 0x1000) (n : Nat) :
    WaitCounted s (bump t i pg off n) where
  frame := by
    have hb := bump_frame t i pg off n
    rw [h.frame] at hb
    rw [h.frame]
    exact hb
  asc := bump_asc h.asc i pg off n
  other j q o hne := by
    have hk : liveKey j q o ≠ liveKey i pg off := fun e => hne i hi (by rwa [e])
    rw [live_bump_ne h.asc hk, h.other j q o hne]
  grown j q o hq ho := by
    have hle := h.grown j q o hq ho
    by_cases hk : liveKey j q o = liveKey i pg off
    · obtain ⟨rfl, rfl, rfl⟩ := (liveKey_inj hpg hq hoff ho).1 hk
      have hlt := live_lt s j q o
      rw [live_bump_same h.asc]
      omega
    · rwa [live_bump_ne h.asc hk]

theorem failsAt_lt {s : State} {ch e k : Nat} (h : failsAt s ch e = some k) : k < 3 := by
  simp only [failsAt] at h
  split_ifs at h <;> simp only [Option.some.injEq] at h <;> omega

theorem unitWait_lt {s : State} {ch k : Nat} (h : unitWait s ch = some k) : k < 3 := by
  unfold unitWait at h
  split at h
  · cases h
  · split_ifs at h
    split at h
    · cases h
    · exact failsAt_lt h

theorem capCH_lt (s : State) : capCH s < 16 := Nat.mod_lt _ (by decide)

/-- Count one cycle where `c` holds. -/
def countIf (c : Bool) (s : State) (i pg off : Nat) : State := if c then bump s i pg off 1 else s

theorem countIf_asc {s : State} (h : wordsAsc s.live) (c : Bool) (i pg off : Nat) : wordsAsc (countIf c s i pg off).live := by
  cases c with
  | true => exact bump_asc h i pg off 1
  | false => exact h

theorem live_countIf_ne {s : State} (h : wordsAsc s.live) {i pg off j q o : Nat} (hk : liveKey j q o ≠ liveKey i pg off) (c : Bool) :
    live (countIf c s i pg off) j q o = live s j q o := by
  cases c with
  | true => exact live_bump_ne h hk 1
  | false => rfl

theorem live_countIf_same {s : State} (h : wordsAsc s.live) (c : Bool) (i pg off : Nat) :
    live (countIf c s i pg off) i pg off = if c then min (live s i pg off + 1) 0xFFFFFFFF else live s i pg off := by
  cases c with
  | true => exact live_bump_same h i pg off 1
  | false => rfl

theorem WaitCounted.countIf {s t : State} (h : WaitCounted s t) {i pg off : Nat} (hi : i < 16)
    (hkey : liveKey i pg off ∈ waitKeys i) (hpg : pg < 0x1000) (hoff : off < 0x1000) (c : Bool) :
    WaitCounted s (countIf c t i pg off) := by
  cases c with
  | true => exact h.bump hi hkey hpg hoff 1
  | false => exact h

/-- What partition `p` counts in a cycle, each counter by one. -/
def partCounts (s t : State) (p : Nat) : State :=
  countIf (pinWaits s p) (countIf (wcWaits s p) (countIf (cqFull s p) t p pgSTRM 0xF28) p pgSTRM 0xF20) p pgPOOL 0xF38

/-- What channel `ch` counts in a cycle. -/
def chanCounts (s t : State) (ch : Nat) : State :=
  match unitWait s ch with
  | some k => bump t ch pgPWR (0xF28 + 4 * k) 1
  | none => t

theorem cycleCounts_eq (s : State) :
    cycleCounts s = (List.range (capCH s)).foldl (chanCounts s) ((allParts.filter (partLoad s)).foldl (partCounts s) s) := rfl

theorem partCounts_counted {s z t : State} {p : Nat} (hp : p < 8) (h : WaitCounted z t) : WaitCounted z (partCounts s t p) := by
  have hp16 : p < 16 := by omega
  have hcq := h.countIf hp16 (pg := pgSTRM) (off := 0xF28) (by simp [waitKeys]) (by decide) (by decide) (cqFull s p)
  have hwc := hcq.countIf hp16 (pg := pgSTRM) (off := 0xF20) (by simp [waitKeys]) (by decide) (by decide) (wcWaits s p)
  exact hwc.countIf hp16 (pg := pgPOOL) (off := 0xF38) (by simp [waitKeys]) (by decide) (by decide) (pinWaits s p)

theorem chanCounts_counted {s z t : State} {ch : Nat} (hch : ch < 16) (h : WaitCounted z t) : WaitCounted z (chanCounts s t ch) := by
  unfold chanCounts
  split
  · next k hk =>
    have hlt := unitWait_lt hk
    refine h.bump hch ?_ (by decide) (by omega) 1
    interval_cases k <;> simp [waitKeys]
  · exact h

theorem cycleCounts_parts_counted {s : State} (h : wordsAsc s.live) :
    WaitCounted s ((allParts.filter (partLoad s)).foldl (partCounts s) s) := by
  refine foldl_keeps_mem ⟨rfl, h, fun _ _ _ _ => rfl, fun _ _ _ _ _ => le_rfl⟩ fun u p hp hu => partCounts_counted ?_ hu
  exact List.mem_range.1 (List.mem_filter.1 hp).1

theorem cycleCounts_counted {s : State} (h : wordsAsc s.live) : WaitCounted s (cycleCounts s) := by
  rw [cycleCounts_eq]
  refine foldl_keeps_mem (cycleCounts_parts_counted h) fun u ch hch hu => chanCounts_counted ?_ hu
  exact (List.mem_range.1 hch).trans (capCH_lt s)

theorem live_cqFull_ne {p q pg off : Nat} (h : ¬(p = q ∧ pgSTRM = pg ∧ 0xF28 = off)) (hpg : pg < 0x1000) (hoff : off < 0x1000) :
    liveKey p pgSTRM 0xF28 ≠ liveKey q pg off :=
  fun e => h ((liveKey_inj hpg (by decide) hoff (by decide)).1 e)

theorem partCounts_asc {u : State} (h : wordsAsc u.live) (s : State) (p : Nat) : wordsAsc (partCounts s u p).live :=
  countIf_asc (countIf_asc (countIf_asc h _ _ _ _) _ _ _ _) _ _ _ _

theorem live_partCounts_cqFull {u : State} (h : wordsAsc u.live) (s : State) (p q : Nat) :
    live (partCounts s u q) p pgSTRM 0xF28 = live (countIf (cqFull s q) u q pgSTRM 0xF28) p pgSTRM 0xF28 := by
  have hcq := countIf_asc h (cqFull s q) q pgSTRM 0xF28
  have hwc := countIf_asc hcq (wcWaits s q) q pgSTRM 0xF20
  unfold partCounts
  rw [live_countIf_ne hwc (live_cqFull_ne (by simp [pgSTRM, pgPOOL]) (by decide) (by decide)),
    live_countIf_ne hcq (live_cqFull_ne (by simp) (by decide) (by decide))]

theorem chanCounts_cqFull {u : State} (h : wordsAsc u.live) (s : State) (p ch : Nat) :
    wordsAsc (chanCounts s u ch).live ∧ live (chanCounts s u ch) p pgSTRM 0xF28 = live u p pgSTRM 0xF28 := by
  unfold chanCounts
  split
  · next k hk =>
    have hlt := unitWait_lt hk
    exact ⟨bump_asc h _ _ _ _, live_bump_ne h (live_cqFull_ne (by simp [pgSTRM, pgPWR]) (by decide) (by omega)) 1⟩
  · exact ⟨h, rfl⟩

/-- `CQ_FULL` of a loaded partition counts the cycles in which a completion waits for room (R297). -/
theorem live_cycleCounts_cqFull {s : State} (h : wordsAsc s.live) {p : Nat} (hp : p < 8) :
    live (cycleCounts s) p pgSTRM 0xF28 =
      if partLoad s p && cqFull s p then min (live s p pgSTRM 0xF28 + 1) 0xFFFFFFFF else live s p pgSTRM 0xF28 := by
  have hparts := foldl_read (P := fun u => wordsAsc u.live) (g := fun u => live u p pgSTRM 0xF28) (f := partCounts s) (p := p)
    (F := fun n => if cqFull s p then min (n + 1) 0xFFFFFFFF else n)
    (l := allParts.filter (partLoad s)) (List.nodup_range.filter _) (fun u q _ hu => partCounts_asc hu s q)
    (fun u q _ hu hq => by
      rw [live_partCounts_cqFull hu, live_countIf_ne hu (live_cqFull_ne (by tauto) (by decide) (by decide))])
    (fun u hu => by rw [live_partCounts_cqFull hu, live_countIf_same hu]) h
  have hmem : p ∈ allParts.filter (partLoad s) ↔ partLoad s p = true := by simp [allParts, hp]
  rw [cycleCounts_eq]
  have hasc := (cycleCounts_parts_counted h).asc
  have hchans := foldl_keeps (P := fun u => wordsAsc u.live ∧ live u p pgSTRM 0xF28 =
      live ((allParts.filter (partLoad s)).foldl (partCounts s) s) p pgSTRM 0xF28) (f := chanCounts s)
    (l := List.range (capCH s)) ⟨hasc, rfl⟩ fun u ch hu =>
      ⟨(chanCounts_cqFull hu.1 s p ch).1, (chanCounts_cqFull hu.1 s p ch).2.trans hu.2⟩
  rw [hchans.2, hparts]
  simp only [hmem]
  cases partLoad s p <;> simp

theorem coreCycle_runs {s : State} (htest : s.testEn = false) (hrst : s.rstN = true) (h : wordsAsc s.live) :
    coreCycle s = { s with
      cycle := s.cycle + 1
      live := (cycleCounts s).live } := by
  have hcore : coreCycle s = keepPins s { cycleCounts s with cycle := s.cycle + 1 } := by simp [coreCycle, htest, hrst]
  rw [hcore, (cycleCounts_counted h).frame]
  rfl

/-- Settles O34. -/
theorem idleStepOnlyCounts : Obligations.IdleStepOnlyCounts := by
  intro s hq hord
  obtain ⟨-, -, hlive, -, -⟩ := hord
  refine ⟨coreCycle s, step_nil hq, coreCycle_inert, fun htest hrst => ?_⟩
  obtain ⟨-, -, hother, hgrown⟩ := cycleCounts_counted hlive
  have hcount : ∀ j q o : Nat, live (coreCycle s) j q o = live (cycleCounts s) j q o := by
    rw [coreCycle_runs htest hrst hlive]
    exact fun _ _ _ => rfl
  refine ⟨?_, fun j q o hkey => ?_, fun j q o hpg ho => ?_, fun p hp => ?_⟩
  · rw [coreCycle_runs htest hrst hlive]
  · rw [hcount, hother j q o hkey]
  · rw [hcount]
    exact hgrown j q o hpg ho
  · rw [hcount, live_cycleCounts_cqFull hlive hp]

end Sys2Proof.Machine
end

section
/-! Accesses of the configuration port: which access a row makes, when it is held (R342, R417, R435), and what a write does
at an open port (R433, R434, R440). -/

namespace Sys2Proof.Machine

open Sys2Proof

/-! ## The access of a row -/

theorem pageBusy_of_ne {s : State} {pg : Nat} (h : pg ≠ 0) : pageBusy s pg = s.commits.any fun c => c.pages.contains pg := by
  simp [pageBusy, h]

theorem fabRetire_commit {s : State} (hbusy : pageBusy s pgFAB = false) (hasked : commitAsked s .fabricPortRetire = true) :
    fabRetire s = commitGo s pgFAB := by
  rw [pageBusy_of_ne (by decide)] at hbusy
  simp only [commitAsked] at hasked
  unfold fabRetire
  rw [if_neg (by rw [hbusy]; decide), if_pos hasked]

/-- The row of a commit of page `pg`, whose shadow asks for it, writes `COMMIT.GO`. -/
theorem exec_commit {c : Instr} {s : State} {pg : Nat} (hans : Answers s) (hc : commitPage c = some pg)
    (hasked : commitAsked s c = true) (hfab : c = .fabricPortRetire → pageBusy s pgFAB = false) :
    exec c s = .next (keepPins s (commitGo s pg)) := by
  have hact {f : State → State} (hf : f s = commitGo s pg) : actCfg s f = .next (keepPins s (commitGo s pg)) := by
    rw [actCfg_answers hans, hf]
  cases c with
  | xlatMap | xlatUnmap =>
    obtain rfl := Option.some.inj hc
    exact hact (f := fun s => if mapWritten s _ then commitGo s pgXLAT else s) (if_pos hasked)
  | svcVector ch =>
    obtain rfl := Option.some.inj hc
    exact hact (f := fun s => if shadowW s (pgARY ch) 0x100 = 1 then commitGo s (pgARY ch) else s)
      (if_pos (by simpa [commitAsked] using hasked))
  | svcRun ch =>
    obtain rfl := Option.some.inj hc
    exact hact (f := fun s => if shadowW s (pgARY ch) 0x100 = 0 then commitGo s (pgARY ch) else s)
      (if_pos (by simpa [commitAsked] using hasked))
  | slowPortDrain q =>
    obtain rfl := Option.some.inj hc
    exact hact (f := fun s => if ctlWritten s q 0 then commitGo s (pgMEMP q) else s) (if_pos hasked)
  | slowPortRetire q =>
    obtain rfl := Option.some.inj hc
    exact hact (f := fun s => if ctlWritten s q 1 then commitGo s (pgMEMP q) else s) (if_pos hasked)
  | fabricPortRetire =>
    obtain rfl := Option.some.inj hc
    exact hact (f := fabRetire) (fabRetire_commit (hfab rfl) hasked)
  | commitCalu | commitFlt | commitWbt | commitPwr | commitPart | commitStrm | commitStore | commitXlat | commitPool
  | commitFtab | commitMir | commitSnap | commitPastSpare | commitMemp | commitRpg | commitFab =>
    obtain rfl := Option.some.inj hc
    exact hact (f := fun s => commitGo s _) rfl
  | _ => cases hc

/-- A row whose access is known makes that access. -/
theorem exec_access {c : Instr} {s : State} {a : CfgAccess} (hans : Answers s) (h : accessOf s c = some a) :
    exec c s = .next (keepPins s (cfgAccess s a)) := by
  have hact {f : State → State} (hf : f s = cfgAccess s a) : actCfg s f = .next (keepPins s (cfgAccess s a)) := by
    rw [actCfg_answers hans, hf]
  have hcommit (h : (if c = .fabricPortRetire ∧ pageBusy s pgFAB = true ∨ commitAsked s c = false then none
      else (commitPage c).map fun pg => ({ addr := wordAddr pg 0x010, data := 1, write := true } : CfgAccess)) = some a) :
      exec c s = .next (keepPins s (cfgAccess s a)) := by
    split_ifs at h with hneg
    obtain ⟨pg, hpg, rfl⟩ := Option.map_eq_some_iff.1 h
    simp only [not_or, not_and, Bool.not_eq_true, Bool.not_eq_false] at hneg
    exact exec_commit hans hpg hneg.2 hneg.1
  cases c with
  | registerWrite addr v =>
    change some { addr := addr.toNat, data := v, write := true } = some a at h
    obtain rfl := Option.some.inj h
    refine hact (f := fun s => cfgWrite s (addr.toNat / 0x1000) (addr.toNat % 0x1000) v) ?_
    simp only [cfgWrite, wordAddr_div_mod]
  | snapRestore =>
    change (if bitOf (shadowW s pgSNAP 0x100) 3 then some _ else none) = some a at h
    split_ifs at h with hbit
    obtain rfl := Option.some.inj h
    exact hact (f := fun s => if bitOf (shadowW s pgSNAP 0x100) 3 then commitGo s pgSNAP else s) (if_pos hbit)
  | readLCapture addr =>
    obtain rfl := Option.some.inj h
    exact hact (f := fun s => cfgRead s addr.toNat) rfl
  | rowLoad | streamArm | streamDisarm | cancel | retest | sliceLose | groupCommit =>
    obtain rfl := Option.some.inj h
    exact hact (f := fun s => cfgWrite s _ _ _) rfl
  | revert page =>
    obtain rfl := Option.some.inj h
    exact hact (f := fun s => cfgWrite s page 0x008 (BitVec.ofNat 32 (4 + live s 0 page 0x008 % 4))) rfl
  | _ => exact hcommit h

theorem offIn_cbusy (o : Nat) : offIn o 0xF30 0xF3B = true ↔ 0xF30 ≤ o ∧ o < 0xF3C := by
  simp only [offIn, Bool.and_eq_true, decide_eq_true_eq]
  omega

theorem accessWaits_of {s : State} {addr : Nat}
    (h : pageBusy s (addr / 0x1000) = true ∧ (addr / 0x1000 = pgBLK → ¬(0xF30 ≤ addr % 0x1000 ∧ addr % 0x1000 < 0xF3C)) ∨
      addr / 0x1000 ≠ pgBLK ∧ s.initFuse = false) : accessWaits s addr = true := by
  simp only [accessWaits, Bool.or_eq_true, Bool.and_eq_true, bne_iff_ne, Bool.not_eq_true', Bool.and_eq_false_iff, beq_eq_false_iff_ne]
  rcases h with ⟨hbusy, hcbusy⟩ | ⟨hpg, hinit⟩
  · refine .inr ⟨hbusy, ?_⟩
    by_cases hpg : addr / 0x1000 = pgBLK
    · exact .inr (Bool.eq_false_iff.2 fun e => hcbusy hpg ((offIn_cbusy _).1 e))
    · exact .inl hpg
  · exact .inl ⟨hpg, hinit⟩

theorem cfgAccess_held {s : State} {a : CfgAccess} (h : s.cfgHeld ≠ [] ∨ accessWaits s a.addr = true) :
    cfgAccess s a = { s with cfgHeld := s.cfgHeld ++ [a] } := by
  rcases h with h | h <;> simp [cfgAccess, h]

/-- Settles O22. -/
theorem accessIsHeld : Obligations.AccessIsHeld := by
  intro c s a hans hacc hwait
  rw [exec_access hans hacc, cfgAccess_held (hwait.imp id accessWaits_of)]
  rfl

/-! ## Writes at an open port -/

/-- The port itself, the pins, the wrapper and the queue are the same. -/
structure PortKept (s t : State) : Prop where
  pins : keepPins s t = t
  held : t.cfgHeld = s.cfgHeld
  commits : t.commits = s.commits

theorem keepPins_eq {s t : State} (hr : t.rstN = s.rstN) (ht : t.testEn = s.testEn) (hw : t.wir = s.wir)
    (hp : t.pending = s.pending) : keepPins s t = t := by
  simp only [keepPins, ← hr, ← ht, ← hw, ← hp]

theorem Keeps.pins_eq {k : Kind} {s t : State} (h : Keeps k s t) : keepPins s t = t := by
  have e := h.fixed
  simp only [fixedOf, Fixed.mk.injEq] at e
  exact keepPins_eq (by tauto) (by tauto) (by tauto) (by tauto)

theorem Keeps.portKept {cad conf lost : Bool} {s t : State}
    (h : Keeps { cad := cad, conf := conf, port := true, lost := lost } s t) : PortKept s t := by
  have e := h.fixed
  simp only [fixedOf, Fixed.mk.injEq, if_true] at e
  exact ⟨h.pins_eq, by tauto, by tauto⟩

theorem PortKept.quiet {s t : State} (h : PortKept s t) (hq : CfgQuiet s) : CfgQuiet t :=
  ⟨h.held.trans hq.1, h.commits.trans hq.2⟩

/-- At an open port the write of a row takes place at once. -/
theorem exec_write {c : Instr} {s t : State} {pg off : Nat} {v : Word}
    (hacc : accessOf s c = some { addr := wordAddr pg off, data := v, write := true }) (hopen : PortOpen s pg) (hoff : off < 0x1000)
    (ht : regWrite s pg off v = t) (hkept : PortKept s t) : exec c s = .next t := by
  have hdiv : wordAddr pg off / 0x1000 = pg := by unfold wordAddr; omega
  have hmod : wordAddr pg off % 0x1000 = off := by unfold wordAddr; omega
  have hdo : accessDo s { addr := wordAddr pg off, data := v, write := true } = t := by
    simp only [accessDo, if_true, hdiv, hmod, ht]
  rw [exec_access hopen.1 hacc, cfgAccess_open (by rwa [hdiv]) (by rw [hdo]; exact hkept.quiet hopen.2.1), hdo, hkept.pins]

theorem accessOf_registerWrite (s : State) (addr : BitVec 24) (v : Word) :
    accessOf s (.registerWrite addr v) =
      some { addr := wordAddr (addr.toNat / 0x1000) (addr.toNat % 0x1000), data := v, write := true } := by
  rw [wordAddr_div_mod]
  rfl

/-! ## Words that no write acts on -/

/-- RW words are none of the words whose write acts. -/
theorem actionWord_of_rw {s : State} {pg off : Nat} (h : rwMask s pg off ≠ 0) : actionWord pg off = false := by
  obtain ⟨-, hlo, hhi⟩ := rwMask_ne_zero h
  have hne : ∀ k : Nat, k < 0x100 ∨ 0xF00 ≤ k → (off == k) = false := fun k hk => by simp; omega
  have hin : ∀ a b : Nat, 0xF00 ≤ a → offIn off a b = false := fun a b ha => by simp [offIn]; omega
  have hwbt : (pg == pgWBT && offIn off 0x110 0x11F) = false := by
    by_contra hc
    simp only [Bool.not_eq_false, Bool.and_eq_true, beq_iff_eq, offIn, decide_eq_true_eq] at hc
    obtain ⟨rfl, hlow, -⟩ := hc
    refine h ?_
    have h1 : off ≠ 0x100 := by omega
    have h2 : off ≠ 0x104 := by omega
    simp [rwMask, pgWBT, pgCALU, pgFLT, h1, h2]
  simp [actionWord, hne, hin, hwbt]

theorem regWrite_plain {s : State} {pg off : Nat} (hp : pagePresent s pg = true) (h : actionWord pg off = false) (v : Word) :
    regWrite s pg off v = plainWrite s pg off v := by
  simp only [actionWord, Bool.or_eq_false_iff, Bool.and_eq_false_iff, beq_eq_false_iff_ne] at h
  obtain ⟨⟨⟨⟨⟨⟨hctl, hcom⟩, hcalu⟩, hstrm⟩, hstore⟩, hary⟩, -⟩ := h
  have hc1 : ¬(pg = pgCALU ∧ off = 0xF00) := fun h => hcalu.elim (· h.1) (·.1 h.2)
  have hc2 : ¬(pg = pgCALU ∧ off = 0xF04) := fun h => hcalu.elim (· h.1) (·.2 h.2)
  have hs1 : ¬(pg = pgSTRM ∧ off = 0xF10) := fun h => hstrm.elim (· h.1) (·.1.1.1 h.2)
  have hs2 : ¬(pg = pgSTRM ∧ off = 0xF14) := fun h => hstrm.elim (· h.1) (·.1.1.2 h.2)
  have hs3 : ¬(pg = pgSTRM ∧ off = 0xF18) := fun h => hstrm.elim (· h.1) (·.1.2 h.2)
  have hst : ¬(pg = pgSTORE ∧ off = 0xF30) := fun h => hstore.elim (· h.1) (· h.2)
  have hch : ¬((isChanPage pg = true ∧ pg % 4 = 0) ∧ off = 0xF58) := by
    rintro ⟨⟨h1, h2⟩, h3⟩
    rcases hary with (h | h) | h
    · simp [h1] at h
    · exact h h2
    · exact h h3
  simp [regWrite, hp, hctl, hcom, hc1, hc2, hs1, hs2, hs3, hst, hch]

theorem not_wbtWindow {pg off : Nat} (h : actionWord pg off = false) : ¬(pg = pgWBT ∧ offIn off 0x110 0x11F = true) := by
  rintro ⟨h1, h2⟩
  simp [actionWord, h1, h2] at h

theorem not_cheadWord {pg off : Nat} (h : actionWord pg off = false) :
    ¬((pg = pgSTRM ∧ offIn off 0xF80 0xFBF = true) ∧ off % 16 = 0xC) := by
  rintro ⟨⟨h1, h2⟩, h3⟩
  simp [actionWord, h1, h2, h3] at h

theorem plainWrite_rw {s : State} {pg off : Nat} (hp : pagePresent s pg = true) (h : rwMask s pg off ≠ 0) (v : Word) :
    plainWrite s pg off v = setShadow s pg off v.toNat := by
  have hact := actionWord_of_rw h
  simp [plainWrite, hp, (rwMask_ne_zero h).1, not_wbtWindow hact, h]

/-- Settles O19: a write of an RW word is `setShadow`. -/
theorem registerWriteReachesShadow : Obligations.RegisterWriteReachesShadow := by
  intro addr v s pg off hpg hoff hopen hp hord hrw
  have hlt : off < 0x1000 := by omega
  have hwrite : regWrite s pg off v = setShadow s pg off v.toNat :=
    (regWrite_plain hp (actionWord_of_rw hrw) v).trans (plainWrite_rw hp hrw v)
  have hexec := exec_write (c := .registerWrite addr v) (by rw [accessOf_registerWrite, ← hpg, ← hoff]) hopen hlt hwrite ⟨rfl, rfl, rfl⟩
  refine ⟨_, hexec, rfl, ?_, fun q o ho hne => ?_⟩
  · rw [shadowW_setShadow hord.1 hlt hlt, if_pos ⟨rfl, rfl⟩, Nat.mod_eq_of_lt (Nat.lt_of_le_of_lt Nat.and_le_left v.isLt)]
  · rw [shadowW_setShadow hord.1 hlt ho, if_neg hne]

/-! ## Live words, W1C words and those that are discarded -/

theorem plainWrite_live {s : State} {pg off i m : Nat} (hp : pagePresent s pg = true) (hrw : rwMask s pg off = 0)
    (hact : actionWord pg off = false) (hl : liveWord s pg off = some (i, m)) (v : Word) :
    plainWrite s pg off v = setLive s i pg off (v.toNat &&& m) := by
  have halign : off % 4 = 0 := by
    by_contra hne
    simp [liveWord, hne] at hl
  simp [plainWrite, hp, halign, not_wbtWindow hact, hrw, not_cheadWord hact, hl]

theorem plainWrite_w1c {s : State} {pg off i m : Nat} (hp : pagePresent s pg = true) (hrw : rwMask s pg off = 0)
    (hact : actionWord pg off = false) (hl : liveWord s pg off = none) (hw : w1cWord s pg off = some (i, m))
    (halign : off % 4 = 0) (v : Word) :
    plainWrite s pg off v = setLive s i pg off (live s i pg off &&& (m ^^^ (v.toNat &&& m))) := by
  simp [plainWrite, hp, halign, not_wbtWindow hact, hrw, not_cheadWord hact, hl, hw]

theorem plainWrite_none {s : State} {pg off : Nat} (hrw : rwMask s pg off = 0) (hact : actionWord pg off = false)
    (hl : liveWord s pg off = none) (hw : w1cWord s pg off = none) (v : Word) : plainWrite s pg off v = s := by
  simp [plainWrite, not_wbtWindow hact, hrw, not_cheadWord hact, hl, hw]

theorem w1cWord_cases {s : State} {pg off i m : Nat} (h : w1cWord s pg off = some (i, m)) :
    pg = pgSTRM ∧ off = 0xF1C ∨ (isChanPage pg = true ∧ pg % 4 = 3) ∧ off = 0xF34 := by
  unfold w1cWord at h
  split_ifs at h with h1 h2
  · exact .inl (by simpa using h1)
  · exact .inr (by simpa using h2)

theorem actionWord_of_w1c {pg off : Nat} (h : pg = pgSTRM ∧ off = 0xF1C ∨ (isChanPage pg = true ∧ pg % 4 = 3) ∧ off = 0xF34) :
    actionWord pg off = false := by
  rcases h with ⟨rfl, rfl⟩ | ⟨⟨-, hmod⟩, rfl⟩
  · decide
  · simp [actionWord, hmod, offIn]

theorem liveWord_of_w1c {s : State} {pg off : Nat}
    (h : pg = pgSTRM ∧ off = 0xF1C ∨ (isChanPage pg = true ∧ pg % 4 = 3) ∧ off = 0xF34) : liveWord s pg off = none := by
  rcases h with ⟨rfl, rfl⟩ | ⟨⟨hc, hmod⟩, rfl⟩
  · rfl
  · have hlow : 0x40 ≤ pg := by
      simp only [isChanPage, Bool.and_eq_true, decide_eq_true_eq] at hc
      exact hc.1
    have hne : ∀ k : Nat, k < 0x40 → pg ≠ k := by omega
    simp [liveWord, hne, hc, hmod, offIn, pgCAL, pgFLT, pgCAD, pgWBT, pgPWR, pgSTRM, pgSTORE, pgXLAT, pgPOOL, pgMIR, pgFAB]

theorem setLive_kept (s : State) (i pg off v : Nat) : PortKept s (setLive s i pg off v) := ⟨rfl, rfl, rfl⟩

/-- A live word after a write of it shows the bits that it keeps. -/
theorem live_setLive_and {s : State} (h : wordsAsc s.live) (i pg off m : Nat) {n : Nat} (hn : n < 2 ^ 32) :
    live (setLive s i pg off (n &&& m)) i pg off = n &&& m := by
  rw [live_setLive_same h, Nat.mod_eq_of_lt (Nat.lt_of_le_of_lt Nat.and_le_left hn)]

theorem regWrite_pageCtl {s : State} {pg : Nat} (hp : pagePresent s pg = true) (v : Word) :
    regWrite s pg 0x008 v = writePageCtl s pg v := by
  simp [regWrite, hp]

theorem writePageCtl_keep {s : State} {pg : Nat} {v : Word} (h : bitOf v.toNat 2 = false) :
    writePageCtl s pg v = setLive s 0 pg 0x008 (v.toNat &&& if pageJoin pg then 3 else 2) := by
  simp [writePageCtl, h]

theorem num_lt (st : Strm) : st.num < 4 := by cases st <;> decide

theorem pgSTRM_others : pgSTRM ≠ pgCALU ∧ pgSTRM ≠ pgSTORE ∧ pgSTRM ≠ pgWBT ∧ isChanPage pgSTRM = false := by decide

theorem regWrite_chead {s : State} (hp : pagePresent s pgSTRM = true) (st : Strm) (v : Word) :
    regWrite s pgSTRM (0xF8C + 0x10 * st.num) v = updStrm s (sidx s) st fun x => { x with chead := v } := by
  obtain ⟨hcalu, hstore, hwbt, hchan⟩ := pgSTRM_others
  have hrw : ∀ off : Nat, 0xF00 ≤ off → rwMask s pgSTRM off = 0 := fun off h => rwMask_eq_zero_of_ge h s pgSTRM
  cases st <;> simp [regWrite, plainWrite, hp, hrw, hcalu, hstore, hwbt, hchan, Strm.num, offIn, writeChead, strmOf]

theorem pgWBT_others : pgWBT ≠ pgCALU ∧ pgWBT ≠ pgSTORE ∧ pgWBT ≠ pgSTRM ∧ isChanPage pgWBT = false := by decide

theorem regWrite_entry {s : State} {off : Nat} (hp : pagePresent s pgWBT = true) (halign : off % 4 = 0) (hlo : 0x110 ≤ off)
    (hhi : off < 0x120) (v : Word) :
    regWrite s pgWBT off v = { s with
      wbt := { s.wbt with shadow := wordsSet s.wbt.shadow (4 * live s 0 pgWBT 0xF00 + (off - 0x110) / 4) 0 v } } := by
  obtain ⟨hcalu, hstore, hstrm, hchan⟩ := pgWBT_others
  have hne : ∀ k : Nat, k < 0x110 → off ≠ k := by omega
  have hin : offIn off 0x110 0x11F = true := by simp [offIn]; omega
  simp [regWrite, plainWrite, hp, halign, hne, hin, hcalu, hstore, hstrm, hchan]

theorem regWrite_cuntil {s : State} (hp : pagePresent s pgSTRM = true) (v : Word) :
    regWrite s pgSTRM 0xF14 v = writeCuntil s v := by
  obtain ⟨hcalu, -, -, -⟩ := pgSTRM_others
  simp [regWrite, hp, hcalu]

/-- Settles O20, a clause for each kind of word. -/
theorem liveWritesLoadAndOthersAreDiscarded : Obligations.LiveWritesLoadAndOthersAreDiscarded := by
  intro addr v s pg off hpg hoff hopen hp ⟨_, _, hlive, _, _⟩
  have hlt : off < 0x1000 := by omega
  have hexec {t : State} (ht : regWrite s pg off v = t) (hk : PortKept s t) : exec (.registerWrite addr v) s = .next t :=
    exec_write (by rw [accessOf_registerWrite, ← hpg, ← hoff]) hopen hlt ht hk
  refine ⟨fun hrw hact => ⟨?live, ?none⟩, ?w1c, ?ctl, ?rload, ?entry, ?chead, ?cuntil⟩
  case live =>
    intro i m hl
    refine ⟨_, hexec ((regWrite_plain hp hact v).trans (plainWrite_live hp hrw hact hl v)) (setLive_kept _ _ _ _ _), rfl,
      live_setLive_and hlive _ _ _ _ v.isLt, fun j q o hk => live_setLive_ne hlive hk _⟩
  case none =>
    intro hl hw
    exact hexec ((regWrite_plain hp hact v).trans (plainWrite_none hrw hact hl hw v)) ⟨rfl, rfl, rfl⟩
  case w1c =>
    intro i m hw
    have hcases := w1cWord_cases hw
    have hge : 0xF00 ≤ off ∧ off % 4 = 0 := by omega
    have hact := actionWord_of_w1c hcases
    have hrw := rwMask_eq_zero_of_ge hge.1 s pg
    refine ⟨_, hexec ((regWrite_plain hp hact v).trans (plainWrite_w1c hp hrw hact (liveWord_of_w1c hcases) hw hge.2 v))
      (setLive_kept _ _ _ _ _), rfl, live_setLive_and hlive _ _ _ _ (live_lt s i pg off), fun j q o hk => live_setLive_ne hlive hk _⟩
  case ctl =>
    rintro rfl hbit
    refine ⟨_, hexec ((regWrite_pageCtl hp v).trans (writePageCtl_keep hbit)) (setLive_kept _ _ _ _ _), rfl,
      live_setLive_and hlive _ _ _ _ v.isLt, fun j q o hk => live_setLive_ne hlive hk _⟩
  case rload =>
    rintro rfl rfl
    exact hexec (by simp [regWrite, hp]) ⟨rfl, rfl, rfl⟩
  case entry =>
    rintro rfl halign hlo hhi
    exact hexec (regWrite_entry hp halign hlo hhi v) ⟨rfl, rfl, rfl⟩
  case chead =>
    rintro st rfl rfl
    exact hexec (regWrite_chead hp st v) ⟨rfl, rfl, rfl⟩
  case cuntil =>
    rintro rfl rfl
    exact hexec (regWrite_cuntil hp v) (writeCuntil_keeps (kd := kdA) (v := v) (.refl s)).portKept

end Sys2Proof.Machine
end

section
/-! Reading a part of the state after an update of it, by numbers in range. -/

namespace Sys2Proof.Machine

open Sys2Proof

theorem ofNat_ne {m n k : Nat} [NeZero m] (hn : n < m) (hk : k < m) (h : k ≠ n) : Fin.ofNat m n ≠ Fin.ofNat m k := by
  intro e
  have := congrArg Fin.val e
  simp only [Fin.ofNat, Nat.mod_eq_of_lt hn, Nat.mod_eq_of_lt hk] at this
  exact h this.symm

theorem chan_updChan_same (s : State) (n : Nat) (f : Channel → Channel) : chan (updChan s n f) n = f (chan s n) := by
  rw [chan_updChan, if_pos rfl]

theorem chan_updChan_ne (s : State) {n k : Nat} (hn : n < 8) (hk : k < 8) (h : k ≠ n) (f : Channel → Channel) :
    chan (updChan s n f) k = chan s k := by
  rw [chan_updChan, if_neg (ofNat_ne hn hk h)]

theorem slice_updSlice_same (s : State) (n : Nat) (f : Slice → Slice) : slice (updSlice s n f) n = f (slice s n) := by
  rw [slice_updSlice, if_pos rfl]

theorem slice_updSlice_ne (s : State) {n k : Nat} (hn : n < 8) (hk : k < 8) (h : k ≠ n) (f : Slice → Slice) :
    slice (updSlice s n f) k = slice s k := by
  rw [slice_updSlice, if_neg (ofNat_ne hn hk h)]

theorem slowP_updSlow_same (s : State) (q : Nat) (f : SlowSt → SlowSt) : slowP (updSlow s q f) q = f (slowP s q) := by
  rw [slowP_updSlow, if_pos rfl]

theorem fabP_updFab_same (s : State) (n : Nat) (f : FabSt → FabSt) : fabP (updFab s n f) n = f (fabP s n) := by
  rw [fabP_updFab, if_pos rfl]

theorem fabP_updFab_ne (s : State) {n k : Nat} (hn : n < 32) (hk : k < 32) (h : k ≠ n) (f : FabSt → FabSt) :
    fabP (updFab s n f) k = fabP s k := by
  rw [fabP_updFab, if_neg (ofNat_ne hn hk h)]

theorem strm_updStrm_same (s : State) (p : Nat) (st : Strm) (f : StreamSt → StreamSt) :
    strm (updStrm s p st f) p st = f (strm s p st) := by
  rw [strm_updStrm, if_pos ⟨rfl, rfl⟩]

theorem strm_updStrm_ne (s : State) (p : Nat) {st su : Strm} (h : su ≠ st) (f : StreamSt → StreamSt) :
    strm (updStrm s p st f) p su = strm s p su := by
  rw [strm_updStrm, if_neg fun e => h e.2.symm]

theorem pool_updPool_same (s : State) (p : Nat) (f : Pool → Pool) : pool (updPool s p f) p = f (pool s p) := by
  rw [pool_updPool, if_pos rfl]

theorem mem_allStrms (st : Strm) : st ∈ allStrms := by cases st <;> decide

theorem nodup_allStrms : allStrms.Nodup := by decide

end Sys2Proof.Machine
end

section
/-! Rows of the configuration port whose write acts: arming and disarming, cancel, revert, retest, row loads, lost slices. -/

namespace Sys2Proof.Machine

open Sys2Proof

theorem pagePresent_low {s : State} {pg : Nat} (hf : s.fuseErr = false) (h : pg ≤ pgSNAP) (hm : pg ≠ pgMIR) :
    pagePresent s pg = true := by
  simp [pagePresent, hf, h, hm]

/-! ## Revert (R434) -/

theorem revertPage_frame (s : State) (pg : Nat) :
    revertPage s pg = { s with
      shadow := copyPage s.shadow s.effect pg
      wbt := if pg = pgWBT then { s.wbt with shadow := (s.wbt.next.getD s.wbt.table).entries } else s.wbt } := by
  unfold revertPage
  split_ifs <;> rfl

theorem revertWord_bits {n m : Nat} (hn : n < 4) (hm : m = 2 ∨ m = 3) : (4 + n) &&& m = n &&& m := by
  rcases hm with rfl | rfl <;> interval_cases n <;> decide

theorem ofNat32_toNat {n : Nat} (h : n < 2 ^ 32) : (BitVec.ofNat 32 n).toNat = n := by
  rw [BitVec.toNat_ofNat, Nat.mod_eq_of_lt h]

theorem wordAddr_div {pg off : Nat} (h : off < 0x1000) : wordAddr pg off / 0x1000 = pg := by
  unfold wordAddr
  omega

theorem shadowW_copyPage {s : State} (hs : wordsAsc s.shadow) (he : wordsAsc s.effect) (pg q : Nat) {off : Nat} (hoff : off < 0x1000) :
    (wordsGet (copyPage s.shadow s.effect pg) (wordAddr q off) (BitVec.ofNat 32 (rwReset q off))).toNat =
      if q = pg then eff s q off else shadowW s q off := by
  rw [wordsGet_copyPage hs he, wordAddr_div hoff]
  split_ifs <;> rfl

/-- Settles O25: the write takes back the shadow, and `PAGECTL` keeps `VIEW` and `JOIN`. -/
theorem revertRestoresEffect : Obligations.RevertRestoresEffect := by
  intro pg s hopen hp ⟨hshadow, heffect, hlive, _, _⟩
  have hlt : live s 0 pg 0x008 % 4 < 4 := Nat.mod_lt _ (by decide)
  have hval : (BitVec.ofNat 32 (4 + live s 0 pg 0x008 % 4)).toNat = 4 + live s 0 pg 0x008 % 4 := ofNat32_toNat (by omega)
  have hbit : bitOf (4 + live s 0 pg 0x008 % 4) 2 = true := by
    unfold bitOf
    generalize live s 0 pg 0x008 % 4 = n at hlt
    interval_cases n <;> decide
  have hmask : ∀ m : Nat, m = 2 ∨ m = 3 → (4 + live s 0 pg 0x008 % 4) &&& m = live s 0 pg 0x008 % 4 &&& m :=
    fun m hm => revertWord_bits hlt hm
  have hjoin : (if pageJoin pg then 3 else 2) = 2 ∨ (if pageJoin pg then 3 else 2) = 3 := by split_ifs <;> simp
  have hwrite : regWrite s pg 0x008 (BitVec.ofNat 32 (4 + live s 0 pg 0x008 % 4)) =
      revertPage (setLive s 0 pg 0x008 (live s 0 pg 0x008 % 4 &&& if pageJoin pg then 3 else 2)) pg := by
    rw [regWrite_pageCtl hp, writePageCtl, hval, if_pos hbit, hmask _ hjoin]
  rw [revertPage_frame] at hwrite
  refine ⟨_, exec_write (pg := pg) rfl hopen (by decide) hwrite ⟨rfl, rfl, rfl⟩, rfl, fun q off hoff => ?_, ?_, fun j q o hk => ?_, rfl⟩
  · exact shadowW_copyPage (s := s) hshadow heffect pg q hoff
  · exact live_setLive_and hlive 0 pg 0x008 _ (by omega)
  · exact live_setLive_ne hlive hk _

/-! ## Retest (R450) -/

theorem isChanPage_pgARY {n : Nat} (hn : n < 8) : isChanPage (pgARY n) = true := by
  have hlow : 0x40 ≤ pgARY n := by unfold pgARY; omega
  have hhigh : pgARY n ≤ 0x5F := by unfold pgARY; omega
  simp [isChanPage, hlow, hhigh]

theorem pgARY_ne {n p : Nat} (hp : p < 0x40) : pgARY n ≠ p := by
  unfold pgARY
  omega

theorem pgARY_mod_four (n : Nat) : pgARY n % 4 = 0 := by
  unfold pgARY
  omega

theorem pgChan_pgARY (n : Nat) : pgChan (pgARY n) = n := by
  unfold pgChan pgARY
  omega

theorem regWrite_retest {s : State} {n : Nat} (hn : n < 8) (hp : pagePresent s (pgARY n) = true) :
    regWrite s (pgARY n) 0xF58 1 = retestGo s n := by
  have hbit : bitOf (BitVec.toNat (1 : Word)) 0 = true := by decide
  have hcalu : pgARY n ≠ pgCALU := pgARY_ne (by decide)
  have hstrm : pgARY n ≠ pgSTRM := pgARY_ne (by decide)
  have hstore : pgARY n ≠ pgSTORE := pgARY_ne (by decide)
  simp only [regWrite, hp, hcalu, hstrm, hstore, isChanPage_pgARY hn, pgARY_mod_four, pgChan_pgARY, hbit]
  simp

/-- Settles O26. -/
theorem retestRunsInOut : Obligations.RetestRunsInOut := by
  intro ch s hopen hp
  have hexec := exec_write (c := .retest ch) rfl hopen (by decide) (regWrite_retest ch.isLt hp)
    (retestGo_keeps (kd := kdA) (.refl s)).portKept
  refine ⟨_, hexec, ?_⟩
  unfold retestGo
  split_ifs with hout
  · exact ⟨rfl, fun n hn hne => chan_updChan_ne s ch.isLt hn hne _, chan_updChan_same s ch _⟩
  · exact ⟨rfl, fun n hn hne => rfl, rfl⟩

/-! ## Cancel (R290) -/

theorem regWrite_strm {s : State} (hf : s.fuseErr = false) (v : Word) :
    regWrite s pgSTRM 0xF10 v = writeArm s v.toNat ∧ regWrite s pgSTRM 0xF18 v = writeCancel s v.toNat := by
  obtain ⟨hcalu, -, -, -⟩ := pgSTRM_others
  have hp := pagePresent_low (pg := pgSTRM) hf (by decide) (by decide)
  simp [regWrite, hp, hcalu]

theorem ofNat32_bits {n : Nat} (v : BitVec n) (hn : n ≤ 32) : (BitVec.ofNat 32 v.toNat).toNat = v.toNat :=
  ofNat32_toNat (Nat.lt_of_lt_of_le v.isLt (Nat.pow_le_pow_right (by decide) hn))

/-- Settles O27: the cancel is the write of `STRM.CANCEL`, and what it leaves of the port is as it was. -/
theorem cancelOpensItsWindow : Obligations.CancelOpensItsWindow := by
  intro v s hopen hf
  have hkept : PortKept s (writeCancel s v.toNat) := (writeCancel_keeps (kd := kdA) (.refl s)).portKept
  have hwrite : regWrite s pgSTRM 0xF18 (BitVec.ofNat 32 v.toNat) = writeCancel s v.toNat := by
    rw [(regWrite_strm hf _).2, ofNat32_bits v (by decide)]
  have hexec : exec (.cancel v) s = .next (writeCancel s v.toNat) := exec_write rfl hopen (by decide) hwrite hkept
  constructor
  · intro hgo
    rw [hexec]
    simp [writeCancel, hgo]
  · intro hgo
    rw [hexec, ← hkept.pins]
    simp only [writeCancel, hgo]
    rfl

end Sys2Proof.Machine
end

section
/-! Arming and disarming of streams (R262, R307). -/

namespace Sys2Proof.Machine

open Sys2Proof

/-! ## Runs side by side -/

/-- Two runs over one list keep a relation that speaks of what is left of the list. -/
theorem foldl_both {α σ τ : Type} {R : List α → σ → τ → Prop} {f : σ → α → σ} {g : τ → α → τ}
    (step : ∀ a l u v, R (a :: l) u v → R l (f u a) (g v a)) {l : List α} {u : σ} {v : τ} (h : R l u v) :
    R [] (l.foldl f u) (l.foldl g v) := by
  induction l generalizing u v with
  | nil => exact h
  | cons a l ih => exact ih (step a l u v h)

theorem any_congr_mem {α : Type} {l : List α} {f g : α → Bool} (h : ∀ a ∈ l, f a = g a) : l.any f = l.any g := by
  rw [Bool.eq_iff_iff, List.any_eq_true, List.any_eq_true]
  exact exists_congr fun a => and_congr_right fun ha => by rw [h a ha]

/-! ## Arming -/

/-- The streams of partition `p` that arming bits arm, as `s` shows them. -/
def armNew (s : State) (p bits : Nat) (u : State) (st : Strm) : State :=
  if bitOf bits st.num && !(strm s p st).armed then updStrm u p st (fun x => { x with armed := true, draining := false }) else u

/-- One arming bit. -/
def armBit (p bits : Nat) (u : State) (st : Strm) : State := if bitOf bits st.num then armStream u p st else u

/-- What holds between a run of `armBit` and one of `armNew` with the streams of `l` left: they differ in live words alone. -/
structure ArmSim (s : State) (p bits : Nat) (l : List Strm) (u v : State) : Prop where
  nodup : l.Nodup
  rest : ∀ st ∈ l, strm v p st = strm s p st
  frame : u = { v with live := u.live }

theorem ArmSim.strm_left {s : State} {p bits : Nat} {l : List Strm} {u v : State} (h : ArmSim s p bits l u v) {st : Strm}
    (hst : st ∈ l) : strm u p st = strm s p st := by
  rw [h.frame]
  exact h.rest st hst

theorem armNew_other (s : State) (p bits : Nat) (u : State) {st su : Strm} (h : su ≠ st) :
    strm (armNew s p bits u st) p su = strm u p su := by
  unfold armNew
  split_ifs
  · exact strm_updStrm_ne u p h _
  · rfl

theorem armBit_cases (p bits : Nat) (u : State) (st : Strm) :
    (bitOf bits st.num && (strm u p st).armed) = true ∧ armBit p bits u st = setBusy u p 1 ∨
      (bitOf bits st.num && (strm u p st).armed) = false ∧ armBit p bits u st = armNew u p bits u st := by
  unfold armBit armNew armStream
  cases bitOf bits st.num <;> cases (strm u p st).armed <;> simp

theorem armSim_step {s : State} {p bits : Nat} (st : Strm) (l : List Strm) (u v : State) (h : ArmSim s p bits (st :: l) u v) :
    ArmSim s p bits l (armBit p bits u st) (armNew s p bits v st) := by
  obtain ⟨hnot, hl⟩ := List.nodup_cons.1 h.nodup
  refine ⟨hl, fun su hsu => ?_, ?_⟩
  · rw [armNew_other s p bits v fun e => hnot (by rwa [← e])]
    exact h.rest su (List.mem_cons_of_mem st hsu)
  · have hsame := h.strm_left List.mem_cons_self
    have hframe := h.frame
    obtain ⟨hc, e⟩ | ⟨hc, e⟩ := armBit_cases p bits u st
    · have hnone : armNew s p bits v st = v := by
        rw [hsame, Bool.and_eq_true] at hc
        simp [armNew, hc.2]
      rw [e, hnone, hframe]
      rfl
    · have hnew : armNew u p bits u st = armNew s p bits u st := by simp only [armNew, hsame]
      rw [e, hnew, hframe]
      unfold armNew
      split_ifs <;> rfl

theorem foldl_armBit {s : State} (p bits : Nat) :
    allStrms.foldl (armBit p bits) s =
      { allStrms.foldl (armNew s p bits) s with live := (allStrms.foldl (armBit p bits) s).live } :=
  (foldl_both armSim_step (ArmSim.mk (s := s) (p := p) (bits := bits) nodup_allStrms (fun _ _ => rfl) rfl)).frame

theorem strm_foldl_armNew (s : State) (p bits : Nat) (st : Strm) :
    strm (allStrms.foldl (armNew s p bits) s) p st =
      if bitOf bits st.num && !(strm s p st).armed then { strm s p st with armed := true, draining := false } else strm s p st := by
  have h := foldl_read (P := fun _ => True) (g := fun u => strm u p st) (f := armNew s p bits) (p := st)
    (F := fun x => if bitOf bits st.num && !(strm s p st).armed then { x with armed := true, draining := false } else x)
    nodup_allStrms (fun _ _ _ _ => trivial) (fun u a _ _ ha => armNew_other s p bits u (Ne.symm ha))
    (fun u _ => by
      unfold armNew
      split_ifs
      · exact strm_updStrm_same u p st _
      · rfl) (s := s) trivial
  rw [if_pos (mem_allStrms st)] at h
  exact h

theorem live_setBusy {s : State} (h : wordsAsc s.live) (p : Nat) : live (setBusy s p 1) p pgSTRM 0xF1C = live s p pgSTRM 0xF1C ||| 1 := by
  rw [setBusy, live_setLive_same h, Nat.mod_eq_of_lt (Nat.or_lt_two_pow (live_lt _ _ _ _) (by decide))]

theorem armBit_asc {u : State} (h : wordsAsc u.live) (p bits : Nat) (st : Strm) : wordsAsc (armBit p bits u st).live := by
  obtain ⟨-, e⟩ | ⟨-, e⟩ := armBit_cases p bits u st
  · rw [e]
    exact setLive_asc h _ _ _ _
  · rw [e]
    unfold armNew
    split_ifs <;> exact h

theorem live_armBit {u : State} (h : wordsAsc u.live) (p bits : Nat) (st : Strm) :
    live (armBit p bits u st) p pgSTRM 0xF1C =
      if bitOf bits st.num && (strm u p st).armed then live u p pgSTRM 0xF1C ||| 1 else live u p pgSTRM 0xF1C := by
  obtain ⟨hc, e⟩ | ⟨hc, e⟩ := armBit_cases p bits u st
  · rw [e, hc, live_setBusy h, if_pos rfl]
  · rw [e, hc, if_neg (by decide)]
    unfold armNew
    split_ifs <;> rfl

theorem armBit_other (p bits : Nat) (u : State) {st su : Strm} (h : su ≠ st) : strm (armBit p bits u st) p su = strm u p su := by
  obtain ⟨-, e⟩ | ⟨-, e⟩ := armBit_cases p bits u st
  · rw [e]
    rfl
  · rw [e, armNew_other u p bits u h]

/-- A run of arming bits sets `BUSY` where one of them names an armed stream. -/
theorem live_foldl_armBit (p bits : Nat) {l : List Strm} (hl : l.Nodup) {u : State} (h : wordsAsc u.live) :
    live (l.foldl (armBit p bits) u) p pgSTRM 0xF1C =
      if l.any (fun st => bitOf bits st.num && (strm u p st).armed) then live u p pgSTRM 0xF1C ||| 1 else live u p pgSTRM 0xF1C := by
  induction l generalizing u with
  | nil => simp
  | cons a l ih =>
    obtain ⟨hnot, hrest⟩ := List.nodup_cons.1 hl
    have hany : (l.any fun st => bitOf bits st.num && (strm (armBit p bits u a) p st).armed) =
        l.any fun st => bitOf bits st.num && (strm u p st).armed := by
      refine any_congr_mem fun st hst => ?_
      rw [armBit_other p bits u fun e => hnot (by rwa [← e])]
    rw [List.foldl_cons, ih hrest (armBit_asc h p bits a), hany, live_armBit h, List.any_cons]
    cases bitOf bits a.num && (strm u p a).armed with
    | true => cases l.any _ <;> simp
    | false => simp

theorem bitOf_high {n : Nat} (v : BitVec n) {i : Nat} (h : n ≤ i) : bitOf v.toNat i = false :=
  Nat.testBit_lt_two_pow (Nat.lt_of_lt_of_le v.isLt (Nat.pow_le_pow_right (by decide) h))

theorem writeArm_arms {s : State} (bits : BitVec 4) :
    writeArm s bits.toNat = if partLoad s (sidx s) then allStrms.foldl (armBit (sidx s) bits.toNat) s else s := by
  have hdisarm (u : State) : allStrms.foldl
      (fun u st => if bitOf bits.toNat (4 + st.num) then disarmStream u (sidx s) st else u) u = u := by
    refine foldl_keeps (P := (· = u)) rfl fun w st hw => ?_
    rw [bitOf_high bits (by omega)]
    exact hw
  unfold writeArm
  simp only [hdisarm]
  cases partLoad s (sidx s) <;> rfl

/-- Settles O23: the run of arming bits beside the run that arms as the start shows the streams. -/
theorem armBitsArm : Obligations.ArmBitsArm := by
  intro bits s hopen hf ⟨_, _, hlive, _, _⟩
  have hwrite : regWrite s pgSTRM 0xF10 (BitVec.ofNat 32 bits.toNat) = writeArm s bits.toNat := by
    rw [(regWrite_strm hf _).1, ofNat32_bits bits (by decide)]
  have hexec : exec (.streamArm bits) s = .next (writeArm s bits.toNat) :=
    exec_write rfl hopen (by decide) hwrite (writeArm_keeps (kd := kdA) (.refl s)).portKept
  rw [hexec, writeArm_arms]
  constructor
  · intro hload
    simp [hload]
  · intro hload
    rw [if_pos hload]
    have hframe := foldl_armBit (s := s) (sidx s) bits.toNat
    refine ⟨_, rfl, hframe, fun st => ?_, live_foldl_armBit _ _ nodup_allStrms hlive⟩
    rw [hframe]
    exact strm_foldl_armNew s (sidx s) bits.toNat st

/-! ## Disarming -/

theorem dropReads_none (s : State) : dropReads s (fun _ => false) = s := by
  have hfab : s.fab.map (fun x => { x with waiting := x.waiting.map fun r => r, sent := x.sent.map fun r => r }) = s.fab := by
    simp
  simp only [dropReads, Bool.not_false, List.filter_true, Bool.false_eq_true, if_false, hfab]

theorem dropReads_dropReads (s : State) {f g : Owner → Bool} (hg : g .dropped = false) :
    dropReads (dropReads s f) g = dropReads s fun o => f o || g o := by
  have hone (r : IqReq) : (if g (if f r.owner then { r with owner := .dropped } else r).owner then
      { (if f r.owner then { r with owner := .dropped } else r) with owner := Owner.dropped } else
      (if f r.owner then { r with owner := .dropped } else r)) = if f r.owner || g r.owner then { r with owner := .dropped } else r := by
    cases hf : f r.owner <;> simp [hg]
  simp only [dropReads, List.filter_filter, Vector.map_map, Function.comp_def, List.map_map, hone, Bool.not_or, Bool.and_comm]

/-- The streams of partition `p` that disarming bits stop, as `s` shows them. -/
def disarmNew (s : State) (p bits : Nat) (u : State) (st : Strm) : State :=
  if bitOf bits st.num && (strm s p st).armed then
    updStrm u p st (fun x => if x.cmds.isEmpty then { x with armed := false, draining := false, polling := false }
      else { x with draining := true, polling := false }) else u

/-- The owners of the reads of a stream's fetch that a disarming bit drops. -/
def fetchOwner (s : State) (p bits : Nat) (st : Strm) (o : Owner) : Bool :=
  bitOf bits st.num && (strm s p st).armed && (o == .ring (pf p) st || o == paramOwner p st (strm s p st).next)

/-- One disarming bit. -/
def disarmBit (p bits : Nat) (u : State) (st : Strm) : State := if bitOf bits st.num then disarmStream u p st else u

theorem disarmNew_other (s : State) (p bits : Nat) (u : State) {st su : Strm} (h : su ≠ st) :
    strm (disarmNew s p bits u st) p su = strm u p su := by
  unfold disarmNew
  split_ifs
  · exact strm_updStrm_ne u p h _
  · rfl

/-- A run of disarming bits from `u` drops the fetches of the streams that it stops. -/
theorem foldl_disarmBit {s : State} (p bits : Nat) {l : List Strm} (hl : l.Nodup) {u v : State} {f : Owner → Bool}
    (hu : u = dropReads v f) (hrest : ∀ st ∈ l, strm v p st = strm s p st) :
    l.foldl (disarmBit p bits) u =
      dropReads (l.foldl (disarmNew s p bits) v) fun o => f o || l.any fun st => fetchOwner s p bits st o := by
  induction l generalizing u v f with
  | nil => simp [hu]
  | cons a l ih =>
    obtain ⟨hnot, hl'⟩ := List.nodup_cons.1 hl
    have hsame : strm u p a = strm s p a := by
      rw [hu]
      exact hrest a List.mem_cons_self
    have hstep : disarmBit p bits u a = dropReads (disarmNew s p bits v a) fun o => f o || fetchOwner s p bits a o := by
      unfold disarmBit disarmStream disarmNew fetchOwner
      rw [hsame]
      cases bitOf bits a.num with
      | false => simpa only [Bool.false_and, Bool.false_eq_true, if_false, Bool.or_false] using hu
      | true =>
        cases ha : (strm s p a).armed with
        | false =>
          simpa only [ha, Bool.true_and, Bool.false_and, Bool.not_false, Bool.false_eq_true, if_true, if_false, Bool.or_false] using hu
        | true =>
          simp only [ha, Bool.not_true, Bool.false_eq_true, if_false, if_true, Bool.and_self, Bool.true_and]
          rw [dropFetch, hsame, hu, dropReads_dropReads v rfl]
          rfl
    have hleft : ∀ st ∈ l, strm (disarmNew s p bits v a) p st = strm s p st := fun st hst => by
      rw [disarmNew_other s p bits v fun e => hnot (by rwa [← e])]
      exact hrest st (List.mem_cons_of_mem a hst)
    rw [List.foldl_cons, ih hl' hstep hleft]
    simp only [List.foldl_cons, List.any_cons, Bool.or_assoc]

theorem strm_foldl_disarmNew (s : State) (p bits : Nat) (st : Strm) :
    strm (allStrms.foldl (disarmNew s p bits) s) p st =
      if bitOf bits st.num && (strm s p st).armed then
        (if (strm s p st).cmds.isEmpty then { strm s p st with armed := false, draining := false, polling := false }
        else { strm s p st with draining := true, polling := false })
      else strm s p st := by
  have h := foldl_read (P := fun _ => True) (g := fun u => strm u p st) (f := disarmNew s p bits) (p := st)
    (F := fun x => if bitOf bits st.num && (strm s p st).armed then
      (if x.cmds.isEmpty then { x with armed := false, draining := false, polling := false }
      else { x with draining := true, polling := false }) else x)
    nodup_allStrms (fun _ _ _ _ => trivial) (fun u a _ _ ha => disarmNew_other s p bits u (Ne.symm ha))
    (fun u _ => by
      unfold disarmNew
      split_ifs
      · rw [strm_updStrm_same, if_pos ‹_›]
      · rw [strm_updStrm_same, if_neg ‹_›]
      · rfl) (s := s) trivial
  rw [if_pos (mem_allStrms st)] at h
  exact h

theorem bitOf_shifted {bits i : Nat} : bitOf (bits * 16) (4 + i) = bitOf bits i := by
  unfold bitOf
  rw [show bits * 16 = bits * 2 ^ 4 from rfl, Nat.testBit_mul_two_pow]
  simp

theorem bitOf_shifted_low {bits i : Nat} (h : i < 4) : bitOf (bits * 16) i = false := by
  unfold bitOf
  rw [show bits * 16 = bits * 2 ^ 4 from rfl, Nat.testBit_mul_two_pow]
  simp
  omega

theorem writeArm_disarms {s : State} (bits : Nat) :
    writeArm s (bits * 16) = if partLoad s (sidx s) then allStrms.foldl (disarmBit (sidx s) bits) s else s := by
  have harm (u : State) : allStrms.foldl
      (fun u st => if bitOf (bits * 16) st.num then armStream u (sidx s) st else u) u = u := by
    refine foldl_keeps (P := (· = u)) rfl fun w st hw => ?_
    rw [bitOf_shifted_low (num_lt st)]
    exact hw
  unfold writeArm
  simp only [harm, bitOf_shifted]
  cases partLoad s (sidx s) <;> rfl

/-- Settles O24: the run of disarming bits takes each stream of the partition once. -/
theorem disarmBitsDrain : Obligations.DisarmBitsDrain := by
  intro bits s hopen hf
  have hlt : bits.toNat * 16 < 2 ^ 32 := by
    have := bits.isLt
    omega
  have hwrite : regWrite s pgSTRM 0xF10 (BitVec.ofNat 32 (bits.toNat * 16)) = writeArm s (bits.toNat * 16) := by
    rw [(regWrite_strm hf _).1, ofNat32_toNat hlt]
  have hexec : exec (.streamDisarm bits) s = .next (writeArm s (bits.toNat * 16)) :=
    exec_write rfl hopen (by decide) hwrite (writeArm_keeps (kd := kdA) (.refl s)).portKept
  rw [hexec, writeArm_disarms]
  constructor
  · intro hload
    simp [hload]
  · intro hload
    rw [if_pos hload, foldl_disarmBit (s := s) (sidx s) bits.toNat nodup_allStrms (dropReads_none s).symm fun _ _ => rfl]
    refine ⟨_, rfl, ?_, fun st => ?_⟩
    · simp only [Bool.false_or]
      rfl
    · exact strm_foldl_disarmNew s (sidx s) bits.toNat st

end Sys2Proof.Machine
end

section
/-! Row loads (R427) and lost slices (R397). -/

namespace Sys2Proof.Machine

open Sys2Proof

/-- A command whose work leaves the pins, the wrapper and the queue has that work as its effect. -/
theorem act_kept {k : Kind} {s : State} {f : State → State} (hruns : Runs s) (h : Keeps k s (f s)) : act s f = .next (f s) := by
  rw [act_runs hruns, h.pins_eq]

/-! ## Row loads -/

theorem updRowMem_frame (s : State) (row : Nat) (f : RowMem → RowMem) :
    updRowMem s row f = { s with slices := (updRowMem s row f).slices, slow := (updRowMem s row f).slow } := by
  unfold updRowMem
  split_ifs <;> rfl

/-- A row that no entry names gets an entry of its own in the live repair table. -/
theorem steer_unknown {s : State} {row k : Nat} (hlive : (s.repair.any fun x => entryRow x == row) = false)
    (hfuse : (s.fuse.rows.any fun x => entryRow x == row) = false) :
    steer s row k =
      { updRowMem s row (fun m => { m with spares := (row, k) :: m.spares }) with repair := s.repair ++ [repairEntry row k] } := by
  unfold steer
  rw [updRowMem_frame]
  simp only [hlive, hfuse, Bool.false_eq_true, if_false]

theorem rowLoad_known {s : State} {w : Word} (h : rowLoadable s (entryRow (s.rload0, w)) = false ∨
    ((s.repair.any fun x => entryRow x == entryRow (s.rload0, w)) ||
      s.fuse.rows.any fun x => entryRow x == entryRow (s.rload0, w)) = true) : rowLoad s w = s := by
  unfold rowLoad
  obtain h | h := h
  · simp only [h, Bool.not_false, if_true]
  · simp only [h, if_true, ite_self]

theorem rowLoad_free {s : State} {w : Word} {k : Nat} (hok : rowLoadable s (entryRow (s.rload0, w)) = true)
    (hnew : ((s.repair.any fun x => entryRow x == entryRow (s.rload0, w)) ||
      s.fuse.rows.any fun x => entryRow x == entryRow (s.rload0, w)) = false)
    (hidle : (if isStore (entryRow (s.rload0, w)) then s.initStore else portReady s (portOf (entryRow (s.rload0, w)))) = false)
    (hspare : freeSpare s (entryRow (s.rload0, w)) = some k) : rowLoad s w = steer s (entryRow (s.rload0, w)) k := by
  unfold rowLoad
  simp only [hok, hnew, hidle, hspare, Bool.not_true, Bool.false_eq_true, if_false]

theorem rowLoad_used {s : State} {w : Word} (hok : rowLoadable s (entryRow (s.rload0, w)) = true)
    (hnew : ((s.repair.any fun x => entryRow x == entryRow (s.rload0, w)) ||
      s.fuse.rows.any fun x => entryRow x == entryRow (s.rload0, w)) = false)
    (hused : (if isStore (entryRow (s.rload0, w)) then s.initStore else portReady s (portOf (entryRow (s.rload0, w)))) = true) :
    rowLoad s w = moveRow s (entryRow (s.rload0, w)) := by
  unfold rowLoad
  simp only [hok, hnew, hused, Bool.not_true, Bool.false_eq_true, if_false, if_true]

theorem exec_rowLoad {s : State} (w : Word) (hopen : PortOpen s pgCALU) (hf : s.fuseErr = false) :
    exec (.rowLoad w) s = .next (rowLoad s w) := by
  have hwrite : regWrite s pgCALU 0xF04 w = rowLoad s w := by
    simp [regWrite, pagePresent_low (pg := pgCALU) hf (by decide) (by decide)]
  exact exec_write rfl hopen (by decide) hwrite (rowLoad_keeps (kd := kdA) (.refl s)).portKept

/-- Settles O28: a row load is a write of `CALU.RLOAD1`, and each of its cases is one of `rowLoad`. -/
theorem rowLoadSteersOneRow : Obligations.RowLoadSteersOneRow := by
  rintro w s row rfl hopen hf
  rw [exec_rowLoad w hopen hf]
  refine ⟨fun h => by rw [rowLoad_known h], fun hok hnew hidle k hspare => ⟨_, rfl, ?_⟩, fun hok hnew hused => ?_⟩
  · obtain ⟨hlive, hfuse⟩ := Bool.or_eq_false_iff.1 hnew
    rw [rowLoad_free hok hnew hidle hspare, steer_unknown hlive hfuse]
    exact ⟨by rw [updRowMem_frame], rfl⟩
  · have hkept := (rowLoad_keeps (kd := kdA) (w1 := w) (.refl s)).portKept
    rw [rowLoad_used hok hnew hused] at hkept ⊢
    rw [hkept.pins]

/-! ## Lost slices -/

/-- What the loss of slice `n` starts, with the slice already lost. -/
def lossStarts (s : State) (n arg0 : Nat) : State :=
  let s := addFault s { faultOf (Who.block 0) 1 4 with addr := n * Config.sliceBytes, akind := 2, unit := n, arg0 := arg0 }
  let s := allParts.foldl (orderDone s) ((List.range 8).foldl (loseAsk n (lastFault s)) s)
  lossAll (allParts.foldl (fun s p =>
    if hasPool s p && tableMeets s p (n * Config.sliceBytes) Config.sliceBytes then
      updPool (addFault s (faultOf (poolWho p) 5 6)) p fun x => { x with lost := true, lossDue := false }
    else s) s)

theorem loseSlice_eq (s : State) (n arg0 : Nat) :
    loseSlice s n arg0 = if capCH s ≤ n || (slice s n).lost then s
      else lossStarts (updSlice s n fun x => { x with lost := true }) n arg0 := rfl

theorem lossStarts_keeps {kd : Kind} {z s : State} {n arg0 : Nat} (h : Keeps kd z s) : Keeps kd z (lossStarts s n arg0) := by
  unfold lossStarts
  refine lossAll_keeps (foldl_keeps (foldl_keeps (foldl_keeps (addFault_keeps h) ?_) ?_) ?_)
  · exact fun _ _ h => loseAsk_keeps h
  · exact fun _ _ h => orderDone_keeps h
  · exact fun _ _ h => keeps_ite (updPool_keeps (addFault_keeps h)) h

/-- The slices' flags of loss are fixed too. -/
abbrev kdLost : Kind := { cad := false, conf := false, port := false, lost := true }

theorem Keeps.slice_lost {s t : State} (h : Keeps kdLost s t) (k : Nat) : (slice t k).lost = (slice s k).lost := by
  have e := h.fixed
  simp only [fixedOf, Fixed.mk.injEq, if_true] at e
  obtain ⟨-, -, -, -, -, -, -, -, -, -, -, -, -, -, -, -, -, -, -, hlost, -⟩ := e
  have hk : (t.slices.toList.map (·.lost))[(Fin.ofNat 8 k : Nat)]? = (s.slices.toList.map (·.lost))[(Fin.ofNat 8 k : Nat)]? := by
    rw [hlost]
  have hlt : k % 8 < 8 := Nat.mod_lt k (by decide)
  simpa [slice, Vector.getElem?_eq_getElem hlt] using hk

theorem Keeps.capCH_eq {k : Kind} {s t : State} (h : Keeps k s t) : capCH t = capCH s := by
  have e := h.fixed
  simp only [fixedOf, Fixed.mk.injEq] at e
  obtain ⟨-, -, -, hinit, -, -, -, -, -, -, -, -, -, -, -, -, -, -, -, -, hcap⟩ := e
  simp only [Prod.mk.injEq] at hinit
  obtain ⟨hfuse, herr, -⟩ := hinit
  simp only [capCH, cap, hcap, hfuse, herr]

theorem capCH_loseSlice (s : State) (n arg0 : Nat) : capCH (loseSlice s n arg0) = capCH s :=
  (loseSlice_keeps (kd := kdA) rfl (.refl s)).capCH_eq

theorem lost_loseSlice (s : State) {n : Nat} (hn : n < 8) (arg0 : Nat) {k : Nat} (hk : k < 8) :
    (slice (loseSlice s n arg0) k).lost = ((slice s k).lost || (k == n && decide (k < capCH s))) := by
  rw [loseSlice_eq]
  by_cases hc : capCH s ≤ n
  · rw [if_pos (by simp [hc])]
    by_cases e : k = n
    · simp [e, hc]
    · simp [e]
  by_cases hl : (slice s n).lost
  · rw [if_pos (by simp [hl])]
    by_cases e : k = n
    · simp [e, hl]
    · simp [e]
  rw [if_neg (by simp [hc, hl]), (lossStarts_keeps (.refl _)).slice_lost k]
  by_cases e : k = n
  · rw [e, slice_updSlice_same]
    simp
    omega
  · rw [slice_updSlice_ne s hn hk e]
    simp [e]

theorem lost_loseSlices (s : State) (bits : Nat) {k : Nat} (hk : k < 8) :
    (slice (loseSlices s bits) k).lost = ((slice s k).lost || (bitOf bits k && decide (k < capCH s))) := by
  have hlt {a : Nat} (ha : a ∈ bitsOf 8 bits) : a < 8 := by simpa using (List.mem_filter.1 ha).1
  have h := foldl_read (P := fun u => capCH u = capCH s) (g := fun u => (slice u k).lost) (f := fun s n => loseSlice s n 1) (p := k)
    (F := fun x => x || decide (k < capCH s)) (l := bitsOf 8 bits) (List.nodup_range.filter _)
    (fun u a _ hu => by rw [capCH_loseSlice, hu])
    (fun u a ha hu hne => by simp [lost_loseSlice u (hlt ha) 1 hk, Ne.symm hne])
    (fun u hu => by simp [lost_loseSlice u hk 1 hk, hu]) (s := s) rfl
  have hmem : k ∈ bitsOf 8 bits ↔ bitOf bits k = true := by simp [bitsOf, hk]
  rw [loseSlices, h]
  by_cases hb : bitOf bits k = true
  · simp [hmem, hb]
  · simp [hmem, hb]

/-- Memory, channels and slices are the same. -/
def SameStores (s t : State) : Prop := t.mem = s.mem ∧ t.chans = s.chans ∧ t.slices = s.slices

theorem sameStores_addFault {s u : State} (h : SameStores s u) (f : FaultRec) : SameStores s (addFault u f) := by
  unfold addFault bump
  dsimp only
  split_ifs <;> exact h

theorem sameStores_orderDone {s u : State} (h : SameStores s u) (was : State) (p : Nat) : SameStores s (orderDone was u p) := by
  unfold orderDone
  refine foldl_keeps h fun v st hv => ?_
  dsimp only
  split_ifs <;> exact hv

theorem sameStores_lossAll {s u : State} (h : SameStores s u) : SameStores s (lossAll u) := by
  unfold lossAll
  refine foldl_keeps h fun v p hv => ?_
  split_ifs <;> exact hv

theorem chan_of_chans {s t : State} (h : t.chans = s.chans) (ch : Nat) : chan t ch = chan s ch := by
  simp only [chan, h]

theorem slice_of_slices {s t : State} (h : t.slices = s.slices) (k : Nat) : slice t k = slice s k := by
  simp only [slice, h]

/-- Where no channel holds a unit, the loss of a slice asks none. -/
theorem sameStores_lossStarts {s : State} (hfree : ∀ ch, (chan s ch).unit = none) (n arg0 : Nat) :
    SameStores s (lossStarts s n arg0) := by
  have hask (d : Nat) (u : State) (ch : Nat) (hu : SameStores s u) : loseAsk n d u ch = u := by
    have hnone : (chan u ch).unit = none := by rw [chan_of_chans hu.2.1, hfree]
    simp only [loseAsk, hnone, Option.any_none, Bool.not_false, if_true]
  unfold lossStarts
  refine sameStores_lossAll (foldl_keeps (foldl_keeps (foldl_keeps (sameStores_addFault ⟨rfl, rfl, rfl⟩ _) ?_) ?_) ?_)
  · exact fun u ch hu => by rwa [hask _ u ch hu]
  · exact fun u p hu => sameStores_orderDone hu _ p
  · intro u p hu
    split_ifs
    · exact sameStores_addFault hu _
    · exact hu

/-- Memory, channels and slices are the same but for flags of loss. -/
def SameButLost (s t : State) : Prop :=
  t.mem = s.mem ∧ t.chans = s.chans ∧ ∀ k < 8, slice t k = { slice s k with lost := (slice t k).lost }

theorem sameButLost_loseSlice {s u : State} (hfree : ∀ ch, (chan s ch).unit = none) (h : SameButLost s u) {n : Nat} (hn : n < 8)
    (arg0 : Nat) : SameButLost s (loseSlice u n arg0) := by
  obtain ⟨hmem, hchans, hslices⟩ := h
  rw [loseSlice_eq]
  split_ifs
  · exact ⟨hmem, hchans, hslices⟩
  · obtain ⟨hm, hc, hs⟩ := sameStores_lossStarts (s := updSlice u n fun x => { x with lost := true })
      (fun ch => (congrArg Channel.unit (chan_of_chans hchans ch)).trans (hfree ch)) n arg0
    refine ⟨hm.trans hmem, hc.trans hchans, fun k hk => ?_⟩
    rw [slice_of_slices hs]
    by_cases e : k = n
    · subst e
      rw [slice_updSlice_same, hslices k hk]
    · rw [slice_updSlice_ne u hn hk e]
      exact hslices k hk

theorem sameButLost_loseSlices {s : State} (hfree : ∀ ch, (chan s ch).unit = none) (bits : Nat) : SameButLost s (loseSlices s bits) := by
  refine foldl_keeps_mem ⟨rfl, rfl, fun _ _ => rfl⟩ fun u n hn hu => sameButLost_loseSlice hfree hu ?_ 1
  simpa using (List.mem_filter.1 hn).1

theorem exec_sliceLose {s : State} (bits : BitVec 8) (hopen : PortOpen s pgSTORE) (hf : s.fuseErr = false) :
    exec (.sliceLose bits) s = .next (loseSlices s bits.toNat) := by
  have hwrite : regWrite s pgSTORE 0xF30 (BitVec.ofNat 32 bits.toNat) = loseSlices s bits.toNat := by
    have hp := pagePresent_low (pg := pgSTORE) hf (by decide) (by decide)
    have hb : (BitVec.ofNat 32 bits.toNat).toNat % 256 = bits.toNat := by
      rw [ofNat32_bits bits (by decide), Nat.mod_eq_of_lt bits.isLt]
    have hcalu : pgSTORE ≠ pgCALU := by decide
    simp only [regWrite, hp, hcalu, hb]
    rfl
  exact exec_write rfl hopen (by decide) hwrite (loseSlices_keeps (kd := kdA) rfl (.refl s)).portKept

/-- Settles O29: a run of losses, one slice each. -/
theorem lostSlicesAreThoseNamed : Obligations.LostSlicesAreThoseNamed := by
  intro bits n s hopen hf
  have hlink : exec (.sliceLinkFail n) s = .next (loseSlice s n 0) := by
    exact act_kept (f := fun s => loseSlice s n 0) ⟨hopen.1.1, hopen.1.2, hf⟩ (loseSlice_keeps (kd := kdA) rfl (.refl s))
  refine ⟨⟨_, exec_sliceLose bits hopen hf, fun k hk => lost_loseSlices s _ hk, fun hfree => sameButLost_loseSlices hfree _⟩,
    _, hlink, fun k hk => lost_loseSlice s n.isLt 0 hk, fun hfree => ?_⟩
  exact sameButLost_loseSlice hfree ⟨rfl, rfl, fun _ _ => rfl⟩ n.isLt 0

end Sys2Proof.Machine
end

section
/-! Commits: what a switch, its follow-ons and the end of a commit do to the words of the pages (R434 to R438, R444). -/

namespace Sys2Proof.Machine

open Sys2Proof

/-! ## Words of the pages -/

theorem commitStat_setCommitStat {s : State} (h : wordsAsc s.pageStat) (pg v q : Nat) :
    commitStat (setCommitStat s pg v) q = if q = pg then v % 2 ^ 32 else commitStat s q := by
  simp only [commitStat, setCommitStat]
  rw [wordsGet_set h _ _ _ _ _ fun _ => rfl]
  split_ifs <;> simp

theorem setCommitStat_asc {s : State} (h : wordsAsc s.pageStat) (pg v : Nat) : wordsAsc (setCommitStat s pg v).pageStat :=
  wordsSet_asc h

/-- The words that a run of `setCommitStat` writes. -/
theorem commitStat_foldl {s : State} (h : wordsAsc s.pageStat) (word : Nat → Nat) (l : List Nat) (q : Nat) :
    commitStat (l.foldl (fun s pg => setCommitStat s pg (word pg)) s) q =
      if l.contains q then word q % 2 ^ 32 else commitStat s q := by
  induction l generalizing s with
  | nil => simp
  | cons a l ih =>
    rw [List.foldl_cons, ih (setCommitStat_asc h a _), commitStat_setCommitStat h]
    by_cases hq : q ∈ l
    · simp [hq]
    · by_cases ha : q = a <;> simp [hq, ha]

theorem foldl_setCommitStat_frame (s : State) (word : Nat → Nat) (l : List Nat) :
    l.foldl (fun s pg => setCommitStat s pg (word pg)) s =
      { s with pageStat := (l.foldl (fun s pg => setCommitStat s pg (word pg)) s).pageStat } :=
  foldl_keeps (P := fun u => u = { s with pageStat := u.pageStat }) rfl fun u pg hu => by
    rw [setCommitStat, hu]

theorem foldl_setCommitStat_asc {s : State} (h : wordsAsc s.pageStat) (word : Nat → Nat) (l : List Nat) :
    wordsAsc (l.foldl (fun s pg => setCommitStat s pg (word pg)) s).pageStat :=
  foldl_keeps (P := fun u => wordsAsc u.pageStat) h fun _ _ hu => setCommitStat_asc hu _ _

/-! ## The switch -/

/-- The shadow and the values in effect are ordered. -/
def PagesOrdered (s : State) : Prop := wordsAsc s.shadow ∧ wordsAsc s.effect

theorem eff_switchPage {s : State} (h : PagesOrdered s) (pg q : Nat) {o : Nat} (ho : o < 0x1000) :
    eff (switchPage s pg) q o = if q = pg then shadowW s q o else eff s q o := by
  simp only [eff, switchPage]
  rw [wordsGet_copyPage h.2 h.1, wordAddr_div ho]
  split_ifs <;> rfl

theorem switchPage_ordered {s : State} (h : PagesOrdered s) (pg : Nat) : PagesOrdered (switchPage s pg) :=
  ⟨h.1, copyPage_asc h.2 h.1⟩

theorem eff_foldl_switchPage {s : State} (h : PagesOrdered s) (v : List Nat) (q : Nat) {o : Nat} (ho : o < 0x1000) :
    eff (v.foldl switchPage s) q o = if v.contains q then shadowW s q o else eff s q o := by
  induction v generalizing s with
  | nil => simp
  | cons a v ih =>
    rw [List.foldl_cons, ih (switchPage_ordered h a), eff_switchPage h a q ho]
    rw [show shadowW (switchPage s a) q o = shadowW s q o from rfl]
    by_cases hq : q ∈ v
    · simp [hq]
    · by_cases ha : q = a <;> simp [hq, ha]

theorem foldl_switchPage_frame (s : State) (v : List Nat) :
    v.foldl switchPage s = { s with effect := (v.foldl switchPage s).effect } :=
  foldl_keeps (P := fun u => u = { s with effect := u.effect }) rfl fun u pg hu => by
    rw [switchPage, hu]

theorem foldl_switchPage_ordered {s : State} (h : PagesOrdered s) (v : List Nat) : PagesOrdered (v.foldl switchPage s) :=
  foldl_keeps (P := PagesOrdered) h fun _ _ hu => switchPage_ordered hu _

/-! ## Follow-ons -/

/-- Work that leaves the fields of the pages and the port; the wingbeat table is not among them. -/
abbrev kdC : Kind := { cad := false, conf := true, port := true, lost := false }

theorem pageFollow_conf {s0 s : State} {v : List Nat} {pg : Nat} (hpg : pg ≠ pgXLAT) : Keeps kdC s (pageFollow s0 v s pg) := by
  have h : Keeps kdC s s := .refl s
  unfold pageFollow
  rw [if_neg hpg]
  split_ifs
  · exact boundaries_keeps h
  · exact ⟨rfl, id, id⟩
  · exact pwrFollow_keeps h
  · exact partFollow_keeps h
  · exact strmFollow_keeps h
  · exact poolFollow_keeps h
  · exact ftabWrite_keeps h
  · exact h
  · exact mempFollow_keeps h
  · exact foldl_keeps h fun _ _ hu => updFab_keeps hu
  · exact aryFollow_keeps h
  · exact h

/-- The mapping work of `XLAT`, before `MAP_COUNT` clears. -/
def xlatWork (s0 : State) (v : List Nat) (s : State) : State :=
  applyMapFields (allParts.foldl (fun s p => if areaChanges s0 v p then areaReset s p else s) s) (mapReq s0 v)

theorem xlatWork_keeps (s0 : State) (v : List Nat) (s : State) : Keeps kdC s (xlatWork s0 v s) :=
  applyMapFields_keeps (foldl_keeps (.refl s) fun _ _ hu => keeps_ite (areaReset_keeps hu) hu)

theorem pageFollow_xlat (s0 s : State) (v : List Nat) :
    pageFollow s0 v s pgXLAT = setEff (setShadow (xlatWork s0 v s) pgXLAT 0x110 0) pgXLAT 0x110 0 := rfl

/-- The fields of the pages and the port are the same, but for `MAP_COUNT`, which clears where `z` says so (R444). -/
structure Followed (z : Prop) (s t : State) : Prop where
  stat : t.pageStat = s.pageStat
  commits : t.commits = s.commits
  held : t.cfgHeld = s.cfgHeld
  gstat : t.gstat = s.gstat
  ord : ConfigOrdered s → ConfigOrdered t
  words : ConfigOrdered s → ∀ q o : Nat, o < 0x1000 →
    (¬(z ∧ q = pgXLAT ∧ o = 0x110) → shadowW t q o = shadowW s q o ∧ eff t q o = eff s q o) ∧
    (z ∧ q = pgXLAT ∧ o = 0x110 → shadowW t q o = 0 ∧ eff t q o = 0)

theorem Keeps.confEq {s t : State} (h : Keeps kdC s t) :
    t.shadow = s.shadow ∧ t.effect = s.effect ∧ t.pageStat = s.pageStat ∧ t.commits = s.commits ∧ t.cfgHeld = s.cfgHeld ∧
      t.gstat = s.gstat := by
  have e := h.fixed
  simp only [fixedOf, Fixed.mk.injEq, if_true] at e
  tauto

theorem Keeps.followed {s t : State} (h : Keeps kdC s t) : Followed False s t := by
  obtain ⟨hshadow, heffect, hstat, hcommits, hheld, hgstat⟩ := h.confEq
  refine ⟨hstat, hcommits, hheld, hgstat, h.ord, fun _ q o _ => ⟨fun _ => ?_, fun hz => hz.1.elim⟩⟩
  simp only [shadowW, eff, hshadow, heffect, and_self]

theorem Followed.trans {y z : Prop} {s t u : State} (h : Followed y s t) (g : Followed z t u) : Followed (y ∨ z) s u := by
  refine ⟨g.stat.trans h.stat, g.commits.trans h.commits, g.held.trans h.held, g.gstat.trans h.gstat, g.ord ∘ h.ord,
    fun hs q o ho => ?_⟩
  obtain ⟨hother, hzero⟩ := h.words hs q o ho
  obtain ⟨gother, gzero⟩ := g.words (h.ord hs) q o ho
  by_cases hz : z ∧ q = pgXLAT ∧ o = 0x110
  · exact ⟨fun hn => absurd ⟨.inr hz.1, hz.2⟩ hn, fun _ => gzero hz⟩
  · obtain ⟨es, ee⟩ := gother hz
    rw [es, ee]
    refine ⟨fun hn => hother fun hy => hn ⟨.inl hy.1, hy.2⟩, fun hyz => hzero ⟨?_, hyz.2⟩⟩
    exact hyz.1.resolve_right fun h => hz ⟨h, hyz.2⟩

theorem mapCount_followed (s : State) : Followed True s (setEff (setShadow s pgXLAT 0x110 0) pgXLAT 0x110 0) := by
  refine ⟨rfl, rfl, rfl, rfl, fun o => ((setEff_keeps (po := true) (setShadow_keeps (.refl s))).ord o), fun ⟨hs, he, _⟩ q o ho => ?_⟩
  have hshadow : shadowW (setEff (setShadow s pgXLAT 0x110 0) pgXLAT 0x110 0) q o = if q = pgXLAT ∧ o = 0x110 then 0 else shadowW s q o := by
    change shadowW (setShadow s pgXLAT 0x110 0) q o = _
    rw [shadowW_setShadow hs (by decide) ho]
    simp
  have heff : eff (setEff (setShadow s pgXLAT 0x110 0) pgXLAT 0x110 0) q o = if q = pgXLAT ∧ o = 0x110 then 0 else eff s q o := by
    rw [eff_setEff (s := setShadow s pgXLAT 0x110 0) he (by decide) ho]
    rfl
  rw [hshadow, heff]
  by_cases hq : q = pgXLAT ∧ o = 0x110
  · simp [hq]
  · simp [hq]

theorem pageFollow_followed (s0 s : State) (v : List Nat) (pg : Nat) : Followed (pg = pgXLAT) s (pageFollow s0 v s pg) := by
  by_cases hpg : pg = pgXLAT
  · have h := (xlatWork_keeps s0 v s).followed.trans (mapCount_followed _)
    subst hpg
    simpa [pageFollow_xlat] using h
  · simpa [hpg] using (pageFollow_conf (s0 := s0) (s := s) (v := v) hpg).followed

theorem foldl_pageFollow_followed (s0 s : State) (v l : List Nat) :
    Followed (pgXLAT ∈ l) s (l.foldl (fun t pg => pageFollow s0 v t pg) s) := by
  induction l generalizing s with
  | nil => simpa using (Keeps.refl (kd := kdC) s).followed
  | cons a l ih =>
    have h := (pageFollow_followed s0 s v a).trans (ih (pageFollow s0 v s a))
    simpa only [List.foldl_cons, List.mem_cons, eq_comm] using h

/-- What the switch of the pages `v` does to the words of every page. -/
theorem switchPages_words {s : State} (hord : ConfigOrdered s) (v : List Nat) (q : Nat) {o : Nat} (ho : o < 0x1000) :
    eff (switchPages s v) q o = (if v.contains q then settledWord q o (shadowW s q o) else eff s q o) ∧
    shadowW (switchPages s v) q o = if v.contains q then settledWord q o (shadowW s q o) else shadowW s q o := by
  have hpages : PagesOrdered s := ⟨hord.1, hord.2.1⟩
  have hframe := foldl_switchPage_frame s v
  have hmid : ConfigOrdered (v.foldl switchPage s) := by
    rw [hframe]
    exact ⟨hord.1, (foldl_switchPage_ordered hpages v).2, hord.2.2⟩
  have hshadow : shadowW (v.foldl switchPage s) q o = shadowW s q o := by
    rw [hframe]
    rfl
  have heff := eff_foldl_switchPage hpages v q ho
  obtain ⟨hother, hzero⟩ := (foldl_pageFollow_followed s (v.foldl switchPage s) v v).words hmid q o ho
  by_cases hz : pgXLAT ∈ v ∧ q = pgXLAT ∧ o = 0x110
  · obtain ⟨es, ee⟩ := hzero hz
    obtain ⟨hv, rfl, rfl⟩ := hz
    have hc : v.contains pgXLAT = true := List.contains_iff_mem.2 hv
    simp only [switchPages, es, ee, hc, if_true, settledWord, and_self]
  · obtain ⟨es, ee⟩ := hother hz
    simp only [switchPages, es, ee, heff, hshadow]
    by_cases hv : v.contains q = true
    · have hset : settledWord q o (shadowW s q o) = shadowW s q o :=
        if_neg fun h => hz ⟨by rw [← h.1]; exact List.contains_iff_mem.1 hv, h⟩
      simp only [hv, if_true, hset, and_self]
    · simp only [hv, Bool.false_eq_true, if_false, and_self]

theorem switchPages_kept (s : State) (v : List Nat) :
    (switchPages s v).pageStat = s.pageStat ∧ (switchPages s v).commits = s.commits ∧ (switchPages s v).cfgHeld = s.cfgHeld ∧
      (switchPages s v).gstat = s.gstat := by
  have h := foldl_pageFollow_followed s (v.foldl switchPage s) v v
  have hframe := foldl_switchPage_frame s v
  refine ⟨h.stat.trans ?_, h.commits.trans ?_, h.held.trans ?_, h.gstat.trans ?_⟩ <;> rw [hframe]

theorem switchPages_ord {s : State} (h : ConfigOrdered s) (v : List Nat) : ConfigOrdered (switchPages s v) :=
  (switchPages_keeps (po := true) (.refl s)).ord h

/-! ## The end of a commit -/

theorem unjoin_frame (s : State) (c : Commit) : unjoin s c = { s with live := (unjoin s c).live } := by
  unfold unjoin
  split_ifs
  · exact foldl_keeps (P := fun u => u = { s with live := u.live }) rfl fun u pg hu => by rw [setLive, hu]
  · rfl

theorem pageJoined_clear {s : State} (h : wordsAsc s.live) (pg q : Nat) :
    pageJoined (setLive s 0 pg 0x008 (live s 0 pg 0x008 &&& 2)) q = if q = pg then false else pageJoined s q := by
  by_cases e : q = pg
  · subst e
    rw [if_pos rfl, pageJoined, live_setLive_same h, Nat.mod_eq_of_lt (Nat.lt_of_le_of_lt Nat.and_le_right (by decide))]
    simp [bitOf]
  · have hk : liveKey 0 q 0x008 ≠ liveKey 0 pg 0x008 := by
      unfold liveKey wordAddr
      omega
    rw [if_neg e, pageJoined, live_setLive_ne h hk, pageJoined]

theorem foldl_unjoin {s : State} (h : wordsAsc s.live) (l : List Nat) (q : Nat) :
    pageJoined (l.foldl (fun s pg => setLive s 0 pg 0x008 (live s 0 pg 0x008 &&& 2)) s) q =
      if l.contains q then false else pageJoined s q := by
  induction l generalizing s with
  | nil => simp
  | cons a l ih =>
    rw [List.foldl_cons, ih (setLive_asc h _ _ _ _), pageJoined_clear h]
    by_cases hq : q ∈ l
    · simp [hq]
    · by_cases ha : q = a <;> simp [hq, ha]

theorem unjoin_joined {s : State} (h : wordsAsc s.live) {c : Commit} (hg : c.group = true) {q : Nat} (hq : c.pages.contains q = true) :
    pageJoined (unjoin s c) q = false := by
  rw [unjoin, if_pos hg, foldl_unjoin h, if_pos hq]

/-- The word of `COMMITSTAT` at the end of a commit. -/
def endWord (c : Commit) (bad : Option (Nat × Bad)) (pg : Nat) : Nat :=
  match bad with
  | none => 2
  | some (q, b) => 2 + b.status * 2 ^ 8 + if pg = q || c.group && pg = pgBLK then b.off * 2 ^ 16 + b.index % 16 * 2 ^ 28 else 0

/-- The words of `COMMITSTAT` at the end of a commit, and `GSTAT` where it is a group's. -/
def endStats (s : State) (c : Commit) (bad : Option (Nat × Bad)) : State :=
  let t := (statPages c).foldl (fun s pg => setCommitStat s pg (endWord c bad pg)) s
  { t with gstat := if c.group then (bad.map (·.1)).getD 0 else t.gstat }

/-- The restore's bit clears (R447). -/
def clearRestore (s : State) : State :=
  setEff (setShadow s pgSNAP 0x100 (shadowW s pgSNAP 0x100 &&& 0x17)) pgSNAP 0x100 (eff s pgSNAP 0x100 &&& 0x17)

/-- Whether the end of a commit clears the restore's bit. -/
def endsRestore (s : State) (c : Commit) : Bool := c.pages.contains pgSNAP && bitOf (shadowW s pgSNAP 0x100) 3

theorem endStats_eq (s : State) (c : Commit) (bad : Option (Nat × Bad)) :
    endStats s c bad = { s with
      pageStat := (endStats s c bad).pageStat
      gstat := if c.group then (bad.map (·.1)).getD 0 else s.gstat } := by
  unfold endStats
  rw [foldl_setCommitStat_frame]

/-- The last of a commit's end: its restore's bit clears, and it is no longer in progress. -/
def leaveCommit (c : Commit) (s : State) : State :=
  let s := if endsRestore s c then clearRestore s else s
  { s with commits := s.commits.filter fun x => x != c }

theorem endCommit_eq (s : State) (c : Commit) (bad : Option (Nat × Bad)) :
    endCommit s c bad = leaveCommit c (endStats s c bad) := by
  have hstats : (let t := (statPages c).foldl (fun s pg => setCommitStat s pg (endWord c bad pg)) s
      if c.group then { t with gstat := (bad.map (·.1)).getD 0 } else t) = endStats s c bad := by
    unfold endStats
    cases c.group <;> rfl
  exact congrArg (leaveCommit c) hstats

theorem leaveCommit_plain {s : State} {c : Commit} (hc : s.commits = [c]) (hsnap : endsRestore s c = false) :
    leaveCommit c s = { s with commits := [] } := by
  unfold leaveCommit
  simp only [hsnap, Bool.false_eq_true, if_false, hc]
  simp

theorem commitStat_endStats {s : State} (h : wordsAsc s.pageStat) (c : Commit) (bad : Option (Nat × Bad)) (q : Nat) :
    commitStat (endStats s c bad) q = if (statPages c).contains q then endWord c bad q % 2 ^ 32 else commitStat s q :=
  commitStat_foldl h _ _ q

/-- The end of a commit that restores nothing. -/
theorem endCommit_plain {s : State} {c : Commit} {bad : Option (Nat × Bad)} (hc : s.commits = [c]) (hsnap : endsRestore s c = false) :
    endCommit s c bad = { endStats s c bad with commits := [] } := by
  have hkept := endStats_eq s c bad
  rw [endCommit_eq, leaveCommit_plain]
  · rw [hkept]
    exact hc
  · rw [hkept]
    exact hsnap

/-! ## A commit that goes on -/

theorem endsRestore_switchPages {s : State} (hord : ConfigOrdered s) {c : Commit} (h : endsRestore s c = false) :
    endsRestore (switchPages s c.pages) c = false := by
  have hword := (switchPages_words hord c.pages pgSNAP (o := 0x100) (by decide)).2
  have hset : settledWord pgSNAP 0x100 (shadowW s pgSNAP 0x100) = shadowW s pgSNAP 0x100 := if_neg (by decide)
  rw [hset, ite_self] at hword
  rw [endsRestore, hword]
  exact h

/-- A commit that passes, as one that its follow-on keeps in progress or as one that ends. -/
theorem passCommit_cases (s : State) (c : Commit) :
    longCommit s c = true ∧ passCommit s c false id = (let t := unjoin (switchPages s c.pages) c
      { t with commits := t.commits.map fun x => if x = c then { c with stage := .follow } else x }) ∨
    longCommit s c = false ∧ passCommit s c false id = endCommit (unjoin (switchPages s c.pages) c) c none := by
  unfold passCommit longCommit
  cases c.pages.any (hasFollow s c.pages) <;> simp

theorem passCommit_passed {s : State} {c : Commit} (hord : ConfigOrdered s) (hc : s.commits = [c]) (hheld : s.cfgHeld = [])
    (hsnap : endsRestore s c = false) : CommitPassed s (passCommit s c false id) c := by
  obtain ⟨hstat, hcommits, hhold, -⟩ := switchPages_kept s c.pages
  have hasc : ConfigOrdered (switchPages s c.pages) := switchPages_ord hord _
  have hframe := unjoin_frame (switchPages s c.pages) c
  have hjoin {q : Nat} (hg : c.group = true) (hq : c.pages.contains q = true) :
      pageJoined (unjoin (switchPages s c.pages) c) q = false := unjoin_joined hasc.2.2.1 hg hq
  have hwords := fun q o (ho : o < 0x1000) => switchPages_words hord c.pages q ho
  obtain ⟨hlong, e⟩ | ⟨hlong, e⟩ := passCommit_cases s c
  · refine ⟨fun hg => ⟨fun q hq => ?_, fun h => by simp [hlong] at h⟩, fun q o ho => ?_, fun q => ?_, ?_, ?_⟩
    · rw [e]
      exact hjoin hg hq
    · rw [e, hframe]
      exact hwords q o ho
    · rw [e, hframe, hlong, if_pos rfl]
      simp only [commitStat, hstat]
    · rw [e, hframe, hlong]
      simp [hcommits, hc]
    · rw [e, hframe]
      exact hhold.trans hheld
  · have hend : passCommit s c false id = { endStats (unjoin (switchPages s c.pages) c) c none with commits := [] } := by
      rw [e, endCommit_plain]
      · rw [hframe]
        exact hcommits.trans hc
      · rw [hframe]
        exact endsRestore_switchPages hord hsnap
    have hstats := endStats_eq (unjoin (switchPages s c.pages) c) c none
    refine ⟨fun hg => ⟨fun q hq => ?_, fun _ => ?_⟩, fun q o ho => ?_, fun q => ?_, ?_, ?_⟩
    · rw [hend, hstats]
      exact hjoin hg hq
    · rw [hend, hstats, hg]
      rfl
    · rw [hend, hstats, hframe]
      exact hwords q o ho
    · have h := commitStat_endStats (s := unjoin (switchPages s c.pages) c) (by rw [hframe]; exact hasc.2.2.2.1) c none q
      rw [hend, hlong, if_neg (by decide)]
      refine h.trans ?_
      rw [hframe]
      simp only [commitStat, hstat, endWord]
      rfl
    · rw [hend, hlong]
      rfl
    · rw [hend, hstats, hframe]
      exact hhold.trans hheld

/-- The slot that overlaps shows in `WBT.INDEX` (R303). -/
def showOverlap (s : State) (bad : Nat × Bad) : State :=
  if bad.1 = pgWBT && bad.2.off = 0x110 then setLive s 0 pgWBT 0xF00 ((slotOverlap (shadowTable s)).getD 0) else s

theorem showOverlap_frame (s : State) (bad : Nat × Bad) : showOverlap s bad = { s with live := (showOverlap s bad).live } := by
  unfold showOverlap
  split_ifs <;> rfl

theorem showOverlap_asc {s : State} (h : wordsAsc s.live) (bad : Nat × Bad) : wordsAsc (showOverlap s bad).live := by
  unfold showOverlap
  split_ifs
  · exact setLive_asc h _ _ _ _
  · exact h

theorem refuseCommit_eq {s : State} {c : Commit} (bad : Nat × Bad) (hc : s.commits = [c]) (hsnap : endsRestore s c = false) :
    refuseCommit s c bad = { endStats (unjoin (showOverlap s bad) c) c (some bad) with commits := [] } := by
  have hframe := unjoin_frame (showOverlap s bad) c
  have hshow := showOverlap_frame s bad
  have hdef : refuseCommit s c bad = endCommit (unjoin (showOverlap s bad) c) c (some bad) := rfl
  rw [hdef, endCommit_plain]
  · rw [hframe, hshow]
    exact hc
  · rw [hframe, hshow]
    exact hsnap

theorem refuseCommit_refused {s : State} {c : Commit} {q : Nat} {b : Bad} (hord : ConfigOrdered s) (hc : s.commits = [c])
    (hsnap : endsRestore s c = false) : CommitRefused s (refuseCommit s c (q, b)) c q b := by
  have hframe := unjoin_frame (showOverlap s (q, b)) c
  have hshow := showOverlap_frame s (q, b)
  have hstats := endStats_eq (unjoin (showOverlap s (q, b)) c) c (some (q, b))
  rw [refuseCommit_eq (q, b) hc hsnap]
  refine ⟨?_, fun hg p hp => ?_, fun p => ?_⟩
  · rw [hstats, hframe, hshow]
    rfl
  · rw [hstats]
    exact unjoin_joined (showOverlap_asc hord.2.2.1 _) hg hp
  · have hpages : (unjoin (showOverlap s (q, b)) c).pageStat = s.pageStat := by rw [hframe, hshow]
    refine (commitStat_endStats (hpages ▸ hord.2.2.2.1) c (some (q, b)) p).trans ?_
    simp only [commitStat, hpages, endWord, Bool.or_eq_true, Bool.and_eq_true, decide_eq_true_eq]

/-- A commit that waits no longer, and that restores nothing, passes or is refused. -/
theorem tryCommit_go {s : State} {c : Commit} (hstage : c.stage = .waiting) (hc : s.commits = [c])
    (hwait : commitWaits s c = false) (hsnap : endsRestore s c = false) :
    tryCommit s c = match commitBad s c.pages with
      | some b => refuseCommit s c b
      | none => passCommit s c false id := by
  have hrest : (c.pages = [pgSNAP] && bitOf (shadowW s pgSNAP 0x100) 3) = false := by
    by_contra h
    simp only [Bool.not_eq_false, Bool.and_eq_true, decide_eq_true_eq] at h
    simp [endsRestore, h] at hsnap
  have hin : (c.stage != .waiting || !(s.commits.contains c)) = false := by
    simp [hstage, hc]
  unfold tryCommit
  cases commitBad s c.pages with
  | none => simp only [hin, hwait, hrest, Bool.false_eq_true, if_false]
  | some b => simp only [hin, hwait, hrest, Bool.false_eq_true, if_false]

theorem tryCommit_started {s : State} {c : Commit} (h : c.stage ≠ .waiting) : tryCommit s c = s := by
  have hs : (c.stage != .waiting) = true := bne_iff_ne.2 h
  simp only [tryCommit, hs, Bool.true_or, if_true]

/-- Where no commit waits and no access is held, nothing goes on. -/
theorem cfgSettle_idle {s : State} (hheld : s.cfgHeld = []) (hc : ∀ c ∈ s.commits, c.stage ≠ .waiting) : cfgSettle s = s := by
  have hall : tryAll s = s := by
    refine foldl_keeps_mem (P := (· = s)) rfl fun u c hmem hu => ?_
    rw [hu]
    exact tryCommit_started (hc c hmem)
  unfold cfgSettle
  simp only [hall, hheld]
  rfl

theorem CommitPassed.settled {s t : State} {c : Commit} (h : CommitPassed s t c) : cfgSettle t = t := by
  obtain ⟨-, -, -, hcommits, hheld⟩ := h
  refine cfgSettle_idle hheld fun x hx => ?_
  rw [hcommits] at hx
  split_ifs at hx
  · rw [List.mem_singleton.1 hx]
    exact fun e => CommitStage.noConfusion e
  · cases hx

theorem CommitRefused.settled {s t : State} {c : Commit} {q : Nat} {b : Bad} (hheld : s.cfgHeld = []) (h : CommitRefused s t c q b) :
    cfgSettle t = t := by
  obtain ⟨hframe, -, -⟩ := h
  refine cfgSettle_idle ?_ ?_
  · rw [hframe]
    exact hheld
  · rw [hframe]
    exact fun _ h => nomatch h

end Sys2Proof.Machine
end

section
/-! The rows of commits: own commits, groups, the end of a wait and the end of a follow-on (R434 to R438). -/

namespace Sys2Proof.Machine

open Sys2Proof

/-! ## Starting a commit -/

theorem commitBegun_eq (s : State) (c : Commit) :
    commitBegun s c = { s with pageStat := (commitBegun s c).pageStat, commits := [c] } := by
  unfold commitBegun
  rw [foldl_setCommitStat_frame s fun _ => 1]

theorem commitBegun_ord {s : State} (h : ConfigOrdered s) (c : Commit) : ConfigOrdered (commitBegun s c) := by
  have hasc : wordsAsc (commitBegun s c).pageStat := foldl_setCommitStat_asc h.2.2.2.1 _ _
  rw [commitBegun_eq]
  exact ⟨h.1, h.2.1, h.2.2.1, hasc, h.2.2.2.2⟩

theorem commitBegun_keeps (s : State) (c : Commit) : Keeps kdM s (commitBegun s c) := by
  unfold commitBegun
  exact Keeps.updM.2 (foldl_keeps (.refl s) fun _ _ hu => setCommitStat_keeps hu)

theorem startCommit_quiet {s : State} (hquiet : s.commits = []) (c : Commit) (hstage : c.stage = .waiting) :
    startCommit s c.group c.pages = tryCommit (commitBegun s c) c := by
  have hc : ({ group := c.group, pages := c.pages, stage := .waiting } : Commit) = c := by
    rw [← hstage]
  have hlist : ((statPages c).foldl (fun s pg => setCommitStat s pg 1) s).commits ++ [c] = [c] := by
    rw [foldl_setCommitStat_frame s fun _ => 1, hquiet]
    rfl
  unfold startCommit commitBegun
  rw [hc]
  change tryCommit { (statPages c).foldl (fun s pg => setCommitStat s pg 1) s with
    commits := ((statPages c).foldl (fun s pg => setCommitStat s pg 1) s).commits ++ [c] } c = _
  rw [hlist]

theorem pageShadow_ary : ∀ ch : Chan, pageShadow (pgARY ch) = true := by decide

theorem pageShadow_memp : ∀ q : SlowPort, pageShadow (pgMEMP q) = true := by decide

theorem pageShadow_commitPage {c : Instr} {pg : Nat} (h : commitPage c = some pg) : pageShadow pg = true := by
  cases c with
  | svcVector ch | svcRun ch | commitPastSpare ch =>
    obtain rfl := Option.some.inj h
    exact pageShadow_ary ch
  | commitMemp q | slowPortDrain q | slowPortRetire q =>
    obtain rfl := Option.some.inj h
    exact pageShadow_memp q
  | commitCalu | commitFlt | commitWbt | commitPwr | commitPart | commitStrm | commitStore | commitXlat | xlatMap | xlatUnmap
  | commitPool | commitFtab | commitMir | commitSnap | commitRpg | commitFab | fabricPortRetire =>
    obtain rfl := Option.some.inj h
    decide
  | _ => cases h

theorem cfgWrite_quiet {s : State} {pg off : Nat} {v : Word} (hquiet : CfgQuiet s) (hinit : pg = pgBLK ∨ s.initFuse = true)
    (hoff : off < 0x1000) : cfgWrite s pg off v = cfgSettle (regWrite s pg off v) := by
  have hwait : accessWaits s (wordAddr pg off) = false := by
    unfold accessWaits
    simp only [wordAddr_div hoff, pageBusy_quiet hquiet, Bool.false_and, Bool.or_false]
    obtain hpg | hfuse := hinit
    · simp [hpg]
    · simp [hfuse]
  have hmod : wordAddr pg off % 0x1000 = off := by
    unfold wordAddr
    omega
  simp only [cfgWrite, cfgAccess, hquiet.1, hwait, accessDo, wordAddr_div hoff, hmod]
  rfl

theorem commitGo_quiet {s : State} {pg : Nat} (hquiet : CfgQuiet s) (hinit : s.initFuse = true) (hp : pagePresent s pg = true)
    (hshadow : pageShadow pg = true) : commitGo s pg = cfgSettle (tryCommit (commitBegun s (ownCommit pg)) (ownCommit pg)) := by
  have hwrite : regWrite s pg 0x010 1 = startCommit s false [pg] := by
    have hgo : bitOf (1 : Word).toNat 0 = true ∧ bitOf (1 : Word).toNat 1 = false := by decide
    simp only [regWrite, hp, writeCommit, hgo.1, hgo.2, hshadow, Bool.and_false, if_true]
    rfl
  rw [commitGo, cfgWrite_quiet hquiet (.inr hinit) (by decide), hwrite]
  exact congrArg cfgSettle (startCommit_quiet hquiet.2 (ownCommit pg) rfl)

/-- The row of an own commit that does not wait: its checks, and what they let go on. -/
theorem exec_ownCommit {c : Instr} {s : State} {pg : Nat} (hc : commitPage c = some pg) (hasked : commitAsked s c = true)
    (h : CommitReady s pg) :
    exec c s = .next (keepPins s (cfgSettle (tryCommit (commitBegun s (ownCommit pg)) (ownCommit pg)))) := by
  obtain ⟨hans, hquiet, hinit, hp, -⟩ := h
  rw [exec_commit hans hc hasked fun _ => pageBusy_quiet hquiet pgFAB, commitGo_quiet hquiet hinit hp (pageShadow_commitPage hc)]

theorem tryCommit_pins {s u : State} (h : Keeps kdM s u) (c : Commit) : keepPins s (tryCommit u c) = tryCommit u c :=
  (tryCommit_keeps h).pins_eq

/-! ## The outcomes -/

/-- A commit that passes, run from `u` as the row of `s`. -/
theorem commit_passes {i : Instr} {s u : State} {c : Commit} (hrow : exec i s = .next (keepPins s (cfgSettle (tryCommit u c))))
    (hkeep : Keeps kdM s u) (hord : ConfigOrdered u) (hc : u.commits = [c]) (hheld : u.cfgHeld = []) (hstage : c.stage = .waiting)
    (hwait : commitWaits u c = false) (hsnap : endsRestore u c = false) (hbad : commitBad u c.pages = none) :
    ∃ t : State, exec i s = .next t ∧ CommitPassed u t c := by
  have hpass := passCommit_passed hord hc hheld hsnap
  have htry : tryCommit u c = passCommit u c false id := by
    rw [tryCommit_go hstage hc hwait hsnap, hbad]
  have hsettled : cfgSettle (tryCommit u c) = tryCommit u c := by
    rw [htry]
    exact CommitPassed.settled hpass
  rw [← htry] at hpass
  exact ⟨_, by rw [hrow, hsettled, tryCommit_pins hkeep], hpass⟩

/-- A commit that is refused, run from `u` as the row of `s`. -/
theorem commit_refused {i : Instr} {s u : State} {c : Commit} {q : Nat} {b : Bad}
    (hrow : exec i s = .next (keepPins s (cfgSettle (tryCommit u c)))) (hkeep : Keeps kdM s u) (hord : ConfigOrdered u)
    (hc : u.commits = [c]) (hheld : u.cfgHeld = []) (hstage : c.stage = .waiting) (hwait : commitWaits u c = false)
    (hsnap : endsRestore u c = false) (hbad : commitBad u c.pages = some (q, b)) :
    exec i s = .next (refuseCommit u c (q, b)) ∧ CommitRefused u (refuseCommit u c (q, b)) c q b := by
  have href := refuseCommit_refused (q := q) (b := b) hord hc hsnap
  have htry : tryCommit u c = refuseCommit u c (q, b) := by
    rw [tryCommit_go hstage hc hwait hsnap, hbad]
  have hsettled : cfgSettle (tryCommit u c) = tryCommit u c := by
    rw [htry]
    exact CommitRefused.settled hheld href
  exact ⟨by rw [hrow, hsettled, tryCommit_pins hkeep, htry], href⟩

theorem endsRestore_begun (s : State) (c d : Commit) : endsRestore (commitBegun s c) d = endsRestore s d := by
  rw [commitBegun_eq]
  rfl

theorem endsRestore_other {s : State} {pg : Nat} (h : pg ≠ pgSNAP) : endsRestore s (ownCommit pg) = false := by
  simp [endsRestore, ownCommit, Ne.symm h]

/-- A row of `commitPage` that its shadow asks for restores nothing. -/
theorem endsRestore_own {c : Instr} {s : State} {pg : Nat} (hc : commitPage c = some pg) (hasked : commitAsked s c = true) :
    endsRestore s (ownCommit pg) = false := by
  by_cases hpg : pg = pgSNAP
  · cases c with
    | commitSnap =>
      obtain rfl := Option.some.inj hc
      have hbit : bitOf (shadowW s pgSNAP 0x100) 3 = false := by simpa [commitAsked] using hasked
      simp [endsRestore, hbit]
    | svcVector ch | svcRun ch | commitPastSpare ch =>
      obtain rfl := Option.some.inj hc
      exact absurd hpg (by unfold pgARY pgSNAP; omega)
    | commitMemp q | slowPortDrain q | slowPortRetire q =>
      obtain rfl := Option.some.inj hc
      exact absurd hpg (by unfold pgMEMP pgSNAP; omega)
    | commitCalu | commitFlt | commitWbt | commitPwr | commitPart | commitStrm | commitStore | commitXlat | xlatMap | xlatUnmap
    | commitPool | commitFtab | commitMir | commitRpg | commitFab | fabricPortRetire =>
      obtain rfl := Option.some.inj hc
      exact absurd hpg (by decide)
    | _ => cases hc
  · exact endsRestore_other hpg

/-- Settles O12: the row is the begin of an own commit, and its passing is that of every commit (`commit_passes`). -/
theorem commitTakesEffect : Obligations.CommitTakesEffect := by
  intro c s pg hc hasked hready hord hbad
  have hheld : (commitBegun s (ownCommit pg)).cfgHeld = [] := by
    rw [commitBegun_eq]
    exact hready.2.1.1
  exact commit_passes (exec_ownCommit hc hasked hready) (commitBegun_keeps _ _) (commitBegun_ord hord _) rfl hheld rfl
    hready.2.2.2.2 (by rw [endsRestore_begun, endsRestore_own hc hasked]) hbad

theorem slotOverlap_lt (t : WbTable) : (slotOverlap t).getD 0 < 512 := by
  cases h : slotOverlap t with
  | none => decide
  | some i =>
    have hi := List.mem_range.1 (List.mem_of_find?_eq_some h)
    exact Nat.lt_of_lt_of_le hi (Nat.min_le_right _ _)

/-- What the refusal of an own commit leaves in the live words. -/
theorem live_refuseOwn {s : State} {pg : Nat} {bad : Nat × Bad} (hc : s.commits = [ownCommit pg])
    (hsnap : endsRestore s (ownCommit pg) = false) : (refuseCommit s (ownCommit pg) bad).live = (showOverlap s bad).live := by
  rw [refuseCommit_eq bad hc hsnap, endStats_eq]
  rfl

/-- Settles O13: the refusal of a commit ends it and, for an overlap, writes `WBT.INDEX` (`commit_refused`,
`live_refuseOwn`). -/
theorem refusedCommitChangesNothing : Obligations.RefusedCommitChangesNothing := by
  intro c s pg bad hc hasked hready hord hbad
  have hbegun := commitBegun_eq s (ownCommit pg)
  have hheld : (commitBegun s (ownCommit pg)).cfgHeld = [] := by
    rw [hbegun]
    exact hready.2.1.1
  have hsnap : endsRestore (commitBegun s (ownCommit pg)) (ownCommit pg) = false := by
    rw [endsRestore_begun, endsRestore_own hc hasked]
  obtain ⟨hrow, hframe, -, hstat⟩ := commit_refused (exec_ownCommit hc hasked hready) (commitBegun_keeps _ _)
    (commitBegun_ord hord _) rfl hheld rfl hready.2.2.2.2 hsnap hbad
  have hlive := live_refuseOwn (bad := (pg, bad)) rfl hsnap
  generalize refuseCommit (commitBegun s (ownCommit pg)) (ownCommit pg) (pg, bad) = t at hrow hframe hstat hlive
  have hshow : (showOverlap (commitBegun s (ownCommit pg)) (pg, bad)).live =
      if pg = pgWBT ∧ bad.off = 0x110 then (setLive s 0 pgWBT 0xF00 ((slotOverlap (shadowTable s)).getD 0)).live else s.live := by
    rw [hbegun]
    unfold showOverlap
    simp only [Bool.and_eq_true, decide_eq_true_eq]
    split_ifs <;> rfl
  rw [hshow] at hlive
  refine ⟨t, hrow, ?_, fun hno => ?_, fun hpg hoff => ?_, fun q hq => ?_, ?_⟩
  · rw [hframe, hbegun]
    simp [hready.2.1.2, ownCommit]
  · rw [hlive, if_neg (by tauto)]
  · rw [if_pos ⟨hpg, hoff⟩] at hlive
    have hsame (j q o : Nat) : live t j q o = live (setLive s 0 pgWBT 0xF00 ((slotOverlap (shadowTable s)).getD 0)) j q o := by
      simp only [live, hlive]
    refine ⟨?_, fun j q o hk => ?_⟩
    · rw [hsame, live_setLive_same hord.2.2.1]
      exact Nat.mod_eq_of_lt (Nat.lt_trans (slotOverlap_lt _) (by decide))
    · rw [hsame, live_setLive_ne hord.2.2.1 hk]
  · rw [hstat q, if_neg (by simp [statPages, ownCommit, hq])]
    refine (commitStat_foldl hord.2.2.2.1 (fun _ => 1) (statPages (ownCommit pg)) q).trans ?_
    rw [if_neg (by simp [statPages, ownCommit, hq])]
  · rw [hstat pg]
    simp [statPages, ownCommit, Nat.add_assoc]

/-! ## Groups (R438) -/

theorem exec_groupCommit {s : State} (hans : Answers s) (hquiet : CfgQuiet s) (hf : s.fuseErr = false) :
    exec .groupCommit s = .next (keepPins s (cfgSettle (tryCommit (commitBegun s (joinedCommit s)) (joinedCommit s)))) := by
  have hwrite : regWrite s pgBLK 0x010 2 = startCommit s true (joinedPages s) := by
    have hgo : bitOf (2 : Word).toNat 1 = true := by decide
    simp only [regWrite, pagePresent_low (pg := pgBLK) hf (by decide) (by decide), writeCommit, hgo]
    rfl
  rw [exec_access (c := .groupCommit) hans rfl]
  change Host.Outcome.next (keepPins s (cfgWrite s pgBLK 0x010 2)) = _
  rw [cfgWrite_quiet hquiet (.inl rfl) (by decide), hwrite]
  exact congrArg (fun t => Host.Outcome.next (keepPins s (cfgSettle t))) (startCommit_quiet hquiet.2 (joinedCommit s) rfl)

theorem endsRestore_joined (s : State) : endsRestore (commitBegun s (joinedCommit s)) (joinedCommit s) = false := by
  have hno : pgSNAP ∉ joinedPages s := fun h => by
    have hjoin := (List.mem_filter.1 h).2
    have hsnap : pageJoin pgSNAP = false := by decide
    simp [hsnap] at hjoin
  simp [endsRestore, joinedCommit, hno]

/-- Settles O15: a group is one commit of the pages that have joined, so it passes or is refused as one. -/
theorem groupSwitchesTogether : Obligations.GroupSwitchesTogether := by
  intro s hans hquiet hf hord u hwait
  have hrow := exec_groupCommit hans hquiet hf
  have hheld : u.cfgHeld = [] := by
    change (commitBegun s (joinedCommit s)).cfgHeld = []
    rw [commitBegun_eq s (joinedCommit s)]
    exact hquiet.1
  have hsnap := endsRestore_joined s
  refine ⟨fun hbad => ?_, fun q b hbad => ?_⟩
  · exact commit_passes hrow (commitBegun_keeps _ _) (commitBegun_ord hord _) rfl hheld rfl hwait hsnap hbad
  · exact ⟨_, commit_refused hrow (commitBegun_keeps _ _) (commitBegun_ord hord _) rfl hheld rfl hwait hsnap hbad⟩

/-! ## The end of a wait (R435 to R438) -/

/-- The row of a wait's or a follow-on's end finds the commit that is in progress. -/
theorem find_commit {s : State} {c : Commit} {stage : CommitStage} (hc : s.commits = [c]) (hstage : c.stage = stage) {pg : Nat}
    (hpg : c.pages.contains pg = true ∨ c.group = true ∧ pg = pgBLK) :
    (s.commits.find? fun c => c.stage == stage && (c.pages.contains pg || c.group && pg == pgBLK)) = some c := by
  have hmatch : (c.stage == stage && (c.pages.contains pg || c.group && pg == pgBLK)) = true := by
    rw [Bool.and_eq_true, Bool.or_eq_true, Bool.and_eq_true, beq_iff_eq, beq_iff_eq]
    exact ⟨hstage, hpg⟩
  rw [hc]
  exact List.find?_cons_of_pos hmatch

theorem commitSwitch_one {s : State} {c : Commit} (hc : s.commits = [c]) (hstage : c.stage = .waiting) {pg : Nat}
    (hpg : c.pages.contains pg = true ∨ c.group = true ∧ pg = pgBLK) : commitSwitch s pg = tryCommit s c := by
  unfold commitSwitch
  rw [find_commit hc hstage hpg]

theorem exec_commitSwitch {s : State} {pg : PageIx} {c : Commit} (hans : Answers s) (hc : s.commits = [c])
    (hstage : c.stage = .waiting) (hpg : c.pages.contains (pg : Nat) = true ∨ c.group = true ∧ (pg : Nat) = pgBLK) :
    exec (.commitSwitch pg) s = .next (keepPins s (cfgSettle (tryCommit s c))) := by
  rw [← commitSwitch_one hc hstage hpg]
  exact actCfg_answers hans (fun s => cfgSettle (commitSwitch s pg))

theorem tryCommit_waits {s : State} {c : Commit} (hwait : commitWaits s c = true) (hdoze : anyDoze s = false) : tryCommit s c = s := by
  have hstay : waitCommit s c = s := by
    simp only [waitCommit, hdoze, Bool.not_false, Bool.true_or, if_true]
  simp only [tryCommit, hwait, hstay, if_true, ite_self]

/-- Settles O14: a commit that waits no longer passes or is refused as one that goes on at once. -/
theorem waitingCommitSwitches : Obligations.WaitingCommitSwitches := by
  intro s pg c hans hheld hc hstage hpg hord hbit
  have hrow := exec_commitSwitch hans hc hstage hpg
  have hsnap : endsRestore s c = false := by
    rw [endsRestore, Bool.and_eq_false_imp]
    exact hbit
  refine ⟨fun hwait hdoze => ?_, fun hwait hbad => ?_, fun hwait q b hbad => ?_⟩
  · have hstay := tryCommit_waits hwait hdoze
    have hidle : cfgSettle s = s := by
      have hall : tryAll s = s := by
        rw [tryAll, hc]
        exact hstay
      simp only [cfgSettle, hall, hheld]
      rfl
    rw [hrow, hstay, hidle]
    rfl
  · exact commit_passes hrow (.refl s) hord hc hheld hstage hwait hsnap hbad
  · exact ⟨_, commit_refused hrow (.refl s) hord hc hheld hstage hwait hsnap hbad⟩

/-! ## The end of a follow-on -/

theorem ftabCurrent_frame (s : State) : ftabCurrent s = { s with gens := (ftabCurrent s).gens, chans := (ftabCurrent s).chans } := by
  unfold ftabCurrent
  split_ifs
  · rfl
  · exact foldl_keeps (P := fun u => u = { s with gens := u.gens, chans := u.chans }) rfl fun u ch hu => by rw [updChan, hu]

/-- The state in which the follow-on of a commit ends. -/
def followed (s : State) (c : Commit) : State := if c.pages.contains pgFTAB then ftabCurrent s else s

theorem followed_frame (s : State) (c : Commit) : followed s c = { s with gens := (followed s c).gens, chans := (followed s c).chans } := by
  unfold followed
  split_ifs
  · exact ftabCurrent_frame s
  · rfl

theorem followEnd_one {s : State} {c : Commit} (hc : s.commits = [c]) (hstage : c.stage = .follow) {pg : Nat}
    (hpg : c.pages.contains pg = true ∨ c.group = true ∧ pg = pgBLK) :
    followEnd s pg = if c.pages.contains pgSNAP && iqOutstanding s .block then s else endCommit (followed s c) c none := by
  unfold followEnd
  rw [find_commit hc hstage hpg]
  rfl

theorem leaveCommit_frame (s : State) (c : Commit) :
    leaveCommit c s = { s with
      shadow := (leaveCommit c s).shadow
      effect := (leaveCommit c s).effect
      commits := s.commits.filter fun x => x != c } := by
  unfold leaveCommit
  cases endsRestore s c <;> rfl

theorem and_restore (v : Nat) : v &&& 0x17 &&& 0x1F = v &&& 0x17 := by
  rw [Nat.and_assoc]
  rfl

/-- The end of a commit changes no field but the restore's bit. -/
theorem leaveCommit_words {s : State} (hs : wordsAsc s.shadow) (he : wordsAsc s.effect) (c : Commit) (q : Nat) {o : Nat}
    (ho : o < 0x1000) :
    shadowW (leaveCommit c s) q o =
      (if endsRestore s c = true ∧ q = pgSNAP ∧ o = 0x100 then shadowW s q o &&& 0x17 else shadowW s q o) ∧
    eff (leaveCommit c s) q o = if endsRestore s c = true ∧ q = pgSNAP ∧ o = 0x100 then eff s q o &&& 0x17 else eff s q o := by
  have hlt (v : Nat) : (v &&& 0x17) % 2 ^ 32 = v &&& 0x17 :=
    Nat.mod_eq_of_lt (Nat.lt_of_le_of_lt Nat.and_le_right (by decide))
  cases hr : endsRestore s c with
  | false =>
    have e : leaveCommit c s = { s with commits := s.commits.filter fun x => x != c } := by
      simp only [leaveCommit, hr, Bool.false_eq_true, if_false]
    rw [e]
    simp [shadowW, eff]
  | true =>
    have e : leaveCommit c s = { clearRestore s with commits := s.commits.filter fun x => x != c } := by
      simp only [leaveCommit, hr, if_true]
      rfl
    have hshadow := shadowW_setShadow hs (pg := pgSNAP) (off := 0x100) (q := q) (by decide) ho (shadowW s pgSNAP 0x100 &&& 0x17)
    have heff := eff_setEff (s := setShadow s pgSNAP 0x100 (shadowW s pgSNAP 0x100 &&& 0x17)) he (pg := pgSNAP) (off := 0x100)
      (q := q) (by decide) ho (eff s pgSNAP 0x100 &&& 0x17)
    rw [show rwMask s pgSNAP 0x100 = 0x1F from rfl, and_restore, hlt] at hshadow
    rw [hlt] at heff
    rw [e]
    refine ⟨hshadow.trans ?_, heff.trans ?_⟩
    · by_cases h : q = pgSNAP ∧ o = 0x100
      · simp [h]
      · simp [h]
    · by_cases h : q = pgSNAP ∧ o = 0x100
      · simp [h]
      · simp only [h, and_false, if_false]
        rfl

theorem exec_commitFollowOnEnd {s : State} {pg : PageIx} (hans : Answers s) :
    exec (.commitFollowOnEnd pg) s = .next (keepPins s (cfgSettle (followEnd s pg))) :=
  actCfg_answers hans (fun s => cfgSettle (followEnd s pg))

/-- What the end of a follow-on leaves. -/
def followDone (s : State) (c : Commit) : State := leaveCommit c (endStats (followed s c) c none)

theorem endCommit_frame {s : State} {c : Commit} (bad : Option (Nat × Bad)) (hc : s.commits = [c]) :
    endCommit s c bad = { s with
      shadow := (endCommit s c bad).shadow
      effect := (endCommit s c bad).effect
      commits := []
      pageStat := (endCommit s c bad).pageStat
      gstat := if c.group then (bad.map (·.1)).getD 0 else s.gstat } := by
  have hstats := endStats_eq s c bad
  have hgone : (endStats s c bad).commits.filter (fun x => x != c) = [] := by
    rw [hstats, hc]
    simp
  have hleave := leaveCommit_frame (endStats s c bad) c
  rw [hgone] at hleave
  rw [endCommit_eq]
  generalize leaveCommit c (endStats s c bad) = t at hleave ⊢
  have hpage : t.pageStat = (endStats s c bad).pageStat := by rw [hleave]
  rw [hpage]
  calc t = _ := hleave
    _ = _ := by rw [hstats]

theorem followDone_frame {s : State} {c : Commit} (hc : s.commits = [c]) :
    followDone s c = { followed s c with
      shadow := (followDone s c).shadow
      effect := (followDone s c).effect
      commits := []
      pageStat := (followDone s c).pageStat
      gstat := if c.group then 0 else s.gstat } := by
  have hfollow := followed_frame s c
  have hgstat : (followed s c).gstat = s.gstat := by rw [hfollow]
  have h := endCommit_frame (s := followed s c) (c := c) none (by rw [hfollow]; exact hc)
  rw [hgstat, endCommit_eq] at h
  exact h

theorem followDone_words {s : State} {c : Commit} (hs : wordsAsc s.shadow) (he : wordsAsc s.effect) (q : Nat) {o : Nat}
    (ho : o < 0x1000) :
    shadowW (followDone s c) q o =
      (if endsRestore s c = true ∧ q = pgSNAP ∧ o = 0x100 then shadowW s q o &&& 0x17 else shadowW s q o) ∧
    eff (followDone s c) q o = if endsRestore s c = true ∧ q = pgSNAP ∧ o = 0x100 then eff s q o &&& 0x17 else eff s q o := by
  have hsame : (endStats (followed s c) c none).shadow = s.shadow ∧ (endStats (followed s c) c none).effect = s.effect := by
    rw [endStats_eq, followed_frame]
    exact ⟨rfl, rfl⟩
  have h := leaveCommit_words (s := endStats (followed s c) c none) (by rwa [hsame.1]) (by rwa [hsame.2]) c q ho
  simp only [endsRestore, shadowW, eff, hsame] at h ⊢
  exact h

theorem commitStat_followDone {s : State} (h : wordsAsc s.pageStat) (c : Commit) (q : Nat) :
    commitStat (followDone s c) q = if (statPages c).contains q then 2 else commitStat s q := by
  have hsame : (followed s c).pageStat = s.pageStat := by rw [followed_frame]
  have hend : commitStat (followDone s c) q = commitStat (endStats (followed s c) c none) q := by
    unfold followDone
    rw [leaveCommit_frame]
    rfl
  rw [hend, commitStat_endStats (by rwa [hsame])]
  simp only [commitStat, hsame, endWord]
  rfl

theorem followDone_pins (s : State) (c : Commit) : keepPins s (followDone s c) = followDone s c := by
  have hkeep : Keeps kdM s (endCommit (followed s c) c none) := by
    refine endCommit_keeps ?_
    unfold followed
    split_ifs
    · exact ftabCurrent_keeps (po := false) (.refl s)
    · exact .refl s
  rw [endCommit_eq] at hkeep
  exact hkeep.pins_eq

theorem followDone_settled {s : State} {c : Commit} (hc : s.commits = [c]) (hheld : s.cfgHeld = []) :
    cfgSettle (followDone s c) = followDone s c := by
  have hframe := followDone_frame hc
  refine cfgSettle_idle ?_ ?_
  · rw [hframe, followed_frame]
    exact hheld
  · rw [hframe]
    exact fun _ h => nomatch h

/-- Settles O16: the follow-on that ends is that of the only commit in progress (`followEnd_one`). -/
theorem followOnEnds : Obligations.FollowOnEnds := by
  intro s pg c hans hheld hc hstage hpg ⟨hshadow, heffect, _, hstat, _⟩
  have hstages : ∀ x ∈ s.commits, x.stage ≠ .waiting := fun x hx => by
    rw [hc] at hx
    rw [List.mem_singleton.1 hx, hstage]
    decide
  rw [exec_commitFollowOnEnd hans, followEnd_one hc hstage hpg]
  refine ⟨fun hsnap hout => ?_, fun hdone => ?_⟩
  · rw [if_pos (by rw [hsnap, hout]; rfl), cfgSettle_idle hheld hstages]
    rfl
  · have hgo : ¬(c.pages.contains pgSNAP && iqOutstanding s .block) = true := by
      rw [Bool.and_eq_true]
      obtain h | h := hdone
      · exact fun hb => by rw [h] at hb; exact absurd hb.1 (by decide)
      · exact fun hb => by rw [h] at hb; exact absurd hb.2 (by decide)
    rw [if_neg hgo, endCommit_eq]
    change ∃ t, Host.Outcome.next (keepPins s (cfgSettle (followDone s c))) = .next t ∧ _
    rw [followDone_settled hc hheld, followDone_pins]
    refine ⟨_, rfl, followDone_frame hc, fun q o ho => ?_, fun q => commitStat_followDone hstat c q⟩
    obtain ⟨es, ee⟩ := followDone_words (c := c) hshadow heffect q ho
    have hends : (endsRestore s c = true ∧ q = pgSNAP ∧ o = 0x100) ↔
        (c.pages.contains pgSNAP = true ∧ bitOf (shadowW s pgSNAP 0x100) 3 = true ∧ q = pgSNAP ∧ o = 0x100) := by
      rw [endsRestore, Bool.and_eq_true, and_assoc]
    rw [es, ee]
    refine ⟨fun hn => ?_, fun hy => ?_⟩
    · have hno := mt hends.1 hn
      rw [if_neg hno, if_neg hno]
      exact ⟨rfl, rfl⟩
    · have hyes := hends.2 hy
      rw [if_pos hyes, if_pos hyes]
      exact ⟨rfl, rfl⟩

end Sys2Proof.Machine
end

section
/-! What reads leave alone: the partitions, and memory where no row is in error (R188, R386). -/

namespace Sys2Proof.Machine

open Sys2Proof

/-! ## Work beside the store -/

/-- Partitions, memory and rows are the same. -/
structure Light (s t : State) : Prop where
  parts : t.parts = s.parts
  mem : t.mem = s.mem
  rows : t.rowErr = s.rowErr

theorem Light.refl (s : State) : Light s s := ⟨rfl, rfl, rfl⟩

theorem Light.trans {s t u : State} (h : Light s t) (g : Light t u) : Light s u :=
  ⟨g.parts.trans h.parts, g.mem.trans h.mem, g.rows.trans h.rows⟩

/-- The state fields that light work may change. -/
theorem Light.upd {s t : State} {live chans slices dozed fab faults fseq slow repair reported} (h : Light s t) :
    Light s { t with
      live := live, chans := chans, slices := slices, dozed := dozed, fab := fab, faults := faults, fseq := fseq,
      slow := slow, repair := repair, reported := reported } :=
  ⟨h.parts, h.mem, h.rows⟩

theorem light_bump (s : State) (i pg off n : Nat) : Light s (bump s i pg off n) := by
  unfold bump
  split_ifs
  · exact .refl s
  · exact ⟨rfl, rfl, rfl⟩

theorem light_addFault (s : State) (f : FaultRec) : Light s (addFault s f) := by
  unfold addFault
  dsimp only
  split_ifs
  · exact (Light.refl s).upd.trans (light_bump _ _ _ _ _)
  · exact ⟨rfl, rfl, rfl⟩

theorem light_foldl {α : Type} {f : State → α → State} (l : List α) (h : ∀ s a, Light s (f s a)) (s : State) : Light s (l.foldl f s) :=
  foldl_keeps (P := Light s) (.refl s) fun u a hu => hu.trans (h u a)

theorem light_dozeTouch (s : State) (n ch : Nat) : Light s (dozeTouch s n ch) := by
  unfold dozeTouch dozeHit
  split_ifs
  · exact ((Light.refl s).upd.trans (light_bump _ _ _ _ _)).upd
  · exact ⟨rfl, rfl, rfl⟩
  · exact .refl s

theorem light_askRows (s t : State) : Light s (askRows s t) :=
  light_foldl (α := Nat × Nat) (f := fun s e => dozeTouch s e.1 e.2) _ (fun u e => light_dozeTouch u e.1 e.2) s

theorem light_touchRows (s : State) (ch pa n : Nat) (write : Bool) : Light s (touchRows s ch pa n write) := by
  unfold touchRows
  split_ifs
  · exact .refl s
  · exact light_bump _ _ _ _ _
  · exact light_bump _ _ _ _ _
  · exact light_dozeTouch _ _ _
  · exact .refl s

theorem light_iqPump (n : Nat) (s : State) (f : Nat) : Light s (iqPump n s f) := by
  induction n generalizing s with
  | zero => exact .refl s
  | succ n ih =>
    unfold iqPump
    dsimp only
    split
    · exact .refl s
    · split
      · exact .refl s
      · split_ifs
        · exact .refl s
        · exact ((Light.refl s).upd.trans (light_bump _ _ _ _ _)).trans (ih _)

theorem light_iqAdd (s : State) (f : Nat) (r : IqReq) : Light s (iqAdd s f r) := (Light.refl s).upd.trans (light_iqPump _ _ f)

theorem light_hostReq {s t : State} {p : Nat} {o : Owner} {port : Option Nat} {a n : Nat} {data : Option (List Byte)}
    (h : hostReq s p o port a n data = some t) : Light s t := by
  unfold hostReq at h
  split_ifs at h
  obtain rfl := Option.some.inj h
  refine light_foldl _ (fun u e => ?_) s
  obtain ⟨x, k⟩ := e
  cases port with
  | some f => exact light_iqAdd _ _ _
  | none =>
    dsimp only
    cases hostPort u p x with
    | none => exact .refl u
    | some f => exact light_iqAdd _ _ _

theorem light_hostAsk (s : State) (c : Ctx) (a n : Nat) : Light s (hostAsk s c a n) := by
  unfold hostAsk
  refine light_foldl _ (fun u e => ?_) s
  dsimp only
  split_ifs
  · exact .refl u
  · cases h : hostReq u c.part c.owner (ownerPort u c.part c.owner) e.1 e.2 none with
    | none => exact .refl u
    | some t => exact light_hostReq h

/-! ## Reads of rows -/

/-- The partitions are the same, and memory too where no row is in error. -/
structure ReadKept (s t : State) : Prop where
  parts : t.parts = s.parts
  clean : s.rowErr = [] → t.mem = s.mem ∧ t.rowErr = []

theorem ReadKept.refl (s : State) : ReadKept s s := ⟨rfl, fun h => ⟨rfl, h⟩⟩

theorem ReadKept.trans {s t u : State} (h : ReadKept s t) (g : ReadKept t u) : ReadKept s u := by
  refine ⟨g.parts.trans h.parts, fun hs => ?_⟩
  obtain ⟨hmem, hrows⟩ := h.clean hs
  obtain ⟨gmem, grows⟩ := g.clean hrows
  exact ⟨gmem.trans hmem, grows⟩

theorem Light.readKept {s t : State} (h : Light s t) : ReadKept s t := ⟨h.parts, fun hs => ⟨h.mem, h.rows.trans hs⟩⟩

theorem parts_bumpRow (s : State) (row k : Nat) : (bumpRow s row k).parts = s.parts := by
  unfold bumpRow
  split_ifs <;> exact (light_bump _ _ _ _ _).parts

theorem parts_updRowMem (s : State) (row : Nat) (f : RowMem → RowMem) : (updRowMem s row f).parts = s.parts := by
  rw [updRowMem_frame]

theorem parts_steer (s : State) (row k : Nat) : (steer s row k).parts = s.parts := by
  unfold steer
  dsimp only
  split_ifs <;> exact parts_updRowMem s row _

theorem parts_retireRow (s : State) (row n : Nat) : (retireRow s row n).parts = s.parts := by
  unfold retireRow
  split
  · unfold spareOut
    split_ifs
    · rfl
    · exact (light_addFault _ _).parts.trans (parts_updRowMem _ _ _)
  · exact (light_addFault _ _).parts.trans ((parts_updRowMem _ _ _).trans (parts_steer _ _ _))

theorem parts_corrected (s : State) (row : Nat) (rest : List (Nat × BitVec 16)) : (corrected s row rest).parts = s.parts := by
  unfold corrected
  dsimp only
  split_ifs <;> simp only [parts_retireRow, parts_updRowMem, parts_bumpRow]

theorem parts_readRow (s : State) (w : Who) (row : Nat) : (readRow s w row).1.parts = s.parts := by
  unfold readRow
  split
  · rfl
  · exact parts_corrected _ _ _
  · exact (light_addFault _ _).parts.trans (parts_bumpRow _ _ _)

theorem rowsRead_plain {s : State} {w : Who} {pa n : Nat} (h : s.rowErr = []) :
    rowsRead s w pa n = (touchRows s w.ch pa n false, .ok (memBytes s.mem pa n)) := by
  have ht := light_touchRows s w.ch pa n false
  simp [rowsRead, ht.rows, h, ht.mem, sortBy]

theorem readKept_rowsRead (s : State) (w : Who) (pa n : Nat) : ReadKept s (rowsRead s w pa n).1 := by
  have ht := light_touchRows s w.ch pa n false
  refine ⟨?_, fun h => ?_⟩
  · unfold rowsRead
    refine (foldl_keeps₁ (P := fun u => u.parts = (touchRows s w.ch pa n false).parts) rfl fun acc row hacc => ?_).trans ht.parts
    split
    · exact hacc
    · split
      · next h => exact (congrArg State.parts (congrArg Prod.fst h)).symm.trans ((parts_readRow _ _ _).trans hacc)
      · next h =>
        have hread := (congrArg State.parts (congrArg Prod.fst h)).symm.trans ((parts_readRow _ _ _).trans hacc)
        split_ifs <;> exact hread
  · rw [rowsRead_plain h]
    exact ht.readKept.clean h

theorem readKept_readEntry (s : State) (w : Who) (node idx : Nat) : ReadKept s (readEntry s w node idx).1 := by
  have h := readKept_rowsRead s { w with cls := 0 } (node + 8 * idx) 8
  unfold readEntry
  dsimp only
  split_ifs
  · exact .refl s
  · split
    · next e => rwa [e] at h
    · next e => rwa [e] at h

theorem readKept_walkFrom (w : Who) (va k : Nat) (s : State) (node : Nat) : ReadKept s (walkFrom w va k s node).1 := by
  induction k generalizing s node with
  | zero =>
    have h := readKept_readEntry s w node (vaIndex va 3)
    unfold walkFrom
    split
    · next e => rw [e] at h; split_ifs <;> exact h
    · exact h
  | succ k ih =>
    have h := readKept_readEntry s w node (vaIndex va (3 - (k + 1)))
    unfold walkFrom
    split
    · next e =>
      rw [e] at h
      split_ifs
      · exact h.trans (ih _ _)
      · exact h
    · exact h

theorem readKept_checkPa (s : State) (pa leaf : Nat) (write : Bool) : ReadKept s (checkPa s pa leaf write).1 := by
  unfold checkPa
  split_ifs
  · exact .refl s
  · exact (light_bump s 0 pgXLAT 0xF04 1).readKept
  · exact .refl s

theorem readKept_xlate (s : State) (c : Ctx) (va : Nat) (write : Bool) : ReadKept s (xlate s c va write).1 := by
  unfold xlate
  dsimp only
  split
  · split
    · exact .refl s
    · exact readKept_checkPa _ _ _ _
  · split
    · exact .refl s
    · next root _ =>
      have h := readKept_walkFrom c.who (va % 2 ^ 56) 3 s root
      split
      · next e => rwa [e] at h
      · next e =>
        rw [e] at h
        split_ifs
        · exact h
        · exact h.trans (readKept_checkPa _ _ _ _)

theorem readKept_paRead (s : State) (c : Ctx) (pa n : Nat) : ReadKept s (paRead s c pa n).1 := by
  unfold paRead
  split
  · dsimp only
    split
    · exact (light_addFault _ _).readKept
    · split <;> exact .refl s
  · exact readKept_rowsRead _ _ _ _

theorem readKept_vread (s : State) (c : Ctx) (va n : Nat) : ReadKept s (vread s c va n).1 := by
  unfold vread
  refine foldl_keeps₁ (P := fun u => ReadKept s u) (.refl s) fun acc e hacc => ?_
  obtain ⟨x, k⟩ := e
  dsimp only
  split
  · exact hacc
  · next u bs =>
    have hx := hacc.trans (readKept_xlate u c x false)
    split
    · next e =>
      rw [e] at hx
      exact hx.trans (light_addFault _ _).readKept
    · next e => rwa [e] at hx
    · next t pa leaf e =>
      rw [e] at hx
      have hp := hx.trans (readKept_paRead t c pa k)
      split
      · next e => rwa [e] at hp
      · exact hp

/-! ## Reads of an image (R409) -/

theorem light_countSlowPg (ks : List PageKey) (r : Run) : Light r.s (runM (countSlowPg ks) r).2.s := by
  change Light r.s (if (ks.filter fun k => !(r.slow.contains k)).isEmpty then r
    else { r with s := bump r.s r.ctx.part pgPOOL 0xF50 (ks.filter fun k => !(r.slow.contains k)).length,
                  slow := r.slow ++ ks.filter fun k => !(r.slow.contains k) }).s
  split_ifs
  · exact .refl r.s
  · exact light_bump _ _ _ _ _

/-- The end of a read: its bytes, or its failure. -/
def rdEnd (va n : Nat) (r : Run) : State × Acc → M (List Byte)
  | (s, .ok bs) => do
    set { r with s := s }
    countSlowPg (slowUnder s r.ctx va n)
    return bs
  | (s, .bad st d) => do
    set { r with s := s }
    throw (st, d)

theorem readKept_rd (s : State) (c : Ctx) (va n : Nat) : ReadKept s (runM (rd va n) (Run.of s c)).2.s := by
  have h := readKept_vread s c va n
  have hrd : rd va n = get >>= fun r => rdEnd va n r (vread r.s r.ctx va n) := rfl
  have hrun : runM (rd va n) (Run.of s c) = runM (rdEnd va n (Run.of s c) (vread s c va n)) (Run.of s c) := by
    rw [hrd, runM_bind]
    rfl
  rw [hrun]
  generalize vread s c va n = x at h
  obtain ⟨t, acc⟩ := x
  have hset {α : Type} (k : Unit → M α) : runM (set { Run.of s c with s := t } >>= k) (Run.of s c) =
      runM (k ()) { Run.of s c with s := t } := by
    rw [runM_bind]
    rfl
  cases acc with
  | bad st d =>
    rw [rdEnd, hset]
    exact h
  | ok bs =>
    have hcount := light_countSlowPg (slowUnder t (Run.of s c).ctx va n) { Run.of s c with s := t }
    rw [rdEnd, hset, runM_bind]
    split
    · next e =>
      rw [e] at hcount
      exact h.trans hcount.readKept
    · next e =>
      rw [e] at hcount
      exact h.trans hcount.readKept

/-- How work ended leaves what its run left, and a wait only what it asks. -/
theorem readKept_ranM {α β : Type} {s : State} {c : Ctx} {m : M α} (h : ReadKept s (runM m (Run.of s c)).2.s)
    {a : α → Run → β} {b : Nat → Nat → State → β} {d : State → β} {f : β → State} (ha : ∀ x r, f (a x r) = r.s)
    (hb : ∀ e k t, f (b e k t) = t) (hd : ∀ t, f (d t) = t) : ReadKept s (f ((ranM s c m).fold a b d)) := by
  unfold ranM
  generalize runM m (Run.of s c) = x at h
  obtain ⟨res, r⟩ := x
  dsimp only at h ⊢
  cases hw : runWait s c res r with
  | some t =>
    have hlight : Light s t := by
      unfold runWait at hw
      split_ifs at hw
      · exact Option.some.inj hw ▸ light_askRows _ _
      · split at hw
        · split_ifs at hw
          exact Option.some.inj hw ▸ light_hostAsk _ _ _ _
        · cases hw
    rw [Ran.fold, hd]
    exact hlight.readKept
  | none =>
    cases res with
    | ok x =>
      rw [Ran.fold, ha]
      exact h
    | error e =>
      rw [Ran.fold, hb]
      exact h

theorem readKept_imgBytes (s : State) (p va n : Nat) : ReadKept s (imgBytes s p va n).1 := by
  unfold imgBytes
  split_ifs
  · exact .refl s
  · exact readKept_ranM (f := Prod.fst) (readKept_rd s (restoreCtx p) va n) (fun _ _ => rfl) (fun _ _ _ => rfl) fun _ => rfl

theorem readKept_imgSections (p va : Nat) (hdr : List Byte) (n : Nat) (s : State) (secs : List (List Byte)) :
    ReadKept s (imgSections p va hdr n s secs).state := by
  induction n generalizing s secs with
  | zero => exact .refl s
  | succ k ih =>
    have h := readKept_imgBytes s p (va + leAt hdr (64 + 16 * (4 - k)) 4 * Config.granule) (leAt hdr (64 + 16 * (4 - k) + 4) 4 * Config.granule)
    unfold imgSections
    dsimp only
    split
    · next e => rwa [e] at h
    · next e => rwa [e] at h
    · next e =>
      rw [e] at h
      split_ifs
      · exact h.trans (ih _ _)
      · exact h

theorem readKept_readImage (s : State) : ReadKept s (readImage s).state := by
  have h := readKept_imgBytes s (restorePart s) (restoreVa s) Config.granule
  unfold readImage
  dsimp only
  split
  · next e => rwa [e] at h
  · next e => rwa [e] at h
  · next e =>
    rw [e] at h
    split_ifs
    · exact h
    · exact h
    · exact h.trans (readKept_imgSections _ _ _ _ _ _)

end Sys2Proof.Machine
end

section
/-! Restores: a commit of `SNAP` with `RESTORE` (R409, R410, R447). -/

namespace Sys2Proof.Machine

open Sys2Proof

/-! ## The row of a restore -/

/-- The state in which a restore's checks run: the commit of `SNAP` is in progress, and waits no longer. -/
structure Restoring (i : Instr) (s u : State) : Prop where
  row : exec i s = .next (keepPins s (cfgSettle (tryCommit u (ownCommit pgSNAP))))
  keeps : Keeps kdM s u
  ord : ConfigOrdered s → ConfigOrdered u
  frame : u = { s with pageStat := u.pageStat, commits := [ownCommit pgSNAP] }
  stat : ConfigOrdered s → ∀ q, q ≠ pgSNAP → commitStat u q = commitStat s q
  held : s.cfgHeld = []
  goes : commitWaits u (ownCommit pgSNAP) = false

theorem exec_snapRestore {s : State} (hready : CommitReady s pgSNAP) (hbit : bitOf (shadowW s pgSNAP 0x100) 3 = true) :
    exec .snapRestore s =
      .next (keepPins s (cfgSettle (tryCommit (commitBegun s (ownCommit pgSNAP)) (ownCommit pgSNAP)))) := by
  obtain ⟨hans, hquiet, hinit, hp, -⟩ := hready
  have hacc : accessOf s .snapRestore = some { addr := wordAddr pgSNAP 0x010, data := 1, write := true } := by
    change (if bitOf (shadowW s pgSNAP 0x100) 3 then some _ else none) = _
    rw [if_pos hbit]
  rw [exec_access hans hacc]
  change Host.Outcome.next (keepPins s (commitGo s pgSNAP)) = _
  rw [commitGo_quiet hquiet hinit hp (by decide)]

theorem restoreRow_restoring {i : Instr} {s u : State} (h : RestoreRow i s u) (hbit : bitOf (shadowW s pgSNAP 0x100) 3 = true) :
    Restoring i s u := by
  obtain ⟨rfl, hready, rfl⟩ | ⟨⟨pg, hpg, rfl⟩, hans, hheld, hc, hwait, rfl⟩ := h
  · refine ⟨exec_snapRestore hready hbit, commitBegun_keeps _ _, fun ho => commitBegun_ord ho _, ?_, fun ho q hq => ?_,
      hready.2.1.1, hready.2.2.2.2⟩
    · exact commitBegun_eq _ _
    · refine (commitStat_foldl ho.2.2.2.1 (fun _ => 1) (statPages (ownCommit pgSNAP)) q).trans ?_
      rw [if_neg (by simp [statPages, ownCommit, hq])]
  · refine ⟨?_, .refl _, id, by rw [← hc], fun _ _ _ => rfl, hheld, hwait⟩
    exact exec_commitSwitch hans hc rfl (.inl (by simp [ownCommit, hpg]))

theorem tryCommit_restoring {i : Instr} {s u : State} (h : Restoring i s u) (hbit : bitOf (shadowW s pgSNAP 0x100) 3 = true) :
    tryCommit u (ownCommit pgSNAP) = match restoreCheck u with
      | .wait s => s
      | .fail s off r => endCommit { dropHost s .block with rstat := r } (ownCommit pgSNAP)
          (some (pgSNAP, { off := off, index := 0, status := stCONFLICT }))
      | .pass s hdr secs =>
        match commitBad (dropHost s .block) [pgSNAP] with
        | some b => refuseCommit (dropHost s .block) (ownCommit pgSNAP) b
        | none => passCommit (dropHost s .block) (ownCommit pgSNAP) true fun s => restoreWrite s hdr secs := by
  have hu : bitOf (shadowW u pgSNAP 0x100) 3 = true := by
    rw [h.frame]
    exact hbit
  have hin : ((ownCommit pgSNAP).stage != .waiting || !(u.commits.contains (ownCommit pgSNAP))) = false := by
    rw [show u.commits = [ownCommit pgSNAP] by rw [h.frame]]
    decide
  have hsnap : ((ownCommit pgSNAP).pages = [pgSNAP] && bitOf (shadowW u pgSNAP 0x100) 3) = true := by
    rw [hu]
    rfl
  unfold tryCommit
  simp only [hin, h.goes, hsnap, Bool.false_eq_true, if_false, if_true]
  rfl

theorem readKept_restoreCheck (s : State) : ReadKept s (restoreCheck s).state := by
  have h := readKept_readImage s
  unfold restoreCheck
  dsimp only
  split
  · exact .refl s
  · split
    · next e => rwa [e] at h
    · next e => rwa [e] at h
    · next e =>
      rw [e] at h
      split_ifs
      · exact h
      · exact h
      · exact h.trans (light_askRows _ _).readKept
      · exact h

theorem dropHost_frame (s : State) (o : Owner) : dropHost s o = { s with iqDone := (dropHost s o).iqDone } := by
  unfold dropHost
  split_ifs <;> rfl

/-! ## The refusal of an image -/

/-- A restore that its check refuses with reason `r` at field `off`. -/
def restoreRefused (v : State) (off r : Nat) : State :=
  endCommit { dropHost v .block with rstat := r } (ownCommit pgSNAP)
    (some (pgSNAP, { off := off, index := 0, status := stCONFLICT }))

theorem restoreRefused_frame {v : State} (hc : v.commits = [ownCommit pgSNAP]) (off r : Nat) :
    restoreRefused v off r = { dropHost v .block with
      shadow := (restoreRefused v off r).shadow
      effect := (restoreRefused v off r).effect
      pageStat := (restoreRefused v off r).pageStat
      commits := []
      rstat := r } := by
  have hcommits : ({ dropHost v .block with rstat := r } : State).commits = [ownCommit pgSNAP] := by
    rw [dropHost_frame]
    exact hc
  exact endCommit_frame (some (pgSNAP, { off := off, index := 0, status := stCONFLICT })) hcommits

theorem restoreRefused_words {v : State} (hs : wordsAsc v.shadow) (he : wordsAsc v.effect)
    (hbit : bitOf (shadowW v pgSNAP 0x100) 3 = true) (off r q : Nat) {o : Nat} (ho : o < 0x1000) :
    shadowW (restoreRefused v off r) q o = (if q = pgSNAP ∧ o = 0x100 then shadowW v pgSNAP 0x100 &&& 0x17 else shadowW v q o) ∧
    eff (restoreRefused v off r) q o = if q = pgSNAP ∧ o = 0x100 then eff v pgSNAP 0x100 &&& 0x17 else eff v q o := by
  have hdrop := dropHost_frame v .block
  have hstats := endStats_eq { dropHost v .block with rstat := r } (ownCommit pgSNAP)
    (some (pgSNAP, { off := off, index := 0, status := stCONFLICT }))
  unfold restoreRefused
  rw [endCommit_eq]
  generalize endStats _ _ _ = e at hstats ⊢
  have hsame : e.shadow = v.shadow ∧ e.effect = v.effect := by
    rw [hstats, hdrop]
    exact ⟨rfl, rfl⟩
  have hword : shadowW e = shadowW v ∧ eff e = eff v := by
    simp only [funext_iff, shadowW, eff, hsame, implies_true, and_self]
  have hends : endsRestore e (ownCommit pgSNAP) = true := by
    rw [endsRestore, hword.1, hbit]
    rfl
  have h := leaveCommit_words (s := e) (by rwa [hsame.1]) (by rwa [hsame.2]) (ownCommit pgSNAP) q ho
  rw [hends, hword.1, hword.2] at h
  by_cases hq : q = pgSNAP ∧ o = 0x100
  · obtain ⟨rfl, rfl⟩ := hq
    simpa using h
  · simpa [hq] using h

theorem commitStat_endCommit {s : State} (h : wordsAsc s.pageStat) (c : Commit) (bad : Option (Nat × Bad)) (q : Nat) :
    commitStat (endCommit s c bad) q = if (statPages c).contains q then endWord c bad q % 2 ^ 32 else commitStat s q := by
  have hpage : (leaveCommit c (endStats s c bad)).pageStat = (endStats s c bad).pageStat := by rw [leaveCommit_frame]
  rw [← commitStat_endStats h c bad q, endCommit_eq]
  simp only [commitStat, hpage]

theorem commitStat_restoreRefused {v : State} (h : wordsAsc v.pageStat) (off r q : Nat) :
    commitStat (restoreRefused v off r) q =
      if q = pgSNAP then (2 + stCONFLICT * 2 ^ 8 + off * 2 ^ 16) % 2 ^ 32 else commitStat v q := by
  have hpage : (dropHost v .block).pageStat = v.pageStat := by rw [dropHost_frame]
  have hend := commitStat_endCommit (s := { dropHost v .block with rstat := r }) (by rw [hpage]; exact h)
    (ownCommit pgSNAP) (some (pgSNAP, { off := off, index := 0, status := stCONFLICT })) q
  have hsame : commitStat ({ dropHost v .block with rstat := r } : State) q = commitStat v q := by
    simp only [commitStat, hpage]
  rw [restoreRefused, hend, hsame]
  by_cases hq : q = pgSNAP <;> simp [statPages, ownCommit, endWord, hq]

/-- What the check of a restore leaves of the fields and the port. -/
theorem restoreCheck_conf {u v : State} (h : (restoreCheck u).state = v) : Keeps kdC u v :=
  h ▸ restoreCheck_keeps (.refl u)

/-! ## The writes of an image -/

theorem restorePart_of_shadow {s t : State} (h : shadowW t pgSNAP 0x100 = shadowW s pgSNAP 0x100) : restorePart t = restorePart s := by
  simp only [restorePart, h]

/-- A stream of an image. -/
def schedStrm (sec : List Byte) (st : Strm) (x : StreamSt) : StreamSt :=
  { x with
    next := BitVec.ofNat 32 (leAt sec (32 * st.num + 4 * 0) 4)
    low := BitVec.ofNat 32 (leAt sec (32 * st.num + 4 * 1) 4)
    cseq := BitVec.ofNat 32 (leAt sec (32 * st.num + 4 * 2) 4)
    chead := BitVec.ofNat 32 (leAt sec (32 * st.num + 4 * 3) 4)
    doneSet := [] }

theorem strm_putSched (s : State) (p : Nat) (sec : List Byte) (st : Strm) :
    strm (putSched s p sec) p st = schedStrm sec st (strm s p st) := by
  have h := foldl_read (P := fun _ => True) (g := fun u => strm u p st) (f := fun u su => updStrm u p su (schedStrm sec su)) (p := st)
    (F := schedStrm sec st) nodup_allStrms (fun _ _ _ _ => trivial)
    (fun u a _ _ ha => strm_updStrm_ne u p (Ne.symm ha) _) (fun u _ => strm_updStrm_same u p st _) (s := s) trivial
  rw [if_pos (mem_allStrms st)] at h
  rw [← h]
  unfold putSched
  simp only [strm, part_updPart, if_true]
  rfl

theorem part_putSched (s : State) (p : Nat) (sec : List Byte) :
    (part (putSched s p sec) p).counters = [] ∧ (part (putSched s p sec) p).slots = [] := by
  unfold putSched
  dsimp only
  rw [part_updPart, if_pos rfl]
  exact ⟨rfl, rfl⟩

/-- The schedule of a partition that a restore writes. -/
theorem restoreWrite_sched (s : State) (hdr : List Byte) (secs : List (List Byte)) :
    ∃ x, restoreWrite s hdr secs = putSched x (restorePart s) (secs.getD 1 []) := ⟨_, rfl⟩

/-- A restore that has passed its checks. -/
def restorePassed (v : State) (hdr : List Byte) (secs : List (List Byte)) : State :=
  { restoreWrite (switchPages v [pgSNAP]) hdr secs with commits := [{ ownCommit pgSNAP with stage := .follow }] }

theorem passCommit_restore {v : State} {hdr : List Byte} {secs : List (List Byte)} (hc : v.commits = [ownCommit pgSNAP]) :
    passCommit v (ownCommit pgSNAP) true (fun s => restoreWrite s hdr secs) = restorePassed v hdr secs := by
  have hkeep := restoreWrite_keeps (po := true) (hdr := hdr) (secs := secs) (.refl (switchPages v [pgSNAP]))
  have hcommits : (restoreWrite (switchPages v [pgSNAP]) hdr secs).commits = [ownCommit pgSNAP] := by
    have e := hkeep.portKept.commits
    rw [e, (switchPages_kept v [pgSNAP]).2.1, hc]
  have hnone : unjoin (restoreWrite (switchPages v [pgSNAP]) hdr secs) (ownCommit pgSNAP) =
      restoreWrite (switchPages v [pgSNAP]) hdr secs := rfl
  have hpass : passCommit v (ownCommit pgSNAP) true (fun s => restoreWrite s hdr secs) =
      { restoreWrite (switchPages v [pgSNAP]) hdr secs with
        commits := (restoreWrite (switchPages v [pgSNAP]) hdr secs).commits.map fun x =>
          if x = ownCommit pgSNAP then { ownCommit pgSNAP with stage := .follow } else x } := by
    unfold passCommit
    simp only [Bool.true_or, if_true]
    rfl
  rw [hpass, hcommits]
  rfl

theorem restorePassed_settled {v : State} (hheld : v.cfgHeld = []) (hdr : List Byte) (secs : List (List Byte)) :
    cfgSettle (restorePassed v hdr secs) = restorePassed v hdr secs := by
  have hkeep := restoreWrite_keeps (po := true) (hdr := hdr) (secs := secs) (.refl (switchPages v [pgSNAP]))
  refine cfgSettle_idle ?_ fun x hx => ?_
  · exact hkeep.portKept.held.trans ((switchPages_kept v [pgSNAP]).2.2.1.trans hheld)
  · rw [List.mem_singleton.1 hx]
    exact fun e => CommitStage.noConfusion e

/-! ## The clauses -/

theorem restoreCheck_busy {u : State} (h : partArmed u (restorePart u) = true ∨ partLoad u (restorePart u) = false) :
    restoreCheck u = .fail u 0x100 5 := by
  have hbusy : (partArmed u (restorePart u) || !(partLoad u (restorePart u))) = true := by simpa using h
  unfold restoreCheck
  simp only [hbusy, if_true]

section
variable {i : Instr} {s u v : State} (h : Restoring i s u)
include h

theorem Restoring.restorePart : restorePart u = Machine.restorePart s := by
  rw [h.frame]
  rfl

/-- The check of an image leaves the fields, the commit and the port as they were. -/
theorem Restoring.check_keeps (hv : (restoreCheck u).state = v) :
    v.shadow = s.shadow ∧ v.effect = s.effect ∧ v.commits = [ownCommit pgSNAP] ∧ v.cfgHeld = [] := by
  obtain ⟨hshadow, heffect, -, hcommits, hheld, -⟩ := (restoreCheck_conf hv).confEq
  have hframe := h.frame
  refine ⟨?_, ?_, ?_, ?_⟩
  · rw [hshadow, hframe]
  · rw [heffect, hframe]
  · rw [hcommits, hframe]
  · rw [hheld, hframe]
    exact h.held

theorem Restoring.check_words (hv : (restoreCheck u).state = v) : shadowW v = shadowW s ∧ eff v = eff s := by
  obtain ⟨hshadow, heffect, -, -⟩ := h.check_keeps hv
  simp only [funext_iff, shadowW, eff, hshadow, heffect, implies_true, and_self]

theorem Restoring.refused_row (hbit : bitOf (shadowW s pgSNAP 0x100) 3 = true) {off r : Nat} (hcheck : restoreCheck u = .fail v off r) :
    exec i s = .next (restoreRefused v off r) := by
  obtain ⟨-, -, hcommits, hheld⟩ := h.check_keeps (v := v) (by rw [hcheck]; rfl)
  have hdone : tryCommit u (ownCommit pgSNAP) = restoreRefused v off r := by
    rw [tryCommit_restoring h hbit, hcheck]
    rfl
  have hend := restoreRefused_frame hcommits off r
  have hsettle : cfgSettle (restoreRefused v off r) = restoreRefused v off r := by
    refine cfgSettle_idle ?_ ?_
    · rw [hend, dropHost_frame]
      exact hheld
    · rw [hend]
      exact fun _ h => nomatch h
  have hpins := tryCommit_pins h.keeps (ownCommit pgSNAP)
  rw [hdone] at hpins
  rw [h.row, hdone, hsettle, hpins]

theorem Restoring.passed_row (hbit : bitOf (shadowW s pgSNAP 0x100) 3 = true) {hdr : List Byte} {secs : List (List Byte)}
    (hcheck : restoreCheck u = .pass v hdr secs) (hbad : commitBad (dropHost v .block) [pgSNAP] = none) :
    exec i s = .next (keepPins s (restorePassed (dropHost v .block) hdr secs)) := by
  obtain ⟨-, -, hcommits, hheld⟩ := h.check_keeps (v := v) (by rw [hcheck]; rfl)
  have hdone : tryCommit u (ownCommit pgSNAP) = restorePassed (dropHost v .block) hdr secs := by
    rw [tryCommit_restoring h hbit, hcheck]
    simp only [hbad]
    exact passCommit_restore (by rw [dropHost_frame]; exact hcommits)
  rw [h.row, hdone, restorePassed_settled (by rw [dropHost_frame]; exact hheld)]

/-- The partition whose schedule a restore writes is the one that its fields name before the switch. -/
theorem Restoring.passed_part (hord : ConfigOrdered s) (hv : (restoreCheck u).state = v) :
    Machine.restorePart (switchPages (dropHost v .block) [pgSNAP]) = Machine.restorePart s := by
  have hvord : ConfigOrdered (dropHost v .block) := by
    rw [dropHost_frame]
    exact (restoreCheck_conf hv).ord (h.ord hord)
  have hsame : shadowW (dropHost v .block) pgSNAP 0x100 = shadowW s pgSNAP 0x100 := by
    rw [dropHost_frame]
    exact congrFun (congrFun (h.check_words hv).1 _) _
  have hset : settledWord pgSNAP 0x100 (shadowW (dropHost v .block) pgSNAP 0x100) = shadowW (dropHost v .block) pgSNAP 0x100 :=
    if_neg (by decide)
  refine restorePart_of_shadow ((switchPages_words hvord [pgSNAP] pgSNAP (o := 0x100) (by decide)).2.trans ?_)
  rw [hset, ite_self, hsame]

end

/-- Settles O17: an image is read and checked before anything is written, so a refusal is the end of the commit alone, and
an image that passes is written in one piece. -/
theorem restoreWritesOrRefuses : Obligations.RestoreWritesOrRefuses := by
  intro i s u hrow hord hbit p
  have h := restoreRow_restoring hrow hbit
  have hframe := h.frame
  refine ⟨fun v off r hcheck => ?_, fun hno => ?_, fun v hdr secs hcheck hbad => ?_⟩
  · have hv : (restoreCheck u).state = v := by rw [hcheck]; rfl
    have hread : ReadKept u v := hv ▸ readKept_restoreCheck u
    have hvord : ConfigOrdered v := (restoreCheck_conf hv).ord (h.ord hord)
    obtain ⟨-, -, hcommits, -⟩ := h.check_keeps hv
    obtain ⟨hshadow, heff⟩ := h.check_words hv
    have hend := restoreRefused_frame hcommits off r
    have hwords := fun q o ho => restoreRefused_words hvord.1 hvord.2.1 (by rw [hshadow]; exact hbit) off r q (o := o) ho
    rw [hshadow, heff] at hwords
    refine ⟨restoreRefused v off r, h.refused_row hbit hcheck, fun hclean => ?_, ?_, hend, fun q o ho => (hwords q o ho).1,
      fun q o ho => (hwords q o ho).2, ?_, fun q hq => ?_⟩
    · have hmem := (hread.clean (by rw [hframe]; exact hclean)).1
      rw [hend, dropHost_frame]
      exact hmem.trans (by rw [hframe])
    · rw [hend, dropHost_frame]
      exact hread.parts.trans (by rw [hframe])
    · rw [commitStat_restoreRefused hvord.2.2.2.1, if_pos rfl]
    · obtain ⟨-, -, hstat, -⟩ := (restoreCheck_conf hv).confEq
      rw [commitStat_restoreRefused hvord.2.2.2.1, if_neg hq, ← h.stat hord q hq]
      simp only [commitStat, hstat]
  · refine restoreCheck_busy ?_
    rw [h.restorePart, hframe]
    exact hno
  · have hpart := h.passed_part hord (v := v) (by rw [hcheck]; rfl)
    obtain ⟨x, hx⟩ := restoreWrite_sched (switchPages (dropHost v .block) [pgSNAP]) hdr secs
    rw [hpart] at hx
    refine ⟨_, h.passed_row hbit hcheck hbad, rfl, fun st => ?_, ?_⟩
    · have hst : strm (keepPins s (restorePassed (dropHost v .block) hdr secs)) p st = schedStrm (secs.getD 1 []) st (strm x p st) := by
        rw [← strm_putSched, ← hx]
        rfl
      rw [hst]
      exact ⟨rfl, rfl, rfl, rfl, rfl⟩
    · have hp : part (keepPins s (restorePassed (dropHost v .block) hdr secs)) p = part (putSched x p (secs.getD 1 [])) p := by
        rw [← hx]
        rfl
      rw [hp]
      exact part_putSched _ _ _

end Sys2Proof.Machine
end

section
/-! Start-up (R418 to R422). -/

namespace Sys2Proof.Machine

open Sys2Proof

/-! ## Runs over the channels -/

/-- A run over the channels `0` to `m - 1` changes what concerns channel `p` where it meets it first: numbers from 8 on name the
channels again. -/
theorem foldl_range_read {β : Type} {P : State → Prop} {g : State → β} {f : State → Nat → State} {F : Nat → β → β} {p : Nat} (hp : p < 8)
    (keep : ∀ s a, P s → P (f s a)) (other : ∀ s a, P s → Fin.ofNat 8 a ≠ Fin.ofNat 8 p → g (f s a) = g s)
    (here : ∀ s a, P s → Fin.ofNat 8 a = Fin.ofNat 8 p → g (f s a) = F a (g s)) (once : ∀ a x, F a (F p x) = F p x) (m : Nat)
    {s : State} (hs : P s) : g ((List.range m).foldl f s) = if p < m then F p (g s) else g s := by
  induction m with
  | zero => rfl
  | succ m ih =>
    have hprev : P ((List.range m).foldl f s) := foldl_keeps hs keep
    rw [List.range_succ, List.foldl_append, List.foldl_cons, List.foldl_nil]
    by_cases hmod : Fin.ofNat 8 m = Fin.ofNat 8 p
    · rw [here _ m hprev hmod, ih]
      have hval : m % 8 = p % 8 := congrArg Fin.val hmod
      by_cases hlt : p < m
      · rw [if_pos hlt, if_pos (by omega), once]
      · obtain rfl : p = m := by omega
        rw [if_neg hlt, if_pos (by omega)]
    · have hne : p ≠ m := fun e => hmod (by rw [e])
      rw [other _ m hprev hmod, ih]
      exact if_congr (by omega) rfl rfl

/-! ## The start-up self-test -/

/-- What the end of a self-test leaves of a channel. -/
def testedChan (s : State) (rs : List LaneReport) (x : Channel) : Channel :=
  if x.service == .test then
    { x with
      arrays := x.arrays.zipIdx.map fun (y, a) => if a < capARY s then y.tested else y
      service := .out
      report := cleanReport s rs
      ran := true }
  else x

theorem testedChan_again (s : State) (rs ss : List LaneReport) (x : Channel) : testedChan s rs (testedChan s ss x) = testedChan s ss x := by
  by_cases h : x.service = .test <;> simp [testedChan, h]

theorem testDone_eq (s : State) (ch : Nat) (rs : List LaneReport) : testDone s ch rs = updChan s ch (testedChan s rs) := by
  by_cases h : (chan s ch).service = .test
  · have ht : testedChan s rs (chan s ch) = { chan s ch with
        arrays := (chan s ch).arrays.zipIdx.map fun (y, a) => if a < capARY s then y.tested else y
        service := .out, report := cleanReport s rs, ran := true } := by simp [testedChan, h]
    unfold testDone updChan
    rw [ht]
    simp [h]
  · have ht : testedChan s rs (chan s ch) = chan s ch := by simp [testedChan, h]
    have hsame : updChan s ch (testedChan s rs) = s := by
      unfold updChan
      rw [ht, chan]
      simp
    rw [hsame]
    simp [testDone, h]

theorem testedChan_of {s t : State} (h : capARY t = capARY s) (rs : List LaneReport) : testedChan t rs = testedChan s rs := by
  funext x
  simp only [testedChan, cleanReport, h]

/-- The start-up self-test of every channel of the grade. -/
def testAll (s : State) (rs : List (List LaneReport)) : State :=
  (List.range (capCH s)).foldl (fun s n => testDone s n (rs.getD n [])) s

theorem testAll_frame (s : State) (rs : List (List LaneReport)) : testAll s rs = { s with chans := (testAll s rs).chans } :=
  foldl_keeps (P := fun u => u = { s with chans := u.chans }) rfl fun u n hu => by
    rw [testDone_eq, updChan, hu]

theorem chan_testAll (s : State) (rs : List (List LaneReport)) {n : Nat} (hn : n < 8) :
    chan (testAll s rs) n = if n < capCH s then testedChan s (rs.getD n []) (chan s n) else chan s n := by
  refine foldl_range_read (P := fun u => capARY u = capARY s) (g := fun u => chan u n)
    (F := fun a => testedChan s (rs.getD a [])) hn (fun u a hu => ?_) (fun u a _ ha => ?_) (fun u a hu ha => ?_)
    (fun a x => testedChan_again s _ _ x) (capCH s) rfl
  · rw [testDone_eq]
    exact hu
  · rw [testDone_eq, chan_updChan, if_neg ha]
  · rw [testDone_eq, chan_updChan, if_pos ha, testedChan_of hu]
    simp only [chan, ha]

theorem startupTest_first {s : State} (hquiet : CfgQuiet s) (hf : s.initFuse = true) (ht : s.initTest = false)
    (rs : List (List LaneReport)) : startupTest s rs = { testAll s rs with initTest := true } := by
  have hq : CfgQuiet { testAll s rs with initTest := true } := by
    rw [testAll_frame]
    exact hquiet
  unfold startupTest
  rw [if_neg (by simp [hf, ht])]
  exact cfgSettle_quiet hq

/-! ## Store initialisation -/

/-- A slice after store initialisation. -/
def initSlice (c : Nat) (x : Slice) : Slice :=
  { x with live := true, mem := { x.mem with scrubPos := 0, scrubAt := c, queue := [], tracker := [] } }

/-- Store initialisation, before the commits that waited go on. -/
def storeZeroed (s : State) : State :=
  let s := { s with
    initStore := true
    mem := memClear s.mem 0 0x400000000
    rowErr := s.rowErr.filter fun e => !(isStore e.1)
    reported := s.reported.filter fun r => !(isStore r) }
  (List.range (capCH s)).foldl (fun s n => updSlice s n (initSlice s.cycle)) s

theorem storeZeroed_frame (s : State) : storeZeroed s = { s with
    initStore := true
    mem := memClear s.mem 0 0x400000000
    rowErr := s.rowErr.filter fun e => !(isStore e.1)
    reported := s.reported.filter fun r => !(isStore r)
    slices := (storeZeroed s).slices } :=
  foldl_keeps (P := fun u => u = { s with
    initStore := true
    mem := memClear s.mem 0 0x400000000
    rowErr := s.rowErr.filter fun e => !(isStore e.1)
    reported := s.reported.filter fun r => !(isStore r)
    slices := u.slices }) rfl fun u n hu => by rw [updSlice, hu]

theorem live_storeZeroed (s : State) {n : Nat} (hn : n < 8) : (slice (storeZeroed s) n).live = ((slice s n).live || decide (n < capCH s)) := by
  have h := foldl_range_read (P := fun _ => True) (g := fun u => (slice u n).live) (f := fun s n => updSlice s n (initSlice s.cycle))
    (F := fun _ _ => true) hn (fun _ _ _ => trivial) (fun u a _ ha => by rw [slice_updSlice, if_neg ha])
    (fun u a _ ha => by rw [slice_updSlice, if_pos ha]; rfl) (fun _ _ => rfl) (capCH s)
    (s := { s with
      initStore := true
      mem := memClear s.mem 0 0x400000000
      rowErr := s.rowErr.filter fun e => !(isStore e.1)
      reported := s.reported.filter fun r => !(isStore r) }) trivial
  refine h.trans ?_
  by_cases hlt : n < capCH s
  · simp [hlt]
  · simp only [hlt, if_false, decide_false, Bool.or_false]
    rfl

theorem storeInit_first {s : State} (hquiet : CfgQuiet s) (hf : s.initFuse = true) (hi : s.initStore = false) :
    storeInit s = storeZeroed s := by
  have hq : CfgQuiet (storeZeroed s) := by
    rw [storeZeroed_frame]
    exact hquiet
  unfold storeInit
  rw [if_neg (by simp [hf, hi])]
  exact cfgSettle_quiet hq

/-- Settles O33: the self-test takes each channel once, and store initialisation clears one range of memory. -/
theorem startupEnds : Obligations.StartupEnds := by
  intro s rs hruns hquiet hf
  refine ⟨fun ht => ?_, fun hi => ?_⟩
  · have hrow := act_runs hruns fun s => startupTest s rs
    rw [startupTest_first hquiet hf ht, testAll_frame] at hrow
    refine ⟨_, hrow, rfl, fun n hn => ?_⟩
    refine (chan_testAll s rs hn).trans ?_
    by_cases hlt : n < capCH s
    · by_cases hs : (chan s n).service = .test
      · simp [hlt, hs, testedChan]
      · simp [hlt, hs, testedChan]
    · simp [hlt]
  · have hrow := act_runs hruns storeInit
    rw [storeInit_first hquiet hf hi] at hrow
    have hframe := storeZeroed_frame s
    refine ⟨_, hrow, ?_, fun a => ?_, fun n hn => live_storeZeroed s hn, ?_⟩
    · rw [hframe]
      rfl
    · have hmem : (keepPins s (storeZeroed s)).mem = memClear s.mem 0 0x400000000 := by
        rw [hframe]
        rfl
      rw [hmem, memByte_memClear]
      simp
    · rw [hframe]
      exact ⟨rfl, rfl, rfl, rfl⟩

/-! ## Fuse load -/

theorem mem_steer (s : State) (row k : Nat) : (steer s row k).mem = s.mem := by
  have hrow : (updRowMem s row fun m => { m with spares := (row, k) :: m.spares }).mem = s.mem := by rw [updRowMem_frame]
  unfold steer
  dsimp only
  split_ifs <;> exact hrow

/-- Fuse load of a good image, before the accesses that waited take place. -/
def fuseGraded (s : State) (image : FuseImage) : State :=
  let s := image.rows.foldl factorySteer { s with initFuse := true, fuse := image, gens := [genZero] }
  (List.range 32).foldl (fun s f => updFab s f fun x => { x with live := true }) ((List.range (capCH s)).foldl applyMap s)

theorem fuseGraded_keeps (s : State) (image : FuseImage) :
    Keeps kdA { s with initFuse := true, fuse := image, gens := [genZero] } (fuseGraded s image) := by
  unfold fuseGraded
  refine foldl_keeps (foldl_keeps (foldl_keeps (.refl _) fun u e hu => ?_) fun u n hu => applyMap_keeps hu)
    fun u f hu => updFab_keeps hu
  unfold factorySteer
  dsimp only
  split
  · exact hu
  · split
    · exact steer_keeps hu
    · exact hu

theorem mem_fuseGraded (s : State) (image : FuseImage) : (fuseGraded s image).mem = s.mem := by
  unfold fuseGraded
  refine foldl_keeps (P := fun u => u.mem = s.mem) (foldl_keeps (P := fun u => u.mem = s.mem)
    (foldl_keeps (P := fun u => u.mem = s.mem) rfl fun u e hu => ?_) fun u n hu => hu) fun u f hu => hu
  unfold factorySteer
  dsimp only
  split
  · exact hu
  · split
    · exact (mem_steer _ _ _).trans hu
    · exact hu

theorem live_fuseGraded (s : State) (image : FuseImage) {f : Nat} (hf : f < 32) : (fabP (fuseGraded s image) f).live = true := by
  have h := foldl_read (P := fun _ => True) (g := fun u => (fabP u f).live) (f := fun s f => updFab s f fun x => { x with live := true })
    (p := f) (F := fun _ => true) (l := List.range 32) List.nodup_range (fun _ _ _ _ => trivial)
    (fun u a ha _ hne => by rw [fabP_updFab_ne u (List.mem_range.1 ha) hf (Ne.symm hne)])
    (fun u _ => by rw [fabP_updFab_same]) (s := (List.range (capCH (image.rows.foldl factorySteer
      { s with initFuse := true, fuse := image, gens := [genZero] }))).foldl applyMap
        (image.rows.foldl factorySteer { s with initFuse := true, fuse := image, gens := [genZero] })) trivial
  rw [if_pos (List.mem_range.2 hf)] at h
  exact h

theorem fuseLoad_good {s : State} (hquiet : CfgQuiet s) (hi : s.initFuse = false) {image : FuseImage} (hcrc : image.crcOk = true) :
    fuseLoad s image = fuseGraded s image := by
  have hq : CfgQuiet (fuseGraded s image) := (fuseGraded_keeps s image).quiet hquiet
  unfold fuseLoad
  simp only [hi, hcrc, Bool.not_true, Bool.false_eq_true, if_false]
  exact cfgSettle_quiet hq

theorem fuseLoad_bad {s : State} (hquiet : CfgQuiet s) (hi : s.initFuse = false) {image : FuseImage} (hcrc : image.crcOk = false) :
    fuseLoad s image = { s with initFuse := true, fuseErr := true } := by
  unfold fuseLoad
  simp only [hi, hcrc, Bool.not_false, Bool.false_eq_true, if_false, if_true]
  exact cfgSettle_quiet (s := { s with initFuse := true, fuseErr := true }) hquiet

/-- Settles O32: a load that fails its check and one that passes are one state each (`fuseLoad_bad`, `fuseLoad_good`). -/
theorem fuseLoadSetsTheGrade : Obligations.FuseLoadSetsTheGrade := by
  intro image s hruns hquiet
  have hrow : exec (.fuseLoadDone image) s = .next (keepPins s (fuseLoad s image)) := act_runs hruns fun s => fuseLoad s image
  refine ⟨fun hi => ?_, fun hi hcrc => ?_, fun hi hcrc => ?_⟩
  · rw [hrow, fuseLoad, if_pos hi]
    rfl
  · rw [fuseLoad_bad hquiet hi hcrc] at hrow
    refine ⟨_, hrow, rfl, by simp [cap, keepPins], fun pg hpg => ?_⟩
    simp [pagePresent, keepPins, hpg]
  · rw [fuseLoad_good hquiet hi hcrc] at hrow
    have e := (fuseGraded_keeps s image).fixed
    simp only [fixedOf, Fixed.mk.injEq, if_true, Prod.mk.injEq] at e
    obtain ⟨-, -, -, ⟨hfuse, herr, -⟩, hshadow, heffect, -, -, -, -, -, -, -, -, -, hgens, -, -, -, -, hcap⟩ := e
    have hmem := mem_fuseGraded s image
    have hlive := fun f => live_fuseGraded s image (f := f)
    generalize fuseGraded s image = t at *
    have herr' : t.fuseErr = false := herr.trans hruns.2.2
    refine ⟨_, hrow, hfuse, herr', ?_, hlive, hmem, hshadow, heffect, hgens⟩
    simp [cap, keepPins, hfuse, herr', hcap]

end Sys2Proof.Machine
end

section
/-! The cadence, the budget and the operating point (R299, R300, R303, R310, R318, R319, R344 to R346). -/

namespace Sys2Proof.Machine

open Sys2Proof

/-! ## `CAD_VALID` -/

/-- Settles O36. -/
theorem cadenceHoldsWhileInvalid : Obligations.CadenceHoldsWhileInvalid := by
  intro s hruns
  refine ⟨⟨_, act_runs hruns cadFall, ?_⟩, fun hv => ?_, fun hv => ?_⟩
  · unfold cadFall
    split_ifs with hv
    · rw [bump_frame]
      rfl
    · have hcad : ({ s.cad with valid := false } : Cadence) = s.cad := by
        rw [← Bool.eq_false_iff.2 hv]
      rw [hcad]
      rfl
  · refine (act_runs hruns cadRise).trans ?_
    rw [cadRise, if_pos hv]
    rfl
  · refine (act_runs hruns cadRise).trans ?_
    rw [cadRise, if_neg (by simp [hv])]
    rfl

/-! ## Budget and point -/

theorem govStep_frame (s : State) : govStep s = { s with gov := (govStep s).gov } := by
  unfold govStep
  dsimp only
  split_ifs <;> rfl

/-- The next step of a change keeps the point, asks for one where the target is not reached, and moves frequency or voltage
alone. -/
theorem govStep_next {s : State} (h : s.gov.opened = false) :
    (govStep s).gov.point = s.gov.point ∧ (govStep s).gov.opened = decide (s.gov.point ≠ s.gov.target) ∧
      ((govStep s).gov.opened = true → (govStep s).gov.req / 4 = s.gov.point / 4 ∨ (govStep s).gov.req % 4 = s.gov.point % 4) := by
  by_cases hp : s.gov.point = s.gov.target
  · simp [govStep, h, hp]
  · have hne : (s.gov.opened || decide (s.gov.point = s.gov.target)) = false := by simp [h, hp]
    unfold govStep
    simp only [hne, Bool.false_eq_true, if_false]
    refine ⟨trivial, by simp [hp], fun _ => ?_⟩
    split_ifs <;> omega

theorem budgetRefill_frame (s : State) : budgetRefill s = { s with gov := (budgetRefill s).gov } := by
  unfold budgetRefill
  dsimp only
  split_ifs <;> rfl

/-- Settles O37. -/
theorem budgetAndPoint : Obligations.BudgetAndPoint := by
  intro v s hruns
  have hrefill : keepPins s (budgetRefill s) = budgetRefill s := by
    rw [budgetRefill_frame]
    rfl
  refine ⟨act_runs hruns fun s => budgetTake s v.toNat, ⟨budgetRefill s, ?_, budgetRefill_frame s, ?_, ?_⟩, fun ho => ?_, fun ho => ?_⟩
  · exact (act_runs hruns budgetRefill).trans (by rw [hrefill])
  · unfold budgetRefill
    dsimp only
    split_ifs <;> rfl
  · have hgain : budgetGain { s with gov := { s.gov with budgetIn := s.gov.taken } } =
        max 0 ((250 * (s.gov.taken : Int) - (eff s pgPWR 0x108 : Nat)) * 1024 / (govFreq s : Int)) := by
      simp only [budgetGain, Nat.cast_mul, Nat.cast_ofNat]
      rfl
    rw [← hgain]
    unfold budgetRefill
    dsimp only
    exact apply_ite (fun t : State => t.gov.level) _ _ _
  · refine (act_runs hruns pwrAck).trans ?_
    rw [pwrAck, if_neg (by simp [ho])]
    rfl
  · have hack : pwrAck s = govStep { s with gov := { s.gov with point := s.gov.req, opened := false } } := by
      rw [pwrAck, if_pos ho]
    have hframe := govStep_frame { s with gov := { s.gov with point := s.gov.req, opened := false } }
    obtain ⟨hpoint, hopened, hreq⟩ := govStep_next (s := { s with gov := { s.gov with point := s.gov.req, opened := false } }) rfl
    rw [← hack] at hframe hpoint hopened hreq
    refine ⟨pwrAck s, (act_runs hruns pwrAck).trans ?_, hframe, hpoint, hopened, hreq⟩
    rw [hframe]
    rfl

/-! ## Ticks -/

theorem slip_eq (s : State) : slip s = { s with
    cad := { s.cad with cpt := 0, steps := 0 }
    live := (slip s).live } := by
  unfold slip
  dsimp only
  rw [bump_frame]

theorem light_updChan (s : State) (n : Nat) (f : Channel → Channel) : Light s (updChan s n f) := ⟨rfl, rfl, rfl⟩

theorem light_resetAllow (s : State) : Light s (resetAllow s) := light_foldl _ (fun u ch => light_updChan u ch _) s

theorem light_govStep (s : State) : Light s (govStep s) := by
  rw [govStep_frame]
  exact ⟨rfl, rfl, rfl⟩

theorem light_gov (s : State) (g : Governor) : Light s { s with gov := g } := ⟨rfl, rfl, rfl⟩

theorem light_govChoose (s : State) : Light s (govChoose s) := by
  unfold govChoose
  dsimp only
  split
  · exact .refl s
  · split
    · exact light_gov _ _
    · split
      · exact (light_gov _ _).trans (light_govStep _)
      · split
        · exact light_gov _ _
        · exact ((light_addFault _ _).trans (light_bump _ _ _ _ _)).trans (light_gov _ _)

theorem light_wake (s : State) (ch : Nat) : Light s (wake s ch) := by
  unfold wake wakeEnd writeBanks
  dsimp only
  split_ifs <;> exact ⟨rfl, rfl, rfl⟩

theorem light_powerEntry (s : State) (ch : Nat) : Light s (powerEntry s ch) := by
  unfold powerEntry goDeeper
  dsimp only
  split_ifs
  · exact .refl s
  · exact ⟨rfl, rfl, rfl⟩
  · exact light_updChan _ _ _
  · exact light_wake s ch
  · exact light_updChan _ _ _
  · exact .refl s

theorem light_powerTick (s : State) (fresh : Bool) : Light s (powerTick false s fresh) := by
  refine light_foldl _ (fun u ch => ?_) s
  have hlate : (if fresh then lateAt false u ch else u) = u := by
    have h : lateAt false u ch = u := by simp [lateAt]
    rw [h, ite_self]
  rw [hlate]
  exact light_powerEntry u ch

/-- The table in effect after a tick that finds phase `now` and found phase `old` before. -/
def tableAt (s : State) (old now : Nat) : WbTable :=
  if tabCount s.wbt.table = 0 ∨ s.wbt.table.period.toNat ≠ 0 ∧ old / s.wbt.table.period.toNat ≠ now / s.wbt.table.period.toNat then
    s.wbt.next.getD s.wbt.table
  else s.wbt.table

/-- Whether a period begins between two phases. -/
def periodBegins (s : State) (old now : Nat) : Bool :=
  s.wbt.table.period.toNat != 0 && old / s.wbt.table.period.toNat != now / s.wbt.table.period.toNat

/-- Whether a committed table takes the old one's place. -/
def tableDue (s : State) (old now : Nat) : Bool := s.wbt.next.isSome && (tabCount s.wbt.table == 0 || periodBegins s old now)

/-- The table switch. -/
def tableSwitched (s : State) (due : Bool) : State :=
  match s.wbt.next with
  | some u => if due then { s with wbt := { s.wbt with table := u, next := none, gen := (s.wbt.gen + 1) % 2 ^ 32 } } else s
  | none => s

/-- The slot that holds a phase is active. -/
def slotShown (s : State) (now : Nat) : State :=
  { s with wbt := { s.wbt with slot := (slotAt s.wbt.table now).getD 0, gap := (slotAt s.wbt.table now).isNone } }

/-- The first work of a slot stage. -/
def tableStage (s : State) (old now : Nat) : State :=
  let t := tableSwitched s (tableDue s old now)
  if tableDue s old now || periodBegins s old now then bump t 0 pgWBT 0xF10 1 else t

theorem slotStage_eq (s : State) (old : Nat) : ∃ fresh : Bool,
    (slotStage s old).1 = if fresh then resetAllow (slotShown (tableStage s old s.cad.phase.toNat) s.cad.phase.toNat)
      else slotShown (tableStage s old s.cad.phase.toNat) s.cad.phase.toNat := ⟨_, rfl⟩

theorem tableStage_wbt (s : State) (old now : Nat) :
    (tableStage s old now).cad = s.cad ∧ (tableStage s old now).wbt.table = tableAt s old now ∧ Light s (tableStage s old now) := by
  have hswitch : (tableSwitched s (tableDue s old now)).cad = s.cad ∧
      (tableSwitched s (tableDue s old now)).wbt.table = tableAt s old now ∧ Light s (tableSwitched s (tableDue s old now)) := by
    have hcond : (tabCount s.wbt.table == 0 || periodBegins s old now) = true ↔ (tabCount s.wbt.table = 0 ∨
        s.wbt.table.period.toNat ≠ 0 ∧ old / s.wbt.table.period.toNat ≠ now / s.wbt.table.period.toNat) := by
      simp [periodBegins]
    unfold tableSwitched tableAt
    rw [if_congr hcond.symm rfl rfl]
    cases hn : s.wbt.next with
    | none => exact ⟨rfl, by simp, .refl s⟩
    | some u =>
      have hdue : tableDue s old now = (tabCount s.wbt.table == 0 || periodBegins s old now) := by simp [tableDue, hn]
      rw [hdue]
      cases tabCount s.wbt.table == 0 || periodBegins s old now with
      | true => exact ⟨rfl, rfl, ⟨rfl, rfl, rfl⟩⟩
      | false => exact ⟨rfl, rfl, .refl s⟩
  unfold tableStage
  dsimp only
  split_ifs
  · obtain ⟨hcad, htable, hlight⟩ := hswitch
    have hb := bump_frame (tableSwitched s (tableDue s old now)) 0 pgWBT 0xF10 1
    exact ⟨by rw [hb]; exact hcad, by rw [hb]; exact htable, hlight.trans (light_bump _ _ _ _ _)⟩
  · exact hswitch

/-- The table switch and the active slot of a tick. -/
theorem slotStage_wbt (s : State) (old : Nat) :
    (slotStage s old).1.cad = s.cad ∧
      (slotStage s old).1.wbt.table = tableAt s old s.cad.phase.toNat ∧
      (slotStage s old).1.wbt.gap = (slotAt (tableAt s old s.cad.phase.toNat) s.cad.phase.toNat).isNone ∧
      (slotStage s old).1.wbt.slot = (slotAt (tableAt s old s.cad.phase.toNat) s.cad.phase.toNat).getD 0 ∧
      Light s (slotStage s old).1 := by
  obtain ⟨hcad, htable, hlight⟩ := tableStage_wbt s old s.cad.phase.toNat
  have hshown : Light s (slotShown (tableStage s old s.cad.phase.toNat) s.cad.phase.toNat) :=
    hlight.trans ⟨rfl, rfl, rfl⟩
  obtain ⟨fresh, e⟩ := slotStage_eq s old
  rw [e]
  have hplain : (slotShown (tableStage s old s.cad.phase.toNat) s.cad.phase.toNat).cad = s.cad ∧
      (slotShown (tableStage s old s.cad.phase.toNat) s.cad.phase.toNat).wbt.table = tableAt s old s.cad.phase.toNat ∧
      (slotShown (tableStage s old s.cad.phase.toNat) s.cad.phase.toNat).wbt.gap =
        (slotAt (tableAt s old s.cad.phase.toNat) s.cad.phase.toNat).isNone ∧
      (slotShown (tableStage s old s.cad.phase.toNat) s.cad.phase.toNat).wbt.slot =
        (slotAt (tableAt s old s.cad.phase.toNat) s.cad.phase.toNat).getD 0 := by
    rw [← htable]
    exact ⟨hcad, rfl, rfl, rfl⟩
  generalize slotShown (tableStage s old s.cad.phase.toNat) s.cad.phase.toNat = x at hplain hshown
  cases fresh with
  | false => exact ⟨hplain.1, hplain.2.1, hplain.2.2.1, hplain.2.2.2, hshown⟩
  | true =>
    obtain ⟨hc, hw⟩ := (resetAllow_keeps (kd := kdA) (.refl x)).cadence
    rw [if_pos rfl, hc, hw]
    exact ⟨hplain.1, hplain.2.1, hplain.2.2.1, hplain.2.2.2, hshown.trans (light_resetAllow x)⟩

theorem tableAt_of {s t : State} (h : t.wbt = s.wbt) (old now : Nat) : tableAt t old now = tableAt s old now := by
  simp only [tableAt, h]

theorem wbt_slip (s : State) : (slip s).wbt = s.wbt := by rw [slip_eq]

theorem cad_slip (s : State) : (slip s).cad = { s.cad with cpt := 0, steps := 0 } := by rw [slip_eq]

theorem light_slip (s : State) : Light s (slip s) := by
  rw [slip_eq]
  exact ⟨rfl, rfl, rfl⟩

/-- The state in which a sampled tick is taken. -/
def tickSeen (s : State) : State := { s with cad := { s.cad with last := s.cycle, seen := true, first := false } }

theorem early_of {s : State} (h : s.cad.last + 4 ≤ s.cycle) : (s.cad.seen && decide (s.cycle < s.cad.last + 4)) = false := by
  rw [decide_eq_false (by omega), Bool.and_false]

theorem cadenceTick_slips {s : State} {phase : DWord} (hv : s.cad.valid = true) (hfirst : s.cad.first = false)
    (hlate : s.cad.last + 4 ≤ s.cycle) (hphase : phase.toNat ≤ s.cad.phase.toNat) :
    cadenceTick s phase = powerTick false (govChoose (slotStage (slip (tickSeen s)) s.cad.phase.toNat).1)
      (slotStage (slip (tickSeen s)) s.cad.phase.toNat).2 := by
  have hlow : (!s.cad.first && decide (phase.toNat ≤ s.cad.phase.toNat)) = true := by simp [hfirst, hphase]
  have hvalid : ¬(!s.cad.valid) = true := by simp [hv]
  have hearly := Bool.not_eq_true _ ▸ early_of hlate
  unfold cadenceTick
  dsimp only
  rw [if_neg hvalid, if_neg hearly, if_pos hlow]
  rfl

/-- The state that a counted tick leaves to the stages that follow; `c.first` and a step of one are no slip. -/
def tickCounted (s : State) (phase : DWord) : State :=
  let c := s.cad
  let one := !(c.first) && phase.toNat == c.phase.toNat + 1
  let s := tickSeen s
  let s := if c.first || one then s else slip s
  let steps := if one then min (c.steps + 1) 2 else 0
  let cpt := if steps = 2 then min (s.cycle - c.last) 0xFFFFFFFF else 0
  { s with cad := { s.cad with phase := phase, held := true, steps := steps, cpt := cpt } }

theorem tickCounted_cadence (s : State) (phase : DWord) :
    (tickCounted s phase).wbt = s.wbt ∧ (tickCounted s phase).cad.phase = phase ∧ (tickCounted s phase).cad.last = s.cycle ∧
      (tickCounted s phase).cad.first = false ∧ (tickCounted s phase).cad.held = true := by
  have hslip := cad_slip (tickSeen s)
  have hwbt := wbt_slip (tickSeen s)
  unfold tickCounted
  dsimp only
  split
  · exact ⟨rfl, rfl, rfl, rfl, rfl⟩
  · rw [hslip, hwbt]
    exact ⟨rfl, rfl, rfl, rfl, rfl⟩

theorem cadenceTick_counts {s : State} {phase : DWord} (hv : s.cad.valid = true) (hlate : s.cad.last + 4 ≤ s.cycle)
    (hrise : s.cad.first = true ∨ s.cad.phase.toNat < phase.toNat) :
    cadenceTick s phase = countTick (tickCounted s phase) s.cad.phase (timeKnown s) := by
  have hvalid : ¬(!s.cad.valid) = true := by simp [hv]
  have hearly := Bool.not_eq_true _ ▸ early_of hlate
  have hhigh : ¬(!s.cad.first && decide (phase.toNat ≤ s.cad.phase.toNat)) = true := by
    rw [Bool.and_eq_true, decide_eq_true_eq, Bool.not_eq_true']
    intro h
    obtain h' | h' := hrise
    · exact absurd (h.1.symm.trans h') (by decide)
    · omega
  unfold cadenceTick
  dsimp only
  rw [if_neg hvalid, if_neg hearly, if_neg hhigh]
  rfl

theorem countTick_cadence (s : State) (old : DWord) (known : Bool) :
    (countTick s old known).cad = s.cad ∧
      (countTick s old known).wbt.table = tableAt s old.toNat s.cad.phase.toNat ∧
      (countTick s old known).wbt.gap = (slotAt (tableAt s old.toNat s.cad.phase.toNat) s.cad.phase.toNat).isNone ∧
      (countTick s old known).wbt.slot = (slotAt (tableAt s old.toNat s.cad.phase.toNat) s.cad.phase.toNat).getD 0 := by
  have hmark : Keeps kdA s (bump (allParts.foldl (quietMark old) s) 0 pgCAD 0xF10 1) :=
    bump_keeps (foldl_keeps (.refl s) fun _ _ h => quietMark_keeps h)
  obtain ⟨hcad, hwbt⟩ := hmark.cadence
  unfold countTick
  dsimp only
  generalize bump (allParts.foldl (quietMark old) s) 0 pgCAD 0xF10 1 = u at hcad hwbt ⊢
  obtain ⟨sc, st, sg, ss, -⟩ := slotStage_wbt u old.toNat
  rw [tableAt_of hwbt, hcad] at st sg ss
  have hrest : Keeps kdA (slotStage u old.toNat).1 (tickRest known (slotStage u old.toNat)) := tickRest_keeps (.refl _)
  obtain ⟨rc, rw'⟩ := hrest.cadence
  rw [rc, rw']
  exact ⟨sc.trans hcad, st, sg, ss⟩

/-- Settles O35: an early tick and one whose phase does not rise are slips; every other counts, and the slot is read from the table
that is then in effect. -/
theorem ticksMoveThePhase : Obligations.TicksMoveThePhase := by
  intro phase s hruns table
  have hrow : exec (.cadenceTick phase) s = .next (keepPins s (cadenceTick s phase)) := act_runs hruns fun s => cadenceTick s phase
  have hkeeps : Keeps kdK s (cadenceTick s phase) := cadenceTick_keeps (.refl s)
  rw [hkeeps.pins_eq] at hrow
  refine ⟨fun hv => ?_, fun hv hseen hearly => ⟨_, hrow, ?_⟩, fun hv hfirst hlate hphase => ⟨_, hrow, ?_⟩,
    fun hv hlate hrise => ⟨_, hrow, ?_⟩⟩
  · rw [hrow, cadenceTick, if_pos (by simp [hv])]
  · have hslip : cadenceTick s phase = slip s := by
      simp [cadenceTick, hv, hseen, hearly]
    rw [hslip]
    exact slip_eq s
  · have hsame := hkeeps.sameConfig
    have hcad : (slip (tickSeen s)).cad = { s.cad with last := s.cycle, seen := true, first := false, cpt := 0, steps := 0 } :=
      cad_slip _
    have hwbt : (slip (tickSeen s)).wbt = s.wbt := wbt_slip _
    have hlight : Light s (slip (tickSeen s)) := (⟨rfl, rfl, rfl⟩ : Light s (tickSeen s)).trans (light_slip _)
    rw [cadenceTick_slips hv hfirst hlate hphase] at hsame ⊢
    generalize slip (tickSeen s) = u at *
    obtain ⟨sc, st, sg, ss, sl⟩ := slotStage_wbt u s.cad.phase.toNat
    have hphase : u.cad.phase.toNat = s.cad.phase.toNat := by rw [hcad]
    rw [tableAt_of hwbt, hphase] at st sg ss
    have hrest : Keeps kdA (slotStage u s.cad.phase.toNat).1 (powerTick false (govChoose (slotStage u s.cad.phase.toNat).1)
        (slotStage u s.cad.phase.toNat).2) := powerTick_keeps (govChoose_keeps (.refl _))
    have hlight' := hlight.trans (sl.trans ((light_govChoose _).trans (light_powerTick _ (slotStage u s.cad.phase.toNat).2)))
    obtain ⟨rc, rw'⟩ := hrest.cadence
    refine ⟨rc.trans (sc.trans hcad), hsame, hlight'.mem, hlight'.parts, ?_⟩
    rw [rw', st]
    exact ⟨rfl, sg, ss⟩
  · have hsame := hkeeps.sameConfig
    obtain ⟨hwbt, hphase, hlast, hfirst, hheld⟩ := tickCounted_cadence s phase
    obtain ⟨cc, ct, cg, cs⟩ := countTick_cadence (tickCounted s phase) s.cad.phase (timeKnown s)
    rw [tableAt_of hwbt, hphase] at ct cg cs
    rw [← cadenceTick_counts hv hlate hrise] at cc ct cg cs
    refine ⟨by rw [cc, hphase], by rw [cc, hlast], by rw [cc, hfirst], by rw [cc, hheld], hsame, ?_⟩
    rw [ct]
    exact ⟨cg, cs, rfl⟩

end Sys2Proof.Machine
end

section
/-! Temperatures and power states (R311 to R316, R347). -/

namespace Sys2Proof.Machine

open Sys2Proof

/-! ## Fault records -/

/-- The records after one more of `f` at state `s`. -/
def faultsWith (s : State) (f : FaultRec) : List FaultRec :=
  ({ f with fseq := (s.fseq + 1) % 2 ^ 32, phase := s.cad.phase } :: s.faults).take 1024

/-- The state with the record written. -/
def recorded (s : State) (f : FaultRec) : State := { s with fseq := (s.fseq + 1) % 2 ^ 32, faults := faultsWith s f }

/-- A record is written; one that the driver did not consume may be counted. -/
theorem addFault_cases (s : State) (f : FaultRec) :
    addFault s f = bump (recorded s f) 0 pgFLT 0xF0C 1 ∨ addFault s f = recorded s f := by
  unfold addFault
  dsimp only
  split_ifs
  · exact .inl rfl
  · exact .inr rfl

theorem addFault_eq (s : State) (f : FaultRec) : addFault s f = { s with
    fseq := (s.fseq + 1) % 2 ^ 32
    faults := faultsWith s f
    live := (addFault s f).live } := by
  obtain e | e := addFault_cases s f
  · rw [e, bump_frame]
    rfl
  · rw [e]
    rfl

theorem addFault_asc {s : State} (h : wordsAsc s.live) (f : FaultRec) : wordsAsc (addFault s f).live := by
  obtain e | e := addFault_cases s f
  · rw [e]
    exact bump_asc (s := recorded s f) h _ _ _ _
  · rwa [e]

theorem live_addFault {s : State} (h : wordsAsc s.live) (f : FaultRec) {j q o : Nat} (hk : liveKey j q o ≠ liveKey 0 pgFLT 0xF0C) :
    live (addFault s f) j q o = live s j q o := by
  obtain e | e := addFault_cases s f
  · rw [e, live_bump_ne (s := recorded s f) h hk]
    rfl
  · rw [e]
    rfl

/-! ## Temperature (R311) -/

theorem key_trip (ch : Nat) : liveKey ch pgPWR 0xF3C ≠ liveKey 0 pgFLT 0xF0C := by
  unfold liveKey wordAddr pgPWR pgFLT
  omega

/-- A channel after a reading `t`. -/
def heatChan (s : State) (ch t : Nat) (x : Channel) : Channel :=
  { x with
    temp := t
    hot := decide (field (eff s pgPWR 0x110) 0 12 ≤ t) ||
      (chan s ch).hot && !(decide (t + 16 * field (eff s pgPWR 0x110) 12 4 < field (eff s pgPWR 0x110) 0 12))
    tripped := decide (field (eff s pgPWR 0x110) 16 12 ≤ t) }

theorem temperature_eq {s : State} {ch : Nat} (h : ch < capCH s) (code : Nat) :
    temperature s ch code =
      (let t := updChan s ch (heatChan s ch (tempOf s ch code))
       if decide (field (eff s pgPWR 0x110) 16 12 ≤ tempOf s ch code) && !((chan s ch).tripped) then
         bump (addFault t { faultOf { Who.block 0 with ch := ch } 10 1 with arg0 := tempOf s ch code }) ch pgPWR 0xF3C 1
       else t) := by
  unfold temperature
  rw [if_neg (by omega)]
  rfl

/-- Settles O38. -/
theorem temperatureLimitsWork : Obligations.TemperatureLimitsWork := by
  intro ch code s hruns hord hch c lim
  have hrow : exec (.temperatureReading ch code) s = .next (temperature s ch code.toNat) :=
    act_kept (f := fun s => temperature s ch code.toNat) hruns (temperature_keeps (kd := kdA) (.refl s))
  have heq := temperature_eq hch code.toNat
  have hchan : chan (updChan s ch (heatChan s ch c)) ch = heatChan s ch c (chan s ch) := chan_updChan_same s ch _
  have hother : ∀ n : Nat, n < 8 → n ≠ ch → chan (updChan s ch (heatChan s ch c)) n = chan s n := fun n hn hne =>
    chan_updChan_ne s ch.isLt hn hne _
  by_cases htrip : field lim 16 12 ≤ c ∧ (chan s ch).tripped = false
  · have hcond : (decide (field lim 16 12 ≤ c) && !((chan s ch).tripped)) = true := by simp [htrip.1, htrip.2]
    have ht : temperature s ch code.toNat = bump (addFault (updChan s ch (heatChan s ch c))
        { faultOf { Who.block 0 with ch := ch } 10 1 with arg0 := c }) ch pgPWR 0xF3C 1 := by
      rw [heq]
      exact if_pos hcond
    have hframe : temperature s ch code.toNat = { updChan s ch (heatChan s ch c) with
        fseq := (s.fseq + 1) % 2 ^ 32
        faults := faultsWith s { faultOf { Who.block 0 with ch := ch } 10 1 with arg0 := c }
        live := (temperature s ch code.toNat).live } := by
      rw [ht, bump_frame, addFault_eq]
      rfl
    have hasc : wordsAsc (updChan s ch (heatChan s ch c)).live := hord.2.2.1
    have hlive : live (temperature s ch code.toNat) ch pgPWR 0xF3C = min (live s ch pgPWR 0xF3C + 1) 0xFFFFFFFF := by
      rw [ht, live_bump_same (addFault_asc hasc _), live_addFault hasc _ (key_trip ch)]
      rfl
    generalize temperature s ch code.toNat = t at *
    refine ⟨t, hrow, ?_, fun n hn hne => ?_, ?_, ?_, fun _ _ => ⟨?_, hlive, ?_⟩, fun h => ?_⟩
    · rw [hframe]
      exact hchan
    · rw [hframe]
      exact hother n hn hne
    · rw [hframe]
      rfl
    · rw [hframe]
      rfl
    · rw [hframe]
      rfl
    · rw [hframe]
      rfl
    · obtain h | h := h
      · omega
      · rw [htrip.2] at h
        cases h
  · have hcond : (decide (field lim 16 12 ≤ c) && !((chan s ch).tripped)) = false := by
      simp only [not_and, Bool.not_eq_false] at htrip
      simp only [Bool.and_eq_false_imp, decide_eq_true_eq, Bool.not_eq_false']
      exact htrip
    have ht : temperature s ch code.toNat = updChan s ch (heatChan s ch c) := by
      rw [heq]
      exact if_neg (by rw [hcond]; decide)
    rw [ht] at hrow
    refine ⟨_, hrow, hchan, hother, rfl, rfl, fun h1 h2 => absurd ⟨h1, h2⟩ htrip, fun _ => rfl⟩

/-! ## Entering power states (R312 to R315) -/

theorem chosenDepth_spec (s : State) (ch : Nat) :
    chosenDepth s ch ≤ 3 ∧ (chosenDepth s ch = 0 ∨ depthOk s ch (chosenDepth s ch) = true) ∧
      ∀ e : Nat, chosenDepth s ch < e → e ≤ 3 → depthOk s ch e = false := by
  have hcases (e : Nat) (h : 0 < e) (h3 : e ≤ 3) : e = 1 ∨ e = 2 ∨ e = 3 := by omega
  unfold chosenDepth
  cases h3 : depthOk s ch 3 with
  | true => simp [h3]; omega
  | false =>
    cases h2 : depthOk s ch 2 with
    | true =>
      simp only [List.find?, h3, h2, Option.getD_some]
      refine ⟨by decide, by simp, fun e he he3 => ?_⟩
      obtain rfl : e = 3 := by omega
      exact h3
    | false =>
      cases h1 : depthOk s ch 1 with
      | true =>
        simp only [List.find?, h3, h2, h1, Option.getD_some]
        refine ⟨by decide, by simp, fun e he he3 => ?_⟩
        obtain rfl | rfl : e = 2 ∨ e = 3 := by omega
        · exact h2
        · exact h3
      | false =>
        simp only [List.find?, h3, h2, h1, Option.getD_none]
        refine ⟨by decide, by simp, fun e he he3 => ?_⟩
        obtain rfl | rfl | rfl := hcases e he he3
        · exact h1
        · exact h2
        · exact h3

theorem depth_ofDepth {d : Nat} (h : d ≤ 3) : (Power.ofDepth d).depth = d := by
  obtain rfl | rfl | rfl | rfl : d = 0 ∨ d = 1 ∨ d = 2 ∨ d = 3 := by omega
  all_goals rfl

/-- The conditions of a depth that the governor may choose. -/
theorem depthOk_spec {s : State} {ch d : Nat} (h : depthOk s ch d = true) :
    d ≤ regionMin s.wbt.table (if s.wbt.gap then none else some s.wbt.slot) ∧ (d = 3 → mayDoze s ch = true) ∧
      (s.cad.cpt = 0 ∨ s.cad.valid = false → d ≤ 1) ∧
      (s.cad.cpt ≠ 0 → s.cad.valid = true → ∀ x : Nat, eventIn s ch d = some x → eff s pgPWR (0x110 + 4 * d) ≤ x) := by
  simp only [depthOk, Bool.and_eq_true, decide_eq_true_eq, Bool.or_eq_true, bne_iff_ne, ne_eq] at h
  obtain ⟨⟨hmin, hdoze⟩, htime⟩ := h
  refine ⟨hmin, fun hd => hdoze.resolve_left fun hn => hn hd, fun hno => ?_, fun hcpt hv x hx => ?_⟩
  · rw [if_pos (by simpa using hno)] at htime
    simpa using htime
  · rw [if_neg (by simp [hcpt, hv]), hx] at htime
    simpa using htime

theorem mayDoze_spec {s : State} {ch : Nat} (h : mayDoze s ch = true) :
    bitOf (eff s pgPWR 0x120) ch = true ∧ (slice s ch).mem.queue = [] ∧
      ∀ p : Nat, chanOwner s ch = some p → (pool s p).pins = [] ∧ ∀ st : Strm, (strm s p st).cmds = [] := by
  simp only [mayDoze, Bool.and_eq_true, List.isEmpty_iff] at h
  obtain ⟨⟨hbit, hqueue⟩, hpart⟩ := h
  refine ⟨hbit, hqueue, fun p hp => ?_⟩
  rw [hp] at hpart
  simp only [Bool.and_eq_true, List.isEmpty_iff, List.all_eq_true] at hpart
  exact ⟨hpart.1, fun st => hpart.2 st (mem_allStrms st)⟩

theorem wake_doze {s : State} {ch : Nat} (hp : (chan s ch).power = .doze) (hw : (chan s ch).waking = false) : wake s ch = dozeLeft s ch := by
  simp [wake, hp, hw, dozeLeft]

theorem powerEntry_idle {s : State} {ch : Nat} (hch : ch < capCH s) (hidle : idleChan s ch = true) :
    powerEntry s ch =
      if (chan s ch).power.depth < chosenDepth s ch then goDeeper s ch (chosenDepth s ch)
      else if chosenDepth s ch < (chan s ch).power.depth then
        if (chan s ch).power == .doze then wake s ch else updChan s ch fun x => { x with power := Power.ofDepth (chosenDepth s ch) }
      else s := by
  unfold powerEntry
  rw [if_neg (by simp [hidle]; omega)]

theorem chan_updSlice (s : State) (n k : Nat) (f : Slice → Slice) : chan (updSlice s n f) k = chan s k := rfl

theorem slice_updChan (s : State) (n k : Nat) (f : Channel → Channel) : slice (updChan s n f) k = slice s k := rfl

theorem chan_bump (s : State) (i pg off n k : Nat) : chan (bump s i pg off n) k = chan s k := by
  rw [bump_frame]
  rfl

theorem slice_bump (s : State) (i pg off n k : Nat) : slice (bump s i pg off n) k = slice s k := by
  rw [bump_frame]
  rfl

/-- A deeper state: the channel's, with its slice's retention in DOZE. -/
theorem goDeeper_spec (s : State) (ch : Chan) (d : Nat) :
    goDeeper s ch d = { s with chans := (goDeeper s ch d).chans, slices := (goDeeper s ch d).slices } ∧
      (∀ n : Nat, n < 8 → n ≠ ch → chan (goDeeper s ch d) n = chan s n ∧ slice (goDeeper s ch d) n = slice s n) ∧
      chan (goDeeper s ch d) ch = { powerLoss (chan s ch) d with power := Power.ofDepth d } ∧
      slice (goDeeper s ch d) ch = if d = 3 then { slice s ch with ret := true } else slice s ch := by
  unfold goDeeper
  dsimp only
  split_ifs with hd
  · refine ⟨rfl, fun n hn hne => ⟨?_, ?_⟩, ?_, ?_⟩
    · rw [chan_updSlice, chan_updChan_ne s ch.isLt hn hne]
    · rw [slice_updSlice_ne _ ch.isLt hn hne]
      rfl
    · rw [chan_updSlice, chan_updChan_same]
    · rw [slice_updSlice_same]
      rfl
  · refine ⟨rfl, fun n hn hne => ⟨?_, rfl⟩, ?_, rfl⟩
    · rw [chan_updChan_ne s ch.isLt hn hne]
    · rw [chan_updChan_same]

/-- Settles O39: the cases are those of `powerEntry`, and the conditions those of the depth that it chooses. -/
theorem powerStateEntryIsAllowed : Obligations.PowerStateEntryIsAllowed := by
  intro ch s hruns
  have hrow : exec (.powerStateEntry ch) s = .next (powerEntry s ch) :=
    act_kept (f := fun s => powerEntry s ch) hruns (powerEntry_keeps (kd := kdA) (.refl s))
  refine ⟨fun hno => ?_, fun hch hidle => ?_⟩
  · have hstay : powerEntry s ch = s := by
      unfold powerEntry
      rw [if_pos (by simpa using hno)]
    rw [hrow, hstay]
  · obtain ⟨hle, hok, hdeepest⟩ := chosenDepth_spec s ch
    have hspec (hd : chosenDepth s ch ≠ 0) := depthOk_spec (hok.resolve_left hd)
    rw [hrow, powerEntry_idle hch hidle]
    refine ⟨chosenDepth s ch, hle, hok, hdeepest, fun hd => (hspec hd).1, fun hno => ?_, fun hd hcpt hv => (hspec hd).2.2.2 hcpt hv,
      fun hd => mayDoze_spec ((hspec (by omega)).2.1 hd), fun he => ?_, fun hlt => ?_, fun hlt hp => ?_, fun hlt hp => ?_⟩
    · by_cases hd : chosenDepth s ch = 0
      · omega
      · exact (hspec hd).2.2.1 hno
    · rw [if_neg (by omega), if_neg (by omega)]
    · rw [if_pos hlt]
      obtain ⟨hframe, hother, hchan, hslice⟩ := goDeeper_spec s ch (chosenDepth s ch)
      exact ⟨_, rfl, hframe, hother, hchan, by rw [hchan, depth_ofDepth hle], hslice⟩
    · rw [if_neg (by omega), if_pos hlt, if_neg (by simp [hp])]
    · have hwaking : (chan s ch).waking = false := by
        simp only [idleChan, Bool.and_eq_true, Bool.not_eq_true'] at hidle
        exact hidle.1.1.2
      rw [if_neg (by omega), if_pos hlt, if_pos (by simp [hp]), wake_doze hp hwaking]

/-! ## Wakes (R313, R315, R316, R347) -/

/-- What the begin of a wake leaves. -/
def wakeBegun (s : State) (ch : Nat) : State :=
  if (chan s ch).power = .doze then dozeLeft s ch else updChan s ch fun x => { x with power := .run, waking := false }

theorem wake_begins {s : State} {ch : Nat} (hp : (chan s ch).power ≠ .run) (hw : (chan s ch).waking = false) : wake s ch = wakeBegun s ch := by
  unfold wakeBegun
  split_ifs with hd
  · exact wake_doze hd hw
  · simp [wake, wakeEnd, hp, hw, hd]

theorem updChan_updChan (s : State) (ch : Nat) (f g : Channel → Channel) : updChan (updChan s ch f) ch g = updChan s ch (g ∘ f) := by
  have h := chan_updChan_same s ch f
  unfold updChan at h ⊢
  simp only [h, Vector.set_set, Function.comp]

theorem updChan_bump (s : State) (ch i pg off n : Nat) (f : Channel → Channel) :
    updChan (bump s i pg off n) ch f = bump (updChan s ch f) i pg off n := by
  unfold bump
  split_ifs
  · rfl
  · rfl

theorem wakeForUnit_eq {s : State} {ch : Nat} (hp : (chan s ch).power ≠ .run) (hw : (chan s ch).waking = false) :
    wakeForUnit s ch = if unitFits s ch then wakeBegun s ch else s := by
  unfold wakeForUnit unitFits
  cases chanOwner s ch with
  | none => rfl
  | some p => simp only [wake_begins hp hw]

theorem powerWake_asleep {s : State} {ch : Nat} (hch : ch < capCH s) (hp : (chan s ch).power ≠ .run) (hw : (chan s ch).waking = false) :
    powerWake s ch = match wakeIn s ch with
      | some t =>
        if t ≤ wakeTime s (chan s ch).power.depth then
          if t < wakeTime s (chan s ch).power.depth then
            lateWake (updChan (wakeBegun s ch) ch fun x => { x with wakeLate := false }) ch
          else wakeBegun s ch
        else if unitFits s ch then wakeBegun s ch else s
      | none => if unitFits s ch then wakeBegun s ch else s := by
  have hgo : (decide (capCH s ≤ ch) || (chan s ch).power == .run || (chan s ch).waking) = false := by
    simp [hp, hw]
    omega
  unfold powerWake
  cases wakeIn s ch with
  | none => simp only [hgo, Bool.false_eq_true, if_false, wakeForUnit_eq hp hw]
  | some t => simp only [hgo, Bool.false_eq_true, if_false, wake_begins hp hw, wakeForUnit_eq hp hw]

theorem lateWake_first (s : State) (ch : Nat) :
    lateWake (updChan s ch fun x => { x with wakeLate := false }) ch =
      bump (updChan s ch fun x => { x with wakeLate := true }) ch pgPWR 0xF38 1 := by
  have hlate : (chan (updChan s ch fun x => { x with wakeLate := false }) ch).wakeLate = false := by rw [chan_updChan_same]
  unfold lateWake
  rw [if_neg (by rw [hlate]; decide), updChan_bump, updChan_updChan]
  rfl

theorem live_wakeBegun (s : State) (ch : Nat) : (wakeBegun s ch).live = s.live := by
  unfold wakeBegun
  split_ifs <;> rfl

/-- A request for a row of a slice in DOZE counts and begins the wake. -/
theorem dozeHit_asks {s : State} {ch : Nat} (hp : (chan s ch).power = .doze) (hw : (chan s ch).waking = false) :
    dozeHit s ch = { dozeLeft s ch with live := (dozeHit s ch).live } ∧ (dozeHit s ch).live = (bump s ch pgPWR 0xF34 1).live := by
  have hb := bump_frame s ch pgPWR 0xF34 1
  have hask : dozeHit s ch = updChan (updSlice (bump s ch pgPWR 0xF34 1) ch fun x => { x with ret := false }) ch fun x =>
      { x with waking := true, wakeAt := s.cycle, wakeLate := false } := by
    unfold dozeHit
    rw [if_pos (by simp [hp, hw])]
  rw [hask]
  generalize bump s ch pgPWR 0xF34 1 = t at hb ⊢
  refine ⟨?_, rfl⟩
  rw [hb]
  rfl

theorem live_of_live {s t : State} (h : t.live = s.live) (j q o : Nat) : live t j q o = live s j q o := by
  simp only [live, h]

theorem retentionAck_rise {s : State} {ch : Nat} (hch : ch < capCH s) :
    retentionAck s ch true = updSlice s ch fun x => { x with retAck := true } := by
  unfold retentionAck
  rw [if_neg (by omega)]
  simp

theorem sramAck_rise {s : State} {ch : Nat} (hch : ch < capCH s) : sramAck s ch true = updSlice s ch fun x => { x with retAck := true } := by
  unfold sramAck
  simp only [retentionAck_rise hch, chan_updSlice]
  rw [if_neg (by cases (chan s ch).power <;> decide)]

/-- The end of a wake out of DOZE. -/
theorem wakeEnd_doze {s : State} {ch : Nat} (hp : (chan s ch).power = .doze) :
    wakeEnd s ch = { s with chans := (wakeEnd s ch).chans, dozed := s.dozed.filter fun e => e.1 != ch } ∧
      (chan (wakeEnd s ch) ch).power = .run ∧ (chan (wakeEnd s ch) ch).waking = false ∧
      (if (chan (wakeEnd s ch) ch).bank % 2 = 0 then (chan (wakeEnd s ch) ch).gen0 else (chan (wakeEnd s ch) ch).gen1) = curGen s := by
  have hend : wakeEnd s ch = updChan { writeBanks s ch with dozed := s.dozed.filter fun e => e.1 != ch } ch
      fun x => { x with power := .run, waking := false } := by
    unfold wakeEnd
    rw [if_pos (by simp [hp])]
  have hchan : chan ({ writeBanks s ch with dozed := s.dozed.filter fun e => e.1 != ch } : State) ch = chan (writeBanks s ch) ch := rfl
  rw [hend]
  refine ⟨rfl, ?_, ?_, ?_⟩
  · rw [chan_updChan_same]
  · rw [chan_updChan_same]
  · rw [chan_updChan_same, hchan, writeBanks, chan_updChan_same]
    dsimp only
    by_cases hb : (chan s ch).bank % 2 = 0
    · simp only [hb, if_true]
    · simp only [hb, if_false]

/-- The acknowledge that ends a wake: its handshake may be late. -/
theorem retentionAck_fall {s : State} {ch : Nat} (hch : ch < capCH s) (hw : (chan s ch).waking = true) (hret : (slice s ch).ret = false)
    (hrose : (slice s ch).retAck = true) :
    retentionAck s ch false = wakeEnd (if (chan s ch).wakeAt + 20 * govFreq s < s.cycle then
      lateWake (updSlice s ch fun x => { x with retAck := false }) ch else updSlice s ch fun x => { x with retAck := false }) ch := by
  have hslice : (slice (updSlice s ch fun x => { x with retAck := false }) ch).ret = false := by rw [slice_updSlice_same, hret]
  unfold retentionAck
  rw [if_neg (by omega)]
  simp only [hrose, hslice, chan_updSlice, hw, Bool.true_and, Bool.not_false, if_true]
  rfl

theorem lateWake_frame (s : State) (ch : Nat) :
    lateWake s ch = { s with chans := (lateWake s ch).chans, live := (lateWake s ch).live } ∧
      (chan (lateWake s ch) ch).power = (chan s ch).power := by
  unfold lateWake
  split_ifs
  · exact ⟨rfl, rfl⟩
  · have hb := bump_frame s ch pgPWR 0xF38 1
    refine ⟨?_, ?_⟩
    · generalize bump s ch pgPWR 0xF38 1 = t at hb ⊢
      rw [hb]
      rfl
    · rw [chan_updChan_same, chan_bump]

theorem sramAck_fall {s : State} {ch : Nat} (hp : (chan s ch).power = .doze) (h : (chan (retentionAck s ch false) ch).power = .run) :
    sramAck s ch false = allParts.foldl (fun s p => if partLoad s p then partWork s p else s)
      ((List.finRange 32).foldl tqResume (retentionAck s ch false)) := by
  unfold sramAck
  dsimp only
  rw [if_pos (by rw [hp, h]; decide)]

/-- A wake that ends when the retention's acknowledge falls: the channel runs, with its bank written. -/
theorem retentionAck_wakes {s : State} {ch : Nat} (hch : ch < capCH s) (hw : (chan s ch).waking = true) (hp : (chan s ch).power = .doze)
    (hret : (slice s ch).ret = false) (hrose : (slice s ch).retAck = true) :
    let v := retentionAck s ch false
    (chan v ch).power = .run ∧ (chan v ch).waking = false ∧ slice v ch = { slice s ch with retAck := false } ∧
      (if (chan v ch).bank % 2 = 0 then (chan v ch).gen0 else (chan v ch).gen1) = curGen s ∧
      (s.cycle ≤ (chan s ch).wakeAt + 20 * govFreq s → v.live = s.live) ∧
      v = { s with chans := v.chans, slices := v.slices, live := v.live, dozed := s.dozed.filter fun e => e.1 != ch } := by
  intro v
  have hfall := retentionAck_fall hch hw hret hrose
  obtain ⟨hlate, hpower⟩ := lateWake_frame (updSlice s ch fun x => { x with retAck := false }) ch
  obtain ⟨u, hu, hframe, hdoze, hlive⟩ : ∃ u : State, v = wakeEnd u ch ∧
      u = { updSlice s ch fun x => { x with retAck := false } with chans := u.chans, live := u.live } ∧ (chan u ch).power = .doze ∧
      (s.cycle ≤ (chan s ch).wakeAt + 20 * govFreq s → u.live = s.live) := by
    by_cases hl : (chan s ch).wakeAt + 20 * govFreq s < s.cycle
    · rw [if_pos hl] at hfall
      exact ⟨_, hfall, hlate, hpower.trans hp, fun h => absurd hl (not_lt.2 h)⟩
    · rw [if_neg hl] at hfall
      exact ⟨_, hfall, rfl, hp, fun _ => rfl⟩
  obtain ⟨hend, hrun, hawake, hbank⟩ := wakeEnd_doze hdoze
  have hgens : curGen u = curGen s := by
    rw [hframe]
    rfl
  rw [← hu] at hend hrun hawake hbank
  clear_value v
  refine ⟨hrun, hawake, ?_, hbank.trans hgens, fun h => ?_, ?_⟩
  · have hslices : v.slices = (updSlice s ch fun x => { x with retAck := false }).slices := by rw [hend, hframe]
    rw [slice_of_slices hslices, slice_updSlice_same]
  · rw [hend]
    exact hlive h
  · rw [hend, hframe]
    rfl

/-- Settles O40: each row is its function in one of three states of the channel, asleep, waking or at work. -/
theorem channelsWake : Obligations.ChannelsWake := by
  intro ch s hruns hord hch begun
  have hstart : exec (.powerWakeStart ch) s = .next (powerWake s ch) :=
    act_kept (f := fun s => powerWake s ch) hruns (powerWake_keeps (kd := kdA) (.refl s))
  have hask : exec (.dozeWakeRequest ch) s = .next (dozeHit s ch) :=
    act_kept (f := fun s => dozeWake s ch) hruns (dozeHit_keeps (kd := kdA) (.refl s))
  have hack (level : Bool) : exec (.sramRetentionAck ch level) s = .next (sramAck s ch level) :=
    act_kept (f := fun s => sramAck s ch level) hruns (sramAck_keeps (kd := kdA) (.refl s))
  refine ⟨fun hno => ?_, fun hp hw => ⟨fun hx => ?_, fun x hx hlt => ?_, fun hall => ?_⟩, fun hno => ?_, fun hp hw => ?_, ?_,
    fun hw hp hret hrose => ?_⟩
  · have hstay : powerWake s ch = s := by
      unfold powerWake
      rw [if_pos (by obtain h | h := hno <;> simp [h])]
    rw [hstart, hstay]
  · rw [hstart, powerWake_asleep hch hp hw, hx]
    simp only [le_refl, if_true, lt_irrefl, if_false]
    rfl
  · have ht : powerWake s ch = bump (updChan (wakeBegun s ch) ch fun x => { x with wakeLate := true }) ch pgPWR 0xF38 1 := by
      rw [powerWake_asleep hch hp hw, hx]
      simp only [hlt, hlt.le, if_true, lateWake_first]
    have hframe := bump_frame (updChan (wakeBegun s ch) ch fun x => { x with wakeLate := true }) ch pgPWR 0xF38 1
    have hlive := live_bump_same (s := updChan (wakeBegun s ch) ch fun x => { x with wakeLate := true })
      (by rw [updChan_live, live_wakeBegun]; exact hord.2.2.1) ch pgPWR 0xF38 1
    rw [← ht] at hframe hlive
    refine ⟨_, hstart, ?_, ?_, ?_, hframe⟩
    · rw [ht, chan_bump, chan_updChan_same]
      rfl
    · rw [ht, slice_bump, slice_updChan]
      rfl
    · rw [hlive]
      simp only [live, updChan_live, live_wakeBegun]
  · rw [hstart, powerWake_asleep hch hp hw]
    cases hx : wakeIn s ch with
    | none => rfl
    | some x =>
      have := hall x hx
      simp only [if_neg (not_le.2 this)]
      rfl
  · have hstay : dozeHit s ch = s := by
      unfold dozeHit
      rw [if_neg (by obtain h | h := hno <;> simp [h])]
    rw [hask, hstay]
  · obtain ⟨hframe, hlive⟩ := dozeHit_asks hp hw
    refine ⟨_, hask, hframe, ?_, fun j q o hk => ?_⟩
    · rw [live_of_live hlive, live_bump_same hord.2.2.1]
    · rw [live_of_live hlive, live_bump_ne hord.2.2.1 hk]
  · rw [hack, sramAck_rise]
    exact hch
  · obtain ⟨hrun, hawake, hslice, hbank, hlive, hframe⟩ := retentionAck_wakes hch hw hp hret hrose
    have hrow : exec (.sramRetentionAck ch false) s = .next (keepPins s (sramAck s ch false)) :=
      act_runs hruns fun s => sramAck s ch false
    rw [sramAck_fall hp hrun] at hrow
    exact ⟨retentionAck s ch false, hrun, hawake, hslice, hbank, hlive, hframe, hrow⟩

end Sys2Proof.Machine
end

section
/-! How commands end: what `markEnd`, `abortTask` and `endCmd` do to a stream, and what they leave alone (R285, R286). -/

namespace Sys2Proof.Machine

open Sys2Proof

/-! ## Streams that other work leaves alone -/

theorem strm_updPart_same {s : State} {p : Nat} {f : Partition → Partition} {k : Nat} {su : Strm}
    (hf : ∀ x : Partition, (f x).strm su = x.strm su) : strm (updPart s p f) k su = strm s k su := by
  unfold strm
  rw [part_updPart]
  split_ifs with h
  · rw [hf]
    simp only [part, h]
  · rfl

theorem strm_updPool (s : State) (p k : Nat) (f : Pool → Pool) (su : Strm) : strm (updPool s p f) k su = strm s k su :=
  strm_updPart_same fun x => by cases su <;> rfl

theorem strm_of_parts {s t : State} (h : t.parts = s.parts) (k : Nat) (su : Strm) : strm t k su = strm s k su := by
  simp only [strm, part, h]

theorem parts_bumpFree (s : State) (p off : Nat) : (bumpFree s p off).parts = s.parts := by
  unfold bumpFree
  exact (light_bump _ _ _ _ _).parts

theorem parts_abandonUnits (s : State) (p : Nat) (st : Strm) (k : Word) : (abandonUnits s p st k).parts = s.parts := by
  unfold abandonUnits
  refine foldl_keeps (P := fun u => u.parts = s.parts) rfl fun u n hu => ?_
  split
  · split_ifs
    · exact (parts_bumpFree _ _ _).trans hu
    · exact hu
  · exact hu

theorem strm_withdraw (s : State) (p : Nat) (st : Strm) (k : Word) (q : Nat) (su : Strm) :
    strm (withdraw s p st k) q su = strm s q su := strm_updPart_same fun x => by cases su <;> rfl

/-! ## The end of a command -/

/-- A command that has ended. -/
def endedAs (status detail : Nat) (o : Cmd) : Cmd := { o with stage := .ended, status := status, detail := detail }

/-- A stream in which the commands of stamp `k` have ended. -/
def strmEnded (k : Word) (status detail : Nat) (x : StreamSt) : StreamSt :=
  { x with
    cmds := x.cmds.map fun c => if c.stamp = k then endedAs status detail c else c
    doneQ := x.doneQ ++ [k] }

/-- A command that ends with a status other than `OK` leaves its channels and its swarms. -/
def unitsLeft (s : State) (p : Nat) (st : Strm) (k : Word) (status : Nat) : State :=
  if status = stOK then s else withdraw (abandonUnits s p st k) p st k

/-- What a transfer slot had staged counts where its command fails. -/
def slotCounted (s : State) (p : Nat) (st : Strm) (k : Word) (status : Nat) : State :=
  if status != stOK && (part s p).slots.any fun l => (l.strm == st && l.stamp == k) && l.phase != 0 then bumpFree s p 0xF24 else s

/-- A command that ends leaves its transfer slot and its wait. -/
def slotsFreed (s : State) (p : Nat) (st : Strm) (k : Word) : State :=
  updPool (updPart s p fun x => { x with slots := x.slots.filter fun l => !(l.strm == st && l.stamp == k) }) p fun x =>
    if x.wait.any fun w => w.strm == st && w.stamp == k then { x with wait := none, parking := none, parkFail := false } else x

theorem markEnd_eq (s : State) (p : Nat) (st : Strm) (k : Word) (status detail : Nat) :
    markEnd s p st k status detail =
      slotsFreed (slotCounted (unitsLeft (updStrm s p st (strmEnded k status detail)) p st k status) p st k status) p st k := rfl

theorem strm_unitsLeft (s : State) (p : Nat) (st : Strm) (k : Word) (status q : Nat) (su : Strm) :
    strm (unitsLeft s p st k status) q su = strm s q su := by
  unfold unitsLeft
  split_ifs
  · rfl
  · rw [strm_withdraw, strm_of_parts (parts_abandonUnits _ _ _ _)]

theorem strm_slotCounted (s : State) (p : Nat) (st : Strm) (k : Word) (status q : Nat) (su : Strm) :
    strm (slotCounted s p st k status) q su = strm s q su := by
  unfold slotCounted
  split_ifs
  · exact strm_of_parts (parts_bumpFree _ _ _) q su
  · rfl

theorem strm_slotsFreed (s : State) (p : Nat) (st : Strm) (k : Word) (q : Nat) (su : Strm) :
    strm (slotsFreed s p st k) q su = strm s q su := by
  unfold slotsFreed
  rw [strm_updPool, strm_updPart_same fun x => by cases su <;> rfl]

theorem strm_markEnd (s : State) (p : Nat) (st : Strm) (k : Word) (status detail : Nat) (su : Strm) :
    strm (markEnd s p st k status detail) p su = if su = st then strmEnded k status detail (strm s p st) else strm s p su := by
  rw [markEnd_eq, strm_slotsFreed, strm_slotCounted, strm_unitsLeft]
  by_cases h : su = st
  · rw [h, if_pos rfl, strm_updStrm_same]
  · rw [if_neg h, strm_updStrm_ne s p h]

/-- The commands of a stream of which those that `sel` names by their stamp have ended. -/
def cmdsEnded (sel : Word → Bool) (status detail : Nat) (l : List Cmd) : List Cmd :=
  l.map fun o => if sel o.stamp then endedAs status detail o else o

/-- What work on the commands of stream `st` of partition `p` changes of its streams. -/
structure StrmSame (p : Nat) (st : Strm) (s t : State) : Prop where
  tasks : (strm t p st).tasks = (strm s p st).tasks
  other : ∀ su : Strm, su ≠ st → strm t p su = strm s p su

theorem StrmSame.trans {p : Nat} {st : Strm} {s t u : State} (h : StrmSame p st s t) (g : StrmSame p st t u) : StrmSame p st s u :=
  ⟨g.tasks.trans h.tasks, fun su hsu => (g.other su hsu).trans (h.other su hsu)⟩

theorem markEnd_same (s : State) (p : Nat) (st : Strm) (k : Word) (status detail : Nat) :
    StrmSame p st s (markEnd s p st k status detail) := by
  refine ⟨?_, fun su hsu => ?_⟩
  · rw [strm_markEnd, if_pos rfl]
    rfl
  · rw [strm_markEnd, if_neg hsu]

theorem cmds_markEnd (s : State) (p : Nat) (st : Strm) (k : Word) (status detail : Nat) :
    (strm (markEnd s p st k status detail) p st).cmds = cmdsEnded (fun x => x == k) status detail (strm s p st).cmds := by
  rw [strm_markEnd, if_pos rfl]
  simp only [strmEnded, cmdsEnded, beq_iff_eq]

theorem cmdsEnded_cmdsEnded (a b : Word → Bool) (status detail : Nat) (l : List Cmd) :
    cmdsEnded b status detail (cmdsEnded a status detail l) = cmdsEnded (fun x => a x || b x) status detail l := by
  simp only [cmdsEnded, List.map_map]
  refine List.map_congr_left fun o _ => ?_
  by_cases ha : a o.stamp = true
  · simp [ha, endedAs]
  · simp [ha]

theorem foldl_markEnd (p : Nat) (st : Strm) (status : Nat) (l : List Cmd) (s : State) :
    (strm (l.foldl (fun s c => markEnd s p st c.stamp status 0) s) p st).cmds =
        cmdsEnded (fun x => l.any fun y => y.stamp == x) status 0 (strm s p st).cmds ∧
      StrmSame p st s (l.foldl (fun s c => markEnd s p st c.stamp status 0) s) := by
  induction l generalizing s with
  | nil => exact ⟨by simp [cmdsEnded], ⟨rfl, fun _ _ => rfl⟩⟩
  | cons c l ih =>
    obtain ⟨hcmds, hsame⟩ := ih (markEnd s p st c.stamp status 0)
    rw [List.foldl_cons, hcmds, cmds_markEnd, cmdsEnded_cmdsEnded]
    refine ⟨?_, (markEnd_same s p st c.stamp status 0).trans hsame⟩
    simp only [List.any_cons, Bool.beq_comm (a := c.stamp)]

/-- The commands that `endAll` ends. -/
theorem endAll_spec (s : State) (p : Nat) (st : Strm) (sel : Cmd → Bool) (status : Nat) :
    (strm (endAll s p st sel status) p st).cmds =
        cmdsEnded (fun x => (strm s p st).cmds.any fun y => y.stamp == x && (sel y && !y.ended)) status 0 (strm s p st).cmds ∧
      StrmSame p st s (endAll s p st sel status) := by
  obtain ⟨hcmds, hsame⟩ := foldl_markEnd p st status ((strm s p st).cmds.filter fun c => sel c && !(c.ended)) s
  refine ⟨hcmds.trans ?_, hsame⟩
  simp only [List.any_filter]
  congr 1
  funext x
  congr 1
  funext y
  exact Bool.and_comm _ _

/-- A task's commands that an abort stops. -/
def abortPicks (first : Word) (y : Cmd) : Bool := y.inTask && y.task == first && (y.stoppable || y.unstarted)

theorem stoppable_live {y : Cmd} (h : y.stoppable = true) : y.ended = false := by
  simp only [Cmd.stoppable, Bool.and_eq_true, beq_iff_eq] at h
  rw [Cmd.ended, h.1]
  rfl

theorem unstarted_live {y : Cmd} (h : y.unstarted = true) : y.ended = false := by
  simp only [Cmd.unstarted, Bool.and_eq_true, Bool.or_eq_true, beq_iff_eq] at h
  obtain ⟨hs | hs, -⟩ := h
  · rw [Cmd.ended, hs]
    rfl
  · rw [Cmd.ended, hs]
    rfl

/-- The two stops of an abort, in order, end what one stop of both would. -/
theorem cmdsEnded_stops (first : Word) (l : List Cmd) :
    (let m := cmdsEnded (fun x => l.any fun y => y.stamp == x && ((y.inTask && y.task == first && y.stoppable) && !y.ended)) stABORTED 0 l
     cmdsEnded (fun x => m.any fun y => y.stamp == x && ((y.inTask && y.task == first && y.unstarted) && !y.ended)) stABORTED 0 m) =
      cmdsEnded (fun x => l.any fun y => y.stamp == x && abortPicks first y) stABORTED 0 l := by
  dsimp only
  rw [cmdsEnded_cmdsEnded]
  congr 1
  funext x
  rw [Bool.eq_iff_iff]
  simp only [Bool.or_eq_true, List.any_eq_true, Bool.and_eq_true, beq_iff_eq, Bool.not_eq_true', abortPicks]
  constructor
  · rintro (⟨y, hy, hyx, ⟨⟨hin, htask⟩, hstop⟩, -⟩ | ⟨z, hz, hzx, ⟨⟨hin, htask⟩, hun⟩, hlive⟩)
    · exact ⟨y, hy, hyx, ⟨hin, htask⟩, .inl hstop⟩
    · obtain ⟨y, hy, rfl⟩ := List.mem_map.mp hz
      split_ifs at hzx hin htask hun hlive with hsel
      · exact absurd hlive Bool.true_eq_false.mp
      · exact ⟨y, hy, hzx, ⟨hin, htask⟩, .inr hun⟩
  · rintro ⟨y, hy, hyx, ⟨hin, htask⟩, hstop | hun⟩
    · exact .inl ⟨y, hy, hyx, ⟨⟨hin, htask⟩, hstop⟩, stoppable_live hstop⟩
    · by_cases hsel : ∃ z ∈ l, z.stamp = x ∧ ((z.inTask = true ∧ z.task = first) ∧ z.stoppable = true) ∧ z.ended = false
      · exact .inl hsel
      · refine .inr ⟨y, ?_, hyx, ⟨⟨hin, htask⟩, hun⟩, unstarted_live hun⟩
        refine List.mem_map.mpr ⟨y, hy, if_neg ?_⟩
        simpa only [hyx, List.any_eq_true, Bool.and_eq_true, beq_iff_eq, Bool.not_eq_true'] using hsel

/-- A stream in which the task that begins at `first` is aborted. -/
def taskAborted (first : Word) (x : StreamSt) : StreamSt :=
  { x with tasks := x.tasks.map fun t => if t.first = first then { t with aborted := true } else t }

/-- The started commands of a task stop at its abort. -/
def startedStopped (s : State) (p : Nat) (st : Strm) (first : Word) : State :=
  endAll (updStrm s p st (taskAborted first)) p st (fun c => (c.inTask && c.task == first) && c.stoppable) stABORTED

theorem abortTask_eq (s : State) (p : Nat) (st : Strm) (first : Word) :
    abortTask s p st first = endAll (startedStopped s p st first) p st (fun c => (c.inTask && c.task == first) && c.unstarted) stABORTED :=
  rfl

/-- What an abort of the task `first` does to its stream. -/
theorem abortTask_spec (s : State) (p : Nat) (st : Strm) (first : Word) :
    (strm (abortTask s p st first) p st).cmds =
        cmdsEnded (fun x => (strm s p st).cmds.any fun y => y.stamp == x && abortPicks first y) stABORTED 0 (strm s p st).cmds ∧
      (strm (abortTask s p st first) p st).tasks =
        (strm s p st).tasks.map (fun t => if t.first = first then { t with aborted := true } else t) ∧
      ∀ su : Strm, su ≠ st → strm (abortTask s p st first) p su = strm s p su := by
  obtain ⟨hstop, hstopSame⟩ :=
    endAll_spec (updStrm s p st (taskAborted first)) p st (fun c => (c.inTask && c.task == first) && c.stoppable) stABORTED
  obtain ⟨hun, hunSame⟩ := endAll_spec (startedStopped s p st first) p st (fun c => (c.inTask && c.task == first) && c.unstarted) stABORTED
  rw [strm_updStrm_same] at hstop
  rw [startedStopped, hstop, ← startedStopped, ← abortTask_eq] at hun
  refine ⟨hun.trans (cmdsEnded_stops first _), ?_, fun su hsu => ?_⟩
  · rw [abortTask_eq, (hstopSame.trans hunSame).tasks, strm_updStrm_same]
    rfl
  · rw [abortTask_eq, (hstopSame.trans hunSame).other su hsu, strm_updStrm_ne s p hsu]

/-- What the end of a command does to its stream (R285, R286). -/
theorem endCmd_spec {s : State} {p : Nat} {st : Strm} {k : Word} {status : Nat} (detail : Nat) {c : Cmd}
    (hc : getCmd s p st k = some c) (hlive : c.ended = false) (hend : c.op = opTASKEND → c.inTask = true → goesOn status = true) :
    endCmd s p st k status detail =
      if (c.inTask && !(goesOn status)) = true then abortTask (markEnd s p st k status detail) p st c.task
      else markEnd s p st k status detail := by
  have hno : (decide (c.op = opTASKEND) && c.inTask && !(goesOn status)) = false := by
    rw [Bool.eq_false_iff]
    intro h
    simp only [Bool.and_eq_true, decide_eq_true_eq, Bool.not_eq_true'] at h
    obtain ⟨⟨hop, hin⟩, hgo⟩ := h
    rw [hend hop hin] at hgo
    cases hgo
  simp only [endCmd, hc, hlive, hno, Bool.and_false, Bool.false_and, Bool.false_eq_true, if_false, Bool.and_comm (!(goesOn status))]

theorem abortPicks_endedAs (first : Word) (status detail : Nat) (y : Cmd) : abortPicks first (endedAs status detail y) = false := by
  have hended : (endedAs status detail y).ended ≠ false := Bool.true_eq_false.mp
  have hs : (endedAs status detail y).stoppable = false := Bool.eq_false_iff.mpr fun h => hended (stoppable_live h)
  have hu : (endedAs status detail y).unstarted = false := Bool.eq_false_iff.mpr fun h => hended (unstarted_live h)
  rw [abortPicks, hs, hu, Bool.or_self, Bool.and_false]

/-- Whether an abort of the task `first` ends the commands of stamp `x` in `l`. -/
def abortEnds (first : Word) (l : List Cmd) (x : Word) : Bool := l.any fun y => y.stamp == x && abortPicks first y

/-- An abort after the end of the commands of stamp `k` does not reach them, and reaches the others as before. -/
theorem abortEnds_cmdsEnded (first k : Word) (status detail : Nat) (l : List Cmd) (x : Word) :
    abortEnds first (cmdsEnded (fun x => x == k) status detail l) x = (x != k && abortEnds first l x) := by
  simp only [abortEnds, cmdsEnded, List.any_map]
  induction l with
  | nil => simp
  | cons y l ih =>
    rw [List.any_cons, List.any_cons, ih, Bool.and_or_distrib_left]
    congr 1
    simp only [Function.comp, beq_iff_eq]
    by_cases hy : y.stamp = k
    · rw [if_pos hy, abortPicks_endedAs, Bool.and_false]
      by_cases hx : x = k
      · simp [hx]
      · simp [hy, Ne.symm hx]
    · rw [if_neg hy]
      by_cases hx : x = k
      · simp [hx, hy]
      · simp [hx]

/-- The commands and the tasks of a stream after the end of its command `k` (R285, R286). -/
theorem endCmd_stream {s : State} {p : Nat} {st : Strm} {k : Word} {status : Nat} (detail : Nat) {c : Cmd}
    (hc : getCmd s p st k = some c) (hlive : c.ended = false) (hend : c.op = opTASKEND → c.inTask = true → goesOn status = true) :
    (strm (endCmd s p st k status detail) p st).cmds = (strm s p st).cmds.map (fun o =>
        if o.stamp = k then endedAs status detail o
        else if ((c.inTask && !(goesOn status)) && abortEnds c.task (strm s p st).cmds o.stamp) = true then endedAs stABORTED 0 o
        else o) ∧
      (strm (endCmd s p st k status detail) p st).tasks = (strm s p st).tasks.map (fun t =>
        if ((c.inTask && !(goesOn status)) && t.first == c.task) = true then { t with aborted := true } else t) ∧
      ∀ su : Strm, su ≠ st → strm (endCmd s p st k status detail) p su = strm s p su := by
  rw [endCmd_spec detail hc hlive hend]
  have hmark := markEnd_same s p st k status detail
  cases habort : (c.inTask && !(goesOn status)) with
  | false =>
    rw [if_neg Bool.false_ne_true]
    refine ⟨?_, ?_, hmark.other⟩
    · rw [cmds_markEnd, cmdsEnded]
      simp only [beq_iff_eq, Bool.false_and, Bool.false_eq_true, if_false]
    · rw [hmark.tasks]
      simp only [Bool.false_and, Bool.false_eq_true, if_false, List.map_id']
  | true =>
    rw [if_pos rfl]
    obtain ⟨hcmds, htasks, hother⟩ := abortTask_spec (markEnd s p st k status detail) p st c.task
    refine ⟨?_, ?_, fun su hsu => (hother su hsu).trans (hmark.other su hsu)⟩
    · rw [hcmds, cmds_markEnd]
      change cmdsEnded (abortEnds c.task _) stABORTED 0 _ = _
      simp only [cmdsEnded, List.map_map]
      refine List.map_congr_left fun o _ => ?_
      have hreach := abortEnds_cmdsEnded c.task k status detail (strm s p st).cmds o.stamp
      rw [cmdsEnded] at hreach
      simp only [Function.comp, beq_iff_eq, Bool.true_and] at hreach ⊢
      by_cases ho : o.stamp = k
      · rw [if_pos ho, if_pos ho, if_neg]
        rw [show (endedAs status detail o).stamp = o.stamp from rfl, hreach, ho]
        simp
      · rw [if_neg ho, if_neg ho, hreach]
        simp [ho]
    · rw [htasks, hmark.tasks]
      simp only [Bool.true_and, beq_iff_eq]

/-! ## One command, while others end -/

theorem getCmd_map {s t : State} {p : Nat} {st : Strm} {f : Cmd → Cmd} (hf : ∀ o : Cmd, (f o).stamp = o.stamp)
    (h : (strm t p st).cmds = (strm s p st).cmds.map f) (k : Word) : getCmd t p st k = (getCmd s p st k).map f := by
  simp only [getCmd, h, List.find?_map, Function.comp_def, hf]

theorem stamp_of_getCmd {s : State} {p : Nat} {st : Strm} {k : Word} {c : Cmd} (h : getCmd s p st k = some c) : c.stamp = k :=
  beq_iff_eq.mp (List.find?_some (p := fun c : Cmd => c.stamp == k) h)

/-- A command that ends with `e` or `ABORTED` if it ends. -/
def Cmd.EndsWith (e : Nat) (d : Cmd) : Prop := d.op ≠ opTASKEND ∧ (d.ended = true → d.status = e ∨ d.status = stABORTED)

theorem endsWith_abort {e : Nat} {d : Cmd} (h : d.EndsWith e) : (endedAs stABORTED 0 d).EndsWith e := ⟨h.1, fun _ => .inr rfl⟩

/-- What the work on other commands makes of a command. -/
def Cmd.Kept (d d' : Cmd) : Prop := d' = d ∨ d' = endedAs stABORTED 0 d

theorem Cmd.EndsWith.kept {e : Nat} {d d' : Cmd} (h : d.EndsWith e) (hd : d.Kept d') : d'.EndsWith e := by
  rcases hd with rfl | rfl
  · exact h
  · exact endsWith_abort h

theorem Cmd.Kept.ended {d d' : Cmd} (h : d.Kept d') (hd : d.ended = true) : d'.ended = true := by
  rcases h with rfl | rfl
  · exact hd
  · rfl

theorem getCmd_cmdsEnded {s t : State} {p : Nat} {st : Strm} {sel : Word → Bool} {status detail : Nat}
    (h : (strm t p st).cmds = cmdsEnded sel status detail (strm s p st).cmds) (k : Word) :
    getCmd t p st k = (getCmd s p st k).map fun d => if sel d.stamp then endedAs status detail d else d :=
  getCmd_map (fun o => by split_ifs <;> rfl) h k

theorem getCmd_abortTask {s : State} {p : Nat} {st : Strm} (first : Word) {k : Word} {d : Cmd} (h : getCmd s p st k = some d) :
    ∃ d' : Cmd, getCmd (abortTask s p st first) p st k = some d' ∧ d.Kept d' := by
  refine ⟨_, (getCmd_cmdsEnded (abortTask_spec s p st first).1 k).trans (by rw [h]; rfl), ?_⟩
  dsimp only
  split_ifs
  · exact .inr rfl
  · exact .inl rfl

theorem getCmd_updCmd_ne {s : State} {p : Nat} {st : Strm} {k k' : Word} (hk : k ≠ k') (f : Cmd → Cmd)
    (hf : ∀ o : Cmd, (f o).stamp = o.stamp) : getCmd (updCmd s p st k' f) p st k = getCmd s p st k := by
  have hcmds : (strm (updCmd s p st k' f) p st).cmds = (strm s p st).cmds.map fun c => if c.stamp = k' then f c else c := by
    rw [updCmd, strm_updStrm_same]
  rw [getCmd_map (fun o => by split_ifs; exacts [hf o, rfl]) hcmds k]
  cases h : getCmd s p st k with
  | none => rfl
  | some d => rw [Option.map_some, if_neg (by rw [stamp_of_getCmd h]; exact hk)]

theorem getCmd_markEnd {s : State} {p : Nat} {st : Strm} {k : Word} {d : Cmd} (k' : Word) (status detail : Nat)
    (h : getCmd s p st k = some d) :
    getCmd (markEnd s p st k' status detail) p st k = some (if k = k' then endedAs status detail d else d) := by
  rw [getCmd_cmdsEnded (cmds_markEnd s p st k' status detail) k, h, Option.map_some, stamp_of_getCmd h]
  simp only [beq_iff_eq]

/-- What the end of a command is made of: a change of the command, its end, and an abort of its task. -/
theorem endCmd_ind {P : State → Prop} {s : State} {p : Nat} {st : Strm} {k : Word} {status detail : Nat} (hs : P s)
    (hupd : ∀ f : Cmd → Cmd, (∀ o : Cmd, (f o).stamp = o.stamp) → P (updCmd s p st k f)) (hmark : P (markEnd s p st k status detail))
    (habort : ∀ (t : State) (first : Word), P t → P (abortTask t p st first)) : P (endCmd s p st k status detail) := by
  unfold endCmd
  cases getCmd s p st k with
  | none => exact hs
  | some c =>
    dsimp only
    by_cases hwrite : (decide (c.op = opTASKEND) && c.inTask && c.ended) = true
    · rw [if_pos hwrite]
      exact hupd _ fun _ => rfl
    rw [if_neg hwrite]
    by_cases hrefuse : (decide (c.op = opTASKEND) && c.inTask && !(goesOn status)) = true
    · rw [if_pos hrefuse]
      exact habort _ _ (hupd _ fun _ => rfl)
    rw [if_neg hrefuse]
    by_cases hover : (c.ended && (c.status != stOK || status == stOK)) = true
    · rw [if_pos hover]
      exact hs
    rw [if_neg hover]
    have hfirst : P (if c.ended = true then updCmd s p st k fun c => { c with status := status, detail := detail }
        else markEnd s p st k status detail) := by
      by_cases hended : c.ended = true
      · rw [if_pos hended]
        exact hupd _ fun _ => rfl
      · rw [if_neg hended]
        exact hmark
    by_cases hstop : (!(goesOn status) && c.inTask) = true
    · rw [if_pos hstop]
      exact habort _ _ hfirst
    · rw [if_neg hstop]
      exact hfirst

theorem Cmd.Kept.trans {a b c : Cmd} (h : a.Kept b) (g : b.Kept c) : a.Kept c := by
  rcases h with rfl | rfl
  · exact g
  · exact .inr (g.elim id id)

/-- The end of another command of the stream. -/
theorem getCmd_endCmd_ne {s : State} {p : Nat} {st : Strm} {k k' : Word} {d : Cmd} (hk : k ≠ k') (status detail : Nat)
    (h : getCmd s p st k = some d) : ∃ d' : Cmd, getCmd (endCmd s p st k' status detail) p st k = some d' ∧ d.Kept d' := by
  refine endCmd_ind (P := fun t => ∃ d' : Cmd, getCmd t p st k = some d' ∧ d.Kept d') ⟨d, h, .inl rfl⟩ (fun f hf => ?_) ?_
    fun t first ht => ?_
  · exact ⟨d, (getCmd_updCmd_ne hk f hf).trans h, .inl rfl⟩
  · exact ⟨d, (getCmd_markEnd k' status detail h).trans (by rw [if_neg hk]), .inl rfl⟩
  · obtain ⟨d', hd', hkept⟩ := ht
    obtain ⟨d'', hd'', hkept'⟩ := getCmd_abortTask first hd'
    exact ⟨d'', hd'', hkept.trans hkept'⟩

/-- The end of a command that is no `task.end` with `e`, which is not `OK`. -/
theorem getCmd_endCmd_self {s : State} {p : Nat} {st : Strm} {k : Word} {e : Nat} (detail : Nat) {c : Cmd} (he : e ≠ stOK)
    (hc : getCmd s p st k = some c) (hop : c.EndsWith e) :
    ∃ d : Cmd, getCmd (endCmd s p st k e detail) p st k = some d ∧ d.EndsWith e ∧ d.ended = true := by
  obtain ⟨hno, hend⟩ := hop
  by_cases hlive : c.ended = true
  · refine ⟨c, ?_, ⟨hno, hend⟩, hlive⟩
    have hstat : c.status ≠ stOK := by
      rcases hend hlive with h | h
      · exact h ▸ he
      · rw [h]
        decide
    simp [endCmd, hc, hno, hlive, hstat]
  · rw [endCmd_spec detail hc (Bool.not_eq_true _ ▸ hlive) fun h => absurd h hno]
    have hmark := getCmd_markEnd k e detail hc
    rw [if_pos rfl] at hmark
    have hmarked : (endedAs e detail c).EndsWith e := ⟨hno, fun _ => .inl rfl⟩
    split_ifs
    · obtain ⟨d, hd, hkept⟩ := getCmd_abortTask c.task hmark
      exact ⟨d, hd, hmarked.kept hkept, hkept.ended rfl⟩
    · exact ⟨_, hmark, hmarked, rfl⟩

/-- The commands of a unit after they fault, one after the other. -/
theorem getCmd_foldl_endCmd {p : Nat} {st : Strm} {k : Word} {e : Nat} (detail : Nat) (he : e ≠ stOK) (l : List Word) {s : State} {c : Cmd}
    (hc : getCmd s p st k = some c) (hop : c.EndsWith e) (hk : c.ended = true ∨ k ∈ l) :
    ∃ d : Cmd, getCmd (l.foldl (fun s t => endCmd s p st t e detail) s) p st k = some d ∧ d.EndsWith e ∧ d.ended = true := by
  induction l generalizing s c with
  | nil => exact ⟨c, hc, hop, hk.resolve_right List.not_mem_nil⟩
  | cons j l ih =>
    rw [List.foldl_cons]
    by_cases hj : k = j
    · obtain ⟨d, hd, hop', hended⟩ := getCmd_endCmd_self detail he hc hop
      exact ih (hj ▸ hd) hop' (.inl hended)
    · obtain ⟨d, hd, hkept⟩ := getCmd_endCmd_ne hj e detail hc
      exact ih hd (hop.kept hkept) (hk.imp hkept.ended fun h => (List.mem_cons.mp h).resolve_left hj)

theorem mem_inOrder {s : State} {p : Nat} {st : Strm} {ks : List Word} {k : Word} {c : Cmd}
    (hc : getCmd s p st k = some c) (hk : k ∈ ks) : k ∈ inOrder s p st ks := by
  refine List.mem_filter.mpr ⟨List.mem_map.mpr ⟨c, List.mem_of_find?_eq_some hc, stamp_of_getCmd hc⟩, ?_⟩
  exact List.contains_iff_mem.mpr hk

end Sys2Proof.Machine
end

section
/-! Channels that leave service, come back or fail (R75, R76, R81, R140, R169, R395, R450, R451). -/

namespace Sys2Proof.Machine

open Sys2Proof

/-! ## The return of a channel -/

theorem faults_addFault (s : State) (f : FaultRec) : (addFault s f).faults = faultsWith s f := by rw [addFault_eq]

theorem chan_addFault (s : State) (f : FaultRec) (ch : Nat) : chan (addFault s f) ch = chan s ch :=
  chan_of_chans (by rw [addFault_eq]) ch

/-- The state of a channel that takes the map and both function banks. -/
def mapped (s : State) (ch : Nat) : State := applyMap (writeBanks s ch) ch

theorem chan_mapped_ne (s : State) {ch n : Nat} (hch : ch < 8) (hn : n < 8) (h : n ≠ ch) : chan (mapped s ch) n = chan s n :=
  (chan_updChan_ne _ hch hn h _).trans (chan_updChan_ne s hch hn h _)

/-- The bad columns of a channel, by page lane. -/
def badOf (s : State) (ch : Nat) : List (Nat × Nat) :=
  ((List.range 16).map fun i => laneBad s ch (i / 4) (i % 4)).zipIdx.flatMap fun (cs, i) => cs.map fun k => (i, k)

theorem mem_badOf (s : State) (ch : Nat) {a l : Nat} (ha : a < 4) (hl : l < 4) (k : Nat) :
    (4 * a + l, k) ∈ badOf s ch ↔ k ∈ laneBad s ch a l := by
  have hdiv : (4 * a + l) / 4 = a := by omega
  have hmod : (4 * a + l) % 4 = l := by omega
  have hget : ((List.range 16).map fun i => laneBad s ch (i / 4) (i % 4))[4 * a + l]? = some (laneBad s ch a l) := by
    rw [List.getElem?_map, List.getElem?_range (by omega), Option.map_some, hdiv, hmod]
  simp only [badOf, List.mem_flatMap, List.mem_map, Prod.exists, Prod.mk.injEq]
  constructor
  · rintro ⟨cs, i, hi, k', hk', rfl, rfl⟩
    have hcs := List.mem_zipIdx_iff_getElem?.mp hi
    rw [hget, Option.some.injEq] at hcs
    exact hcs ▸ hk'
  · intro hk
    exact ⟨_, _, List.mem_zipIdx_iff_getElem?.mpr hget, k, hk, rfl, rfl⟩

/-- The generation that the function bank not in use takes. -/
def otherGen (s : State) (ch : Nat) : Nat :=
  if 2 ≤ (chan s ch).bank then curGen s + 1 else if switchPend s then prevGen s else curGen s

/-- What a channel that takes the map and both function banks holds. -/
theorem chan_mapped (s : State) (ch : Nat) :
    (chan (mapped s ch) ch).past = eff s (pgARY ch) 0x104 ∧ (chan (mapped s ch) ch).badCols = badOf s ch ∧
      (chan (mapped s ch) ch).astate = (chan (applyMap s ch) ch).astate ∧ (chan (mapped s ch) ch).role = (chan (applyMap s ch) ch).role ∧
      (chan (mapped s ch) ch).lanes = (chan (applyMap s ch) ch).lanes ∧ (chan (mapped s ch) ch).bank = (chan s ch).bank ∧
      if (chan s ch).bank % 2 = 0 then (chan (mapped s ch) ch).gen0 = curGen s ∧ (chan (mapped s ch) ch).gen1 = otherGen s ch
      else (chan (mapped s ch) ch).gen1 = curGen s ∧ (chan (mapped s ch) ch).gen0 = otherGen s ch := by
  rw [mapped, applyMap, applyMap]
  dsimp only
  rw [chan_updChan_same, chan_updChan_same, writeBanks, chan_updChan_same]
  refine ⟨rfl, rfl, rfl, rfl, rfl, ?_, ?_⟩
  · dsimp only
    split_ifs <;> rfl
  · dsimp only [otherGen]
    split_ifs <;> exact ⟨rfl, rfl⟩

/-- A channel in service again. -/
def returned (s : State) (ch : Nat) : State :=
  updChan (mapped s ch) ch fun x => { x with service := .run, returning := false, cur := none, progress := s.cycle }

theorem channelReturn_eq {s : State} {ch : Nat} (hout : (chan s ch).service = .out) (hret : (chan s ch).returning = true) :
    channelReturn s ch = addFault (returned s ch) { faultOf { Who.block 0 with ch := ch } 7 4 with arg0 := 0 } := by
  have h : ((chan s ch).service == .out && (chan s ch).returning) = true := by
    rw [hout, hret]
    rfl
  rw [channelReturn, if_pos h]
  rfl

/-- Settles O41: each service row acts in one state of the channel alone; the map and the banks that a channel takes at
its return are those that `applyMap` and `writeBanks` give it, which do not read each other's words. -/
theorem channelServiceMoves : Obligations.ChannelServiceMoves := by
  intro ch rs s hruns hquiet
  have hch := ch.isLt
  have htest : ∀ f : State → State, act s f = .next (keepPins s (f s)) := fun f => act_runs hruns f
  have hdone : exec (.selfTestDone ch rs) s = .next (cfgSettle (selfTestDone s ch rs)) :=
    act_kept (f := fun s => cfgSettle (selfTestDone s ch rs)) hruns (cfgSettle_keeps (selfTestDone_keeps (.refl s)))
  refine ⟨fun hleave hunit => ?_, fun hleave => ?_, fun hinit hcap hserv => ?_, fun hserv => ?_, fun hout hret => ?_, fun hout => ?_⟩
  · have h : ((chan s ch).service == .leaving && (chan s ch).unit.isNone) = true := by
      rw [hleave, hunit]
      rfl
    rw [show exec (.selfTestStart ch) s = act s fun s => selfTestStart s ch from rfl, htest, selfTestStart, if_pos h]
    rfl
  · have h : ¬ ((chan s ch).service == .leaving && (chan s ch).unit.isNone) = true := by
      simp [hleave]
    rw [show exec (.selfTestStart ch) s = act s fun s => selfTestStart s ch from rfl, htest, selfTestStart, if_neg h]
    rfl
  · have h : (s.initTest && decide ((ch : Nat) < capCH s)) = true := by
      simp [hinit, hcap]
    have ht : ((chan s ch).service == .test) = true := by
      rw [hserv]
      rfl
    rw [hdone, selfTestDone, if_pos h, testDone, if_pos ht]
    exact congrArg _ (cfgSettle_quiet hquiet)
  · have ht : ¬ ((chan s ch).service == .test) = true := by
      simpa using hserv
    rw [hdone, selfTestDone, testDone, if_neg ht, ite_self]
    exact congrArg _ (cfgSettle_quiet hquiet)
  · refine ⟨channelReturn s ch, act_kept (f := fun s => channelReturn s ch) hruns (channelReturn_keeps (kd := kdA) (.refl s)), ?_⟩
    rw [channelReturn_eq hout hret]
    obtain ⟨hpast, hbad, hastate, hrole, hlanes, hbank, hgens⟩ := chan_mapped s ch
    have hself : chan (returned s ch) ch =
        { chan (mapped s ch) ch with service := .run, returning := false, cur := none, progress := s.cycle } := chan_updChan_same _ _ _
    rw [chan_addFault, hself]
    refine ⟨rfl, rfl, hpast, fun a l k ha hl => ?_, hastate, hrole, hlanes, hbank, hgens, fun n hn hne => ?_, ?_, ?_⟩
    · exact hbad ▸ mem_badOf s ch ha hl k
    · rw [chan_addFault]
      exact (chan_updChan_ne _ hch hn hne _).trans (chan_mapped_ne s hch hn hne)
    · rw [faults_addFault]
      rfl
    · have hframe : returned s ch = { s with chans := (returned s ch).chans } := rfl
      rw [addFault_eq]
      rw [hframe]
  · have h : ¬ ((chan s ch).service == .out && (chan s ch).returning) = true := by
      simp [hout]
    rw [show exec (.channelReturn ch) s = act s fun s => channelReturn s ch from rfl, htest, channelReturn, if_neg h]
    rfl

/-! ## What the end of commands leaves alone -/

/-- The records and the channels' service stay, and no channel takes a unit. -/
structure EndsOnly (s t : State) : Prop where
  faults : t.faults = s.faults
  service : ∀ n : Nat, (chan t n).service = (chan s n).service
  free : ∀ n : Nat, (chan s n).unit = none → (chan t n).unit = none

theorem EndsOnly.refl (s : State) : EndsOnly s s := ⟨rfl, fun _ => rfl, fun _ h => h⟩

theorem EndsOnly.trans {s t u : State} (h : EndsOnly s t) (g : EndsOnly t u) : EndsOnly s u :=
  ⟨g.faults.trans h.faults, fun n => (g.service n).trans (h.service n), fun n hn => g.free n (h.free n hn)⟩

theorem endsOnly_of {s t : State} (hf : t.faults = s.faults) (hc : t.chans = s.chans) : EndsOnly s t :=
  ⟨hf, fun n => by rw [chan_of_chans hc n], fun n h => by rwa [chan_of_chans hc n]⟩

theorem endsOnly_bumpFree (s : State) (p off : Nat) : EndsOnly s (bumpFree s p off) := by
  unfold bumpFree
  dsimp only
  rw [bump_frame]
  exact endsOnly_of rfl rfl

theorem endsOnly_updChan (s : State) (n : Nat) {f : Channel → Channel} (hf : ∀ x, (f x).service = x.service)
    (hu : ∀ x, x.unit = none → (f x).unit = none) : EndsOnly s (updChan s n f) := by
  refine ⟨rfl, fun k => ?_, fun k hk => ?_⟩
  · rw [chan_updChan]
    split_ifs with h
    · simp only [hf, chan, h]
    · rfl
  · rw [chan_updChan]
    split_ifs with h
    · exact hu _ (by simpa only [chan, h] using hk)
    · exact hk

theorem endsOnly_freeUnit (s : State) (n : Nat) : EndsOnly s (updChan s n fun x => { x with unit := none }) :=
  endsOnly_updChan s n (fun _ => rfl) fun _ _ => rfl

theorem endsOnly_abandonUnits (s : State) (p : Nat) (st : Strm) (k : Word) : EndsOnly s (abandonUnits s p st k) := by
  unfold abandonUnits
  refine foldl_keeps (P := EndsOnly s) (.refl s) fun t n ht => ?_
  split
  · split_ifs
    · exact ht.trans ((endsOnly_freeUnit t n).trans (endsOnly_bumpFree _ _ _))
    · exact ht
  · exact ht

theorem endsOnly_withdraw (s : State) (p : Nat) (st : Strm) (k : Word) : EndsOnly s (withdraw s p st k) := endsOnly_of rfl rfl

theorem endsOnly_slotsFreed (s : State) (p : Nat) (st : Strm) (k : Word) : EndsOnly s (slotsFreed s p st k) := endsOnly_of rfl rfl

theorem endsOnly_markEnd (s : State) (p : Nat) (st : Strm) (k : Word) (status detail : Nat) :
    EndsOnly s (markEnd s p st k status detail) := by
  have hleft : ∀ t : State, EndsOnly t (unitsLeft t p st k status) := fun t => by
    unfold unitsLeft
    split_ifs
    · exact .refl t
    · exact (endsOnly_abandonUnits t p st k).trans (endsOnly_withdraw _ p st k)
  have hcounted : ∀ t : State, EndsOnly t (slotCounted t p st k status) := fun t => by
    unfold slotCounted
    split_ifs
    · exact endsOnly_bumpFree t p _
    · exact .refl t
  rw [markEnd_eq]
  have hmark : EndsOnly s (updStrm s p st (strmEnded k status detail)) := endsOnly_of rfl rfl
  exact ((hmark.trans (hleft _)).trans (hcounted _)).trans (endsOnly_slotsFreed _ p st k)

theorem endsOnly_endAll (s : State) (p : Nat) (st : Strm) (sel : Cmd → Bool) (status : Nat) : EndsOnly s (endAll s p st sel status) :=
  foldl_keeps (P := EndsOnly s) (.refl s) fun t c ht => ht.trans (endsOnly_markEnd t p st c.stamp status 0)

theorem endsOnly_abortTask (s : State) (p : Nat) (st : Strm) (first : Word) : EndsOnly s (abortTask s p st first) := by
  rw [abortTask_eq]
  have htask : EndsOnly s (updStrm s p st (taskAborted first)) := endsOnly_of rfl rfl
  exact (htask.trans (endsOnly_endAll _ p st _ _)).trans (endsOnly_endAll _ p st _ _)

theorem endsOnly_endCmd (s : State) (p : Nat) (st : Strm) (k : Word) (status detail : Nat) : EndsOnly s (endCmd s p st k status detail) := by
  exact endCmd_ind (.refl s) (fun f _ => endsOnly_of (t := updCmd s p st k f) rfl rfl) (endsOnly_markEnd s p st k status detail)
    fun t first ht => ht.trans (endsOnly_abortTask t p st first)

theorem endsOnly_foldl_endCmd (s : State) (p : Nat) (st : Strm) (ks : List Word) (status detail : Nat) :
    EndsOnly s (ks.foldl (fun s t => endCmd s p st t status detail) s) :=
  foldl_keeps (P := EndsOnly s) (.refl s) fun t k ht => ht.trans (endsOnly_endCmd t p st k status detail)

/-! ## A channel that fails -/

theorem unitStamps_of_parts {s t : State} (h : t.parts = s.parts) (u : UnitHold) : unitStamps t u = unitStamps s u := by
  simp only [unitStamps, groupRows, strm, part, h]

theorem getCmd_of_parts {s t : State} (h : t.parts = s.parts) (p : Nat) (st : Strm) (k : Word) : getCmd t p st k = getCmd s p st k := by
  simp only [getCmd, strm, part, h]

/-- The commands of a unit that is let go end with a status. -/
def unitFaulted (s t : State) (u : UnitHold) (e d : Nat) : State :=
  (inOrder t u.part u.strm (unitStamps s u)).foldl (fun t k => endCmd t u.part u.strm k e d) t

/-- What a fault of its unit does to the commands of a channel. -/
theorem unitFaulted_spec {s t : State} (hparts : t.parts = s.parts) (u : UnitHold) {e : Nat} (he : e ≠ stOK) (d : Nat)
    (hop : ∀ (k : Word) (c : Cmd), k ∈ unitStamps s u → getCmd s u.part u.strm k = some c → c.op ≠ opTASKEND)
    {k : Word} {c : Cmd} (hk : k ∈ unitStamps s u) (hc : getCmd s u.part u.strm k = some c) (hlive : c.ended = false) :
    ∃ o : Cmd, getCmd (unitFaulted s t u e d) u.part u.strm k = some o ∧ o.ended = true ∧ (o.status = e ∨ o.status = stABORTED) := by
  have hct : getCmd t u.part u.strm k = some c := (getCmd_of_parts hparts _ _ _).trans hc
  have hends : c.EndsWith e := ⟨hop k c hk hc, fun h => absurd (hlive.symm.trans h) (by decide)⟩
  obtain ⟨o, ho, ⟨-, hstat⟩, hended⟩ := getCmd_foldl_endCmd d he _ hct hends (.inr (mem_inOrder hct hk))
  exact ⟨o, ho, hended, hstat hended⟩

/-- A channel that fails, before its unit is abandoned. -/
def chanFailed (s : State) (ch cause arg0 : Nat) : State :=
  if (chan s ch).service == .run then updChan (chanFault s ch cause arg0) ch fun x => { x with service := .failed }
  else chanFault s ch cause arg0

/-- A channel that fails, its unit abandoned and the commands that it serves ended. -/
def chanStopped (s : State) (ch cause arg0 : Nat) : State :=
  match (chan s ch).unit with
  | none => chanFailed s ch cause arg0
  | some u =>
    unitFaulted s (updChan (chanFailed s ch cause arg0) ch fun x => { x with unit := none, cur := none }) u stABORTED
      (lastFault (chanFault s ch cause arg0))

theorem parts_chanFault (s : State) (ch cause arg0 : Nat) : (chanFault s ch cause arg0).parts = s.parts := by
  rw [chanFault, addFault_eq]

theorem parts_chanFailed (s : State) (ch cause arg0 : Nat) : (chanFailed s ch cause arg0).parts = s.parts := by
  unfold chanFailed
  split_ifs
  · exact parts_chanFault s ch cause arg0
  · exact parts_chanFault s ch cause arg0

theorem chan_chanFailed (s : State) (ch cause arg0 : Nat) :
    chan (chanFailed s ch cause arg0) ch =
      { chan s ch with service := if (chan s ch).service = .run then .failed else (chan s ch).service } := by
  unfold chanFailed
  by_cases h : (chan s ch).service = .run
  · rw [if_pos (beq_iff_eq.mpr h), chan_updChan_same, chanFault, chan_addFault, if_pos h]
  · rw [if_neg (beq_iff_eq.not.mpr h), chanFault, chan_addFault, if_neg h]

theorem faults_chanFailed (s : State) (ch cause arg0 : Nat) :
    (chanFailed s ch cause arg0).faults = faultsWith s { faultOf { Who.block 0 with ch := ch } 7 cause with arg0 := arg0 } := by
  unfold chanFailed
  split_ifs
  · exact faults_addFault s _
  · exact faults_addFault s _

theorem endsOnly_chanStopped (s : State) (ch cause arg0 : Nat) :
    (chanStopped s ch cause arg0).faults = faultsWith s { faultOf { Who.block 0 with ch := ch } 7 cause with arg0 := arg0 } ∧
      (chan (chanStopped s ch cause arg0) ch).service = (if (chan s ch).service = .run then .failed else (chan s ch).service) ∧
      (chan (chanStopped s ch cause arg0) ch).unit = none := by
  unfold chanStopped
  cases hunit : (chan s ch).unit with
  | none => exact ⟨faults_chanFailed s ch cause arg0, by rw [chan_chanFailed], by rw [chan_chanFailed]; exact hunit⟩
  | some u =>
    have hlet : chan (updChan (chanFailed s ch cause arg0) ch fun x => { x with unit := none, cur := none }) ch =
        { chan (chanFailed s ch cause arg0) ch with unit := none, cur := none } := chan_updChan_same _ _ _
    have hends := endsOnly_foldl_endCmd (updChan (chanFailed s ch cause arg0) ch fun x => { x with unit := none, cur := none })
      u.part u.strm (inOrder (updChan (chanFailed s ch cause arg0) ch fun x => { x with unit := none, cur := none }) u.part u.strm
        (unitStamps s u)) stABORTED (lastFault (chanFault s ch cause arg0))
    refine ⟨hends.faults.trans (faults_chanFailed s ch cause arg0), (hends.service ch).trans ?_, hends.free ch ?_⟩
    · rw [hlet, chan_chanFailed]
    · rw [hlet]

theorem chanStopped_cmds {s : State} {ch : Nat} (cause arg0 : Nat) {u : UnitHold} (hunit : (chan s ch).unit = some u)
    (hop : ∀ (k : Word) (c : Cmd), k ∈ unitStamps s u → getCmd s u.part u.strm k = some c → c.op ≠ opTASKEND)
    {k : Word} {c : Cmd} (hk : k ∈ unitStamps s u) (hc : getCmd s u.part u.strm k = some c) (hlive : c.ended = false) :
    ∃ d : Cmd, getCmd (chanStopped s ch cause arg0) u.part u.strm k = some d ∧ d.ended = true ∧ d.status = stABORTED := by
  have hparts : (updChan (chanFailed s ch cause arg0) ch fun x => { x with unit := none, cur := none }).parts = s.parts :=
    parts_chanFailed s ch cause arg0
  obtain ⟨d, hd, hended, hstat⟩ := unitFaulted_spec hparts u (e := stABORTED) (by decide) (lastFault (chanFault s ch cause arg0)) hop hk hc hlive
  refine ⟨d, ?_, hended, hstat.elim id id⟩
  rw [chanStopped, hunit]
  exact hd

/-- What follows from the end of the unit of a channel. -/
def unitSettled (u : Option UnitHold) (t : State) : State :=
  match u with
  | some u => remSettle (launchDue (pruneSwarms (settle t u.part) u.part) u.part)
  | none => t

/-- What a failed channel leaves to the other channels of its partition. -/
def strandedRefused (ch : Nat) (t : State) : State :=
  match chanOwner t ch with
  | some p => launchDue (settle (refuseStranded t p) p) p
  | none => t

theorem faultUnit_chanFailed (s : State) (ch cause arg0 : Nat) :
    faultUnit (chanFailed s ch cause arg0) ch (lastFault (chanFault s ch cause arg0)) =
      unitSettled (chan s ch).unit (chanStopped s ch cause arg0) := by
  have hunit : (chan (chanFailed s ch cause arg0) ch).unit = (chan s ch).unit := by rw [chan_chanFailed]
  unfold faultUnit chanStopped unitSettled
  rw [hunit]
  cases (chan s ch).unit with
  | none => rfl
  | some u =>
    dsimp only
    rw [unitStamps_of_parts (parts_chanFailed s ch cause arg0) u]
    rfl

theorem chanFail_eq (s : State) (ch cause arg0 : Nat) :
    chanFail s ch cause arg0 =
      let t := strandedRefused ch (unitSettled (chan s ch).unit (chanStopped s ch cause arg0))
      if (chan s ch).service == .leaving then enterTest t ch else t := by
  rw [← faultUnit_chanFailed]
  rfl

theorem channelWatchdog_waits {s : State} {ch : Nat} (h : (chan s ch).unit = none ∨ eff s pgFLT 0x100 = 0 ∨ chanAsks s ch = true ∨
    s.cycle - (chan s ch).progress < eff s pgFLT 0x100 * 1024) : channelWatchdog s ch = s := by
  unfold channelWatchdog
  dsimp only
  rw [if_pos]
  simp only [Bool.or_eq_true, decide_eq_true_eq, Option.isNone_iff_eq_none]
  rcases h with h | h | h | h
  · exact .inl (.inl (.inl h))
  · exact .inl (.inl (.inr (by rw [h])))
  · exact .inl (.inr h)
  · exact .inr h

theorem channelWatchdog_fires {s : State} {ch : Nat} (hunit : (chan s ch).unit ≠ none) (hlim : eff s pgFLT 0x100 ≠ 0) (hask : chanAsks s ch = false)
    (hlate : eff s pgFLT 0x100 * 1024 ≤ s.cycle - (chan s ch).progress) :
    channelWatchdog s ch = chanFail s ch 1 (s.cycle - (chan s ch).progress) := by
  unfold channelWatchdog
  dsimp only
  rw [if_neg]
  simp only [Bool.or_eq_true, decide_eq_true_eq, Option.isNone_iff_eq_none, hask, Bool.false_eq_true, or_false]
  rintro ((h | h) | h)
  · exact hunit h
  · exact hlim (by omega)
  · omega

/-- Settles O42: a channel that fails ends the commands of its unit one by one, and no end of another command undoes one
(`getCmd_foldl_endCmd`). -/
theorem failingChannelsStop : Obligations.FailingChannelsStop := by
  intro ch group s hruns
  have hdog : exec (.channelWatchdog ch) s = .next (keepPins s (channelWatchdog s ch)) := act_runs hruns fun s => channelWatchdog s ch
  have hparity : exec (.ctlParity ch group) s = .next (keepPins s (ctlParity s ch group.toNat)) :=
    act_runs hruns fun s => ctlParity s ch group.toNat
  refine ⟨fun h => ?_, fun hrun hleave => ?_, fun i cause arg hi hserv => ?_⟩
  · rw [hdog, channelWatchdog_waits h]
    rfl
  · have h : ¬ ((chan s ch).service == .run || (chan s ch).service == .leaving) = true := by
      simp [hrun, hleave]
    rw [hparity, ctlParity, if_neg h]
    rfl
  · have hfail : exec i s = .next (keepPins s (chanFail s ch cause arg)) := by
      rcases hi with ⟨rfl, rfl, rfl, hunit, hlim, hask, hlate⟩ | ⟨rfl, rfl, rfl⟩
      · rw [hdog, channelWatchdog_fires hunit hlim hask hlate]
      · have h : ((chan s ch).service == .run || (chan s ch).service == .leaving) = true := by
          simpa using hserv
        rw [hparity, ctlParity, if_pos h]
    obtain ⟨hfaults, hservice, hunit⟩ := endsOnly_chanStopped s ch cause arg
    refine ⟨chanStopped s ch cause arg, hservice.trans ?_, hunit, hfaults,
      fun u hu hop k c hk hc hlive => chanStopped_cmds cause arg hu hop hk hc hlive, ?_⟩
    · rcases hserv with h | h
      · simp only [h, if_true]
      · simp [h]
    · rw [hfail, chanFail_eq]
      simp only [beq_iff_eq]
      rfl

end Sys2Proof.Machine
end

section
/-! Rows by themselves: patrol scrub and write-backs (R188, R189, R313, R347, R386). -/

namespace Sys2Proof.Machine

open Sys2Proof

theorem unitMem_updUnitMem (s : State) (u : RowUnit) (f : RowMem → RowMem) : unitMem (updUnitMem s u f) u = f (unitMem s u) := by
  cases u with
  | slice n =>
    rw [unitMem, updUnitMem, slice_updSlice_same]
    rfl
  | port q =>
    rw [unitMem, updUnitMem, slowP_updSlow_same]
    rfl

theorem mem_updUnitMem (s : State) (u : RowUnit) (f : RowMem → RowMem) : (updUnitMem s u f).mem = s.mem := by
  cases u <;> rfl

theorem rowErr_updUnitMem (s : State) (u : RowUnit) (f : RowMem → RowMem) : (updUnitMem s u f).rowErr = s.rowErr := by
  cases u <;> rfl

/-! ## Scrub -/

theorem rowPat_clean {s : State} (h : s.rowErr = []) (row : Nat) : rowPat s row = [] := by
  rw [rowPat, h]
  rfl

theorem readRow_clean {s : State} (h : s.rowErr = []) (w : Who) (row : Nat) : readRow s w row = (s, some []) := by
  rw [readRow, rowPat_clean h]
  rfl

theorem readCells_clean {s : State} (h : s.rowErr = []) (u : RowUnit) (id : Nat) : readCells s u id = s := by
  rw [readCells, rowPat_clean h]
  rfl

/-- A scrub step of a unit that runs and is not in DOZE, on memory without errors. -/
theorem scrubStep_clean {s : State} {u : RowUnit} (hrun : unitRuns s u = true) (hdoze : dozes s u = false)
    (hclean : (wakeUnit s u).rowErr = []) : scrubStep s u [] = scrubNext (wakeUnit s u) u := by
  have h : ¬ (!(unitRuns s u)) = true := by simp [hrun]
  have hd : ¬ dozes s u = true := by simp [hdoze]
  rw [scrubStep, addUpsets, List.foldl_nil]
  dsimp only
  rw [if_neg h, if_neg hd]
  split_ifs
  · rw [readRow_clean hclean]
  · rw [readCells_clean hclean]

theorem scrubNext_kept (s : State) (u : RowUnit) : (scrubNext s u).mem = s.mem ∧ (unitMem (scrubNext s u) u).scrubPos =
    if (unitMem s u).scrubPos + 1 < unitRows s u then (unitMem s u).scrubPos + 1 else 0 := by
  refine ⟨mem_updUnitMem _ _ _, ?_⟩
  rw [scrubNext, unitMem_updUnitMem]
  split_ifs <;> rfl

theorem wake_awake {s : State} {ch : Nat} (h : (chan s ch).power = .run ∨ (chan s ch).waking = true) : wake s ch = s := by
  unfold wake
  dsimp only
  rw [if_pos]
  simpa using h

theorem wake_shallow {s : State} {ch : Nat} (hrun : (chan s ch).power ≠ .run) (hdoze : (chan s ch).power ≠ .doze)
    (hw : (chan s ch).waking = false) : wake s ch = updChan s ch fun x => { x with power := .run, waking := false } := by
  have h1 : ¬ ((chan s ch).power == .run || (chan s ch).waking) = true := by simp [hrun, hw]
  have h2 : ¬ ((chan s ch).power == .doze) = true := by simp [hdoze]
  unfold wake
  dsimp only
  rw [if_neg h1, if_neg h2, wakeEnd]
  dsimp only
  rw [if_neg h2]

/-- The wake that a row of a slice in DOZE begins. -/
theorem wake_dozing {s : State} {ch : Nat} (hdoze : (chan s ch).power = .doze) :
    wake s ch = if (chan s ch).waking then s else dozeLeft s ch := by
  by_cases hw : (chan s ch).waking = true
  · rw [if_pos hw, wake_awake (.inr hw)]
  · rw [if_neg hw, wake_doze hdoze (Bool.not_eq_true _ ▸ hw)]

theorem dozes_slice {s : State} {n : Chan} : dozes s (.slice n) = true ↔ (chan s n).power = .doze := beq_iff_eq

theorem dozes_false {s : State} {u : RowUnit} (h : ∀ n, u = .slice n → (chan s n).power ≠ .doze) : dozes s u = false := by
  cases u with
  | slice n => exact Bool.eq_false_iff.mpr (dozes_slice.not.mpr (h n rfl))
  | port q => rfl

theorem scrubStep_doze {s : State} {n : Chan} (hrun : unitRuns s (.slice n) = true) (hdoze : (chan s n).power = .doze) :
    scrubStep s (.slice n) [] = wake s n := by
  have h : ¬ (!(unitRuns s (.slice n))) = true := by simp [hrun]
  rw [scrubStep, addUpsets, List.foldl_nil]
  dsimp only
  rw [if_neg h, if_pos (dozes_slice.mpr hdoze)]
  rfl

theorem scrubStep_stands {s : State} {u : RowUnit} {ups : List Upset} (h : unitRuns (addUpsets s ups) u = false) :
    scrubStep s u ups = addUpsets s ups := by
  have hstop : (!(unitRuns (addUpsets s ups) u)) = true := by simp [h]
  rw [scrubStep]
  dsimp only
  rw [if_pos hstop]

/-! ## Write-backs -/

theorem rowPat_setPat (s : State) (row : Nat) : rowPat (setPat s row []) row = [] := by
  have h : (s.rowErr.filter fun e => e.1 != row).find? (fun e => e.1 == row) = none := by
    simp [List.find?_eq_none]
  rw [rowPat, setPat]
  dsimp only [List.isEmpty_nil]
  rw [if_pos rfl, assocD, h]

/-- The error of a row is gone once it is written afresh. -/
def freshRow (s : State) (row : Nat) : State := if (rowPat s row).isEmpty then s else setPat s row []

theorem rowPat_freshRow (s : State) (row : Nat) : rowPat (freshRow s row) row = [] := by
  unfold freshRow
  split_ifs with h
  · exact List.isEmpty_iff.mp h
  · exact rowPat_setPat s row

theorem mem_freshRow (s : State) (row : Nat) : (freshRow s row).mem = s.mem := by
  unfold freshRow
  split_ifs <;> rfl

theorem mem_updRowMem (s : State) (row : Nat) (f : RowMem → RowMem) : (updRowMem s row f).mem = s.mem := by
  rw [updRowMem_frame]

theorem mem_retireRow (s : State) (row n : Nat) : (retireRow s row n).mem = s.mem := by
  unfold retireRow
  split
  · unfold spareOut
    split_ifs
    · rfl
    · exact (light_addFault _ _).mem.trans (mem_updRowMem _ _ _)
  · exact (light_addFault _ _).mem.trans ((mem_updRowMem _ _ _).trans (mem_steer _ _ _))

/-- A row that is written whole, its queued write-back dropped. -/
def backDropped (s : State) (row : Nat) : State :=
  if (rowMem s row).queue.any (fun e => e.1 == row) then
    updRowMem s row fun m => { m with queue := m.queue.map fun e => if e.1 = row then (row, true) else e }
  else s

/-- A row whose error was reported is retired. -/
def retiredWhole (s : State) (row : Nat) : State :=
  retireRow { s with reported := s.reported.filter (· != row) } row (assocD (rowMem s row).tracker row 0)

/-- A row that is written whole is retired if its error was reported. -/
def reportedRetired (s : State) (row : Nat) : State := if s.reported.contains row then retiredWhole s row else s

theorem wroteRow_eq (s : State) (row : Nat) : wroteRow s row = freshRow (reportedRetired (backDropped s row) row) row := by
  change (if (backDropped s row).reported.contains row = true then freshRow (retiredWhole (backDropped s row) row) row
    else freshRow (backDropped s row) row) = _
  rw [reportedRetired, apply_ite (freshRow · row)]

theorem mem_wroteRow (s : State) (row : Nat) : (wroteRow s row).mem = s.mem := by
  have hdrop : (backDropped s row).mem = s.mem := by
    unfold backDropped
    split_ifs
    · exact mem_updRowMem s row _
    · rfl
  have hretire : ∀ t : State, (reportedRetired t row).mem = t.mem := fun t => by
    unfold reportedRetired
    split_ifs
    · exact mem_retireRow _ row _
    · rfl
  rw [wroteRow_eq, mem_freshRow, hretire, hdrop]

theorem rowPat_wroteRow (s : State) (row : Nat) : rowPat (wroteRow s row) row = [] := by
  rw [wroteRow_eq, rowPat_freshRow]

theorem lost_updUnitMem (s : State) (u : RowUnit) (f : RowMem → RowMem) (k : Nat) : (slice (updUnitMem s u f) k).lost = (slice s k).lost := by
  cases u with
  | slice n =>
    rw [updUnitMem, slice_updSlice]
    split_ifs with h
    · simp only [slice, h]
    · rfl
  | port q => rfl

theorem ready_updUnitMem (s : State) (u : RowUnit) (f : RowMem → RowMem) (q : Nat) : (slowP (updUnitMem s u f) q).ready = (slowP s q).ready := by
  cases u with
  | slice n => rfl
  | port k =>
    rw [updUnitMem, slowP_updSlow]
    split_ifs with h
    · simp only [slowP, h]
    · rfl

theorem present_updUnitMem (s : State) (u : RowUnit) (f : RowMem → RowMem) (a : Nat) : present (updUnitMem s u f) a = present s a := by
  have hch : capCH (updUnitMem s u f) = capCH s := by cases u <;> rfl
  have hmt : capMT (updUnitMem s u f) = capMT s := by cases u <;> rfl
  have huse : usableMiB (updUnitMem s u f) (portOf a) = usableMiB s (portOf a) := by cases u <;> rfl
  simp only [present, portReady, lost_updUnitMem, ready_updUnitMem, hch, hmt, huse]

/-- What a decode of a row leaves in the data that it delivers. -/
def leftIn : RowRead → List (Nat × BitVec 16)
  | .clean l => l
  | .corrected l => l
  | .uncorrectable => []

/-- A row is written back, with what the decoder left in it. -/
def backWritten (s : State) (row : Nat) : State :=
  let left := leftIn (rowDecode (rowPat s row))
  wroteRow (if left.isEmpty then s else { s with mem := memPut s.mem row (applyPat left 0 (memBytes s.mem row 512)) }) row

/-- What becomes of the row at the head of a queue. -/
def headWritten (s : State) (row : Nat) (dropped : Bool) : State :=
  if dropped then s
  else if 2 ^ 60 ≤ row then setPat s row []
  else if !(present s row) then s
  else backWritten s row

/-- A unit's queue without its head. -/
def queueRest (s : State) (u : RowUnit) (rest : List (Nat × Bool)) : State := updUnitMem s u fun m => { m with queue := rest }

theorem writeBack_head {s : State} {u : RowUnit} {row : Nat} {dropped : Bool} {rest : List (Nat × Bool)}
    (hq : (unitMem s u).queue = (row, dropped) :: rest) (hdoze : dozes s u = false) :
    writeBack s u = headWritten (queueRest s u rest) row dropped := by
  have hd : ¬ dozes s u = true := by simp [hdoze]
  rw [writeBack, hq]
  exact if_neg hd

theorem headWritten_corrects {s : State} {row : Nat} (hpres : present s row = true)
    (hdec : rowDecode (rowPat s row) = .corrected [] ∨ rowDecode (rowPat s row) = .clean []) (hlow : ¬ 2 ^ 60 ≤ row) :
    headWritten s row false = wroteRow s row := by
  have hp : ¬ (!(present s row)) = true := by simp [hpres]
  have hleft : leftIn (rowDecode (rowPat s row)) = [] := by
    rcases hdec with h | h
    · rw [h]
      rfl
    · rw [h]
      rfl
  rw [headWritten, if_neg Bool.false_ne_true, if_neg hlow, if_neg hp, backWritten, hleft]
  rfl

theorem present_low {s : State} {row : Nat} (h : present s row = true) : ¬ 2 ^ 60 ≤ row := by
  intro hhigh
  have hstore : isStore row = false := by
    simp only [isStore, decide_eq_false_iff_not]
    omega
  have hslow : isSlow row = false := by
    refine Bool.and_eq_false_iff.mpr (.inr (decide_eq_false ?_))
    simp only [Config.slowBase, Config.slowPortBytes]
    omega
  have hhost : isHost row = false := by
    refine Bool.and_eq_false_iff.mpr (.inr (decide_eq_false ?_))
    simp only [Config.hostBase]
    omega
  simp [present, hstore, hslow, hhost] at h

/-- Settles O51: a step reads one row, and on memory without errors a read leaves the block as it was; a write-back of a
row whose decode leaves nothing writes no byte. -/
theorem scrubbingKeepsBytes : Obligations.ScrubbingKeepsBytes := by
  intro u ups s hruns
  have hscrub : ∀ l : List Upset, exec (.patrolScrubStep u l) s = .next (keepPins s (scrubStep s u l)) :=
    fun l => act_runs hruns fun s => scrubStep s u l
  have hclean : exec (.patrolScrubStep u []) s = .next (scrubStep s u []) :=
    act_kept (f := fun s => scrubStep s u []) hruns (scrubStep_keeps (kd := kdA) (.refl s))
  have hback : exec (.correctionWriteBack u) s = .next (writeBack s u) :=
    act_kept (f := fun s => writeBack s u) hruns (writeBack_keeps (kd := kdA) (.refl s))
  refine ⟨fun h => by rw [hscrub, scrubStep_stands h], fun hrun hrows hpower => ?_, fun n hn hrun hrows hpower hdoze hw => ?_,
    fun n hn hdoze => ⟨fun hrun => ?_, fun hq => ?_⟩, fun hq => ?_, fun hdoze row rest => ⟨fun hq => ?_, fun hq hhigh => ?_,
    fun hq hpres hdec => ?_⟩⟩
  · have hd : dozes s u = false := dozes_false fun n hn => by
      rcases hpower n hn with h | ⟨h, -⟩
      · rw [h]
        decide
      · exact h
    have hawake : wakeUnit s u = s := by
      cases u with
      | slice n => exact wake_awake ((hpower n rfl).imp id And.right)
      | port q => rfl
    have h := scrubStep_clean hrun hd (by rwa [hawake])
    rw [hawake] at h
    exact ⟨by rw [hclean, h], scrubNext_kept s u⟩
  · subst hn
    have hwake : wakeUnit s (.slice n) = updChan s n fun x => { x with power := .run, waking := false } := wake_shallow hpower hdoze hw
    have hd : dozes s (.slice n) = false := Bool.eq_false_iff.mpr (dozes_slice.not.mpr hdoze)
    rw [hclean, scrubStep_clean hrun hd (by rw [hwake]; exact hrows), hwake]
  · subst hn
    rw [hclean, scrubStep_doze hrun hdoze, wake_dozing hdoze]
  · subst hn
    have hwait : writeBack s (.slice n) = wake s n := by
      rw [writeBack]
      cases h : (unitMem s (.slice n)).queue with
      | nil => exact absurd h hq
      | cons e rest => exact if_pos (dozes_slice.mpr hdoze)
    rw [hback, hwait, wake_dozing hdoze]
  · rw [hback, writeBack, hq]
  · rw [hback, writeBack_head hq (dozes_false hdoze)]
    rfl
  · rw [hback, writeBack_head hq (dozes_false hdoze), headWritten, if_neg Bool.false_ne_true, if_pos hhigh]
    exact ⟨rfl, rowPat_setPat _ row⟩
  · have hpat : rowPat (queueRest s u rest) row = rowPat s row := by
      rw [rowPat, queueRest, rowErr_updUnitMem]
      rfl
    have hthere : present (queueRest s u rest) row = true := (present_updUnitMem s u _ row).trans hpres
    have hwrite := headWritten_corrects hthere (by rwa [hpat]) (present_low hpres)
    have hkept : exec (.correctionWriteBack u) s = .next (keepPins s (writeBack s u)) := act_runs hruns fun s => writeBack s u
    rw [hkept, writeBack_head hq (dozes_false hdoze), hwrite]
    exact ⟨rfl, (mem_wroteRow _ row).trans (mem_updUnitMem s u _), rowPat_wroteRow _ row⟩

end Sys2Proof.Machine
end

section
/-! Slow-tier ports come up, are lost and drain; loss edits (R398, R400, R429, R430). -/

namespace Sys2Proof.Machine

open Sys2Proof

/-! ## Bring-up -/

theorem bringUp_starts {s : State} {q : Nat} (hclk : (slowP s q).clk = true) (hdev : devType s q ≠ 0) (hready : (slowP s q).ready = false)
    (htrain : (slowP s q).training = false) (hfill : (slowP s q).filling = false) (hlost : (slowP s q).lost = false)
    (hret : (slowP s q).retired = false) : bringUp s q = updSlow s q fun x => { x with training := true } := by
  have h : ((slowP s q).clk && devType s q != 0 && !((slowP s q).ready || (slowP s q).training || (slowP s q).filling ||
      (slowP s q).lost || (slowP s q).retired)) = true := by
    simp [hclk, hdev, hready, htrain, hfill, hlost, hret]
  rw [bringUp, if_pos h]

theorem bringUp_none {s : State} {q : Nat} (hdev : devType s q = 0) : bringUp s q = s := by
  have h : ¬ ((slowP s q).clk && devType s q != 0 && !((slowP s q).ready || (slowP s q).training || (slowP s q).filling ||
      (slowP s q).lost || (slowP s q).retired)) = true := by
    simp [hdev]
  rw [bringUp, if_neg h]

theorem updSlow_updSlow (s : State) (q : Nat) (f g : SlowSt → SlowSt) : updSlow (updSlow s q f) q g = updSlow s q (g ∘ f) := by
  have h := slowP_updSlow_same s q f
  unfold updSlow at h ⊢
  rw [h]
  simp only [Vector.set_set]
  rfl

theorem portClock_starts {s : State} {q : Nat} (hq : q < capMT s) (hdev : devType s q ≠ 0) (hready : (slowP s q).ready = false)
    (htrain : (slowP s q).training = false) (hfill : (slowP s q).filling = false) (hlost : (slowP s q).lost = false)
    (hret : (slowP s q).retired = false) : portClock s q = updSlow s q fun x => { x with clk := true, training := true } := by
  have hx := slowP_updSlow_same s q fun x => { x with clk := true }
  rw [portClock, if_neg (not_le.mpr hq), bringUp_starts, updSlow_updSlow]
  · rfl
  · rw [hx]
  · exact hdev
  all_goals rwa [hx]

theorem portClock_none {s : State} {q : Nat} (hq : q < capMT s) (hdev : devType s q = 0) :
    portClock s q = updSlow s q fun x => { x with clk := true } := by
  rw [portClock, if_neg (not_le.mpr hq)]
  exact bringUp_none (s := updSlow s q fun x => { x with clk := true }) hdev

/-! ## The fill -/

theorem mem_zeroFill (s : State) (q : Nat) :
    (zeroFill s q).mem = memClear s.mem (Config.slowBase + q * Config.slowPortBytes) Config.slowPortBytes := by
  unfold zeroFill
  dsimp only
  congr 1
  exact foldl_keeps (P := fun t => t.mem = s.mem) rfl fun t r ht => (mem_wroteRow t r).trans ht

/-- A port that serves rows from row 0 on. -/
def portServes (s : State) (q : Nat) : State :=
  updSlow (zeroFill s q) q fun x =>
    { x with filling := false, ready := true, inLive := true, mem := { x.mem with scrubPos := 0, queue := [], tracker := [] } }

theorem portUp_filled {s : State} {q : Nat} (hfill : (slowP s q).filling = true) (hret : (slowP s q).retired = false) :
    portUp s q = portServes s q := by
  have h : ((slowP s q).filling && !((slowP s q).retired)) = true := by simp [hfill, hret]
  rw [portUp, if_pos h]
  rfl

theorem portUp_waits {s : State} {q : Nat} (h : (slowP s q).filling = false ∨ (slowP s q).retired = true) : portUp s q = s := by
  have hno : ¬ ((slowP s q).filling && !((slowP s q).retired)) = true := by
    rcases h with h | h
    · simp [h]
    · simp [h]
  rw [portUp, if_neg hno]

theorem portServes_spec (s : State) (q : Nat) : (slowP (portServes s q) q).filling = false ∧ (slowP (portServes s q) q).ready = true ∧
    (slowP (portServes s q) q).inLive = true ∧ ∀ a : Nat, memByte (portServes s q).mem a =
      if Config.slowBase + q * Config.slowPortBytes ≤ a ∧ a < Config.slowBase + q * Config.slowPortBytes + Config.slowPortBytes
      then 0 else memByte s.mem a := by
  have hmem : (portServes s q).mem = (zeroFill s q).mem := rfl
  refine ⟨?_, ?_, ?_, fun a => ?_⟩
  · rw [portServes, slowP_updSlow_same]
  · rw [portServes, slowP_updSlow_same]
  · rw [portServes, slowP_updSlow_same]
  · rw [hmem, mem_zeroFill, memByte_memClear]

/-! ## The loss of a port -/

theorem lossAll_frame (s : State) : lossAll s = { s with parts := (lossAll s).parts } := by
  unfold lossAll
  refine foldl_keeps (P := fun t => t = { s with parts := t.parts }) rfl fun t p ht => ?_
  split_ifs
  · rw [ht]
    rfl
  · exact ht

theorem slowP_of_slow {s t : State} (h : t.slow = s.slow) (q : Nat) : slowP t q = slowP s q := by
  simp only [slowP, h]

theorem slowP_addFault (s : State) (f : FaultRec) (q : Nat) : slowP (addFault s f) q = slowP s q :=
  slowP_of_slow (by rw [addFault_eq]) q

theorem slowP_lossAll (s : State) (q : Nat) : slowP (lossAll s) q = slowP s q := slowP_of_slow (by rw [lossAll_frame]) q

theorem mem_lossAll (s : State) : (lossAll s).mem = s.mem := by rw [lossAll_frame]

theorem faults_lossAll (s : State) : (lossAll s).faults = s.faults := by rw [lossAll_frame]

theorem mem_updSlow (s : State) (q : Nat) (f : SlowSt → SlowSt) : (updSlow s q f).mem = s.mem := rfl

theorem faults_updSlow (s : State) (q : Nat) (f : SlowSt → SlowSt) : (updSlow s q f).faults = s.faults := rfl

/-- A port that has been lost. -/
def slowLost (x : SlowSt) : SlowSt :=
  { x with training := false, filling := false, ready := false, draining := false, lost := true, inLive := false }

theorem losePort_eq (s : State) (q cause arg0 : Nat) :
    losePort s q cause arg0 =
      lossAll (updSlow (addFault s { faultOf (Who.block 3) 2 cause with port := q, arg0 := arg0 }) q slowLost) := rfl

theorem losePort_spec (s : State) (q cause arg0 : Nat) :
    slowP (losePort s q cause arg0) q = slowLost (slowP s q) ∧ (losePort s q cause arg0).mem = s.mem ∧
      (losePort s q cause arg0).faults = faultsWith s { faultOf (Who.block 3) 2 cause with port := q, arg0 := arg0 } := by
  rw [losePort_eq]
  refine ⟨?_, ?_, ?_⟩
  · rw [slowP_lossAll, slowP_updSlow_same, slowP_addFault]
  · rw [mem_lossAll, mem_updSlow]
    exact (light_addFault s _).mem
  · rw [faults_lossAll, faults_updSlow, faults_addFault]

/-- The code of an error of the interface shows. -/
def dfiShown (s : State) (q : Nat) (code : BitVec 8) : State := updSlow s q fun x => { x with dfiErr := code }

theorem dfiError_eq {s : State} {q : Nat} (hq : q < capMT s) (code : BitVec 8) :
    dfiError s q code =
      if (slowP s q).lost || (slowP s q).retired then dfiShown s q code else losePort (dfiShown s q code) q 4 code.toNat := by
  have hx := slowP_updSlow_same s q fun x => { x with dfiErr := code }
  rw [dfiError, if_neg (not_le.mpr hq)]
  dsimp only
  rw [hx]
  rfl

/-- Settles O50: an event of a port acts where it is due; a port is filled by one clear of its range, and lost by
`losePort` in either case. -/
theorem slowPortsComeUpInSteps : Obligations.SlowPortsComeUpInSteps := by
  intro q code s hruns x
  have hclock : exec (.slowPortBringUp q) s = .next (portClock s q) :=
    act_kept (f := fun s => portClock s q) hruns (portClock_keeps (kd := kdA) (.refl s))
  have hdfi : exec (.dfiError q code) s = .next (dfiError s q code) :=
    act_kept (f := fun s => dfiError s q code) hruns (dfiError_keeps (kd := kdA) (.refl s))
  have hinit : exec (.dfiInitComplete q) s = .next (dfiInit s q) :=
    act_kept (f := fun s => dfiInit s q) hruns (dfiInit_keeps (kd := kdA) (.refl s))
  have hup : exec (.slowPortReady q) s = .next (portUp s q) :=
    act_kept (f := fun s => portUp s q) hruns (portUp_keeps (kd := kdA) (.refl s))
  have htime : exec (.trainingTimeout q) s = .next (trainingTimeout s q) :=
    act_kept (f := fun s => trainingTimeout s q) hruns (trainingTimeout_keeps (kd := kdA) (.refl s))
  have hupdate : exec (.dfiPhyUpdate q) s = .next s := act_kept (f := fun s => phyUpdate s q) hruns (Keeps.refl (kd := kdA) s)
  have hrefresh : exec (.refresh q) s = .next s := act_kept (f := fun s => refreshPort s q) hruns (Keeps.refl (kd := kdA) s)
  refine ⟨fun hcap => ⟨?_, ?_⟩, fun hcap hdev hready htrain hfill hlost hret => ?_, fun hcap hdev => ?_, hinit, fun h => ?_,
    fun hfill hret => ?_, fun htrain => ?_, fun htrain => ?_, fun hcap => ?_, hupdate, hrefresh⟩
  · rw [hclock, portClock, if_pos hcap]
  · rw [hdfi, dfiError, if_pos hcap]
  · rw [hclock, portClock_starts hcap hdev hready htrain hfill hlost hret]
  · rw [hclock, portClock_none hcap hdev]
  · rw [hup, portUp_waits h]
  · exact ⟨portServes s q, by rw [hup, portUp_filled hfill hret], portServes_spec s q⟩
  · rw [htime, trainingTimeout, if_neg (Bool.not_eq_true _ ▸ htrain)]
  · obtain ⟨hslow, hmem, hfaults⟩ := losePort_spec s q 5 0
    refine ⟨losePort s q 5 0, by rw [htime, trainingTimeout, if_pos htrain], ?_, ?_, ?_, hmem, hfaults⟩
    all_goals
      rw [hslow]
      rfl
  · obtain ⟨hslow, hmem, hfaults⟩ := losePort_spec (dfiShown s q code) q 4 code.toNat
    have hshown : slowP (dfiShown s q code) q = { slowP s q with dfiErr := code } := slowP_updSlow_same s q _
    have heq := dfiError_eq hcap code
    refine ⟨dfiError s q code, hdfi, ?_, ?_, fun h => ?_, fun hlost hret => ?_⟩
    · rw [heq]
      split_ifs
      · rw [hshown]
      · rw [hslow, hshown]
        rfl
    · rw [heq]
      split_ifs
      · rfl
      · exact hmem
    · have hno : ((slowP s q).lost || (slowP s q).retired) = true := by simpa using h
      rw [heq, if_pos hno]
      rfl
    · have hyes : ¬ ((slowP s q).lost || (slowP s q).retired) = true := by
        rw [show (slowP s q).lost = false from hlost, show (slowP s q).retired = false from hret]
        decide
      rw [heq, if_neg hyes, hslow, hfaults]
      exact ⟨rfl, rfl, rfl⟩

/-! ## Edits of a loss and of a drain -/

theorem lossEdit_none {s : State} {p : Nat} (h : (pool s p).lossDue = false ∨ editBoundary s p = false) : lossEdit s p = s := by
  have hno : (!((pool s p).lossDue) || !(editBoundary s p)) = true := by
    rcases h with h | h
    · simp [h]
    · simp [h]
  rw [lossEdit, if_pos hno]

theorem lossEdit_made {s : State} {p n : Nat} {r : Run} (hdue : (pool s p).lossDue = true) (hedge : editBoundary s p = true)
    (hr : ranM s (poolCtx s p) (editM lossEditM) = .ok n r) :
    lossEdit s p =
      let v := updPool r.s p fun x => { x with lossDue := false }
      settled (addFault v { faultOf (poolWho p) 5 5 with arg0 := n, arg1 := (pool v p).instar }) p := by
  have hyes : ¬ (!((pool s p).lossDue) || !(editBoundary s p)) = true := by simp [hdue, hedge]
  rw [lossEdit, if_neg hyes, hr]
  rfl

/-- A port that no page is on any more has drained. -/
def drainEnds (s : State) (q : Nat) : State :=
  updSlow (addFault s { faultOf (Who.block 0) 2 6 with port := q, arg0 := (slowP s q).moved }) q fun x => { x with drained := true }

/-- What an edit of a drain leaves to see of its port. -/
def drainSeen (s : State) (q : Nat) : State := if pagesOnPort s q = 0 && !((slowP s q).drained) then drainEnds s q else s

theorem drainEdit_eq {s : State} {q : Nat} (h : (slowP s q).draining = true) :
    drainEdit s q = drainSeen (((drainPart s q).map (drainOnce s q)).getD s) q := by
  have hyes : ¬ (!((slowP s q).draining)) = true := by simp [h]
  rw [drainEdit, if_neg hyes]
  rfl

theorem drainSeen_pages {s : State} {q : Nat} (h : pagesOnPort s q ≠ 0) : drainSeen s q = s := by
  have hno : ¬ (decide (pagesOnPort s q = 0) && !((slowP s q).drained)) = true := by simp [h]
  rw [drainSeen, if_neg hno]

theorem drainEnds_spec (s : State) (q : Nat) :
    slowP (drainEnds s q) q = { slowP s q with drained := true } ∧ (drainEnds s q).mem = s.mem ∧ (drainEnds s q).parts = s.parts ∧
      (drainEnds s q).faults = faultsWith s { faultOf (Who.block 0) 2 6 with port := q, arg0 := (slowP s q).moved } := by
  have hlight := light_addFault s { faultOf (Who.block 0) 2 6 with port := q, arg0 := (slowP s q).moved }
  refine ⟨?_, hlight.mem, hlight.parts, ?_⟩
  · rw [drainEnds, slowP_updSlow_same, slowP_addFault]
  · rw [drainEnds, faults_updSlow, faults_addFault]

/-- Settles O52: an edit that a loss or a drain asks for is the run of its body, and what it leaves settles. -/
theorem lossesAndDrainsEditPools : Obligations.LossesAndDrainsEditPools := by
  intro p q s hruns
  have hloss : exec (.lossEdit p) s = .next (keepPins s (lossEdit s p)) := act_runs hruns fun s => lossEdit s p
  have hdrain : exec (.drainReliefEdit q) s = .next (keepPins s (drainEdit s q)) := act_runs hruns fun s => drainEdit s q
  refine ⟨fun h => ?_, fun hdue hedge n r hr => ?_, fun h => ?_, fun h hpart hpages hdrained => ?_, fun h d n r hpart hr => ?_,
    fun h d e x t hpart hr hnode hpin hpages => ?_⟩
  · rw [hloss, lossEdit_none h]
    rfl
  · rw [hloss, lossEdit_made hdue hedge hr]
  · rw [hdrain, drainEdit, if_pos (by simp [h])]
    rfl
  · have hyes : (decide (pagesOnPort s q = 0) && !((slowP s q).drained)) = true := by simp [hpages, hdrained]
    have hend : drainEdit s q = drainEnds s q := by
      rw [drainEdit_eq h, hpart]
      exact if_pos hyes
    refine ⟨drainEnds s q, ?_, drainEnds_spec s q⟩
    rw [← hend]
    exact act_kept (f := fun s => drainEdit s q) hruns (drainEdit_keeps (kd := kdA) (.refl s))
  · intro v hpages
    have hmade : ((drainPart s q).map (drainOnce s q)).getD s = v := by
      rw [hpart, Option.map_some, Option.getD_some, drainOnce, hr, Ran.fold]
      rfl
    rw [hdrain, drainEdit_eq h, hmade, drainSeen_pages hpages]
  · have hmade : ((drainPart s q).map (drainOnce s q)).getD s = t := by
      rw [hpart, Option.map_some, Option.getD_some, drainOnce, hr]
      exact if_neg (by simp [hnode, hpin])
    rw [hdrain, drainEdit_eq h, hmade, drainSeen_pages hpages]

end Sys2Proof.Machine
end

section
/-! Target requests that ask no row of a dozing slice, on memory without errors: they translate and read, and change
counters alone (R201, R313, R330, R331). -/

namespace Sys2Proof.Machine

open Sys2Proof

/-! ## Work that asks rows -/

/-- Work that changes live words alone, unless it asks a row of a slice in DOZE. -/
structure Tame (s t : State) : Prop where
  mem : t.mem = s.mem
  rows : t.rowErr = s.rowErr
  grows : s.dozed.length ≤ t.dozed.length
  same : t.dozed.length = s.dozed.length → t = { s with live := t.live }

theorem Tame.refl (s : State) : Tame s s := ⟨rfl, rfl, le_refl _, fun _ => rfl⟩

theorem Tame.trans {s t u : State} (h : Tame s t) (g : Tame t u) : Tame s u := by
  refine ⟨g.mem.trans h.mem, g.rows.trans h.rows, h.grows.trans g.grows, fun hlen => ?_⟩
  have hst := h.grows
  have htu := g.grows
  rw [g.same (by omega), h.same (by omega)]

theorem tame_bump (s : State) (i pg off n : Nat) : Tame s (bump s i pg off n) := by
  rw [bump_frame]
  exact ⟨rfl, rfl, le_refl _, fun _ => rfl⟩

theorem dozed_dozeHit (s : State) (n : Nat) : (dozeHit s n).dozed = s.dozed := by
  unfold dozeHit
  split_ifs
  · rw [bump_frame]
    rfl
  · rfl

theorem tame_dozeTouch (s : State) (n ch : Nat) : Tame s (dozeTouch s n ch) := by
  have hmem := (light_dozeTouch s n ch).mem
  have hrows := (light_dozeTouch s n ch).rows
  unfold dozeTouch at hmem hrows ⊢
  split_ifs at hmem hrows ⊢ with hdoze
  · have hlen : (dozeHit { s with dozed := s.dozed ++ [(n, ch)] } n).dozed.length = s.dozed.length + 1 := by
      rw [dozed_dozeHit, List.length_append, List.length_singleton]
    exact ⟨hmem, hrows, by omega, fun h => absurd h (by omega)⟩
  · exact .refl s

theorem tame_touchRows (s : State) (ch pa n : Nat) (write : Bool) : Tame s (touchRows s ch pa n write) := by
  unfold touchRows
  split_ifs
  · exact .refl s
  · exact tame_bump _ _ _ _ _
  · exact tame_bump _ _ _ _ _
  · exact tame_dozeTouch _ _ _
  · exact .refl s

theorem tame_rowsRead {s : State} (h : s.rowErr = []) (w : Who) (pa n : Nat) : Tame s (rowsRead s w pa n).1 := by
  rw [rowsRead_plain h]
  exact tame_touchRows s w.ch pa n false

theorem tame_readEntry {s : State} (h : s.rowErr = []) (w : Who) (node idx : Nat) : Tame s (readEntry s w node idx).1 := by
  have hread := tame_rowsRead h { w with cls := 0 } (node + 8 * idx) 8
  unfold readEntry
  dsimp only
  split_ifs
  · exact .refl s
  · split
    · next e => rwa [e] at hread
    · next e => rwa [e] at hread

theorem tame_walkFrom (w : Who) (va k : Nat) {s : State} (h : s.rowErr = []) (node : Nat) : Tame s (walkFrom w va k s node).1 := by
  induction k generalizing s node with
  | zero =>
    have hread := tame_readEntry h w node (vaIndex va 3)
    unfold walkFrom
    split
    · next e =>
      rw [e] at hread
      split_ifs
      · exact hread
      · exact hread
    · exact hread
  | succ k ih =>
    have hread := tame_readEntry h w node (vaIndex va (3 - (k + 1)))
    unfold walkFrom
    split
    · next e =>
      rw [e] at hread
      split_ifs
      · exact hread.trans (ih (hread.rows.trans h) _)
      · exact hread
    · exact hread

theorem tame_checkPa (s : State) (pa leaf : Nat) (write : Bool) : Tame s (checkPa s pa leaf write).1 := by
  unfold checkPa
  split_ifs
  · exact .refl s
  · exact tame_bump s 0 pgXLAT 0xF04 1
  · exact .refl s

theorem tame_xlate {s : State} (h : s.rowErr = []) (c : Ctx) (va : Nat) (write : Bool) : Tame s (xlate s c va write).1 := by
  unfold xlate
  dsimp only
  split
  · split
    · exact .refl s
    · exact tame_checkPa _ _ _ _
  · split
    · exact .refl s
    · next root _ =>
      have hwalk := tame_walkFrom c.who (va % 2 ^ 56) 3 h root
      split
      · next e => rwa [e] at hwalk
      · next e =>
        rw [e] at hwalk
        split_ifs
        · exact hwalk
        · exact hwalk.trans (tame_checkPa _ _ _ _)

/-- The context in which a target request of partition `p` translates. -/
def targetCtx (s : State) (f : FabPort) (p : Nat) : Ctx := { who := Who.target s f, part := p, root := none, owner := .block }

/-- What a translation gives a target request. -/
def targetXl : State × Xl → State × Except Nat Nat
  | (s, .fail cause) => (s, .error (if cause = 2 then fabPROTERR else fabDECERR))
  | (s, .ecc _) => (s, .error fabDATAERR)
  | (s, .ok pa _) => if isHost pa then (s, .error fabDECERR) else (s, .ok pa)

theorem fst_targetXl (x : State × Xl) : (targetXl x).1 = x.1 := by
  obtain ⟨s, x⟩ := x
  cases x with
  | fail cause => rfl
  | ecc d => rfl
  | ok pa leaf =>
    change (if isHost pa = true then (s, Except.error fabDECERR) else (s, Except.ok pa)).1 = s
    split_ifs
    · rfl
    · rfl

/-- A target request is refused before its address is translated, or its translation answers. -/
theorem targetAt_cases (s : State) (f : FabPort) (h : BitVec 80) (write : Bool) :
    (∃ st : Nat, targetAt s f h write = (s, .error st)) ∨ hdrBad h = false ∧
      ∃ p : Nat, targetAt s f h write = targetXl (xlate s (targetCtx s f p) (hdrVa h) write) := by
  unfold targetAt
  by_cases hret : bitOf (eff s pgFAB 0x104) f = true
  · exact .inl ⟨_, if_pos hret⟩
  rw [if_neg hret]
  by_cases hbad : (hdrBad h || hdrOpc h != (if write then 2 else 1)) = true
  · exact .inl ⟨_, if_pos hbad⟩
  rw [if_neg hbad]
  have hgood : hdrBad h = false := Bool.eq_false_iff.mpr fun hb => hbad (by rw [hb, Bool.true_or])
  cases fabOwner s f with
  | none => exact .inl ⟨_, rfl⟩
  | some p =>
    dsimp only
    split_ifs with hrange
    · exact .inl ⟨_, rfl⟩
    · refine .inr ⟨hgood, p, ?_⟩
      unfold targetXl targetCtx
      generalize xlate s { who := Who.target s f, part := p, root := none, owner := Owner.block } (hdrVa h) write = found
      obtain ⟨t, x⟩ := found
      cases x with
      | fail cause => rfl
      | ecc d => rfl
      | ok pa leaf => rfl

theorem tame_targetAt {s : State} (hs : s.rowErr = []) (f : FabPort) (h : BitVec 80) (write : Bool) : Tame s (targetAt s f h write).1 := by
  rcases targetAt_cases s f h write with ⟨st, heq⟩ | ⟨-, p, heq⟩
  · rw [heq]
    exact .refl s
  · rw [heq, fst_targetXl]
    exact tame_xlate hs _ _ _

/-! ## Requests that wait -/

theorem fabP_of_fab {s t : State} (h : t.fab = s.fab) (f : Nat) : fabP t f = fabP s f := by
  simp only [fabP, h]

theorem eff_of_effect {s t : State} (h : t.effect = s.effect) (pg off : Nat) : eff t pg off = eff s pg off := by
  simp only [eff, h]

theorem addUpsets_frame (s : State) (us : List Upset) : addUpsets s us = { s with rowErr := (addUpsets s us).rowErr } := by
  refine foldl_keeps (P := fun t => t = { s with rowErr := t.rowErr }) rfl fun t u ht => ?_
  unfold addUpset
  split_ifs
  · rw [ht]
    rfl
  · exact ht

/-- A request waits, and holds the credits of its beats. -/
def tqHold (s : State) (f : FabPort) (h : BitVec 80) (beats : List Beat) : State :=
  updFab s f fun x => { x with held := x.held ++ [(h, beats)], tqCred := x.tqCred - max 1 beats.length }

/-- What a request that is performed leaves. -/
def tqDone (s : State) (f : FabPort) (h : BitVec 80) (beats : List Beat) : State :=
  if beats.isEmpty then performRead s f h else performWrite s f h beats

theorem tqTake_eq (s : State) (f : FabPort) (h : BitVec 80) (beats : List Beat) :
    tqTake s f h beats =
      if tqBehind s f h beats then tqHold s f h beats
      else if asks s (tqDone s f h beats) then tqHold (askRows s (tqDone s f h beats)) f h beats else tqDone s f h beats := rfl

theorem tqTake_behind {s : State} {f : FabPort} {h : BitVec 80} {beats : List Beat} (hb : tqBehind s f h beats = true) :
    tqTake s f h beats = tqHold s f h beats := by
  rw [tqTake_eq, if_pos hb]

theorem tqTake_asks {s : State} {f : FabPort} {h : BitVec 80} {beats : List Beat} (hb : tqBehind s f h beats = false)
    (hask : asks s (tqDone s f h beats) = true) : tqTake s f h beats = tqHold (askRows s (tqDone s f h beats)) f h beats := by
  rw [tqTake_eq, if_neg (Bool.not_eq_true _ ▸ hb), if_pos hask]

theorem tqTake_done {s : State} {f : FabPort} {h : BitVec 80} {beats : List Beat} (hb : tqBehind s f h beats = false)
    (hask : asks s (tqDone s f h beats) = false) : tqTake s f h beats = tqDone s f h beats := by
  rw [tqTake_eq, if_neg (Bool.not_eq_true _ ▸ hb), if_neg (Bool.not_eq_true _ ▸ hask)]

theorem tqBehind_of_fab {s t : State} (hf : t.fab = s.fab) (f : FabPort) (h : BitVec 80) (beats : List Beat) :
    tqBehind t f h beats = tqBehind s f h beats := by
  simp only [tqBehind, fabP_of_fab hf]

theorem asks_of_dozed {s t : State} (h : t.dozed = s.dozed) : asks s t = false := by
  simp [asks, h]

theorem dozed_of_asks {s t : State} (h : asks s t = false) : t.dozed.length = s.dozed.length := by
  simpa [asks] using h

/-! ## The slices that a request asks -/

theorem dozeHit_asked {s : State} {n : Nat} (hdoze : (chan s n).power = .doze) (hw : (chan s n).waking = false) :
    dozeHit s n = { dozeLeft s n with live := (dozeHit s n).live } := by
  have h : ((chan s n).power == .doze && !((chan s n).waking)) = true := by simp [hdoze, hw]
  rw [dozeHit, if_pos h, bump_frame]
  rfl

theorem chan_live (s : State) (l : Words) (n : Nat) : chan { s with live := l } n = chan s n := rfl

theorem slice_live (s : State) (l : Words) (n : Nat) : slice { s with live := l } n = slice s n := rfl

theorem dozeAlone_hit {s t : State} (h : DozeAlone s t) (hcyc : t.cycle = s.cycle) (n : Nat) : DozeAlone s (dozeHit t n) := by
  by_cases hask : (chan t n).power = .doze ∧ (chan t n).waking = false
  · obtain ⟨hdoze, hw⟩ := hask
    intro k hk
    rw [dozeHit_asked hdoze hw, chan_live, slice_live, dozeLeft, chan_updChan, slice_updChan, chan_updSlice, slice_updSlice]
    by_cases hkn : Fin.ofNat 8 n = Fin.ofNat 8 k
    · rw [if_pos hkn, if_pos hkn]
      have hchan : chan t n = chan t k := by simp only [chan, hkn]
      have hslice : slice t n = slice t k := by simp only [slice, hkn]
      rw [hchan] at hdoze hw ⊢
      rw [hslice]
      rcases h k hk with ⟨hchan, hslice⟩ | ⟨-, -, hchan, -⟩
      · refine .inr ⟨hchan ▸ hdoze, hchan ▸ hw, ?_, ?_⟩
        · rw [dozeLeft, chan_updChan_same, chan_updSlice, hchan, hcyc]
        · rw [hslice]
      · rw [hchan, dozeLeft, chan_updChan_same] at hw
        cases hw
    · rw [if_neg hkn, if_neg hkn]
      exact h k hk
  · have hno : ¬ ((chan t n).power == .doze && !((chan t n).waking)) = true := by simpa using hask
    rw [dozeHit, if_neg hno]
    exact h

theorem dozeHit_frame (s : State) (n : Nat) :
    dozeHit s n = { s with live := (dozeHit s n).live, chans := (dozeHit s n).chans, slices := (dozeHit s n).slices } := by
  unfold dozeHit
  split_ifs
  · rw [bump_frame]
    rfl
  · rfl

/-- What a request for rows of dozing slices changes. -/
def AskedAlone (s t : State) : Prop :=
  t = { s with live := t.live, chans := t.chans, slices := t.slices, dozed := t.dozed } ∧ DozeAlone s t

theorem askedAlone_dozeTouch {s t : State} (h : AskedAlone s t) (n ch : Nat) : AskedAlone s (dozeTouch t n ch) := by
  obtain ⟨hframe, halone⟩ := h
  unfold dozeTouch
  split_ifs
  · have hwait : DozeAlone s { t with dozed := t.dozed ++ [(n, ch)] } := halone
    have hcyc : t.cycle = s.cycle := by rw [hframe]
    refine ⟨?_, dozeAlone_hit hwait hcyc n⟩
    rw [dozeHit_frame]
    dsimp only
    rw [hframe]
  · exact ⟨hframe, halone⟩

theorem askedAlone_askRows (s t : State) : AskedAlone s (askRows s t) :=
  foldl_keeps (P := AskedAlone s) ⟨rfl, fun _ _ => .inl ⟨rfl, rfl⟩⟩ fun _ e h => askedAlone_dozeTouch h e.1 e.2

/-! ## Reads -/

theorem dozed_failResp (s : State) (f : FabPort) (h : BitVec 80) (st : Nat) (write : Bool) : (failResp s f h st write).dozed = s.dozed := rfl

theorem performRead_refused {s : State} {f : FabPort} {h : BitVec 80} {st : Nat} (hat : targetAt s f h false = (s, .error st)) :
    performRead s f h = failResp s f h st false := by
  rw [performRead, hat]

theorem targetAt_retired {s : State} {f : FabPort} (hret : bitOf (eff s pgFAB 0x104) f = true) (h : BitVec 80) (write : Bool) :
    targetAt s f h write = (s, .error fabDECERR) := by
  rw [targetAt, if_pos hret]

theorem targetAt_format {s : State} {f : FabPort} {h : BitVec 80} {write : Bool} (hret : bitOf (eff s pgFAB 0x104) f = false)
    (hbad : hdrBad h = true ∨ hdrOpc h ≠ if write then 2 else 1) : targetAt s f h write = (s, .error fabFMTERR) := by
  have h' : (hdrBad h || hdrOpc h != (if write then 2 else 1)) = true := by simpa using hbad
  rw [targetAt, if_neg (Bool.not_eq_true _ ▸ hret), if_pos h']

/-- A read that asks no row in DOZE, on memory without errors: its response. -/
theorem performRead_plain {s : State} {f : FabPort} {h : BitVec 80} (hs : s.rowErr = []) (hask : asks s (performRead s f h) = false) :
    performRead s f h = { s with live := (performRead s f h).live, fabOut := (performRead s f h).fabOut } ∧
      (∀ pa : Nat, (targetAt s f h false).2 = .ok pa → (performRead s f h).fabOut = s.fabOut ++
        [{ port := f, tag := hdrTag h, status := 0, wack := false
           data := beatsOf (hdrLen h) (memBytes s.mem pa (128 * hdrLen h)) }]) ∧
      ∀ st : Nat, (targetAt s f h false).2 = .error st → (performRead s f h).fabOut = s.fabOut ++
        [{ port := f, tag := hdrTag h, status := st, wack := false, data := List.replicate (hdrLen h) 0 }] := by
  have hat := tame_targetAt hs f h false
  unfold performRead at hask ⊢
  rcases hx : targetAt s f h false with ⟨t, st | pa⟩
  · rw [hx] at hat hask
    have hframe : t = { s with live := t.live } := hat.same (dozed_of_asks hask)
    dsimp only
    refine ⟨?_, fun pa hpa => (by cases hpa), fun st' hst => ?_⟩
    · rw [failResp, respond, hframe]
    · obtain rfl : st = st' := by injection hst
      rw [failResp, respond, hframe]
      rfl
  · rw [hx] at hat hask
    dsimp only at hask ⊢
    have ht : t.rowErr = [] := hat.rows.trans hs
    have htouch := hat.trans (tame_touchRows t (Who.target t f).ch pa (128 * hdrLen h) false)
    rw [rowsRead_plain ht] at hask ⊢
    dsimp only at hask ⊢
    have hframe : touchRows t (Who.target t f).ch pa (128 * hdrLen h) false = { s with live := _ } := htouch.same (dozed_of_asks hask)
    refine ⟨?_, fun pa' hpa => ?_, fun st hst => (by cases hst)⟩
    · rw [respond, hframe]
    · obtain rfl : pa = pa' := by injection hpa
      rw [respond, hframe, hat.mem]
      rfl

theorem bump_of_rowErr {s t : State} (h : t = { s with rowErr := t.rowErr }) (i pg off n : Nat) :
    bump t i pg off n = { s with rowErr := (bump t i pg off n).rowErr, live := (bump t i pg off n).live } := by
  have hrows : (bump t i pg off n).rowErr = t.rowErr := (light_bump t i pg off n).rows
  rw [hrows]
  refine (bump_frame t i pg off n).trans ?_
  generalize (bump t i pg off n).live = l
  rw [h]

/-- Settles O43: a read that waits is told from one that is performed by the rows that its performance asks
(`askedAlone_askRows`); on memory without errors what is performed changes counters and the response alone. -/
theorem fabricReadsAreAnswered : Obligations.FabricReadsAreAnswered := by
  intro f h ups s hruns u held
  have hread : exec (.fabricTargetRead f h ups) s = .next (keepPins s (targetRead s f h ups)) := act_runs hruns fun s => targetRead s f h ups
  have hkept : exec (.fabricTargetRead f h ups) s = .next (targetRead s f h ups) :=
    act_kept (f := fun s => targetRead s f h ups) hruns (targetRead_keeps (kd := kdA) (.refl s))
  have hframe : u = { s with rowErr := u.rowErr, live := u.live } := bump_of_rowErr (addUpsets_frame s ups) f pgFAB 0xF1C 1
  have hfab : u.fab = s.fab := by rw [hframe]
  have heff : eff u pgFAB 0x104 = eff s pgFAB 0x104 := eff_of_effect (by rw [hframe]) _ _
  have htake (hop : hdrOpc h ≠ 2) (hcred : (fabP s f).tqCred ≠ 0) : targetRead s f h ups = tqTake u f h [] := by
    have hgo : ¬ (decide (hdrOpc h = 2) || decide ((fabP s f).tqCred = 0)) = true := by simp [hop, hcred]
    rw [targetRead, if_neg hgo]
  refine ⟨fun hlost => ?_, fun hop hcred hbehind => ?_, fun hop hcred hbehind => ?_, askedAlone_askRows s⟩
  · have hstop : (decide (hdrOpc h = 2) || decide ((fabP s f).tqCred = 0)) = true := by simpa using hlost
    rw [hread, targetRead, if_pos hstop]
  · have hb : tqBehind u f h [] = true := (tqBehind_of_fab hfab f h []).trans hbehind
    rw [hread, htake hop hcred, tqTake_behind hb]
    rfl
  · have hb : tqBehind u f h [] = false := (tqBehind_of_fab hfab f h []).trans hbehind
    have hanswer {t : State} (ht : performRead u f h = t) (hask : asks u t = false) :
        targetRead s f h ups = t := by
      rw [htake hop hcred, tqTake_done hb (by rwa [← ht] at hask), ← ht]
      rfl
    refine ⟨fun hask => ?_, fun hret => ?_, fun hret hbad => ?_, fun hop1 v w pa st d hat hrows hask => ?_, fun hop1 hask hclean hups => ?_⟩
    · rw [hread, htake hop hcred, tqTake_asks hb hask]
      rfl
    · rw [hread, hanswer (performRead_refused (targetAt_retired (heff ▸ hret) h false)) (asks_of_dozed (dozed_failResp _ _ _ _ _))]
    · have hat : targetAt u f h false = (u, .error fabFMTERR) := targetAt_format (heff ▸ hret) hbad.symm
      rw [hread, hanswer (performRead_refused hat) (asks_of_dozed (dozed_failResp _ _ _ _ _))]
    · have hperf : performRead u f h = failResp w f h fabDATAERR false := by
        rw [performRead, hat]
        dsimp only
        rw [hrows]
      rw [hread, hanswer hperf hask]
    · subst hups
      have hu : u = { s with live := u.live } := bump_frame s f pgFAB 0xF1C 1
      have hclean' : u.rowErr = [] := (by rw [hu]; exact hclean)
      obtain ⟨hsame, hok, herr⟩ := performRead_plain hclean' hask
      have hout : u.fabOut = s.fabOut := by rw [hu]
      have hmem : u.mem = s.mem := by rw [hu]
      rw [hout, hmem] at hok
      rw [hout] at herr
      refine ⟨performRead u f h, by rw [hkept, hanswer rfl hask], ?_, hok, herr⟩
      rw [hsame]
      rw [hu]

end Sys2Proof.Machine
end

section
/-! Masked writes of target requests: the bytes that they put, and what they leave alone (R201, R332). -/

namespace Sys2Proof.Machine

open Sys2Proof

/-! ## Bytes of a run of memory -/

theorem getElem?_memRun (n : Nat) {m : Memory} {a : Nat} (hasc : m.Pairwise fun a b => a.1 < b.1) (hlow : ∀ c ∈ m, a ≤ c.1) (i : Nat) :
    (memRun m a n)[i]? = if i < n then some (memByte m (a + i)) else none := by
  induction n generalizing m a i with
  | zero => rfl
  | succ n ih =>
    cases m with
    | nil =>
      cases i with
      | zero => simp [memRun, memByte]
      | succ i =>
        rw [memRun, List.getElem?_cons_succ, ih List.Pairwise.nil (fun c hc => absurd hc List.not_mem_nil)]
        simp [memByte]
    | cons c rest =>
      obtain ⟨hc, hrest⟩ := List.pairwise_cons.mp hasc
      have hnext : a + (i + 1) = a + 1 + i := by omega
      rw [memRun]
      by_cases hca : c.1 = a
      · rw [if_pos hca]
        have hlow' : ∀ d ∈ rest, a + 1 ≤ d.1 := fun d hd => by
          have := hc d hd
          omega
        cases i with
        | zero => simp [memByte, hca]
        | succ i =>
          have hne : c.1 ≠ a + (i + 1) := by omega
          rw [List.getElem?_cons_succ, ih hrest hlow', memByte, if_neg hne, show a + (i + 1) = a + 1 + i by omega]
          simp
      · rw [if_neg hca]
        have hlow' : ∀ d ∈ c :: rest, a + 1 ≤ d.1 := fun d hd => by
          have hge := hlow c (List.mem_cons_self ..)
          rcases List.mem_cons.mp hd with rfl | hd
          · omega
          · have := hc d hd
            omega
        cases i with
        | zero =>
          have hnone : memByte (c :: rest) (a + 0) = 0 := memByte_none fun d hd => by
            have := hlow' d hd
            omega
          rw [hnone]
          simp
        | succ i =>
          rw [List.getElem?_cons_succ, ih hasc hlow', show a + (i + 1) = a + 1 + i by omega]
          simp

/-- A byte of a run that is read from memory in canonical form. -/
theorem getElem?_memBytes {m : Memory} (h : m.wf) (a n i : Nat) :
    (memBytes m a n)[i]? = if i < n then some (memByte m (a + i)) else none := by
  have hlow : ∀ c ∈ m.filter (fun c => decide (a ≤ c.1) && decide (c.1 < a + n)), a ≤ c.1 := fun c hc => by
    obtain ⟨-, hin⟩ := List.mem_filter.mp hc
    simp only [Bool.and_eq_true, decide_eq_true_eq] at hin
    exact hin.1
  rw [memBytes, getElem?_memRun n (h.1.filter _) hlow]
  split_ifs with hi
  · rw [memByte_filter fun c hc => ?_]
    simp only [Bool.and_eq_true, decide_eq_true_eq]
    omega
  · rfl

/-! ## What a write of a row leaves alone -/

/-- The partitions, the channels, the configuration, the waiting requests of rows and the responses are the same. -/
structure RowAside (s t : State) : Prop where
  parts : t.parts = s.parts
  chans : t.chans = s.chans
  shadow : t.shadow = s.shadow
  effect : t.effect = s.effect
  dozed : t.dozed = s.dozed
  out : t.fabOut = s.fabOut

theorem RowAside.refl (s : State) : RowAside s s := ⟨rfl, rfl, rfl, rfl, rfl, rfl⟩

theorem RowAside.trans {s t u : State} (h : RowAside s t) (g : RowAside t u) : RowAside s u :=
  ⟨g.parts.trans h.parts, g.chans.trans h.chans, g.shadow.trans h.shadow, g.effect.trans h.effect, g.dozed.trans h.dozed, g.out.trans h.out⟩

theorem rowAside_addFault (s : State) (f : FaultRec) : RowAside s (addFault s f) := by
  rw [addFault_eq]
  exact ⟨rfl, rfl, rfl, rfl, rfl, rfl⟩

theorem rowAside_updRowMem (s : State) (row : Nat) (f : RowMem → RowMem) : RowAside s (updRowMem s row f) := by
  rw [updRowMem_frame]
  exact ⟨rfl, rfl, rfl, rfl, rfl, rfl⟩

theorem rowAside_setPat (s : State) (row : Nat) (pat : List (Nat × BitVec 16)) : RowAside s (setPat s row pat) :=
  ⟨rfl, rfl, rfl, rfl, rfl, rfl⟩

theorem rowAside_entry (s : State) (fuse : FuseImage) (repair : List (Word × Word)) : RowAside s { s with fuse := fuse, repair := repair } :=
  ⟨rfl, rfl, rfl, rfl, rfl, rfl⟩

theorem rowAside_steer (s : State) (row k : Nat) : RowAside s (steer s row k) := by
  have hspare := rowAside_updRowMem s row fun m => { m with spares := (row, k) :: m.spares }
  unfold steer
  dsimp only
  split_ifs
  · exact hspare.trans (rowAside_entry _ _ _)
  · exact hspare.trans (rowAside_entry _ _ _)
  · exact hspare.trans (rowAside_entry _ _ _)

theorem rowAside_retireRow (s : State) (row n : Nat) : RowAside s (retireRow s row n) := by
  unfold retireRow
  split
  · unfold spareOut
    split_ifs
    · exact .refl s
    · exact (rowAside_updRowMem s row _).trans (rowAside_addFault _ _)
  · next k _ =>
    exact ((((rowAside_setPat s _ _).trans (rowAside_steer _ row k)).trans (rowAside_updRowMem _ row _)).trans
      ((rowAside_setPat _ _ _).trans (rowAside_setPat _ _ _))).trans (rowAside_addFault _ _)

theorem rowAside_reported (s : State) (l : List Nat) : RowAside s { s with reported := l } := ⟨rfl, rfl, rfl, rfl, rfl, rfl⟩

theorem rowAside_wroteRow (s : State) (row : Nat) : RowAside s (wroteRow s row) := by
  have hdrop : ∀ t : State, RowAside t (backDropped t row) := fun t => by
    unfold backDropped
    split_ifs
    · exact rowAside_updRowMem t row _
    · exact .refl t
  have hretire : ∀ t : State, RowAside t (reportedRetired t row) := fun t => by
    unfold reportedRetired
    split_ifs
    · exact (rowAside_reported t _).trans (rowAside_retireRow _ row _)
    · exact .refl t
  have hfresh : ∀ t : State, RowAside t (freshRow t row) := fun t => by
    unfold freshRow
    split_ifs
    · exact .refl t
    · exact rowAside_setPat t row []
  rw [wroteRow_eq]
  exact ((hdrop s).trans (hretire _)).trans (hfresh _)

/-! ## A masked run put over bytes -/

/-- A byte of a masked run, where it has one whose mask bit is set, else the byte before. -/
def overByte (e : Option (Byte × Bool)) (old : Byte) : Byte :=
  match e with
  | some (v, true) => v
  | _ => old

/-- The entry of a run at `pa` that stands at address `a`. -/
def runAt (run : List (Byte × Bool)) (pa a : Nat) : Option (Byte × Bool) := if pa ≤ a then run[a - pa]? else none

theorem getElem?_mergeRun (all : List Byte) (off : Nat) (run : List (Byte × Bool)) (i : Nat) :
    (mergeRun all off run)[i]? = all[i]?.map (overByte (runAt run off i)) := by
  have h : mergeRun all off run = all.zipIdx.map fun e => overByte (runAt run off e.2) e.1 := rfl
  rw [h, List.getElem?_map, List.getElem?_zipIdx, Option.map_map]
  cases all[i]? with
  | none => rfl
  | some b => simp [Function.comp]

theorem overByte_clear {run : List (Byte × Bool)} (h : (run.all fun e => !e.2) = true) (pa a : Nat) (old : Byte) :
    overByte (runAt run pa a) old = old := by
  unfold runAt
  split_ifs
  · cases he : run[a - pa]? with
    | none => rfl
    | some e =>
      obtain ⟨v, m⟩ := e
      have := List.all_eq_true.mp h _ (List.mem_of_getElem? he)
      cases m with
      | false => rfl
      | true => cases this
  · rfl

theorem overByte_set {run : List (Byte × Bool)} (h : run.all (·.2) = true) {i : Nat} (hi : i < run.length) (old : Byte) :
    overByte run[i]? old = (run.map (·.1)).getD i 0 := by
  rw [List.getElem?_eq_getElem hi, List.getD_eq_getElem?_getD, List.getElem?_map, List.getElem?_eq_getElem hi]
  have := List.all_eq_true.mp h _ (List.getElem_mem hi)
  rcases he : run[i] with ⟨v, m⟩
  rw [he] at this
  cases m with
  | false => cases this
  | true => rfl

theorem runAt_outside {run : List (Byte × Bool)} {pa a : Nat} (h : a < pa ∨ pa + run.length ≤ a) : runAt run pa a = none := by
  unfold runAt
  split_ifs
  · exact List.getElem?_eq_none (by omega)
  · rfl

/-- A run in one row, merged into the row's bytes, puts its bytes over memory. -/
theorem memByte_merge {m : Memory} (hwf : m.wf) {pa : Nat} {run : List (Byte × Bool)} (hfit : pa % 512 + run.length ≤ 512) (a : Nat) :
    memByte (memPut m (rowOf pa) (mergeRun (memBytes m (rowOf pa) 512) (pa - rowOf pa) run)) a = overByte (runAt run pa a) (memByte m a) := by
  have hrow : rowOf pa = pa / 512 * 512 := rfl
  have hlen : (mergeRun (memBytes m (rowOf pa) 512) (pa - rowOf pa) run).length = 512 := by
    rw [mergeRun, List.length_map, List.length_zipIdx]
    refine le_antisymm (List.getElem?_eq_none_iff.mp ?_) (not_lt.mp fun hlt => ?_)
    · rw [getElem?_memBytes hwf, if_neg (by omega)]
    · have := getElem?_memBytes hwf (rowOf pa) 512 (memBytes m (rowOf pa) 512).length
      rw [List.getElem?_eq_none (le_refl _), if_pos hlt] at this
      cases this
  rw [memByte_memPut, hlen]
  by_cases hin : rowOf pa ≤ a ∧ a < rowOf pa + 512
  · have hat : rowOf pa + (a - rowOf pa) = a := by omega
    have hrun : runAt run (pa - rowOf pa) (a - rowOf pa) = runAt run pa a := by
      unfold runAt
      by_cases hpa : pa ≤ a
      · rw [if_pos hpa, if_pos (by omega), show a - rowOf pa - (pa - rowOf pa) = a - pa by omega]
      · rw [if_neg hpa, if_neg (by omega)]
    rw [if_pos hin, List.getD_eq_getElem?_getD, getElem?_mergeRun, getElem?_memBytes hwf, if_pos (by omega), hat, hrun]
    rfl
  · have hout : runAt run pa a = none := runAt_outside (by omega)
    rw [if_neg hin, hout]
    rfl

/-- A run that fills a row, written whole. -/
theorem memByte_whole (m : Memory) {pa : Nat} {run : List (Byte × Bool)} (hfit : pa % 512 + run.length ≤ 512) (hlen : run.length = 512)
    (hset : run.all (·.2) = true) (a : Nat) :
    memByte (memPut m (rowOf pa) (run.map (·.1))) a = overByte (runAt run pa a) (memByte m a) := by
  have hrow : rowOf pa = pa := by
    change pa / 512 * 512 = pa
    omega
  rw [memByte_memPut, hrow, List.length_map]
  by_cases hin : pa ≤ a ∧ a < pa + run.length
  · rw [if_pos hin, runAt, if_pos hin.1, overByte_set hset (by omega)]
  · rw [if_neg hin, runAt_outside (by omega)]
    rfl

/-! ## Masked writes -/

theorem maskedWrite_clear {run : List (Byte × Bool)} (h : (run.all fun e => !e.2) = true) (s : State) (f : FabPort) (pa : Nat) :
    maskedWrite s f pa run = (s, true) := by
  rw [maskedWrite, if_pos h]

/-- The memory of a row, written with a masked run. -/
def runPut (m : Memory) (pa : Nat) (run : List (Byte × Bool)) : Memory :=
  if run.length = 512 && run.all (·.2) then memPut m (rowOf pa) (run.map (·.1))
  else memPut m (rowOf pa) (mergeRun (memBytes m (rowOf pa) 512) (pa - rowOf pa) run)

theorem memByte_runPut {m : Memory} (hwf : m.wf) {pa : Nat} {run : List (Byte × Bool)} (hfit : pa % 512 + run.length ≤ 512) (a : Nat) :
    memByte (runPut m pa run) a = overByte (runAt run pa a) (memByte m a) := by
  unfold runPut
  split_ifs with hwhole
  · simp only [Bool.and_eq_true, decide_eq_true_eq] at hwhole
    exact memByte_whole m hfit hwhole.1 hwhole.2 a
  · exact memByte_merge hwf hfit a

/-- A state with another memory. -/
def withMem (s : State) (m : Memory) : State := { s with mem := m }

theorem rowAside_withMem (s : State) (m : Memory) : RowAside s (withMem s m) := ⟨rfl, rfl, rfl, rfl, rfl, rfl⟩

theorem maskedWrite_put {run : List (Byte × Bool)} (h : (run.all fun e => !e.2) = false) {s : State} (hs : s.rowErr = []) (f : FabPort) (pa : Nat) :
    maskedWrite s f pa run =
      let t := touchRows s (Who.target s f).ch pa run.length true
      (wroteRow (withMem t (runPut t.mem pa run)) (rowOf pa), true) := by
  have ht : (touchRows s (Who.target s f).ch pa run.length true).rowErr = [] := (light_touchRows _ _ _ _ _).rows.trans hs
  rw [maskedWrite, if_neg (Bool.not_eq_true _ ▸ h)]
  dsimp only
  generalize touchRows s (Who.target s f).ch pa run.length true = t at ht
  unfold runPut
  by_cases hwhole : (decide (run.length = 512) && run.all (·.2)) = true
  · rw [if_pos hwhole, if_pos hwhole]
    rfl
  · rw [if_neg hwhole, if_neg hwhole, if_pos (by rw [rowPat_clean ht]; rfl)]
    rfl

/-- A masked write in one row, on memory without errors. -/
theorem maskedWrite_spec {s : State} (hs : s.rowErr = []) (f : FabPort) {pa : Nat} {run : List (Byte × Bool)}
    (hfit : pa % 512 + run.length ≤ 512) :
    (maskedWrite s f pa run).2 = true ∧
      (∃ t : State, Tame s t ∧ RowAside t (maskedWrite s f pa run).1) ∧
      (s.mem.wf → ∀ a : Nat, memByte (maskedWrite s f pa run).1.mem a = overByte (runAt run pa a) (memByte s.mem a)) := by
  cases hclear : run.all fun e => !e.2 with
  | true =>
    rw [maskedWrite_clear hclear]
    exact ⟨rfl, ⟨s, .refl s, .refl s⟩, fun _ a => (overByte_clear hclear pa a _).symm⟩
  | false =>
    rw [maskedWrite_put hclear hs]
    have htame := tame_touchRows s (Who.target s f).ch pa run.length true
    generalize touchRows s (Who.target s f).ch pa run.length true = t at htame
    refine ⟨rfl, ⟨t, htame, ?_⟩, fun hwf a => ?_⟩
    · exact (rowAside_withMem t _).trans (rowAside_wroteRow _ _)
    · dsimp only
      rw [mem_wroteRow, ← htame.mem]
      exact memByte_runPut (htame.mem ▸ hwf) hfit a

/-! ## Where a request's bytes stand in a row -/

theorem checkPa_ok {s : State} {a pa leaf leaf' : Nat} {write : Bool} (h : (checkPa s a leaf write).2 = .ok pa leaf') : pa = a := by
  unfold checkPa at h
  split_ifs at h
  · injection h with hpa
    exact hpa.symm

theorem dysil_mod {s : State} {c : Ctx} {va a : Nat} (h : dysil s c va = some a) : a % 512 = va % 512 := by
  unfold dysil at h
  dsimp only at h
  split_ifs at h
  injection h with h
  have hoff : field va 0 20 = va % 2 ^ 20 := by rw [field, Nat.shiftRight_zero]
  rw [hoff] at h
  omega

theorem readEntry_error (s t : State) (w : Who) (node idx pa leaf : Nat) : readEntry s w node idx ≠ (t, .error (.ok pa leaf)) := by
  intro h
  unfold readEntry at h
  dsimp only at h
  split_ifs at h
  · cases h
  · split at h
    · cases h
    · cases h

theorem walkFrom_error (w : Who) (va k : Nat) (s t : State) (node pa leaf : Nat) : walkFrom w va k s node ≠ (t, .error (.ok pa leaf)) := by
  induction k generalizing s node with
  | zero =>
    intro h
    unfold walkFrom at h
    split at h
    · split_ifs at h
      · cases h
      · cases h
    · exact readEntry_error _ _ _ _ _ _ _ h
  | succ k ih =>
    intro h
    unfold walkFrom at h
    split at h
    · split_ifs at h
      · exact ih _ _ h
      · cases h
    · exact readEntry_error _ _ _ _ _ _ _ h

/-- A translation keeps the place of an address in its row. -/
theorem xlate_mod {s : State} {c : Ctx} {va pa leaf : Nat} {write : Bool} (h : (xlate s c va write).2 = .ok pa leaf) : pa % 512 = va % 512 := by
  unfold xlate at h
  dsimp only at h
  split at h
  · split at h
    · cases h
    · next a ha =>
      have := dysil_mod ha
      rw [checkPa_ok h]
      omega
  · split at h
    · cases h
    · split at h
      · next e hx =>
        subst h
        exact absurd hx (walkFrom_error _ _ _ _ _ _ _ _)
      · split_ifs at h
        have hpa := checkPa_ok h
        simp only [entryPa, Config.granule] at hpa
        omega

theorem fit_of_hdr {h : BitVec 80} (hgood : hdrBad h = false) : hdrVa h % 512 + 128 * hdrLen h ≤ 512 := by
  have hcross : ¬ 4 < hdrVa h / 128 % 4 + hdrLen h := by
    intro hc
    simp [hdrBad, hc] at hgood
  have hva : hdrVa h = field h.toNat 20 57 * 128 := rfl
  omega

/-- Where the bytes of a request that is answered stand. -/
theorem targetAt_fit {s : State} {f : FabPort} {h : BitVec 80} {write : Bool} {pa : Nat} (hat : (targetAt s f h write).2 = .ok pa) :
    pa % 512 + 128 * hdrLen h ≤ 512 := by
  rcases targetAt_cases s f h write with ⟨st, heq⟩ | ⟨hgood, p, heq⟩
  · rw [heq] at hat
    cases hat
  · rw [heq] at hat
    have hmod (a leaf : Nat) : (xlate s (targetCtx s f p) (hdrVa h) write).2 = .ok a leaf → a % 512 = hdrVa h % 512 := xlate_mod
    have hfit := fit_of_hdr hgood
    generalize xlate s (targetCtx s f p) (hdrVa h) write = x at hat hmod
    obtain ⟨t, x⟩ := x
    cases x with
    | fail cause => cases hat
    | ecc d => cases hat
    | ok a leaf =>
      have ha := hmod a leaf rfl
      have hpa : (if isHost a = true then (t, Except.error fabDECERR) else (t, Except.ok a)).2 = .ok pa := hat
      by_cases hhost : isHost a = true
      · rw [if_pos hhost] at hpa
        cases hpa
      · rw [if_neg hhost] at hpa
        cases hpa
        omega

theorem length_leBytes (n v : Nat) : (leBytes n v).length = n := by
  induction n generalizing v with
  | zero => rfl
  | succ n ih => rw [leBytes, List.length_cons, ih]

theorem length_maskedBytes (beats : List Beat) : (maskedBytes beats).length = 128 * beats.length := by
  unfold maskedBytes
  induction beats with
  | nil => rfl
  | cons b l ih =>
    rw [List.flatMap_cons, List.length_append, ih, List.length_zip, length_leBytes, List.length_map, List.length_range, List.length_cons]
    omega

/-! ## Target writes -/

theorem performWrite_refused {s t : State} {f : FabPort} {h : BitVec 80} {st : Nat} (hat : targetAt s f h true = (t, .error st))
    (beats : List Beat) :
    performWrite s f h beats = failResp t f h st true := by
  rw [performWrite, hat]

theorem performWrite_put {s t : State} {f : FabPort} {h : BitVec 80} {pa : Nat} (hat : targetAt s f h true = (t, .ok pa)) {beats : List Beat}
    (hput : (maskedWrite t f pa (maskedBytes (beats.take (hdrLen h)))).2 = true) :
    performWrite s f h beats = respond (maskedWrite t f pa (maskedBytes (beats.take (hdrLen h)))).1 f h fabOK true [0] := by
  rw [performWrite, hat]
  dsimp only
  generalize maskedWrite t f pa (maskedBytes (beats.take (hdrLen h))) = x at hput
  obtain ⟨u, b⟩ := x
  obtain rfl : b = true := hput
  rfl

/-- A write that asks no row in DOZE, on memory without errors, that its target address refuses. -/
theorem performWrite_fails {s : State} {f : FabPort} {h : BitVec 80} {bs : List Beat} (hs : s.rowErr = [])
    (hask : asks s (performWrite s f h bs) = false) {st : Nat} (hat : (targetAt s f h true).2 = .error st) :
    performWrite s f h bs = { s with
      live := (performWrite s f h bs).live
      fabOut := s.fabOut ++ [{ port := f, tag := hdrTag h, status := st, wack := true, data := [0] }] } := by
  have htame := tame_targetAt hs f h true
  rcases hx : targetAt s f h true with ⟨t, e⟩
  rw [hx] at hat htame
  obtain rfl : e = .error st := hat
  rw [performWrite_refused hx] at hask ⊢
  have hframe : t = { s with live := t.live } := htame.same (dozed_of_asks hask)
  rw [failResp, respond, hframe]
  rfl

/-- One that is performed. -/
theorem performWrite_stores {s : State} {f : FabPort} {h : BitVec 80} {bs : List Beat} (hs : s.rowErr = []) (hlen : bs.length ≤ hdrLen h)
    (hask : asks s (performWrite s f h bs) = false) {pa : Nat} (hat : (targetAt s f h true).2 = .ok pa) :
    (performWrite s f h bs).fabOut = s.fabOut ++ [{ port := f, tag := hdrTag h, status := 0, wack := true, data := [0] }] ∧
      (s.mem.wf → ∀ a : Nat, memByte (performWrite s f h bs).mem a = overByte (runAt (maskedBytes bs) pa a) (memByte s.mem a)) ∧
      (performWrite s f h bs).parts = s.parts ∧ (performWrite s f h bs).chans = s.chans ∧
      (performWrite s f h bs).shadow = s.shadow ∧ (performWrite s f h bs).effect = s.effect := by
  have htame := tame_targetAt hs f h true
  have hfit := targetAt_fit hat
  rcases hx : targetAt s f h true with ⟨t, e⟩
  rw [hx] at hat htame
  obtain rfl : e = .ok pa := hat
  have hrun : pa % 512 + (maskedBytes bs).length ≤ 512 := by
    rw [length_maskedBytes]
    omega
  have htake : bs.take (hdrLen h) = bs := List.take_of_length_le hlen
  obtain ⟨hput, ⟨u, htouch, haside⟩, hbytes⟩ := maskedWrite_spec (htame.rows.trans hs) f hrun
  rw [performWrite_put hx (by rw [htake]; exact hput), htake] at hask ⊢
  have hdozed : u.dozed.length = s.dozed.length := (congrArg List.length haside.dozed).symm.trans (dozed_of_asks hask)
  have hframe : u = { s with live := u.live } := (htame.trans htouch).same hdozed
  refine ⟨?_, fun hwf a => ?_, haside.parts.trans (by rw [hframe]), haside.chans.trans (by rw [hframe]), haside.shadow.trans (by rw [hframe]),
    haside.effect.trans (by rw [hframe])⟩
  · rw [respond, haside.out, hframe]
    rfl
  · rw [← htame.mem]
    exact hbytes (htame.mem ▸ hwf) a

theorem hdrLen_pos (h : BitVec 80) : 0 < hdrLen h := Nat.succ_pos _

/-- The state after the beats of a write were taken. -/
def beatsTaken (s : State) (f : FabPort) (beats : List Beat) : State := bump s f pgFAB 0xF1C (min beats.length (fabP s f).tqCred)

theorem targetWrite_eq (s : State) (f : FabPort) (h : BitVec 80) (beats : List Beat) :
    targetWrite s f h beats =
      if hdrOpc h = 1 || min beats.length (fabP s f).tqCred < hdrLen h then beatsTaken s f beats
      else tqTake (beatsTaken s f beats) f h (beats.take (hdrLen h)) := rfl

/-- A write, all of whose beats came, that is not told to wait is performed. -/
theorem tqDone_write {h : BitVec 80} {bs : List Beat} (hlen : bs.length = hdrLen h) (s : State) (f : FabPort) :
    tqDone s f h bs = performWrite s f h bs := by
  have hne : bs.isEmpty = false := by
    rw [List.isEmpty_eq_false_iff, ← List.length_pos_iff, hlen]
    exact hdrLen_pos h
  rw [tqDone, if_neg (Bool.not_eq_true _ ▸ hne)]

theorem tqHold_write {h : BitVec 80} {bs : List Beat} (hlen : bs.length = hdrLen h) (s : State) (f : FabPort) :
    tqHold s f h bs = updFab s f fun x => { x with held := x.held ++ [(h, bs)], tqCred := x.tqCred - hdrLen h } := by
  rw [tqHold, hlen, max_eq_right (hdrLen_pos h)]

/-- Settles O44: the request's bytes lie in one row, because translation keeps an address's place in its row
(`targetAt_fit`), and the row is written with the run put over it (`memByte_runPut`). -/
theorem fabricWritesStoreTheirBytes : Obligations.FabricWritesStoreTheirBytes := by
  intro f h beats s hruns got bs u held
  have hwrite : exec (.fabricTargetWrite f h beats) s = .next (keepPins s (targetWrite s f h beats)) :=
    act_runs hruns fun s => targetWrite s f h beats
  have hkept : exec (.fabricTargetWrite f h beats) s = .next (targetWrite s f h beats) :=
    act_kept (f := fun s => targetWrite s f h beats) hruns (targetWrite_keeps (kd := kdA) (.refl s))
  have hu : u = { s with live := u.live } := bump_frame s f pgFAB 0xF1C got
  have hfab : u.fab = s.fab := by rw [hu]
  have heff : eff u pgFAB 0x104 = eff s pgFAB 0x104 := eff_of_effect (by rw [hu]) _ _
  have htake (hop : hdrOpc h ≠ 1) (hgot : hdrLen h ≤ got) : targetWrite s f h beats = tqTake u f h bs ∧ bs.length = hdrLen h := by
    have hgo : ¬ (decide (hdrOpc h = 1) || decide (min beats.length (fabP s f).tqCred < hdrLen h)) = true := by
      simpa [hop] using le_min_iff.mp hgot
    have hlen : hdrLen h ≤ beats.length := hgot.trans (min_le_left _ _)
    refine ⟨by rw [targetWrite_eq, if_neg hgo]; rfl, ?_⟩
    rw [List.length_take, min_eq_left hlen]
  refine ⟨fun hlost => ?_, fun hop hgot hbehind => ?_, fun hop hgot hbehind => ?_⟩
  · have hstop : (decide (hdrOpc h = 1) || decide (min beats.length (fabP s f).tqCred < hdrLen h)) = true := by
      rw [Bool.or_eq_true, decide_eq_true_eq, decide_eq_true_eq]
      exact hlost
    rw [hwrite, targetWrite_eq, if_pos hstop]
    rfl
  · obtain ⟨heq, hlen⟩ := htake hop hgot
    rw [hwrite, heq, tqTake_behind ((tqBehind_of_fab hfab f h bs).trans hbehind), tqHold_write hlen]
  · obtain ⟨heq, hlen⟩ := htake hop hgot
    have hb : tqBehind u f h bs = false := (tqBehind_of_fab hfab f h bs).trans hbehind
    have hdone := tqDone_write hlen u f
    have hanswer {t : State} (ht : performWrite u f h bs = t) (hask : asks u t = false) : targetWrite s f h beats = t := by
      rw [heq, tqTake_done hb (by rwa [hdone, ht]), hdone, ht]
    refine ⟨fun hask => ?_, fun hret => ?_, fun hop2 hret => ?_, fun hop2 hask hclean => ⟨fun st hat => ?_, fun hwf pa hat => ?_⟩⟩
    · rw [hwrite, heq, tqTake_asks hb (by rwa [hdone]), hdone, tqHold_write hlen]
    · rw [hwrite, hanswer (performWrite_refused (targetAt_retired (heff ▸ hret) h true) bs) (asks_of_dozed (dozed_failResp _ _ _ _ _))]
    · have hat : targetAt u f h true = (u, .error fabFMTERR) := targetAt_format (heff ▸ hret) (.inr hop2)
      rw [hwrite, hanswer (performWrite_refused hat bs) (asks_of_dozed (dozed_failResp _ _ _ _ _))]
    · have hclean' : u.rowErr = [] := by
        rw [hu]
        exact hclean
      have hout : u.fabOut = s.fabOut := by rw [hu]
      have hsame := performWrite_fails hclean' hask hat
      rw [hout] at hsame
      refine ⟨performWrite u f h bs, by rw [hkept, hanswer rfl hask], ?_⟩
      refine hsame.trans ?_
      generalize (performWrite u f h bs).live = l
      rw [hu]
    · have hclean' : u.rowErr = [] := by
        rw [hu]
        exact hclean
      have hmem : u.mem = s.mem := by rw [hu]
      obtain ⟨hout, hbytes, hparts, hchans, hshadow, heffect⟩ := performWrite_stores hclean' hlen.le hask hat
      have hbytes' := hbytes (hmem ▸ hwf)
      rw [hmem] at hbytes'
      refine ⟨performWrite u f h bs, by rw [hkept, hanswer rfl hask], hout.trans (by rw [hu]), hbytes', hparts.trans (by rw [hu]),
        hchans.trans (by rw [hu]), hshadow.trans (by rw [hu]), heffect.trans (by rw [hu])⟩

/-! ## Initiator requests -/

theorem fabP_bump (s : State) (i pg off n f : Nat) : fabP (bump s i pg off n) f = fabP s f := fabP_of_fab (by rw [bump_frame]) f

theorem ipResponse_sent {s : State} {f : Nat} {h : BitVec 16} {r : IqReq}
    (hr : (fabP s f).sent.find? (fun r => r.tag == field h.toNat 0 8) = some r) (data : List (BitVec 1024)) :
    ipResponse s f h data =
      let v := iqPump (fabP s f).waiting.length (updFab s f fun x => { x with sent := x.sent.filter fun y => y.tag != field h.toNat 0 8 }) f
      iqContinue (answer v f r (field h.toNat 8 3) 1 (field h.toNat 8 3)
        (((data.flatMap fun b => leBytes 128 b.toNat).drop (r.addr % 128)).take r.bytes)) r.owner := by
  unfold ipResponse
  dsimp only
  rw [hr]
  dsimp only
  rw [fabP_updFab_same]

/-- Settles O45: each answer is found by its tag among the requests that were sent. -/
theorem fabricRequestsAreAnswered : Obligations.FabricRequestsAreAnswered := by
  intro f h tag data s hruns n
  have hcred : exec (.fabricIqCredit f) s = .next (keepPins s (iqCredit s f)) := act_runs hruns fun s => iqCredit s f
  have hresp : exec (.fabricIpResponse f h data) s = .next (keepPins s (ipResponse s f h data)) :=
    act_runs hruns fun s => ipResponse s f h data
  have htime : exec (.fabricResponseTimeout f tag) s = .next (keepPins s (responseTimeout s f tag.toNat)) :=
    act_runs hruns fun s => responseTimeout s f tag.toNat
  have hgain (hlt : (fabP s f).iqCred < 255) : iqCredit s f =
      iqPump (fabP s f).waiting.length (updFab s f fun x => { x with iqCred := x.iqCred + 1 }) f := by
    rw [iqCredit, if_neg (not_le.mpr hlt)]
    dsimp only
    rw [fabP_updFab_same]
  have hnone (hfind : (fabP s f).sent.find? (fun r => r.tag == n) = none) : ipResponse s f h data =
      if (fabP s f).stale.contains n then iqPump (fabP s f).waiting.length
        (updFab (bump s f pgFAB 0xF14 1) f fun x => { x with stale := x.stale.filter fun t => t != n }) f
      else s := by
    unfold ipResponse
    dsimp only
    rw [hfind]
    dsimp only
    rw [fabP_updFab_same, fabP_bump]
  refine ⟨fun hfull => ?_, fun hlt hwait => ?_, fun hlt => by rw [hcred, hgain hlt], fun hfind hstale => ?_, fun hfind hstale => ?_,
    fun r hr => by rw [hresp, ipResponse_sent hr], fun hfind => ?_, fun r hr => ⟨fun hearly => ?_, fun hlim hlate => ?_⟩⟩
  · rw [hcred, iqCredit, if_pos hfull]
  · rw [hcred, hgain hlt, hwait]
    rfl
  · rw [hresp, hnone hfind, if_neg (Bool.not_eq_true _ ▸ hstale)]
    rfl
  · rw [hresp, hnone hfind, if_pos hstale]
  · rw [htime, responseTimeout, hfind]
    rfl
  · have hno : (decide (r.limit = 0) || decide (s.cycle - r.sent < r.limit * 1024)) = true := by simpa using hearly
    rw [htime, responseTimeout, hr]
    dsimp only
    rw [if_pos hno]
    rfl
  · have hyes : ¬ (decide (r.limit = 0) || decide (s.cycle - r.sent < r.limit * 1024)) = true := by
      simpa [hlim] using hlate
    rw [htime, responseTimeout, hr]
    dsimp only
    rw [if_neg hyes]

end Sys2Proof.Machine
end

section
/-! Units of channels: how they are taken and how they end (R81, R143 to R145, R281, R282, R309, R392, R393). -/

namespace Sys2Proof.Machine

open Sys2Proof

/-! ## What a run leaves of a channel's unit -/

theorem endsOnly_live (s : State) (l : Words) : EndsOnly s { s with live := l } := endsOnly_of rfl rfl

theorem endsOnly_setLive (s : State) (i pg off v : Nat) : EndsOnly s (setLive s i pg off v) := endsOnly_of rfl rfl

theorem endsOnly_bump (s : State) (i pg off n : Nat) : EndsOnly s (bump s i pg off n) := by
  rw [bump_frame]
  exact endsOnly_live s _

theorem endsOnly_bumpMon (s : State) (slot pg off n : Nat) : EndsOnly s (bumpMon s slot pg off n) := by
  unfold bumpMon
  dsimp only
  split_ifs
  · exact .refl s
  · exact (endsOnly_setLive s _ _ _ _).trans (endsOnly_setLive _ _ _ _ _)
  · exact endsOnly_setLive s _ _ _ _

theorem endsOnly_ite {p : Prop} [Decidable p] {s t u : State} (ht : EndsOnly s t) (hu : EndsOnly s u) : EndsOnly s (if p then t else u) := by
  split_ifs
  · exact ht
  · exact hu

theorem endsOnly_applyMon (s : State) (ch slot : Nat) (m : Mon) : EndsOnly s (applyMon s ch slot m) := by
  have hmax : ∀ t : State, EndsOnly t (if live t slot (pgMON ch) 0xF14 < m.smax then setLive t slot (pgMON ch) 0xF14 m.smax else t) :=
    fun t => endsOnly_ite (endsOnly_setLive t _ _ _ _) (.refl t)
  have hmin : ∀ t : State, EndsOnly t (if m.smin < live t slot (pgMON ch) 0xF18 then setLive t slot (pgMON ch) 0xF18 m.smin else t) :=
    fun t => endsOnly_ite (endsOnly_setLive t _ _ _ _) (.refl t)
  have hcount : ∀ {t : State} (off n : Nat), EndsOnly s t → EndsOnly s (bumpMon t slot (pgMON ch) off n) :=
    fun off n h => h.trans (endsOnly_bumpMon _ _ _ off n)
  exact hcount _ _ (hcount _ _ (hcount _ _ (hcount _ _ (hcount _ _ (hcount _ _
    (((hcount 0xF10 m.blk (.refl s)).trans (hmax _)).trans (hmin _)))))))

theorem endsOnly_updArray (s : State) (ch a : Nat) (f : ArrayMem → ArrayMem) : EndsOnly s (updArray s ch a f) :=
  endsOnly_updChan s ch (fun _ => rfl) fun _ h => h

theorem endsOnly_applyPipe (s : State) (ch : Nat) (c : Pipe) : EndsOnly s (applyPipe s ch c) :=
  ((((endsOnly_bump s _ _ _ _).trans (endsOnly_bump _ _ _ _ _)).trans (endsOnly_bump _ _ _ _ _)).trans (endsOnly_bump _ _ _ _ _)).trans
    (endsOnly_bump _ _ _ _ _)

theorem endsOnly_applyArr (s : State) (ch : Nat) (w : ArrWork) : EndsOnly s (applyArr s ch w) := by
  unfold applyArr
  exact (((endsOnly_bump s _ _ _ _).trans (endsOnly_bump _ _ _ _ _)).trans (endsOnly_bump _ _ _ _ _)).trans (endsOnly_updArray _ _ _ _)

theorem endsOnly_applyRun (s : State) (ch : Nat) (r : Run) : EndsOnly s (applyRun s ch r) := by
  have hmons : EndsOnly s (r.mons.foldl (fun s m => applyMon s ch (m.1 % jobSlots) m.2) s) :=
    foldl_keeps (P := EndsOnly s) (.refl s) fun t m ht => ht.trans (endsOnly_applyMon t ch _ m.2)
  have hwork : EndsOnly s (r.work.foldl (fun s w => applyArr s ch w)
      (applyPipe (r.mons.foldl (fun s m => applyMon s ch (m.1 % jobSlots) m.2) s) ch r.pipe)) :=
    foldl_keeps (P := EndsOnly s) (hmons.trans (endsOnly_applyPipe _ ch r.pipe)) fun t w ht => ht.trans (endsOnly_applyArr t ch w)
  have hloads : EndsOnly s (r.loads.foldl (fun s l => applyLoad s ch l) (r.work.foldl (fun s w => applyArr s ch w)
      (applyPipe (r.mons.foldl (fun s m => applyMon s ch (m.1 % jobSlots) m.2) s) ch r.pipe))) :=
    foldl_keeps (P := EndsOnly s) hwork fun t l ht => ht.trans (endsOnly_updArray t ch _ _)
  unfold applyRun
  exact hloads.trans (endsOnly_updChan _ ch (f := fun x => { x with
    half0 := if r.half0.isEmpty then x.half0 else r.half0
    half1 := if r.half1.isEmpty then x.half1 else r.half1
    stat := x.stat.load r.stat }) (fun _ => rfl) fun _ h => h)

theorem endsOnly_dropHost (s : State) (o : Owner) : EndsOnly s (dropHost s o) := by
  rw [dropHost_frame]
  exact endsOnly_of rfl rfl

theorem endsOnly_updCmd (s : State) (p : Nat) (st : Strm) (k : Word) (f : Cmd → Cmd) : EndsOnly s (updCmd s p st k f) := endsOnly_of rfl rfl

theorem unit_letGo (s : State) (ch : Nat) : (chan (letGo s ch) ch).unit = none := by
  rw [letGo, chan_updChan_same]

/-- A channel whose unit was let go, and whose run was counted, has none. -/
theorem unit_of_run {s t : State} {ch : Nat} {r : Run} (h : EndsOnly (applyRun (letGo s ch) ch r) t) : (chan t ch).unit = none :=
  ((endsOnly_applyRun _ ch r).trans h).free ch (unit_letGo s ch)

/-! ## The end of a unit -/

/-- What follows from the end of a unit of partition `q`. -/
def unitAfter (t : State) (ch q : Nat) : State := launchDue (pruneSwarms (settle (boundary t ch) q) q) q

theorem unitEnd_none {s : State} {ch : Nat} (h : (chan s ch).unit = none) (upset : Option UnitUpset) : unitEnd s ch upset = s := by
  rw [unitEnd, h]

/-- A unit that ends without an upset. -/
theorem unitEnd_done {s : State} {ch : Nat} {u : UnitHold} (hu : (chan s ch).unit = some u) :
    unitEnd s ch none = if (chan (unitDone s ch u) ch).unit.isSome then unitDone s ch u else unitAfter (unitDone s ch u) ch u.part := by
  rw [unitEnd, hu]
  rfl

theorem unitEnd_free {s t : State} {ch : Nat} {u : UnitHold} (hu : (chan s ch).unit = some u) (ht : unitDone s ch u = t)
    (hfree : (chan t ch).unit = none) : unitEnd s ch none = unitAfter t ch u.part := by
  rw [unitEnd_done hu, ht, hfree]
  rfl

theorem unitEnd_held {s t : State} {ch : Nat} {u : UnitHold} (hu : (chan s ch).unit = some u) (ht : unitDone s ch u = t)
    (hheld : (chan t ch).unit.isSome = true) : unitEnd s ch none = t := by
  rw [unitEnd_done hu, ht, if_pos hheld]

/-- The unit of a live command. -/
theorem unitDone_command {s : State} {ch : Nat} {u : UnitHold} {c : Cmd} (hswarm : u.swarm = none)
    (hc : getCmd s u.part u.strm u.stamp = some c) (hlive : c.ended = false) : unitDone s ch u = endUnit s ch u c := by
  have hno : ¬ c.ended = true := Bool.not_eq_true _ ▸ hlive
  rw [unitDone, hswarm]
  dsimp only
  rw [hc]
  exact if_neg hno

/-- The row group of a swarm. -/
theorem unitDone_swarm {s : State} {ch : Nat} {u : UnitHold} {id : Nat} {w : Swarm} (hswarm : u.swarm = some id)
    (hw : ((part s u.part).swarms.find? fun w => w.id == id) = some w) : unitDone s ch u = endGroup s ch u w := by
  rw [unitDone, hswarm]
  dsimp only
  rw [hw]

/-- What the run of a command's unit leaves, before the command ends or takes its counts. -/
def unitRan (r : Run) (ch : Nat) (o : Owner) : State := dropHost (applyRun (letGo r.s ch) ch r) o

theorem endUnit_ok {s : State} {ch : Nat} {u : UnitHold} {c : Cmd} {r : Run}
    (hr : runUnit s (cmdCtx s u.part u.strm c ch 7) (unitBody u.part (chan s ch).role c u.value) = .ok r) :
    endUnit s ch u c = updCmd (unitRan r ch (cmdCtx s u.part u.strm c ch 7).owner) u.part u.strm c.stamp fun c =>
      { (c.take r 0).sortScores r.sums.length (u.value / max 1 (c.get .hkv)) with unitsOut := c.unitsOut - 1 } := by
  rw [endUnit]
  dsimp only
  rw [hr]
  rfl

theorem endUnit_bad {s : State} {ch : Nat} {u : UnitHold} {c : Cmd} {e d : Nat} {r : Run}
    (hr : runUnit s (cmdCtx s u.part u.strm c ch 7) (unitBody u.part (chan s ch).role c u.value) = .bad e d r) :
    endUnit s ch u c = endCmd (updCmd (unitRan r ch (cmdCtx s u.part u.strm c ch 7).owner) u.part u.strm c.stamp fun c =>
      { (c.take { r with sums := [] } 0) with unitsOut := c.unitsOut - 1 }) u.part u.strm c.stamp e d := by
  rw [endUnit]
  dsimp only
  rw [hr]
  rfl

theorem endUnit_host {s t : State} {ch : Nat} {u : UnitHold} {c : Cmd}
    (hr : runUnit s (cmdCtx s u.part u.strm c ch 7) (unitBody u.part (chan s ch).role c u.value) = .host t) : endUnit s ch u c = t := by
  rw [endUnit]
  dsimp only
  rw [hr]

/-- What the run of a row group leaves: each command of it has the rows fewer to wait for. -/
def groupRan (s : State) (p ch : Nat) (w : Swarm) (cs : List (Ctx × Cmd × List Nat)) (r : Run) : State :=
  cs.zipIdx.foldl (fun t y => updCmd (dropHost t y.1.1.owner) p w.strm y.1.2.1.stamp fun c =>
    { (c.take { r with sums := [], escs := [], pipe := Pipe.zero } y.2) with shared := c.shared - y.1.2.2.length })
    (applyRun (letGo s ch) ch r)

theorem unit_groupRan (s : State) (p ch : Nat) (w : Swarm) (cs : List (Ctx × Cmd × List Nat)) (r : Run) :
    (chan (groupRan s p ch w cs r) ch).unit = none :=
  unit_of_run (foldl_keeps (P := EndsOnly (applyRun (letGo s ch) ch r)) (.refl _) fun t _ ht =>
    (ht.trans (endsOnly_dropHost t _)).trans (endsOnly_updCmd _ _ _ _ _))

theorem endGroup_ok {s : State} {ch : Nat} {u : UnitHold} {w : Swarm} {x : Ctx × Cmd × List Nat} {xs : List (Ctx × Cmd × List Nat)} {r : Run}
    (hcs : groupCmds s u.part ch w u.value = x :: xs)
    (hr : runUnit s x.1 (swarmUnit u.part (chan s ch).role (x :: xs)) = .ok r) :
    endGroup s ch u w = groupRan r.s u.part ch w (x :: xs) r := by
  rw [endGroup]
  dsimp only
  rw [hcs]
  dsimp only
  rw [hr]
  rfl

theorem endGroup_bad {s : State} {ch : Nat} {u : UnitHold} {w : Swarm} {x : Ctx × Cmd × List Nat} {xs : List (Ctx × Cmd × List Nat)}
    {e d : Nat} {r : Run} (hcs : groupCmds s u.part ch w u.value = x :: xs)
    (hr : runUnit s x.1 (swarmUnit u.part (chan s ch).role (x :: xs)) = .bad e d r) :
    endGroup s ch u w = (inOrder s u.part w.strm ((x :: xs).map fun y => y.2.1.stamp)).foldl
      (fun t k => endCmd t u.part w.strm k e d) (groupRan r.s u.part ch w (x :: xs) r) := by
  rw [endGroup]
  dsimp only
  rw [hcs]
  dsimp only
  rw [hr]
  rfl

/-! ## An upset -/

theorem unitEnd_corrected {s : State} {ch : Nat} {u : UnitHold} (hu : (chan s ch).unit = some u) (n : Nat) :
    unitEnd s ch (some (.corrected n)) = unitEnd (bump s 0 (pgARY ch) 0xF38 n) ch none := by
  have hbump : (chan (bump s 0 (pgARY ch) 0xF38 n) ch).unit = some u := by rw [chan_bump, hu]
  rw [unitEnd, hu, unitEnd, hbump]

/-- What an upset leaves once its record is written: what it counts. -/
def upsetCounted (s : State) (ch : Nat) (u : UnitHold) (stamps : List Word) (e : UnitUpset) : State :=
  match e with
  | .residue _ _ _ => bump s 0 (pgARY ch) 0xF34 1
  | .dataMem m _ =>
    if m = 3 then
      let g := ((stamps.head?.bind fun t => getCmd s u.part u.strm t).map (·.gen)).getD (curGen s)
      updChan s ch fun x => { x with badBank := some (if x.gen0 = g then 0 else 1) }
    else s
  | .corrected _ => s

/-- An upset before the commands of its unit end. -/
def upsetSeen (s : State) (ch : Nat) (u : UnitHold) (e : UnitUpset) : State :=
  upsetCounted (addFault s (upsetFault (Who.cmd u.part u.strm ((unitStamps s u).headD u.stamp) 7) ch e)) ch u (unitStamps s u) e

theorem upsetUnit_eq (s : State) (ch : Nat) (u : UnitHold) (e : UnitUpset) :
    upsetUnit s ch u e = unitFaulted s (letGo (upsetSeen s ch u e) ch) u stECC (lastFault (upsetSeen s ch u e)) := rfl

theorem parts_updChan (s : State) (n : Nat) (f : Channel → Channel) : (updChan s n f).parts = s.parts := rfl

theorem upsetCounted_kept (s : State) (ch : Nat) (u : UnitHold) (stamps : List Word) (e : UnitUpset) :
    EndsOnly s (upsetCounted s ch u stamps e) ∧ (upsetCounted s ch u stamps e).parts = s.parts := by
  cases e with
  | residue a col g => exact ⟨endsOnly_bump s _ _ _ _, (light_bump s _ _ _ _).parts⟩
  | dataMem m word =>
    dsimp only [upsetCounted]
    split_ifs
    · exact ⟨endsOnly_updChan s ch (fun _ => rfl) fun _ h => h, rfl⟩
    · exact ⟨.refl s, rfl⟩
  | corrected n => exact ⟨.refl s, rfl⟩

/-- The block after an upset whose commands faulted. -/
theorem upsetUnit_spec (s : State) (ch : Nat) (u : UnitHold) (e : UnitUpset) :
    (chan (upsetUnit s ch u e) ch).unit = none ∧
      (upsetUnit s ch u e).faults = faultsWith s (upsetFault (Who.cmd u.part u.strm ((unitStamps s u).headD u.stamp) 7) ch e) := by
  obtain ⟨hcount, -⟩ := upsetCounted_kept (addFault s (upsetFault (Who.cmd u.part u.strm ((unitStamps s u).headD u.stamp) 7) ch e)) ch u
    (unitStamps s u) e
  have hlet : EndsOnly (upsetSeen s ch u e) (letGo (upsetSeen s ch u e) ch) := endsOnly_updChan _ ch (fun _ => rfl) fun _ _ => rfl
  have hends : EndsOnly (letGo (upsetSeen s ch u e) ch) (upsetUnit s ch u e) := by
    rw [upsetUnit_eq]
    exact endsOnly_foldl_endCmd _ _ _ _ _ _
  refine ⟨hends.free ch (unit_letGo _ ch), ?_⟩
  rw [hends.faults, hlet.faults, upsetSeen, hcount.faults, faults_addFault]

theorem upsetUnit_cmds {s : State} {ch : Nat} {u : UnitHold} (e : UnitUpset)
    (hop : ∀ (k : Word) (c : Cmd), k ∈ unitStamps s u → getCmd s u.part u.strm k = some c → c.op ≠ opTASKEND)
    {k : Word} {c : Cmd} (hk : k ∈ unitStamps s u) (hc : getCmd s u.part u.strm k = some c) (hlive : c.ended = false) :
    ∃ d : Cmd, getCmd (upsetUnit s ch u e) u.part u.strm k = some d ∧ d.ended = true ∧ (d.status = stECC ∨ d.status = stABORTED) := by
  have hparts : (letGo (upsetSeen s ch u e) ch).parts = s.parts := by
    rw [letGo, parts_updChan, upsetSeen, (upsetCounted_kept _ ch u _ e).2]
    exact (light_addFault s _).parts
  rw [upsetUnit_eq]
  exact unitFaulted_spec hparts u (by decide) _ hop hk hc hlive

theorem unitEnd_upset {s : State} {ch : Nat} {u : UnitHold} {e : UnitUpset} (hu : (chan s ch).unit = some u) (he : ∀ n, e ≠ .corrected n) :
    unitEnd s ch (some e) = unitAfter (upsetUnit s ch u e) ch u.part := by
  have hfree := (upsetUnit_spec s ch u e).1
  rw [unitEnd, hu]
  cases e with
  | residue a col g =>
    dsimp only
    rw [hfree]
    rfl
  | dataMem m word =>
    dsimp only
    rw [hfree]
    rfl
  | corrected n => exact absurd rfl (he n)

/-! ## A unit that is taken -/

theorem takeUnit_none {s : State} {ch : Nat} (h : chanOwner s ch = none) : takeUnit s ch = s := by
  rw [takeUnit, h]

theorem wakeForUnit_none {s : State} {ch : Nat} (h : chanOwner s ch = none) : wakeForUnit s ch = s := by
  rw [wakeForUnit, h]

theorem wakeForUnit_awake {s : State} {ch : Nat} (h : canTake s ch = true) : wakeForUnit s ch = s := by
  have hrun : (chan s ch).power = .run := by
    simp only [canTake, Bool.and_eq_true, beq_iff_eq] at h
    exact h.1.1.2
  have hwake := wake_awake (s := s) (ch := ch) (.inl hrun)
  unfold wakeForUnit
  cases chanOwner s ch with
  | none => rfl
  | some p =>
    dsimp only
    rw [hwake, ite_self]

theorem takeUnit_chosen {s : State} {ch w : Nat} {o : Offer} (hown : chanOwner s ch = some w) (htake : canTake s ch = true)
    (ho : chosen s w ch = some o) :
    takeUnit s ch = if (chan s ch).cur = some (pf w, o.strm, o.stamp) then grant s w ch o
      else if (offers (atEdge s ch) w ch).contains o then grant (atEdge s ch) w ch o else atEdge s ch := by
  have hgo : ¬ (!(canTake s ch)) = true := by simp [htake]
  rw [takeUnit, hown]
  dsimp only
  rw [if_neg hgo, ho]

/-- Settles O55: a unit's end is the run of its body; where it faults, or its channel reports an upset, its commands end
one by one, and what an end does to its stream is `endCmd_stream`. -/
theorem unitsAreTakenAndEnd : Obligations.UnitsAreTakenAndEnd := by
  intro ch p upset s hruns after
  have htake : exec (.channelTakeUnit ch) s = .next (keepPins s (remSettle (takeUnit (wakeForUnit s ch) ch))) :=
    act_runs hruns fun s => remSettle (takeUnit (wakeForUnit s ch) ch)
  have hend (e : Option UnitUpset) : exec (.unitEnd ch e) s = .next (keepPins s (unitEnd s ch e)) := act_runs hruns fun s => unitEnd s ch e
  refine ⟨act_runs hruns fun s => launchDue s p, fun hown => ?_, fun o w hown hcan ho hcur => ?_, fun o w hown hcan ho hcur hoff => ?_,
    fun hu => ?_, fun u c r hu hswarm hc hlive hr => ?_, fun u c e d r hu hswarm hc hlive hr => ?_,
    fun u c t hu hswarm hc hlive hr hheld => ?_, fun u id w x xs r hu hswarm hw hcs => ⟨fun hr => ?_, fun e d hr => ?_⟩,
    fun u n hu => ?_, fun u e hu he hop => ?_, fun st k status detail c hc hlive hgo => ?_⟩
  · rw [htake, wakeForUnit_none hown, takeUnit_none hown]
  · rw [htake, wakeForUnit_awake hcan, takeUnit_chosen hown hcan ho, if_pos hcur]
  · rw [htake, wakeForUnit_awake hcan, takeUnit_chosen hown hcan ho, if_neg hcur, if_pos hoff]
  · rw [hend, unitEnd_none hu]
    rfl
  · have hdone := (unitDone_command hswarm hc hlive).trans (endUnit_ok hr)
    have hfree : (chan (updCmd (unitRan r ch (cmdCtx s u.part u.strm c ch 7).owner) u.part u.strm c.stamp fun c =>
        { (c.take r 0).sortScores r.sums.length (u.value / max 1 (c.get .hkv)) with unitsOut := c.unitsOut - 1 }) ch).unit = none :=
      unit_of_run ((endsOnly_dropHost _ _).trans (endsOnly_updCmd _ _ _ _ _))
    exact ⟨hfree, by rw [hend, unitEnd_free hu hdone hfree]; rfl⟩
  · have hdone := (unitDone_command hswarm hc hlive).trans (endUnit_bad hr)
    have hfree := unit_of_run (((endsOnly_dropHost (applyRun (letGo r.s ch) ch r) (cmdCtx s u.part u.strm c ch 7).owner).trans
      (endsOnly_updCmd _ u.part u.strm c.stamp fun c => { (c.take { r with sums := [] } 0) with unitsOut := c.unitsOut - 1 })).trans
      (endsOnly_endCmd _ u.part u.strm c.stamp e d))
    rw [hend, unitEnd_free hu hdone hfree]
    rfl
  · rw [hend, unitEnd_held hu ((unitDone_command hswarm hc hlive).trans (endUnit_host hr)) hheld]
  · rw [hend, unitEnd_free hu ((unitDone_swarm hswarm hw).trans (endGroup_ok hcs hr)) (unit_groupRan _ _ _ _ _ _)]
    rfl
  · have hfree := (endsOnly_foldl_endCmd (groupRan r.s u.part ch w (x :: xs) r) u.part w.strm
      (inOrder s u.part w.strm ((x :: xs).map fun y => y.2.1.stamp)) e d).free ch (unit_groupRan _ _ _ _ _ _)
    rw [hend, unitEnd_free hu ((unitDone_swarm hswarm hw).trans (endGroup_bad hcs hr)) hfree]
    rfl
  · rw [hend, unitEnd_corrected hu]
  · obtain ⟨hfree, hfaults⟩ := upsetUnit_spec s ch u e
    exact ⟨upsetUnit s ch u e, hfree, hfaults, fun k c hk hc hlive => upsetUnit_cmds e hop hk hc hlive,
      by rw [hend, unitEnd_upset hu he]; rfl⟩
  · exact endCmd_stream detail hc hlive hgo

end Sys2Proof.Machine
end

section
/-! Edits of the pool: their start, what they make, and how they end (R215 to R255). -/

namespace Sys2Proof.Machine

open Sys2Proof

theorem getCmd_updCmd_same {s : State} {p : Nat} {st : Strm} {k : Word} {d : Cmd} (h : getCmd s p st k = some d) {f : Cmd → Cmd}
    (hf : ∀ o : Cmd, o.stamp = k → (f o).stamp = k) : getCmd (updCmd s p st k f) p st k = some (f d) := by
  have hcmds : (strm (updCmd s p st k f) p st).cmds = (strm s p st).cmds.map fun c => if c.stamp = k then f c else c := by
    rw [updCmd, strm_updStrm_same]
  have hstamp : ∀ o : Cmd, (if o.stamp = k then f o else o).stamp = o.stamp := fun o => by
    split_ifs with ho
    · rw [hf o ho, ho]
    · rfl
  rw [getCmd_map hstamp hcmds k, h, Option.map_some, if_pos (stamp_of_getCmd h)]

theorem issueOp_head {s : State} {p : Nat} {st : Strm} {k : Cmd} (h : headCmd s p st = some k)
    (f : State → Nat → Strm → Cmd → State) : issueOp s p st k.op f = f s p st k := by
  rw [issueOp, h]
  exact if_pos rfl

/-! ## The start of an edit -/

theorem editStep_starts {s : State} {p : Nat} {st : Strm} {k : Cmd} (hparam : k.paramErr = 0) (helig : eligible s p st = true)
    (hfree : editFree s p st k = true) : editStep s p st k = edited (startEdit s p st k (waitOver s p st k.stamp)) p := by
  have h1 : ¬ (k.paramErr != 0) = true := by simp [hparam]
  have h2 : ¬ (!(eligible s p st) || !(editFree s p st k)) = true := by simp [helig, hfree]
  rw [editStep, if_neg h1, if_neg h2]
  rfl

/-- What an edit costs. -/
def editCost (p : Nat) (t : State) (d : EditDone) : Nat := estimate t (editWork (shapeOf t [] p) d.tx (d.put * (shapeOf t [] p).hkv))

theorem editFits_eq (s : State) (p : Nat) (st : Strm) (c : Cmd) (d : EditDone) (r : Run) :
    editFits s p st c d r = if budgetFits s (editCost p r.s d) then editMade p st c d r else s := by
  unfold editFits editCost
  dsimp only
  split_ifs with h1 h2 h2
  · simp [h2] at h1
  · rfl
  · rfl
  · simp [h2] at h1

section
variable {s : State} {p : Nat} {st : Strm} {k k2 : Cmd} {last : Bool} {r : Run}

theorem startEdit_done {d : EditDone} (hr : ranM s (cmdCtx s p st k 0xFF 0) (editRun p k last) = .ok (k2, .done d) r) :
    startEdit s p st k last = editFits s p st k2 d r := by
  rw [startEdit, hr]

theorem startEdit_ready {images : List (Nat × Nat)} (hr : ranM s (cmdCtx s p st k 0xFF 0) (editRun p k last) = .ok (k2, .ready images) r)
    {d : EditDone} {r2 : Run} (hbody : ranM r.s (cmdCtx r.s p st k2 0xFF 0) (editBody k2 last images) = .ok d r2) :
    startEdit s p st k last = editFits r.s p st k2 d r2 := by
  rw [startEdit, hr]
  dsimp only
  rw [hbody]

theorem startEdit_refused {f : Ref} (hr : ranM s (cmdCtx s p st k 0xFF 0) (editRun p k last) = .ok (k2, .refused f) r) :
    startEdit s p st k last = endPinned r.s p st k2.stamp fun t => refuseCmd t p st k2.stamp f := by
  rw [startEdit, hr]

theorem startEdit_wait {short : Nat} (hr : ranM s (cmdCtx s p st k 0xFF 0) (editRun p k last) = .ok (k2, .wait short) r) :
    startEdit s p st k last = setWait (unpin r.s p st k.stamp) p st k.stamp short := by
  rw [startEdit, hr]

theorem startEdit_noFrame {short : Nat} (hr : ranM s (cmdCtx s p st k 0xFF 0) (editRun p k last) = .ok (k2, .noFrame short) r) :
    startEdit s p st k last = endPinned r.s p st k2.stamp fun t => noFrameEnd t p st k2.stamp 1 short := by
  rw [startEdit, hr]

theorem startEdit_parkFull (hr : ranM s (cmdCtx s p st k 0xFF 0) (editRun p k last) = .ok (k2, .parkFull) r) :
    startEdit s p st k last = endPinned r.s p st k2.stamp fun t => parkFullEnd t p st k2.stamp := by
  rw [startEdit, hr]

end

/-! ## What an edit makes -/

theorem parts_charge (s : State) (e : Nat) : (charge s e).parts = s.parts := by
  unfold charge
  split_ifs
  · rfl
  · rfl

theorem parts_setLive (s : State) (i pg off v : Nat) : (setLive s i pg off v).parts = s.parts := rfl

theorem parts_bumpMon (s : State) (slot pg off n : Nat) : (bumpMon s slot pg off n).parts = s.parts := by
  unfold bumpMon
  dsimp only
  split_ifs
  · rfl
  · rfl
  · rfl

theorem parts_applyMon (s : State) (ch slot : Nat) (m : Mon) : (applyMon s ch slot m).parts = s.parts := by
  unfold applyMon
  dsimp only
  simp only [parts_bumpMon, apply_ite State.parts, parts_setLive, ite_self]

theorem parts_countMons (s : State) (p : Nat) (r : Run) : (countMons s p r).parts = s.parts := by
  unfold countMons
  split
  · rfl
  · exact foldl_keeps (P := fun t => t.parts = s.parts) rfl fun t m ht => (parts_applyMon t _ m.1 m.2).trans ht

/-- The work of an edit is charged and counted. -/
def editCharged (p : Nat) (d : EditDone) (r : Run) : State := countMons (charge r.s (editCost p r.s d)) p r

/-- A command that holds what its edit did. -/
def editHeld (p : Nat) (c : Cmd) (d : EditDone) (r : Run) (k : Cmd) : Cmd :=
  { c with
    pin := k.pin
    stage := .started
    begun := true
    gen := if k.factor = 0 then curGen (editCharged p d r) else k.gen
    energy := editCost p r.s d
    factor := voltFactor (editCharged p d r).gov.point
    flags := r.mons.foldl (fun a m => a ||| m.2.flags) 0
    countA := d.frames
    countB := d.pos % 2 ^ 32
    info := if d.tx.dirty then (pool (editCharged p d r) p).instar else 0 }

theorem editMade_eq (p : Nat) (st : Strm) (c : Cmd) (d : EditDone) (r : Run) :
    editMade p st c d r =
      let s := updCmd (editCharged p d r) p st c.stamp (editHeld p c d r)
      if c.op = opPARK && !(c.named.isEmpty) then s else endCmd s p st c.stamp stOK 0 := rfl

theorem getCmd_editHeld {p : Nat} {st : Strm} {c k0 : Cmd} {r : Run} (d : EditDone) (h : getCmd r.s p st c.stamp = some k0) :
    getCmd (updCmd (editCharged p d r) p st c.stamp (editHeld p c d r)) p st c.stamp = some (editHeld p c d r k0) := by
  have hparts : (editCharged p d r).parts = r.s.parts := (parts_countMons _ p r).trans (parts_charge _ _)
  exact getCmd_updCmd_same ((getCmd_of_parts hparts _ _ _).trans h) fun _ _ => rfl

/-- What an edit that is made leaves of its command. -/
theorem editMade_cmd {p : Nat} {st : Strm} {c k0 : Cmd} {r : Run} (d : EditDone) (hop : c.op ≠ opTASKEND)
    (h : getCmd r.s p st c.stamp = some k0) :
    getCmd (editMade p st c d r) p st c.stamp = some
      (if c.op = opPARK ∧ c.named ≠ [] then editHeld p c d r k0 else endedAs stOK 0 (editHeld p c d r k0)) := by
  have hheld := getCmd_editHeld d h
  rw [editMade_eq]
  dsimp only
  by_cases hpark : c.op = opPARK ∧ c.named ≠ []
  · have hgo : (decide (c.op = opPARK) && !(c.named.isEmpty)) = true := by simpa using hpark
    rw [if_pos hgo, if_pos hpark, hheld]
  · have hend : ¬ (decide (c.op = opPARK) && !(c.named.isEmpty)) = true := by simpa using hpark
    have hno : ¬ ((editHeld p c d r k0).inTask && !(goesOn stOK)) = true := by
      rw [show goesOn stOK = true from rfl, Bool.not_true, Bool.and_false]
      exact Bool.false_ne_true
    rw [if_neg hend, if_neg hpark, endCmd_spec 0 hheld rfl (fun ht => absurd ht hop), if_neg hno, getCmd_markEnd c.stamp stOK 0 hheld, if_pos rfl]

/-! ## The rows of edits -/

theorem exec_editRow {i : Instr} {p : Part} {st : Strm} {op : Nat} (h : editRow i = some (p, st, op)) {s : State} (hruns : Runs s) :
    exec i s = .next (keepPins s (editOp s p st op)) := by
  cases i
  case seqOpen | seqAppend | seqFork | seqFree | seqResume | poolCompact =>
    injection h with h
    injection h with hp h
    injection h with hst hop
    subst hp hst hop
    exact act_runs hruns fun s => editOp s _ _ _
  all_goals cases h

theorem seqPark_held {s : State} {p : Nat} {st : Strm} {k : Cmd} (h : parkHeld s p st = some k) :
    seqPark s p st = settled (finishPark s p st k) p := by
  unfold seqPark
  dsimp only
  rw [h]
  rfl

/-- A park that was held goes on once its images are written. -/
def parkClosed (s : State) (p : Nat) (st : Strm) : State :=
  match parkHeld s p st with
  | some c => settled (finishPark s p st c) p
  | none => s

theorem seqPark_starts {s : State} {p : Nat} {st : Strm} {k : Cmd} (h : parkHeld s p st = none) (hhead : headCmd s p st = some k)
    (hop : k.op = opPARK) : seqPark s p st = parkClosed (editStep s p st k) p st := by
  have hedit : editOp s p st opPARK = editStep s p st k := by rw [← hop]; exact issueOp_head hhead editStep
  unfold seqPark
  dsimp only
  rw [h, ← hedit]
  rfl

theorem waitExpired_early {s : State} {p : Nat} {w : EditWait} (hw : (pool s p).wait = some w) (h : w.ticks < eff s pgPOOL 0x104) :
    waitExpired s p = s := by
  rw [waitExpired, hw]
  exact if_pos h

theorem waitExpired_over {s : State} {p : Nat} {w : EditWait} {k : Cmd} (hw : (pool s p).wait = some w) (h : eff s pgPOOL 0x104 ≤ w.ticks)
    (hk : getCmd s p w.strm w.stamp = some k) (hop : k.op ≠ opPARK) (helig : eligible s p w.strm = true) :
    waitExpired s p = edited (startEdit s p w.strm k true) p := by
  have hno : ¬ (decide (k.op = opPARK) && decide (k.stage = .started)) = true := by simp [hop]
  have hyes : (eligible s p w.strm || (getCmd (startEdit s p w.strm k true) p w.strm w.stamp).any fun k => k.status == stNOFRAME) = true := by
    rw [helig, Bool.true_or]
  rw [waitExpired, hw]
  dsimp only
  rw [if_neg (not_lt.mpr h), hk]
  dsimp only
  rw [if_neg hno, if_pos hyes]
  rfl

/-- Settles O56: an edit is the run of its body where the budget has room for its cost, and what it makes of its command
is `editMade_cmd`. -/
theorem editsAreMadeWhole : Obligations.EditsAreMadeWhole := by
  intro p st s k hruns
  have hpark : exec (.seqPark p st) s = .next (keepPins s (seqPark s p st)) := act_runs hruns fun s => seqPark s p st
  have hmolt : exec (.moltLocal p st) s = .next (keepPins s (moltLocal s p st)) := act_runs hruns fun s => moltLocal s p st
  have hexpiry : exec (.reclaimWinExpiry p) s = .next (keepPins s (waitExpired s p)) := act_runs hruns fun s => waitExpired s p
  refine ⟨fun i op hi hhead hop => ?_, fun hparam helig hfree => ?_, fun d r k0 hop hk => ?_, fun hheld => ?_, fun hheld hhead hop => ?_,
    fun hhead hop hmode => ?_, fun hwait => ?_, fun w hw => ⟨fun hearly => ?_, fun hover hk hop helig => ?_⟩⟩
  · rw [exec_editRow hi hruns, editOp, ← hop, issueOp_head hhead]
  · intro last cost k2 w r hr
    rw [editStep_starts hparam helig hfree]
    refine ⟨fun d hd => ?_, fun images d r2 hw hbody => ?_, fun f hf => ?_, fun short hw => ?_, fun short hw => ?_, fun hw => ?_⟩
    · rw [startEdit_done (hd ▸ hr), editFits_eq]
      rfl
    · rw [startEdit_ready (hw ▸ hr) hbody, editFits_eq]
      rfl
    · rw [startEdit_refused (hf ▸ hr)]
    · rw [startEdit_wait (hw ▸ hr)]
    · rw [startEdit_noFrame (hw ▸ hr)]
    · rw [startEdit_parkFull (hw ▸ hr)]
  · have hcmd := editMade_cmd d hop hk
    by_cases hnamed : k.op = opPARK ∧ k.named ≠ []
    · rw [if_pos hnamed] at hcmd
      refine ⟨_, hcmd, rfl, rfl, rfl, rfl, rfl, fun _ _ => rfl, fun h => absurd hnamed ?_⟩
      exact fun ⟨hop, hne⟩ => h.elim (fun h => h hop) hne
    · rw [if_neg hnamed] at hcmd
      exact ⟨_, hcmd, rfl, rfl, rfl, rfl, rfl, fun hop hne => absurd ⟨hop, hne⟩ hnamed, fun _ => ⟨rfl, rfl, rfl⟩⟩
  · rw [hpark, seqPark_held hheld]
  · rw [hpark, seqPark_starts hheld hhead hop]
    rfl
  · have hyes : (decide (k.op = opMOLT) && decide (2 ≤ k.get .mode)) = true := by simp [hop, hmode]
    rw [hmolt, moltLocal, hhead]
    dsimp only
    rw [if_pos hyes]
  · rw [hexpiry, waitExpired, hwait]
    rfl
  · rw [hexpiry, waitExpired_early hw hearly]
    rfl
  · rw [hexpiry, waitExpired_over hw hover hk hop helig]

end Sys2Proof.Machine
end

section
/-! Rings and completions: the poll of a command ring and the record of a command that ended (R225, R258 to R264, R296,
R297, R412). -/

namespace Sys2Proof.Machine

open Sys2Proof

/-! ## Polls -/

theorem ringPoll_loaded {s : State} {p : Nat} {st : Strm} (h : partLoad s p = true) : ringPoll s p st = launchDue (pollLoop 65 s p st) p := by
  rw [ringPoll, if_neg (by simp [h])]

theorem pollLoop_goes {k : Nat} {s t : State} {p : Nat} {st : Strm} (h : pollOnce s p st = (t, true)) :
    pollLoop (k + 1) s p st = pollLoop k t p st := by
  rw [pollLoop, h]
  rfl

theorem pollLoop_ends {k : Nat} {s t : State} {p : Nat} {st : Strm} (h : pollOnce s p st = (t, false)) : pollLoop (k + 1) s p st = t := by
  rw [pollLoop, h]
  rfl

theorem pollOnce_barred {s : State} {p : Nat} {st : Strm} (h : mayFetch s p st = false) :
    pollOnce s p st = (setPolling s p st false, false) := by
  rw [pollOnce, if_pos (by simp [h])]

theorem pollOnce_read {s : State} {p : Nat} {st : Strm} (h : mayFetch s p st = true) {bs : List Byte} {r : Run}
    (hr : slotRead s p st (nextSlotVa s p st) = .ok bs r) : pollOnce s p st = slotTake r.s p st bs := by
  rw [pollOnce, if_neg (by simp [h])]
  dsimp only
  rw [hr]

theorem pollOnce_fails {s w : State} {p : Nat} {st : Strm} (h : mayFetch s p st = true) {e d : Nat}
    (hr : slotRead s p st (nextSlotVa s p st) = .bad e d w) (he : e ≠ stECC) :
    pollOnce s p st = (ringFail (dropHost s (.ring (pf p) st)) p st (nextSlotVa s p st), false) := by
  rw [pollOnce, if_neg (by simp [h])]
  dsimp only
  rw [hr]
  dsimp only
  rw [if_neg he]

theorem slotTake_invalid {s : State} {p : Nat} {st : Strm} {bs : List Byte} (h : leAt bs 0 1 = 0 ∨ leAt bs 4 4 ≠ (strm s p st).next.toNat) :
    slotTake s p st bs = (setPolling (dropHost s (.ring (pf p) st)) p st false, false) := by
  have hno : (decide (leAt bs 0 1 = 0) || leAt bs 4 4 != (strm s p st).next.toNat) = true := by simpa using h
  rw [slotTake]
  dsimp only
  rw [if_pos hno]

/-- A valid record that has no parameter block to read. -/
theorem slotTake_bare {s : State} {p : Nat} {st : Strm} {bs : List Byte} (hop : leAt bs 0 1 ≠ 0) (hstamp : leAt bs 4 4 = (strm s p st).next.toNat)
    (hbare : isControl (leAt bs 0 1) = true ∨ leAt bs 8 7 = 0 ∨ leAt bs 26 2 = 0) :
    slotTake s p st bs = (takeRecord s p st bs [] 0 0, true) := by
  have hvalid : ¬ (decide (leAt bs 0 1 = 0) || leAt bs 4 4 != (strm s p st).next.toNat) = true := by simp [hop, hstamp]
  have hskip : (isControl (leAt bs 0 1) || decide (leAt bs 8 7 = 0) || decide (64 * leAt bs 26 2 = 0) ||
      skipsParam (strm s p st) (strm s p st).next (fetchTaskOf (strm s p st) (leAt bs 0 1) (strm s p st).next)) = true := by
    rcases hbare with h | h | h
    · simp [h]
    · simp [h]
    · simp [h]
  rw [slotTake]
  dsimp only
  rw [if_neg hvalid, if_pos hskip]

/-- Settles O59: a poll is one read of the slot of `NEXT`, then the rest of the loop. -/
theorem ringsArePolled : Obligations.RingsArePolled := by
  intro p st s hruns
  have hpoll : exec (.ringPoll p st) s = .next (keepPins s (ringPoll s p st)) := act_runs hruns fun s => ringPoll s p st
  refine ⟨fun hload => ?_, fun hload hmay => ?_, fun hload hmay bs r hr => ⟨fun hbad => ?_, fun hop hstamp hbare => ?_⟩,
    fun hload hmay e d w hr he => ?_⟩
  · rw [hpoll, ringPoll, if_pos (by simp [hload])]
    rfl
  · rw [hpoll, ringPoll_loaded hload, pollLoop_ends (pollOnce_barred hmay)]
  · rw [hpoll, ringPoll_loaded hload, pollLoop_ends ((pollOnce_read hmay hr).trans (slotTake_invalid hbad))]
  · rw [hpoll, ringPoll_loaded hload, pollLoop_goes ((pollOnce_read hmay hr).trans (slotTake_bare hop hstamp hbare))]
  · rw [hpoll, ringPoll_loaded hload, pollLoop_ends (pollOnce_fails hmay hr he)]

/-! ## The lowest stamp that is not complete -/

theorem word_add_succ (l : Word) (i : Nat) : l + 1 + BitVec.ofNat 32 i = l + BitVec.ofNat 32 (i + 1) := by
  bv_omega

theorem word_step_ne (l : Word) {i : Nat} (h : i + 1 < 2 ^ 32) : l + BitVec.ofNat 32 (i + 1) ≠ l := by
  bv_omega

/-- `LOW` rises to the first stamp that is not complete. -/
theorem advanceLow_fst {n k : Nat} (hn : n < 2 ^ 32) (hk : n ≤ k) {l : Word} {ds : List Word}
    (hin : ∀ i : Nat, i < n → l + BitVec.ofNat 32 i ∈ ds) (hout : l + BitVec.ofNat 32 n ∉ ds) :
    (advanceLow k l ds).1 = l + BitVec.ofNat 32 n := by
  induction n generalizing k l ds with
  | zero =>
    have hl : l + BitVec.ofNat 32 0 = l := by bv_omega
    rw [hl] at hout ⊢
    cases k with
    | zero => rfl
    | succ k => rw [advanceLow, if_neg (by simpa using hout)]
  | succ n ih =>
    obtain ⟨k, rfl⟩ : ∃ j, k = j + 1 := ⟨k - 1, by omega⟩
    have hl : l ∈ ds := by simpa using hin 0 (Nat.succ_pos n)
    rw [advanceLow, if_pos (by simpa using hl), ← word_add_succ]
    refine ih (by omega) (by omega) (fun i hi => ?_) fun hmem => ?_
    · rw [word_add_succ]
      refine List.mem_filter.mpr ⟨hin (i + 1) (by omega), ?_⟩
      simpa using word_step_ne l (by omega)
    · rw [word_add_succ] at hmem
      exact hout (List.mem_filter.mp hmem).1

/-- Stamps in a row that are listed are no more than the list. -/
theorem stamps_le_length {n : Nat} (hn : n < 2 ^ 32) {l : Word} {ds : List Word} (hin : ∀ i : Nat, i < n → l + BitVec.ofNat 32 i ∈ ds) :
    n ≤ ds.length := by
  have hnodup : ((List.range n).map fun i => l + BitVec.ofNat 32 i).Nodup := by
    refine List.Nodup.map_on (fun i hi j hj h => ?_) List.nodup_range
    rw [List.mem_range] at hi hj
    bv_omega
  have hsub : ((List.range n).map fun i => l + BitVec.ofNat 32 i) ⊆ ds := fun w hw => by
    obtain ⟨i, hi, rfl⟩ := List.mem_map.mp hw
    exact hin i (List.mem_range.mp hi)
  have hle := (hnodup.subperm hsub).length_le
  rwa [List.length_map, List.length_range] at hle

/-! ## The release of a pin -/

theorem parts_wroteRow (s : State) (row : Nat) : (wroteRow s row).parts = s.parts := (rowAside_wroteRow s row).parts

theorem parts_rowWrite (s : State) (w : Who) (pa : Nat) (bs : List Byte) : (rowWrite s w pa bs).1.parts = s.parts := by
  have hread := parts_readRow s w (rowOf pa)
  unfold rowWrite
  dsimp only
  by_cases h1 : bs.isEmpty = true
  · rw [if_pos h1]
  rw [if_neg h1]
  by_cases h2 : bs.length = 512
  · rw [if_pos h2]
    exact parts_wroteRow _ _
  rw [if_neg h2]
  by_cases h3 : (rowPat s (rowOf pa)).isEmpty = true
  · rw [if_pos h3]
    exact parts_wroteRow _ _
  rw [if_neg h3]
  rcases hx : readRow s w (rowOf pa) with ⟨t, x⟩
  rw [hx] at hread
  cases x with
  | none => exact hread
  | some pat => exact (parts_wroteRow _ _).trans hread

theorem parts_rowsWrite (s : State) (w : Who) (pa : Nat) (bs : List Byte) : (rowsWrite s w pa bs).1.parts = s.parts := by
  have htouch := (light_touchRows s w.ch pa bs.length true).parts
  unfold rowsWrite
  dsimp only
  split
  · exact htouch
  · exact foldl_keeps₁ (P := fun t => t.parts = s.parts) htouch fun acc piece hacc => (parts_rowWrite acc.1 w piece.1 piece.2).trans hacc

theorem parts_putFrame (s : State) (p f v : Nat) : (putFrame s p f v).parts = s.parts := parts_rowsWrite _ _ _ _

/-- The streams and the pins of a partition are the same. -/
structure PinsSame (p : Nat) (s t : State) : Prop where
  strms : ∀ su : Strm, strm t p su = strm s p su
  pins : (pool t p).pins = (pool s p).pins

theorem PinsSame.refl (p : Nat) (s : State) : PinsSame p s s := ⟨fun _ => rfl, rfl⟩

theorem PinsSame.trans {p : Nat} {s t u : State} (h : PinsSame p s t) (g : PinsSame p t u) : PinsSame p s u :=
  ⟨fun su => (g.strms su).trans (h.strms su), g.pins.trans h.pins⟩

theorem pinsSame_of_parts {s t : State} (h : t.parts = s.parts) (p : Nat) : PinsSame p s t :=
  ⟨strm_of_parts h p, by simp only [pool, part, h]⟩

theorem pinsSame_updPool (s : State) (p : Nat) {f : Pool → Pool} (hf : ∀ x, (f x).pins = x.pins) : PinsSame p s (updPool s p f) :=
  ⟨strm_updPool s p p f, by rw [pool_updPool_same, hf]⟩

theorem pinsSame_freeTail (s : State) (p f : Nat) : PinsSame p s (freeTail s p f) := by
  have hput : ∀ (t : State) (g v : Nat), PinsSame p t (putFrame t p g v) := fun t g v => pinsSame_of_parts (parts_putFrame t p g v) p
  unfold freeTail
  dsimp only
  refine PinsSame.trans ?_ (pinsSame_updPool _ p fun x => ?_)
  · split
    · exact (hput s _ _).trans (hput _ _ _)
    · exact hput s _ _
  · split_ifs
    · rfl
    · rfl

theorem pinsSame_reclaim (s : State) (p : Nat) : PinsSame p s (reclaim s p) := by
  unfold reclaim
  exact foldl_keeps (P := PinsSame p s) (pinsSame_updPool s p fun _ => rfl) fun t e ht =>
    (ht.trans (pinsSame_freeTail t p e.1)).trans (pinsSame_of_parts (light_bump _ _ _ _ _).parts p)

/-- The pins of a pool after one of instar `k` is released. -/
def pinsDropped (k : Nat) (l : List Pin) : List Pin :=
  (l.map fun q => if q.instar = k then { q with count := q.count - 1 } else q).filter fun q => q.count != 0

theorem dropPin_spec (s : State) (p k : Nat) :
    (∀ su : Strm, strm (dropPin s p k) p su = strm s p su) ∧ (pool (dropPin s p k) p).pins = pinsDropped k (pool s p).pins := by
  have h := pinsSame_reclaim (updPool s p fun x => { x with pins := pinsDropped k x.pins }) p
  refine ⟨fun su => (h.strms su).trans (strm_updPool _ _ _ _ _), h.pins.trans ?_⟩
  rw [pool_updPool_same]

/-! ## A command that completes -/

/-- The pin of a command is released. -/
def pinReleased (s : State) (p : Nat) (c : Cmd) : State :=
  match c.pin with
  | some n => dropPin s p n
  | none => s

/-- The answers of a command are dropped. -/
def answersDropped (s : State) (p : Nat) (st : Strm) (c : Cmd) : State :=
  { s with iqDone := s.iqDone.filter fun r => !(r.owner.isCmd p st c.stamp) }

/-- The work counter and the answers of a command are dropped. -/
def workDropped (s : State) (p : Nat) (st : Strm) (c : Cmd) : State :=
  answersDropped (updPart s p fun x => { x with counters := x.counters.filter fun w => !(w.strm == st && w.stamp == c.stamp) }) p st c

theorem pinsSame_answersDropped (s : State) (p : Nat) (st : Strm) (c : Cmd) : PinsSame p s (answersDropped s p st c) :=
  pinsSame_of_parts (s := s) (t := answersDropped s p st c) rfl p

theorem pinsSame_workDropped (s : State) (p : Nat) (st : Strm) (c : Cmd) : PinsSame p s (workDropped s p st c) := by
  refine PinsSame.trans ⟨fun su => ?_, ?_⟩ (pinsSame_answersDropped _ p st c)
  · exact strm_updPart_same fun x => by cases su <;> rfl
  · simp only [pool, part_updPart, if_true]

/-- A stream that its command `c` has left; `stop` disarms it. -/
def cmdLeft (c : Cmd) (stop : Bool) (x : StreamSt) : StreamSt :=
  let (low, ds) := advanceLow (x.doneSet.length + 1) x.low (x.doneSet ++ [c.stamp])
  let es := ((extentsOf c.outs).filter fun e => listsOutput c e.1).map fun e => (c.stamp, e.1, e.2.1, e.2.2, 0)
  { x with
    cmds := x.cmds.filter fun o => o.stamp != c.stamp
    doneQ := x.doneQ.filter fun k => k != c.stamp
    low := low
    doneSet := ds
    tasks :=
      if c.op = opTASKEND && c.inTask then x.tasks.filter fun t => t.first != c.task
      else x.tasks.map fun t => if c.inTask && t.first = c.task then { t with entries := t.entries ++ es } else t
    draining := x.draining || stop && x.armed }

/-- A stream that has drained is disarmed. -/
def drainedOff (x : StreamSt) : StreamSt := if x.draining && x.cmds.isEmpty then { x with armed := false, draining := false } else x

/-- Whether a task that ends disarms its stream. -/
def taskStops (s : State) (p : Nat) (st : Strm) (c : Cmd) : Bool :=
  c.op == opTASKEND && c.inTask && (strm s p st).tasks.any fun t => t.first == c.task && t.aborted && t.stop

/-- A command that has left its stream. -/
def cmdGone (s : State) (p : Nat) (st : Strm) (c : Cmd) : State :=
  let t := workDropped (pinReleased s p c) p st c
  updStrm (updStrm t p st (cmdLeft c (taskStops t p st c))) p st drainedOff

theorem completeCmd_eq (s : State) (p : Nat) (st : Strm) (c : Cmd) : completeCmd s p st c = settle (cmdGone s p st c) p := rfl

theorem drainedOff_kept (x : StreamSt) : (drainedOff x).low = x.low ∧ (drainedOff x).cmds = x.cmds ∧ (drainedOff x).doneQ = x.doneQ := by
  unfold drainedOff
  split_ifs
  · exact ⟨rfl, rfl, rfl⟩
  · exact ⟨rfl, rfl, rfl⟩

theorem strm_pinReleased (s : State) (p : Nat) (c : Cmd) (su : Strm) : strm (pinReleased s p c) p su = strm s p su := by
  unfold pinReleased
  cases c.pin with
  | none => rfl
  | some k => exact (dropPin_spec s p k).1 su

theorem pins_pinReleased (s : State) (p : Nat) (c : Cmd) :
    (pool (pinReleased s p c) p).pins = match c.pin with
      | some k => pinsDropped k (pool s p).pins
      | none => (pool s p).pins := by
  unfold pinReleased
  cases c.pin with
  | none => rfl
  | some k => exact (dropPin_spec s p k).2

/-- What a command that completes leaves of its stream. -/
theorem cmdGone_spec (s : State) (p : Nat) (st : Strm) (c : Cmd) :
    (strm (cmdGone s p st c) p st).low =
        (advanceLow ((strm s p st).doneSet.length + 1) (strm s p st).low ((strm s p st).doneSet ++ [c.stamp])).1 ∧
      (strm (cmdGone s p st c) p st).cmds = (strm s p st).cmds.filter (fun o => o.stamp != c.stamp) ∧
      (strm (cmdGone s p st c) p st).doneQ = (strm s p st).doneQ.filter (fun k => k != c.stamp) ∧
      (pool (cmdGone s p st c) p).pins = (pool (pinReleased s p c) p).pins ∧
      ∀ su : Strm, su ≠ st → strm (cmdGone s p st c) p su = strm s p su := by
  have hdrop := pinsSame_workDropped (pinReleased s p c) p st c
  have hstrm : ∀ su : Strm, strm (workDropped (pinReleased s p c) p st c) p su = strm s p su := fun su =>
    (hdrop.strms su).trans (strm_pinReleased s p c su)
  have hgone : strm (cmdGone s p st c) p st = drainedOff (cmdLeft c (taskStops (workDropped (pinReleased s p c) p st c) p st c) (strm s p st)) := by
    rw [cmdGone, strm_updStrm_same, strm_updStrm_same, hstrm]
  obtain ⟨hlow, hcmds, hdone⟩ := drainedOff_kept (cmdLeft c (taskStops (workDropped (pinReleased s p c) p st c) p st c) (strm s p st))
  refine ⟨by rw [hgone, hlow]; rfl, by rw [hgone, hcmds]; rfl, by rw [hgone, hdone]; rfl, ?_, fun su hsu => ?_⟩
  · rw [cmdGone, pool_updStrm, pool_updStrm, hdrop.pins]
  · rw [cmdGone, strm_updStrm_ne _ p hsu, strm_updStrm_ne _ p hsu, hstrm]

/-! ## Completion records -/

theorem nextDone_quietless {s : State} {p : Nat} {st : Strm} (hroom : ringRoom s p st = false)
    (hquiet : ∀ c ∈ (strm s p st).cmds, (c.quiet && c.status == stOK) = false) : nextDone s p st = none := by
  refine List.findSome?_eq_none_iff.mpr fun k _ => ?_
  cases hc : getCmd s p st k with
  | none => rfl
  | some c =>
    have hrec : c.noRecord = false := hquiet c (List.mem_of_find?_eq_some hc)
    rw [Option.filter_some, hrec, hroom, Bool.or_false, Bool.and_false]
    rfl

theorem completeNext_asks {s t : State} {p : Nat} {st : Strm} {c : Cmd} (hc : nextDone s p st = some c) (ht : pinAsks s p c = some t) :
    completeNext s p st = t := by
  rw [completeNext, hc]
  dsimp only
  rw [ht]

/-- A command that completes, its checksums written. -/
theorem completeNext_writes {s w : State} {p : Nat} {st : Strm} {c : Cmd} (hc : nextDone s p st = some c) (hask : pinAsks s p c = none)
    (hplain : (c.status == stOK && checksumMode s p && !(isControl c.op)) = false → w = s)
    (hsums : (c.status == stOK && checksumMode s p && !(isControl c.op)) = true →
      ∃ (n : Nat) (r : Run), ranM s (cmdCtx s p st c 0xFF 0) (checksums st c) = .ok n r ∧ w = r.s) :
    completeNext s p st = writeRecord w p st c := by
  rw [completeNext, hc]
  dsimp only
  rw [hask]
  dsimp only
  cases hmode : c.status == stOK && checksumMode s p && !(isControl c.op) with
  | false =>
    rw [hplain hmode]
    exact if_neg Bool.false_ne_true
  | true =>
    obtain ⟨n, r, hr, hw⟩ := hsums hmode
    rw [hw, hr]
    exact if_pos rfl

theorem writeRecord_quiet {s : State} {p : Nat} {st : Strm} {c : Cmd} (h : (c.quiet && c.status == stOK) = true) :
    writeRecord s p st c = completeCmd (advise s p st c).1 p st c := by
  rw [writeRecord]
  exact if_pos h

theorem writeRecord_recorded {s : State} {p : Nat} {st : Strm} {c : Cmd} (h : (c.quiet && c.status == stOK) = false) {r : Run}
    (hr : recordRun (advise s p st c).1 p st c ((strm s p st).cseq + 1).toNat (advise s p st c).2 = .ok () r) :
    writeRecord s p st c = completeCmd (updStrm r.s p st fun x => { x with cseq := x.cseq + 1 }) p st c := by
  have hno : ¬ c.noRecord = true := Bool.not_eq_true _ ▸ h
  rw [writeRecord, if_neg hno, putRecord, hr, Ran.fold]

/-- Settles O60: a completion is the write of its record and the departure of its command (`cmdGone_spec`), in which `LOW`
passes every stamp that is complete (`advanceLow_fst`). -/
theorem completionsAreRecorded : Obligations.CompletionsAreRecorded := by
  intro p st s hruns
  have hrow : exec (.completionRecordWrite p st) s = .next (keepPins s (launchDue (completeNext s p st) p)) :=
    act_runs hruns fun s => launchDue (completeNext s p st) p
  have hnone (h : nextDone s p st = none) : completeNext s p st = s := by
    rw [completeNext, h]
  refine ⟨fun h => ?_, fun hroom hquiet => ?_, fun c t hc ht => ?_, fun c w hc hask => ?_, fun c n hn => ?_⟩
  · rw [hrow, hnone h]
  · rw [hrow, hnone (nextDone_quietless hroom hquiet)]
  · rw [hrow, completeNext_asks hc ht]
  · intro sums hplain hsums quiet a m
    have hwrite := completeNext_writes hc hask hplain hsums
    refine ⟨fun hq => ?_, fun hq r hr => ?_⟩
    · rw [hrow, hwrite, writeRecord_quiet hq]
    · rw [hrow, hwrite, writeRecord_recorded hq hr]
  · intro x done hin hout
    obtain ⟨hlow, hcmds, hdone, hpins, hother⟩ := cmdGone_spec s p st c
    have hlen : done.length = x.doneSet.length + 1 := List.length_append
    refine ⟨cmdGone s p st c, completeCmd_eq s p st c, hlow.trans ?_, hcmds, hdone, hpins.trans (pins_pinReleased s p c), hother⟩
    exact advanceLow_fst hn (hlen ▸ stamps_le_length hn hin) hin hout

end Sys2Proof.Machine
end

section
/-! The issue of control commands and of channel commands (R84, R131, R276 to R284). -/

namespace Sys2Proof.Machine

open Sys2Proof

theorem issueOp_other {s : State} {p : Nat} {st : Strm} {op : Nat} {k : Cmd} (h : headCmd s p st = some k) (hop : k.op ≠ op)
    (f : State → Nat → Strm → Cmd → State) : issueOp s p st op f = s := by
  rw [issueOp, h]
  exact if_neg hop

/-! ## Control commands -/

/-- What the row of a control command looks at again. -/
def controlAgain (op p : Nat) (s : State) : State := if op = opTASKBEGIN then s else settle s p

theorem exec_controlRow {i : Instr} {p : Part} {st : Strm} {op : Nat} (h : controlRow i = some (p, st, op)) {s : State} (hruns : Runs s) :
    exec i s = .next (keepPins s (controlAgain op p (issueOp s p st op issueControl))) := by
  cases i
  case taskBegin =>
    injection h with h
    injection h with hp h
    injection h with hst hop
    subst hp hst hop
    rw [controlAgain, if_pos rfl]
    exact act_runs hruns fun s => issueOp s _ _ _ issueControl
  case fence | taskEnd | waitPhase | stamp =>
    injection h with h
    injection h with hp h
    injection h with hst hop
    subst hp hst hop
    rw [controlAgain, if_neg (by decide)]
    exact act_runs hruns fun s => settle (issueOp s _ _ _ issueControl) _
  all_goals cases h

/-- The refusals of a control command. -/
def controlRefs (c : Cmd) : List Ref :=
  recordRefs c.op c.record ++ shapeIf (c.op == opTASKBEGIN && c.inTask && c.task != c.stamp) noField

theorem issueControl_passes {s : State} {p : Nat} {st : Strm} {c : Cmd} (h : firstRef (controlRefs c) = none) :
    issueControl s p st c = settled
      (if c.op = opTASKBEGIN then endCmd (updCmd s p st c.stamp fun c => c.issued s p) p st c.stamp stOK 0
       else updCmd s p st c.stamp fun c => c.issued s p) p := by
  rw [issueControl]
  dsimp only
  rw [← controlRefs, h]
  rfl

theorem issueControl_refused {s : State} {p : Nat} {st : Strm} {c : Cmd} {f : Ref} (h : firstRef (controlRefs c) = some f) :
    issueControl s p st c = settled (refuseCmd s p st c.stamp f) p := by
  rw [issueControl]
  dsimp only
  rw [← controlRefs, h]
  rfl

/-- Settles O53: a row issues the head of its stream where that is its own command, and leaves the stream alone where not. -/
theorem controlCommandsIssue : Obligations.ControlCommandsIssue := by
  intro i p st op s c hi hruns hhead
  have hrow := exec_controlRow hi hruns
  refine ⟨fun hop hpass => ?_, fun hop f hf => ?_, fun hop => ?_⟩
  · subst hop
    rw [hrow, issueOp_head hhead, issueControl_passes hpass]
    rfl
  · subst hop
    rw [hrow, issueOp_head hhead, issueControl_refused hf]
    rfl
  · rw [hrow, issueOp_other hhead hop]
    rfl

/-! ## Channel commands -/

theorem exec_chanRow {i : Instr} {p : Part} {st : Strm} {op : Nat} (h : chanRow i = some (p, st, op)) {s : State} (hruns : Runs s) :
    exec i s = .next (keepPins s (issueOp s p st op issueChan)) := by
  cases i
  case attnFwd | attnBwdA | attnBwdB | attnDec | pageSelect | softmax | fn | norm | rot =>
    injection h with h
    injection h with hp h
    injection h with hst hop
    subst hp hst hop
    exact act_runs hruns fun s => issueOp s _ _ _ issueChan
  all_goals cases h

/-- What the plan of a channel command leads to. -/
theorem issueChan_planned {s u : State} {p : Nat} {st : Strm} {k k1 k2 : Cmd} {rs : List Ref} {lens : List Nat}
    {parts : List (List Nat × List (List Nat))} {r : Run} (hparam : k.paramErr = 0)
    (hedit : (poolReads s p k && editBefore (strm s p st) k) = false) (hpin : pinned s p st k = some (u, k1))
    (hr : ranM u (cmdCtx u p st k1 0xFF 0) (chanPlan p k1) = .ok (k2, rs, lens, parts) r) :
    issueChan s p st k = match firstRef rs with
      | some f => refuseCmd r.s p st k2.stamp f
      | none => chanIssued r.s p st k2 lens parts := by
  have hgood : ¬ (k.paramErr != 0) = true := by simp [hparam]
  cases hrefs : firstRef rs with
  | none =>
    rw [issueChan, if_neg hgood, if_neg (Bool.not_eq_true _ ▸ hedit), ← pinned, hpin]
    dsimp only
    rw [hr]
    dsimp only
    rw [hrefs]
  | some f =>
    rw [issueChan, if_neg hgood, if_neg (Bool.not_eq_true _ ▸ hedit), ← pinned, hpin]
    dsimp only
    rw [hr]
    dsimp only
    rw [hrefs]

/-- A channel command as it stands once it is issued. -/
def chanIssuedCmd (s : State) (p : Nat) (st : Strm) (c : Cmd) (lens : List Nat) (parts : List (List Nat × List (List Nat))) : Cmd :=
  { c.issued s p with
    energy := estimate s (unitWork s (cmdCtx s p st c 0xFF 0) c lens)
    units := (unitRange c (chanUnits c)).2
    handed := (unitRange c (chanUnits c)).1
    shared := parts.foldl (fun n x => n + x.1.length + x.2.foldl (fun m y => m + y.length) 0) 0
    info := if countsRows c.op then c.pin.getD 0 else 0 }

theorem chanIssued_eq (s : State) (p : Nat) (st : Strm) (c : Cmd) (lens : List Nat) (parts : List (List Nat × List (List Nat))) :
    chanIssued s p st c lens parts = settled (
      let v := updCmd s p st c.stamp fun _ => chanIssuedCmd s p st c lens parts
      if (unitRange c (chanUnits c)).2 ≤ (unitRange c (chanUnits c)).1 then endCmd v p st c.stamp stOK 0
      else joinShared v p st (chanIssuedCmd s p st c lens parts) parts) p := rfl

/-- Settles O54: a row issues the head of its stream, and the plan of the command tells whether a check refuses it. -/
theorem channelCommandsIssue : Obligations.ChannelCommandsIssue := by
  intro i p st op s u k k1 k2 rs lens parts r hi hruns hop hmay hpin hr lo hi'
  obtain ⟨hhead, hparam, hedit⟩ := hmay
  have hissue := issueChan_planned hparam hedit hpin hr
  have hrow := exec_chanRow hi hruns
  rw [← hop, issueOp_head hhead, hissue] at hrow
  refine ⟨fun hpass => ?_, fun f hf => ?_⟩
  · refine ⟨chanIssuedCmd r.s p st k2 lens parts, rfl, rfl, rfl, rfl, rfl, rfl, rfl, rfl, rfl, ?_⟩
    rw [hrow, hpass]
    dsimp only
    rw [chanIssued_eq]
  · rw [hrow, hf]

end Sys2Proof.Machine
end

section
/-! Transfers in their slots (R292 to R294). -/

namespace Sys2Proof.Machine

open Sys2Proof

theorem exec_transferRow {i : Instr} {p : Part} {st : Strm} {op : Nat} (h : transferRow i = some (p, st, op)) {s : State} (hruns : Runs s) :
    exec i s = .next (keepPins s (transferOp s p st op)) := by
  cases i
  case xfer | feed =>
    injection h with h
    injection h with hp h
    injection h with hst hop
    subst hp hst hop
    exact act_runs hruns fun s => transferOp s _ _ _
  all_goals cases h

/-- The transfer that is ready starts. -/
def readyStarted (s : State) (p : Nat) (st : Strm) (op : Nat) : State :=
  match readyTransfer s p st op with
  | some c => startTransfer s p st c
  | none => s

theorem transferOp_eq (s : State) (p : Nat) (st : Strm) (op : Nat) :
    transferOp s p st op = settled (match readyTransfer s p st op with
      | some c => startTransfer s p st c
      | none => readyStarted (issueOp s p st op issueTransfer) p st op) p := rfl

theorem transferOp_ready {s : State} {p : Nat} {st : Strm} {op : Nat} {k : Cmd} (h : readyTransfer s p st op = some k) :
    transferOp s p st op = settled (startTransfer s p st k) p := by
  rw [transferOp_eq, h]

theorem transferOp_issues {s : State} {p : Nat} {st : Strm} {k : Cmd} (h : readyTransfer s p st k.op = none)
    (hhead : headCmd s p st = some k) : transferOp s p st k.op = settled (readyStarted (issueTransfer s p st k) p st k.op) p := by
  rw [transferOp_eq, h, issueOp_head hhead]

section
variable {s : State} {p : Nat} {st : Strm} {k : Cmd} (helig : eligible s p st = true) (hbudget : budgetFits s k.energy = true)
include helig hbudget

theorem startTransfer_free (hslot : slotOf s p (k.get .xs) = none) :
    startTransfer s p st k = settleSlot (moveData (takeSlot s p st k) p (k.get .xs)) p (k.get .xs) := by
  have hgo : ¬ (!(eligible s p st) || !(budgetFits s k.energy)) = true := by simp [helig, hbudget]
  have hfree : ¬ (slotOf s p (k.get .xs)).isSome = true := by simp [hslot]
  rw [startTransfer]
  rw [if_neg hgo, if_neg hfree]

theorem startTransfer_busy (hslot : (slotOf s p (k.get .xs)).isSome = true) :
    startTransfer s p st k = endCmd (setBusy s p 2) p st k.stamp stARMBUSY (k.get .xs) := by
  have hgo : ¬ (!(eligible s p st) || !(budgetFits s k.energy)) = true := by simp [helig, hbudget]
  rw [startTransfer]
  rw [if_neg hgo, if_pos hslot]

end

theorem transferPeriod_waits {s : State} {p n : Nat} {x : XSlot} (hx : slotOf s p n = some x) (h : x.phase ≠ 0 ∨ x.sinceStart < x.period) :
    transferPeriod s p n = s := by
  have hno : (x.phase != 0 || decide (x.sinceStart < x.period)) = true := by simpa using h
  rw [transferPeriod, hx]
  exact if_pos hno

theorem transferPeriod_over {s : State} {p n : Nat} {x : XSlot} (hx : slotOf s p n = some x) (hphase : x.phase = 0)
    (h : x.period ≤ x.sinceStart) : transferPeriod s p n = settled
      (settleSlot (moveData (updSlot s p n fun y => { y with phase := 1, sinceStart := 0 }) p n) p n) p := by
  have hyes : ¬ (x.phase != 0 || decide (x.sinceStart < x.period)) = true := by simpa [hphase] using h
  rw [transferPeriod, hx]
  exact if_neg hyes

/-- Settles O57: a row starts the transfer that is ready, or issues the head of its stream; a slot moves on by its own
period. -/
theorem transfersRunInTheirSlots : Obligations.TransfersRunInTheirSlots := by
  intro p st slot s hruns
  have hperiod : exec (.transferPeriod p slot) s = .next (keepPins s (transferPeriod s p slot)) :=
    act_runs hruns fun s => transferPeriod s p slot
  refine ⟨fun i op k hi => ⟨fun hnone hhead hop => ?_, fun hready helig hbudget => ⟨fun hslot => ?_, fun hslot => ?_⟩⟩, fun hx => ?_,
    fun x hx => ⟨fun hwait => ?_, fun hphase hover => ?_⟩⟩
  · subst hop
    rw [exec_transferRow hi hruns, transferOp_issues hnone hhead]
    rfl
  · rw [exec_transferRow hi hruns, transferOp_ready hready, startTransfer_free helig hbudget hslot]
  · rw [exec_transferRow hi hruns, transferOp_ready hready, startTransfer_busy helig hbudget hslot]
  · rw [hperiod, transferPeriod, hx]
    rfl
  · rw [hperiod, transferPeriod_waits hx hwait]
    rfl
  · rw [hperiod, transferPeriod_over hx hphase hover]

end Sys2Proof.Machine
end

section
/-! Snaps, fences and waits for a phase (R277, R279, R403 to R407). -/

namespace Sys2Proof.Machine

open Sys2Proof

/-! ## The only command of a partition -/

/-- `k` is the only command of its partition; it has issued, it is no channel command at work and no `task.end`, and no
cancel window is open. -/
structure Solo (s : State) (p : Nat) (st : Strm) (k : Cmd) : Prop where
  closed : ∀ o : Strm, (strm s p o).cancelTo = none
  empty : ∀ o : Strm, o ≠ st → (strm s p o).cmds = []
  cmds : (strm s p st).cmds = [k]
  fetched : k.stage ≠ .fetched
  started : k.stage ≠ .started
  notEnd : k.op ≠ opTASKEND

/-- What one stream does by itself in a round. -/
def strmRound (p : Nat) (s : State) (o : Strm) : State := settleRound (refuseUnknown (runCancel s p o) p o) p o

/-- A round over the streams of a partition. -/
def partRound (p : Nat) (s : State) : State := allStrms.foldl (strmRound p) s

theorem settle_eq (s : State) (p : Nat) : settle s p = partRound p (partRound p (partRound p s)) := rfl

theorem strmRound_eq {s : State} {p : Nat} {o : Strm} (hclosed : (strm s p o).cancelTo = none) (hhead : headCmd s p o = none) :
    strmRound p s o = settleRound s p o := by
  rw [strmRound, runCancel, hclosed]
  dsimp only
  rw [refuseUnknown, hhead]

section
variable {s : State} {p : Nat} {st : Strm} {k : Cmd} (h : Solo s p st k)
include h

theorem Solo.other {o : Strm} (ho : o ≠ st) : strmRound p s o = s := by
  have hempty := h.empty o ho
  have hhead : headCmd s p o = none := by rw [headCmd, hempty]; rfl
  rw [strmRound_eq (h.closed o) hhead, settleRound, hempty]
  rfl

theorem Solo.get : getCmd s p st k.stamp = some k := by
  rw [getCmd, h.cmds]
  exact List.find?_cons_of_pos (beq_self_eq_true _)

theorem Solo.self {k' : Cmd} (g : Solo (settleControl s p st k) p st k') (hstamp : k'.stamp = k.stamp) :
    strmRound p s st = settleControl s p st k := by
  have hhead : headCmd s p st = none := by
    have hf : (k.stage == .fetched) = false := by simpa using h.fetched
    rw [headCmd, h.cmds, List.find?_cons, hf]
    rfl
  have hunits : k.unitsDone = false := by
    have hs : (k.stage == .started) = false := by simpa using h.started
    simp only [Cmd.unitsDone, hs, Bool.false_and]
  have hfinish : finishChan s p st k = s := by
    rw [finishChan, if_pos (by simp [hunits])]
  have hend : settleTaskEnd (settleControl s p st k) p st k' = settleControl s p st k := by
    rw [settleTaskEnd]
    dsimp only
    rw [if_pos (by simp [g.notEnd])]
  rw [strmRound_eq (h.closed st) hhead, settleRound, h.cmds, List.foldl_cons, List.foldl_nil, h.get]
  dsimp only
  rw [hfinish, h.get, Option.getD_some, ← hstamp, g.get, Option.getD_some, hend]

/-- A round over a partition with one command. -/
theorem Solo.round {k' : Cmd} (g : Solo (settleControl s p st k) p st k') (hstamp : k'.stamp = k.stamp) :
    partRound p s = settleControl s p st k := by
  have hself := h.self g hstamp
  have hbefore : ∀ o : Strm, o ≠ st → strmRound p s o = s := fun o ho => h.other ho
  have hafter : ∀ o : Strm, o ≠ st → strmRound p (settleControl s p st k) o = settleControl s p st k := fun o ho => g.other ho
  rw [partRound]
  cases st with
  | F => simp only [allStrms, List.foldl_cons, List.foldl_nil, hself, hafter, ne_eq, reduceCtorEq, not_false_eq_true]
  | B => simp only [allStrms, List.foldl_cons, List.foldl_nil, hself, hbefore, hafter, ne_eq, reduceCtorEq, not_false_eq_true]
  | U => simp only [allStrms, List.foldl_cons, List.foldl_nil, hself, hbefore, hafter, ne_eq, reduceCtorEq, not_false_eq_true]
  | S => simp only [allStrms, List.foldl_cons, List.foldl_nil, hself, hbefore, ne_eq, reduceCtorEq, not_false_eq_true]

/-- A partition whose only command ends by itself, or waits, settles in one step. -/
theorem Solo.settle {k' : Cmd} (g : Solo (settleControl s p st k) p st k') (hstamp : k'.stamp = k.stamp)
    (hstill : settleControl (settleControl s p st k) p st k' = settleControl s p st k) :
    Machine.settle s p = settleControl s p st k := by
  have hagain : partRound p (settleControl s p st k) = settleControl s p st k :=
    (g.round (k' := k') (by rw [hstill]; exact g) rfl).trans hstill
  rw [settle_eq, h.round g hstamp, hagain, hagain]

end

theorem settleControl_ended {s : State} {p : Nat} {st : Strm} {k : Cmd} (h : k.ended = true) : settleControl s p st k = s := by
  have hstage : k.stage = .ended := beq_iff_eq.mp h
  rw [settleControl]
  rw [if_pos (by simp [hstage])]

/-- A change of the only command of a partition. -/
theorem Solo.updCmd {s : State} {p : Nat} {st : Strm} {k : Cmd} (h : Solo s p st k) {f : Cmd → Cmd} (hf : (f k).stage = k.stage)
    (hop : (f k).op = k.op) : Solo (Machine.updCmd s p st k.stamp f) p st (f k) := by
  refine ⟨fun o => ?_, fun o ho => ?_, ?_, hf ▸ h.fetched, hf ▸ h.started, hop ▸ h.notEnd⟩
  · by_cases ho : o = st
    · rw [ho, Machine.updCmd, strm_updStrm_same]
      exact h.closed st
    · rw [Machine.updCmd, strm_updStrm_ne s p ho]
      exact h.closed o
  · rw [Machine.updCmd, strm_updStrm_ne s p ho]
    exact h.empty o ho
  · rw [Machine.updCmd, strm_updStrm_same]
    dsimp only
    rw [h.cmds, List.map_singleton, if_pos rfl]

/-- The end of the only command of a partition, with `OK`. -/
theorem Solo.endCmd {s : State} {p : Nat} {st : Strm} {k : Cmd} (h : Solo s p st k) (hlive : k.ended = false) :
    Solo (Machine.endCmd s p st k.stamp stOK 0) p st (endedAs stOK 0 k) := by
  have hno : ¬ (k.inTask && !(goesOn stOK)) = true := by
    rw [show goesOn stOK = true from rfl, Bool.not_true, Bool.and_false]
    exact Bool.false_ne_true
  rw [endCmd_spec 0 h.get hlive fun hop => absurd hop h.notEnd, if_neg hno]
  refine ⟨fun o => ?_, fun o ho => ?_, ?_, Stage.noConfusion, Stage.noConfusion, h.notEnd⟩
  · rw [strm_markEnd]
    by_cases ho : o = st
    · rw [if_pos ho]
      exact h.closed st
    · rw [if_neg ho]
      exact h.closed o
  · rw [strm_markEnd, if_neg ho]
    exact h.empty o ho
  · rw [cmds_markEnd, h.cmds, cmdsEnded, List.map_singleton, if_pos (beq_self_eq_true _)]

theorem settleControl_fence {s : State} {p : Nat} {st : Strm} {k : Cmd} (h : Solo s p st k) (hstage : k.stage = .issued)
    (hop : k.op = opFENCE) :
    settleControl s p st k = if allStrms.all (fun o => o == st || !(bitOf (leAt k.record 36 1) o.num) ||
        stampGe (strm s p o).low (BitVec.ofNat 32 (leAt k.record (44 + 4 * o.num) 4)))
      then Machine.endCmd (Machine.updCmd s p st k.stamp fun c => { c with countA := c.ticks }) p st k.stamp stOK 0 else s := by
  have hgo : ¬ (k.stage != .issued || !(isControl k.op)) = true := by
    rw [hstage, hop]
    decide
  have hhead : isHead (strm s p st) k = true := by
    rw [isHead, h.cmds]
    exact beq_self_eq_true _
  rw [settleControl]
  rw [if_neg hgo, if_pos hop, fenceDone, hhead, Bool.true_and]
  rfl

theorem settleControl_wait {s : State} {p : Nat} {st : Strm} {k : Cmd} (hstage : k.stage = .issued) (hop : k.op = opWAITPHASE) :
    settleControl s p st k = if leAt k.record 40 8 ≤ s.cad.phase.toNat then Machine.endCmd s p st k.stamp stOK 0 else s := by
  have hgo : ¬ (k.stage != .issued || !(isControl k.op)) = true := by
    rw [hstage, hop]
    decide
  have hfence : ¬ k.op = opFENCE := by
    rw [hop]
    decide
  rw [settleControl]
  rw [if_neg hgo, if_neg hfence, if_pos hop]

/-- A partition whose only command, once issued, ends if `done` holds and waits if it does not. -/
theorem Solo.settle_of {s t : State} {p : Nat} {st : Strm} {k k' : Cmd} {done : Prop} [Decidable done] (h : Solo s p st k)
    (heq : settleControl s p st k = if done then t else s) (ht : Solo t p st k') (hstamp : k'.stamp = k.stamp) (hended : k'.ended = true) :
    Machine.settle s p = if done then t else s := by
  by_cases hdone : done
  · rw [if_pos hdone] at heq ⊢
    rw [← heq]
    exact h.settle (heq ▸ ht) hstamp (settleControl_ended hended)
  · rw [if_neg hdone] at heq ⊢
    have hwait := h.settle (k' := k) (by rw [heq]; exact h) rfl (by rw [heq, heq])
    rw [hwait, heq]

/-! ## Snaps -/

theorem issueSnap_planned {s u : State} {p : Nat} {st : Strm} {k k1 : Cmd} {rs : List Ref} {w : Work} {r : Run} (hparam : k.paramErr = 0)
    (hedit : (poolReads s p k && editBefore (strm s p st) k) = false) (hpin : pinned s p st k = some (u, k1))
    (hr : ranM u (cmdCtx u p st k1 0xFF 0) (snapPlan k1) = .ok (rs, w) r) :
    issueSnap s p st k = match firstRef rs with
      | some f => refuseCmd r.s p st k1.stamp f
      | none => snapIssued r.s p st k1 w := by
  have hgood : ¬ (k.paramErr != 0) = true := by simp [hparam]
  cases hrefs : firstRef rs with
  | none =>
    rw [issueSnap, if_neg hgood, if_neg (Bool.not_eq_true _ ▸ hedit), ← pinned, hpin]
    dsimp only
    rw [hr]
    dsimp only
    rw [hrefs]
  | some f =>
    rw [issueSnap, if_neg hgood, if_neg (Bool.not_eq_true _ ▸ hedit), ← pinned, hpin]
    dsimp only
    rw [hr]
    dsimp only
    rw [hrefs]

theorem snapGo_none {s : State} {p : Nat} (h : snapsOf s p = []) : snapGo s p = s := by
  rw [snapGo, h]
  rfl

/-- The steps of the only `snap` of a partition. -/
theorem snapGo_one {s : State} {p : Nat} {st : Strm} {k : Cmd} (h : snapsOf s p = [(st, k)]) :
    snapGo s p = snapWith p st k.stamp snapEnd (snapWith p st k.stamp snapFinal (snapWith p st k.stamp snapBody
      (snapWith p st k.stamp snapStart s))) := by
  rw [snapGo, h]
  rfl

theorem snapWith_get {s : State} {p : Nat} {st : Strm} {k : Cmd} (hk : getCmd s p st k.stamp = some k)
    (f : State → Nat → Strm → Cmd → State) : snapWith p st k.stamp f s = f s p st k := by
  rw [snapWith, hk]

section
variable {s : State} {p : Nat} {st : Strm} {k : Cmd}

theorem snapBody_waits (h : k.stage ≠ .started ∨ k.imgStep ≠ 1) : snapBody s p st k = s := by
  have hno : (k.stage != .started || k.imgStep != 1) = true := by simpa using h
  rw [snapBody, if_pos hno]

theorem snapFinal_waits (h : k.stage ≠ .started ∨ k.imgStep ≠ 2) : snapFinal s p st k = s := by
  have hno : (k.stage != .started || k.imgStep != 2 || cmdWaits s p st k.stamp) = true := by
    rw [Bool.or_eq_true]
    exact .inl (by simpa using h)
  rw [snapFinal, if_pos hno]

theorem snapEnd_waits (h : k.stage ≠ .started) : snapEnd s p st k = s := by
  have hno : (k.stage != .started || k.imgStep != 3 || cmdWaits s p st k.stamp) = true := by simp [h]
  rw [snapEnd, if_pos hno]

theorem snapEnd_whole (hstage : k.stage = .started) (hstep : k.imgStep = 3) (hw : cmdWaits s p st k.stamp = false) :
    snapEnd s p st k = Machine.endCmd s p st k.stamp stOK 0 := by
  have hyes : ¬ (k.stage != .started || k.imgStep != 3 || cmdWaits s p st k.stamp) = true := by simp [hstage, hstep, hw]
  rw [snapEnd, if_neg hyes]

theorem snapStart_waits (h : k.stage ≠ .issued ∨ quiet s p st k = false) : snapStart s p st k = s := by
  have hno : (k.stage != .issued || !(quiet s p st k) || !(eligible s p st) || !(budgetFits s k.energy)) = true := by
    rcases h with h | h
    · simp [h]
    · simp [h]
  rw [snapStart, if_pos hno]

/-- A snap whose phase of quiesce is known. -/
def snapHeld (s : State) (k : Cmd) : Cmd := { k with quiesced := some (k.quiesced.getD s.cad.phase) }

/-- What a run of a snap wrote. -/
def snapNoted (p : Nat) (st : Strm) (k : Cmd) (x : Ctx) (r : Run) : State :=
  updCmd (dropHost r.s x.owner) p st k.stamp fun c => { c with outs := r.outs.foldl (fun o e => noteOut o e.1 e.2.1 e.2.2) c.outs }

theorem snapStart_writes (hstage : k.stage = .issued) (hquiet : quiet s p st k = true) (helig : eligible s p st = true)
    (hbudget : budgetFits s k.energy = true) {r : Run}
    (hr : runM (writeHeader (snapHeld s k)) (Run.of s (cmdCtx s p st k 0xFF 0)) = (.ok (), r))
    (hw : runWait s (cmdCtx s p st k 0xFF 0) (.ok ()) r = none) :
    snapStart s p st k = updCmd (charge (snapNoted p st k (cmdCtx s p st k 0xFF 0) r) k.energy) p st k.stamp fun c =>
      { c with stage := .started, begun := true, quiesced := (snapHeld s k).quiesced, imgStep := 1 } := by
  have hgo : ¬ (k.stage != .issued || !(quiet s p st k) || !(eligible s p st) || !(budgetFits s k.energy)) = true := by
    simp [hstage, hquiet, helig, hbudget]
  rw [snapStart, if_neg hgo, ← snapHeld, snapRun]
  dsimp only
  rw [show cmdCtx s p st (snapHeld s k) 0xFF 0 = cmdCtx s p st k 0xFF 0 from rfl, hr]
  dsimp only
  rw [hw]
  rfl

theorem snapTimeout_none (h : snapsOf s p = []) : snapTimeout s p = s := by
  rw [snapTimeout, h]
  rfl

theorem snapTimeout_late (h : snapsOf s p = [(st, k)]) (hstage : k.stage = .issued) (hq : k.quiesced = none) (hquiet : quiet s p st k = false)
    (htmo : k.get .tmo ≠ 0) (hlate : k.get .tmo ≤ k.ticks) :
    snapTimeout s p =
      let v := addFault s { faultOf (Who.cmd p st k.stamp 0) 4 5 with arg0 := k.ticks }
      settled (Machine.endCmd v p st k.stamp stFENCETMO (lastFault v)) p := by
  have hyes : (k.stage == .issued && k.quiesced.isNone && !(quiet s p st k) && k.get .tmo != 0 && decide (k.get .tmo ≤ k.ticks)) = true := by
    simp [hstage, hq, hquiet, htmo, hlate]
  rw [snapTimeout, h, List.find?_cons]
  dsimp only
  rw [hyes]
  rfl

theorem fenceTimeout_late (h : fenceLate s p st = some k) :
    fenceTimeout s p st =
      let v := addFault s { faultOf (Who.cmd p st k.stamp 0) 4 5 with arg0 := k.ticks }
      settled (Machine.endCmd (updCmd v p st k.stamp fun c => { c with countA := c.ticks }) p st k.stamp stFENCETMO (lastFault v)) p := by
  rw [fenceTimeout, h]
  rfl

end

/-- Settles O58: each row evaluates the step of the stage that the command has reached, and the partition whose only
command waits or ends by itself settles in one round. -/
theorem snapsAndFencesWait : Obligations.SnapsAndFencesWait := by
  intro p st s k hruns
  have hsnap : exec (.snap p st) s = .next (keepPins s (settled (issueOp s p st opSNAP issueSnap) p)) :=
    act_runs hruns fun s => snapOp s p st
  have hquiesce : exec (.snapQuiesce p) s = .next (keepPins s (settled (snapGo s p) p)) := act_runs hruns fun s => snapQuiesce s p
  have hsnapLate : exec (.snapTimeout p) s = .next (keepPins s (snapTimeout s p)) := act_runs hruns fun s => snapTimeout s p
  have hfenceLate : exec (.fenceTimeout p st) s = .next (keepPins s (fenceTimeout s p st)) :=
    act_runs hruns fun s => fenceTimeout s p st
  refine ⟨fun hmay hop u k1 rs w r hpin hr => ?_, fun hnone => ?_, fun hone hk => ⟨fun hstage hquiet => ?_,
    fun hstage hquiet helig hbudget => ?_, fun hstage hstep hw => ?_⟩, fun hone hstage hq hquiet htmo hlate => ?_, fun hnone => ?_,
    fun hnone => ?_, fun hlate => ?_, fun hclosed hempty hcmds hstage => ?_⟩
  · obtain ⟨hhead, hparam, hedit⟩ := hmay
    rw [hsnap, ← hop, issueOp_head hhead, issueSnap_planned hparam hedit hpin hr]
    refine ⟨fun hpass => ?_, fun f hf => ?_⟩
    · rw [hpass]
    · rw [hf]
  · rw [hquiesce, snapGo_none hnone]
  · have hissued : k.stage ≠ .started := by simp [hstage]
    rw [hquiesce, snapGo_one hone]
    simp only [snapWith_get hk, snapStart_waits (.inr hquiet), snapBody_waits (.inl hissued), snapFinal_waits (.inl hissued),
      snapEnd_waits hissued]
  · intro x h r hr hw
    rw [hquiesce, snapGo_one hone, snapWith_get hk snapStart, snapStart_writes hstage hquiet helig hbudget hr hw]
    rfl
  · have hstarted : k.stage ≠ .issued := by simp [hstage]
    have hpast : k.imgStep ≠ 1 ∧ k.imgStep ≠ 2 := by simp [hstep]
    obtain ⟨hbody, hfinal⟩ := hpast
    rw [hquiesce, snapGo_one hone]
    simp only [snapWith_get hk, snapStart_waits (.inl hstarted), snapBody_waits (.inr hbody), snapFinal_waits (.inr hfinal),
      snapEnd_whole hstage hstep hw]
  · rw [hsnapLate, snapTimeout_late hone hstage hq hquiet htmo hlate]
  · rw [hsnapLate, snapTimeout_none hnone]
    rfl
  · rw [hfenceLate, fenceTimeout, hnone]
    rfl
  · rw [hfenceLate, fenceTimeout_late hlate]
  · have hsolo (hne : k.op ≠ opTASKEND) : Solo s p st k :=
      ⟨hclosed, hempty, hcmds, by simp [hstage], by simp [hstage], hne⟩
    have hlive : k.ended = false := by simp [Cmd.ended, hstage]
    refine ⟨fun hop => ?_, fun hop => ?_⟩
    · have hfence := hsolo (by rw [hop]; decide)
      have hnoted := hfence.updCmd (f := fun c => { c with countA := c.ticks }) rfl rfl
      exact hfence.settle_of (settleControl_fence hfence hstage hop) (hnoted.endCmd hlive) rfl rfl
    · have hwait := hsolo (by rw [hop]; decide)
      exact hwait.settle_of (settleControl_wait hstage hop) (hwait.endCmd hlive) rfl rfl

end Sys2Proof.Machine
end

section
/-! Links that come up and fall, freeing that is reported, and the checks of frames (R341, R350 to R357). -/

namespace Sys2Proof.Machine

open Sys2Proof

/-! ## One remote port -/

theorem remP_updRem_same (s : State) (n : Nat) (f : RemSt → RemSt) : remP (updRem s n f) n = f (remP s n) :=
  Vector.getElem_set_self (Fin.isLt _)

theorem remP_of_rem {s t : State} (h : t.rem = s.rem) (n : Nat) : remP t n = remP s n := by rw [remP, h, remP]

theorem rem_bump (s : State) (i pg off n : Nat) : (bump s i pg off n).rem = s.rem := by rw [bump_frame]

theorem remOut_bump (s : State) (i pg off n : Nat) : (bump s i pg off n).remOut = s.remOut := by rw [bump_frame]

/-! ## Groups without frames -/

/-- The ports as they stand once the header of a group is out. -/
def headerSent (s : State) (n : RemPort) : State :=
  updRem { s with remOut := s.remOut ++ [(n, 3, headerBytes14 s n [])] } n fun x =>
    { x with gseq := (x.gseq + 1) % 2 ^ 32, reported := x.freed }

theorem sendGroup_nil (s : State) (n : RemPort) : sendGroup s n [] = bumpRem (headerSent s n) n 0xF10 1 := by
  have hport : Fin.ofNat 64 n.val = n := Fin.ofNat_val_eq_self n
  rw [sendGroup, hport]
  rfl

theorem remOut_sendGroup_nil (s : State) (n : RemPort) :
    (sendGroup s n []).remOut = s.remOut ++ [(n, 3, headerBytes14 s n [])] := by
  rw [sendGroup_nil, bumpRem, remOut_bump]
  rfl

theorem remP_sendGroup_nil (s : State) (n : RemPort) : remP (sendGroup s n []) n =
    { remP s n with gseq := ((remP s n).gseq + 1) % 2 ^ 32, reported := (remP s n).freed } := by
  rw [sendGroup_nil, bumpRem, remP_of_rem (rem_bump ..), headerSent, remP_updRem_same]
  rfl

theorem sendGroup_nil_frame (s : State) (n : RemPort) : sendGroup s n [] =
    { s with
      rem := (sendGroup s n []).rem
      remOut := (sendGroup s n []).remOut
      live := (sendGroup s n []).live } := by
  rw [sendGroup_nil, bumpRem, bump_frame]
  rfl

/-! ## Links -/

section
variable {s : State} {n : Nat}

theorem linkUp_stays (h : remPresent s n = false ∨ (remP s n).up = true) : linkUp s n = s := by
  have hno : (!(remPresent s n) || (remP s n).up) = true := by simpa using h
  rw [linkUp, if_pos hno]

theorem linkUp_comes (hpresent : remPresent s n = true) (hdown : (remP s n).up = false) :
    linkUp s n = remSettle (sendGroup (updRem s n fun x =>
      { x with
        up := true
        gseq := 0
        sent := [0, 0, 0, 0]
        freed := [0, 0, 0, 0]
        peerFreed := [0, 0, 0, 0]
        reported := [0, 0, 0, 0]
        group := []
        groupSent := [0, 0, 0, 0] }) n []) := by
  have hyes : ¬ (!(remPresent s n) || (remP s n).up) = true := by simp [hpresent, hdown]
  rw [linkUp, if_neg hyes]

theorem linkDown_stays (h : portTakes s n = false) : linkDown s n = s := by
  rw [linkDown, h]
  rfl

theorem freedReport_silent (h : portTakes s n = false ∨ (unreported s n).any (· != 0) = false) : freedReport s n = s := by
  have hno : ¬ (portTakes s n && (unreported s n).any (· != 0)) = true := by
    rcases h with h | h
    · simp [h]
    · rw [h, Bool.and_false]
      exact Bool.false_ne_true
  rw [freedReport, if_neg hno]

theorem freedReport_sends (htakes : portTakes s n = true) (hfreed : (unreported s n).any (· != 0) = true) :
    freedReport s n = sendGroup s n [] := by
  rw [freedReport, if_pos (by rw [htakes, hfreed]; rfl)]

end

theorem linkDown_falls {s : State} {n : RemPort} (h : portTakes s n = true) :
    let v := addFault s { faultOf (Who.block 4) 9 3 with port := n }
    linkDown s n = remSettle (updRem ((jobCmds v).foldl (fun s e => jobLinkDown s n e.1 e.2.1 e.2.2.stamp) v) n fun x =>
      { x with up := false, group := [], mirror := [], alone := 0, aloneOk := false }) := by
  rw [linkDown, h]
  rfl

theorem any_ne_zero_of_all {l : List Nat} (h : l.all (· == 0) = true) : l.any (· != 0) = false := by
  rw [List.any_eq_false]
  intro x hx
  simp [beq_iff_eq.mp (List.all_eq_true.mp h x hx)]

/-- Settles O46: each row acts in one state of the link alone, and the first group of a link carries no frame. -/
theorem linksComeUpAndFall : Obligations.LinksComeUpAndFall := by
  intro n s hruns
  have hup : exec (.linkUp n) s = .next (keepPins s (linkUp s n)) := act_runs hruns fun s => linkUp s n
  have hdown : exec (.linkDown n) s = .next (keepPins s (linkDown s n)) := act_runs hruns fun s => linkDown s n
  have htimer : exec (.freedReportTimer n) s = .next (keepPins s (freedReport s n)) := act_runs hruns fun s => freedReport s n
  refine ⟨fun hstays => ?_, fun hpresent hlow => ?_, fun hno => ⟨?_, ?_⟩, fun htakes => ?_, fun hall => ?_, fun htakes hfreed => ?_⟩
  · rw [hup, linkUp_stays hstays]
    rfl
  · rw [hup, linkUp_comes hpresent hlow]
  · rw [hdown, linkDown_stays hno]
    rfl
  · rw [htimer, freedReport_silent (.inl hno)]
    rfl
  · intro v
    rw [hdown, linkDown_falls htakes]
  · rw [htimer, freedReport_silent (.inr (any_ne_zero_of_all hall))]
    rfl
  · have hframe := sendGroup_nil_frame s n
    refine ⟨sendGroup s n [], ?_, remOut_sendGroup_nil s n, ?_, ?_, hframe⟩
    · rw [htimer, freedReport_sends htakes hfreed, hframe]
      rfl
    · rw [remP_sendGroup_nil]
    · rw [remP_sendGroup_nil]

/-! ## Frames -/

theorem not_frameBad (sof : BitVec 64) (err : Bool) : (!(frameBad sof err)) = (!err && sof.toNat / 4 == 0) := by
  rw [frameBad, Bool.not_or, bne, Bool.not_not]

/-- The checks of a header frame (R350, R351). -/
def headerGood (b : List Byte) (sof : BitVec 64) (err : Bool) : Bool :=
  !err && sof.toNat / 4 == 0 && leAt b 60 4 == crc32c (b.take 60 ++ b.drop 64) && allZero ((b.drop 1).take 3) &&
    allZero ((b.drop 42).take 18) && decide (leAt b 0 1 ≤ 63) &&
    allZero ((b.drop (64 * (leAt b 0 1 + 1))).take (4096 - 64 * (leAt b 0 1 + 1)))

/-- What a header that passes its checks tells of the peer and of its group (Table 14-1). -/
def headerTold (s : State) (n : Nat) (b : List Byte) : State :=
  updRem s n fun x =>
    { x with
      peerFreed := (List.range 4).map fun v => leAt b (24 + 4 * v) 4
      groupSent := (List.range 4).map fun v => leAt b (8 + 4 * v) 4
      blkid := leAt b 40 2
      group := (List.range (leAt b 0 1)).map fun i => (b.drop (64 * (i + 1))).take 64 }

theorem headerReceive_eq {s : State} {n : Nat} {frame : List Byte} {sof : BitVec 64} {err : Bool} (h : portTakes s n = true) :
    headerReceive s n frame sof err =
      if !(headerGood (fitBytes 4096 frame) sof err) then bumpRem (updRem s n fun x => { x with group := [] }) n 0xF1C 1
      else remSettle (if leAt (fitBytes 4096 frame) 0 1 = 0 then groupOver (headerTold s n (fitBytes 4096 frame)) n
        else headerTold s n (fitBytes 4096 frame)) := by
  have htakes : ¬ (!(portTakes s n)) = true := by simp [h]
  rw [headerReceive, if_neg htakes, headerGood, not_frameBad]
  rfl

/-- The checks of a data frame against its record (R352, R353). -/
def dataGood (rec_ data : List Byte) (fr : Frame) (sof : BitVec 64) (err : Bool) : Bool :=
  !err && sof.toNat / 4 == 0 && leAt rec_ 60 4 == crc32c data && allZero ((rec_.drop 24).take 36) && decide (fr.vc ≤ 3) &&
    decide (leAt rec_ 1 1 < 2) && decide (fr.offset < 2 ^ 40) && decide (1 ≤ fr.len) && decide (fr.len ≤ 4096)

theorem dataReceive_ungrouped {s : State} {n : Nat} {frame : List Byte} {sof : BitVec 64} {err : Bool} (h : portTakes s n = true)
    (hgroup : (remP s n).group = []) : dataReceive s n frame sof err = bumpRem s n 0xF18 1 := by
  have htakes : ¬ (!(portTakes s n)) = true := by simp [h]
  rw [dataReceive, if_neg htakes, hgroup]

theorem dataReceive_grouped {s : State} {n : Nat} {frame : List Byte} {sof : BitVec 64} {err : Bool} (h : portTakes s n = true)
    {x : List Byte} {rest : List (List Byte)} (hgroup : (remP s n).group = x :: rest) :
    let fr := frameOf x (fitBytes 4096 frame) (remP s n).blkid
    let ok := dataGood x (fitBytes 4096 frame) fr sof err
    let v := updRem s n fun y => { y with group := rest, landing := if ok then y.landing ++ [fr] else y.landing }
    let w := if ok then v else bumpRem v n 0xF18 1
    dataReceive s n frame sof err = remSettle (if rest.isEmpty then groupOver w n else w) := by
  have htakes : ¬ (!(portTakes s n)) = true := by simp [h]
  rw [dataReceive, if_neg htakes, hgroup, not_frameBad]
  rfl

/-- Settles O47: a header or a data frame is taken or lost by the outcome of its checks, which read the frame alone. -/
theorem framesAreChecked : Obligations.FramesAreChecked := by
  intro n frame sof err s hruns b k good
  have hheader : exec (.headerFrameReceive n { bytes := frame, sof := sof } err) s = .next (keepPins s (headerReceive s n frame sof err)) :=
    act_runs hruns fun s => headerReceive s n frame sof err
  have hdata : exec (.dataFrameReceive n { bytes := frame, sof := sof } err) s = .next (keepPins s (dataReceive s n frame sof err)) :=
    act_runs hruns fun s => dataReceive s n frame sof err
  have hgood : headerGood (fitBytes 4096 frame) sof err = good := rfl
  refine ⟨fun hno => ⟨?_, ?_⟩, fun htakes hbad => ?_, fun htakes hpass => ?_, fun htakes hgroup => ?_, fun htakes x rest hgroup => ?_⟩
  · rw [hheader, headerReceive, hno]
    rfl
  · rw [hdata, dataReceive, hno]
    rfl
  · rw [hheader, headerReceive_eq htakes, hgood, hbad]
    rfl
  · intro v
    rw [hheader, headerReceive_eq htakes, hgood, hpass]
    rfl
  · rw [hdata, dataReceive_ungrouped htakes hgroup]
  · intro fr ok v w
    rw [hdata, dataReceive_grouped htakes hgroup]
    rfl

end Sys2Proof.Machine
end

section
/-! Commands of the remote ports: their issue, their start, and the waits that end (R356 to R380). -/

namespace Sys2Proof.Machine

open Sys2Proof

/-! ## Issue and start -/

/-- A row of the remote ports runs its command, but where a received sequence waits for its edit. -/
theorem exec_remoteRow {i : Instr} {p : Part} {st : Strm} {op : Nat} {mine : Cmd → Bool} (h : remoteRow i = some (p, st, op, mine))
    {s : State} {k : Cmd} (hmine : mine k = true) (hheld : op = opMOLT → mine k = true → k.get .mode = 1 → heldMolt s p st = none)
    (hruns : Runs s) : exec i s = .next (keepPins s (remoteOp s p st op mine)) := by
  cases i
  case moltRecv q t =>
    injection h with h
    injection h with hp h
    injection h with hst h
    injection h with hop hm
    subst hp hst hop hm
    have hrow := act_runs hruns fun s => moltRecv s q t
    rw [moltRecv, ← heldMolt, hheld rfl hmine (beq_iff_eq.mp hmine)] at hrow
    exact hrow
  case moltSend | ringStepAttn | ringStepGather | redRecv | mirrorSeg =>
    injection h with h
    injection h with hp h
    injection h with hst h
    injection h with hop hm
    subst hp hst hop hm
    exact act_runs hruns fun s => remoteOp s _ _ _ _
  all_goals cases h

/-- The first command of a row that is issued starts. -/
def remoteStarted (s : State) (p : Nat) (st : Strm) (op : Nat) (mine : Cmd → Bool) : State :=
  match readyRemote s p st op mine with
  | some c => startRemote s p st c
  | none => s

theorem remoteOp_ready {s : State} {p : Nat} {st : Strm} {op : Nat} {mine : Cmd → Bool} {k : Cmd}
    (h : readyRemote s p st op mine = some k) : remoteOp s p st op mine = settled (remSettle (startRemote s p st k)) p := by
  rw [remoteOp]
  dsimp only
  rw [← readyRemote, h]
  rfl

theorem remoteOp_issues {s : State} {p : Nat} {st : Strm} {mine : Cmd → Bool} {k : Cmd}
    (h : readyRemote s p st k.op mine = none) (hhead : headCmd s p st = some k) (hmine : mine k = true) :
    remoteOp s p st k.op mine = settled (remSettle (remoteStarted (issueRemote s p st k) p st k.op mine)) p := by
  rw [remoteOp]
  dsimp only
  rw [← readyRemote, h, hhead]
  dsimp only
  rw [if_pos (by simp [hmine])]
  rfl

theorem issueRemote_planned {s u : State} {p : Nat} {st : Strm} {k k1 k2 : Cmd} {r : Run} (hparam : k.paramErr = 0)
    (hedit : (poolReads s p k && editBefore (strm s p st) k) = false) (hpin : pinned s p st k = some (u, k1))
    (hr : ranM u (cmdCtx u p st k1 0xFF 0) (remotePlan p k1) = .ok (k2, []) r) :
    issueRemote s p st k = remoteIssued r.s p st k2 := by
  have hgood : ¬ (k.paramErr != 0) = true := by simp [hparam]
  rw [issueRemote, if_neg hgood]
  rw [if_neg (Bool.not_eq_true _ ▸ hedit), ← pinned, hpin]
  dsimp only
  rw [hr]
  rfl

theorem startRemote_starts {s u : State} {p : Nat} {st : Strm} {k : Cmd} {j : RemJob} (helig : eligible s p st = true)
    (hbudget : budgetFits s k.energy = true) (hfree : remoteWaits s k = false)
    (hjob : jobStep s p st k (if k.op = opMIRROR then 5 else 4) (remoteJob k) = (u, some j)) :
    startRemote s p st k = updCmd (charge u k.energy) p st k.stamp fun c =>
      { c with stage := .started, begun := true, ticks := 0, remote := some j } := by
  have hgo : ¬ (!(eligible s p st) || !(budgetFits s k.energy) || remoteWaits s k) = true := by simp [helig, hbudget, hfree]
  rw [startRemote, if_neg hgo, hjob]

/-- Settles O48: a row starts its first issued command, or issues the head of its stream and starts that. -/
theorem remoteCommandsIssueAndStart : Obligations.RemoteCommandsIssueAndStart := by
  intro i p st op mine s k hi hruns hheld hop hmine
  subst hop
  have hrow := exec_remoteRow hi hmine hheld hruns
  refine ⟨fun u v k1 k2 r hnone hmay hpin hr hv => ?_, fun u j hready helig hbudget hfree hjob => ?_⟩
  · obtain ⟨hhead, hparam, hedit⟩ := hmay
    subst hv
    rw [hrow, remoteOp_issues hnone hhead hmine, issueRemote_planned hparam hedit hpin hr]
    rfl
  · rw [hrow, remoteOp_ready hready, startRemote_starts helig hbudget hfree hjob]

/-! ## Waits that end -/

section
variable {s : State} {p : Nat} {st : Strm} {stamp : Word} {c : Cmd} {j : RemJob}

theorem remoteTimeout_gone (h : getCmd s p st stamp = none) : remoteTimeout s p st stamp = s := by
  rw [remoteTimeout, h]

section
variable (hc : getCmd s p st stamp = some c) (hj : liveJob c = some j)
include hc hj

theorem remoteTimeout_early (h : c.get .tmo = 0 ∨ c.ticks < c.get .tmo) : remoteTimeout s p st stamp = s := by
  have hearly : (decide (c.get .tmo = 0) || decide (c.ticks < c.get .tmo)) = true := by simpa using h
  rw [remoteTimeout, hc]
  dsimp only
  rw [hj]
  exact if_pos hearly

variable (htmo : c.get .tmo ≠ 0) (hlate : c.get .tmo ≤ c.ticks)
include htmo hlate

theorem remoteTimeout_receive (hrx : (j.rxOpen && !(rxDone j)) = true) :
    let v := addFault s { faultOf (Who.cmd p st stamp 4) 9 1 with arg0 := j.rxPorts % 2 ^ 32, arg1 := j.rxPorts / 2 ^ 32 }
    remoteTimeout s p st stamp = remSettle (settled (Machine.endCmd v p st stamp stABORTED (lastFault v)) p) := by
  have htime : ¬ (decide (c.get .tmo = 0) || decide (c.ticks < c.get .tmo)) = true := by simpa using ⟨htmo, hlate⟩
  rw [remoteTimeout, hc]
  dsimp only
  rw [hj]
  dsimp only
  rw [if_neg htime, hrx]
  rfl

theorem remoteTimeout_send (hrx : (j.rxOpen && !(rxDone j)) = false) (htx : (txDone s j && !(mirrorWaits s p st stamp)) = false) :
    let v := addFault s { faultOf (Who.cmd p st stamp 4) 9 2 with arg0 := j.txPorts % 2 ^ 32, arg1 := j.txPorts / 2 ^ 32 }
    remoteTimeout s p st stamp = remSettle (settled (Machine.endCmd v p st stamp stABORTED (lastFault v)) p) := by
  have htime : ¬ (decide (c.get .tmo = 0) || decide (c.ticks < c.get .tmo)) = true := by simpa using ⟨htmo, hlate⟩
  rw [remoteTimeout, hc]
  dsimp only
  rw [hj]
  dsimp only
  rw [if_neg htime, hrx, Bool.not_false, Bool.true_and, htx]
  rfl

end

end

theorem mirrorAlone_waits {s : State} {n : Nat} (h : aloneTicks s = 0 ∨ (remP s n).alone < aloneTicks s ∨ (remP s n).mirror = []) :
    mirrorAlone s n = s := by
  have hno : (decide (aloneTicks s = 0) || decide ((remP s n).alone < aloneTicks s) || (remP s n).mirror.isEmpty) = true := by
    simpa [or_assoc] using h
  rw [mirrorAlone]
  exact if_pos hno

theorem mirrorAlone_expires {s : State} {n : Nat} (hticks : aloneTicks s ≠ 0) (hlate : aloneTicks s ≤ (remP s n).alone)
    (hmirror : (remP s n).mirror ≠ []) : mirrorAlone s n = remSettle (updRem s n fun x => { x with aloneOk := true }) := by
  have hyes : ¬ (decide (aloneTicks s = 0) || decide ((remP s n).alone < aloneTicks s) || (remP s n).mirror.isEmpty) = true := by
    simp [hticks, hlate, hmirror]
  rw [mirrorAlone]
  exact if_neg hyes

theorem moltRecv_held {s : State} {p : Nat} {st : Strm} {c : Cmd} (h : heldMolt s p st = some c) :
    moltRecv s p st = if editFree s p st c then settled (startEdit s p st c false) p else s := by
  rw [moltRecv, ← heldMolt, h]
  rfl

/-- Settles O49: each row tests its own moment before it acts. -/
theorem remoteWaitsEnd : Obligations.RemoteWaitsEnd := by
  intro p st stamp n s hruns
  have htimeout : exec (.remoteTimeout p st stamp) s = .next (keepPins s (remoteTimeout s p st stamp)) :=
    act_runs hruns fun s => remoteTimeout s p st stamp
  have halone : exec (.mirrorAloneExpiry n) s = .next (keepPins s (mirrorAlone s n)) := act_runs hruns fun s => mirrorAlone s n
  have hrecv : exec (.moltRecv p st) s = .next (keepPins s (moltRecv s p st)) := act_runs hruns fun s => moltRecv s p st
  refine ⟨fun hgone => ?_, fun c j hc hj => ⟨fun hearly => ?_, fun htmo hlate hrx => ?_, fun htmo hlate hrx htx => ?_⟩, fun hwait => ?_,
    fun hticks hlate hmirror => ?_, fun c hheld => ?_⟩
  · rw [htimeout, remoteTimeout_gone hgone]
    rfl
  · rw [htimeout, remoteTimeout_early hc hj hearly]
    rfl
  · intro v
    rw [htimeout, remoteTimeout_receive hc hj htmo hlate hrx]
  · intro v
    rw [htimeout, remoteTimeout_send hc hj htmo hlate hrx htx]
  · rw [halone, mirrorAlone_waits hwait]
    rfl
  · rw [halone, mirrorAlone_expires hticks hlate hmirror]
  · rw [hrecv, moltRecv_held hheld, apply_ite (keepPins s)]
    rfl

end Sys2Proof.Machine
end
